-- ==== Sys2Proof/Word.lean ====
section
/-! DEFINITION. The word types of the Fleron F7 (R3, R35, R50) and their plainest arithmetic. -/

namespace Sys2Proof

/-- A byte of any memory space. -/
abbrev Byte := BitVec 8
/-- A 4-byte word, the unit of coherence (R166) and of poison (R199, R269). -/
abbrev W32 := BitVec 32
/-- A scalar register, an address, an instruction word (R35, R50). -/
abbrev Word := BitVec 64
/-- A 6-bit register field (R38). -/
abbrev Reg := BitVec 6
/-- A mask register: one bit per element, at most 131,072 (R50). -/
abbrev MaskReg := BitVec 131072

/-- Sign-extends a field to 64 bits (`sext` of R49). -/
def sext64 {n : Nat} (x : BitVec n) : Word := x.signExtend 64
/-- Zero-extends a field to 64 bits (`zext` of R49). -/
def zext64 {n : Nat} (x : BitVec n) : Word := x.setWidth 64

end Sys2Proof
end

