-- ==== Sys2Proof/Config.lean ====
section
/-! DEFINITION. What the F7-509 fixes (R8 to R13, R77, R136) and the choices the spec leaves to the device. -/

namespace Sys2Proof.Config

/-- Compute cores of the package (R8). -/
def computeCores : Nat := 128
/-- Control cores of the package (R8). -/
def controlCores : Nat := 8
/-- Harts of a compute core (R9). -/
def hartsPerCore : Nat := 8
/-- Compute harts, numbered 0 to 1,023 (R9). -/
def computeHarts : Nat := 1024
/-- Dies (R8). -/
def dies : Nat := 4
/-- Lane clusters of a core (R11). -/
def clusters : Nat := 16
/-- Bytes of device memory: 509 GiB (R13, R136). -/
def deviceBytes : Nat := 509 * 2 ^ 30
/-- Host memory over CXL.cache starts here (R136). -/
def hostBase : Nat := 2 ^ 52
/-- First address past host memory (R136). -/
def hostEnd : Nat := 2 ^ 56
/-- A-space bytes (R130). -/
def aBytes : Nat := 4 * 2 ^ 20
/-- C-space bytes (R130). -/
def cBytes : Nat := 2 * 2 ^ 20
/-- W-space bytes (R130). -/
def wBytes : Nat := 8 * 2 ^ 20
/-- Lines of a core's L1 data cache of 256 KiB (R11). -/
def l1Lines : Nat := 4096
/-- Memory requests a core can have outstanding (R11). -/
def maxRequests : Nat := 2048
/-- Parts of a core cycle that a die's core clock counts: at throttle step k a nanosecond adds 28 − k of them, which makes
700 − 25 k MHz (R10, R285). -/
def clockUnit : Nat := 40
/-- Vector register file share of one cluster in bytes (R57). -/
def clusterVBytes : Nat := 65536
/-- Records of a level's on-chip FIFO (R77). -/
def fifoRecords : Nat := 256
/-- Vector queue entries of a hart (R98, R166). -/
def vqDepth : Nat := 8
/-- Store and atomic accesses of a hart that its element queues hold beside those to the core's own banks (R166 gives the
queues, no size: DESIGN CHOICE, log 29). -/
def elemQueue : Nat := 64
/-- Live packs of the package (R237). -/
def maxPacks : Nat := 64
/-- Members of a pack (R237). -/
def maxMembers : Nat := 1024
/-- Lines of a pack's write-set (R246). -/
def packLines : Nat := 32768
/-- Pack directory entries of a die (R12, R246). -/
def packDirectory : Nat := 65536
/-- Range entries of a home slice (R185). -/
def homeRanges : Nat := 4096
/-- Landing space of a hart in bytes (R71). -/
def landingBytes : Nat := 262144
/-- Physical pages open to a hold at once (R151). -/
def maxHolds : Nat := 16
/-- Base of the control register window of die 0 (R274). -/
def ctrlBase : Nat := 0xFF00_0000_0000_0000

/-- A free choice of the device, one per number: the rules that say "the device may" list two outcomes
(R146, R151, R168, R170 to R172, R226, R229); which one occurs is unknown. The number is State.fresh, which a step
that uses a choice advances (log 5). -/
opaque choice : Nat → Bool

/-- The step that the power and thermal limits call for beyond 1,800 W or 100 degrees (R285), by averaged power in W and
hottest sensor in tenths of a degree; the spec gives no figure (log 6). -/
opaque throttleStep : Nat → Nat → BitVec 4

/-- In a clock-stretch episode a cycle that may stretch does (R289), by the place of the die's clock (log 58). -/
opaque stretches : Nat → Bool

/-- The largest request of a collective group's members in other packages, and whether their acknowledgements reach a leader of
this package in time (R284 to R286), by State.fresh (log 58). -/
opaque remoteRequest : Nat → BitVec 4
opaque remoteAcks : Nat → Bool

/-- The number of a pseudo-channel that fails after bring-up (R271, R276), by State.fresh (log 26). -/
opaque failedChannel : Nat → Nat

/-- The digest of the fuse configuration (R291). -/
opaque fuseDigest : BitVec 384
/-- The ECDSA P-384 signature of measurement n: the key is secret and the signature takes a nonce (R291, log 28). -/
opaque signature : Nat → BitVec 384 → BitVec 384 → BitVec 768
/-- The device's part of IDE key exchange n (R273, R291, log 28). -/
opaque ideAnswer : Nat → BitVec 768

/-- The tenant partition a PASID is bound to (R100, R273); how the binding is made is not stated (log 5). -/
opaque pasidPartition : Nat → BitVec 4

end Sys2Proof.Config
end

