-- ==== Sys2Proof/Syntax.lean ====
section
/-! DEFINITION. The instructions and events of the F7: one constructor for each row of the opcode table. -/

namespace Sys2Proof

/-! ## Operand kinds -/

/-- Element types, T = 0 to 9 (R29, R38). T = 10 (ni) is taken by no instruction. -/
inductive Ty | i8 | i16 | i32 | i64 | u8 | u16 | u32 | u64 | bf16 | f32
  deriving DecidableEq, Repr

/-- Scalar floating-point formats: T = 8 or 9 (R317). -/
inductive FTy | bf16 | f32
  deriving DecidableEq, Repr

/-- Rounding modes (R110); 6 is reserved. -/
inductive Rm | rne | rtz | rup | rdn | rmm | sr | dyn
  deriving DecidableEq, Repr

/-- Space field of a memory access: SP 0 to 5 (R38, R130). -/
inductive Space | dflt | g | a | c | w | ra
  deriving DecidableEq, Repr

/-- Scopes of ordering instructions (R175). -/
inductive Scope | core | die | pkg | sys
  deriving DecidableEq, Repr

/-- Shift kinds of SHLI (R329). -/
inductive ShKind | shl | shr | sra
  deriving DecidableEq, Repr

/-- Widths of LD (R325). -/
inductive LdW | b | h | w | d | bu | hu | wu
  deriving DecidableEq, Repr

/-- Widths of ST (R325). -/
inductive StW | b | h | w | d
  deriving DecidableEq, Repr

/-- Branch conditions (R308). -/
inductive CC | eq | ne | lt | ge | ltu | geu
  deriving DecidableEq, Repr

/-- Relations of FCMP (R318). -/
inductive FRel | eq | lt | le | un
  deriving DecidableEq, Repr

/-- Operations of AMO (R300). -/
inductive AmoOp | swap | add | and | or | xor | min | max | minu | maxu | fadd
  deriving DecidableEq, Repr

/-- Operations of VAMO (R367). -/
inductive VAmoOp | add | and | or | xor | min | max | fadd
  deriving DecidableEq, Repr

/-- Kinds of VDRAIN (R177). -/
inductive DrainKind | l | s | a
  deriving DecidableEq, Repr

/-- Conditions of WAITA (R148). -/
inductive WaitCond | eq | ne | geu
  deriving DecidableEq, Repr

/-- Level kinds named by TCANCEL, FN 1 to 4 (R82). -/
inductive LevelKind | launch | graph | phase | job
  deriving DecidableEq, Repr

/-- What TSELF reads, FN 0 to 4 (R87). -/
inductive SelfKind | task | launch | hart | die | part
  deriving DecidableEq, Repr

/-- Relations of VCMP (R359). -/
inductive VRel | eq | ne | lt | le | gt | ge | un
  deriving DecidableEq, Repr

/-- Operations of VRED (R364). -/
inductive RedOp | sum | min | max | and | or | xor
  deriving DecidableEq, Repr

/-- Operations of MLOGIC (R330). -/
inductive MOp | and | or | xor | andn | orn | nand | nor | xnor
  deriving DecidableEq, Repr

/-- Addressing kinds of vector memory: K (R365). -/
inductive AKind | unit | strided | indexed
  deriving DecidableEq, Repr

/-- Activation formats of MROW (R204). -/
inductive AFmt | bf16 | int8 | ni8
  deriving DecidableEq, Repr

/-- Operations of XRED (R377). -/
inductive XOp | sum | min | max
  deriving DecidableEq, Repr

/-- Types of XRED (R377). -/
inductive XTy | i32 | i64 | bf16 | f32
  deriving DecidableEq, Repr

/-- The fields a layout R vector instruction assigns (R38, R352). `bs` and `cs`: B and C name scalar registers.
`xm = 0` stands for X = 0. -/
structure VArgs where
  d : Reg
  a : Reg
  b : Reg
  c : Reg
  bs : Bool
  cs : Bool
  m : BitVec 3
  t : Ty
  rm : Rm
  xm : BitVec 3
  sat : Bool
  deriving DecidableEq, Repr

/-- The fields of a vector memory instruction (R365). For VAMO `off` holds OFF[19:0] sign-extended to 24 bits. -/
structure VMem where
  d : Reg
  a : Reg
  b : Reg
  sp : Space
  t : Ty
  m : BitVec 3
  k : AKind
  off : BitVec 24
  deriving DecidableEq, Repr

/-! ## Arguments of event rows -/

/-- Kinds of memory access for translation (R193). -/
inductive Acc | fetch | load | store
  deriving DecidableEq, Repr

/-- What fails in an AGENT_FAILURE (R199). -/
inductive Agent
  | core (n : Nat)
  | slot (die k : Nat)
  | die (n : Nat)
  deriving DecidableEq, Repr

/-- What a host snoop of a host-memory line asks for (R280). -/
inductive SnoopKind | shared | invalidate
  deriving DecidableEq, Repr

/-- The fatal errors of R271, in the order listed there: CAUSE 1 to 5. -/
inductive FatalCause | controlState | dieLink | pseudoChannel | watchdog | thermal
  deriving DecidableEq, Repr

/-- What bring-up finds (R290): inputs from outside the model. -/
structure BringUp where
  imageOk : Bool
  digest : BitVec 384
  failedPcs : List Nat
  cxlOk : Bool
  failedPorts : List Nat
  entry : Word
  deriving DecidableEq, Repr

/-- The header of a Lyszir flit (R283): type, virtual channel, sequence number. -/
structure FlitHead where
  ty : Nat
  vc : Nat
  seq : Nat
  deriving DecidableEq, Repr

/-- The figures a throttle evaluation reads (R285): averaged power in W, hottest sensor in units of 0.1 degree C. -/
structure ThrottleIn where
  power : Nat
  hottest : Nat
  deriving DecidableEq, Repr

/-- One constructor per row of spec/opcode_table.json. Instruction rows act for the hart State.cur; event rows name
the component they belong to. -/
inductive Instr
  -- scalar integer (R297 to R299, R328, R329, R375)
  | add (d a b : Reg)
  | addi (d a : Reg) (imm : BitVec 36)
  | and (d a b : Reg)
  | andi (d a : Reg) (imm : BitVec 36)
  | clz (d a : Reg)
  | ctz (d a : Reg)
  | div (u : Bool) (d a b : Reg)
  | lea (d a b : Reg) (sh : BitVec 3)
  | li (d : Reg) (imm : BitVec 36)
  | liExt (d : Reg) (val : Word)
  | max (u : Bool) (d a b : Reg)
  | min (u : Bool) (d a b : Reg)
  | mul (d a b : Reg)
  | mulh (u : Bool) (d a b : Reg)
  | or (d a b : Reg)
  | ori (d a : Reg) (imm : BitVec 36)
  | popc (d a : Reg)
  | rem (u : Bool) (d a b : Reg)
  | sel (d a b c : Reg)
  | shl (d a b : Reg)
  | shli (k : ShKind) (d a : Reg) (n : BitVec 6)
  | shr (d a b : Reg)
  | slt (u : Bool) (d a b : Reg)
  | slti (u : Bool) (d a : Reg) (imm : BitVec 36)
  | sra (d a b : Reg)
  | sub (d a b : Reg)
  | xor (d a b : Reg)
  | xori (d a : Reg) (imm : BitVec 36)
  | mov (d a : Reg)
  | nop
  -- scalar floating point (R317 to R319)
  | fadd (t : FTy) (rm : Rm) (d a b : Reg)
  | fsub (t : FTy) (rm : Rm) (d a b : Reg)
  | fmul (t : FTy) (rm : Rm) (d a b : Reg)
  | ffma (t : FTy) (rm : Rm) (d a b c : Reg)
  | fdiv (t : FTy) (rm : Rm) (d a b : Reg)
  | fmin (t : FTy) (d a b : Reg)
  | fmax (t : FTy) (d a b : Reg)
  | fcmp (t : FTy) (rel : FRel) (d a b : Reg)
  | fcvt (dst src : Ty) (rm : Rm) (sat : Bool) (d a : Reg)
  -- scalar memory and atomics (R300 to R303, R325, R326, R346, R347)
  | ld (w : LdW) (sp : Space) (d a : Reg) (off : BitVec 24)
  | st (w : StW) (sp : Space) (d a : Reg) (off : BitVec 24)
  | amo (op : AmoOp) (w32 post : Bool) (sp : Space) (d a b : Reg)
  | cas (w32 : Bool) (sp : Space) (d a b c : Reg)
  -- ordering (R173 to R178)
  | fenceAcq (sc : Scope)
  | fenceRel (sc : Scope)
  | fenceFull (sc : Scope)
  | vdrain (k : DrainKind)
  | acquire (sc : Scope) (a : Reg)
  | release (sc : Scope) (a : Reg)
  | bindr (d a b c : Reg)
  | bindrUn (d c : Reg)
  | tlwait (d tl b : Reg) (timeout : BitVec 24)
  | tlread (issued : Bool) (d tl : Reg)
  | waita (cond : WaitCond) (inA : Bool) (d a b : Reg) (timeout : BitVec 24)
  | cflush (a b : Reg)
  | cflushInv (a b : Reg)
  | cinval (a b : Reg)
  -- control flow (R308, R309, R322, R323)
  | br (cc : CC) (a b : Reg) (disp : BitVec 38)
  | brnz (a : Reg) (imm : BitVec 15)
  | brz (a : Reg) (imm : BitVec 15)
  | j (disp : BitVec 38)
  | jExt (target : Word)
  | jal (a : Reg) (disp : BitVec 38)
  | jalExt (a : Reg) (target : Word)
  | jr (d a : Reg) (off : BitVec 24)
  | loopbr (a : Reg) (disp : BitVec 38)
  | loopmarkWait (a : Reg) (len : BitVec 6)
  | loopmarkAhead (d a b c : Reg) (len : BitVec 6)
  | rpstat (d : Reg)
  | yield
  | bkpt
  | trmark (a : Reg) (tag : BitVec 9)
  -- tasks (R82 to R95)
  | spawn (d a : Reg)
  | join (d a b : Reg)
  | joinLvl (d a : Reg)
  | tcancel (k : LevelKind) (d a : Reg)
  | gang (d a b : Reg)
  | tself (k : SelfKind) (d : Reg)
  | tend
  -- vector configuration (R341, R342)
  | setmt (n : BitVec 36)
  | setnv (n : BitVec 36)
  | setsb (add : Bool) (a : Reg) (imm : BitVec 36)
  | setseed (a : Reg) (imm : BitVec 36)
  | setvl (d a : Reg) (width : BitVec 36)
  -- masks (R330)
  | mlogic (op : MOp) (d a b : Reg) (m : BitVec 3)
  | mpopc (d a : Reg) (m : BitVec 3)
  | mfirst (d a : Reg) (m : BitVec 3)
  -- vector arithmetic (R352 to R364)
  | vadd (v : VArgs)
  | vsub (v : VArgs)
  | vmul (v : VArgs)
  | vmulh (v : VArgs)
  | vmulhr (v : VArgs)
  | vdiv (v : VArgs)
  | vrem (v : VArgs)
  | vmin (v : VArgs)
  | vmax (v : VArgs)
  | vand (v : VArgs)
  | vor (v : VArgs)
  | vxor (v : VArgs)
  | vshl (v : VArgs)
  | vshr (v : VArgs)
  | vsra (v : VArgs)
  | vrshr (v : VArgs)
  | vabs (v : VArgs)
  | vneg (v : VArgs)
  | vsqrt (v : VArgs)
  | vrsqrt (v : VArgs)
  | vexp2 (v : VArgs)
  | vfma (v : VArgs)
  | vsel (v : VArgs)
  | vclamp (v : VArgs)
  | vcmp (rel : VRel) (v : VArgs)
  | vcvt (src : Ty) (v : VArgs)
  | vbscale (v : VArgs)
  | vpackni (v : VArgs)
  | vunpkni (k : BitVec 4) (v : VArgs)
  | vmov (byVew : Bool) (v : VArgs)
  | vid (v : VArgs)
  | vext (v : VArgs)
  | vins (v : VArgs)
  | vslide (up : Bool) (v : VArgs)
  | vperm (v : VArgs)
  | vcompress (v : VArgs)
  | vred (op : RedOp) (v : VArgs)
  | vadds (d a b : Reg)
  -- vector memory, streams, landing (R365 to R371)
  | vld (v : VMem)
  | vst (v : VMem)
  | vamo (op : VAmoOp) (v : VMem)
  | vbind (d a : Reg)
  | vunbind (d : Reg)
  | vcommit (tag : BitVec 4)
  -- matrix (R203 to R214)
  | wset (fmt : BitVec 4) (d a : Reg)
  | mrow (f : AFmt) (z : Bool) (d a b c : Reg)
  | mrowv (f : AFmt) (d a b c : Reg) (tag : BitVec 4)
  | mkick (a : Reg)
  | mkickAll
  -- engines (R143, R377)
  | cpy (src dst : BitVec 3) (ch : BitVec 2) (d a b c : Reg)
  | cpy2d (src dst : BitVec 3) (ch : BitVec 2) (d a b c : Reg)
  | xred (op : XOp) (t : XTy) (d : Reg) (tag : BitVec 4)
  -- packs (R238)
  | pkalloc (d a b : Reg) (life : BitVec 24)
  | pkenter (d a b : Reg)
  | pkcommit (d : Reg)
  | pkabort (code : BitVec 24)
  | pkstat (code : Bool) (d a : Reg)
  | pkfree (d a : Reg)
  -- system (R261, R196, R197, R200, R278, R312, R337)
  | csrr (d : Reg) (csr : BitVec 12)
  | csrw (csr : BitVec 12) (a : Reg)
  | ecall (code : BitVec 24)
  | eret
  | eretKill (a : Reg)
  | tlbinvVa (d a b c : Reg)
  | tlbinvAsid (d c : Reg)
  | tlbinvAll (d : Reg)
  | tlbinvWait (d b : Reg)
  | asidsw (d a : Reg)
  | ctxsave (d a : Reg)
  | ctxload (d a : Reg)
  | biassetHost (d a b : Reg)
  | biassetDev (d a b : Reg)
  | poisonclr (a b : Reg)
  | pmigP4k (d a b : Reg)
  | pmigP2m (d a b : Reg)
  | pmigRel (d a b : Reg)
  -- events of a hart and its core
  | vectorStart (h : Nat)
  | element (h k : Nat)
  | elementGroup (h : Nat)
  | streamPrefetch (h reg : Nat)
  | loadDataArrival (h : Nat)
  | drain (h : Nat)
  | register (k : Nat)
  | evict (core line : Nat)
  | atomicStep (k : Nat)
  | raMessageArrival (k : Nat)
  | pageWalk (h : Nat) (va : Word) (acc : Acc)
  | tlbinvComplete (die : Nat)
  | l2TlbEviction (die k : Nat)
  | illegalInstruction (h : Nat)
  | instructionFetchFault (h : Nat)
  -- copy engine, matrix array, collectives
  | copyTransfer (core ch : Nat)
  | copyFlagWrite (core ch : Nat)
  | rowCapture (h : Nat)
  | leash (core slot : Nat)
  | groupAge (core slot : Nat)
  | arrayTakeUp (core : Nat)
  | tileLoad (core : Nat)
  | rowEnter (core : Nat)
  | rowResult (core : Nat)
  | tileLatchError (core : Nat)
  | rowError (core k : Nat) (wspace : Bool)
  | landingComplete (h tag : Nat)
  | collectiveComplete (die k : Nat) (contrib : List (List Byte))
  | xredTimeout (die k : Nat)
  -- loop replay
  | millraceIteration (die slot : Nat)
  | replayComplete (die slot : Nat)
  | departure (die slot : Nat)
  -- scheduler
  | taskPop (h : Nat)
  | agingMove (die part level : Nat)
  | gangTimeout (die k : Nat)
  | cancelBroadcast (die : Nat)
  | doneContPush (die : Nat)
  | heldPush (die : Nat)
  | leaseGrant (core : Nat)
  | gtoStarvation (h : Nat)
  -- packs
  | packCountArrival (h : Nat)
  | packFlip (obj : Nat)
  | packAbort (obj code : Nat)
  | memberRestore (h : Nat)
  | tentativeStoreArrival (h : Nat)
  | nonmemberHoldExpiry (k : Nat)
  | packLifetimeExpiry (obj : Nat)
  -- timers
  | timer (h : Nat)
  | watchdog (h : Nat)
  | waitaTimeout (h : Nat)
  | tlwaitTimeout (h : Nat)
  -- errors
  | registerSoftError (h reg word : Nat) (scalar : Bool) (syndrome : Word)
  | laneRetired (core lane elem : Nat) (syndrome : Word)
  | agentFailure (a : Agent) (syndrome : Word)
  | fatalError (c : FatalCause) (origin dieMask : Nat)
  -- trace
  | sync (core : Nat)
  | sample (core : Nat)
  | trctlWrite (core : Nat) (v : Word)
  -- control registers
  | preemptRequest (h : Nat)
  | partcoreWrite (core : Nat) (v : Word)
  | partitionChange (core : Nat)
  | qringWrite (die part level : Nat) (size : Bool) (v : Word)
  | queueMap (die q : Nat) (v : Word)
  | queueUnmap (die q : Nat) (v : Word)
  | qsubmit (die : Nat) (v : Word)
  | mrreclaim (die : Nat) (v : Word)
  | xgctlWrite (die : Nat) (v : Word)
  | configRegisterWrite (die off : Nat) (v : Word)
  -- host
  | notify (q : Nat) (v : Word)
  | hostMemRead (pa w : Nat)
  | hostMemWrite (pa w : Nat) (v : Word)
  | hostSnoop (line : Nat) (k : SnoopKind)
  | snoopResponse (line : Nat) (data : Option (List Byte))
  | biasSnoopTimeout (h : Nat)
  | mailboxRecoveryImage (valid : Bool) (b : BringUp)
  | mailboxDumpAddress (a : Word)
  | mailboxBringupStatus
  | doeSpdmRequest (measurements : Bool)
  | bringUp (b : BringUp)
  -- links, power, cooling
  | flitReceive (port : Nat) (head : FlitHead) (crcOk : Bool) (payload : List Byte)
  | portLaneLoss (port : Nat)
  | throttleEvaluation (die : Nat) (x : ThrottleIn)
  | throttleAnnouncement (die : Nat) (step : Nat) (t0 : Nat)
  | throttleAck (die : Nat)
  | throttleEffect (die : Nat)
  | leaderSilence (die : Nat)
  | hbmTempSample (stack : Nat) (temp : Nat)
  | supplyDroop (die : Nat)
  | stretchEnd (die : Nat)
  | thermalTrip (die : Nat) (byFlow : Bool)
  | corePowerGating (core : Nat)
  | corePowerUngating (core : Nat)
  deriving DecidableEq, Repr

end Sys2Proof
end

