-- ==== Sys2Proof/WellFormed.lean ====
section
/-! DEFINITION. Which instruction terms have an encoding (R38 to R41 and the entries' field rules). -/

namespace Sys2Proof

/-- The type is an integer type (T = 0 to 7). -/
def Ty.isInt : Ty → Bool
  | .bf16 | .f32 => false
  | _ => true

/-- The type is a floating-point type (T = 8, 9). -/
def Ty.isFp (t : Ty) : Bool := !t.isInt

/-- The type is a signed integer type (T = 0 to 3). -/
def Ty.isSigned : Ty → Bool
  | .i8 | .i16 | .i32 | .i64 => true
  | _ => false

/-- Element width in bytes. -/
def Ty.bytes : Ty → Nat
  | .i8 | .u8 => 1
  | .i16 | .u16 | .bf16 => 2
  | .i32 | .u32 | .f32 => 4
  | .i64 | .u64 => 8

/-- How a vector entry uses field B (R352). -/
inductive VB | zero | vs | vec | sc
  deriving DecidableEq, Repr

/-- How a vector entry uses field C (R352, R358). -/
inductive VC | zero | vs | mask
  deriving DecidableEq, Repr

/-- The field rules of a layout R vector entry (R352 and the entries' tables). `rm` says whether RM is assigned for
a type, `sr` whether RM = 5 is accepted there, `sat` whether S is. -/
structure VForm where
  a : Bool := true
  b : VB := .vs
  c : VC := .zero
  int : Bool := true
  fp : Bool := true
  m : Bool := true
  x : Bool := false
  rm : Ty → Bool := fun _ => false
  sr : Ty → Bool := fun _ => false
  sat : Ty → Bool := fun _ => false

/-- The rounding field is accepted: zero where unassigned; 5 only where the entry accepts it (R39). -/
def VForm.rmOk (f : VForm) (t : Ty) (r : Rm) : Bool :=
  if f.rm t then (r != .sr || f.sr t) else r == .rne

/-- The operand fields of `v` obey the rules of its entry. -/
def VForm.ok (f : VForm) (v : VArgs) : Bool :=
  (f.a || v.a == 0) &&
  (match f.b with
    | .zero => v.b == 0 && !v.bs
    | .vs => true
    | .vec => !v.bs
    | .sc => v.bs) &&
  (match f.c with
    | .zero => v.c == 0 && !v.cs
    | .vs => true
    | .mask => decide (v.c.toNat < 8) && !v.cs) &&
  (if v.t.isInt then f.int else f.fp) &&
  (f.m || v.m == 0) && (f.x || v.xm == 0) && f.rmOk v.t v.rm && (!v.sat || f.sat v.t)

namespace VForm

/-- VADD, VSUB, VMUL, VDIV (R356). -/
def arith : VForm := { x := true, rm := Ty.isFp, sat := Ty.isInt }
/-- VMULH, VMULHR, VAND, VOR, VXOR, VSHR, VSRA, VRSHR (R356): integers without flags. -/
def intPlain : VForm := { fp := false }
/-- VREM (R356). -/
def rem : VForm := { fp := false, x := true }
/-- VMIN, VMAX (R356). -/
def minmax : VForm := { x := true }
/-- VSHL (R356). -/
def shl : VForm := { fp := false, x := true, sat := Ty.isInt }
/-- VABS (R356): S for signed integers. -/
def abs : VForm := { b := .zero, x := true, rm := Ty.isFp, sat := Ty.isSigned }
/-- VNEG (R356). -/
def neg : VForm := { b := .zero, x := true, rm := Ty.isFp, sat := Ty.isInt }
/-- VSQRT, VRSQRT, VEXP2 (R356). -/
def root : VForm := { b := .zero, int := false, x := true, rm := Ty.isFp }
/-- VFMA (R358). -/
def fma : VForm := { c := .vs, x := true, rm := Ty.isFp, sat := Ty.isInt }
/-- VSEL (R358). -/
def sel : VForm := { c := .mask }
/-- VCLAMP (R358). -/
def clamp : VForm := { c := .vs, x := true }
/-- VCMP (R359). -/
def cmp : VForm := {}
/-- VCVT from `src` (R117, R360). -/
def cvt (src : Ty) : VForm :=
  { b := .zero, x := true, rm := fun _ => true, sr := fun t => t != .f32
    sat := fun t => !(src.isInt && t.isInt && decide (src.bytes < t.bytes)) }
/-- VBSCALE (R124, R361). -/
def bscale : VForm := { b := .zero, int := false, m := false }
/-- VPACKNI and VUNPKNI (R124, R361). -/
def pack : VForm :=
  { b := .vec, int := false, m := false, rm := Ty.isFp, sr := fun _ => true, sat := fun _ => true }
/-- VMOV (R362). -/
def mov : VForm := { b := .vs }
/-- VID (R362). -/
def id : VForm := { a := false, fp := false }
/-- VEXT and VINS (R362). -/
def exchange : VForm := { b := .sc, m := false }
/-- VSLIDE (R363). -/
def slide : VForm := { b := .sc }
/-- VPERM (R363). -/
def perm : VForm := { b := .vec }
/-- VCOMPRESS (R363). -/
def compress : VForm := { b := .zero, c := .mask, m := false }
/-- VRED (R364). -/
def red (op : RedOp) : VForm :=
  match op with
  | .sum => { b := .zero, rm := Ty.isFp, sat := Ty.isInt }
  | .min | .max => { b := .zero }
  | .and | .or | .xor => { b := .zero, fp := false }

end VForm

/-- A mask register number (R40). -/
def isMask (r : Reg) : Bool := decide (r.toNat < 8)
/-- A tile descriptor number (R40). -/
def isTile (r : Reg) : Bool := decide (r.toNat < 4)
/-- A register of scalar bank 1, s32 to s63 (R41). -/
def isBank1 (r : Reg) : Bool := decide (32 ≤ r.toNat)

/-- RM of a scalar floating-point instruction: 5 raises cause 1 (R317). -/
def Rm.scalarOk (r : Rm) : Bool := r != .sr

/-- The scalar conversion's fields (R319). -/
def fcvtOk (dst src : Ty) (rm : Rm) : Bool := dst != src && (rm != .sr || dst != .f32)

/-- The fields of a vector memory instruction (R365). -/
def VMem.ok (v : VMem) : Bool := match v.k with
  | .unit => v.b == 0
  | _ => true

/-- The types VAMO accepts for an operation (R365, R367). -/
def vamoTyOk (op : VAmoOp) (t : Ty) : Bool := match op, t with
  | .fadd, .f32 => true
  | .fadd, _ => false
  | _, .i32 | _, .i64 | _, .u32 | _, .u64 => true
  | _, _ => false

/-- VAMO's offset fits its 20 bits (R367). -/
def off20Ok (off : BitVec 24) : Bool := (off.extractLsb' 0 20).signExtend 24 == off

/-- The term has an encoding. Events have none and are well formed. -/
def Instr.wf : Instr → Bool
  | .fadd _ rm _ _ _ | .fsub _ rm _ _ _ | .fmul _ rm _ _ _ | .fdiv _ rm _ _ _ => rm.scalarOk
  | .ffma _ rm _ _ _ _ => rm.scalarOk
  | .fcvt dst src rm _ _ _ => fcvtOk dst src rm
  | .amo op w32 post _ d _ _ => (op != .fadd || w32) && (!post || d == 0)
  | .tlwait _ tl _ _ => isTile tl
  | .tlread _ _ tl => isTile tl
  | .mov d a => isBank1 d == isBank1 a
  | .brnz a _ | .brz a _ => isBank1 a
  | .vadds d a b => !isBank1 d && !isBank1 a && isBank1 b
  | .mlogic _ d a b _ => isMask d && d != 0 && isMask a && isMask b
  | .mpopc _ a _ | .mfirst _ a _ => isMask a
  | .vadd v | .vsub v | .vmul v | .vdiv v => VForm.arith.ok v
  | .vmulh v | .vmulhr v | .vand v | .vor v | .vxor v | .vshr v | .vsra v | .vrshr v => VForm.intPlain.ok v
  | .vrem v => VForm.rem.ok v
  | .vmin v | .vmax v => VForm.minmax.ok v
  | .vshl v => VForm.shl.ok v
  | .vabs v => VForm.abs.ok v
  | .vneg v => VForm.neg.ok v
  | .vsqrt v | .vrsqrt v | .vexp2 v => VForm.root.ok v
  | .vfma v => VForm.fma.ok v
  | .vsel v => VForm.sel.ok v
  | .vclamp v => VForm.clamp.ok v
  | .vcmp rel v => VForm.cmp.ok v && isMask v.d && v.d != 0 && (rel != .un || v.t.isFp)
  | .vcvt src v => (VForm.cvt src).ok v && v.t != src
  | .vbscale v => VForm.bscale.ok v
  | .vpackni v => VForm.pack.ok v
  | .vunpkni k v => VForm.pack.ok v && decide (1 ≤ k.toNat) && decide (k.toNat ≤ 8)
  | .vmov byVew v =>
    if byVew then
      !isBank1 v.d && !isBank1 v.a && v == { v with b := 0, c := 0, bs := false, cs := false, m := 0, t := .i8, rm := .rne, xm := 0, sat := false }
    else VForm.mov.ok v && (if v.bs then v.a == 0 else v.b == 0)
  | .vid v => VForm.id.ok v && (v.bs || v.b == 0)
  | .vext v | .vins v => VForm.exchange.ok v
  | .vslide _ v => VForm.slide.ok v
  | .vperm v => VForm.perm.ok v
  | .vcompress v => VForm.compress.ok v
  | .vred op v => (VForm.red op).ok v
  | .vld v | .vst v => v.ok
  | .vamo op v => v.ok && vamoTyOk op v.t && off20Ok v.off
  | .wset fmt d _ => isTile d && decide (1 ≤ fmt.toNat) && decide (fmt.toNat ≤ 9)
  | .mrow f _ _ _ b c => isTile b && (f == .ni8 || c == 0)
  | .mrowv f _ _ b c _ => isTile b && (f == .ni8 || c == 0)
  | .mkick a => isTile a
  | _ => true

end Sys2Proof
end

