-- ==== Sys2Proof/Decode.lean ====
section
/-! DEFINITION. The decoder, total on any bytes and rejecting by name, and the encoder (R35 to R47, R295 to R380). -/

namespace Sys2Proof

/-! ## Layouts (R38) -/

/-- The five layouts. -/
inductive Layout | r | i | m | b | e
  deriving DecidableEq, Repr

/-- Layout R. -/
structure LR where
  opc : BitVec 8
  d : Reg
  a : Reg
  b : Reg
  c : Reg
  m : BitVec 3
  t : BitVec 4
  rm : BitVec 3
  x : BitVec 1
  xm : BitVec 3
  s : BitVec 1
  fn : BitVec 7
  z : BitVec 8
  deriving DecidableEq, Repr

/-- Layout I. -/
structure LI where
  opc : BitVec 8
  d : Reg
  a : Reg
  fn : BitVec 6
  imm : BitVec 36
  deriving DecidableEq, Repr

/-- Layout M. -/
structure LM where
  opc : BitVec 8
  d : Reg
  a : Reg
  b : Reg
  sp : BitVec 3
  t : BitVec 4
  m : BitVec 3
  k : BitVec 2
  off : BitVec 24
  deriving DecidableEq, Repr

/-- Layout B. -/
structure LB where
  opc : BitVec 8
  a : Reg
  b : Reg
  cc : BitVec 4
  disp : BitVec 38
  deriving DecidableEq, Repr

/-- Layout E. -/
structure LE where
  opc : BitVec 8
  d : Reg
  a : Reg
  b : Reg
  c : Reg
  fn : BitVec 6
  imm : BitVec 24
  deriving DecidableEq, Repr

/-- A half of a pair word (R41). -/
structure LH where
  hop : BitVec 6
  d : BitVec 5
  a : BitVec 5
  imm : BitVec 15
  deriving DecidableEq, Repr

/-- Bits [hi:lo] of a word. -/
def bits (w : Word) (lo n : Nat) : BitVec n := w.extractLsb' lo n

/-- Reads layout R from a word. -/
def LR.ofWord (w : Word) : LR :=
  { opc := bits w 54 8, d := bits w 48 6, a := bits w 42 6, b := bits w 36 6, c := bits w 30 6, m := bits w 27 3
    t := bits w 23 4, rm := bits w 20 3, x := bits w 19 1, xm := bits w 16 3, s := bits w 15 1, fn := bits w 8 7
    z := bits w 0 8 }

/-- Reads layout I from a word. -/
def LI.ofWord (w : Word) : LI :=
  { opc := bits w 54 8, d := bits w 48 6, a := bits w 42 6, fn := bits w 36 6, imm := bits w 0 36 }

/-- Reads layout M from a word. -/
def LM.ofWord (w : Word) : LM :=
  { opc := bits w 54 8, d := bits w 48 6, a := bits w 42 6, b := bits w 36 6, sp := bits w 33 3, t := bits w 29 4
    m := bits w 26 3, k := bits w 24 2, off := bits w 0 24 }

/-- Reads layout B from a word. -/
def LB.ofWord (w : Word) : LB :=
  { opc := bits w 54 8, a := bits w 48 6, b := bits w 42 6, cc := bits w 38 4, disp := bits w 0 38 }

/-- Reads layout E from a word. -/
def LE.ofWord (w : Word) : LE :=
  { opc := bits w 54 8, d := bits w 48 6, a := bits w 42 6, b := bits w 36 6, c := bits w 30 6, fn := bits w 24 6
    imm := bits w 0 24 }

/-- Reads a half, bits [30:0] of `w >> sh` (R41). -/
def LH.ofWord (w : Word) (sh : Nat) : LH :=
  { hop := bits w (sh + 25) 6, d := bits w (sh + 20) 5, a := bits w (sh + 15) 5, imm := bits w sh 15 }

/-! ## Major opcode map (R44) -/

/-- The assigned major opcodes. -/
inductive Major
  | add | sub | mul | mulh | div | rem | and | or | xor | shl | shr | sra | slt | min | max | clz | ctz
  | popc | sel | lea | addi | andi | ori | xori | shli | slti | li | fadd | fsub | fmul | ffma | fdiv | fmin
  | fmax | fcmp | ld | st | amo | cas | fence | vdrain | fcvt | waita | acquire | release | bindr | cflush
  | cinval | br | j | jal | jr | yield | tend | bkpt | trmark | setvl | setmt | setnv | setsb | setseed
  | vadd | vsub | vmul | vmulh | vmulhr | vdiv | vrem | vmin | vmax | vand | vor | vxor | vshl | vshr | vsra
  | vrshr | vfma | vabs | vneg | vsqrt | vrsqrt | vexp2 | vcmp | vsel | vclamp | vcvt | vpackni | vunpkni
  | vbscale | vmov | vid | vext | vins | vslide | vperm | vcompress | vred | mlogic | mpopc | mfirst | vld
  | vst | vamo | vbind | vunbind | vcommit | wset | mrow | mrowv | mkick | cpy | cpy2d | tlwait | tlread
  | loopmark | loopbr | rpstat | pkalloc | pkenter | pkcommit | pkabort | pkstat | pkfree | spawn | join
  | tcancel | gang | tself | xred | csrr | csrw | ecall | eret | tlbinv | asidsw | ctxsave | ctxload
  | biasset | poisonclr | pmig
  deriving DecidableEq, Repr

/-- The opcode of each cell of the map (R44). -/
def Major.code : Major → BitVec 8
  | .add => 0x01 | .sub => 0x02 | .mul => 0x03 | .mulh => 0x04 | .div => 0x05 | .rem => 0x06 | .and => 0x07
  | .or => 0x08 | .xor => 0x09 | .shl => 0x0A | .shr => 0x0B | .sra => 0x0C | .slt => 0x0D | .min => 0x0E
  | .max => 0x0F | .clz => 0x10 | .ctz => 0x11 | .popc => 0x12 | .sel => 0x13 | .lea => 0x14 | .addi => 0x18
  | .andi => 0x19 | .ori => 0x1A | .xori => 0x1B | .shli => 0x1C | .slti => 0x1D | .li => 0x1E
  | .fadd => 0x20 | .fsub => 0x21 | .fmul => 0x22 | .ffma => 0x23 | .fdiv => 0x24 | .fmin => 0x25
  | .fmax => 0x26 | .fcmp => 0x27 | .ld => 0x28 | .st => 0x29 | .amo => 0x2A | .cas => 0x2B | .fence => 0x2C
  | .vdrain => 0x2D | .fcvt => 0x2E | .waita => 0x2F | .acquire => 0x30 | .release => 0x31 | .bindr => 0x32
  | .cflush => 0x33 | .cinval => 0x34 | .br => 0x38 | .j => 0x39 | .jal => 0x3A | .jr => 0x3B
  | .yield => 0x3C | .tend => 0x3D | .bkpt => 0x3E | .trmark => 0x3F | .setvl => 0x40 | .setmt => 0x41
  | .setnv => 0x42 | .setsb => 0x43 | .setseed => 0x44 | .vadd => 0x48 | .vsub => 0x49 | .vmul => 0x4A
  | .vmulh => 0x4B | .vmulhr => 0x4C | .vdiv => 0x4D | .vrem => 0x4E | .vmin => 0x4F | .vmax => 0x50
  | .vand => 0x51 | .vor => 0x52 | .vxor => 0x53 | .vshl => 0x54 | .vshr => 0x55 | .vsra => 0x56
  | .vrshr => 0x57 | .vfma => 0x58 | .vabs => 0x59 | .vneg => 0x5A | .vsqrt => 0x5B | .vrsqrt => 0x5C
  | .vexp2 => 0x5D | .vcmp => 0x5E | .vsel => 0x5F | .vclamp => 0x60 | .vcvt => 0x61 | .vpackni => 0x62
  | .vunpkni => 0x63 | .vbscale => 0x64 | .vmov => 0x65 | .vid => 0x66 | .vext => 0x67 | .vins => 0x68
  | .vslide => 0x70 | .vperm => 0x71 | .vcompress => 0x72 | .vred => 0x73 | .mlogic => 0x74 | .mpopc => 0x75
  | .mfirst => 0x76 | .vld => 0x78 | .vst => 0x79 | .vamo => 0x7A | .vbind => 0x7B | .vunbind => 0x7C
  | .vcommit => 0x7D | .wset => 0x80 | .mrow => 0x81 | .mrowv => 0x82 | .mkick => 0x83 | .cpy => 0x88
  | .cpy2d => 0x89 | .tlwait => 0x8A | .tlread => 0x8B | .loopmark => 0x90 | .loopbr => 0x91
  | .rpstat => 0x92 | .pkalloc => 0x98 | .pkenter => 0x99 | .pkcommit => 0x9A | .pkabort => 0x9B
  | .pkstat => 0x9C | .pkfree => 0x9D | .spawn => 0xA0 | .join => 0xA1 | .tcancel => 0xA2 | .gang => 0xA3
  | .tself => 0xA4 | .xred => 0xA8 | .csrr => 0xC0 | .csrw => 0xC1 | .ecall => 0xC2 | .eret => 0xC3
  | .tlbinv => 0xC4 | .asidsw => 0xC5 | .ctxsave => 0xC6 | .ctxload => 0xC7 | .biasset => 0xC8
  | .poisonclr => 0xC9 | .pmig => 0xCA

/-- The layout of each cell of the map (R44). -/
def Major.layout : Major → Layout
  | .addi | .andi | .ori | .xori | .shli | .slti | .li | .setvl | .setmt | .setnv | .setsb | .setseed => .i
  | .ld | .st | .vld | .vst | .vamo => .m
  | .br | .j | .jal | .loopbr => .b
  | .amo | .cas | .fence | .vdrain | .waita | .acquire | .release | .bindr | .cflush | .cinval | .jr | .yield
  | .tend | .bkpt | .trmark | .vbind | .vunbind | .vcommit | .wset | .mrow | .mrowv | .mkick | .cpy | .cpy2d
  | .tlwait | .tlread | .loopmark | .rpstat | .pkalloc | .pkenter | .pkcommit | .pkabort | .pkstat | .pkfree
  | .spawn | .join | .tcancel | .gang | .tself | .xred | .csrr | .csrw | .ecall | .eret | .tlbinv | .asidsw
  | .ctxsave | .ctxload | .biasset | .poisonclr | .pmig => .e
  | .add | .sub | .mul | .mulh | .div | .rem | .and | .or | .xor | .shl | .shr | .sra | .slt | .min | .max
  | .clz | .ctz | .popc | .sel | .lea | .fadd | .fsub | .fmul | .ffma | .fdiv | .fmin | .fmax | .fcmp | .fcvt
  | .vadd | .vsub | .vmul | .vmulh | .vmulhr | .vdiv | .vrem | .vmin | .vmax | .vand | .vor | .vxor | .vshl
  | .vshr | .vsra | .vrshr | .vfma | .vabs | .vneg | .vsqrt | .vrsqrt | .vexp2 | .vcmp | .vsel | .vclamp
  | .vcvt | .vpackni | .vunpkni | .vbscale | .vmov | .vid | .vext | .vins | .vslide | .vperm | .vcompress
  | .vred | .mlogic | .mpopc | .mfirst => .r

/-- Assigned opcodes in the order of the map, part 1 of 6. -/
def Major.part1 : List Major :=
  [.add, .sub, .mul, .mulh, .div, .rem, .and, .or, .xor, .shl, .shr, .sra, .slt, .min, .max, .clz, .ctz,
    .popc, .sel, .lea, .addi, .andi, .ori, .xori]

/-- Assigned opcodes in the order of the map, part 2 of 6. -/
def Major.part2 : List Major :=
  [.shli, .slti, .li, .fadd, .fsub, .fmul, .ffma, .fdiv, .fmin, .fmax, .fcmp, .ld, .st, .amo, .cas, .fence,
    .vdrain, .fcvt, .waita, .acquire, .release, .bindr, .cflush, .cinval]

/-- Assigned opcodes in the order of the map, part 3 of 6. -/
def Major.part3 : List Major :=
  [.br, .j, .jal, .jr, .yield, .tend, .bkpt, .trmark, .setvl, .setmt, .setnv, .setsb, .setseed, .vadd,
    .vsub, .vmul, .vmulh, .vmulhr, .vdiv, .vrem, .vmin, .vmax, .vand, .vor]

/-- Assigned opcodes in the order of the map, part 4 of 6. -/
def Major.part4 : List Major :=
  [.vxor, .vshl, .vshr, .vsra, .vrshr, .vfma, .vabs, .vneg, .vsqrt, .vrsqrt, .vexp2, .vcmp, .vsel, .vclamp,
    .vcvt, .vpackni, .vunpkni, .vbscale, .vmov, .vid, .vext, .vins, .vslide, .vperm]

/-- Assigned opcodes in the order of the map, part 5 of 6. -/
def Major.part5 : List Major :=
  [.vcompress, .vred, .mlogic, .mpopc, .mfirst, .vld, .vst, .vamo, .vbind, .vunbind, .vcommit, .wset, .mrow,
    .mrowv, .mkick, .cpy, .cpy2d, .tlwait, .tlread, .loopmark, .loopbr, .rpstat, .pkalloc, .pkenter]

/-- Assigned opcodes in the order of the map, part 6 of 6. -/
def Major.part6 : List Major :=
  [.pkcommit, .pkabort, .pkstat, .pkfree, .spawn, .join, .tcancel, .gang, .tself, .xred, .csrr, .csrw,
    .ecall, .eret, .tlbinv, .asidsw, .ctxsave, .ctxload, .biasset, .poisonclr, .pmig]

/-- The assigned opcodes, by the rows of the map. -/
def Major.all : List Major :=
  part1 ++ part2 ++ part3 ++ part4 ++ part5 ++ part6

/-- The cell an opcode names, if it is assigned. -/
def Major.ofCode (c : BitVec 8) : Option Major := Major.all.find? fun m => m.code == c

/-! ## Field values -/

/-- T as an element type: 0 to 9 (R38). -/
def Ty.ofBits (t : BitVec 4) : Option Ty := match t.toNat with
  | 0 => some .i8 | 1 => some .i16 | 2 => some .i32 | 3 => some .i64 | 4 => some .u8 | 5 => some .u16
  | 6 => some .u32 | 7 => some .u64 | 8 => some .bf16 | 9 => some .f32 | _ => none

/-- T as a scalar floating-point format: 8 or 9 (R317). -/
def FTy.ofBits (t : BitVec 4) : Option FTy := match t.toNat with
  | 8 => some .bf16 | 9 => some .f32 | _ => none

/-- RM: 0 to 5 and 7 (R38). -/
def Rm.ofBits (r : BitVec 3) : Option Rm := match r.toNat with
  | 0 => some .rne | 1 => some .rtz | 2 => some .rup | 3 => some .rdn | 4 => some .rmm | 5 => some .sr
  | 7 => some .dyn | _ => none

/-- SP: 0 to 5 (R38). -/
def Space.ofBits (s : BitVec 3) : Option Space := match s.toNat with
  | 0 => some .dflt | 1 => some .g | 2 => some .a | 3 => some .c | 4 => some .w | 5 => some .ra | _ => none

/-- A scope field (R175). -/
def Scope.ofBits (s : BitVec 2) : Scope := match s.toNat with
  | 0 => .core | 1 => .die | 2 => .pkg | _ => .sys

/-- CC: 0 to 5 (R308). -/
def CC.ofBits (c : BitVec 4) : Option CC := match c.toNat with
  | 0 => some .eq | 1 => some .ne | 2 => some .lt | 3 => some .ge | 4 => some .ltu | 5 => some .geu | _ => none

/-- T of LD (R325). -/
def LdW.ofBits (t : BitVec 4) : Option LdW := match t.toNat with
  | 0 => some .b | 1 => some .h | 2 => some .w | 3 => some .d | 4 => some .bu | 5 => some .hu | 6 => some .wu
  | _ => none

/-- T of ST (R325). -/
def StW.ofBits (t : BitVec 4) : Option StW := match t.toNat with
  | 0 => some .b | 1 => some .h | 2 => some .w | 3 => some .d | _ => none

/-- FN[3:0] of AMO (R300). -/
def AmoOp.ofBits (o : BitVec 4) : Option AmoOp := match o.toNat with
  | 0 => some .swap | 1 => some .add | 2 => some .and | 3 => some .or | 4 => some .xor | 5 => some .min
  | 6 => some .max | 7 => some .minu | 8 => some .maxu | 9 => some .fadd | _ => none

/-- OFF[23:20] of VAMO (R367). -/
def VAmoOp.ofBits (o : BitVec 4) : Option VAmoOp := match o.toNat with
  | 0 => some .add | 1 => some .and | 2 => some .or | 3 => some .xor | 4 => some .min | 5 => some .max
  | 6 => some .fadd | _ => none

/-- FN[3:1] of VCMP (R359). -/
def VRel.ofBits (r : BitVec 3) : Option VRel := match r.toNat with
  | 0 => some .eq | 1 => some .ne | 2 => some .lt | 3 => some .le | 4 => some .gt | 5 => some .ge | 6 => some .un
  | _ => none

/-- FN[3:1] of VRED (R364). -/
def RedOp.ofBits (r : BitVec 3) : Option RedOp := match r.toNat with
  | 0 => some .sum | 1 => some .min | 2 => some .max | 3 => some .and | 4 => some .or | 5 => some .xor | _ => none

/-- FN[2:0] of MLOGIC (R330). -/
def MOp.ofBits (o : BitVec 3) : MOp := match o.toNat with
  | 0 => .and | 1 => .or | 2 => .xor | 3 => .andn | 4 => .orn | 5 => .nand | 6 => .nor | _ => .xnor

/-- FN[1:0] of FCMP (R318). -/
def FRel.ofBits (o : BitVec 2) : FRel := match o.toNat with
  | 0 => .eq | 1 => .lt | 2 => .le | _ => .un

/-- K of layout M: 3 is reserved (R38). -/
def AKind.ofBits (k : BitVec 2) : Option AKind := match k.toNat with
  | 0 => some .unit | 1 => some .strided | 2 => some .indexed | _ => none

/-- FN 0 or 1 where the entry gives two forms. -/
def flag7 (fn : BitVec 7) : Option Bool := match fn.toNat with
  | 0 => some false | 1 => some true | _ => none

/-- FN 0 or 1 where the entry gives two forms. -/
def flag6 (fn : BitVec 6) : Option Bool := match fn.toNat with
  | 0 => some false | 1 => some true | _ => none

/-! ## Parsing by layout

A field an instruction's term does not hold must be zero here (R39); the checks on the fields it holds are
`Instr.accepted`. -/

/-- The decoder's check of the fields a term holds: the rules of R38 to R41 and of the entries. -/
def Instr.accepted (i : Instr) : Bool := i.wf

/-- The vector fields of layout R: X and XM together (R39), bit 7 of the zero field. -/
def LR.vargs (l : LR) (bs cs : Bool) : Option VArgs :=
  match Ty.ofBits l.t, Rm.ofBits l.rm with
  | some t, some rm =>
    if l.z == 0 && ((l.x == 0 && l.xm == 0) || (l.x == 1 && l.xm != 0)) then
      some { d := l.d, a := l.a, b := l.b, c := l.c, bs := bs, cs := cs, m := l.m, t := t, rm := rm, xm := l.xm
             sat := l.s == 1 }
    else none
  | _, _ => none

/-- A vector instruction whose FN is bit 0 alone. -/
def LR.vec (l : LR) (k : VArgs → Instr) : Option Instr :=
  if l.fn.toNat < 2 then (l.vargs (l.fn.getLsbD 0) false).map k else none

/-- A vector instruction with FN bits 0 and 1 for B and C. -/
def LR.vec3 (l : LR) (k : VArgs → Instr) : Option Instr :=
  if l.fn.toNat < 4 then (l.vargs (l.fn.getLsbD 0) (l.fn.getLsbD 1)).map k else none

/-- A vector instruction whose FN is 0 and whose B always names a scalar. -/
def LR.vecSc (l : LR) (k : VArgs → Instr) : Option Instr :=
  if l.fn == 0 then (l.vargs true false).map k else none

/-- M, T, RM, X, XM, S and the zero field are zero (R297). -/
def LR.plain (l : LR) : Bool :=
  l.m == 0 && l.t == 0 && l.rm == 0 && l.x == 0 && l.xm == 0 && l.s == 0 && l.z == 0

/-- A scalar instruction with FN 0 and C zero. -/
def LR.sc (l : LR) (i : Instr) : Option Instr := if l.plain && l.fn == 0 && l.c == 0 then some i else none

/-- A scalar instruction with FN 0 or 1. -/
def LR.scU (l : LR) (k : Bool → Instr) : Option Instr :=
  if l.plain && l.c == 0 then (flag7 l.fn).map k else none

/-- A scalar floating-point instruction (R317). -/
def LR.fp (l : LR) (k : FTy → Rm → Instr) : Option Instr :=
  match FTy.ofBits l.t, Rm.ofBits l.rm with
  | some t, some rm =>
    if l.m == 0 && l.x == 0 && l.xm == 0 && l.s == 0 && l.z == 0 && l.fn == 0 then some (k t rm) else none
  | _, _ => none

/-- A scalar floating-point instruction whose RM is a zero-field (R318). -/
def LR.fp0 (l : LR) (k : FTy → Instr) : Option Instr :=
  if l.rm == 0 && l.c == 0 then l.fp fun t _ => k t else none

/-- A mask operation (R330): T, RM, X, XM, S and C zero. -/
def LR.mask (l : LR) (i : Instr) : Option Instr :=
  if l.t == 0 && l.rm == 0 && l.x == 0 && l.xm == 0 && l.s == 0 && l.z == 0 && l.c == 0 then some i else none

/-- Bits [3:1] of FN. -/
def LR.fn31 (l : LR) : BitVec 3 := l.fn.extractLsb' 1 3

/-- Layout R. -/
def LR.parse (mj : Major) (l : LR) : Option Instr := match mj with
  | .add => l.sc (.add l.d l.a l.b)
  | .sub => l.sc (.sub l.d l.a l.b)
  | .mul => l.sc (.mul l.d l.a l.b)
  | .mulh => l.scU fun u => .mulh u l.d l.a l.b
  | .div => l.scU fun u => .div u l.d l.a l.b
  | .rem => l.scU fun u => .rem u l.d l.a l.b
  | .and => l.sc (.and l.d l.a l.b)
  | .or => l.sc (.or l.d l.a l.b)
  | .xor => l.sc (.xor l.d l.a l.b)
  | .shl => l.sc (.shl l.d l.a l.b)
  | .shr => l.sc (.shr l.d l.a l.b)
  | .sra => l.sc (.sra l.d l.a l.b)
  | .slt => l.scU fun u => .slt u l.d l.a l.b
  | .min => l.scU fun u => .min u l.d l.a l.b
  | .max => l.scU fun u => .max u l.d l.a l.b
  | .clz => if l.b == 0 then l.sc (.clz l.d l.a) else none
  | .ctz => if l.b == 0 then l.sc (.ctz l.d l.a) else none
  | .popc => if l.b == 0 then l.sc (.popc l.d l.a) else none
  | .sel => if l.plain && l.fn == 0 then some (.sel l.d l.a l.b l.c) else none
  | .lea => if l.plain && l.c == 0 && decide (l.fn.toNat < 8) then
      some (.lea l.d l.a l.b (l.fn.extractLsb' 0 3)) else none
  | .fadd => if l.c == 0 then l.fp fun t rm => .fadd t rm l.d l.a l.b else none
  | .fsub => if l.c == 0 then l.fp fun t rm => .fsub t rm l.d l.a l.b else none
  | .fmul => if l.c == 0 then l.fp fun t rm => .fmul t rm l.d l.a l.b else none
  | .ffma => l.fp fun t rm => .ffma t rm l.d l.a l.b l.c
  | .fdiv => if l.c == 0 then l.fp fun t rm => .fdiv t rm l.d l.a l.b else none
  | .fmin => l.fp0 fun t => .fmin t l.d l.a l.b
  | .fmax => l.fp0 fun t => .fmax t l.d l.a l.b
  | .fcmp =>
    if l.m == 0 && l.x == 0 && l.xm == 0 && l.s == 0 && l.z == 0 && l.c == 0 && l.rm == 0 &&
        decide (l.fn.toNat < 4) then
      (FTy.ofBits l.t).map fun t => .fcmp t (FRel.ofBits (l.fn.extractLsb' 0 2)) l.d l.a l.b
    else none
  | .fcvt =>
    if l.m == 0 && l.x == 0 && l.xm == 0 && l.z == 0 && l.b == 0 && l.c == 0 && l.fn.getLsbD 0 == false &&
        decide (l.fn.toNat < 32) then
      match Ty.ofBits l.t, Ty.ofBits (l.fn.extractLsb' 1 4), Rm.ofBits l.rm with
      | some dst, some src, some rm => some (.fcvt dst src rm (l.s == 1) l.d l.a)
      | _, _, _ => none
    else none
  | .vadd => l.vec .vadd
  | .vsub => l.vec .vsub
  | .vmul => l.vec .vmul
  | .vmulh => l.vec .vmulh
  | .vmulhr => l.vec .vmulhr
  | .vdiv => l.vec .vdiv
  | .vrem => l.vec .vrem
  | .vmin => l.vec .vmin
  | .vmax => l.vec .vmax
  | .vand => l.vec .vand
  | .vor => l.vec .vor
  | .vxor => l.vec .vxor
  | .vshl => l.vec .vshl
  | .vshr => l.vec .vshr
  | .vsra => l.vec .vsra
  | .vrshr => l.vec .vrshr
  | .vfma => l.vec3 .vfma
  | .vabs => l.vec .vabs
  | .vneg => l.vec .vneg
  | .vsqrt => l.vec .vsqrt
  | .vrsqrt => l.vec .vrsqrt
  | .vexp2 => l.vec .vexp2
  | .vcmp =>
    if l.fn.toNat < 16 then
      match VRel.ofBits l.fn31 with
      | some r => (l.vargs (l.fn.getLsbD 0) false).map (.vcmp r)
      | none => none
    else none
  | .vsel => l.vec .vsel
  | .vclamp => l.vec3 .vclamp
  | .vcvt =>
    if l.fn.getLsbD 0 == false && decide (l.fn.toNat < 32) then
      match Ty.ofBits (l.fn.extractLsb' 1 4) with
      | some src => (l.vargs false false).map (.vcvt src)
      | none => none
    else none
  | .vpackni => l.vec .vpackni
  | .vunpkni =>
    if l.fn.getLsbD 0 == false && decide (l.fn.toNat < 32) then
      (l.vargs false false).map (.vunpkni (l.fn.extractLsb' 1 4))
    else none
  | .vbscale => l.vec .vbscale
  | .vmov => l.vec (.vmov false)
  | .vid => l.vec .vid
  | .vext => l.vecSc .vext
  | .vins => l.vecSc .vins
  | .vslide =>
    if l.fn.getLsbD 0 == false && decide (l.fn.toNat < 4) then
      (l.vargs true false).map (.vslide (l.fn.getLsbD 1))
    else none
  | .vperm => l.vec .vperm
  | .vcompress => l.vec .vcompress
  | .vred =>
    if l.fn.getLsbD 0 == false && decide (l.fn.toNat < 16) then
      match RedOp.ofBits l.fn31 with
      | some o => (l.vargs false false).map (.vred o)
      | none => none
    else none
  | .mlogic =>
    if l.fn.toNat < 8 then l.mask (.mlogic (MOp.ofBits (l.fn.extractLsb' 0 3)) l.d l.a l.b l.m) else none
  | .mpopc => if l.fn == 0 && l.b == 0 then l.mask (.mpopc l.d l.a l.m) else none
  | .mfirst => if l.fn == 0 && l.b == 0 then l.mask (.mfirst l.d l.a l.m) else none
  | _ => none

/-- Layout I, form 00 (R299, R329, R341, R375). -/
def LI.parse (mj : Major) (l : LI) : Option Instr := match mj with
  | .addi => if l.fn == 0 then some (.addi l.d l.a l.imm) else none
  | .andi => if l.fn == 0 then some (.andi l.d l.a l.imm) else none
  | .ori => if l.fn == 0 then some (.ori l.d l.a l.imm) else none
  | .xori => if l.fn == 0 then some (.xori l.d l.a l.imm) else none
  | .shli =>
    if l.imm.toNat < 64 then
      match l.fn.toNat with
      | 0 => some (.shli .shl l.d l.a (l.imm.extractLsb' 0 6))
      | 1 => some (.shli .shr l.d l.a (l.imm.extractLsb' 0 6))
      | 2 => some (.shli .sra l.d l.a (l.imm.extractLsb' 0 6))
      | _ => none
    else none
  | .slti => (flag6 l.fn).map fun u => .slti u l.d l.a l.imm
  | .li => if l.fn == 0 && l.a == 0 then some (.li l.d l.imm) else none
  | .setvl => if l.fn == 0 then some (.setvl l.d l.a l.imm) else none
  | .setmt => if l.fn == 0 && l.d == 0 && l.a == 0 then some (.setmt l.imm) else none
  | .setnv => if l.fn == 0 && l.d == 0 && l.a == 0 then some (.setnv l.imm) else none
  | .setsb => if l.d == 0 then (flag6 l.fn).map fun add => .setsb add l.a l.imm else none
  | .setseed => if l.fn == 0 && l.d == 0 then some (.setseed l.a l.imm) else none
  | _ => none

/-- Layout M (R325, R346, R365, R367). -/
def LM.parse (mj : Major) (l : LM) : Option Instr := match mj with
  | .ld =>
    if l.b == 0 && l.m == 0 && l.k == 0 then
      match LdW.ofBits l.t, Space.ofBits l.sp with
      | some wd, some sp => some (.ld wd sp l.d l.a l.off)
      | _, _ => none
    else none
  | .st =>
    if l.b == 0 && l.m == 0 && l.k == 0 then
      match StW.ofBits l.t, Space.ofBits l.sp with
      | some wd, some sp => some (.st wd sp l.d l.a l.off)
      | _, _ => none
    else none
  | .vld => match Ty.ofBits l.t, Space.ofBits l.sp, AKind.ofBits l.k with
    | some t, some sp, some k =>
      some (.vld { d := l.d, a := l.a, b := l.b, sp := sp, t := t, m := l.m, k := k, off := l.off })
    | _, _, _ => none
  | .vst => match Ty.ofBits l.t, Space.ofBits l.sp, AKind.ofBits l.k with
    | some t, some sp, some k =>
      some (.vst { d := l.d, a := l.a, b := l.b, sp := sp, t := t, m := l.m, k := k, off := l.off })
    | _, _, _ => none
  | .vamo =>
    match Ty.ofBits l.t, Space.ofBits l.sp, AKind.ofBits l.k, VAmoOp.ofBits (l.off.extractLsb' 20 4) with
    | some t, some sp, some k, some op =>
      some (.vamo op { d := l.d, a := l.a, b := l.b, sp := sp, t := t, m := l.m, k := k
                       off := (l.off.extractLsb' 0 20).signExtend 24 })
    | _, _, _, _ => none
  | _ => none

/-- Layout B, form 00 (R308, R322, R327). -/
def LB.parse (mj : Major) (l : LB) : Option Instr := match mj with
  | .br => (CC.ofBits l.cc).map fun cc => .br cc l.a l.b l.disp
  | .j => if l.a == 0 && l.b == 0 && l.cc == 0 then some (.j l.disp) else none
  | .jal => if l.b == 0 && l.cc == 0 then some (.jal l.a l.disp) else none
  | .loopbr => if l.b == 0 && l.cc == 0 then some (.loopbr l.a l.disp) else none
  | _ => none

/-- D, A, B, C and IMM that must be zero. -/
def LE.zero (l : LE) (d a b c imm : Bool) : Bool :=
  (!d || l.d == 0) && (!a || l.a == 0) && (!b || l.b == 0) && (!c || l.c == 0) && (!imm || l.imm == 0)

/-- An instruction with FN 0. -/
def LE.fn0 (l : LE) (d a b c imm : Bool) (i : Instr) : Option Instr :=
  if l.fn == 0 && l.zero d a b c imm then some i else none

/-- Layout E. -/
def LE.parse (mj : Major) (l : LE) : Option Instr := match mj with
  | .amo =>
    if l.c == 0 && decide (l.imm.toNat < 8) then
      match AmoOp.ofBits (l.fn.extractLsb' 0 4), Space.ofBits (l.imm.extractLsb' 0 3) with
      | some op, some sp => some (.amo op (l.fn.getLsbD 4) (l.fn.getLsbD 5) sp l.d l.a l.b)
      | _, _ => none
    else none
  | .cas =>
    if decide (l.imm.toNat < 8) && l.fn.extractLsb' 0 4 == 0 && !l.fn.getLsbD 5 then
      (Space.ofBits (l.imm.extractLsb' 0 3)).map fun sp => .cas (l.fn.getLsbD 4) sp l.d l.a l.b l.c
    else none
  | .fence =>
    if l.zero true true true true true then
      match (l.fn.extractLsb' 2 4).toNat with
      | 1 => some (.fenceAcq (Scope.ofBits (l.fn.extractLsb' 0 2)))
      | 2 => some (.fenceRel (Scope.ofBits (l.fn.extractLsb' 0 2)))
      | 3 => some (.fenceFull (Scope.ofBits (l.fn.extractLsb' 0 2)))
      | _ => none
    else none
  | .vdrain =>
    if l.zero true true true true true then
      match l.fn.toNat with
      | 1 => some (.vdrain .l) | 2 => some (.vdrain .s) | 3 => some (.vdrain .a) | _ => none
    else none
  | .waita =>
    if l.c == 0 && decide (l.fn.toNat < 8) then
      match (l.fn.extractLsb' 0 2).toNat with
      | 0 => some (.waita .eq (l.fn.getLsbD 2) l.d l.a l.b l.imm)
      | 1 => some (.waita .ne (l.fn.getLsbD 2) l.d l.a l.b l.imm)
      | 2 => some (.waita .geu (l.fn.getLsbD 2) l.d l.a l.b l.imm)
      | _ => none
    else none
  | .acquire =>
    if decide (l.fn.toNat < 4) && l.zero true false true true true then
      some (.acquire (Scope.ofBits (l.fn.extractLsb' 0 2)) l.a)
    else none
  | .release =>
    if decide (l.fn.toNat < 4) && l.zero true false true true true then
      some (.release (Scope.ofBits (l.fn.extractLsb' 0 2)) l.a)
    else none
  | .bindr => match flag6 l.fn with
    | some false => if l.imm == 0 then some (.bindr l.d l.a l.b l.c) else none
    | some true => if l.zero false true true false true then some (.bindrUn l.d l.c) else none
    | none => none
  | .cflush =>
    if l.zero true false false true true then
      (flag6 l.fn).map fun inv => if inv then .cflushInv l.a l.b else .cflush l.a l.b
    else none
  | .cinval => l.fn0 true false false true true (.cinval l.a l.b)
  | .jr => l.fn0 false false true true false (.jr l.d l.a l.imm)
  | .yield => l.fn0 true true true true true .yield
  | .tend => l.fn0 true true true true true .tend
  | .bkpt => l.fn0 true true true true true .bkpt
  | .trmark =>
    if decide (l.imm.toNat < 512) then
      l.fn0 true false true true false (.trmark l.a (l.imm.extractLsb' 0 9))
    else none
  | .vbind => l.fn0 false false true true true (.vbind l.d l.a)
  | .vunbind => l.fn0 false true true true true (.vunbind l.d)
  | .vcommit =>
    if decide (l.imm.toNat < 16) then l.fn0 true true true true false (.vcommit (l.imm.extractLsb' 0 4)) else none
  | .wset =>
    if decide (l.fn.toNat < 16) && l.zero false false true true true then
      some (.wset (l.fn.extractLsb' 0 4) l.d l.a)
    else none
  | .mrow =>
    if decide (l.fn.toNat < 8) && l.imm == 0 then
      match (l.fn.extractLsb' 0 2).toNat with
      | 0 => some (.mrow .bf16 (l.fn.getLsbD 2) l.d l.a l.b l.c)
      | 1 => some (.mrow .int8 (l.fn.getLsbD 2) l.d l.a l.b l.c)
      | 2 => some (.mrow .ni8 (l.fn.getLsbD 2) l.d l.a l.b l.c)
      | _ => none
    else none
  | .mrowv =>
    if decide (l.imm.toNat < 16) then
      match l.fn.toNat with
      | 0 => some (.mrowv .bf16 l.d l.a l.b l.c (l.imm.extractLsb' 0 4))
      | 1 => some (.mrowv .int8 l.d l.a l.b l.c (l.imm.extractLsb' 0 4))
      | 2 => some (.mrowv .ni8 l.d l.a l.b l.c (l.imm.extractLsb' 0 4))
      | _ => none
    else none
  | .mkick =>
    if l.zero true false true true true then
      match flag6 l.fn with
      | some false => some (.mkick l.a)
      | some true => if l.a == 0 then some .mkickAll else none
      | none => none
    else none
  | .cpy =>
    if l.imm.toNat < 4 then
      some (.cpy (l.fn.extractLsb' 3 3) (l.fn.extractLsb' 0 3) (l.imm.extractLsb' 0 2) l.d l.a l.b l.c)
    else none
  | .cpy2d =>
    if l.imm.toNat < 4 then
      some (.cpy2d (l.fn.extractLsb' 3 3) (l.fn.extractLsb' 0 3) (l.imm.extractLsb' 0 2) l.d l.a l.b l.c)
    else none
  | .tlwait => l.fn0 false false false true false (.tlwait l.d l.a l.b l.imm)
  | .tlread =>
    if l.zero false false true true true then (flag6 l.fn).map fun iss => .tlread iss l.d l.a else none
  | .loopmark =>
    if l.imm.toNat < 64 then
      match flag6 l.fn with
      | some false =>
        if l.zero true false true true false then some (.loopmarkWait l.a (l.imm.extractLsb' 0 6)) else none
      | some true => some (.loopmarkAhead l.d l.a l.b l.c (l.imm.extractLsb' 0 6))
      | none => none
    else none
  | .rpstat => l.fn0 false true true true true (.rpstat l.d)
  | .pkalloc => l.fn0 false false false true false (.pkalloc l.d l.a l.b l.imm)
  | .pkenter => l.fn0 false false false true true (.pkenter l.d l.a l.b)
  | .pkcommit => l.fn0 false true true true true (.pkcommit l.d)
  | .pkabort => l.fn0 true true true true false (.pkabort l.imm)
  | .pkstat =>
    if l.zero false false true true true then (flag6 l.fn).map fun code => .pkstat code l.d l.a else none
  | .pkfree => l.fn0 false false true true true (.pkfree l.d l.a)
  | .spawn => l.fn0 false false true true true (.spawn l.d l.a)
  | .join => match flag6 l.fn with
    | some false => if l.zero false false false true true then some (.join l.d l.a l.b) else none
    | some true => if l.zero false false true true true then some (.joinLvl l.d l.a) else none
    | none => none
  | .tcancel =>
    if l.zero false false true true true then
      match l.fn.toNat with
      | 1 => some (.tcancel .launch l.d l.a) | 2 => some (.tcancel .graph l.d l.a)
      | 3 => some (.tcancel .phase l.d l.a) | 4 => some (.tcancel .job l.d l.a) | _ => none
    else none
  | .gang => l.fn0 false false false true true (.gang l.d l.a l.b)
  | .tself =>
    if l.zero false true true true true then
      match l.fn.toNat with
      | 0 => some (.tself .task l.d) | 1 => some (.tself .launch l.d) | 2 => some (.tself .hart l.d)
      | 3 => some (.tself .die l.d) | 4 => some (.tself .part l.d) | _ => none
    else none
  | .xred =>
    if decide (l.imm.toNat < 16) && l.zero false true true true false then
      match (l.fn.extractLsb' 0 3).toNat, (l.fn.extractLsb' 3 3).toNat with
      | o, t =>
        let op : Option XOp := match o with | 0 => some .sum | 1 => some .min | 2 => some .max | _ => none
        let ty : Option XTy := match t with
          | 0 => some .i32 | 1 => some .i64 | 2 => some .bf16 | 3 => some .f32 | _ => none
        match op, ty with
        | some op, some ty => some (.xred op ty l.d (l.imm.extractLsb' 0 4))
        | _, _ => none
    else none
  | .csrr =>
    if decide (l.imm.toNat < 4096) then l.fn0 false true true true false (.csrr l.d (l.imm.extractLsb' 0 12))
    else none
  | .csrw =>
    if decide (l.imm.toNat < 4096) then l.fn0 true false true true false (.csrw (l.imm.extractLsb' 0 12) l.a)
    else none
  | .ecall => l.fn0 true true true true false (.ecall l.imm)
  | .eret =>
    if l.zero true false true true true then
      match flag6 l.fn with
      | some false => if l.a == 0 then some .eret else none
      | some true => some (.eretKill l.a)
      | none => none
    else none
  | .tlbinv =>
    if l.imm == 0 then
      match l.fn.toNat with
      | 0 => some (.tlbinvVa l.d l.a l.b l.c)
      | 1 => if l.zero false true true false false then some (.tlbinvAsid l.d l.c) else none
      | 2 => if l.zero false true true true false then some (.tlbinvAll l.d) else none
      | 3 => if l.zero false true false true false then some (.tlbinvWait l.d l.b) else none
      | _ => none
    else none
  | .asidsw => l.fn0 false false true true true (.asidsw l.d l.a)
  | .ctxsave => l.fn0 false false true true true (.ctxsave l.d l.a)
  | .ctxload => l.fn0 false false true true true (.ctxload l.d l.a)
  | .biasset =>
    if l.zero false false false true true then
      (flag6 l.fn).map fun dev => if dev then .biassetDev l.d l.a l.b else .biassetHost l.d l.a l.b
    else none
  | .poisonclr => l.fn0 true false false true true (.poisonclr l.a l.b)
  | .pmig =>
    if l.zero false false false true true then
      match l.fn.toNat with
      | 0 => some (.pmigP4k l.d l.a l.b) | 1 => some (.pmigP2m l.d l.a l.b) | 2 => some (.pmigRel l.d l.a l.b)
      | _ => none
    else none
  | _ => none

/-! ## Pair words (R41 to R43, R372) -/

/-- A vector half's fields: unmasked, RNE, no exception mask. -/
def halfVec (t : Ty) (d a b : Reg) (bs : Bool) : VArgs :=
  { d := d, a := a, b := b, c := 0, bs := bs, cs := false, m := 0, t := t, rm := .rne, xm := 0, sat := false }

/-- A half as an instruction; `hi` says it is half B. -/
def LH.parse (hi : Bool) (l : LH) : Option Instr :=
  let r (x : BitVec 5) : Reg := if hi then x.setWidth 6 + 32 else x.setWidth 6
  let v (x : BitVec 5) : Reg := x.setWidth 6
  let second : BitVec 5 := l.imm.extractLsb' 10 5
  let regs : Bool := l.imm.extractLsb' 0 10 == 0
  let alu (i : Instr) : Option Instr := if regs then some i else none
  let vec (i : Instr) : Option Instr := if hi && l.imm == 0 then some i else none
  match l.hop.toNat with
  | 0x00 => if l.d == 0 && l.a == 0 && l.imm == 0 then some .nop else none
  | 0x01 => alu (.add (r l.d) (r l.a) (r second))
  | 0x02 => alu (.sub (r l.d) (r l.a) (r second))
  | 0x03 => alu (.and (r l.d) (r l.a) (r second))
  | 0x04 => alu (.or (r l.d) (r l.a) (r second))
  | 0x05 => alu (.xor (r l.d) (r l.a) (r second))
  | 0x06 => alu (.shl (r l.d) (r l.a) (r second))
  | 0x07 => alu (.shr (r l.d) (r l.a) (r second))
  | 0x08 => alu (.sra (r l.d) (r l.a) (r second))
  | 0x09 => alu (.min false (r l.d) (r l.a) (r second))
  | 0x0A => alu (.max false (r l.d) (r l.a) (r second))
  | 0x0E => alu (.slt false (r l.d) (r l.a) (r second))
  | 0x0B => if l.imm == 0 then some (.mov (r l.d) (r l.a)) else none
  | 0x0C => some (.addi (r l.d) (r l.a) (l.imm.signExtend 36))
  | 0x0D => if l.a == 0 then some (.li (r l.d) (l.imm.signExtend 36)) else none
  | 0x10 => some (.ld .d .dflt (r l.d) (r l.a) (l.imm.signExtend 24))
  | 0x12 => some (.ld .w .dflt (r l.d) (r l.a) (l.imm.signExtend 24))
  | 0x11 => some (.st .d .dflt (r l.d) (r l.a) (l.imm.signExtend 24))
  | 0x13 => some (.st .w .dflt (r l.d) (r l.a) (l.imm.signExtend 24))
  | 0x18 => if hi && l.d == 0 then some (.brnz (r l.a) l.imm) else none
  | 0x19 => if hi && l.d == 0 then some (.brz (r l.a) l.imm) else none
  | 0x1A => if l.d == 0 && l.a == 0 && l.imm == 0 then some .yield else none
  | 0x20 => vec (.vadd (halfVec .f32 (v l.d) (v l.d) (v l.a) false))
  | 0x21 => vec (.vmul (halfVec .f32 (v l.d) (v l.d) (v l.a) false))
  | 0x22 => if hi && regs then some (.vadds (v l.d) (v l.a) (r second)) else none
  | 0x23 => vec (.vadd (halfVec .i32 (v l.d) (v l.d) (v l.a) false))
  | 0x24 => vec (.vmax (halfVec .f32 (v l.d) (v l.d) (v l.a) false))
  | 0x25 => vec (.vmin (halfVec .f32 (v l.d) (v l.d) (v l.a) false))
  | 0x26 => vec (.vmov true (halfVec .i8 (v l.d) (v l.a) 0 false))
  | 0x28 => if hi then some (.setvl (r l.d) (r l.a) (l.imm.signExtend 36)) else none
  | _ => none

/-- A scalar memory half. -/
def Instr.isMemHalf : Instr → Bool
  | .ld .. | .st .. => true
  | _ => false

/-! ## Decoding words and bytes -/

/-- Why a word is no instruction: the rows of R47 that name it. -/
inductive Reject
  /-- Row 2 of R47: form 11. -/
  | form11
  /-- Row 2 of R47: an unassigned major opcode. -/
  | unassigned
  /-- Row 2 of R47: form 10 on an opcode other than LI, J and JAL. -/
  | form10
  /-- Row 4 of R47: a field that must be zero, a reserved value, a register beyond its file. -/
  | fields
  /-- Row 4 of R47: an illegal pair word. -/
  | pairWord
  deriving DecidableEq, Repr

/-- What the first word of an instruction says. -/
inductive Decoded
  /-- A one-word instruction. -/
  | one (i : Instr)
  /-- A pair word: half A and half B. -/
  | pair (a b : Instr)
  /-- A form 10 word: its extension word completes it. -/
  | needExt (mj : Major) (r : Reg)
  /-- Not an instruction. -/
  | reject (r : Reject)
  deriving DecidableEq, Repr

/-- Form 00: the layout of the opcode. -/
def decodeFull (mj : Major) (w : Word) : Decoded :=
  let p : Option Instr := match mj.layout with
    | .r => (LR.ofWord w).parse mj
    | .i => (LI.ofWord w).parse mj
    | .m => (LM.ofWord w).parse mj
    | .b => (LB.ofWord w).parse mj
    | .e => (LE.ofWord w).parse mj
  match p with
  | some i => if i.accepted then .one i else .reject .fields
  | none => .reject .fields

/-- Form 10: the fields of the first word (R37). -/
def decodeExt (mj : Major) (w : Word) : Decoded := match mj with
  | .li =>
    let l := LI.ofWord w
    if l.a == 0 && l.fn == 0 && l.imm == 0 then .needExt .li l.d else .reject .fields
  | .j =>
    let l := LB.ofWord w
    if l.a == 0 && l.b == 0 && l.cc == 0 && l.disp == 0 then .needExt .j 0 else .reject .fields
  | .jal =>
    let l := LB.ofWord w
    if l.b == 0 && l.cc == 0 && l.disp == 0 then .needExt .jal l.a else .reject .fields
  | _ => .reject .form10

/-- The instruction a form 10 word and its extension make (R37). -/
def extended (mj : Major) (r : Reg) (x : Word) : Instr := match mj with
  | .li => .liExt r x
  | .jal => .jalExt r x
  | _ => .jExt x

/-- Form 01 (R41, R43): two memory halves are illegal. -/
def decodePair (w : Word) : Decoded :=
  match (LH.ofWord w 31).parse false, (LH.ofWord w 0).parse true with
  | some a, some b => if a.isMemHalf && b.isMemHalf then .reject .pairWord else .pair a b
  | _, _ => .reject .pairWord

/-- The form of a word (R35). -/
def formOf (w : Word) : BitVec 2 := bits w 62 2

/-- Decodes the first word of an instruction (R35 to R46). -/
def decodeWord (w : Word) : Decoded :=
  match (formOf w).toNat with
  | 0 => match Major.ofCode (bits w 54 8) with
    | some mj => decodeFull mj w
    | none => .reject .unassigned
  | 1 => decodePair w
  | 2 => match Major.ofCode (bits w 54 8) with
    | some mj => decodeExt mj w
    | none => .reject .unassigned
  | _ => .reject .form11

/-- A privileged opcode, 0xC3 to 0xCA, in a form 00 word (R45, row 3 of R47). -/
def privilegedWord (w : Word) : Bool :=
  (formOf w == 0) && decide (0xC3 ≤ (bits w 54 8).toNat) && decide ((bits w 54 8).toNat ≤ 0xCA)

/-- Eight bytes, lowest address first, as a word (R35). -/
def wordOfBytes (bs : List Byte) : Word :=
  BitVec.ofNat 64 (bs.foldr (fun (b : Byte) (n : Nat) => b.toNat + 256 * n) 0)

/-- A word as eight bytes, lowest address first (R35). -/
def bytesOfWord (w : Word) : List Byte := (List.range 8).map fun i => bits w (8 * i) 8

/-- An instruction read from bytes. -/
inductive Item
  /-- An instruction and its length in bytes. -/
  | instr (i : Instr) (len : Nat)
  /-- A pair word. -/
  | pair (a b : Instr)
  /-- Not an instruction. -/
  | reject (r : Reject)
  /-- Too few bytes. -/
  | short
  deriving DecidableEq, Repr

/-- Decodes the bytes at an instruction's address; returns the bytes that follow it. -/
def decode (bs : List Byte) : Item × List Byte :=
  if bs.length < 8 then (.short, bs)
  else match decodeWord (wordOfBytes (bs.take 8)) with
    | .one i => (.instr i 8, bs.drop 8)
    | .pair a b => (.pair a b, bs.drop 8)
    | .reject r => (.reject r, bs.drop 8)
    | .needExt mj r =>
      if bs.length < 16 then (.short, bs)
      else (.instr (extended mj r (wordOfBytes ((bs.drop 8).take 8))) 16, bs.drop 16)

/-- The half of a pair that is not a NOP; both halves count for nothing where neither is. -/
def theHalf (a b : Instr) : Option Instr :=
  if b = .nop then some a else if a = .nop then some b else none

/-- The instruction the decoder reads from an instruction whose bits are `w` (bit 0 the least significant bit of the
first word); a pair of a half and a NOP counts as that half. -/
def decodeTableWord (nbits w : Nat) : Option Instr :=
  let w := w % 2 ^ nbits
  match (decode (bytesOfWord (BitVec.ofNat 64 w) ++ bytesOfWord (BitVec.ofNat 64 (w / 2 ^ 64)))).1 with
  | .instr i _ => some i
  | .pair a b => theHalf a b
  | _ => none

/-! ## The encoder -/

/-- Layout R as a form 00 word. -/
def LR.toWord (l : LR) : Word :=
  (0#2 ++ l.opc ++ l.d ++ l.a ++ l.b ++ l.c ++ l.m ++ l.t ++ l.rm ++ l.x ++ l.xm ++ l.s ++ l.fn ++ l.z : BitVec 64)
/-- Layout I as a form 00 word. -/
def LI.toWord (l : LI) : Word := (0#2 ++ l.opc ++ l.d ++ l.a ++ l.fn ++ l.imm : BitVec 64)
/-- Layout M as a form 00 word. -/
def LM.toWord (l : LM) : Word :=
  (0#2 ++ l.opc ++ l.d ++ l.a ++ l.b ++ l.sp ++ l.t ++ l.m ++ l.k ++ l.off : BitVec 64)
/-- Layout B as a form 00 word. -/
def LB.toWord (l : LB) : Word := (0#2 ++ l.opc ++ l.a ++ l.b ++ l.cc ++ l.disp : BitVec 64)
/-- Layout E as a form 00 word. -/
def LE.toWord (l : LE) : Word := (0#2 ++ l.opc ++ l.d ++ l.a ++ l.b ++ l.c ++ l.fn ++ l.imm : BitVec 64)
/-- Two halves as a form 01 word. -/
def pairWord (a b : LH) : Word :=
  (1#2 ++ a.hop ++ a.d ++ a.a ++ a.imm ++ b.hop ++ b.d ++ b.a ++ b.imm : BitVec 64)

/-- T of an element type (R38). -/
def Ty.toBits : Ty → BitVec 4
  | .i8 => 0 | .i16 => 1 | .i32 => 2 | .i64 => 3 | .u8 => 4 | .u16 => 5 | .u32 => 6 | .u64 => 7 | .bf16 => 8
  | .f32 => 9
/-- T of a scalar format (R317). -/
def FTy.toBits : FTy → BitVec 4
  | .bf16 => 8 | .f32 => 9
/-- RM (R38). -/
def Rm.toBits : Rm → BitVec 3
  | .rne => 0 | .rtz => 1 | .rup => 2 | .rdn => 3 | .rmm => 4 | .sr => 5 | .dyn => 7
/-- SP (R38). -/
def Space.toBits : Space → BitVec 3
  | .dflt => 0 | .g => 1 | .a => 2 | .c => 3 | .w => 4 | .ra => 5
/-- A scope (R175). -/
def Scope.toBits : Scope → BitVec 2
  | .core => 0 | .die => 1 | .pkg => 2 | .sys => 3
/-- CC (R308). -/
def CC.toBits : CC → BitVec 4
  | .eq => 0 | .ne => 1 | .lt => 2 | .ge => 3 | .ltu => 4 | .geu => 5
/-- T of LD (R325). -/
def LdW.toBits : LdW → BitVec 4
  | .b => 0 | .h => 1 | .w => 2 | .d => 3 | .bu => 4 | .hu => 5 | .wu => 6
/-- T of ST (R325). -/
def StW.toBits : StW → BitVec 4
  | .b => 0 | .h => 1 | .w => 2 | .d => 3
/-- FN[3:0] of AMO (R300). -/
def AmoOp.toBits : AmoOp → BitVec 4
  | .swap => 0 | .add => 1 | .and => 2 | .or => 3 | .xor => 4 | .min => 5 | .max => 6 | .minu => 7 | .maxu => 8
  | .fadd => 9
/-- OFF[23:20] of VAMO (R367). -/
def VAmoOp.toBits : VAmoOp → BitVec 4
  | .add => 0 | .and => 1 | .or => 2 | .xor => 3 | .min => 4 | .max => 5 | .fadd => 6
/-- FN[3:1] of VCMP (R359). -/
def VRel.toBits : VRel → BitVec 3
  | .eq => 0 | .ne => 1 | .lt => 2 | .le => 3 | .gt => 4 | .ge => 5 | .un => 6
/-- FN[3:1] of VRED (R364). -/
def RedOp.toBits : RedOp → BitVec 3
  | .sum => 0 | .min => 1 | .max => 2 | .and => 3 | .or => 4 | .xor => 5
/-- FN[2:0] of MLOGIC (R330). -/
def MOp.toBits : MOp → BitVec 3
  | .and => 0 | .or => 1 | .xor => 2 | .andn => 3 | .orn => 4 | .nand => 5 | .nor => 6 | .xnor => 7
/-- FN[1:0] of FCMP (R318). -/
def FRel.toBits : FRel → BitVec 2
  | .eq => 0 | .lt => 1 | .le => 2 | .un => 3
/-- K (R38). -/
def AKind.toBits : AKind → BitVec 2
  | .unit => 0 | .strided => 1 | .indexed => 2
/-- FN of SHLI (R329). -/
def ShKind.toBits : ShKind → BitVec 6
  | .shl => 0 | .shr => 1 | .sra => 2
/-- FN of VDRAIN (R371). -/
def DrainKind.toBits : DrainKind → BitVec 6
  | .l => 1 | .s => 2 | .a => 3
/-- FN[1:0] of WAITA (R373). -/
def WaitCond.toBits : WaitCond → BitVec 2
  | .eq => 0 | .ne => 1 | .geu => 2
/-- FN of TCANCEL (R82). -/
def LevelKind.toBits : LevelKind → BitVec 6
  | .launch => 1 | .graph => 2 | .phase => 3 | .job => 4
/-- FN of TSELF (R82). -/
def SelfKind.toBits : SelfKind → BitVec 6
  | .task => 0 | .launch => 1 | .hart => 2 | .die => 3 | .part => 4
/-- FN[1:0] of MROW (R204). -/
def AFmt.toBits : AFmt → BitVec 2
  | .bf16 => 0 | .int8 => 1 | .ni8 => 2
/-- FN[2:0] of XRED (R377). -/
def XOp.toBits : XOp → BitVec 3
  | .sum => 0 | .min => 1 | .max => 2
/-- FN[5:3] of XRED (R377). -/
def XTy.toBits : XTy → BitVec 3
  | .i32 => 0 | .i64 => 1 | .bf16 => 2 | .f32 => 3

/-- One bit. -/
def bit1 (b : Bool) : BitVec 1 := BitVec.ofBool b

/-- A scalar instruction of layout R. -/
def encR (mj : Major) (d a b c : Reg) (fn : BitVec 7) : List Word :=
  [LR.toWord { opc := mj.code, d := d, a := a, b := b, c := c, m := 0, t := 0, rm := 0, x := 0, xm := 0, s := 0
               fn := fn, z := 0 }]

/-- A scalar floating-point instruction. -/
def encF (mj : Major) (t : FTy) (rm : Rm) (d a b c : Reg) (fn : BitVec 7) : List Word :=
  [LR.toWord { opc := mj.code, d := d, a := a, b := b, c := c, m := 0, t := t.toBits, rm := rm.toBits, x := 0
               xm := 0, s := 0, fn := fn, z := 0 }]

/-- A mask operation. -/
def encM (mj : Major) (d a b : Reg) (m : BitVec 3) (fn : BitVec 7) : List Word :=
  [LR.toWord { opc := mj.code, d := d, a := a, b := b, c := 0, m := m, t := 0, rm := 0, x := 0, xm := 0, s := 0
               fn := fn, z := 0 }]

/-- A vector instruction of layout R with its FN. -/
def encV (mj : Major) (v : VArgs) (fn : BitVec 7) : List Word :=
  [LR.toWord { opc := mj.code, d := v.d, a := v.a, b := v.b, c := v.c, m := v.m, t := v.t.toBits, rm := v.rm.toBits
               x := bit1 (v.xm != 0), xm := v.xm, s := bit1 v.sat, fn := fn, z := 0 }]

/-- FN with bit 0 for a scalar B. -/
def fnB (v : VArgs) : BitVec 7 := (0#6 ++ bit1 v.bs : BitVec 7)
/-- FN with bits 0 and 1 for scalar B and C. -/
def fnBC (v : VArgs) : BitVec 7 := (0#5 ++ bit1 v.cs ++ bit1 v.bs : BitVec 7)

/-- An instruction of layout I. -/
def encI (mj : Major) (d a : Reg) (fn : BitVec 6) (imm : BitVec 36) : List Word :=
  [LI.toWord { opc := mj.code, d := d, a := a, fn := fn, imm := imm }]

/-- An instruction of layout B. -/
def encB (mj : Major) (a b : Reg) (cc : BitVec 4) (disp : BitVec 38) : List Word :=
  [LB.toWord { opc := mj.code, a := a, b := b, cc := cc, disp := disp }]

/-- An instruction of layout E. -/
def encE (mj : Major) (d a b c : Reg) (fn : BitVec 6) (imm : BitVec 24) : List Word :=
  [LE.toWord { opc := mj.code, d := d, a := a, b := b, c := c, fn := fn, imm := imm }]

/-- A scalar memory instruction. -/
def encMem (mj : Major) (t : BitVec 4) (sp : Space) (d a : Reg) (off : BitVec 24) : List Word :=
  [LM.toWord { opc := mj.code, d := d, a := a, b := 0, sp := sp.toBits, t := t, m := 0, k := 0, off := off }]

/-- A vector memory instruction with its OFF field. -/
def encVM (mj : Major) (v : VMem) (off : BitVec 24) : List Word :=
  [LM.toWord { opc := mj.code, d := v.d, a := v.a, b := v.b, sp := v.sp.toBits, t := v.t.toBits, m := v.m
               k := v.k.toBits, off := off }]

/-- The NOP half. -/
def nopHalf : LH := { hop := 0, d := 0, a := 0, imm := 0 }

/-- A pair of a half and a NOP: the half in A, or in B when `hi`. -/
def encH (hi : Bool) (h : LH) : List Word := [if hi then pairWord nopHalf h else pairWord h nopHalf]

/-- The words of a well-formed instruction; an instruction that exists only as a half stands beside a NOP half; an
event has none. -/
def encode : Instr → List Word
  | .add d a b => encR .add d a b 0 0
  | .addi d a imm => encI .addi d a 0 imm
  | .and d a b => encR .and d a b 0 0
  | .andi d a imm => encI .andi d a 0 imm
  | .clz d a => encR .clz d a 0 0 0
  | .ctz d a => encR .ctz d a 0 0 0
  | .div u d a b => encR .div d a b 0 (0#6 ++ bit1 u : BitVec 7)
  | .lea d a b sh => encR .lea d a b 0 (0#4 ++ sh : BitVec 7)
  | .li d imm => encI .li d 0 0 imm
  | .liExt d x => [(2#2 ++ Major.li.code ++ d ++ 0#48 : BitVec 64), x]
  | .max u d a b => encR .max d a b 0 (0#6 ++ bit1 u : BitVec 7)
  | .min u d a b => encR .min d a b 0 (0#6 ++ bit1 u : BitVec 7)
  | .mul d a b => encR .mul d a b 0 0
  | .mulh u d a b => encR .mulh d a b 0 (0#6 ++ bit1 u : BitVec 7)
  | .or d a b => encR .or d a b 0 0
  | .ori d a imm => encI .ori d a 0 imm
  | .popc d a => encR .popc d a 0 0 0
  | .rem u d a b => encR .rem d a b 0 (0#6 ++ bit1 u : BitVec 7)
  | .sel d a b c => encR .sel d a b c 0
  | .shl d a b => encR .shl d a b 0 0
  | .shli k d a n => encI .shli d a k.toBits (n.setWidth 36)
  | .shr d a b => encR .shr d a b 0 0
  | .slt u d a b => encR .slt d a b 0 (0#6 ++ bit1 u : BitVec 7)
  | .slti u d a imm => encI .slti d a (0#5 ++ bit1 u : BitVec 6) imm
  | .sra d a b => encR .sra d a b 0 0
  | .sub d a b => encR .sub d a b 0 0
  | .xor d a b => encR .xor d a b 0 0
  | .xori d a imm => encI .xori d a 0 imm
  | .mov d a =>
    encH (decide (32 ≤ d.toNat)) { hop := 0x0B, d := d.extractLsb' 0 5, a := a.extractLsb' 0 5, imm := 0 }
  | .nop => encH false nopHalf
  | .fadd t rm d a b => encF .fadd t rm d a b 0 0
  | .fsub t rm d a b => encF .fsub t rm d a b 0 0
  | .fmul t rm d a b => encF .fmul t rm d a b 0 0
  | .ffma t rm d a b c => encF .ffma t rm d a b c 0
  | .fdiv t rm d a b => encF .fdiv t rm d a b 0 0
  | .fmin t d a b => encF .fmin t .rne d a b 0 0
  | .fmax t d a b => encF .fmax t .rne d a b 0 0
  | .fcmp t rel d a b => encF .fcmp t .rne d a b 0 (rel.toBits.setWidth 7)
  | .fcvt dst src rm sat d a =>
    [LR.toWord { opc := Major.fcvt.code, d := d, a := a, b := 0, c := 0, m := 0, t := dst.toBits, rm := rm.toBits
                 x := 0, xm := 0, s := bit1 sat, fn := (0#2 ++ src.toBits ++ 0#1 : BitVec 7), z := 0 }]
  | .ld wd sp d a off => encMem .ld wd.toBits sp d a off
  | .st wd sp d a off => encMem .st wd.toBits sp d a off
  | .amo op w32 post sp d a b =>
    encE .amo d a b 0 (bit1 post ++ bit1 w32 ++ op.toBits : BitVec 6) (sp.toBits.setWidth 24)
  | .cas w32 sp d a b c => encE .cas d a b c (0#1 ++ bit1 w32 ++ 0#4 : BitVec 6) (sp.toBits.setWidth 24)
  | .fenceAcq sc => encE .fence 0 0 0 0 (1#4 ++ sc.toBits : BitVec 6) 0
  | .fenceRel sc => encE .fence 0 0 0 0 (2#4 ++ sc.toBits : BitVec 6) 0
  | .fenceFull sc => encE .fence 0 0 0 0 (3#4 ++ sc.toBits : BitVec 6) 0
  | .vdrain k => encE .vdrain 0 0 0 0 k.toBits 0
  | .acquire sc a => encE .acquire 0 a 0 0 (sc.toBits.setWidth 6) 0
  | .release sc a => encE .release 0 a 0 0 (sc.toBits.setWidth 6) 0
  | .bindr d a b c => encE .bindr d a b c 0 0
  | .bindrUn d c => encE .bindr d 0 0 c 1 0
  | .tlwait d tl b tmo => encE .tlwait d tl b 0 0 tmo
  | .tlread iss d tl => encE .tlread d tl 0 0 (0#5 ++ bit1 iss : BitVec 6) 0
  | .waita c inA d a b tmo => encE .waita d a b 0 (0#3 ++ bit1 inA ++ c.toBits : BitVec 6) tmo
  | .cflush a b => encE .cflush 0 a b 0 0 0
  | .cflushInv a b => encE .cflush 0 a b 0 1 0
  | .cinval a b => encE .cinval 0 a b 0 0 0
  | .br cc a b disp => encB .br a b cc.toBits disp
  | .brnz a imm => encH true { hop := 0x18, d := 0, a := a.extractLsb' 0 5, imm := imm }
  | .brz a imm => encH true { hop := 0x19, d := 0, a := a.extractLsb' 0 5, imm := imm }
  | .j disp => encB .j 0 0 0 disp
  | .jExt x => [(2#2 ++ Major.j.code ++ 0#54 : BitVec 64), x]
  | .jal a disp => encB .jal a 0 0 disp
  | .jalExt a x => [(2#2 ++ Major.jal.code ++ a ++ 0#48 : BitVec 64), x]
  | .jr d a off => encE .jr d a 0 0 0 off
  | .loopbr a disp => encB .loopbr a 0 0 disp
  | .loopmarkWait a len => encE .loopmark 0 a 0 0 0 (len.setWidth 24)
  | .loopmarkAhead d a b c len => encE .loopmark d a b c 1 (len.setWidth 24)
  | .rpstat d => encE .rpstat d 0 0 0 0 0
  | .yield => encE .yield 0 0 0 0 0 0
  | .bkpt => encE .bkpt 0 0 0 0 0 0
  | .trmark a tag => encE .trmark 0 a 0 0 0 (tag.setWidth 24)
  | .spawn d a => encE .spawn d a 0 0 0 0
  | .join d a b => encE .join d a b 0 0 0
  | .joinLvl d a => encE .join d a 0 0 1 0
  | .tcancel k d a => encE .tcancel d a 0 0 k.toBits 0
  | .gang d a b => encE .gang d a b 0 0 0
  | .tself k d => encE .tself d 0 0 0 k.toBits 0
  | .tend => encE .tend 0 0 0 0 0 0
  | .setmt n => encI .setmt 0 0 0 n
  | .setnv n => encI .setnv 0 0 0 n
  | .setsb add a imm => encI .setsb 0 a (0#5 ++ bit1 add : BitVec 6) imm
  | .setseed a imm => encI .setseed 0 a 0 imm
  | .setvl d a w => encI .setvl d a 0 w
  | .mlogic op d a b m => encM .mlogic d a b m (op.toBits.setWidth 7)
  | .mpopc d a m => encM .mpopc d a 0 m 0
  | .mfirst d a m => encM .mfirst d a 0 m 0
  | .vadd v => encV .vadd v (fnB v)
  | .vsub v => encV .vsub v (fnB v)
  | .vmul v => encV .vmul v (fnB v)
  | .vmulh v => encV .vmulh v (fnB v)
  | .vmulhr v => encV .vmulhr v (fnB v)
  | .vdiv v => encV .vdiv v (fnB v)
  | .vrem v => encV .vrem v (fnB v)
  | .vmin v => encV .vmin v (fnB v)
  | .vmax v => encV .vmax v (fnB v)
  | .vand v => encV .vand v (fnB v)
  | .vor v => encV .vor v (fnB v)
  | .vxor v => encV .vxor v (fnB v)
  | .vshl v => encV .vshl v (fnB v)
  | .vshr v => encV .vshr v (fnB v)
  | .vsra v => encV .vsra v (fnB v)
  | .vrshr v => encV .vrshr v (fnB v)
  | .vabs v => encV .vabs v (fnB v)
  | .vneg v => encV .vneg v (fnB v)
  | .vsqrt v => encV .vsqrt v (fnB v)
  | .vrsqrt v => encV .vrsqrt v (fnB v)
  | .vexp2 v => encV .vexp2 v (fnB v)
  | .vfma v => encV .vfma v (fnBC v)
  | .vsel v => encV .vsel v (fnB v)
  | .vclamp v => encV .vclamp v (fnBC v)
  | .vcmp r v => encV .vcmp v (0#3 ++ r.toBits ++ bit1 v.bs : BitVec 7)
  | .vcvt src v => encV .vcvt v (0#2 ++ src.toBits ++ 0#1 : BitVec 7)
  | .vbscale v => encV .vbscale v (fnB v)
  | .vpackni v => encV .vpackni v (fnB v)
  | .vunpkni k v => encV .vunpkni v (0#2 ++ k ++ 0#1 : BitVec 7)
  | .vmov byVew v =>
    if byVew then encH true { hop := 0x26, d := v.d.extractLsb' 0 5, a := v.a.extractLsb' 0 5, imm := 0 }
    else encV .vmov v (fnB v)
  | .vid v => encV .vid v (fnB v)
  | .vext v => encV .vext v 0
  | .vins v => encV .vins v 0
  | .vslide up v => encV .vslide v (0#5 ++ bit1 up ++ 0#1 : BitVec 7)
  | .vperm v => encV .vperm v (fnB v)
  | .vcompress v => encV .vcompress v (fnB v)
  | .vred o v => encV .vred v (0#3 ++ o.toBits ++ 0#1 : BitVec 7)
  | .vadds d a b =>
    encH true { hop := 0x22, d := d.extractLsb' 0 5, a := a.extractLsb' 0 5
                imm := (b.extractLsb' 0 5 ++ 0#10 : BitVec 15) }
  | .vld v => encVM .vld v v.off
  | .vst v => encVM .vst v v.off
  | .vamo op v => encVM .vamo v (op.toBits ++ v.off.extractLsb' 0 20 : BitVec 24)
  | .vbind d a => encE .vbind d a 0 0 0 0
  | .vunbind d => encE .vunbind d 0 0 0 0 0
  | .vcommit tag => encE .vcommit 0 0 0 0 0 (tag.setWidth 24)
  | .wset fmt d a => encE .wset d a 0 0 (fmt.setWidth 6) 0
  | .mrow f z d a b c => encE .mrow d a b c (0#3 ++ bit1 z ++ f.toBits : BitVec 6) 0
  | .mrowv f d a b c tag => encE .mrowv d a b c (f.toBits.setWidth 6) (tag.setWidth 24)
  | .mkick a => encE .mkick 0 a 0 0 0 0
  | .mkickAll => encE .mkick 0 0 0 0 1 0
  | .cpy src dst ch d a b c => encE .cpy d a b c (src ++ dst : BitVec 6) (ch.setWidth 24)
  | .cpy2d src dst ch d a b c => encE .cpy2d d a b c (src ++ dst : BitVec 6) (ch.setWidth 24)
  | .xred op t d tag => encE .xred d 0 0 0 (t.toBits ++ op.toBits : BitVec 6) (tag.setWidth 24)
  | .pkalloc d a b life => encE .pkalloc d a b 0 0 life
  | .pkenter d a b => encE .pkenter d a b 0 0 0
  | .pkcommit d => encE .pkcommit d 0 0 0 0 0
  | .pkabort code => encE .pkabort 0 0 0 0 0 code
  | .pkstat code d a => encE .pkstat d a 0 0 (0#5 ++ bit1 code : BitVec 6) 0
  | .pkfree d a => encE .pkfree d a 0 0 0 0
  | .csrr d csr => encE .csrr d 0 0 0 0 (csr.setWidth 24)
  | .csrw csr a => encE .csrw 0 a 0 0 0 (csr.setWidth 24)
  | .ecall code => encE .ecall 0 0 0 0 0 code
  | .eret => encE .eret 0 0 0 0 0 0
  | .eretKill a => encE .eret 0 a 0 0 1 0
  | .tlbinvVa d a b c => encE .tlbinv d a b c 0 0
  | .tlbinvAsid d c => encE .tlbinv d 0 0 c 1 0
  | .tlbinvAll d => encE .tlbinv d 0 0 0 2 0
  | .tlbinvWait d b => encE .tlbinv d 0 b 0 3 0
  | .asidsw d a => encE .asidsw d a 0 0 0 0
  | .ctxsave d a => encE .ctxsave d a 0 0 0 0
  | .ctxload d a => encE .ctxload d a 0 0 0 0
  | .biassetHost d a b => encE .biasset d a b 0 0 0
  | .biassetDev d a b => encE .biasset d a b 0 1 0
  | .poisonclr a b => encE .poisonclr 0 a b 0 0 0
  | .pmigP4k d a b => encE .pmig d a b 0 0 0
  | .pmigP2m d a b => encE .pmig d a b 0 1 0
  | .pmigRel d a b => encE .pmig d a b 0 2 0
  | .vectorStart .. | .element .. | .elementGroup .. | .streamPrefetch .. | .loadDataArrival .. | .drain ..
  | .register .. | .evict .. | .atomicStep .. | .raMessageArrival .. | .pageWalk .. | .tlbinvComplete ..
  | .l2TlbEviction .. | .illegalInstruction .. | .instructionFetchFault .. | .copyTransfer ..
  | .copyFlagWrite .. | .rowCapture .. | .leash .. | .groupAge .. | .arrayTakeUp .. | .tileLoad ..
  | .rowEnter .. | .rowResult .. | .tileLatchError .. | .rowError .. | .landingComplete ..
  | .collectiveComplete .. | .xredTimeout .. | .millraceIteration .. | .replayComplete .. | .departure ..
  | .taskPop .. | .agingMove .. | .gangTimeout .. | .cancelBroadcast .. | .doneContPush .. | .heldPush ..
  | .leaseGrant .. | .gtoStarvation .. | .packCountArrival .. | .packFlip .. | .packAbort ..
  | .memberRestore .. | .tentativeStoreArrival .. | .nonmemberHoldExpiry .. | .packLifetimeExpiry ..
  | .timer .. | .watchdog .. | .waitaTimeout .. | .tlwaitTimeout .. | .registerSoftError .. | .laneRetired ..
  | .agentFailure .. | .fatalError .. | .sync .. | .sample .. | .trctlWrite .. | .preemptRequest ..
  | .partcoreWrite .. | .partitionChange .. | .qringWrite .. | .queueMap .. | .queueUnmap .. | .qsubmit ..
  | .mrreclaim .. | .xgctlWrite .. | .configRegisterWrite .. | .notify .. | .hostMemRead .. | .hostMemWrite ..
  | .hostSnoop .. | .snoopResponse .. | .biasSnoopTimeout .. | .mailboxRecoveryImage ..
  | .mailboxDumpAddress .. | .mailboxBringupStatus | .doeSpdmRequest .. | .bringUp .. | .flitReceive ..
  | .portLaneLoss .. | .throttleEvaluation .. | .throttleAnnouncement .. | .throttleAck .. | .throttleEffect ..
  | .leaderSilence .. | .hbmTempSample .. | .supplyDroop .. | .stretchEnd .. | .thermalTrip ..
  | .corePowerGating .. | .corePowerUngating .. => []

end Sys2Proof
end

