-- ==== Sys2Proof/Machine/State.lean ====
section
/-! DEFINITION. The state of the package as plain data, the reasons a step can stop, and the state after reset. -/

namespace Sys2Proof.Machine

/-! ## Memory -/

/-- Bytes by address, in one canonical form: addresses strictly rising, no entry equal to what an unlisted address
reads as, which is 0 (DESIGN CHOICE, log 2). -/
abbrev Memory := List Host.Cell

/-- The addresses of a memory rise strictly from `lo`, and no listed byte is 0. -/
def Memory.wfFrom (lo : Nat) : Memory → Bool
  | [] => true
  | c :: rest => decide (lo ≤ c.1) && c.2 != 0 && Memory.wfFrom (c.1 + 1) rest

/-- The canonical form. -/
def Memory.wf (m : Memory) : Bool := Memory.wfFrom 0 m

/-! ## Agents and memory traffic -/

/-- Who writes or holds a word (R180, R183, R277). -/
inductive Owner
  | core (n : Nat)
  | engine (core : Nat)
  | slot (die k : Nat)
  | host
  | sched (die : Nat)
  deriving DecidableEq, Repr

/-- A word the L1 holds, Valid or Registered (R166); a word not listed is Invalid. `val` is what the core reads,
`fwd` what the home forwards for a Registered word (the value of its last acknowledged registration). -/
structure L1Word where
  w : Nat
  vline : Nat
  slot : Nat
  owned : Bool
  val : W32
  fwd : W32
  deriving DecidableEq, Repr

/-- An untracked line the L1 holds, with per-byte dirty bits (R187), its poisoned words, and the dirty words that one store has
covered whole (R199). -/
structure ULine where
  line : Nat
  data : List Byte
  dirty : BitVec 64
  bad : BitVec 16
  whole : BitVec 16
  deriving DecidableEq, Repr

/-- An entry of the binding table (R174). -/
structure Binding where
  slot : Nat
  obj : Word
  base : Nat
  len : Nat
  deriving DecidableEq, Repr

/-- A TLB entry (R193, R194): `lvl` 0 maps 4 KiB, 4 maps 256 TiB; `vpn` is the virtual page of that size. -/
structure TlbEntry where
  asid : BitVec 16
  vpn : Nat
  lvl : Nat
  ppn : Nat
  pbmt : BitVec 2
  g : Bool
  u : Bool
  x : Bool
  w : Bool
  r : Bool
  d : Bool
  deriving DecidableEq, Repr

/-- A range entry of a registration table (R183), in the order the entries were made. -/
structure RangeEntry where
  base : Nat
  stride : Nat
  count : Nat
  width : Nat
  owner : Owner
  deriving DecidableEq, Repr

/-- A registration in flight (R168, R183): `vals.length` words in rows of `width` words, `stride` apart, from word `w`, with
their values; `mask` marks the bytes of a store narrower than a word (R184). `iword` and `last` name the store instruction and
its youngest element. `arrived`: the time it reached its home and was held there (R152, R247, R279). -/
structure Registration where
  core : Nat
  hart : Nat
  vec : Bool
  w : Nat
  stride : Nat
  width : Nat
  vline : Nat
  vals : List W32
  mask : BitVec 4
  iword : Word
  last : Nat
  arrived : Option Nat
  deriving DecidableEq, Repr

/-- Operations of the atomic units (R300, R302, R367). -/
inductive AtomOp
  | amo (op : AmoOp)
  | cas (expected : Word)
  deriving DecidableEq, Repr

/-- Where an atomic or a message acts: a physical address, or an A-space offset of a core. -/
inductive Place
  | phys (pa : Nat)
  | aspace (core off : Nat)
  deriving DecidableEq, Repr

/-- An atomic on its way to its unit (R139, R179). `seq` is its place in the order in which atomics and RA messages
were sent (R134). -/
structure Atomic where
  seq : Nat
  hart : Nat
  op : AtomOp
  bytes : Nat
  sgn : Bool
  place : Place
  pbmt : BitVec 2
  va : Word
  operand : Word
  posted : Bool
  d : Reg
  arrived : Option Nat
  deriving DecidableEq, Repr

/-- An RA message (R134): a load of a hart, or a store's bytes. `seq` as for an atomic. -/
structure RaMsg where
  seq : Nat
  hart : Nat
  core : Nat
  off : Nat
  load : Option (LdW × Reg)
  data : List Byte
  deriving DecidableEq, Repr

/-- A store buffer entry (R166). -/
structure SbEntry where
  va : Word
  pa : Nat
  pbmt : BitVec 2
  data : List Byte
  iword : Word
  deriving DecidableEq, Repr

/-! ## Tasks -/

/-- A continuation record (R73). -/
structure TaskRec where
  code : Word
  frame : Word
  joinctr : Word
  launch : Word
  mincl : Byte
  prefcl : Byte
  prio : Byte
  flags : Byte
  leash : BitVec 16
  res38 : BitVec 16
  arg0 : Word
  arg1 : Word
  res56 : Word
  deriving DecidableEq, Repr

/-- The task context of a hart: its record and its handle (R80); `handler`: a handler record that R93 exempts, with the
number of gang cancellations (R95) made before its push. -/
structure Task where
  rc : TaskRec
  handle : Word
  handler : Option Nat
  deriving DecidableEq, Repr

/-- A queued record: `since` is the die's core clock when it joined its level (R79), `handler` marks a handler record
exempt under R93 as in Task, `gang` names its gang. -/
structure QRec where
  rc : TaskRec
  handle : Word
  since : Nat
  handler : Option Nat
  gang : Option Nat
  deriving DecidableEq, Repr

/-- One level of a partition's queues on a die: FIFO and ring together in push order, ring base and log2 size, and the
ring place of the oldest spilled record (R77, R275). -/
structure Level where
  recs : List QRec
  base : Word
  log : Nat
  first : Nat
  deriving DecidableEq, Repr

/-- A gang awaiting acknowledgement on its issuing die (R94, R95). -/
structure Gang where
  id : Nat
  launch : Word
  handle : Word
  part : Nat
  start : Nat
  mask : BitVec 4
  acked : BitVec 4
  deriving DecidableEq, Repr

/-- A cancellation on its way to a die (R91): the level record and its partition; `gang`: made by R95, with its number. -/
structure Cancel where
  handle : Word
  part : Nat
  gang : Option Nat
  deriving DecidableEq, Repr

/-- What follows a push that waited for room: the end of an AHEAD number, with its flags (R225, R230). -/
inductive AfterPush
  | nothing
  | tl2 (hart num : Nat) (fflags : BitVec 7) (task : Option Task)
  deriving DecidableEq, Repr

/-- A push waiting for room in its level (R90, R230, R282). `donecont` says the record is read when it is pushed. -/
structure HeldPush where
  rc : TaskRec
  handle : Word
  part : Nat
  donecont : Bool
  handler : Option Nat
  after : AfterPush
  deriving DecidableEq, Repr

/-! ## Vector unit -/

/-- The scalar state of a hart when a vector instruction issued: what a trap at that instruction goes back to, where younger
scalar instructions have executed behind it (R383). -/
structure Scalars where
  s : List Word
  sbad : BitVec 64
  fflags : BitVec 7
  deriving DecidableEq, Repr

/-- A vector queue entry: the instruction with what scalar issue read or took (R314, R353, R366, R205). `seq`: how many atomics
and messages the package had sent (R134); `save`: the scalar state at its issue. -/
structure VEntry where
  instr : Instr
  pc : Word
  iword : Word
  sa : Word
  sb : Word
  sc : Word
  sd : Word
  num : Nat
  prio : Nat
  desc : List Byte
  seq : Nat
  save : Scalars
  deriving DecidableEq, Repr

/-- A fault held for the element where a vector instruction stops (R260, R366); `late`: it comes from a translation (R384). -/
structure VFault where
  cause : Nat
  stval : Word
  elem : Nat
  late : Bool := false
  deriving DecidableEq, Repr

/-- What an element access does. -/
inductive ElemKind
  | load
  | store
  | amo (op : VAmoOp) (sgn : Bool)
  deriving DecidableEq, Repr

/-- Where an element lies. -/
inductive ElemPlace
  | g (pa : Nat) (pbmt : BitVec 2)
  | a (core off : Nat)
  | c (off : Nat)
  | w (off : Nat)
  deriving DecidableEq, Repr

/-- An element access in the element queue (R166). `pack`: the pack of a member's access (R245); `seq`: as in its VEntry. -/
structure Elem where
  seq : Nat
  pack : Option Nat
  kind : ElemKind
  idx : Nat
  bytes : Nat
  va : Word
  place : ElemPlace
  data : Word
  iword : Word
  deriving DecidableEq, Repr

/-- The started instruction at the head of the vector queue, with the configuration it took (R342): the next element
to act on, the fault it stops at, popped strips (R67), staged loads, the checked positions of a store-bound destination or
of the stores and atomics it makes, the extra cycles that the banks take for the element groups to come and the bank
places of its accesses by group (R135), and the cycles spent on the next group (R355). -/
structure VRun where
  e : VEntry
  vl : Nat
  lo : Nat
  next : Nat
  limit : Nat
  fault : Option VFault
  frm : BitVec 3
  sb : W32
  seed : Word
  width : Nat
  strips : List (Reg × Memory)
  staged : List (Nat × Word)
  outs : List Elem
  waits : List Nat
  places : List (Nat × ElemPlace)
  spent : Nat
  deriving DecidableEq, Repr

/-- An element of a prefetched strip: its value, or the fault held for it (R69). -/
structure StripElem where
  value : Word
  fault : Option (Nat × Word)
  deriving DecidableEq, Repr

/-- A value that a load behind a vector load has read ahead of it and holds until it issues or starts (R171, R172, R383): the
load's address, the element, and its address. -/
structure Early where
  pc : Word
  idx : Nat
  va : Word
  value : Word
  deriving DecidableEq, Repr

/-- A bound stream (R66, R67, R70): the descriptor, the register, the position of the next strip. -/
structure VStream where
  reg : Reg
  base : Word
  stride0 : Word
  stride1 : Word
  count0 : Nat
  count1 : Nat
  space : Nat
  ty : Ty
  store : Bool
  pos : Nat
  strips : List (Nat × List StripElem)
  deriving DecidableEq, Repr

/-- An occupied landing tag (R71, R72) with the timeline number of its command: `came` once the engine has written the
data, `done` once the transfer is complete; `discard`: freed without effect at its completion. -/
structure LandTag where
  num : Nat
  reg : Reg
  vl : Nat
  bytes : Nat
  mask : BitVec 3
  data : List Byte
  came : Bool
  done : Bool
  err : Bool
  row : Bool
  discard : Bool
  deriving DecidableEq, Repr

/-- A timeline context (R65): `above` lists completed numbers above DONE. -/
structure Timeline where
  issued : Nat
  done : Nat
  above : List Nat
  deriving DecidableEq, Repr

/-! ## Loop marks -/

/-- RPSTAT states (R231). -/
inductive MarkState | none | recording | replay | complete | core | departed
  deriving DecidableEq, Repr

/-- One recorded iteration (R223, R224): the words executed, stream addresses in order, VL at each instruction, and
the scalar registers at its LOOPBR. -/
structure Iteration where
  words : List Word
  addrs : List (Word × Word)
  vls : List Nat
  sregs : List Word
  deriving DecidableEq, Repr

/-- The most recent LOOPMARK of a hart (R220, R231). -/
structure Mark where
  state : MarkState
  reason : Nat
  k : Nat
  opened : Bool
  ahead : Bool
  num : Nat
  mpc : Word
  len : Nat
  creg : Reg
  count : Word
  handler : Word
  lrec : Word
  frame : Word
  start : List Word
  now : Iteration
  iters : List Iteration
  exited : Bool
  deriving DecidableEq, Repr

/-! ## Harts -/

/-- A tl2 number of an AHEAD mark whose loop did not reach REPLAY: the addresses of its body and LOOPBR, and whether the
loop has exited (R220). -/
structure AheadNum where
  num : Nat
  lo : Word
  hi : Word
  exited : Bool
  deriving DecidableEq, Repr

/-- Privilege (R256). -/
inductive Priv | user | sup
  deriving DecidableEq, Repr

/-- Why a hart is not ready (R98): `load`, `atomic` and `ra` await data, `replay` the end of a millrace slot, `held` the
vector queue before the next word issues; every other kind executes its instruction again when something has happened. -/
inductive WaitKind | load | atomic | ra | replay | held | retry
  deriving DecidableEq, Repr

/-- A waiting hart: the epoch at which its condition last failed, the time its timeout ends (R148, R176), whether it
has ended, and how far a staged instruction has come. -/
structure Wait where
  kind : WaitKind
  epoch : Nat
  deadline : Option Nat
  expired : Bool
  stage : Nat
  arg : Nat
  deriving DecidableEq, Repr

/-- A fault taken at the next instruction boundary (R146, R216, R230, R347), with DESTKIND and DESTREG (R263). -/
structure BoundaryFault where
  cause : Nat
  stval : Word
  destKind : Nat
  destReg : Nat
  deriving DecidableEq, Repr

/-- A stop of the task to be made (R91): by cancellation, or by the supervisor's kill (R263). -/
inductive Stop | none | cancelled
  deriving DecidableEq, Repr

/-- Membership of a pack (R240, R241, R253): `count` 0 not in PKCOMMIT, 1 its count is sent, 2 arrived, 3 the pack
committed; `restore`: an abort has reached the hart; `trapped`: a supervisor trap taken inside the region, and `nested` the
traps taken since then in its handler; `sup`: the region runs at supervisor privilege. `obj`: where the pack's object stands. -/
structure Member where
  handle : Word
  obj : Nat
  epoch : BitVec 32
  handler : Word
  ckpt : List Word
  count : Nat
  restore : Bool
  trapped : Bool
  nested : Nat
  sup : Bool
  deriving DecidableEq, Repr

/-- A store of a member on its way to its home's write-set buffer (R241, R245). -/
structure TentStore where
  va : Word
  pa : Nat
  data : List Byte
  vec : Bool
  deriving DecidableEq, Repr

/-- Where a row op delivers (R204). -/
inductive RowDest
  | c (off : Nat)
  | v (reg : Reg) (tag : Nat)
  deriving DecidableEq, Repr

/-- A captured row (R205) in the form of R387, with its owner, for R216. -/
structure Row where
  desc : Word
  dest : RowDest
  num : Nat
  afmt : Nat
  z : Bool
  leash : Nat
  prio : Nat
  hart : Nat
  task : Option Task
  deadline : Nat
  data : List Byte
  deriving DecidableEq, Repr

/-- The state of one hart. -/
structure Hart where
  /-- s0 to s63 (R50); the entry of s0 is never read. -/
  s : List Word
  /-- The supervisor shadow registers (R259). -/
  shadow : List Word
  /-- The bank is swapped (R259). -/
  swapped : Bool
  /-- Scalar registers with an uncorrectable error (R269). -/
  sbad : BitVec 64
  /-- The same for the shadow registers. -/
  shbad : BitVec 8
  pc : Word
  priv : Priv
  /-- The task context; a hart at user privilege without one is idle (R78, R262). -/
  task : Option Task
  /-- Order of the task's start (R98). -/
  started : Nat
  /-- Vector registers (R57): byte b of v register r at address r * 2^20 + b. -/
  v : Memory
  /-- Poisoned words of the vector registers: word n holds bytes 4n to 4n + 3 (R269). -/
  vbad : List Nat
  /-- Dirty registers, and clean registers with restored contents (R63, R267). -/
  dirty : BitVec 64
  restored : BitVec 64
  /-- m1 to m7 (R50). -/
  m : List MaskReg
  /-- w0 to w3 (R64). -/
  w : List Word
  /-- tl0 to tl3 (R65). -/
  tl : List Timeline
  vl : Nat
  vew : Nat
  nvreg : Nat
  mt : Nat
  sb : W32
  seed : Word
  vstart : Nat
  fflags : BitVec 7
  frm : BitVec 3
  atflags : BitVec 7
  /-- How many atomics and messages the package had sent at the hart's last FENCE (R141). -/
  fenced : Nat
  mleash : Nat
  /-- Leased clusters (R54, R96). -/
  lease : BitVec 16
  prio : Nat
  /-- LCR_MASKED to LCR_UNLEASED of the last snapshot (R155). -/
  lcr : List Word
  stvec : Word
  sepc : Word
  scause : Word
  stval : Word
  sstatus : Word
  satp : Word
  sstart : Word
  /-- SSTATUS as the last trap from user privilege left it, for the save area (R266). -/
  trapStatus : Word
  /-- First word, time and destination of the last trap, for the fault record (R263). -/
  trapWord : Word
  trapTime : Nat
  trapDest : Nat × Nat
  /-- Faults held for the next boundary. -/
  pend : List BoundaryFault
  /-- Pending asynchronous causes with their STVAL (R257, R259); the timer's is derived from SSTART. -/
  asyncs : List (Nat × Word)
  stop : Stop
  /-- The next ERET to the task reads its ancestry chain (R91). -/
  chain : Bool
  sbuf : List SbEntry
  vq : List VEntry
  run : Option VRun
  early : List Early
  /-- The checked accesses of the store behind the vector load at work that wait for their elements (R172). -/
  linked : Option (List Elem)
  elems : List Elem
  tents : List TentStore
  streams : List VStream
  landing : List (Option LandTag)
  mark : Mark
  aheads : List AheadNum
  pack : Option Member
  /-- Area of the last CTXLOAD since the registers were last zeroed (R267). -/
  ctxArea : Option Word
  /-- Rows that a CTXSAVE has withdrawn and not yet written, or that a CTXLOAD has read and not yet re-issued (R215). -/
  saved : List Row
  /-- What a CTXLOAD that waits for its clusters has read of its area (R268). -/
  loading : List (List Byte × List Nat)
  wait : Option Wait
  /-- The instruction being issued, and its first word. -/
  item : Item
  iword : Word
  /-- Cycles ready without issue under GTO (R98). -/
  gto : Nat
  /-- Scalar registers with a result still to come, and the CYCLE from which it is usable (R103). -/
  busy : List (Nat × Nat)
  /-- Vector registers, and masks as 64 + n, whose last result cannot feed a chained instruction yet, with the CYCLE from which
  it can (R62, R355). -/
  vdue : List (Nat × Nat)
  /-- A younger word whose effects stay has issued behind the vector instruction at work (R383). -/
  passed : Bool
  /-- Time of the last progress, and whether the watchdog has reported the stall (R258). -/
  progress : Nat
  reported : Bool
  /-- Address of the instruction whose WHEN = 1 breakpoint test is due (R159). -/
  brkAfter : Option Word
  deriving DecidableEq, Repr

/-! ## Cores -/

/-- A queued copy command (R144), with the SATP and the task it captured. -/
structure CopyCmd where
  hart : Nat
  num : Nat
  src : Nat
  dst : Nat
  daddr : Word
  saddr : Word
  rowBytes : Nat
  rows : Nat
  spitch : Word
  dpitch : Word
  flag : Word
  flagVal : Word
  satp : Word
  priv : Priv
  task : Option Task
  part : Nat
  moved : Bool
  faulted : Option Word
  /-- Not to be tried again before this time: a translation fault waits for the supervisor (R146). -/
  retry : Nat
  deriving DecidableEq, Repr

/-- A lease request (R96, R268): CTXLOAD asks for MINCL = PREFCL = c. -/
structure LeaseReq where
  hart : Nat
  mincl : Nat
  prefcl : Nat
  deriving DecidableEq, Repr

/-- A breakpoint unit (R157). -/
structure BkUnit where
  ctl : Word
  addr : Word
  val : Word
  deriving DecidableEq, Repr

/-- An entry of the window table (R275). -/
structure Window where
  launch : Word
  ext : Word
  valid : Bool
  deriving DecidableEq, Repr

/-- Millpond group states (R212); FREE is an empty slot. -/
inductive PondState | waiting | ready | streaming
  deriving DecidableEq, Repr

/-- A millpond group (R210 to R213). -/
structure PondGroup where
  addr : Nat
  fmt : Nat
  part : Nat
  state : PondState
  rows : List Row
  readyAt : Nat
  aged : Bool
  formed : Nat
  entered : List Row
  deriving DecidableEq, Repr

/-- A tile in a latch (R209). -/
structure Latch where
  addr : Nat
  fmt : Nat
  part : Nat
  tile : Memory
  stale : Bool
  deriving DecidableEq, Repr

/-- A row in the array: the tile it met, the 256 words of its C row at its entry, its 256 results and the cycle they are
written (R209). -/
structure RowFlight where
  row : Row
  latch : Latch
  base : List W32
  result : List W32
  at_ : Nat
  deriving DecidableEq, Repr

/-- The matrix array (R209). -/
structure MatrixArray where
  active : Option Latch
  shadow : Option Latch
  streaming : Option Nat
  loadDone : Nat
  nextEntry : Nat
  flight : List RowFlight
  deriving DecidableEq, Repr

/-- A core's trace unit (R161, R162): `sync` is a SYNC record due in this cycle, INFO[8:7] with the GTIME of its cause
(R163), `sample` a SAMPLE record due in it, `closing` a TRCTL value that clears EN and waits for the records already produced. -/
structure Trace where
  ctl : Word
  base : Word
  size : Word
  head : Nat
  lost : Nat
  sync : Option (Nat × Nat)
  sample : Bool
  closing : Option Word
  deriving DecidableEq, Repr

/-- The issue history of a core (R98, R104, R105). -/
structure IssueHist where
  cur : Option Nat
  run : Nat
  yielded : Bool
  excluded : Option Nat
  last : Nat
  deriving DecidableEq, Repr

/-- The state of one core. -/
structure Core where
  a : Memory
  c : Memory
  w : Memory
  l1 : List L1Word
  ul1 : List ULine
  binds : List Binding
  tlb : List (Nat × TlbEntry)
  chans : List (List CopyCmd)
  leaseq : List LeaseReq
  /-- Clusters freed in this cycle (R96). -/
  freed : BitVec 16
  lanedis : BitVec 16
  /-- LCR_USEFUL to LCR_UNLEASED (R154). -/
  lcr : List Word
  /-- Clusters of the lanes counted in this cycle, with 0, 1 or 2 for USEFUL, MASKED and BEYONDVL, and the harts whose lanes were busy (R153). -/
  laneUse : List (Nat × Nat)
  laneHarts : BitVec 8
  /-- This cycle is not counted: the counters were cleared in it (R155). -/
  uncounted : Bool
  /-- The lanes of this cycle have been counted for a snapshot: no further group executes in it (R155). -/
  snapped : Bool
  cycle : Nat
  /-- The hart and the PC of the word issued in this cycle (R98, R162). -/
  issued : Option (Nat × Word)
  /-- Bank places that copy transfers and RA messages have used in this cycle (R135). -/
  bankUse : List ElemPlace
  rr : Bool
  hist : IssueHist
  bk : List BkUnit
  trace : Trace
  part : Nat
  assigned : Bool
  partPending : Option Word
  windows : List Window
  pond : List (Option PondGroup)
  arr : MatrixArray
  gated : Bool
  retired : Bool
  deriving DecidableEq, Repr

/-! ## Dies -/

/-- An invalidation on a die's timeline that has not completed (R197). -/
structure Inval where
  num : Nat
  base : Nat
  len : Nat
  asid : Option (BitVec 16)
  all : Bool
  deriving DecidableEq, Repr

/-- A record of the error log (R276). -/
structure ErrRec where
  time : Nat
  kind : Nat
  severity : Nat
  core : Nat
  hart : Nat
  unit : Nat
  addr : Word
  syndrome : Word
  deriving DecidableEq, Repr

/-- A collective in progress on a die (R378). -/
structure Collective where
  k : Nat
  hart : Nat
  num : Nat
  tag : Nat
  op : XOp
  ty : XTy
  vl : Nat
  data : List Byte
  start : Nat
  deriving DecidableEq, Repr

/-- A millrace slot at work (R225): the mark, the hart at confirmation, its state now, the next iteration, the body, the
carried scalars and the carried vectors and masks (64 + n for mask n), what the body writes, the writes of others since
confirmation, a reclaim request (R228) and a cancellation of the task (R92). -/
structure Slot where
  core : Nat
  hart : Nat
  mark : Mark
  part : Nat
  base : Hart
  now : Hart
  k : Nat
  carried : List Reg
  carriedV : List Nat
  writesS : List Reg
  writesV : List Nat
  writes : List (Nat × Nat)
  reclaim : Bool
  cancelled : Bool
  deriving DecidableEq, Repr

/-- A die's throttle member (R285, R286): `since` gives for each step the time from which the leader has seen no larger
request. -/
structure Throttle where
  step : Nat
  request : Nat
  since : List (Option Nat)
  announced : Option (Nat × Nat)
  acks : Nat
  heard : Nat
  member : Bool
  /-- The time of the member's last evaluation (R285). -/
  evaluated : Option Nat
  deriving DecidableEq, Repr

/-- The state of one die. -/
structure Die where
  /-- The core clock of the die: parts of a core cycle since reset (R10, R284, Config.clockUnit). -/
  clock : Nat
  levels : List Level
  /-- By partition, the local hart whose turn at the pop is next (R78). -/
  popRr : List Nat
  l2tlb : List TlbEntry
  invIssued : Nat
  invDone : Nat
  invals : List Inval
  slots : List (Option Slot)
  errs : List ErrRec
  errHead : Nat
  errTail : Nat
  errLost : Nat
  xgctl : Word
  xgtimeout : Word
  xgseq : Nat
  colls : List Collective
  qmap : List (Nat × Word)
  qsubmit : Nat
  thctl : Word
  wdctl : Word
  throttle : Throttle
  /-- A clock-stretch episode: its start, and the last cycle that stretched (R289). -/
  stretching : Option (Nat × Option Nat)
  held : List HeldPush
  gangs : List Gang
  /-- Cancellations on their way to this die; one made by R95 spares the launch's handlers pushed since (R93). -/
  cancels : List Cancel
  lost : Bool
  deriving DecidableEq, Repr

/-! ## Package -/

/-- Pack states (R236). -/
inductive PackState | opened | committing | aborting
  deriving DecidableEq, Repr

/-- A live pack (R236, R246, R248, R251). `tent` holds the tentative bytes, `reads` the read-set lines; `freeWait`: the
harts whose PKFREE waits; `aborted`: the time of the cause that ABORTCODE names (R250). -/
structure Pack where
  handle : Word
  pa : Nat
  die : Nat
  expected : Nat
  entered : Nat
  committed : Nat
  state : PackState
  code : BitVec 32
  epoch : BitVec 32
  lifetime : Nat
  part : Nat
  start : Nat
  members : List Nat
  tent : List Host.Cell
  reads : List Nat
  freeWait : List Nat
  aborted : Nat
  deriving DecidableEq, Repr

/-- A page-move hold (R151): source and destination frame and page bytes. -/
structure Hold where
  src : Nat
  dst : Nat
  bytes : Nat
  deriving DecidableEq, Repr

/-- A dirty filter of a page move in progress (R151). -/
structure Filter where
  hart : Nat
  src : Nat
  bytes : Nat
  dirty : Bool
  deriving DecidableEq, Repr

/-- Where a held write comes from: a request of the host, the device itself, or the data of a snoop's response (R293). -/
inductive PutSource | host | device | response
  deriving DecidableEq, Repr

/-- A write of the host, of a trace unit or of a dirty line that is held at its home for a page move (R151), a pack (R247), a bias
flip or the host's copy of its line (R277, R279): address, bytes, arrival and source. -/
structure HeldPut where
  pa : Nat
  data : List Byte
  arrived : Nat
  src : PutSource
  deriving DecidableEq, Repr

/-- A back-invalidate snoop sent to the host that has not been answered (R277, R279): its line, and when it was sent. -/
structure Snoop where
  line : Nat
  sent : Nat
  deriving DecidableEq, Repr

/-- A Lyszir port (R283): whether it runs, its lanes, the number of the next flit it takes, the flits taken in order, and
how many came that the sender sends again. -/
structure Port where
  enabled : Bool
  lanes : Nat
  nextSeq : Nat
  taken : List (FlitHead × List Byte)
  replays : Nat
  deriving DecidableEq, Repr

/-- How far bring-up has come (R290). -/
inductive Bringup | off | recovery | noMemory | noLink | up
  deriving DecidableEq, Repr

/-- A fatal stop (R271): the dump's CAUSE, GTIME, ORIGIN and DIEMASK. -/
structure Fatal where
  cause : Nat
  time : Nat
  origin : Nat
  dies : Nat
  deriving DecidableEq, Repr

/-- A task saved by CTXSAVE: the faults that wait for it (R146, R270) and its landing tags, whose element widths and
errors the save area has no field for (R266, log 24). -/
structure Parked where
  task : Task
  pend : List BoundaryFault
  landing : List (Option LandTag)
  deriving DecidableEq, Repr

/-- What the agenda holds: the move the next step makes (log 3). -/
inductive Move
  | issue (h : Nat)
  | event (i : Instr)
  | time (ns : Nat)
  deriving DecidableEq, Repr

/-- The whole package. -/
structure State where
  harts : List Hart
  cores : List Core
  dies : List Die
  /-- L2, memory-side cache, HBM and host memory: one value per byte (R136, R166). -/
  mem : Memory
  /-- Poisoned memory words, by word number, rising (R199). -/
  bad : List Nat
  /-- Registration tables, 32 home slices per die (R183, R185). -/
  tables : List (List RangeEntry)
  regs : List Registration
  atoms : List Atomic
  ras : List RaMsg
  /-- Atomics and RA messages sent so far. -/
  sends : Nat
  /-- Pages in host bias (R277), lines the host may hold (R293), snoops outstanding. -/
  bias : List Nat
  hostLines : List Nat
  snoops : List Snoop
  /-- What the last host read over CXL.mem returned, and its poison indication (R199). -/
  hostRead : List Byte × Bool
  packs : List Pack
  /-- Writes of non-members held at a home without a record of their own: address, bytes, arrival (R247). -/
  packWaits : List (Nat × Nat × Nat)
  holds : List Hold
  heldPuts : List HeldPut
  filters : List Filter
  gtime : Nat
  /-- Moved pseudo-channels of the repair map (R137). -/
  repair : List (Nat × Nat)
  bringup : Bringup
  /-- Host address for the fatal dump (R291). -/
  dumpAddr : Option Word
  /-- The CXL link is trained (R290). -/
  linkUp : Bool
  /-- The digest of the image that runs (R290, R291). -/
  image : BitVec 384
  /-- SPDM requests answered, and the last answer (R291). -/
  spdm : Nat
  spdmAnswer : List Byte
  ports : List Port
  /-- Refresh band of each stack (R287). -/
  bands : List Nat
  fatal : Option Fatal
  /-- Pages whose bias flip is in progress (R279). -/
  flips : List Nat
  /-- The descriptor address of each queue's last mapping (R281). -/
  descs : List (Nat × Nat)
  /-- Words of memory at which the next drain of a store meets an uncorrectable error (R347): the model's own field, which comes
  from outside as the agenda does (log 68). -/
  drainBad : List Nat
  /-- Notified queues, each with its die, whose records are processed when the cycle of the notify has ended (R281, R292). -/
  notified : List (Nat × Nat)
  /-- Tasks saved by CTXSAVE and not yet loaded. -/
  parked : List Parked
  /-- Tasks started so far (R98). -/
  tasks : Nat
  /-- Gangs and gang cancellations made so far (R94, R95). -/
  ids : Nat
  /-- The model's own: the hart that issues, the moves to make, free values used, happenings so far (log 3, 4, 5). -/
  cur : Nat
  agenda : List Move
  fresh : Nat
  epoch : Nat
  /-- The model's own: bytes that an access of this step must wait for, with their number, and whether it writes them. A
  step that leaves one here is not taken: its agent waits (log 66). -/
  want : Option (Nat × Nat × Bool)
  deriving DecidableEq, Repr

/-! ## Stops -/

/-- Reasons the machine stops. -/
inductive Fault
  /-- Raised by step once a fatal error has stopped the package (R271): the device stays stopped until it is reset.
  Safe: the device goes no further either. -/
  | fatalStop
  deriving DecidableEq, Repr

/-- Reasons a move has no meaning. -/
inductive Refusal
  /-- Raised by a meaning not yet written. Safe. -/
  | notModelled (mnemonic : String)
  /-- Raised by an event row whose condition does not hold: a step that no rule names never happens (R167). Safe: the
  hardware takes no such step. -/
  | notEnabled (mnemonic : String)
  deriving DecidableEq, Repr

/-! ## Reset -/

/-- A timeline at reset (R65). -/
def Timeline.reset : Timeline := { issued := 0, done := 0, above := [] }

/-- An empty iteration record. -/
def Iteration.empty : Iteration := { words := [], addrs := [], vls := [], sregs := [] }

/-- No mark (R231). -/
def Mark.reset : Mark :=
  { state := .none, reason := 0, k := 0, opened := false, ahead := false, num := 0, mpc := 0, len := 0, creg := 0
    count := 0, handler := 0, lrec := 0, frame := 0, start := [], now := Iteration.empty, iters := [], exited := false }

/-- A compute hart after reset: idle, at user privilege; registers without a reset value are 0 or R52's value
(DESIGN CHOICE, log 1). -/
def Hart.reset : Hart :=
  { s := List.replicate 64 0, shadow := List.replicate 8 0, swapped := false, sbad := 0, shbad := 0, pc := 0, priv := .user
    task := none, started := 0, v := [], vbad := [], dirty := 0, restored := 0, m := List.replicate 7 0
    w := List.replicate 4 0, tl := List.replicate 4 Timeline.reset, vl := 0, vew := 32, nvreg := 32, mt := 0, sb := 0
    seed := 0, vstart := 0, fflags := 0, frm := 0, atflags := 0, fenced := 0, mleash := 32, lease := 0, prio := 0
    lcr := List.replicate 5 0, stvec := 0, sepc := 0, scause := 0, stval := 0, sstatus := 0, satp := 0, sstart := 0, trapStatus := 0
    trapWord := 0, trapTime := 0, trapDest := (0, 0), pend := [], asyncs := [], stop := .none, chain := false
    sbuf := [], vq := [], run := none, early := [], linked := none, elems := [], tents := [], streams := []
    landing := List.replicate 16 none, mark := Mark.reset, aheads := [], pack := none, ctxArea := none, saved := []
    loading := [], wait := none, item := .short, iword := 0, gto := 0, busy := [], vdue := []
    passed := false, progress := 0
    reported := false, brkAfter := none }

/-- A control-core hart after reset: always at supervisor privilege (R256). -/
def Hart.resetControl : Hart := { Hart.reset with priv := .sup }

/-- A core after reset (log 1). -/
def Core.reset : Core :=
  { a := [], c := [], w := [], l1 := [], ul1 := [], binds := [], tlb := [], chans := List.replicate 4 []
    leaseq := [], freed := 0, lanedis := 0, lcr := List.replicate 6 0, laneUse := [], laneHarts := 0
    uncounted := false, snapped := false, cycle := 0
    issued := none, bankUse := [], rr := false, hist := { cur := none, run := 0, yielded := false, excluded := none, last := 7 }
    bk := List.replicate 8 { ctl := 0, addr := 0, val := 0 }
    trace := { ctl := 0, base := 0, size := 0, head := 0, lost := 0, sync := none, sample := false, closing := none }
    part := 0, assigned := false
    partPending := none, windows := List.replicate 16 { launch := 0, ext := 0, valid := false }
    pond := List.replicate 8 none
    arr := { active := none, shadow := none, streaming := none, loadDone := 0, nextEntry := 0, flight := [] }
    gated := false, retired := false }

/-- A die after reset (R77, R65, R275). -/
def Die.reset : Die :=
  { clock := 0, levels := List.replicate 128 { recs := [], base := 0, log := 0, first := 0 }, popRr := List.replicate 16 0
    l2tlb := [], invIssued := 0
    invDone := 0, invals := [], slots := List.replicate 8 none, errs := [], errHead := 0, errTail := 0, errLost := 0
    xgctl := 0, xgtimeout := 0, xgseq := 0, colls := [], qmap := [], qsubmit := 0, thctl := 0, wdctl := 100000
    throttle := { step := 0, request := 0, since := List.replicate 16 none, announced := none, acks := 0, heard := 0, member := true
                  evaluated := none }
    stretching := none, held := [], gangs := [], cancels := [], lost := false }

/-- A Lyszir port before training (R290). -/
def Port.reset : Port := { enabled := false, lanes := 8, nextSeq := 0, taken := [], replays := 0 }

/-- The package right after reset: every page in device bias (R277), the identity repair map (R137), nothing brought
up (R290). -/
def State.reset : State :=
  { harts := List.replicate 1024 Hart.reset ++ List.replicate 8 Hart.resetControl
    cores := List.replicate 136 Core.reset, dies := List.replicate 4 Die.reset, mem := [], bad := []
    tables := List.replicate 128 [], regs := [], atoms := [], ras := [], sends := 0, bias := [], hostLines := []
    snoops := [], hostRead := ([], false)
    packs := [], packWaits := [], holds := [], heldPuts := [], filters := [], gtime := 0, repair := []
    bringup := .off, dumpAddr := none, linkUp := false, image := 0, spdm := 0, spdmAnswer := []
    ports := List.replicate 18 Port.reset, bands := List.replicate 8 0, fatal := none, flips := [], descs := []
    drainBad := [], notified := [], parked := [], tasks := 0, ids := 0
    cur := 0, agenda := [], fresh := 0, epoch := 0, want := none }

end Sys2Proof.Machine
end

