-- ==== Sys2Proof/Machine/Ops.lean ====
section
/-! DEFINITION. The named operations over registers, memory, timelines, packs, the error log and the trace; taking a
trap (R259) and the return from one (R262); how a meaning ends. -/

namespace Sys2Proof.Machine

/-! ## Lists with a default -/

/-- Entry `i`, or the default past the end. -/
def getAt {α : Type} (d : α) : List α → Nat → α
  | [], _ => d
  | x :: _, 0 => x
  | _ :: xs, n + 1 => getAt d xs n

/-- Writes entry `i`, padding with the default. -/
def putAt {α : Type} (d : α) : List α → Nat → α → List α
  | [], 0, v => [v]
  | [], n + 1, v => d :: putAt d [] n v
  | _ :: xs, 0, v => v :: xs
  | x :: xs, n + 1, v => x :: putAt d xs n v

/-! ## Components -/

/-- Hart `h` of the package (R9). -/
def State.hart (s : State) (h : Nat) : Hart := getAt Hart.reset s.harts h
/-- Writes hart `h`. -/
def State.setHart (s : State) (h : Nat) (x : Hart) : State := { s with harts := putAt Hart.reset s.harts h x }
/-- Applies `f` to hart `h`. -/
def State.modHart (s : State) (h : Nat) (f : Hart → Hart) : State := s.setHart h (f (s.hart h))
/-- Core `c`: 0 to 127 compute, 128 to 135 control. -/
def State.core (s : State) (c : Nat) : Core := getAt Core.reset s.cores c
/-- Writes core `c`. -/
def State.setCore (s : State) (c : Nat) (x : Core) : State := { s with cores := putAt Core.reset s.cores c x }
/-- Applies `f` to core `c`. -/
def State.modCore (s : State) (c : Nat) (f : Core → Core) : State := s.setCore c (f (s.core c))
/-- Die `d`. -/
def State.die (s : State) (d : Nat) : Die := getAt Die.reset s.dies d
/-- Writes die `d`. -/
def State.setDie (s : State) (d : Nat) (x : Die) : State := { s with dies := putAt Die.reset s.dies d x }
/-- Applies `f` to die `d`. -/
def State.modDie (s : State) (d : Nat) (f : Die → Die) : State := s.setDie d (f (s.die d))

/-- The core of hart `h` (R9). -/
def coreOf (h : Nat) : Nat := if h < 1024 then h / 8 else h - 1024 + 128
/-- The hart's number on its core. -/
def localHart (h : Nat) : Nat := if h < 1024 then h % 8 else 0
/-- A control-core hart (R8). -/
def isControl (h : Nat) : Bool := decide (1024 ≤ h)
/-- The die of core `c`: 32 compute cores and 2 control cores each (R8). -/
def dieOfCore (c : Nat) : Nat := if c < 128 then c / 32 else (c - 128) / 2
/-- The die of hart `h`. -/
def dieOf (h : Nat) : Nat := dieOfCore (coreOf h)
/-- Control-core hart 0 of die `d`, where R189, R257 and R258 deliver events. -/
def controlHart (d : Nat) : Nat := 1024 + 2 * d
/-- The partition of hart `h` (R100). -/
def State.partOf (s : State) (h : Nat) : Nat := (s.core (coreOf h)).part

/-- Something has happened: harts that wait look again. -/
def State.happen (s : State) : State := { s with epoch := s.epoch + 1 }

/-! ## Numbers and bytes -/

/-- Little-endian value of bytes (R3). -/
def leNat : List Byte → Nat
  | [] => 0
  | b :: bs => b.toNat + 256 * leNat bs

/-- The `n` low bytes of a number, lowest first (R3). -/
def leBytes : Nat → Nat → List Byte
  | 0, _ => []
  | n + 1, x => BitVec.ofNat 8 x :: leBytes n (x / 256)

/-- Bits [lo + n - 1 : lo] of a word as a number. -/
def field (w : Word) (lo n : Nat) : Nat := (w.toNat / 2 ^ lo) % 2 ^ n

/-- Writes bits [lo + n - 1 : lo]. -/
def setField (w : Word) (lo n v : Nat) : Word :=
  BitVec.ofNat 64 (w.toNat - field w lo n * 2 ^ lo + (v % 2 ^ n) * 2 ^ lo)

/-- One bit of a word. -/
def wbit (w : Word) (i : Nat) : Bool := w.getLsbD i

/-- A Bool as 0 or 1. -/
def b2n (b : Bool) : Nat := if b then 1 else 0

/-- Number of set bits. -/
def popcount {n : Nat} (x : BitVec n) : Nat := (List.range n).foldl (fun k i => k + b2n (x.getLsbD i)) 0

/-! ## Memory -/

/-- The byte at an address (R166). -/
def Memory.read : Memory → Nat → Byte
  | [], _ => 0
  | c :: rest, a => if a = c.1 then c.2 else Memory.read rest a

/-- Writes one byte, keeping the canonical form. -/
def Memory.write : Memory → Nat → Byte → Memory
  | [], a, b => if b = 0 then [] else [(a, b)]
  | c :: rest, a, b =>
    if a < c.1 then (if b = 0 then c :: rest else (a, b) :: c :: rest)
    else if a = c.1 then (if b = 0 then rest else (a, b) :: rest)
    else c :: Memory.write rest a b

/-- `n` bytes from an address. -/
def Memory.readN (m : Memory) (a : Nat) : Nat → List Byte
  | 0 => []
  | n + 1 => m.read a :: m.readN (a + 1) n

/-- Writes bytes from an address. -/
def Memory.writeN (m : Memory) (a : Nat) : List Byte → Memory
  | [] => m
  | b :: bs => (m.write a b).writeN (a + 1) bs

/-- `n` bytes as a little-endian number. -/
def Memory.readLe (m : Memory) (a n : Nat) : Nat := leNat (m.readN a n)
/-- The low `n` bytes of a number. -/
def Memory.writeLe (m : Memory) (a n x : Nat) : Memory := m.writeN a (leBytes n x)

/-- Removes the bytes in [lo, hi). -/
def Memory.clear (m : Memory) (lo hi : Nat) : Memory := m.filter fun c => decide (c.1 < lo) || decide (hi ≤ c.1)

/-- The words of [a, a + n) that are covered whole: their poison clears (R199). -/
def clearWords (bad : List Nat) (a n : Nat) : List Nat :=
  bad.filter fun w => !(decide (a ≤ 4 * w) && decide (4 * w + 4 ≤ a + n))

/-- Adds a poisoned word. -/
def addWord (bad : List Nat) (w : Nat) : List Nat := if bad.contains w then bad else w :: bad

/-- A byte of [a, a + n) is in a poisoned word. -/
def poisoned (bad : List Nat) (a n : Nat) : Bool :=
  bad.any fun w => decide (4 * w < a + n) && decide (a < 4 * w + 4)

/-- Puts bytes into memory at a physical address, with R199's rule for poison. -/
def State.memPut (s : State) (pa : Nat) (bs : List Byte) : State :=
  { s with mem := s.mem.writeN pa bs, bad := clearWords s.bad pa bs.length }

/-! ## Homes: words, owners and recalls (R137, R168, R183, R184) -/

/-- The pseudo-channel of a logical bank under the repair map. -/
def State.channel (s : State) (b : Nat) : Nat := match s.repair.find? fun e => e.1 == b with
  | some e => e.2
  | none => b

/-- The die that holds a line. -/
def State.homeDie (s : State) (pa : Nat) : Nat := s.channel ((pa / 256) % 509) / 64 / 2

/-- The index of a line's home slice in `tables`. -/
def State.homeOf (s : State) (pa : Nat) : Nat := s.homeDie pa * 32 + (pa / 64) % 32

/-- The range covers a word. -/
def RangeEntry.covers (e : RangeEntry) (w : Nat) : Bool :=
  decide (e.base ≤ w) && decide ((w - e.base) / e.stride < e.count) && decide ((w - e.base) % e.stride < e.width)

/-- The words of a range. -/
def RangeEntry.words (e : RangeEntry) : List Nat :=
  (List.range e.count).flatMap fun j => (List.range e.width).map fun o => e.base + j * e.stride + o

/-- The entry split around one of its words (R184). -/
def RangeEntry.remove (e : RangeEntry) (w : Nat) : List RangeEntry :=
  if e.covers w then
    let j := (w - e.base) / e.stride
    let o := (w - e.base) % e.stride
    let row := e.base + j * e.stride
    (if j = 0 then [] else [{ e with count := j }]) ++
    (if o = 0 then [] else [{ e with base := row, stride := o, count := 1, width := o }]) ++
    (if o + 1 < e.width then
      [{ e with base := row + o + 1, stride := e.width - o - 1, count := 1, width := e.width - o - 1 }] else []) ++
    (if j + 1 < e.count then [{ e with base := row + e.stride, count := e.count - j - 1 }] else [])
  else [e]

/-- A home slice's table. -/
def State.table (s : State) (pa : Nat) : List RangeEntry := getAt [] s.tables (s.homeOf pa)
/-- Writes it. -/
def State.setTable (s : State) (pa : Nat) (t : List RangeEntry) : State :=
  { s with tables := putAt [] s.tables (s.homeOf pa) t }

/-- Who holds a word Registered. -/
def State.ownerOf (s : State) (w : Nat) : Option Owner :=
  ((s.table (4 * w)).find? fun e => e.covers w).map fun e => e.owner

/-! ## L1 words -/

/-- The L1 word of a core, if Valid or Registered. -/
def Core.l1get (c : Core) (w : Nat) : Option L1Word := c.l1.find? fun x => x.w == w
/-- The L1 word becomes Invalid. -/
def Core.l1drop (c : Core) (w : Nat) : Core := { c with l1 := c.l1.filter fun x => x.w != w }
/-- Writes the L1 word. -/
def Core.l1put (c : Core) (x : L1Word) : Core := { c with l1 := x :: c.l1.filter fun y => y.w != x.w }
/-- A word of memory. -/
def State.memWord (s : State) (w : Nat) : W32 := BitVec.ofNat 32 (s.mem.readLe (4 * w) 4)

/-- What a read miss of a word returns: the registrant's value, or the memory value (R168, R186). -/
def State.homeWord (s : State) (w : Nat) : W32 :=
  match s.ownerOf w with
  | some (.core c) => match (s.core c).l1get w with
    | some x => if x.owned then x.fwd else s.memWord w
    | none => s.memWord w
  | _ => s.memWord w

/-- A byte as a read miss returns it. -/
def State.homeByte (s : State) (pa : Nat) : Byte := (s.homeWord (pa / 4)).extractLsb' (8 * (pa % 4)) 8

/-- Bytes as read misses return them. -/
def State.homeBytes (s : State) (pa : Nat) : Nat → List Byte
  | 0 => []
  | n + 1 => s.homeByte pa :: s.homeBytes (pa + 1) n

/-- The words that [pa, pa + n) touches. -/
def wordsOf (pa n : Nat) : List Nat :=
  if n = 0 then [] else (List.range ((pa + n - 1) / 4 - pa / 4 + 1)).map (pa / 4 + ·)

/-- A core keeps a word it no longer owns as a Valid copy; a poisoned one it loses (R199). -/
def State.demote (s : State) (c w : Nat) : State :=
  s.modCore c fun x => match x.l1get w with
    | some y => if s.bad.contains w then x.l1drop w else x.l1put { y with owned := false }
    | none => x

/-- The registrant's value of a word goes to memory, and its copy becomes Valid (R139, R185). -/
def State.writeBack (s : State) (w : Nat) : State :=
  match s.ownerOf w with
  | some (.core c) =>
    let v := s.homeWord w
    { s.demote c w with mem := s.mem.writeLe (4 * w) 4 v.toNat }
  | _ => s

/-- A home recalls a whole entry, which is freed (R185). -/
def State.recallEntry (s : State) (pa : Nat) (e : RangeEntry) : State :=
  let s := e.words.foldl State.writeBack s
  s.setTable pa ((s.table pa).erase e)

/-- A home that needs `n` more entries than are free recalls its oldest ones, `k` at most (R185). -/
def State.makeRoom (s : State) (pa n : Nat) : Nat → State
  | 0 => s
  | k + 1 => match s.table pa with
    | [] => s
    | e :: _ =>
      if (s.table pa).length + n ≤ Config.homeRanges then s else State.makeRoom (s.recallEntry pa e) pa n k

/-- A word leaves the table of its home; a split takes entries (R184, R185). -/
def State.leaveTable (s : State) (w : Nat) : State :=
  let split := fun (t : State) => (t.table (4 * w)).flatMap fun e => e.remove w
  let s := s.makeRoom (4 * w) ((split s).length - (s.table (4 * w)).length) 4
  s.setTable (4 * w) (split s)

/-- The owner's value of a word goes to memory and its copy becomes Valid; the word leaves the table (R139, R185). -/
def State.recall (s : State) (w : Nat) : State :=
  if (s.ownerOf w).isSome then (s.writeBack w).leaveTable w else s

/-- Recalls every word that [pa, pa + n) touches. -/
def State.recallRange (s : State) (pa n : Nat) : State := (wordsOf pa n).foldl State.recall s

/-- Word `i` of a registration. -/
def Registration.word (r : Registration) (i : Nat) : Nat := r.w + i / r.width * r.stride + i % r.width
/-- The words of a registration. -/
def Registration.words (r : Registration) : List Nat := (List.range r.vals.length).map r.word

/-! ## Hooks of a write at a home -/

/-- Ranges [a, a + n) and [b, b + k) meet. -/
def meet (a n b k : Nat) : Bool := decide (a < b + k) && decide (b < a + n)

/-- Where an A-space byte stands among the addresses a millrace slot watches. -/
def aKey (core off : Nat) : Nat := 2 ^ 60 + core * 2 ^ 22 + off

/-- A slot's list of writes by others grows. -/
def Slot.note (t : Slot) (pa n : Nat) : Slot := { t with writes := (pa, n) :: t.writes }

/-- The slots of a die note a write; slot `skip` is the writer. -/
def noteSlots (skip : Option Nat) (pa n : Nat) : Nat → List (Option Slot) → List (Option Slot)
  | _, [] => []
  | k, t :: ts => (if skip = some k then t else t.map fun u => u.note pa n) :: noteSlots skip pa n (k + 1) ts

/-- The dies note a write. -/
def noteDies (self : Option (Nat × Nat)) (pa n : Nat) : Nat → List Die → List Die
  | _, [] => []
  | d, x :: xs =>
    let skip := match self with
      | some p => if p.1 = d then some p.2 else none
      | none => none
    { x with slots := noteSlots skip pa n 0 x.slots } :: noteDies self pa n (d + 1) xs

/-- The page is being moved (R151). -/
def State.pageHeld (s : State) (pa : Nat) : Bool :=
  s.holds.any fun h => decide (h.src ≤ pa) && decide (pa < h.src + h.bytes)

/-- A write by an agent other than slot `self` reaches [pa, pa + n): dirty filters (R151) and millrace conflicts
(R228) note it. -/
def State.noteWrite (s : State) (self : Option (Nat × Nat)) (pa n : Nat) : State :=
  { s with filters := s.filters.map fun f => { f with dirty := f.dirty || meet f.src f.bytes pa n }
           dies := noteDies self pa n 0 s.dies }

/-- The tentative byte of a pack at a physical address (R245). -/
def Pack.tentAt (p : Pack) (pa : Nat) : Option Byte := (p.tent.find? fun c => c.1 == pa).map fun c => c.2
/-- A word of [pa, pa + n) is in the write-set. -/
def Pack.writesIn (p : Pack) (pa n : Nat) : Bool :=
  p.tent.any fun c => meet (4 * (c.1 / 4)) 4 pa n
/-- A word of [pa, pa + n) is in the read-set. -/
def Pack.readsIn (p : Pack) (pa n : Nat) : Bool := p.reads.any fun w => meet (4 * w) 4 pa n
/-- The pack's marks hold a word of the range. -/
def Pack.holds (p : Pack) (pa n : Nat) : Bool := p.writesIn pa n || p.readsIn pa n
/-- A live pack holds the range against writers outside it (R247). -/
def State.packHolds (s : State) (pa n : Nat) : Bool := s.packs.any fun p => p.state == .opened && p.holds pa n

/-! ## What the host's copies hold back (R277, R279, R293) -/

/-- A physical page is in host bias (R277). -/
def State.hostBias (s : State) (pa : Nat) : Bool := s.bias.contains (pa / 4096)
/-- The page's bias is being flipped (R279). -/
def State.flipping (s : State) (pa : Nat) : Bool := s.flips.contains (pa / 4096)
/-- The host may hold the line (R293). -/
def State.hostHolds (s : State) (pa : Nat) : Bool := s.hostLines.contains (pa / 64)
/-- A snoop of the line is outstanding. -/
def State.snooping (s : State) (pa : Nat) : Bool := s.snoops.any fun n => n.line == pa / 64
/-- Sends a back-invalidate snoop (R277, R279). -/
def State.sendSnoop (s : State) (line : Nat) : State :=
  if s.snoops.any fun n => n.line == line then s
  else { s with snoops := s.snoops ++ [{ line := line, sent := s.gtime }] }

/-- The lines of [pa, pa + n), by an address in each. -/
def linesOf (pa n : Nat) : List Nat :=
  if n = 0 then [] else (List.range ((pa + n - 1) / 64 - pa / 64 + 1)).map fun k => 64 * (pa / 64 + k)

/-- A line of the range in a host-bias page that the host may hold: it is snooped first (R277). -/
def State.hostLine (s : State) (pa n : Nat) : Option Nat := (linesOf pa n).find? fun a => s.hostBias a && s.hostHolds a

/-- A write of the device waits for a bias flip of its page, or for the host's copy of its line (R277, R279). -/
def State.hostWaits (s : State) (pa n : Nat) : Bool := s.flipping pa || (s.hostLine pa n).isSome

/-- The snoop that such a write needs; a flip sends its own (R279). -/
def State.snoopFor (s : State) (pa n : Nat) : State :=
  if s.flipping pa then s
  else match s.hostLine pa n with
    | some a => s.sendSnoop (a / 64)
    | none => s

/-- A write arrives at its home and is held there (R151, R247, R277, R279). -/
def State.holdPut (s : State) (pa : Nat) (bs : List Byte) (src : PutSource) : State :=
  ({ s with heldPuts := s.heldPuts ++ [{ pa := pa, data := bs, arrived := s.gtime, src := src }] } : State).noteWrite none
    pa bs.length

/-- A write of the device to physical memory that no page table and no protection concerns: a trace record, a pack object, a
dirty line. It may be held at its home (R151, R247, R277, R279). -/
def State.devPut (s : State) (pa : Nat) (bs : List Byte) : State :=
  if s.pageHeld pa || s.packHolds pa bs.length || s.hostWaits pa bs.length then
    (s.snoopFor pa bs.length).holdPut pa bs .device
  else ((s.recallRange pa bs.length).memPut pa bs).noteWrite none pa bs.length

/-! ## Scalar registers (R50) -/

/-- Reads s[r]; s0 reads zero. -/
def Hart.rd (x : Hart) (r : Reg) : Word := if r = 0 then 0 else getAt 0 x.s r.toNat
/-- Writes s[r]; a write to s0 is discarded. A write replaces a register with an uncorrectable error (R269). -/
def Hart.wr (x : Hart) (r : Reg) (v : Word) : Hart :=
  if r = 0 then x
  else { x with s := putAt 0 x.s r.toNat v, sbad := x.sbad &&& ~~~(1#64 <<< r.toNat) }

/-- s(r + 1), for s(B + 1) and s(C + 1) (R143). -/
def Hart.rdNext (x : Hart) (r : Reg) : Word := getAt 0 x.s (r.toNat + 1)

/-- Swaps s56 to s63 with the supervisor shadow registers (R259), and what R269 notes of them. -/
def Hart.swapBank (x : Hart) : Hart :=
  { x with s := x.s.take 56 ++ x.shadow, shadow := x.s.drop 56, swapped := !x.swapped
           sbad := x.shbad ++ x.sbad.extractLsb' 0 56, shbad := x.sbad.extractLsb' 56 8 }

/-! ## Flags (R112, R115) -/

/-- ORs flags into FFLAGS. -/
def Hart.orFlags (x : Hart) (f : BitVec 7) : Hart := { x with fflags := x.fflags ||| f }

/-! ## Masks (R50) -/

/-- m[n]; m0 reads all ones. -/
def Hart.mask (x : Hart) (n : Nat) : MaskReg := if n = 0 then BitVec.allOnes _ else getAt 0 x.m (n - 1)
/-- Writes m1 to m7. -/
def Hart.setMask (x : Hart) (n : Nat) (v : MaskReg) : Hart :=
  if n = 0 then x else { x with m := putAt 0 x.m (n - 1) v }
/-- Bit i of m[n]. -/
def Hart.maskBit (x : Hart) (n i : Nat) : Bool := n = 0 || (getAt 0 x.m (n - 1)).getLsbD i

/-! ## Vector storage (R57) -/

/-- Leased clusters. -/
def Hart.c (x : Hart) : Nat := popcount x.lease
/-- Bytes of a vector register. -/
def Hart.vbytes (x : Hart) : Nat := 65536 * x.c / x.nvreg
/-- MVL (R57). -/
def Hart.mvl (x : Hart) : Nat := 65536 * x.c / (x.nvreg * (x.vew / 8))
/-- Where byte `b` of a vector register is kept. -/
def vaddr (r : Reg) (b : Nat) : Nat := r.toNat * 2 ^ 20 + b
/-- Element `i` of width `e` bytes. -/
def Hart.velem (x : Hart) (r : Reg) (i e : Nat) : Nat := x.v.readLe (vaddr r (i * e)) e
/-- Writes an element: its register becomes dirty (R63), whole words lose their poison (R269). -/
def Hart.setElem (x : Hart) (r : Reg) (i e v : Nat) : Hart :=
  { x with v := x.v.writeLe (vaddr r (i * e)) e v
           vbad := clearWords x.vbad (vaddr r (i * e)) e
           dirty := x.dirty ||| (1#64 <<< r.toNat) }
/-- Element `i` lies in a poisoned word. -/
def Hart.elemBad (x : Hart) (r : Reg) (i e : Nat) : Bool := poisoned x.vbad (vaddr r (i * e)) e
/-- Every vector register and m1 to m7 become zero (R58, R59). -/
def Hart.zeroVectors (x : Hart) : Hart :=
  { x with v := [], vbad := [], dirty := 0, restored := 0, m := List.replicate 7 0, ctxArea := none }
/-- VL × e fits a register (R57). -/
def Hart.fits (x : Hart) (vl e : Nat) : Bool := decide (vl * e ≤ x.vbytes)
/-- A stream is bound to register r. -/
def Hart.stream (x : Hart) (r : Reg) : Option VStream := x.streams.find? fun t => t.reg == r
/-- Replaces the stream of its register. -/
def Hart.setStream (x : Hart) (t : VStream) : Hart :=
  { x with streams := x.streams.map fun u => if u.reg == t.reg then t else u }
/-- A landing tag is occupied. -/
def Hart.tagUsed (x : Hart) : Bool := x.landing.any fun t => t.isSome

/-! ## Timelines (R65) -/

/-- The number the next command takes. -/
def Timeline.take (t : Timeline) : Timeline := { t with issued := t.issued + 1 }

/-- DONE moves over completed numbers. -/
def Timeline.advance (t : Timeline) : Nat → Timeline
  | 0 => t
  | k + 1 =>
    if t.above.contains (t.done + 1) then
      Timeline.advance { t with done := t.done + 1, above := t.above.filter (· != t.done + 1) } k
    else t

/-- Number `n` completes. -/
def Timeline.complete (t : Timeline) (n : Nat) : Timeline :=
  if n ≤ t.done || t.above.contains n || decide (t.issued < n) then t
  else
    let u : Timeline := { t with above := n :: t.above }
    u.advance u.above.length

/-- Timeline `k` of a hart. -/
def Hart.tline (x : Hart) (k : Nat) : Timeline := getAt Timeline.reset x.tl k
/-- Writes timeline `k`. -/
def Hart.setTline (x : Hart) (k : Nat) (t : Timeline) : Hart := { x with tl := putAt Timeline.reset x.tl k t }
/-- Takes a number on timeline `k`. -/
def Hart.takeNum (x : Hart) (k : Nat) : Nat × Hart :=
  ((x.tline k).issued + 1, x.setTline k (x.tline k).take)
/-- Completes number `n` on timeline `k` of hart `h`. -/
def State.complete (s : State) (h k n : Nat) : State :=
  (s.modHart h fun x => x.setTline k ((x.tline k).complete n)).happen

/-- Gives back the youngest number of timeline `k` (R334). -/
def Hart.returnNum (x : Hart) (k : Nat) : Hart :=
  x.setTline k { x.tline k with issued := (x.tline k).issued - 1 }

/-! ## Error log (R276) and trace (R162) -/

/-- Appends a record, or counts it lost when the ring is full. -/
def State.logErr (s : State) (d : Nat) (r : ErrRec) : State :=
  s.modDie d fun x =>
    if x.errHead - x.errTail = 4096 then { x with errLost := x.errLost + 1 }
    else { x with errs := (x.errs ++ [r]).drop (x.errs.length - 4095), errHead := x.errHead + 1 }

/-- A discard or a skipped decrement of the scheduler: KIND 13, UNIT the record's level (R86, R90, R276, R282). -/
def State.logDiscard (s : State) (d level : Nat) (addr : Word) : State :=
  s.logErr d { time := s.gtime, kind := 13, severity := 1, core := 255, hart := 255, unit := level, addr := addr
               syndrome := 0 }

/-- Word 0 of a trace record. -/
def traceWord (kind hart info cyc : Nat) : Word :=
  BitVec.ofNat 64 (kind * 2 ^ 60 + (hart % 8) * 2 ^ 57 + (info % 512) * 2 ^ 48 + cyc % 2 ^ 48)

/-- The kind is enabled; SYNC always is (R162). A write that clears EN and waits to take effect lets no further record be
produced (R161; DESIGN CHOICE, log 17). -/
def Trace.enabled (t : Trace) (kind : Nat) : Bool := wbit t.ctl 0 && t.closing.isNone && (kind = 0 || wbit t.ctl (16 + kind))

/-- Where the next record goes: with WRAP set a ring without room starts again at its base (R161). -/
def Trace.place (t : Trace) : Nat := if wbit t.ctl 1 && decide (t.size.toNat < t.head + 16) then 0 else t.head

/-- There is room for one more record. -/
def Trace.room (t : Trace) : Bool := decide (16 ≤ t.size.toNat) && decide (t.place + 16 ≤ t.size.toNat)

/-- Places one record in the ring, or counts it lost. A core whose supervisor has set no size writes none. -/
def State.tracePut (s : State) (c : Nat) (w0 w1 : Word) : State :=
  let t := (s.core c).trace
  let size := t.size.toNat
  if size < 16 then s
  else if t.room then
    let head := t.place + 16
    (s.devPut (t.base.toNat + t.place) (leBytes 8 w0.toNat ++ leBytes 8 w1.toNat)).modCore c fun x =>
      { x with trace := { t with head := if wbit t.ctl 1 && decide (size ≤ head) then 0 else head } }
  else s.modCore c fun x => { x with trace := { t with lost := t.lost + 1 } }

/-- A record of the trace unit that waits at its home (R151, R247, R279). -/
def State.ringPut (s : State) (c : Nat) : Option HeldPut :=
  let t := (s.core c).trace
  s.heldPuts.find? fun p => p.src == .device && decide (t.base.toNat ≤ p.pa) && decide (p.pa < t.base.toNat + t.size.toNat)

/-- TRHEAD as it reads: every record below it is performed (R164). -/
def State.traceHead (s : State) (c : Nat) : Nat := match s.ringPut c with
  | some p => p.pa - (s.core c).trace.base.toNat
  | none => (s.core c).trace.head

/-- A waiting write that clears EN takes effect once every record already produced has been performed (R161). -/
def State.closeTrace (s : State) (c : Nat) : State :=
  let t := (s.core c).trace
  match t.closing with
  | some w => if t.sync.isSome || t.sample || (s.ringPut c).isSome then s
    else s.modCore c fun x => { x with trace := { x.trace with ctl := w, closing := none } }
  | none => s

/-- Writes a record of a kind, after a LOST record where that kind is enabled, records were lost and there is room for both
(R162). DESIGN CHOICE (log 68): the hart field of a LOST record is that of the record behind it. -/
def State.writeRecord (s : State) (c kind hart info cyc : Nat) (w1 : Word) : State :=
  let t := (s.core c).trace
  if t.enabled 6 && decide (0 < t.lost) && (wbit t.ctl 1 || decide (t.head + 32 ≤ t.size.toNat)) then
    let s := (s.tracePut c (traceWord 6 hart 0 cyc) (BitVec.ofNat 64 t.lost)).modCore c fun x =>
      { x with trace := { x.trace with lost := 0 } }
    s.tracePut c (traceWord kind hart info cyc) w1
  else s.tracePut c (traceWord kind hart info cyc) w1

/-- Writes a record where its kind is enabled. -/
def State.record (s : State) (c kind hart info : Nat) (w1 : Word) : State :=
  if (s.core c).trace.enabled kind then s.writeRecord c kind hart info (s.core c).cycle w1 else s

/-! ## Pack objects (R236) -/

/-- STATE of the object. -/
def PackState.num : PackState → Nat
  | .opened => 1 | .committing => 2 | .aborting => 3

/-- The 64 bytes of the object. -/
def Pack.bytes (p : Pack) : List Byte :=
  leBytes 2 p.expected ++ leBytes 2 p.entered ++ leBytes 2 p.committed ++ leBytes 1 p.state.num ++ leBytes 1 p.die ++
  leBytes 4 p.code.toNat ++ leBytes 4 p.epoch.toNat ++ leBytes 4 p.lifetime ++ leBytes 1 p.part ++ leBytes 3 0 ++
  leBytes 8 p.start ++ leBytes 32 0

/-- The live pack whose object stands at a physical address, which names the pack in the package (log 45). -/
def State.pack? (s : State) (obj : Nat) : Option Pack := s.packs.find? fun p => p.pa == obj

/-- Replaces a live pack and writes its object. -/
def State.setPack (s : State) (p : Pack) : State :=
  { s.devPut p.pa p.bytes with packs := s.packs.map fun q => if q.pa == p.pa then p else q }

/-- The pack is no longer live: STATE FREE is written (R254). -/
def State.dropPack (s : State) (p : Pack) : State :=
  { s.devPut (p.pa + 6) [0] with packs := s.packs.filter fun q => q.pa != p.pa }

/-- The end of a commit or abort: EPOCH + 1, then OPEN, or FREE for code 8 or a waiting PKFREE (R248, R251, R254). -/
def State.packEnd (s : State) (p : Pack) : State :=
  let q := { p with epoch := p.epoch + 1, entered := 0, committed := 0, start := 0, state := .opened, members := [], tent := []
                    reads := [] }
  let s := s.setPack q
  if !p.freeWait.isEmpty || (p.state == .aborting && p.code.toNat % 256 == 8) then s.dropPack q else s

/-- Member `h` has acknowledged an abort, returned from its commit, or ended (R248, R251). -/
def State.packLeave (s : State) (obj h : Nat) : State :=
  match s.pack? obj with
  | none => s
  | some p =>
    let p := { p with members := p.members.filter (· != h) }
    if p.members.isEmpty && p.state != .opened then s.packEnd p
    else { s with packs := s.packs.map fun q => if q.pa == p.pa then p else q }

/-! ## The vector queue at a trap (R334, R383) -/

/-- What scalar issue took for a queued row op or collective goes back. -/
def Hart.undoIssue (x : Hart) (e : VEntry) : Hart :=
  match e.instr with
  | .mrow .. => x.returnNum 1
  | .mrowv _ _ _ _ _ tag => { x.returnNum 1 with landing := putAt none x.landing tag.toNat none }
  | .xred _ _ _ tag => { x.returnNum 3 with landing := putAt none x.landing tag.toNat none }
  | _ => x

/-- The scalar state goes back to what it was when the oldest queued instruction issued: younger scalar instructions have no
effect (R383). -/
def Hart.rollBack (x : Hart) : Hart := match x.vq with
  | e :: _ => { x with s := e.save.s, sbad := e.save.sbad, fflags := e.save.fflags }
  | [] => x

/-- Flags of a vector instruction or of an engine: no trap of a queued instruction takes them back (R383). -/
def Hart.raiseFlags (x : Hart) (f : BitVec 7) : Hart :=
  { x with fflags := x.fflags ||| f, vq := x.vq.map fun e => { e with save := { e.save with fflags := e.save.fflags ||| f } } }

/-- Prefetched strips are dropped: they are read again (R70). -/
def Hart.dropStrips (x : Hart) : Hart := { x with streams := x.streams.map fun t => { t with strips := [] } }

/-- The queued instructions and the younger ones lose every effect; staged loads are dropped. -/
def Hart.flushQueue (x : Hart) : Hart :=
  let x := x.vq.foldl Hart.undoIssue x.rollBack
  { x with vq := [], run := none, early := [], linked := none, passed := false, elems := x.elems.filter fun e => e.kind != .load }

/-! ## Marks at a trap (R232) -/

/-- An open recording ends in CORE with a reason. -/
def Hart.endRecording (x : Hart) (reason : Nat) : Hart :=
  if x.mark.state = .recording then
    { x with mark := { x.mark with state := .core, reason := reason, k := x.mark.iters.length, opened := false } }
  else x

/-! ## Traps (R256, R257, R259) -/

/-- Causes that set SSTATUS.END (R257). -/
def causeEnds (cause : Nat) : Bool := [1, 2, 3, 6, 7, 11, 13].contains cause

/-- SSTATUS.SIE. -/
def Hart.sie (x : Hart) : Bool := wbit x.sstatus 1

/-- SSTATUS after a trap: END, SPP and SPIE (R256, R257, R259). -/
def Hart.trapSstatus (x : Hart) (cause : Nat) : Word :=
  BitVec.ofNat 64 (b2n (causeEnds cause) * 512 + b2n (x.priv == .sup) * 256 + b2n x.sie * 32)

/-- The trap CSRs, the bank, the privilege and the PC of R259. SEPC[2:0] read zero (R256). -/
def Hart.enterTrap (x : Hart) (int : Bool) (cause : Nat) (sepc stval : Word) : Hart :=
  let y := if x.priv = .user then x.swapBank else x
  { y with sepc := sepc &&& ~~~7#64, scause := BitVec.ofNat 64 (b2n int * 2 ^ 63 + cause), stval := stval
           sstatus := x.trapSstatus cause
           trapStatus := if x.priv = .user then x.trapSstatus cause else x.trapStatus
           priv := .sup, pc := x.stvec }

/-- An element access to G-space. -/
def Elem.inG (e : Elem) : Bool := match e.place with
  | .g _ _ => true
  | _ => false

/-- Restores the checkpoint of a member (R251 step 3, R252): its stores to G-space that are still on their way are
discarded with the rest of its region; those of its supervisor are not (R253). -/
def Hart.restoreCkpt (x : Hart) (m : Member) : Hart :=
  let y := x.flushQueue
  { y with s := m.ckpt, sbad := x.sbad &&& 1#64, pc := m.handler, pack := none, wait := none, vstart := 0, tents := []
           elems := y.elems.filter fun e => !(e.inG && e.pack.isSome) }

/-- A hart leaves its core's arbiter queue (R270). -/
def State.dropLease (s : State) (h : Nat) : State :=
  s.modCore (coreOf h) fun c => { c with leaseq := c.leaseq.filter fun r => r.hart != h }

/-- A hart gives up what it waits for: its lease request, and its PKFREE (R244, R270, R336). -/
def State.leaveWaits (s : State) (h : Nat) : State :=
  { s.dropLease h with packs := s.packs.map fun p => { p with freeWait := p.freeWait.filter (· != h) } }

/-- What a fault record names of a trap of the task (R263): a trap within the supervisor's handler leaves it. -/
def Hart.noteTrap (x : Hart) (iw : Word) (now : Nat) : Hart :=
  if x.priv = .user then { x with trapWord := iw, trapTime := now, trapDest := (0, 0) } else x

/-- Takes a trap (R259): `iw` is the first word the fault record names (R263). A trap from inside a pack region whose
abort has reached the hart is reported with cause 12 (R253). -/
def State.takeTrap (s : State) (h : Nat) (int : Bool) (cause : Nat) (sepc stval iw : Word) : State :=
  let x := (((s.hart h).flushQueue.dropStrips).endRecording 5).noteTrap iw s.gtime
  let x := { x with wait := none, loading := [], item := .short, progress := s.gtime, brkAfter := none }
  let s := { s.leaveWaits h with filters := s.filters.filter fun f => f.hart != h }
  match x.pack with
  | some m =>
    if m.restore && !m.trapped then
      let x := (x.restoreCkpt m).enterTrap false 12 m.handler m.handle
      ((s.setHart h x).packLeave m.obj h).record (coreOf h) 5 (localHart h) 12
        (m.handler &&& ~~~7#64)
    else
      let x := { x with pack := some { m with trapped := true, nested := if m.trapped then m.nested + 1 else 0 } }
      (s.setHart h (x.enterTrap int cause sepc stval)).record (coreOf h) 5 (localHart h) cause (sepc &&& ~~~7#64)
  | none => (s.setHart h (x.enterTrap int cause sepc stval)).record (coreOf h) 5 (localHart h) cause (sepc &&& ~~~7#64)

/-- The return of R262 once its checks are made: swap the bank back to user, SIE := SPIE, privilege := SPP,
PC := SEPC. Strips read ahead are read again (R70). -/
def Hart.returnTrap (x : Hart) : Hart :=
  let spp := if wbit x.sstatus 8 then Priv.sup else .user
  let y := (if spp = .user && x.swapped then x.swapBank else x).dropStrips
  { y with sstatus := setField x.sstatus 1 1 (field x.sstatus 5 1), priv := spp, pc := x.sepc }

/-! ## How a meaning ends -/

/-- What an instruction's effect comes to: completed, a jump, a trap (with the effects that stay), or a wait. -/
inductive Res
  | ok (s : State)
  | jump (s : State) (pc : Word)
  | trap (s : State) (cause : Nat) (stval : Word)
  | stall (s : State)
  deriving DecidableEq, Repr

/-- The outcome type of every meaning. -/
abbrev Out := Host.Outcome State Fault Refusal

/-- An instruction of hart `h` has completed: the PC moves on, no wait is left. -/
def State.retire (s : State) (h : Nat) (pc : Word) : State :=
  (s.modHart h fun x => { x with pc := pc, wait := none }).happen

/-- A hart that waits executes its instruction again once something has happened (R178). The argument of a new wait is the time
of the instruction's issue. -/
def State.markWait (s : State) (h : Nat) : State :=
  s.modHart h fun x => match x.wait with
    | some w => { x with wait := some { w with epoch := s.epoch } }
    | none => { x with wait := some { kind := .retry, epoch := s.epoch, deadline := none, expired := false
                                      stage := 0, arg := s.gtime } }

/-- The scalar register that receives an instruction's result. -/
def scalarDest : Instr → Option Reg
  | .add d _ _ | .addi d _ _ | .and d _ _ | .andi d _ _ | .clz d _ | .ctz d _ | .div _ d _ _ | .lea d _ _ _ | .li d _
  | .liExt d _ | .max _ d _ _ | .min _ d _ _ | .mul d _ _ | .mulh _ d _ _ | .or d _ _ | .ori d _ _ | .popc d _
  | .rem _ d _ _ | .sel d _ _ _ | .shl d _ _ | .shli _ d _ _ | .shr d _ _ | .slt _ d _ _ | .slti _ d _ _ | .sra d _ _
  | .sub d _ _ | .xor d _ _ | .xori d _ _ | .mov d _ => some d
  | .fadd _ _ d _ _ | .fsub _ _ d _ _ | .fmul _ _ d _ _ | .ffma _ _ d _ _ _ | .fdiv _ _ d _ _ | .fmin _ d _ _
  | .fmax _ d _ _ | .fcmp _ _ d _ _ | .fcvt _ _ _ _ d _ => some d
  | .ld _ _ d _ _ | .amo _ _ false _ d _ _ | .cas _ _ d _ _ _ => some d
  | .bindr d _ _ _ | .bindrUn d _ | .tlwait d _ _ _ | .tlread _ d _ | .waita _ _ d _ _ _ => some d
  | .jal d _ | .jalExt d _ | .jr d _ _ | .loopmarkAhead d _ _ _ _ | .rpstat d => some d
  | .spawn d _ | .join d _ _ | .joinLvl d _ | .tcancel _ d _ | .gang d _ _ | .tself _ d | .setvl d _ _ => some d
  | .mpopc d _ _ | .mfirst d _ _ => some d
  | .vext v => some v.d
  | .pkalloc d _ _ _ | .pkenter d _ _ | .pkcommit d | .pkstat _ d _ | .pkfree d _ | .csrr d _ => some d
  | .tlbinvVa d _ _ _ | .tlbinvAsid d _ | .tlbinvAll d | .tlbinvWait d _ | .asidsw d _ | .ctxsave d _ | .ctxload d _
  | .biassetHost d _ _ | .biassetDev d _ _ | .pmigP4k d _ _ | .pmigP2m d _ _ | .pmigRel d _ _ => some d
  | .cpy _ _ _ d _ _ _ | .cpy2d _ _ _ d _ _ _ => some d
  | _ => none

/-- DESTKIND and DESTREG of an instruction (R263). -/
def destOf : Instr → Nat × Nat
  | .vcmp _ v => (3, v.d.toNat)
  | .mlogic _ d _ _ _ => (3, d.toNat)
  | .vadd v | .vsub v | .vmul v | .vmulh v | .vmulhr v | .vdiv v | .vrem v | .vmin v | .vmax v | .vand v | .vor v
  | .vxor v | .vshl v | .vshr v | .vsra v | .vrshr v | .vabs v | .vneg v | .vsqrt v | .vrsqrt v | .vexp2 v | .vfma v
  | .vsel v | .vclamp v | .vcvt _ v | .vbscale v | .vpackni v | .vunpkni _ v | .vmov _ v | .vid v | .vins v
  | .vslide _ v | .vperm v | .vcompress v | .vred _ v => (2, v.d.toNat)
  | .vadds d _ _ => (2, d.toNat)
  | .vld v => (2, v.d.toNat)
  | .mrow .. => (4, 0)
  | .mrowv _ _ _ _ _ tag | .xred _ _ _ tag | .vcommit tag => (5, tag.toNat)
  | i => match scalarDest i with
    | some d => (1, d.toNat)
    | none => (0, 0)

/-- The destination of what a hart issues. -/
def destOfItem : Item → Nat × Nat
  | .instr i _ => destOf i
  | .pair a b => if destOf a = (0, 0) then destOf b else destOf a
  | _ => (0, 0)

/-- Notes the destination of a cause 6 or 7 fault that has trapped the task (R263). -/
def State.noteDest (s : State) (h cause : Nat) (d : Nat × Nat) : State :=
  if cause = 6 || cause = 7 then s.modHart h fun x => if wbit x.sstatus 8 then x else { x with trapDest := d } else s

/-- Nothing of the hart is in the vector queue. -/
def Hart.queueIdle (x : Hart) : Bool := x.vq.isEmpty && x.run.isNone

/-- Ends an instruction of `len` bytes of hart `h`. A trap waits until every older vector instruction has completed
(R383). -/
def finishAt (h len : Nat) (r : Res) : Out := match r with
  | .ok t => .next (t.retire h ((t.hart h).pc + BitVec.ofNat 64 len))
  | .jump t pc => .next (t.retire h pc)
  | .trap t cause stval =>
    if (t.hart h).queueIdle then
      .next ((t.takeTrap h false cause (t.hart h).pc stval (t.hart h).iword).noteDest h cause (destOfItem (t.hart h).item))
    else .next (t.markWait h)
  | .stall t => .next (t.markWait h)

/-- Ends a one-word instruction of the issuing hart. -/
def finish (s : State) (r : Res) : Out := finishAt s.cur 8 r

/-- The issuing hart. -/
def State.me (s : State) : Hart := s.hart s.cur

/-- Cause 1 with STVAL = the first word (R257). -/
def State.illegal (s : State) : Res := .trap s 1 s.me.iword
/-- Cause 2 with STVAL = the first word (R257). -/
def State.privileged (s : State) : Res := .trap s 2 s.me.iword

/-- The stage a waiting instruction has reached; 0 at first. -/
def Hart.stage (x : Hart) : Nat := match x.wait with
  | some w => w.stage
  | none => 0

/-- The argument a waiting instruction keeps. -/
def Hart.waitArg (x : Hart) : Nat := match x.wait with
  | some w => w.arg
  | none => 0

/-- Waits at a stage. -/
def State.stallAt (s : State) (stage arg : Nat) : Res :=
  .stall (s.modHart s.cur fun x => { x with wait := some { kind := .retry, epoch := s.epoch, deadline := none
                                                           expired := false, stage := stage, arg := arg } })

/-- An instruction that works on the issuing hart alone. -/
def State.onHart (s : State) (f : Hart → Hart) : Out := finish s (.ok (s.modHart s.cur f))

/-- An event whose condition holds moves to `t`. -/
def event (t : State) : Out := .next t.happen
/-- An event whose condition fails (R167). -/
def notEnabled (mnemonic : String) : Out := .refused (.notEnabled mnemonic)

/-- Privileged instructions: supervisor privilege, or cause 2 (R45). -/
def State.privOnly (s : State) (r : Res) : Res := if s.me.priv = .sup then r else s.privileged

end Sys2Proof.Machine
end

