-- ==== Sys2Proof/Machine/Flags.lean ====
section
/-! DEFINITION. Flags (R112), integer arithmetic with its flags (R106), rounding and floating-point arithmetic (R107 to
R114, R118 to R120). -/

namespace Sys2Proof.Machine

/-! ## Flag bits (R112) -/

/-- FFLAGS and ATFLAGS. -/
abbrev FlagBits := BitVec 7
/-- Inexact. -/
def flNX : FlagBits := 1
/-- Underflow. -/
def flUF : FlagBits := 2
/-- Overflow. -/
def flOF : FlagBits := 4
/-- Divide by zero. -/
def flDZ : FlagBits := 8
/-- Invalid. -/
def flNV : FlagBits := 16
/-- Integer saturation. -/
def flIV : FlagBits := 32
/-- Integer divide by zero. -/
def flIZ : FlagBits := 64

/-- A flag where a condition holds. -/
def flagIf (c : Bool) (f : FlagBits) : FlagBits := if c then f else 0

/-- The flags that set a bit of an exception mask: all but NX (R116). -/
def flagsExcept (f : FlagBits) : Bool := f &&& ~~~flNX != 0

/-! ## Integers (R106) -/

/-- Width in bits. -/
def tyBits (t : Ty) : Nat := 8 * t.bytes

/-- The value of the raw bits of an integer type. -/
def tyInt (t : Ty) (x : Nat) : Int :=
  if t.isSigned && decide (2 ^ (tyBits t - 1) ≤ x) then (x : Int) - (2 ^ tyBits t : Nat) else x

/-- Smallest value of the type. -/
def tyMin (t : Ty) : Int := if t.isSigned then -((2 ^ (tyBits t - 1) : Nat) : Int) else 0
/-- Largest value of the type. -/
def tyMax (t : Ty) : Int := if t.isSigned then ((2 ^ (tyBits t - 1) : Nat) : Int) - 1 else ((2 ^ tyBits t : Nat) : Int) - 1

/-- Raw bits of a value mod 2^w. -/
def tyWrap (t : Ty) (x : Int) : Nat := (x % ((2 ^ tyBits t : Nat) : Int)).toNat

/-- Clamps to the range of the type. -/
def tyClamp (t : Ty) (x : Int) : Int := if x < tyMin t then tyMin t else if tyMax t < x then tyMax t else x

/-- A result of an operation: raw bits and flags. -/
structure Val where
  bits : Nat
  fl : FlagBits
  deriving DecidableEq, Repr

/-- A value without flags. -/
def Val.pure (b : Nat) : Val := { bits := b, fl := 0 }

/-- Wraps with S = 0, clamps with S = 1 and IV where clamped (R106). -/
def intResult (t : Ty) (sat : Bool) (x : Int) : Val :=
  if sat then { bits := tyWrap t (tyClamp t x), fl := flagIf (decide (tyClamp t x ≠ x)) flIV }
  else Val.pure (tyWrap t x)

/-- Division and remainder truncate toward zero; divisor 0 gives 0 and the dividend with IZ (R106). -/
def intDiv (t : Ty) (sat : Bool) (a b : Nat) : Val :=
  if b = 0 then { bits := 0, fl := flIZ } else intResult t sat (Int.tdiv (tyInt t a) (tyInt t b))

/-- The remainder, with the sign of the dividend (R106). -/
def intRem (t : Ty) (a b : Nat) : Val :=
  if b = 0 then { bits := a, fl := flIZ } else Val.pure (tyWrap t (Int.tmod (tyInt t a) (tyInt t b)))

/-- rshr: n = 0 gives a, else (a + 2^(n−1)) >> n (R106). -/
def intRshr (t : Ty) (a n : Nat) : Nat :=
  if n = 0 then a else tyWrap t ((tyInt t a + (2 ^ (n - 1) : Nat)) / (2 ^ n : Nat))

/-! ## Rounding (R110, R120) -/

/-- A rounding mode in force; SR carries its hash, sr(i). -/
inductive RMode | rne | rtz | rup | rdn | rmm | sr (hash : Nat)
  deriving DecidableEq, Repr

/-- m / 2^s as an integer under a mode; `neg`: the value is negative. SR gives floor(m / 2^s + d) with
d = sr[31:8] × 2^−24. -/
def roundShift (md : RMode) (neg : Bool) (m s : Nat) : Nat :=
  let q := m / 2 ^ s
  let r := m % 2 ^ s
  match md with
  | .rtz => q
  | .rne => if 2 ^ s < 2 * r || (2 ^ s == 2 * r && q % 2 == 1) then q + 1 else q
  | .rmm => if r ≠ 0 && 2 ^ s ≤ 2 * r then q + 1 else q
  | .rup => if r ≠ 0 && !neg then q + 1 else q
  | .rdn => if r ≠ 0 && neg then q + 1 else q
  | .sr h => (m * 2 ^ 24 + (h / 256 % 2 ^ 24) * 2 ^ s) / 2 ^ (s + 24)

/-- The hash of stochastic rounding for element i (R118). -/
def srHash (sb : W32) (seed : Word) (i : Nat) : Nat :=
  let x : W32 := BitVec.ofNat 32 i + sb
  let x := x ^^^ seed.extractLsb' 0 32
  let x := x * 0x9E3779B1
  let x := x ^^^ (x >>> 15)
  let x := x ^^^ seed.extractLsb' 32 32
  let x := x * 0x85EBCA77
  let x := x ^^^ (x >>> 13)
  let x := x * 0xC2B2AE3D
  let x := x ^^^ (x >>> 16)
  x.toNat

/-! ## Floating point -/

/-- Precision in bits of a format (R107). -/
def fprec : FTy → Nat
  | .bf16 => 8 | .f32 => 24

/-- The canonical quiet NaN (R107). -/
def canonNaN (f : FTy) : Nat := 255 * 2 ^ (fprec f - 1) + 2 ^ (fprec f - 2)
/-- The sign bit. -/
def signBit (f : FTy) (neg : Bool) : Nat := if neg then 2 ^ (fprec f + 7) else 0
/-- ±∞. -/
def infBits (f : FTy) (neg : Bool) : Nat := signBit f neg + 255 * 2 ^ (fprec f - 1)
/-- ±largest finite. -/
def maxBits (f : FTy) (neg : Bool) : Nat := infBits f neg - 1
/-- ±0. -/
def zeroBits (f : FTy) (neg : Bool) : Nat := signBit f neg

/-- A decoded value: a NaN, an infinity, or ±m × 2^e. -/
inductive FV
  | nan (sig : Bool)
  | inf (neg : Bool)
  | fin (neg : Bool) (m : Nat) (e : Int)
  deriving DecidableEq, Repr

/-- Decodes the bits of a format (R107). -/
def fdec (f : FTy) (x : Nat) : FV :=
  let fr := x % 2 ^ (fprec f - 1)
  let ex := x / 2 ^ (fprec f - 1) % 256
  let neg := x / 2 ^ (fprec f + 7) % 2 == 1
  if ex = 255 then (if fr = 0 then .inf neg else .nan (decide (fr < 2 ^ (fprec f - 2))))
  else if ex = 0 then .fin neg fr (-125 - ((fprec f : Nat) : Int))
  else .fin neg (2 ^ (fprec f - 1) + fr) ((ex : Int) - 126 - ((fprec f : Nat) : Int))

/-- A signalling NaN. -/
def FV.isSig : FV → Bool
  | .nan s => s
  | _ => false
/-- A NaN. -/
def FV.isNan : FV → Bool
  | .nan _ => true
  | _ => false

/-- Overflow delivers ±∞ or ±largest finite by mode; with S always the latter (R113). -/
def overflowBits (f : FTy) (md : RMode) (sat neg : Bool) : Nat :=
  if sat then maxBits f neg
  else match md with
    | .rtz => maxBits f neg
    | .rup => if neg then maxBits f neg else infBits f neg
    | .rdn => if neg then infBits f neg else maxBits f neg
    | _ => infBits f neg

/-- Aligns m × 2^e to the quantum 2^q: the rounded multiple, and whether it is inexact. -/
def quantize (md : RMode) (neg : Bool) (m : Nat) (e q : Int) : Nat × Bool :=
  if q ≤ e then (m * 2 ^ (e - q).toNat, false)
  else
    let s := (q - e).toNat
    (roundShift md neg m s, decide (m % 2 ^ s ≠ 0))

/-- The exact value ±m × 2^e rounded once to a format, with NX, UF and OF (R111, R113). -/
def fround (f : FTy) (md : RMode) (sat neg : Bool) (m : Nat) (e : Int) : Val :=
  if m = 0 then Val.pure (zeroBits f neg)
  else
    let p : Int := fprec f
    let top : Int := e + Nat.log2 m
    let q : Int := max (top - (p - 1)) (-125 - p)
    let r := quantize md neg m e q
    let k := r.1
    let biased : Nat := if k < 2 ^ (fprec f - 1) then k
      else ((q + p + 126).toNat) * 2 ^ (fprec f - 1) + (k - 2 ^ (fprec f - 1))
    if 255 * 2 ^ (fprec f - 1) ≤ biased then { bits := overflowBits f md sat neg, fl := flOF ||| flNX }
    else
      let tiny : Bool := match md with
        | .sr _ => decide (biased < 2 ^ (fprec f - 1))
        | _ =>
          let u := quantize md neg m e (top - (p - 1))
          decide (top < -126) && !(decide (top = -127) && decide (2 ^ fprec f ≤ u.1))
      { bits := signBit f neg + biased, fl := flagIf r.2 flNX ||| flagIf (r.2 && tiny) flUF }

/-- A NaN result (R108). -/
def nanVal (f : FTy) (nv : Bool) : Val := { bits := canonNaN f, fl := flagIf nv flNV }

/-- Exact ±m1 × 2^e1 ± m2 × 2^e2 as sign, magnitude and exponent; an exact zero of opposite signs is +0, and −0 under
RDN (the sign rule of IEEE 754, log 8). -/
def addExact (md : RMode) (n1 : Bool) (m1 : Nat) (e1 : Int) (n2 : Bool) (m2 : Nat) (e2 : Int) : Bool × Nat × Int :=
  let e := min e1 e2
  let a := m1 * 2 ^ (e1 - e).toNat
  let b := m2 * 2 ^ (e2 - e).toNat
  if n1 == n2 then (n1, a + b, e)
  else if a = b then (md == .rdn, 0, e)
  else if a < b then (n2, b - a, e)
  else (n1, a - b, e)

/-- a + b. -/
def fadd (f : FTy) (md : RMode) (x y : Nat) : Val :=
  match fdec f x, fdec f y with
  | .nan s, b => nanVal f (s || b.isSig)
  | a, .nan s => nanVal f (s || a.isSig)
  | .inf n, .inf k => if n == k then Val.pure (infBits f n) else nanVal f true
  | .inf n, _ => Val.pure (infBits f n)
  | _, .inf n => Val.pure (infBits f n)
  | .fin n1 m1 e1, .fin n2 m2 e2 =>
    let r := addExact md n1 m1 e1 n2 m2 e2
    fround f md false r.1 r.2.1 r.2.2

/-- Flips the sign bit. -/
def fflip (f : FTy) (x : Nat) : Nat := if x / 2 ^ (fprec f + 7) % 2 = 1 then x - signBit f true else x + signBit f true

/-- a − b. -/
def fsub (f : FTy) (md : RMode) (x y : Nat) : Val :=
  match fdec f y with
  | .nan _ => fadd f md x y
  | _ => fadd f md x (fflip f y)

/-- a × b. -/
def fmul (f : FTy) (md : RMode) (x y : Nat) : Val :=
  match fdec f x, fdec f y with
  | .nan s, b => nanVal f (s || b.isSig)
  | a, .nan s => nanVal f (s || a.isSig)
  | .inf n, .inf k => Val.pure (infBits f (n != k))
  | .inf n, .fin k m _ => if m = 0 then nanVal f true else Val.pure (infBits f (n != k))
  | .fin k m _, .inf n => if m = 0 then nanVal f true else Val.pure (infBits f (n != k))
  | .fin n1 m1 e1, .fin n2 m2 e2 => fround f md false (n1 != n2) (m1 * m2) (e1 + e2)

/-- a × b + c with one rounding; 0 × ∞ sets NV whatever the addend (R108). -/
def ffma (f : FTy) (md : RMode) (x y z : Nat) : Val :=
  let a := fdec f x
  let b := fdec f y
  let c := fdec f z
  let zeroInf : Bool := match a, b with
    | .inf _, .fin _ m _ => m == 0
    | .fin _ m _, .inf _ => m == 0
    | _, _ => false
  if zeroInf then nanVal f true
  else if a.isNan || b.isNan || c.isNan then nanVal f (a.isSig || b.isSig || c.isSig)
  else
    let prod : FV := match a, b with
      | .inf n, .inf k => .inf (n != k)
      | .inf n, .fin k _ _ => .inf (n != k)
      | .fin n _ _, .inf k => .inf (n != k)
      | .fin n1 m1 e1, .fin n2 m2 e2 => .fin (n1 != n2) (m1 * m2) (e1 + e2)
      | _, _ => .nan false
    match prod, c with
    | .inf n, .inf k => if n == k then Val.pure (infBits f n) else nanVal f true
    | .inf n, _ => Val.pure (infBits f n)
    | _, .inf n => Val.pure (infBits f n)
    | .fin n1 m1 e1, .fin n2 m2 e2 =>
      let r := addExact md n1 m1 e1 n2 m2 e2
      fround f md false r.1 r.2.1 r.2.2
    | _, _ => nanVal f false

/-- a / b; DZ for a finite nonzero value over ±0 (R111). -/
def fdiv (f : FTy) (md : RMode) (x y : Nat) : Val :=
  match fdec f x, fdec f y with
  | .nan s, b => nanVal f (s || b.isSig)
  | a, .nan s => nanVal f (s || a.isSig)
  | .inf _, .inf _ => nanVal f true
  | .inf n, .fin k _ _ => Val.pure (infBits f (n != k))
  | .fin n _ _, .inf k => Val.pure (zeroBits f (n != k))
  | .fin n1 m1 e1, .fin n2 m2 e2 =>
    if m2 = 0 then
      if m1 = 0 then nanVal f true else { bits := infBits f (n1 != n2), fl := flDZ }
    else
      let q := m1 * 2 ^ 64 / m2
      let sticky := b2n (decide (m1 * 2 ^ 64 % m2 ≠ 0))
      fround f md false (n1 != n2) (2 * q + sticky) (e1 - e2 - 65)

/-- FMIN and VMIN: the other operand of a single NaN; −0 below +0 (R109). -/
def fless (f : FTy) (x y : Nat) : Bool :=
  let nx := x / 2 ^ (fprec f + 7) % 2 == 1
  let ny := y / 2 ^ (fprec f + 7) % 2 == 1
  let mx := x % 2 ^ (fprec f + 7)
  let my := y % 2 ^ (fprec f + 7)
  match nx, ny with
  | true, false => true
  | false, true => false
  | false, false => decide (mx < my)
  | true, true => decide (my < mx)

/-- The smaller (`mn`) or larger operand (R109). -/
def fminmax (f : FTy) (mn : Bool) (x y : Nat) : Val :=
  let a := fdec f x
  let b := fdec f y
  let nv := flagIf (a.isSig || b.isSig) flNV
  if a.isNan && b.isNan then { bits := canonNaN f, fl := nv }
  else if a.isNan then { bits := y, fl := nv }
  else if b.isNan then { bits := x, fl := nv }
  else { bits := if (if mn then fless f x y else fless f y x) then x else y, fl := nv }

/-- The order of two values with −0 = +0; none with a NaN (R109). -/
def fcompare (f : FTy) (x y : Nat) : Option Ordering :=
  match fdec f x, fdec f y with
  | .nan _, _ => none
  | _, .nan _ => none
  | .fin _ 0 _, .fin _ 0 _ => some .eq
  | _, _ => some (if x = y then .eq else if fless f x y then .lt else .gt)

/-- NV of a comparison: only a signalling NaN (R109). -/
def fcmpFlags (f : FTy) (x y : Nat) : FlagBits := flagIf ((fdec f x).isSig || (fdec f y).isSig) flNV

/-! ### Roots and exponential (R357) -/

/-- The integer square root, bit by bit from bit `k - 1`. -/
def isqrtFrom (n : Nat) : Nat → Nat → Nat
  | 0, r => r
  | k + 1, r => if (r + 2 ^ k) * (r + 2 ^ k) ≤ n then isqrtFrom n k (r + 2 ^ k) else isqrtFrom n k r

/-- The integer square root of a number below 2^(2 bits). -/
def isqrt (bits n : Nat) : Nat := isqrtFrom n bits 0

/-- √a. -/
def fsqrt (f : FTy) (md : RMode) (x : Nat) : Val :=
  match fdec f x with
  | .nan s => nanVal f s
  | .inf n => if n then nanVal f true else Val.pure (infBits f false)
  | .fin n m e =>
    if m = 0 then Val.pure (zeroBits f n)
    else if n then nanVal f true
    else
      let me : Nat × Int := if e % 2 = 0 then (m, e) else (2 * m, e - 1)
      let v := me.1 * 2 ^ 100
      let r := isqrt 64 v
      fround f md false false (2 * r + b2n (decide (r * r ≠ v))) (me.2 / 2 - 51)

/-- 1/√a. -/
def frsqrt (f : FTy) (md : RMode) (x : Nat) : Val :=
  match fdec f x with
  | .nan s => nanVal f s
  | .inf n => if n then nanVal f true else Val.pure (zeroBits f false)
  | .fin n m e =>
    if m = 0 then { bits := infBits f n, fl := flDZ }
    else if n then nanVal f true
    else
      let me : Nat × Int := if e % 2 = 0 then (m, e) else (2 * m, e - 1)
      let v := 2 ^ 200 / me.1
      let r := isqrt 101 v
      let exact := decide (r * r * me.1 = 2 ^ 200)
      fround f md false false (2 * r + b2n (!exact)) (-(me.2 / 2) - 101)

/-- 2^(2^−k) × 2^200 for k = 1, 2, …, and the product of those that the fraction bits name: `n` fraction bits of
`fr` remain. -/
def exp2Prod (fr : Nat) : Nat → Nat → Nat → Nat
  | 0, _, acc => acc
  | n + 1, c, acc =>
    let acc := if fr / 2 ^ n % 2 = 1 then acc * c / 2 ^ 200 else acc
    exp2Prod fr n (isqrt 202 (c * 2 ^ 200)) acc

/-- 2^a, from 200-bit constants (log 8). -/
def fexp2 (f : FTy) (md : RMode) (x : Nat) : Val :=
  match fdec f x with
  | .nan s => nanVal f s
  | .inf n => Val.pure (if n then zeroBits f false else infBits f false)
  | .fin n m e =>
    if m = 0 then fround f md false false 1 0
    else if 9 ≤ e + Nat.log2 m then
      if n then fround f md false false 1 (-200) else fround f md false false 1 200
    else if e + Nat.log2 m < -40 then
      fround f md false false (if n then 2 ^ 80 - 1 else 2 ^ 80 + 1) (-80)
    else
      let t : Nat := (-e).toNat
      let v : Int := (if n then -1 else 1) * (m : Int) * ((2 ^ e.toNat : Nat) : Int)
      let ip : Int := v / ((2 ^ t : Nat) : Int)
      let fr : Nat := (v % ((2 ^ t : Nat) : Int)).toNat
      if fr = 0 then fround f md false false 1 ip
      else
        let c1 := isqrt 202 (2 * 2 ^ 200 * 2 ^ 200)
        let p := exp2Prod fr t c1 (2 ^ 200)
        fround f md false false (2 * p + 1) (ip - 201)

/-! ### Conversions (R114, R117 to R120, R319, R360) -/

/-- FP to integer: rounds, clamps, NV where clamped; a NaN gives 0 with NV. -/
def fToInt (f : FTy) (md : RMode) (t : Ty) (x : Nat) : Val :=
  match fdec f x with
  | .nan _ => { bits := 0, fl := flNV }
  | .inf n => { bits := tyWrap t (if n then tyMin t else tyMax t), fl := flNV }
  | .fin n m e =>
    let r := quantize md n m e 0
    let v : Int := if n then -(r.1 : Int) else r.1
    if tyClamp t v ≠ v then { bits := tyWrap t (tyClamp t v), fl := flNV }
    else { bits := tyWrap t v, fl := flagIf r.2 flNX }

/-- Integer to FP. -/
def intToF (f : FTy) (md : RMode) (v : Int) : Val := fround f md false (decide (v < 0)) v.natAbs 0

/-- FP32 to BF16 under SR (R119). -/
def srBf16 (sat : Bool) (h x : Nat) : Val :=
  match fdec .f32 x with
  | .nan s => nanVal .bf16 s
  | .inf n => Val.pure (infBits .bf16 n)
  | .fin n _ _ =>
    let m := x % 2 ^ 31 + h % 2 ^ 16
    let k := m / 2 ^ 16
    let inexact := decide (x % 2 ^ 16 ≠ 0)
    if !inexact then Val.pure (x / 2 ^ 16)
    else if 255 * 128 ≤ k then
      { bits := if sat then maxBits .bf16 n else infBits .bf16 n, fl := flOF ||| flNX }
    else { bits := signBit .bf16 n + k, fl := flNX ||| flagIf (decide (k < 128)) flUF }

/-- FP to the other FP format. -/
def fToF (src dst : FTy) (md : RMode) (sat : Bool) (x : Nat) : Val :=
  match src, dst, md with
  | .f32, .bf16, .sr h => srBf16 sat h x
  | _, _, _ => match fdec src x with
    | .nan s => nanVal dst s
    | .inf n => Val.pure (infBits dst n)
    | .fin n m e => fround dst md sat n m e

/-- The FP format of a type. -/
def tyF : Ty → FTy
  | .bf16 => .bf16
  | _ => .f32

/-- Converts raw bits from `src` to `dst` (R319, R360). -/
def convert (dst src : Ty) (md : RMode) (sat : Bool) (x : Nat) : Val :=
  match src.isFp, dst.isFp with
  | true, true => fToF (tyF src) (tyF dst) md sat x
  | true, false => fToInt (tyF src) md dst x
  | false, true => intToF (tyF dst) md (tyInt src x)
  | false, false => intResult dst (sat && decide (tyBits dst ≤ tyBits src)) (tyInt src x)

/-! ### Rounding modes of an instruction (R39, R110) -/

/-- The mode in force: RM = 7 reads FRM; none where FRM raises cause 1. `srOk`: the instruction accepts RM = 5. -/
def rmode (rm : Rm) (frm : BitVec 3) (srOk : Bool) (hash : Nat) : Option RMode :=
  match rm with
  | .rne => some .rne
  | .rtz => some .rtz
  | .rup => some .rup
  | .rdn => some .rdn
  | .rmm => some .rmm
  | .sr => if srOk then some (.sr hash) else none
  | .dyn => match frm.toNat with
    | 0 => some .rne
    | 1 => some .rtz
    | 2 => some .rup
    | 3 => some .rdn
    | 4 => some .rmm
    | 5 => if srOk then some (.sr hash) else none
    | _ => none

end Sys2Proof.Machine
end

