-- ==== Sys2Proof/Machine/Homes.lean ====
section
/-! DEFINITION. The homes: registration tables (R183 to R186), memory values, recalls, atomic units (R139, R140), packs'
write-sets (R245 to R247), and the hooks a write at a home makes. -/

namespace Sys2Proof.Machine

/-! ## Physical memory (R136, R137) -/

/-- Device memory or host memory. -/
def paValid (pa : Nat) : Bool :=
  decide (pa < Config.deviceBytes) || (decide (Config.hostBase ≤ pa) && decide (pa < Config.hostEnd))

/-! ## Ranges (R183, R184) -/

/-- An arriving range extends this entry: the same owner, STRIDE and WIDTH, ending just before the new BASE, and COUNT stays
within 65,536 (R183). -/
def RangeEntry.extend (e r : RangeEntry) : Option RangeEntry :=
  if e.owner == r.owner && e.width == r.width && e.stride == r.stride && decide (e.base + e.stride * e.count = r.base) &&
      decide (e.count + r.count ≤ 65536) then
    some { e with count := e.count + r.count }
  else none

/-- Extends the first entry that can be extended. -/
def extendFirst (r : RangeEntry) : List RangeEntry → Option (List RangeEntry)
  | [] => none
  | e :: es => match e.extend r with
    | some e' => some (e' :: es)
    | none => (extendFirst r es).map (e :: ·)

/-- The slot a virtual line carries (R174). -/
def Core.slotOf (c : Core) (vline : Nat) : Nat :=
  match c.binds.find? fun b => decide (b.base ≤ 64 * vline) && decide (64 * vline < b.base + b.len) with
  | some b => b.slot
  | none => 0

/-- Records a range that lies in one home slice (R183, R185). -/
def State.enterRange (s : State) (r : RangeEntry) : State :=
  match extendFirst r (s.table (4 * r.base)) with
  | some t => s.setTable (4 * r.base) t
  | none =>
    let s := s.makeRoom (4 * r.base) 1 1
    s.setTable (4 * r.base) (s.table (4 * r.base) ++ [r])

/-- The range of one word. -/
def wordRange (o : Owner) (w : Nat) : RangeEntry := { base := w, stride := 1, count := 1, width := 1, owner := o }

/-! ## Writes at a home -/

/-- A write performed at the home by an agent other than a core's drain: registered copies are recalled, the bytes are
written, the agent's registration is recorded where it makes one (R180). -/
def State.homeWrite (s : State) (o : Option Owner) (pa : Nat) (bs : List Byte) : State :=
  let s := (s.recallRange pa bs.length).memPut pa bs
  let s := match o with
    | some o => (wordsOf pa bs.length).foldl (fun (t : State) w => t.enterRange (wordRange o w)) s
    | none => s
  let self := match o with
    | some (.slot d k) => some (d, k)
    | _ => none
  (s.noteWrite self pa bs.length).happen

/-! ## Host writes (R277) -/

/-- A write of the host at its home: it waits for a page move (R151) or a pack (R247), and in device bias it registers under
the host's identity (R277). -/
def State.hostPut (s : State) (pa : Nat) (bs : List Byte) : State :=
  if s.pageHeld pa || s.packHolds pa bs.length then s.holdPut pa bs .host
  else s.homeWrite (if s.hostBias pa then none else some .host) pa bs

/-- A snoop of a line is answered: the host-held bit clears (R293). -/
def State.endSnoop (s : State) (line : Nat) : State :=
  { s with hostLines := s.hostLines.filter fun l => l != line, snoops := s.snoops.filter fun n => n.line != line }

/-- The data of a snoop's response goes to device memory, then the line's bit clears (R293). A page move holds it as it holds
every write to the page (R151); a pack does not, whose tentative bytes stand above it (R245). -/
def State.snoopPut (s : State) (pa : Nat) (bs : List Byte) : State :=
  if s.pageHeld pa then s.holdPut pa bs .response else (s.homeWrite none pa bs).endSnoop (pa / 64)

/-- A held write is performed, or goes on waiting. -/
def HeldPut.perform (p : HeldPut) (s : State) : State := match p.src with
  | .host => s.hostPut p.pa p.data
  | .device => s.devPut p.pa p.data
  | .response => s.snoopPut p.pa p.data

/-! ## Packs at the homes (R245 to R247) -/

/-- Writes a tentative byte. -/
def Pack.putTent (p : Pack) (pa : Nat) (b : Byte) : Pack :=
  { p with tent := (pa, b) :: p.tent.filter fun c => c.1 != pa }
/-- The write-set lines. -/
def Pack.lines (p : Pack) : List Nat := (p.tent.map fun c => c.1 / 64).dedup

/-- [pa, pa + n) lies in a live pack object (R236). -/
def State.inPackObject (s : State) (pa n : Nat) : Bool := s.packs.any fun p => meet p.pa 64 pa n

/-- A write that no record of its own keeps arrives at its home and is held there (R247). None where it is known already or
nothing holds it. -/
def State.noteHold (s : State) (pa n : Nat) : Option State :=
  if s.packHolds pa n && !(s.packWaits.any fun w => w.1 == pa && w.2.1 == n) then
    some { s with packWaits := (pa, n, s.gtime) :: s.packWaits }
  else none

/-- A held write waits for nothing any more. -/
def State.putFree (s : State) (p : HeldPut) : Bool :=
  !s.pageHeld p.pa && (match p.src with
    | .host => !s.packHolds p.pa p.data.length
    | .device => !s.packHolds p.pa p.data.length && !s.hostWaits p.pa p.data.length
    | .response => true)

/-- Held writes that nothing holds any more are performed, and the notes of the others' arrival forgotten. -/
def State.cleanHolds (s : State) : State :=
  (s.heldPuts.filter s.putFree).foldl (fun (t : State) p => p.perform t)
    { s with packWaits := s.packWaits.filter fun w => s.packHolds w.1 w.2.1
             heldPuts := s.heldPuts.filter fun p => !s.putFree p }

/-- The pack's time is over (R249). -/
def Pack.expired (p : Pack) (now : Nat) : Bool := decide (0 < p.entered) && decide (p.start + 1000 * p.lifetime < now)

/-- The writes held at homes: registrations, atomics, then the others: where they write, and their arrival (R247). -/
def State.heldWrites (s : State) : List (List (Nat × Nat) × Option Nat) :=
  (s.regs.map fun r => (r.words.map fun w => (4 * w, 4), r.arrived)) ++
  (s.atoms.map fun a => match a.place with
    | .phys pa => ([(pa, a.bytes)], a.arrived)
    | .aspace _ _ => ([], none)) ++
  (s.packWaits.map fun w => ([(w.1, w.2.1)], some w.2.2)) ++
  s.heldPuts.map fun p => ([(p.pa, p.data.length)], some p.arrived)

/-- A die that holds a member, the pack's home or one of its lines is lost (R250). -/
def State.packDieLost (s : State) (p : Pack) : Bool :=
  (List.range 4).any fun d => (s.die d).lost &&
    (p.die == d || p.members.any (fun h => dieOf h == d) ||
      (p.lines ++ p.reads.map (· / 16)).any fun l => s.homeDie (64 * l) == d)

/-- The causes of a pack that are due of themselves, each with the time at which it reached the home: a held write of 2,000 ns, a
lifetime that is over, a lost die (R247, R249, R250). -/
def State.packCauses (s : State) (p : Pack) : List (Nat × Nat) :=
  (s.heldWrites.filterMap fun w => match w.2 with
    | some t => if t + 2000 ≤ s.gtime && w.1.any fun x => p.holds x.1 x.2 then some (t + 2000, 2) else none
    | none => none) ++
  (if p.expired s.gtime then [(p.start + 1000 * p.lifetime + 1, 6)] else []) ++
  (if s.packDieLost p then [(s.gtime, 7)] else [])

/-- The code a pack aborts with when cause `code` reaches its home now: of the causes due the first, of those of one cycle the
lowest (R250). -/
def State.firstCause (s : State) (p : Pack) (code : BitVec 32) : BitVec 32 :=
  ((s.packCauses p).foldl (fun (b : Nat × Nat × BitVec 32) c =>
    if c.1 < b.1 || (c.1 == b.1 && decide (c.2 < b.2.1)) then (c.1, c.2, BitVec.ofNat 32 c.2) else b)
    (s.gtime, code.toNat % 256, code)).2.2

/-- A pack aborts (R251): its lines and marks go; each member restores its checkpoint at its next boundary. A cause
that arrives after the commit instant is ignored, and of two in one cycle the lower code wins (R250). -/
def State.abortPack (s : State) (obj : Nat) (code : BitVec 32) : State :=
  match s.pack? obj with
  | none => s
  | some p =>
    if p.state = .aborting && p.aborted == s.gtime && decide (code.toNat % 256 < p.code.toNat % 256) then
      s.setPack { p with code := code }
    else if p.state = .opened then
      let q := { p with state := .aborting, code := s.firstCause p code, aborted := s.gtime, tent := [], reads := [] }
      let s := p.members.foldl (fun s h => s.modHart h fun x => match x.pack with
        | some m => { x with pack := some { m with restore := true } }
        | none => x) (s.setPack q)
      (if p.members.isEmpty then s.packEnd q else s).cleanHolds.happen
    else s

/-- The younger of two packs: later STARTTIME; ties go against the higher handle (R247). -/
def younger (p q : Pack) : Pack :=
  if p.start < q.start then q else if q.start < p.start then p
  else if p.handle.toNat < q.handle.toNat then q else p

/-- Other open packs whose sets an access of pack `p` meets (R247). -/
def State.packRivals (s : State) (p : Pack) (write : Bool) (pa n : Nat) : List Pack :=
  s.packs.filter fun q => q.pa != p.pa && q.state == .opened &&
    (q.writesIn pa n || (write && q.readsIn pa n))

/-- Directory entries in use on a die (R246). -/
def State.directoryUse (s : State) (d : Nat) : Nat :=
  (s.packs.map fun p => (((p.lines ++ p.reads.map (· / 16)).dedup).filter fun l => s.homeDie (64 * l) == d).length).sum

/-! ## What an access at a home waits for (R152, R247, R277, R279) -/

/-- A registration reaches [pa, pa + n). -/
def Registration.touches (r : Registration) (pa n : Nat) : Bool := r.words.any fun w => meet (4 * w) 4 pa n

/-- A word with registrations of its own core in flight. -/
def State.inFlight (s : State) (c pa n : Nat) : Bool := s.regs.any fun r => r.core == c && r.touches pa n

/-- The atomic waits at the home of a word of [pa, pa + n). -/
def Atomic.heldAt (a : Atomic) (pa n : Nat) : Bool := a.arrived.isSome && (match a.place with
  | .phys q => meet q a.bytes pa n
  | .aspace _ _ => false)

/-- A held store waits for a page move on the word (R152). -/
def State.heldStore (s : State) (pa n : Nat) : Bool :=
  s.pageHeld pa && ((s.regs.any fun r => r.arrived.isSome && r.touches pa n) ||
    (s.heldPuts.any fun p => meet p.pa p.data.length pa n) || s.atoms.any fun a => a.heldAt pa n)

/-- A read of [pa, pa + n) waits. -/
def State.readHeld (s : State) (pa n : Nat) : Bool := s.flipping pa || s.heldStore pa n || (s.hostLine pa n).isSome

/-- A write of [pa, pa + n) by an agent outside every pack waits. -/
def State.writeHeld (s : State) (pa n : Nat) : Bool :=
  s.flipping pa || s.pageHeld pa || s.packHolds pa n || (s.hostLine pa n).isSome

/-- The step must wait for a write to [pa, pa + n) and is not taken (log 66). -/
def State.await (s : State) (pa n : Nat) : State := { s with want := some (pa, n, true) }

/-- A walk, a scheduler or an instruction itself reads [pa, pa + n) at the homes: where the read must wait the step is not
taken (log 66). -/
def State.lookAt (s : State) (pa n : Nat) : State := if s.readHeld pa n then { s with want := some (pa, n, false) } else s

/-- A walk, a scheduler or an instruction itself writes at a home: where the write must wait the step is not taken
(log 66). -/
def State.agentWrite (s : State) (o : Option Owner) (pa : Nat) (bs : List Byte) : State :=
  if s.writeHeld pa bs.length then s.await pa bs.length else s.homeWrite o pa bs

/-! ## Members' accesses -/

/-- What a member's access comes to. -/
inductive MemberAcc
  | done (s : State) (old : List Byte)
  | aborted (s : State)
  deriving DecidableEq, Repr

/-- The value a member load returns (R245). -/
def State.memberBytes (s : State) (p : Pack) (pa n : Nat) : List Byte :=
  (List.range n).map fun i => match p.tentAt (pa + i) with
    | some b => b
    | none => s.homeByte (pa + i)

/-- A member's access at the home (R245 to R247): `new` gives the bytes to write from the bytes there. The younger of
two packs that meet aborts; an access beyond a limit aborts its own pack and does not take place. -/
def State.memberAccess (s : State) (obj pa n : Nat) (new : Option (List Byte → List Byte)) : MemberAcc :=
  match s.pack? obj with
  | none => .aborted s
  | some p =>
    if p.state != .opened then .aborted s else
    let rivals := s.packRivals p new.isSome pa n
    let losers := rivals.map fun q => younger p q
    let s := losers.foldl (fun s q => s.abortPack q.pa 2) s
    if losers.any fun q => q.pa == p.pa then .aborted s
    else
      match s.pack? obj with
      | none => .aborted s
      | some p =>
        let old := s.memberBytes p pa n
        let q : Pack := match new with
          | some f =>
            let bs := f old
            (List.range n).foldl (fun (q : Pack) i => q.putTent (pa + i) (getAt 0 bs i)) p
          | none => { p with reads := (p.reads ++ wordsOf pa n).dedup }
        let t : State := { s with packs := s.packs.map fun (r : Pack) => if r.pa == q.pa then q else r }
        if decide (Config.packLines < q.lines.length) ||
            decide (Config.packDirectory < t.directoryUse (s.homeDie pa)) then
          .aborted (s.abortPack obj 3)
        else
          let t := if new.isSome then t.recallRange pa n else t
          .done t.happen old

/-! ## Atomic operations (R300 to R302, R140) -/

/-- The new value of a word of `n` bytes, and the flags of fadd (R300, R140). -/
def amoApply (op : AmoOp) (n : Nat) (old b : Nat) : Val :=
  let t : Ty := if n = 4 then .i32 else .i64
  let u : Ty := if n = 4 then .u32 else .u64
  match op with
  | .swap => Val.pure b
  | .add => Val.pure ((old + b) % 2 ^ (8 * n))
  | .and => Val.pure (old &&& b)
  | .or => Val.pure (old ||| b)
  | .xor => Val.pure (old ^^^ b)
  | .min => Val.pure (if tyInt t old < tyInt t b then old else b)
  | .max => Val.pure (if tyInt t old < tyInt t b then b else old)
  | .minu => Val.pure (if tyInt u old < tyInt u b then old else b)
  | .maxu => Val.pure (if tyInt u old < tyInt u b then b else old)
  | .fadd => fadd .f32 .rne old b

/-- The new value an atomic writes; a failed compare writes nothing (R302). -/
def AtomOp.apply (op : AtomOp) (n old operand : Nat) : Option Val := match op with
  | .amo o => some (amoApply o n old operand)
  | .cas e => if old = e.toNat % 2 ^ (8 * n) then some (Val.pure operand) else none

/-- The old value as a value-returning form delivers it (R301). -/
def AtomOp.result (op : AtomOp) (n old : Nat) : Word := match op with
  | .amo .fadd => BitVec.ofNat 64 old
  | _ => if n = 4 then sext64 (BitVec.ofNat 32 old) else BitVec.ofNat 64 old

/-- One atomic step at the unit of a place: the old value, the flags, the state (R139). The issuing core keeps no copy
of the word. -/
def State.atomicAt (s : State) (core : Nat) (p : Place) (n : Nat) (op : AtomOp) (operand : Nat) :
    Nat × FlagBits × State :=
  match p with
  | .aspace c off =>
    let old := (s.core c).a.readLe off n
    match op.apply n old operand with
    | some v =>
      let s := s.modCore c fun x => { x with a := x.a.writeLe off n v.bits }
      (old, v.fl, (s.noteWrite none (aKey c off) n).happen)
    | none => (old, 0, s.happen)
  | .phys pa =>
    let s := s.recallRange pa n
    let s := s.modCore core fun x => (wordsOf pa n).foldl (fun x w => x.l1drop w) x
    let old := s.mem.readLe pa n
    match op.apply n old operand with
    | some v =>
      let s := { s with mem := s.mem.writeLe pa n v.bits }
      (old, v.fl, (s.noteWrite none pa n).happen)
    | none => (old, 0, s.happen)

end Sys2Proof.Machine
end

