-- ==== Sys2Proof/Machine/Translate.lean ====
section
/-! DEFINITION. Translation (R189 to R198), the windows of A-space and C-space (R133, R134, R275) and where an access
lies (R130, R132, R136, R274). -/

namespace Sys2Proof.Machine

/-! ## Page-table entries (R192, R193) -/

/-- SATP.MODE. -/
def satpMode (satp : Word) : Nat := field satp 60 4
/-- SATP.ASID. -/
def satpAsid (satp : Word) : BitVec 16 := BitVec.ofNat 16 (field satp 44 16)
/-- The address of the root table. -/
def satpRoot (satp : Word) : Nat := field satp 0 44 * 4096
/-- SATP holds a MODE that R191 permits on the hart. -/
def satpOk (control : Bool) (satp : Word) : Bool := satpMode satp = 10 || (control && satpMode satp = 0)

/-- For whom an address is translated: the core, the privilege and the SATP. -/
structure Ctx where
  core : Nat
  priv : Priv
  satp : Word
  deriving DecidableEq, Repr

/-- The context of hart `h`. -/
def State.ctx (s : State) (h : Nat) : Ctx :=
  { core := coreOf h, priv := (s.hart h).priv, satp := (s.hart h).satp }

/-- What a translation gives. -/
inductive Tr
  | ok (pa : Nat) (pbmt : BitVec 2)
  | fault (cause : Nat)
  deriving DecidableEq, Repr

/-- R, W, X and U permit the access (R193). -/
def permits (priv : Priv) (acc : Acc) (r w x u : Bool) : Bool :=
  match acc, priv with
  | .fetch, .user => x && u
  | .fetch, .sup => x && !u
  | .load, .user => r && u
  | .load, .sup => r
  | .store, .user => w && u
  | .store, .sup => w

/-- What a walk meets: a leaf of a level, its entry's address and value, a fault, or an entry that must be waited for. -/
inductive WalkEnd
  | leaf (lvl pteAddr : Nat) (pte : Word)
  | fault (cause : Nat)
  | waits (pteAddr : Nat)
  deriving DecidableEq, Repr

/-- A walk of `n` levels from a table, reading each entry at its home (R192, R193). A pointer with PBMT or N set, and a
pointer at the last level, fault with cause 4 as the referenced specification has it (log 10).
DESIGN CHOICE (log 68): a leaf above 4 KiB with N set maps its whole page; a leaf that is misaligned and forbids the access is cause 4. -/
def State.walk (s : State) (acc : Acc) (va : Nat) : Nat → Nat → WalkEnd
  | 0, _ => .fault 4
  | n + 1, tbl =>
    let a := tbl + 8 * (va / 2 ^ (12 + 9 * n) % 512)
    if !paValid a then .fault 5
    else if s.readHeld a 8 then .waits a
    else if poisoned s.bad a 8 then .fault (if acc = .fetch then 6 else 7)
    else
      let e : Word := BitVec.ofNat 64 (leNat (s.homeBytes a 8))
      if !wbit e 0 || field e 54 7 ≠ 0 || (wbit e 2 && !wbit e 1) then .fault 4
      else if !wbit e 1 && !wbit e 2 && !wbit e 3 then
        if field e 61 3 ≠ 0 then .fault 4
        else State.walk s acc va n (field e 10 44 * 4096)
      else if field e 10 44 % 512 ^ n ≠ 0 then .fault 4
      else .leaf n a e

/-- The TLB entry of a leaf. -/
def tlbOf (satp : Word) (va lvl : Nat) (e : Word) : TlbEntry :=
  { asid := satpAsid satp, vpn := va % 2 ^ 57 / 2 ^ (12 + 9 * lvl), lvl := lvl, ppn := field e 10 44
    pbmt := BitVec.ofNat 2 (field e 61 2), g := wbit e 5, u := wbit e 4, x := wbit e 3, w := wbit e 2, r := wbit e 1
    d := wbit e 7 }

/-- The entry translates an address of an address space. -/
def TlbEntry.hits (t : TlbEntry) (asid : BitVec 16) (va : Nat) : Bool :=
  (t.g || t.asid == asid) && t.vpn == va % 2 ^ 57 / 2 ^ (12 + 9 * t.lvl)

/-- The physical address the entry gives. -/
def TlbEntry.pa (t : TlbEntry) (va : Nat) : Nat := t.ppn * 4096 + va % 2 ^ (12 + 9 * t.lvl)

/-- The entry with the smallest page (R198). -/
def smallest : List TlbEntry → Option TlbEntry
  | [] => none
  | t :: ts => match smallest ts with
    | some u => if u.lvl < t.lvl then some u else some t
    | none => some t

/-- The entry may serve the access without a walk: permitted, and D set for a store. -/
def TlbEntry.serves (t : TlbEntry) (priv : Priv) (acc : Acc) : Bool :=
  permits priv acc t.r t.w t.x t.u && (acc != .store || t.d)

/-- Bytes of the entry's page. -/
def TlbEntry.size (t : TlbEntry) : Nat := 2 ^ (12 + 9 * t.lvl)

/-! ## The TLBs (R189, R194, R198) -/

/-- The first-level slice of an address (R194). -/
def sliceOf (va : Nat) : Nat := va / 4096 % 16

/-- Removes what a new entry replaces: the same page under the same ASID. -/
def TlbEntry.same (t u : TlbEntry) : Bool := t.asid == u.asid && t.lvl == u.lvl && t.vpn == u.vpn

/-- Fills a first-level slice of 24 entries; the oldest entry gives way (log 11). -/
def Core.fillTlb (c : Core) (sl : Nat) (t : TlbEntry) : Core :=
  let mine := (c.tlb.filter fun e => e.1 == sl && !e.2.same t).take 23
  { c with tlb := (sl, t) :: mine ++ c.tlb.filter fun e => e.1 != sl }

/-- Drops the first-level copies of entries that a die's L2 TLB loses (R189). -/
def State.dropFirst (s : State) (d : Nat) (p : TlbEntry → Bool) : State :=
  (List.range 136).foldl (fun (t : State) c =>
    if dieOfCore c = d && (t.core c).tlb.any (fun e => p e.2) then
      t.modCore c fun x => { x with tlb := x.tlb.filter fun e => !p e.2 }
    else t) s

/-- The frames at which live entries of an L2 TLB overlap in the opposite mode (R189). -/
def aliasesIn (t : TlbEntry) (l : List TlbEntry) : List Nat :=
  (l.filter fun u => u.pbmt != t.pbmt && u.pbmt.toNat < 2 && meet (t.ppn * 4096) t.size (u.ppn * 4096) u.size).map
    fun u => max t.ppn u.ppn

/-- The alias detector's probe of the four L2 TLBs at a fill: STVAL is the first overlapping frame (R189). -/
def State.probeAlias (s : State) (d : Nat) (t : TlbEntry) : State :=
  if t.pbmt.toNat < 2 then
    match (List.range 4).flatMap fun k => aliasesIn t (s.die k).l2tlb with
    | f :: fs => s.modHart (controlHart d) fun x =>
        { x with asyncs := x.asyncs ++ [(14, BitVec.ofNat 64 (4096 * fs.foldl min f))] }
    | [] => s
  else s

/-- Fills a die's L2 TLB of 16,384 entries. The entry it replaces, and the oldest one where there is no room, leave with
their first-level copies (R189, log 11). -/
def State.fillL2 (s : State) (d : Nat) (t : TlbEntry) : State :=
  let s := s.probeAlias d t
  let old := (s.die d).l2tlb
  let l := old.filter fun u => !u.same t
  let gone := (old.filter fun u => u.same t) ++ l.drop 16383
  let s := s.modDie d fun x => { x with l2tlb := t :: l.take 16383 }
  if gone.isEmpty then s else s.dropFirst d fun u => gone.any fun v => v.same u

/-! ## Translation of an address (R191 to R194) -/

/-- The address is canonical (R191). -/
def canonical (va : Word) : Bool := field va 57 7 == (if wbit va 56 then 127 else 0)

/-- Ends a translation at a physical address (R136). -/
def trAt (pa : Nat) (pbmt : BitVec 2) : Tr := if paValid pa then .ok pa pbmt else .fault 5

/-- Sets A, and D on a store, at the entry's atomic unit (R193). -/
def State.markPte (s : State) (acc : Acc) (a : Nat) (e : Word) : State × Word :=
  let e' := e ||| 0x40 ||| (if acc = .store then 0x80 else 0)
  if e' = e then (s, e) else (s.agentWrite none a (leBytes 8 e'.toNat), e')

/-- A walk from SATP that fills the TLBs (R193, R194). -/
def State.walkFill (s : State) (x : Ctx) (acc : Acc) (va : Nat) : State × Tr :=
  match s.walk acc va 5 (satpRoot x.satp) with
  | .fault c => (s, .fault c)
  | .waits a => (s.lookAt a 8, .fault 5)
  | .leaf lvl a e =>
    if !permits x.priv acc (wbit e 1) (wbit e 2) (wbit e 3) (wbit e 4) || field e 61 2 = 3 then (s, .fault 5)
    else if !paValid ((tlbOf x.satp va lvl e).pa va) then (s, .fault 5)
    else
      let (s, e) := s.markPte acc a e
      let t := tlbOf x.satp va lvl e
      let s := s.fillL2 (dieOfCore x.core) t
      (s.modCore x.core fun c => c.fillTlb (sliceOf va) t, .ok (t.pa va) t.pbmt)

/-- Translates a G-space address for an access (R191 to R194). Bare mode is the identity, tracked; a compute hart whose
SATP still holds its reset value translates so too (log 12). -/
def State.translate (s : State) (x : Ctx) (acc : Acc) (va : Word) : State × Tr :=
  if satpMode x.satp = 0 then (s, trAt va.toNat 0)
  else if !canonical va then (s, .fault 5)
  else
    let v := va.toNat
    let l1 := ((s.core x.core).tlb.filter fun e => e.1 == sliceOf v).map fun e => e.2
    match smallest (l1.filter fun t => t.hits (satpAsid x.satp) v) with
    | some t =>
      if t.serves x.priv acc then (s, trAt (t.pa v) t.pbmt) else s.walkFill x acc v
    | none =>
      match smallest ((s.die (dieOfCore x.core)).l2tlb.filter fun t => t.hits (satpAsid x.satp) v) with
      | some t =>
        if t.serves x.priv acc then
          (s.modCore x.core fun c => c.fillTlb (sliceOf v) t, trAt (t.pa v) t.pbmt)
        else s.walkFill x acc v
      | none => s.walkFill x acc v

/-! ## Windows (R133, R134, R275) -/

/-- The window of a launch on a core: the valid entry of that launch, else the valid entry with LAUNCH = 0. -/
def Core.window (c : Core) (launch : Word) : Option Window :=
  match c.windows.find? fun w => w.valid && w.launch == launch with
  | some w => some w
  | none => c.windows.find? fun w => w.valid && w.launch == 0

/-- [off, off + n) lies in the window's A extent. -/
def Window.coversA (w : Window) (off n : Nat) : Bool :=
  decide (65536 * field w.ext 0 16 ≤ off) && decide (off + n ≤ 65536 * (field w.ext 0 16 + field w.ext 16 16))
/-- [off, off + n) lies in the window's C extent. -/
def Window.coversC (w : Window) (off n : Nat) : Bool :=
  decide (65536 * field w.ext 32 16 ≤ off) && decide (off + n ≤ 65536 * (field w.ext 32 16 + field w.ext 48 16))

/-- LAUNCH of the hart's task; 0 without a task. -/
def Hart.launch (x : Hart) : Word := match x.task with
  | some t => t.rc.launch
  | none => 0

/-- An A-space access of a hart's task is inside the space and its window (R132, R133). -/
def State.okA (s : State) (core : Nat) (launch : Word) (off n : Nat) : Bool :=
  decide (off + n ≤ Config.aBytes) && (match (s.core core).window launch with
    | some w => w.coversA off n
    | none => false)

/-- A C-space access is inside the space and the window. -/
def State.okC (s : State) (core : Nat) (launch : Word) (off n : Nat) : Bool :=
  decide (off + n ≤ Config.cBytes) && (match (s.core core).window launch with
    | some w => w.coversC off n
    | none => false)

/-- A W-space access is inside the space; a control core has none (R8). -/
def okW (core off n : Nat) : Bool := decide (core < Config.computeCores) && decide (off + n ≤ Config.wBytes)

/-- A core belongs to a partition (R100). -/
def State.coreIn (s : State) (c part : Nat) : Bool :=
  decide (c < Config.computeCores) && (s.core c).assigned && (s.core c).part == part

/-- An RA access to another core: its partition, and a window that a launch of it holds there (R134). -/
def State.okRa (s : State) (part c off n : Nat) : Bool :=
  s.coreIn c part && decide (off + n ≤ Config.aBytes) &&
  (s.core c).windows.any fun w => w.valid && w.coversA off n

/-! ## Where an access lies -/

/-- The place of an access, or the cause of its fault. -/
inductive Loc
  | at_ (p : ElemPlace)
  | fault (cause : Nat)
  deriving DecidableEq, Repr

/-- A fault unless a condition holds. -/
def Loc.if_ (c : Bool) (p : ElemPlace) : Loc := if c then .at_ p else .fault 5

/-- The address lies in the control register window (R274). -/
def inCtrl (a : Nat) : Bool := decide (Config.ctrlBase ≤ a) && decide (a < Config.ctrlBase + 4 * 2 ^ 24)

/-- The hart reaches the control register window: a control-core hart in bare mode (R191, R274). -/
def State.reachesCtrl (s : State) (h : Nat) : Bool := isControl h && satpMode (s.hart h).satp = 0

/-- A G-space access (R136, R191, R274). An access of another width to the control register window raises cause 5
(log 13). -/
def State.locateG (s : State) (h : Nat) (acc : Acc) (va : Word) (n : Nat) : State × Loc :=
  if s.reachesCtrl h && inCtrl va.toNat then (s, Loc.if_ (n == 8 && acc != .fetch) (.g va.toNat 2))
  else match s.translate (s.ctx h) acc va with
    | (s, .ok pa m) => (s, .at_ (.g pa m))
    | (s, .fault c) => (s, .fault c)

/-- An access of `n` bytes by hart `h` in a space (R130 to R134). An RA access to the issuing core is an A-space access
(R134). -/
def State.locate (s : State) (h : Nat) (sp : Space) (acc : Acc) (va : Word) (n : Nat) : State × Loc :=
  let c := coreOf h
  let launch := (s.hart h).launch
  match sp with
  | .dflt | .g => s.locateG h acc va n
  | .a => (s, Loc.if_ (s.okA c launch va.toNat n) (.a c va.toNat))
  | .c => (s, Loc.if_ (s.okC c launch va.toNat n) (.c va.toNat))
  | .w => (s, Loc.if_ (acc == .load && okW c va.toNat n) (.w va.toNat))
  | .ra =>
    let t := field va 22 8
    let off := field va 0 22
    if field va 30 34 ≠ 0 then (s, .fault 5)
    else if t = c then (s, Loc.if_ (s.okA c launch off n) (.a c off))
    else (s, Loc.if_ (s.okRa (s.partOf h) t off n) (.a t off))

/-! ## G-space accesses of engines and schedulers, made at the homes -/

/-- What an agent's read gives. -/
inductive Got
  | ok (bs : List Byte)
  | fault (cause : Nat)
  deriving DecidableEq, Repr

/-- Bytes as an agent without an L1 reads them by the page's mode: an untracked read takes the memory value (R187, R190). -/
def State.modeBytes (s : State) (m : BitVec 2) (pa n : Nat) : List Byte :=
  if m = 1 then s.mem.readN pa n else s.homeBytes pa n

/-- Reads `n` bytes within one page at the home: poison is cause 7 (R199). -/
def State.agentRead (s : State) (x : Ctx) (va : Word) (n : Nat) : State × Got :=
  match s.translate x .load va with
  | (s, .ok pa m) => if poisoned s.bad pa n then (s, .fault 7) else (s.lookAt pa n, .ok (s.modeBytes m pa n))
  | (s, .fault c) => (s, .fault c)

/-- The context under which a scheduler reaches a partition's records: the SATP of its lowest core's hart 0 (log 14). -/
def State.partCtx (s : State) (part : Nat) : Ctx :=
  match (List.range 128).find? fun c => s.coreIn c part with
  | some c => { core := c, priv := .user, satp := (s.hart (8 * c)).satp }
  | none => { core := 0, priv := .user, satp := (s.hart 0).satp }

end Sys2Proof.Machine
end

