-- ==== Sys2Proof/Machine/Sched.lean ====
section
/-! DEFINITION. Level records and the level rule (R89 to R91, R386), continuation records and queues (R73 to R80), the start
of a task (R52, R80) and its end (R86, R92, R93). -/

namespace Sys2Proof.Machine

/-! ## Records as bytes -/

/-- The number at an offset of a byte list. -/
def le (bs : List Byte) (off n : Nat) : Nat := leNat ((bs.drop off).take n)
/-- A word of a byte list. -/
def leW (bs : List Byte) (off : Nat) : Word := BitVec.ofNat 64 (le bs off 8)

/-- Reads a continuation record (R73). -/
def TaskRec.ofBytes (bs : List Byte) : TaskRec :=
  { code := leW bs 0, frame := leW bs 8, joinctr := leW bs 16, launch := leW bs 24
    mincl := BitVec.ofNat 8 (le bs 32 1), prefcl := BitVec.ofNat 8 (le bs 33 1), prio := BitVec.ofNat 8 (le bs 34 1)
    flags := BitVec.ofNat 8 (le bs 35 1), leash := BitVec.ofNat 16 (le bs 36 2), res38 := BitVec.ofNat 16 (le bs 38 2)
    arg0 := leW bs 40, arg1 := leW bs 48, res56 := leW bs 56 }

/-- Writes a continuation record. -/
def TaskRec.toBytes (r : TaskRec) : List Byte :=
  leBytes 8 r.code.toNat ++ leBytes 8 r.frame.toNat ++ leBytes 8 r.joinctr.toNat ++ leBytes 8 r.launch.toNat ++
  leBytes 1 r.mincl.toNat ++ leBytes 1 r.prefcl.toNat ++ leBytes 1 r.prio.toNat ++ leBytes 1 r.flags.toNat ++
  leBytes 2 r.leash.toNat ++ leBytes 2 r.res38.toNat ++ leBytes 8 r.arg0.toNat ++ leBytes 8 r.arg1.toNat ++
  leBytes 8 r.res56.toNat

/-- The fields hold values that R73 and R74 permit, and JOINCTR is aligned (R76). -/
def TaskRec.fieldsOk (r : TaskRec) : Bool :=
  decide (1 ≤ r.mincl.toNat) && decide (r.mincl.toNat ≤ r.prefcl.toNat) && decide (r.prefcl.toNat ≤ 16) &&
  decide (r.prio.toNat < 8) && decide (r.flags.toNat < 4) && r.res38 == 0 && r.res56 == 0 &&
  decide (r.joinctr.toNat % 8 = 0)

/-- JOINALWAYS (R74). -/
def TaskRec.joinAlways (r : TaskRec) : Bool := r.flags.getLsbD 0
/-- NOAGE (R74). -/
def TaskRec.noAge (r : TaskRec) : Bool := r.flags.getLsbD 1

/-- The fields of a level record that the device uses (R89), with its physical address. -/
structure LevelRec where
  pa : Nat
  outstanding : Word
  st : Nat
  cancel : Bool
  kind : Nat
  partByte : Nat
  parent : Word
  handler : Word
  hframe : Word
  donecont : Word
  deriving DecidableEq, Repr

/-- Reads a level record (R89). -/
def LevelRec.ofBytes (pa : Nat) (bs : List Byte) : LevelRec :=
  { pa := pa, outstanding := leW bs 0, st := le bs 8 1, cancel := le bs 9 1 % 2 == 1, kind := le bs 10 1
    partByte := le bs 11 1, parent := leW bs 16, handler := leW bs 24, hframe := leW bs 32, donecont := leW bs 40 }

/-- SET of the PARTITION byte (R386). -/
def LevelRec.set (l : LevelRec) : Bool := decide (128 ≤ l.partByte % 256)
/-- The partition the level record belongs to (R386). -/
def LevelRec.part (l : LevelRec) : Nat := l.partByte % 16
/-- STATE = RUNNING. -/
def LevelRec.running (l : LevelRec) : Bool := l.st == 0

/-- The level record at an aligned address that translates; a poisoned one reads as none, and so does, for a write, a live pack
object, which only its home writes (R236). -/
def State.levelAt (s : State) (x : Ctx) (acc : Acc) (va : Word) : State × Option LevelRec :=
  if va.toNat % 64 ≠ 0 then (s, none)
  else match s.translate x acc va with
    | (s, .ok pa _) =>
      if poisoned s.bad pa 64 || (acc = .store && s.inPackObject pa 64) then (s, none)
      else (s.lookAt pa 64, some (LevelRec.ofBytes pa (s.homeBytes pa 64)))
    | (s, .fault _) => (s, none)

/-- The device writes a field of a level record at its home. -/
def State.levelPut (s : State) (l : LevelRec) (off n v : Nat) : State := s.agentWrite none (l.pa + off) (leBytes n v)

/-- Writes the PARTITION byte of a record whose SET is clear (R386). -/
def State.stamp (s : State) (l : LevelRec) (part : Nat) : State :=
  if l.set then s else s.levelPut l 11 1 (128 + part % 16)

/-- The PARENT chain from a level record, at most `n` records, and whether it ended in a zero PARENT (R76). -/
def State.chainFrom (s : State) (x : Ctx) : Nat → Word → State × List (Word × LevelRec) × Bool
  | 0, va => (s, [], va == 0)
  | n + 1, va =>
    if va = 0 then (s, [], true)
    else match s.levelAt x .load va with
      | (s, some l) => match State.chainFrom s x n l.parent with
        | (s, ls, e) => (s, (va, l) :: ls, e)
      | (s, none) => (s, [], false)

/-- Kinds rise strictly. -/
def kindsRise : List (Word × LevelRec) → Bool
  | a :: b :: rest => decide (a.2.kind < b.2.kind) && kindsRise (b :: rest)
  | _ => true

/-- What checking a record for a push gives (R76, R83). -/
inductive RecCheck | ok | invalid | closed
  deriving DecidableEq, Repr

/-- R76, then the state of the record's launch (R84). -/
def State.checkRec (s : State) (x : Ctx) (r : TaskRec) (part : Nat) : State × RecCheck :=
  if !r.fieldsOk then (s, .invalid)
  else if r.launch = 0 then (s, .ok)
  else match s.chainFrom x 4 r.launch with
    | (s, (_, l) :: ls, true) =>
      if l.kind = 1 && kindsRise ((r.launch, l) :: ls) && ls.all (fun p => decide (p.2.kind ≤ 4)) &&
          (!l.set || l.part == part) then
        (s, if l.running then .ok else .closed)
      else (s, .invalid)
    | (s, _, _) => (s, .invalid)

/-! ## Queues (R77, R79) -/

/-- A level without records and without a ring (R77). -/
def Level.empty : Level := { recs := [], base := 0, log := 0, first := 0 }

/-- Where a partition's level stands in a die's list. -/
def levelIx (part prio : Nat) : Nat := 8 * part + prio
/-- A level. -/
def Die.level (d : Die) (part prio : Nat) : Level := getAt Level.empty d.levels (levelIx part prio)
/-- Writes a level. -/
def Die.setLevel (d : Die) (part prio : Nat) (l : Level) : Die :=
  { d with levels := putAt Level.empty d.levels (levelIx part prio) l }
/-- The records a level can hold (R77). -/
def Level.cap (l : Level) : Nat := Config.fifoRecords + (if l.log = 0 then 0 else 2 ^ l.log)
/-- The level is full. -/
def Level.full (l : Level) : Bool := decide (l.cap ≤ l.recs.length)

/-- Where the record at place `i` of a level stands in the level's ring; none: in the FIFO (R77). -/
def Level.slot (l : Level) (i : Nat) : Option Nat :=
  if i < Config.fifoRecords then none
  else some (l.base.toNat + 64 * ((l.first + (i - Config.fifoRecords)) % 2 ^ l.log))

/-- A record that stands in the ring is written there. -/
def State.spill (s : State) (l : Level) (i : Nat) (r : TaskRec) : State := match l.slot i with
  | some a => s.devPut a r.toBytes
  | none => s

/-- The record at place `i` as the scheduler takes it: one in the ring has the bytes that stand there, but for a poisoned place
(log 35). -/
def State.refill (s : State) (l : Level) (i : Nat) (q : QRec) : QRec := match l.slot i with
  | some a => if poisoned s.bad a 64 then q else { q with rc := TaskRec.ofBytes (s.homeBytes a 64) }
  | none => q

/-- The ring place of a record is read: it waits for a write to it that its home holds, and for the host's copy (R247, R277;
log 66). -/
def State.lookRing (s : State) (l : Level) (i : Nat) : State := match l.slot i with
  | some a =>
    if s.heldPuts.any fun p => meet p.pa p.data.length a 64 then { s with want := some (a, 64, false) } else s.lookAt a 64
  | none => s

/-- Writes entry `i` of a list that has one. -/
def setAt {α : Type} (l : List α) (i : Nat) (f : α → α) : List α := match l[i]? with
  | some x => l.set i (f x)
  | none => l

/-- Adds a record at the tail of a level. -/
def State.pushAt (s : State) (d part lv : Nat) (q : QRec) : State :=
  let l := (s.die d).level part lv
  (s.spill l l.recs.length q.rc).modDie d fun x => x.setLevel part lv { l with recs := l.recs ++ [q] }

/-- Takes the record at place `i` out of a level. The FIFO refills from the ring, oldest first; records of the ring behind the
one taken move up (R77). -/
def State.takeAt (s : State) (d part lv i : Nat) : State :=
  let l := (s.die d).level part lv
  if l.recs.length ≤ Config.fifoRecords then s.modDie d fun x => x.setLevel part lv { l with recs := l.recs.eraseIdx i }
  else if i < Config.fifoRecords then
    let recs := (setAt l.recs Config.fifoRecords (s.refill l Config.fifoRecords)).eraseIdx i
    (s.lookRing l Config.fifoRecords).modDie d fun x => x.setLevel part lv { l with recs := recs, first := (l.first + 1) % 2 ^ l.log }
  else
    let s := (List.range (l.recs.length - i - 1)).foldl (fun (t : State) k => match l.recs[i + 1 + k]? with
      | some q => t.spill l (i + k) q.rc
      | none => t) s
    s.modDie d fun x => x.setLevel part lv { l with recs := l.recs.eraseIdx i }

/-- Pushes a record at the tail of its level. -/
def State.push (s : State) (d part : Nat) (q : QRec) : State := (s.pushAt d part q.rc.prio.toNat q).happen

/-- The level of a record is full. -/
def State.levelFull (s : State) (d part : Nat) (r : TaskRec) : Bool := ((s.die d).level part r.prio.toNat).full

/-- A record as die `d` queues it. -/
def State.qrec (s : State) (d : Nat) (r : TaskRec) (handle : Word) (handler gang : Option Nat) : QRec :=
  { rc := r, handle := handle, since := (s.die d).clock, handler := handler, gang := gang }

/-- An AHEAD number completes: the replayed iterations' flags reach the hart of its task (R225). -/
def State.endAhead (s : State) (h n : Nat) (fl : BitVec 7) (task : Option Task) : State :=
  (s.modHart h fun x => if x.task = task then x.raiseFlags fl else x).complete h 2 n

/-- Pushes a record, or holds it until its level has room (R90, R230, R282). -/
def State.pushOrHold (s : State) (d : Nat) (p : HeldPush) : State :=
  if s.levelFull d p.part p.rc then s.modDie d fun x => { x with held := x.held ++ [p] }
  else
    let s := s.push d p.part (s.qrec d p.rc p.handle p.handler none)
    match p.after with
    | .nothing => s
    | .tl2 h n f k => s.endAhead h n f k

/-! ## The level rule (R90, R386) -/

/-- Adds `k` to OUTSTANDING of a level record (R84, R90, R93). DESIGN CHOICE (log 68): nothing is added where its address does
not translate for writing; the record of a DONECONT or a QSUBMIT is pushed all the same. -/
def State.levelAdd (s : State) (x : Ctx) (va : Word) (k : Nat) : State :=
  match s.levelAt x .store va with
  | (s, some l) => s.levelPut l 0 8 (l.outstanding.toNat + k)
  | (s, none) => s

/-- A push by SPAWN, JOIN or GANG, and step 1 of R282, also stamp the record (R94, R386). -/
def State.levelJoin (s : State) (x : Ctx) (va : Word) (part k : Nat) : State :=
  match s.levelAt x .store va with
  | (s, some l) => (s.stamp l part).levelPut l 0 8 (l.outstanding.toNat + k)
  | (s, none) => s

/-- Pushes the DONECONT record of a level that has become DONE (R90). -/
def State.pushDonecont (s : State) (x : Ctx) (l : LevelRec) : State :=
  let d := s.homeDie l.pa
  if l.donecont = 0 then s
  else if l.donecont.toNat % 64 ≠ 0 then s.logDiscard d 0 l.donecont
  else match s.agentRead x l.donecont 64 with
    | (s, .fault _) => s.logDiscard d 0 l.donecont
    | (s, .ok bs) =>
      let r := TaskRec.ofBytes bs
      if !l.set then s.logDiscard d r.prio.toNat l.donecont
      else match s.checkRec x r l.part with
      | (s, .ok) =>
        let s := if r.launch = 0 then s else s.levelAdd x r.launch 1
        s.pushOrHold d { rc := r, handle := l.donecont, part := l.part, donecont := true, handler := none
                         after := .nothing }
      | (s, _) => s.logDiscard d r.prio.toNat l.donecont

/-- Decrements OUTSTANDING of a level record for a party of partition `part`, applies the level rule where it reaches 0,
and goes on to PARENT (R90). A decrement by a child's level rule, not a task's own, stamps the record (R386). At most `n`
records; the second result says whether this count reached 0. DESIGN CHOICE (log 68): the decrement of a record that does not
translate or is poisoned is left out and logged with KIND 13. -/
def State.levelDec (s : State) (x : Ctx) (child : Bool) (part : Nat) : Nat → Word → State × Bool
  | 0, _ => (s, false)
  | n + 1, va => match s.levelAt x .store va with
    | (s, none) => (s.logDiscard (dieOfCore x.core) 0 va, false)
    | (s, some l) =>
      let s := (if child then s.stamp l part else s).levelPut l 0 8 ((l.outstanding - 1).toNat)
      let l := if l.set || !child then l else { l with partByte := 128 + part % 16 }
      if l.outstanding = 1 then
        let s := if l.running then
            ((s.levelPut l 8 1 1).levelPut l 48 8 s.gtime).pushDonecont x l
          else s
        let s := if l.parent = 0 then s
          else (State.levelDec s x true (if l.set then l.part else part) n l.parent).1
        (s, true)
      else (s, false)

/-- The number of level records one decrement can pass through (log 15). -/
def levelFuel : Nat := 64

/-- Sets CANCEL, STATE and ENDTIME and broadcasts the handle, with the partition it belongs to, to the four dies (R91, R93,
R95). -/
def State.cancelLevel (s : State) (l : LevelRec) (va : Word) (part st : Nat) (gang : Option Nat) : State :=
  let s := ((s.levelPut l 9 1 1).levelPut l 8 1 st).levelPut l 48 8 s.gtime
  (List.range 4).foldl (fun (t : State) d => t.modDie d fun x =>
    { x with cancels := x.cancels ++ [{ handle := va, part := part, gang := gang }] }) s

/-- Pushes a launch's handler record (R93). DESIGN CHOICE (log 68): where its level is full it is held until there is room, and
the exemption number is the one at the hold. -/
def State.pushHandler (s : State) (x : Ctx) (d part : Nat) (launch arg0 arg1 : Word) (l : LevelRec) : State :=
  let r : TaskRec := { code := l.handler, frame := l.hframe, joinctr := 0, launch := launch, mincl := 1, prefcl := 1
                       prio := 7, flags := 0, leash := 0, res38 := 0, arg0 := arg0, arg1 := arg1, res56 := 0 }
  (s.levelAdd x launch 1).pushOrHold d
    { rc := r, handle := arg0, part := part, donecont := false, handler := some s.ids, after := .nothing }

/-- The launch's answer to a fault that has ended a task (R93, R146). -/
def State.faultHandler (s : State) (x : Ctx) (d part : Nat) (launch arg0 arg1 : Word) : State :=
  if launch = 0 then s
  else match s.levelAt x .store launch with
    | (s, none) => s
    | (s, some l) =>
      if l.handler ≠ 0 then s.pushHandler x d part launch arg0 arg1 l
      else if l.running then s.cancelLevel l launch part 3 none
      else s

/-! ## Ancestry (R80, R91) -/

/-- A level of the launch's chain has CANCEL set; `exempt`: not counting the launch itself (R93). -/
def State.chainCancelled (s : State) (x : Ctx) (launch : Word) (exempt : Bool) : State × Bool :=
  match s.chainFrom x 4 launch with
  | (s, ls, _) => (s, (if exempt then ls.drop 1 else ls).any fun p => p.2.cancel)

/-- The launch's chain holds a handle; `spare`: not as the launch of a handler record (R93). -/
def State.chainHolds (s : State) (x : Ctx) (launch handle : Word) (spare : Bool) : State × Bool :=
  match s.chainFrom x 4 launch with
  | (s, ls, _) => (s, (if spare then ls.drop 1 else ls).any fun p => p.1 == handle)

/-! ## Acquires (R168, R173) -/

/-- Every Valid word of the lines that satisfy `p` becomes Invalid; Registered words keep their state. -/
def State.selfInvalidate (s : State) (c : Nat) (p : L1Word → Bool) : State :=
  s.modCore c fun x => { x with l1 := x.l1.filter fun w => w.owned || !p w }

/-- FENCE.acq of the core's whole L1. -/
def State.acquireAll (s : State) (c : Nat) : State := (s.selfInvalidate c fun _ => true).happen

/-- A hart acquires: its core's Valid words go, and the strips that its streams have prefetched are read again (R67, R173). -/
def State.acquireFor (s : State) (h : Nat) : State := (s.acquireAll (coreOf h)).modHart h Hart.dropStrips

/-! ## The start of a task (R52, R80) -/

/-- The state R52 gives, with s3 to s6 of R80. -/
def Hart.startTask (x : Hart) (q : QRec) (level number : Nat) : Hart :=
  { x with
    s := ([0, 0, 0, q.rc.frame, q.rc.arg0, q.rc.arg1, q.handle] : List Word) ++ List.replicate 57 0
    sbad := 0, pc := q.rc.code, priv := .user, task := some { rc := q.rc, handle := q.handle, handler := q.handler }
    started := number, v := [], vbad := [], dirty := 0, restored := 0, m := List.replicate 7 0
    w := List.replicate 4 0, vl := 0, vew := 32, nvreg := 32, mt := 0, sb := 0, seed := 0, vstart := 0, fflags := 0
    frm := 0, atflags := 0, mleash := 32, lease := 0, prio := level, pend := [], stop := .none, chain := false
    vq := [], run := none, early := [], linked := none, streams := [], landing := List.replicate 16 none, mark := Mark.reset
    pack := none
    ctxArea := none, wait := none, item := .short, gto := 0, busy := [], passed := false, reported := false, brkAfter := none }

/-- Whether a gang's die is acknowledged in time (R95): the pop of a copy. -/
def ackGang (now d : Nat) (g : Gang) : Gang :=
  if now ≤ g.start + 20000 then { g with acked := g.acked ||| (1#4 <<< d) } else g

/-- The gangs of a die, with one acknowledged. -/
def Die.ackGang (x : Die) (now d g : Nat) : Die :=
  { x with gangs := x.gangs.map fun y => if y.id = g then Machine.ackGang now d y else y }

/-- Die `d` has popped its copy of gang `g`. -/
def State.ackGangs (s : State) (d g : Nat) : State := { s with dies := s.dies.map fun x => x.ackGang s.gtime d g }

/-- A pop hands a record to hart `h` (R80, R94). -/
def State.startOn (s : State) (h : Nat) (q : QRec) (level : Nat) : State :=
  let d := dieOf h
  let part := s.partOf h
  let s := match q.gang with
    | some g => s.ackGangs d g
    | none => s
  match s.chainCancelled (s.partCtx part) q.rc.launch q.handler.isSome with
  | (s, true) => ((s.levelDec (s.partCtx part) false part levelFuel q.rc.launch).1).happen
  | (s, false) =>
    let s := s.acquireAll (coreOf h)
    let s := { s with tasks := s.tasks + 1 }
    let s := s.modHart h fun x => { x.startTask q level s.tasks with progress := s.gtime }
    s.record (coreOf h) 1 (localHart h) 0 q.handle

/-! ## The end of a task (R86, R92, R93) -/

/-- The hart's clusters go back; its registers become zero (R59, R63, R96). -/
def State.releaseLease (s : State) (h : Nat) : State :=
  let l := (s.hart h).lease
  if l = 0 then s
  else
    (s.modHart h fun x => { x.zeroVectors with lease := 0 }).modCore (coreOf h) fun c =>
      { c with freed := c.freed ||| l }

/-- A group waits in cycle `cyc`: no row of it has reached its deadline, whose cycle already makes it READY (R212, R218). -/
def PondGroup.waits (p : PondGroup) (cyc : Nat) : Bool :=
  p.state == .waiting && p.rows.all fun r => decide (cyc < r.deadline)

/-- Rows of hart `h` leave the WAITING groups of its core; a group left empty becomes FREE (R212, R215). -/
def withdraw (h cyc : Nat) : List (Option PondGroup) → List (Option PondGroup) × List Row
  | [] => ([], [])
  | g :: gs =>
    let rest := withdraw h cyc gs
    match g with
    | none => (none :: rest.1, rest.2)
    | some p =>
      if p.waits cyc then
        let keep := p.rows.filter fun r => r.hart != h
        let gone := p.rows.filter fun r => r.hart == h
        ((if keep.isEmpty then none else some { p with rows := keep }) :: rest.1, gone ++ rest.2)
      else (some p :: rest.1, rest.2)

/-- Withdraws the hart's rows, and gives them in millpond order. -/
def State.withdrawRows (s : State) (h : Nat) : State × List Row :=
  let c := coreOf h
  let r := withdraw h (s.core c).cycle (s.core c).pond
  (s.modCore c fun x => { x with pond := r.1 }, r.2)

/-- A landing tag is discarded: at once when its transfer is complete, else at its completion (R72). -/
def discardTag : Option LandTag → Option LandTag
  | none => none
  | some t => if t.done then none else some { t with discard := true }

/-- AHEAD-mode slots of a cancelled task depart without a handler (R92). -/
def cancelSlots (h : Nat) (l : List (Option Slot)) : List (Option Slot) :=
  l.map fun t => t.map fun u => if u.hart = h && u.mark.ahead then { u with reclaim := true, cancelled := true } else u

/-- A skipped decrement or a discard is logged; else one atomic step with wrap (R86 step 6). -/
def State.joinDec (s : State) (h : Nat) (t : Task) : State :=
  if t.rc.joinctr = 0 then s
  else match s.translate { s.ctx h with priv := .user } .store t.rc.joinctr with
    | (s, .fault _) => s.logDiscard (dieOf h) (s.hart h).prio t.rc.joinctr
    | (s, .ok pa _) =>
      if poisoned s.bad pa 8 || s.inPackObject pa 8 then s.logDiscard (dieOf h) (s.hart h).prio t.rc.joinctr
      else if s.writeHeld pa 8 || s.inFlight (coreOf h) pa 8 then s.await pa 8
      else (s.atomicAt (coreOf h) (.phys pa) 8 (.amo .add) (2 ^ 64 - 1)).2.2

/-- The hart holds no task context any more and is idle at user privilege: the bank goes back, SIE := SPIE where the
hart was in a trap (R262, R263, R348). -/
def Hart.goIdle (x : Hart) : Hart :=
  let y := if x.swapped then x.swapBank else x
  let st := if x.priv = .sup then setField y.sstatus 1 1 (field y.sstatus 5 1) else y.sstatus
  { y with sstatus := st, priv := .user, task := none, wait := none, stop := .none, chain := false, pend := []
           brkAfter := none }

/-- The run of the current hart `k` ends (R104). -/
def IssueHist.leave (x : IssueHist) (k : Nat) : IssueHist :=
  if x.cur = some k then { x with cur := none, run := 0, yielded := false, excluded := some k } else x

/-- How a task ends. -/
inductive TaskEnd
  | tend
  | cancel
  | fault (arg1 : Word)
  deriving DecidableEq, Repr

/-- The pack of a member whose task ends (R92, R250, R251). -/
def State.endPack (s : State) (h : Nat) (code : BitVec 32) : State :=
  match (s.hart h).pack with
  | none => s
  | some m =>
    ((s.abortPack m.obj code).packLeave m.obj h).modHart h fun x =>
      { x with pack := none, tents := [], elems := x.elems.filter fun e => e.pack.isNone }

/-- The task of hart `h` ends, with the items of R86 steps 3 to 8, R92 and R93. A launch's handler is pushed before the
task leaves the launch's count (log 16). -/
def State.endTask (s : State) (h : Nat) (how : TaskEnd) : State :=
  match (s.hart h).task with
  | none => s.modHart h Hart.goIdle
  | some t =>
    let part := s.partOf h
    let d := dieOf h
    let x := { s.ctx h with priv := .user }
    let s := match how with
      | .tend => s
      | .cancel => s.endPack h 4
      | .fault _ => s.endPack h 5
    let s := s.modHart h Hart.flushQueue
    let s := match s.withdrawRows h with
      | (s, rows) => (rows ++ (s.hart h).saved).foldl (fun (u : State) (r : Row) => u.complete h 1 r.num) s
    let s := s.modHart h fun y => if how = .cancel then y.endRecording 5 else y
    let s := s.modHart h fun y => { y with streams := [], landing := y.landing.map discardTag, saved := []
                                           aheads := y.aheads.map fun a => { a with exited := true }
                                           mark := if y.mark.state = .recording then Mark.reset else y.mark }
    let s := s.modDie d fun y => { y with slots := cancelSlots h y.slots }
    let s := (s.leaveWaits h).releaseLease h
    let s := match how with
      | .fault a => s.faultHandler x d part t.rc.launch t.handle a
      | _ => s
    let s := (s.hart h).pend.foldl (fun (u : State) _ => u.faultHandler x d part t.rc.launch t.handle 0) s
    let s := if how = .tend || t.rc.joinAlways then s.joinDec h t else s
    let s := if t.rc.launch = 0 then s else (s.levelDec x false part levelFuel t.rc.launch).1
    let s := s.record (coreOf h) 1 (localHart h) 1 t.handle
    ((s.modHart h Hart.goIdle).modCore (coreOf h) fun c => { c with hist := c.hist.leave (localHart h) }).happen

end Sys2Proof.Machine
end

