-- ==== Sys2Proof/Machine/Control.lean ====
section
/-! DEFINITION. The control register spaces of the dies (R161, R264, R274 to R276, R376) and the queue scheduler (R281,
R282). -/

namespace Sys2Proof.Machine

/-! ## Landing (R71, R72, R216) -/

/-- An engine writes the data of command `num` into landing tag `tag` of hart `h` (R72). A tag freed since then, or taken
by another command, receives nothing. -/
def State.landed (s : State) (h tag num : Nat) (data : List Byte) (err : Bool) : State :=
  let x := s.hart h
  match getAt none x.landing tag with
  | none => s
  | some t =>
    if t.num ≠ num then s
    else s.setHart h { x with landing := putAt none x.landing tag (some { t with data := data, came := true, err := err }) }

/-- The transfer into a landing tag is complete: a discarded tag is freed; an error is held for the next boundary as well
as for VCOMMIT (R72, R216, R378). -/
def State.landingDone (s : State) (h tag : Nat) : Option State :=
  let x := s.hart h
  match getAt none x.landing tag with
  | none => none
  | some t =>
    if !t.came || t.done then none
    else if t.discard then some (s.setHart h { x with landing := putAt none x.landing tag none })
    else
      let x := { x with landing := putAt none x.landing tag (some { t with done := true }) }
      some (s.setHart h (if t.err then
          { x with pend := x.pend ++ [{ cause := 6, stval := 0, destKind := 5, destReg := tag }] }
        else x))

/-- A collective of a die ends: its landing tag is filled and its tl3 number completes (R378). -/
def State.endCollective (s : State) (d : Nat) (c : Collective) (data : List Byte) (err : Bool) : State :=
  let s := s.modDie d fun x => { x with colls := x.colls.filter fun y => !(y.hart == c.hart && y.num == c.num) }
  (s.landed c.hart c.tag c.num data err).complete c.hart 3 c.num

/-! ## Writes of the registers -/

/-- A word with only some bits kept. -/
def keep (mask : Nat) (v : Word) : Word := v &&& BitVec.ofNat 64 mask

/-- The sampling period in cycles of a TRCTL value; none for SAMP = 0 (R161). -/
def samplePeriod (ctl : Word) : Option Nat := if field ctl 12 4 = 0 then none else some (2 ^ (field ctl 12 4 + 8))

/-- A cycle is due a SAMPLE record: it is a multiple of the period (R161, R162). DESIGN CHOICE (log 68): the phase. -/
def sampleAt (ctl : Word) (cyc : Nat) : Bool := match samplePeriod ctl with
  | some n => cyc % n == 0
  | none => false

/-- TRCTL: EN, WRAP, SAMP and KINDS. A write that clears EN takes effect once the records already produced, those due in this
cycle among them, have been performed (R161). -/
def State.writeTrctl (s : State) (c : Nat) (v : Word) : State :=
  let w := keep 0xFFF003 v
  if wbit w 0 || !wbit (s.core c).trace.ctl 0 then
    s.modCore c fun x => { x with trace := { x.trace with ctl := w, closing := none } }
  else (s.modCore c fun x => { x with trace := { x.trace with closing := some w } }).closeTrace c

/-- TRSIZE holds a power of two from 4,096 to 2^32 (R161). -/
def trsizeOk (v : Word) : Bool := (List.range 21).any fun k => v.toNat == 2 ^ (12 + k)

/-- A trace register (R161). A TRSIZE that is no permitted size is ignored (log 17). -/
def State.writeTrace (s : State) (c r : Nat) (v : Word) : State :=
  if r = 0 then s.writeTrctl c v
  else s.modCore c fun x =>
    if r = 1 then { x with trace := { x.trace with base := keep 0xFFFFFFFFFFF000 v } }
    else if r = 2 && trsizeOk v then { x with trace := { x.trace with size := v } }
    else x

/-- A pre-emption request: cause 10 becomes pending (R264). -/
def State.requestPreempt (s : State) (h : Nat) : State :=
  (s.modHart h fun x =>
    if x.asyncs.any (fun a => a.1 == 10) then x else { x with asyncs := x.asyncs ++ [(10, 0)] }).happen

/-- A write of PARTCORE waits for the core to be idle (R275). -/
def State.writePartcore (s : State) (c : Nat) (v : Word) : State :=
  (s.modCore c fun x => { x with partPending := some (keep 0x10F v) }).happen

/-- The core holds no task context, its millpond is empty and its array idle (R275). -/
def State.coreIdle (s : State) (c : Nat) : Bool :=
  ((List.range 8).all fun h => (s.hart (8 * c + h)).task.isNone) &&
  ((s.core c).pond.all fun g => g.isNone) && (s.core c).arr.streaming.isNone && (s.core c).arr.flight.isEmpty

/-- A pending write of PARTCORE takes effect: the binding table clears (R174, R275); lines return to slot 0. -/
def State.changePartition (s : State) (c : Nat) : State :=
  match (s.core c).partPending with
  | none => s
  | some v =>
    (s.modCore c fun x =>
      { x with part := field v 0 4, assigned := wbit v 8, partPending := none, binds := []
               l1 := x.l1.map fun w => { w with slot := 0 } }).happen

/-- QRING: written only while the level is empty; sizes 1 to 9 and 25 to 31 are ignored (R275). -/
def State.writeQring (s : State) (d part level : Nat) (size : Bool) (v : Word) : State :=
  s.modDie d fun x =>
    let l := x.level part level
    if !l.recs.isEmpty then x
    else if size then
      let n := field v 0 5
      if n = 0 || (decide (10 ≤ n) && decide (n ≤ 24)) then x.setLevel part level { l with log := n, first := 0 } else x
    else x.setLevel part level { l with base := v, first := 0 }

/-- A word of the window table (R275). -/
def State.writeWindow (s : State) (c e r : Nat) (v : Word) : State :=
  s.modCore c fun x =>
    let w := getAt { launch := 0, ext := 0, valid := false } x.windows e
    let w' : Window := if r = 0 then { w with launch := v } else if r = 1 then { w with ext := v }
      else { w with valid := wbit v 0 }
    { x with windows := putAt { launch := 0, ext := 0, valid := false } x.windows e w' }

/-- THCTL: FLOOR and LEADER (R275). -/
def State.writeThctl (s : State) (d : Nat) (v : Word) : State := s.modDie d fun x => { x with thctl := keep 0x10F v }
/-- WDCTL: LIMIT (R275). -/
def State.writeWdctl (s : State) (d : Nat) (v : Word) : State :=
  s.modDie d fun x => { x with wdctl := keep 0xFFFFFFFF v }
/-- ERRTAIL: records consumed (R276). -/
def State.writeErrtail (s : State) (d : Nat) (v : Word) : State := s.modDie d fun x => { x with errTail := v.toNat }
/-- XGTIMEOUT (R376). -/
def State.writeXgtimeout (s : State) (d : Nat) (v : Word) : State := s.modDie d fun x => { x with xgtimeout := v }

/-- XGCTL: clears XGSEQ and ends every collective in progress with an error (R376). -/
def State.writeXgctl (s : State) (d : Nat) (v : Word) : State :=
  let s := (s.die d).colls.foldl (fun (t : State) c => t.endCollective d c [] true) s
  (s.modDie d fun x => { x with xgctl := keep 0x3FF03FF0F01 v, xgseq := 0 }).happen

/-- MRRECLAIM: each named slot departs at its next iteration boundary (R228, R275). -/
def reclaimSlots (mask : Nat) : Nat → List (Option Slot) → List (Option Slot)
  | _, [] => []
  | k, t :: ts =>
    (if mask / 2 ^ k % 2 = 1 then t.map (fun u => { u with reclaim := true }) else t) :: reclaimSlots mask (k + 1) ts

/-- A write of MRRECLAIM. -/
def State.writeMrreclaim (s : State) (d : Nat) (v : Word) : State :=
  (s.modDie d fun x => { x with slots := reclaimSlots (field v 0 8) 0 x.slots }).happen

/-- QSUBMIT: the record is checked and pushed with its physical address as handle (R81, R275). A closed launch reads as
INVALID, the register having no other code (log 18). -/
def State.submit (s : State) (d : Nat) (v : Word) : State :=
  let pa := 64 * field v 6 50
  let part := field v 0 4
  let put := fun (t : State) (n : Nat) => t.modDie d fun x => { x with qsubmit := n }
  if !paValid pa || poisoned s.bad pa 64 then put s 2
  else
    let s := s.lookAt pa 64
    let r := TaskRec.ofBytes (s.homeBytes pa 64)
    let x := s.partCtx part
    match s.checkRec x r part with
    | (s, .ok) =>
      if s.levelFull d part r then put s 1
      else
        let s := if r.launch = 0 then s else s.levelAdd x r.launch 1
        put (s.push d part (s.qrec d r (BitVec.ofNat 64 pa) none none)) 0
    | (s, _) => put s 2

/-! ## The queue scheduler (R281, R282) -/

/-- The physical address of a mapped queue's descriptor on a die. -/
def Die.queue (x : Die) (q : Nat) : Option Nat := (x.qmap.find? fun e => e.1 == q).map fun e => 64 * field e.2 6 50

/-- The push of one continuation record of a launch (R282 steps 2, 3). `rest`: an earlier record of the launch is held. -/
def State.launchOne (s : State) (d part : Nat) (level addr : Word) : State :=
  let x := s.partCtx part
  match (if addr.toNat % 64 = 0 then s.agentRead x addr 64 else (s, .fault 3)) with
  | (s, .fault _) => ((s.levelDec x false part levelFuel level).1).logDiscard d 0 addr
  | (s, .ok bs) =>
    let r := { TaskRec.ofBytes bs with launch := level }
    match s.checkRec x r part with
    | (s, .invalid) => ((s.levelDec x false part levelFuel level).1).logDiscard d r.prio.toNat addr
    | (s, _) =>
      let p : HeldPush := { rc := r, handle := addr, part := part, donecont := false, handler := none, after := .nothing }
      if (s.die d).held.any (fun y => !y.donecont && y.rc.launch == level) then
        s.modDie d fun y => { y with held := y.held ++ [p] }
      else s.pushOrHold d p

/-- The continuation records of a launch, from number `i` on. -/
def State.launchRecs (s : State) (d part : Nat) (level recs : Word) (i : Nat) : Nat → State
  | 0 => s
  | n + 1 => State.launchRecs (s.launchOne d part level (recs + BitVec.ofNat 64 (64 * i))) d part level recs (i + 1) n

/-- Processes one launch record (R282). A level record that does not translate is logged and the launch dropped
(log 19). -/
def State.launch (s : State) (d part : Nat) (bs : List Byte) : State :=
  let level := leW bs 0
  let parent := leW bs 8
  let count := le bs 48 4
  let x := s.partCtx part
  match (if level.toNat % 64 = 0 then s.translate x .store level else (s, .fault 3)) with
  | (s, .fault _) => s.logDiscard d 0 level
  | (s, .ok pa _) =>
    let s := s.agentWrite (some (.sched d)) pa
      (leBytes 8 count ++ leBytes 1 0 ++ leBytes 1 0 ++ leBytes 1 1 ++ leBytes 1 (128 + part) ++ leBytes 4 0 ++
       leBytes 8 parent.toNat ++ leBytes 8 (le bs 16 8) ++ leBytes 8 (le bs 24 8) ++ leBytes 8 (le bs 32 8) ++
       leBytes 8 0 ++ leBytes 8 0)
    let s := if parent = 0 then s else s.levelJoin x parent part 1
    if count = 0 then (((s.levelAdd x level 1).levelDec x false part levelFuel level).1).happen
    else s.launchRecs d part level (leW bs 40) 0 count

/-- Processes records `from` to TAIL − 1 of a queue: `n` of them, writing HEAD after each (R281). -/
def State.drainQueue (s : State) (d desc : Nat) : Nat → State
  | 0 => s
  | n + 1 =>
    let ring := leNat (s.homeBytes desc 8)
    let size := leNat (s.homeBytes (desc + 8) 4)
    let pasid := leNat (s.homeBytes (desc + 12) 4) % 2 ^ 20
    let head := leNat (s.homeBytes (desc + 16) 8)
    let bs := s.homeBytes (ring + 64 * (head % size)) 64
    let s := (s.lookAt desc 32).lookAt (ring + 64 * (head % size)) 64
    let s := s.launch d (Config.pasidPartition pasid).toNat bs
    State.drainQueue (s.agentWrite (some (.sched d)) (desc + 16) (leBytes 8 (head + 1))) d desc n

/-- Processes every record from HEAD to TAIL − 1 (R281). -/
def State.processQueue (s : State) (d desc : Nat) : State :=
  (s.lookAt desc 32).drainQueue d desc
    ((leNat (s.homeBytes (desc + 24) 8) + 2 ^ 64 - leNat (s.homeBytes (desc + 16) 8)) % 2 ^ 64)

/-- Maps a queue: the scheduler reads the descriptor, clears PENDING and processes the records (R281). -/
def State.mapQueue (s : State) (d q : Nat) (v : Word) : State :=
  let v := keep 0xFFFFFFFFFFFFC1 v
  let desc := 64 * field v 6 50
  let s := { s.modDie d fun x => { x with qmap := (q, v) :: x.qmap.filter fun e => e.1 != q } with
    descs := (q, desc) :: s.descs.filter fun e => e.1 != q }
  ((s.agentWrite (some (.sched d)) (desc + 32) [0]).processQueue d desc).happen

/-- The descriptor of a queue, as its last mapping named it (R281). -/
def State.queueDesc (s : State) (q : Nat) : Option Nat := (s.descs.find? fun e => e.1 == q).map fun e => e.2

/-- Unmaps a queue; its descriptor address stays known for later notifies (R281). A notify that has landed in the same cycle
counts as landing on the unmapped queue: PENDING is set and nothing is processed (R281, R292). -/
def State.unmapQueue (s : State) (d q : Nat) (v : Word) : State :=
  let late := s.notified.contains (q, d)
  let s := { s.modDie d fun x => { x with qmap := (q, keep 0xFFFFFFFFFFFFC0 v) :: x.qmap.filter fun e => e.1 != q } with
    notified := s.notified.filter fun n => n != (q, d) }
  (match s.queueDesc q with
    | some desc => if late then s.hostPut (desc + 32) [1] else s
    | none => s).happen

/-- QMAP (R275). -/
def State.writeQmap (s : State) (d q : Nat) (v : Word) : State :=
  if wbit v 0 then s.mapQueue d q v else s.unmapQueue d q v

/-! ## Register access by offset (R274) -/

/-- Which register an offset names. -/
inductive CReg
  | trace (core r : Nat)
  | preempt (h : Nat)
  | err (n w : Nat)
  | errhead
  | errtail
  | errlost
  | xgctl
  | xgtimeout
  | xgseq
  | partcore (core : Nat)
  | qring (part level : Nat) (size : Bool)
  | window (core e r : Nat)
  | qmap (q : Nat)
  | qsubmit
  | thctl
  | mrreclaim
  | wdctl
  | none
  deriving DecidableEq, Repr

/-- The register at an offset of die d's space (R161, R264, R275, R276, R376). -/
def cregOf (d off : Nat) : CReg :=
  let w := off / 8
  if off % 8 ≠ 0 then .none
  else if 0x400000 ≤ off ∧ off < 0x400400 then .trace (32 * d + (w - 0x80000) / 4) (w % 4)
  else if 0x480000 ≤ off ∧ off < 0x480800 then .preempt (256 * d + (w - 0x90000))
  else if 0x500000 ≤ off ∧ off < 0x520000 then .err ((w - 0xA0000) / 4) (w % 4)
  else if off = 0x520000 then .errhead
  else if off = 0x520008 then .errtail
  else if off = 0x520010 then .errlost
  else if off = 0x580000 then .xgctl
  else if off = 0x580008 then .xgtimeout
  else if off = 0x580010 then .xgseq
  else if 0x600000 ≤ off ∧ off < 0x600100 then .partcore (32 * d + (w - 0xC0000))
  else if 0x601000 ≤ off ∧ off < 0x601800 then
    .qring ((w - 0xC0200) / 16) ((w - 0xC0200) / 2 % 8) (w % 2 == 1)
  else if 0x610000 ≤ off ∧ off < 0x614000 then
    let k := (w - 0xC2000)
    if k % 4 = 3 then .none else .window (32 * d + k / 64) (k / 4 % 16) (k % 4)
  else if 0x620000 ≤ off ∧ off < 0x628000 then .qmap (w - 0xC4000)
  else if off = 0x630000 then .qsubmit
  else if off = 0x630008 then .thctl
  else if off = 0x630010 then .mrreclaim
  else if off = 0x630018 then .wdctl
  else .none

/-- Performs a write of a register; writes of read-only and unlisted offsets are ignored (R275). -/
def State.writeCreg (s : State) (d : Nat) (r : CReg) (v : Word) : State :=
  match r with
  | .trace c k => s.writeTrace c k v
  | .preempt h => s.requestPreempt h
  | .err _ _ | .errhead | .errlost | .xgseq | .none => s
  | .errtail => s.writeErrtail d v
  | .xgctl => s.writeXgctl d v
  | .xgtimeout => s.writeXgtimeout d v
  | .partcore c => s.writePartcore c v
  | .qring p l z => s.writeQring d p l z v
  | .window c e k => s.writeWindow c e k v
  | .qmap q => s.writeQmap d q v
  | .qsubmit => s.submit d v
  | .thctl => s.writeThctl d v
  | .mrreclaim => s.writeMrreclaim d v
  | .wdctl => s.writeWdctl d v

/-- A word of an error record (R276). -/
def ErrRec.word (r : ErrRec) (w : Nat) : Word :=
  if w = 0 then BitVec.ofNat 64 r.time
  else if w = 1 then
    BitVec.ofNat 64 (r.kind + 2 ^ 8 * r.severity + 2 ^ 16 * r.core + 2 ^ 24 * r.hart + 2 ^ 32 * r.unit)
  else if w = 2 then r.addr else r.syndrome

/-- The record that stands at ring place `n`: the newest one whose number is n mod 4,096. -/
def Die.errAt (x : Die) (n : Nat) : Option ErrRec :=
  let first := x.errHead - x.errs.length
  let i := (n + 4096 - first % 4096) % 4096
  if i < x.errs.length then x.errs[i]? else none

/-- Reads a register (R161, R275, R276, R376). -/
def State.readCreg (s : State) (d : Nat) (r : CReg) : Word :=
  let x := s.die d
  match r with
  | .trace c k =>
    let t := (s.core c).trace
    if k = 0 then t.ctl else if k = 1 then t.base else if k = 2 then t.size else BitVec.ofNat 64 (s.traceHead c)
  | .err n w => match x.errAt n with
    | some e => e.word w
    | none => 0
  | .errhead => BitVec.ofNat 64 x.errHead
  | .errtail => BitVec.ofNat 64 x.errTail
  | .errlost => BitVec.ofNat 64 x.errLost
  | .xgctl => x.xgctl
  | .xgtimeout => x.xgtimeout
  | .xgseq => BitVec.ofNat 64 x.xgseq
  | .partcore c =>
    let y := s.core c
    BitVec.ofNat 64 (y.part + 256 * b2n y.assigned + 512 * b2n y.partPending.isSome)
  | .qring p l z => if z then BitVec.ofNat 64 (x.level p l).log else (x.level p l).base
  | .window c e k =>
    let w := getAt { launch := 0, ext := 0, valid := false } (s.core c).windows e
    if k = 0 then w.launch else if k = 1 then w.ext else BitVec.ofNat 64 (b2n w.valid)
  | .qmap q => match x.qmap.find? fun e => e.1 == q with
    | some e => e.2
    | none => 0
  | .qsubmit => BitVec.ofNat 64 x.qsubmit
  | .thctl => x.thctl
  | .wdctl => x.wdctl
  | .preempt _ | .mrreclaim | .none => 0

/-- A control-core store to the register window (R274). -/
def State.ctrlStore (s : State) (a : Nat) (v : Word) : State :=
  let o := a - Config.ctrlBase
  s.writeCreg (o / 2 ^ 24) (cregOf (o / 2 ^ 24) (o % 2 ^ 24)) v

/-- A control-core load from the register window (R274). -/
def State.ctrlLoad (s : State) (a : Nat) : Word :=
  let o := a - Config.ctrlBase
  s.readCreg (o / 2 ^ 24) (cregOf (o / 2 ^ 24) (o % 2 ^ 24))

end Sys2Proof.Machine
end

