-- ==== Sys2Proof/Machine/LoadStore.lean ====
section
/-! DEFINITION. The ordering machine (R166 to R170, R184 to R187): store buffer, L1, drain, register, evict; scalar loads
and stores in every space (R303, R326, R347); member accesses (R245) and host bias (R277). -/

namespace Sys2Proof.Machine

/-! ## Members -/

/-- The object of the pack of which the hart's own accesses are member accesses (R245, R247). -/
def Hart.member (x : Hart) : Option Nat := match x.pack with
  | some m => if m.trapped then none else some m.obj
  | none => none

/-- A page that a member may reach: tracked, in device memory (R245). -/
def memberPage (pa : Nat) (pbmt : BitVec 2) : Bool := pbmt == 0 && decide (pa < Config.deviceBytes)

/-! ## Store buffer forwarding (R168) -/

/-- The youngest buffered byte at a physical address. -/
def sbByte (l : List SbEntry) (pa : Nat) : Option Byte :=
  l.foldl (fun r e => if decide (e.pa ≤ pa) && decide (pa < e.pa + e.data.length) then
    some (getAt 0 e.data (pa - e.pa)) else r) none

/-- What the store buffer says about [pa, pa + n). -/
inductive Forward
  | all (bs : List Byte)
  | part
  | none
  deriving DecidableEq, Repr

/-- Bytes [pa, pa + n) of the buffer. -/
def sbBytes (l : List SbEntry) (pa : Nat) : Nat → List (Option Byte)
  | 0 => []
  | n + 1 => sbByte l pa :: sbBytes l (pa + 1) n

/-- Forwarding: every byte, some, or none. -/
def forward (l : List SbEntry) (pa n : Nat) : Forward :=
  let bs := sbBytes l pa n
  if bs.all fun b => b.isSome then .all (bs.map fun b => b.getD 0)
  else if bs.all fun b => b.isNone then .none else .part

/-! ## L1 (R166, R168, R187) -/

/-- A byte of an L1 word. -/
def wordByte (v : W32) (i : Nat) : Byte := v.extractLsb' (8 * i) 8

/-- Every word of the range is Valid or Registered in L1. -/
def Core.l1has (c : Core) (pa n : Nat) : Bool := (wordsOf pa n).all fun w => (c.l1get w).isSome

/-- A registration of the core is on its way that writes the word whole, which clears its poison (R199). -/
def State.wholeReg (s : State) (c w : Nat) : Bool := s.regs.any fun r => r.core == c && r.mask == 15 && r.words.contains w

/-- A read by the core meets poison: in a word that it lacks, or that it holds Registered and has merged into a poisoned one
(R199). -/
def State.l1Bad (s : State) (c pa n : Nat) : Bool := (wordsOf pa n).any fun w => s.bad.contains w && (match (s.core c).l1get w with
  | some x => x.owned && !s.wholeReg c w
  | none => true)

/-- A byte as the core's L1 gives it; a word it lacks reads from the home. -/
def State.l1Byte (s : State) (c pa : Nat) : Byte := match (s.core c).l1get (pa / 4) with
  | some x => wordByte x.val (pa % 4)
  | none => s.homeByte pa

/-- Bytes as the core reads them. -/
def State.l1Bytes (s : State) (c pa : Nat) : Nat → List Byte
  | 0 => []
  | n + 1 => s.l1Byte c pa :: s.l1Bytes c (pa + 1) n

/-- The untracked line of a core. -/
def Core.uline (c : Core) (line : Nat) : Option ULine := c.ul1.find? fun u => u.line == line

/-- The dirty bytes of word `k` of an untracked line go to memory; a word that a store has covered whole loses its poison there
(R199). -/
def ULine.cleanWord (u : ULine) (s : State) (k : Nat) : State :=
  if u.whole.getLsbD k then s.devPut (64 * u.line + 4 * k) ((u.data.drop (4 * k)).take 4)
  else (List.range 4).foldl (fun (t : State) i =>
    if u.dirty.getLsbD (4 * k + i) then t.devPut (64 * u.line + 4 * k + i) [getAt 0 u.data (4 * k + i)] else t) s

/-- The dirty bytes of an untracked line go to memory (R187, R190). -/
def State.cleanLine (s : State) (c line : Nat) : State := match (s.core c).uline line with
  | none => s
  | some u =>
    let s := (List.range 16).foldl u.cleanWord s
    (s.modCore c fun x => { x with ul1 := x.ul1.map fun v => if v.line = line then { v with dirty := 0, whole := 0 } else v }).happen

/-- The untracked line leaves L1. -/
def State.dropLine (s : State) (c line : Nat) : State :=
  s.modCore c fun x => { x with ul1 := x.ul1.filter fun v => v.line != line }

/-! ## Evict and room in L1 (R11, R168, R187) -/

/-- An L1 word leaves: a Registered one is written back and deregistered. -/
def State.evictWord (s : State) (c w : Nat) : State :=
  let s := match s.ownerOf w with
    | some (.core d) => if d = c then s.recall w else s
    | _ => s
  s.modCore c fun x => x.l1drop w

/-- The words of a physical line leave the core's L1; a dirty untracked line is written back (R168, R187). Words with a
registration on its way stay. -/
def State.evictLine (s : State) (c line : Nat) : Option State :=
  let ws := ((s.core c).l1.map fun x => x.w).filter fun w => w / 16 == line && !s.inFlight c (4 * w) 4
  let ul := (s.core c).uline line
  if ws.isEmpty && ul.isNone then none
  else
    let s := ws.foldl (fun (t : State) w => t.evictWord c w) s
    some (match ul with
      | some _ => (s.cleanLine c line).dropLine c line
      | none => s)

/-- The lines in a core's L1, the newest first. -/
def Core.lines (c : Core) : List Nat := (c.l1.map (fun (x : L1Word) => x.w / 16) ++ c.ul1.map (fun (u : ULine) => u.line)).eraseDups

/-- The L1 has room for a line: it holds 256 KiB (R11); else the oldest line without a registration on its way is evicted. -/
def State.roomL1 (s : State) (c line : Nat) : State :=
  let x := s.core c
  if x.l1.length + x.ul1.length < Config.l1Lines then s
  else if x.lines.contains line || decide (x.lines.length < Config.l1Lines) then s
  else match x.lines.reverse.find? fun l => !s.inFlight c (64 * l) 64 with
    | some l => (s.evictLine c l).getD s
    | none => s

/-- A miss reads the home for the words it names, and may gather the other words of the line as well (R168, R186); those it
leaves Valid carry the slot of the line (R174, log 20). -/
def State.fill (s : State) (c : Nat) (va : Word) (pa n : Nat) : State :=
  let vline := va.toNat / 64
  let ws := if Config.choice s.fresh then (wordsOf pa n ++ wordsOf (pa / 64 * 64) 64).eraseDups else wordsOf pa n
  let s := { s.roomL1 c (pa / 64) with fresh := s.fresh + 1 }
  ws.foldl (fun (t : State) w =>
    match (t.core c).l1get w with
    | some _ => t
    | none =>
      if t.bad.contains w || t.inFlight c (4 * w) 4 then t
      else
        let v := t.homeWord w
        t.modCore c fun x =>
          x.l1put { w := w, vline := vline, slot := x.slotOf vline, owned := false, val := v, fwd := v }) s

/-- The poisoned words of a line. -/
def State.lineBad (s : State) (line : Nat) : BitVec 16 :=
  (List.range 16).foldl (fun (m : BitVec 16) k => if s.bad.contains (16 * line + k) then m ||| (1#16 <<< k) else m) 0

/-- Fills an untracked line from memory, never forwarded (R187, R190). -/
def State.fillLine (s : State) (c line : Nat) : State := match (s.core c).uline line with
  | some _ => s
  | none =>
    let s := s.roomL1 c line
    s.modCore c fun x =>
      { x with ul1 := { line := line, data := s.mem.readN (64 * line) 64, dirty := 0, bad := s.lineBad line, whole := 0 } :: x.ul1 }

/-- A word of the line that [pa, pa + n) reaches is poisoned. -/
def ULine.poisoned (u : ULine) (pa n : Nat) : Bool := (wordsOf pa n).any fun w => u.bad.getLsbD (w % 16)

/-- Marks `n` bytes dirty from byte `o` of a line. -/
def dirtyBits (o n : Nat) : BitVec 64 := BitVec.ofNat 64 ((2 ^ n - 1) * 2 ^ o)

/-- Writes bytes of a list from place `o`. -/
def putBytes (l : List Byte) (o : Nat) : List Byte → List Byte
  | [] => l
  | b :: bs => putBytes (putAt 0 l o b) (o + 1) bs

/-- The words of a line that `n` bytes from byte `o` cover whole. -/
def wholeWords (o n : Nat) : BitVec 16 :=
  (List.range 16).foldl (fun (m : BitVec 16) k =>
    if decide (o ≤ 4 * k) && decide (4 * k + 4 ≤ o + n) then m ||| (1#16 <<< k) else m) 0

/-- A store to an untracked page writes the line and marks its bytes (R187). -/
def State.storeLine (s : State) (c pa : Nat) (bs : List Byte) : State :=
  (s.fillLine c (pa / 64)).modCore c fun x =>
    { x with ul1 := x.ul1.map fun u => if u.line = pa / 64 then
        { u with data := putBytes u.data (pa % 64) bs, dirty := u.dirty ||| dirtyBits (pa % 64) bs.length
                 bad := u.bad &&& ~~~(wholeWords (pa % 64) bs.length)
                 whole := u.whole ||| wholeWords (pa % 64) bs.length } else u }

/-- Bytes [pa, pa + n) of the core's untracked lines become zero with the memory below them: clean and not poisoned (R200). -/
def Core.zeroLines (c : Core) (pa n : Nat) : Core :=
  { c with ul1 := c.ul1.map fun u =>
      if meet (64 * u.line) 64 pa n then
        let a := max pa (64 * u.line)
        let k := min (pa + n) (64 * u.line + 64) - a
        { u with data := putBytes u.data (a % 64) (List.replicate k 0), dirty := u.dirty &&& ~~~(dirtyBits (a % 64) k)
                 bad := u.bad &&& ~~~(wholeWords (a % 64) k), whole := u.whole &&& ~~~(wholeWords (a % 64) k) }
      else u }

/-! ## Drain and register (R168, R169, R183, R184) -/

/-- The words of a store of whole words. -/
def dataWords : Nat → List Byte → List W32
  | 0, _ => []
  | n + 1, bs => BitVec.ofNat 32 (leNat (bs.take 4)) :: dataWords n (bs.drop 4)

/-- Merges masked bytes into a word. -/
def mergeWord (old new : W32) (mask : BitVec 4) : W32 :=
  let b := fun i => if mask.getLsbD i then wordByte new i else wordByte old i
  b 3 ++ b 2 ++ b 1 ++ b 0

/-- The L1 word becomes Registered with a new value. -/
def Core.own (c : Core) (vline w : Nat) (v : W32) : Core :=
  match c.l1get w with
  | some x => c.l1put { x with owned := true, val := v, fwd := if x.owned then x.fwd else v }
  | none => c.l1put { w := w, vline := vline, slot := c.slotOf vline, owned := true, val := v, fwd := v }

/-- Words `w`, `w + 1`, … become Registered. -/
def Core.ownAll (c : Core) (vline w : Nat) : List W32 → Core
  | [] => c
  | v :: vs => Core.ownAll (c.own vline w v) vline (w + 1) vs

/-- A store instruction's word with its element: what the L1 groups by (R183). -/
abbrev StoreTag := Option (Word × Nat)

/-- The words of one more element of a store instruction lie in the same line and at the range's stride: they join the range
on its way (R183). -/
def Registration.join (r : Registration) (c h w : Nat) (vs : List W32) (tag : StoreTag) : Option Registration :=
  match tag with
  | none => none
  | some (iw, i) =>
    let rows := r.vals.length / r.width
    let up := decide (r.w < w)
    let stride := if rows = 1 then (if up then w - r.w else r.w - w) else r.stride
    if r.vec && r.core == c && r.hart == h && r.iword == iw && decide (r.last < i) && r.mask == 15 && r.arrived.isNone &&
        r.w / 16 == w / 16 && r.width == vs.length && decide (r.width ≤ stride) &&
        decide (if up then r.w + rows * stride = w else w + stride = r.w) then
      some (if up then { r with stride := stride, vals := r.vals ++ vs, last := i }
        else { r with w := w, stride := stride, vals := vs ++ r.vals, last := i })
    else none

/-- Joins words to the youngest registration of core `c`. -/
def joinYoungest (c : Nat) (f : Registration → Option Registration) : List Registration → Option (List Registration)
  | [] => none
  | r :: rs =>
    if rs.any fun q => q.core == c then (joinYoungest c f rs).map (r :: ·)
    else if r.core = c then (f r).map (· :: rs) else none

/-- Adds a registration on its way, or joins it to the core's youngest. Elements narrower than a word travel each with its own
byte mask (R184; DESIGN CHOICE, log 67). -/
def State.queueReg (s : State) (r : Registration) (tag : StoreTag) : State :=
  { s with regs := (joinYoungest r.core (fun q => q.join r.core r.hart r.w r.vals tag) s.regs).getD (s.regs ++ [r]) }

/-- The drain of a store to a tracked page: the L1 word becomes Registered and a registration is sent (R168). A store
narrower than a word travels with its byte mask (R184); where the core holds the word Valid or not at all, the word is
read again once the home has merged the bytes. -/
def State.sendReg (s : State) (h : Nat) (vec : Bool) (tag : StoreTag) (va : Word) (pa : Nat) (bs : List Byte) : State :=
  let c := coreOf h
  let w := pa / 4
  let vline := va.toNat / 64
  let s := s.roomL1 c (pa / 64)
  let iw := (tag.getD (0, 0)).1
  let last := (tag.getD (0, 0)).2
  if bs.length % 4 = 0 then
    let vs := dataWords (bs.length / 4) bs
    let s := s.modCore c fun x => x.ownAll vline w vs
    s.queueReg { core := c, hart := h, vec := vec, w := w, stride := vs.length, width := vs.length, vline := vline, vals := vs
                 mask := 15, iword := iw, last := last, arrived := none } tag
  else
    let v : W32 := BitVec.ofNat 32 (leNat bs * 2 ^ (8 * (pa % 4)))
    let mask : BitVec 4 := BitVec.ofNat 4 ((2 ^ bs.length - 1) * 2 ^ (pa % 4))
    let s := s.modCore c fun x => match x.l1get w with
      | some y => if y.owned then x.l1put { y with val := mergeWord y.val v mask } else x.l1drop w
      | none => x
    s.queueReg { core := c, hart := h, vec := vec, w := w, stride := 1, width := 1, vline := vline, vals := [v], mask := mask
                 iword := iw, last := last, arrived := none } none

/-- A store that bypasses L1 at the home: uncached, or in host bias. Its page must not be held. -/
def bypasses (s : State) (pa : Nat) (pbmt : BitVec 2) : Bool := pbmt == 2 || s.hostBias pa

/-- Requests of a hart that have not been answered: a member's stores on their way, and the load it is switched out for. -/
def Hart.requests (x : Hart) : Nat := x.tents.length + (match x.wait with
  | some w => b2n (w.kind == .load)
  | none => 0)

/-- Requests of a core that have not been answered; it has 2,048 at most (R11). -/
def State.outstanding (s : State) (c : Nat) : Nat :=
  (s.regs.filter fun r => r.core == c).length + (s.atoms.filter fun a => coreOf a.hart == c).length +
  (s.ras.filter fun m => coreOf m.hart == c).length +
  (if c < 128 then ((List.range 8).map fun k => (s.hart (8 * c + k)).requests).sum else (s.hart (1024 + c - 128)).requests)

/-- The core of a hart has a request free (R11). -/
def State.requestFree (s : State) (h : Nat) : Bool := decide (s.outstanding (coreOf h) < Config.maxRequests)

/-- A store of one access can be performed or sent now: its page is in no flip, its core has a request free, and a store that
bypasses L1 meets no hold (R151, R247, R279) and no unanswered snoop. -/
def State.storeReady (s : State) (c pa n : Nat) (pbmt : BitVec 2) : Bool :=
  !s.flipping pa && decide (s.outstanding c < Config.maxRequests) && (!bypasses s pa pbmt ||
    (!s.pageHeld pa && !s.packHolds pa n && !(s.hostBias pa && s.snooping pa)))

/-- A store that meets an uncorrectable error in its drain: it writes nothing, and cause 6 is held for the hart's next boundary
(R347). DESIGN CHOICE (log 68): that it writes nothing. -/
def State.drainError (s : State) (h : Nat) (va : Word) (pa n : Nat) : State :=
  (({ s with drainBad := s.drainBad.filter fun w => !meet (4 * w) 4 pa n } : State).modHart h fun x =>
    { x with pend := x.pend ++ [{ cause := 6, stval := va, destKind := 0, destReg := 0 }] }).happen

/-- A store to the bytes meets an error in its drain. -/
def State.drainFails (s : State) (pa n : Nat) : Bool := s.drainBad.any fun w => meet (4 * w) 4 pa n

/-- Performs or sends a checked store (R168, R187, R277). In host bias the host's copy is snooped first; the result says
whether the store is done. -/
def State.putStore (s : State) (h : Nat) (vec : Bool) (tag : StoreTag) (va : Word) (pa : Nat) (pbmt : BitVec 2)
    (bs : List Byte) : State × Bool :=
  if s.drainFails pa bs.length then (s.drainError h va pa bs.length, true)
  else if s.hostBias pa then
    if s.hostHolds pa then ((s.sendSnoop (pa / 64)).happen, false) else (s.homeWrite none pa bs, true)
  else if pbmt = 2 then (s.homeWrite none pa bs, true)
  else if pbmt = 1 then ((s.storeLine (coreOf h) pa bs).happen, true)
  else ((s.sendReg h vec tag va pa bs).happen, true)

/-- No earlier registration of the same core shares a word (R169). -/
def regFirst (l : List Registration) (k : Nat) (r : Registration) : Bool :=
  (l.take k).all fun q => !(q.core == r.core && r.words.any fun w => q.touches (4 * w) 4)

/-- The home holds the registration (R152, R247, R279). -/
def State.regHeld (s : State) (r : Registration) : Bool :=
  s.pageHeld (4 * r.w) || s.hostWaits (4 * r.w) 4 || r.words.any fun w => s.packHolds (4 * w) 4

/-- One word of a registration is recorded: the value, the previous owner's demotion, the poison (R168, R184, R199). The bytes
of a narrower store are merged with the word that the home recalls from another owner (R184). -/
def State.recordWord (s : State) (r : Registration) (later : List Registration) (i : Nat) : State :=
  let w := r.word i
  let v := getAt 0 r.vals i
  let full := r.mask == 15
  let other := match s.ownerOf w with
    | some (.core c) => c != r.core
    | some _ => true
    | none => false
  let s := if !full && other then s.recall w else s
  let new := if full then v else mergeWord (s.homeWord w) v r.mask
  let s := match s.ownerOf w with
    | some (.core c) => if c = r.core then s else s.demote c w
    | _ => s
  let s := if full then { s with bad := clearWords s.bad (4 * w) 4 } else s
  let s := s.leaveTable w
  let keepVal := later.any fun q => q.core == r.core && q.touches (4 * w) 4
  s.modCore r.core fun x => match x.l1get w with
    | some y => x.l1put { y with owned := true, val := if keepVal then y.val else new, fwd := new }
    | none => x.l1put { w := w, vline := r.vline, slot := x.slotOf r.vline, owned := true, val := new, fwd := new }

/-- The range of a registration. -/
def Registration.range (r : Registration) : RangeEntry :=
  { base := r.w, stride := r.stride, count := r.vals.length / r.width, width := r.width, owner := .core r.core }

/-- A registration is performed at its home: recorded and acknowledged. In host bias nothing registers (R277). -/
def State.recordReg (s : State) (r : Registration) (later : List Registration) : State :=
  let s := s.roomL1 r.core (r.w / 16)
  let s := (List.range r.vals.length).foldl (fun (t : State) i => t.recordWord r later i) s
  let s := s.enterRange r.range
  let s := if s.hostBias (4 * r.w) then
      (r.words.foldl State.recall s).modCore r.core fun x => r.words.foldl Core.l1drop x
    else s
  r.words.foldl (fun (t : State) w => t.noteWrite none (4 * w) 4) s

/-- Registration `k` leaves the fabric and is recorded. -/
def State.performReg (s : State) (k : Nat) (r : Registration) : State :=
  let later := s.regs.drop (k + 1)
  (({ s with regs := s.regs.eraseIdx k }).recordReg r later).happen

/-- A posted atomic of the hart is on its way to the bytes (R303). -/
def State.postedTo (s : State) (h pa n : Nat) : Bool :=
  s.atoms.any fun a => a.hart == h && (match a.place with
    | .phys q => meet q a.bytes pa n
    | .aspace _ _ => false)

/-- An element access to an uncached page. -/
def Elem.uncached (e : Elem) : Bool := match e.place with
  | .g _ m => m == 2
  | _ => false

/-- An uncached atomic of the hart is on its way (R187). -/
def State.atomUncached (s : State) (h : Nat) : Bool := s.atoms.any fun a => a.hart == h && a.pbmt == 2

/-- An uncached element of the hart's vector instructions is still to be performed (R187). -/
def Hart.elemUncached (x : Hart) : Bool := x.elems.any Elem.uncached || (match x.run with
  | some ru => ru.outs.any Elem.uncached
  | none => false)

/-! ## Scalar loads (R168, R245, R303, R326) -/

/-- What a load of G-space comes to. -/
inductive LdRes
  | val (s : State) (bs : List Byte)
  | wait (s : State)
  | miss (s : State)
  | fault (s : State) (cause : Nat)
  deriving DecidableEq, Repr

/-- A word the member reads is poisoned and not covered by the pack's own stores (R199, R245). -/
def State.memberPoison (s : State) (obj pa n : Nat) : Bool :=
  (wordsOf pa n).any fun w => s.bad.contains w && (match s.pack? obj with
    | some p => (List.range 4).any fun i => (p.tentAt (4 * w + i)).isNone
    | none => true)

/-- The core keeps no Valid copy of words that it has read at their home: a later read returns no earlier value (R169). -/
def State.dropValid (s : State) (c pa n : Nat) : State :=
  s.modCore c fun x => { x with l1 := x.l1.filter fun w => w.owned || !meet (4 * w.w) 4 pa n }

/-- A member's load: at the home, with a read-set mark (R245). An access whose pack aborts does not take place; the hart
waits for its restore. -/
def State.loadMember (s : State) (h : Nat) (obj : Nat) (arrived : Bool) (pa n : Nat) (pbmt : BitVec 2) : LdRes :=
  if !memberPage pa pbmt then .fault s 5
  else if ((s.hart h).tents.any fun t => meet t.pa t.data.length pa n) || s.flipping pa || s.heldStore pa n then .wait s
  else if s.hostBias pa && s.hostHolds pa then .wait (s.sendSnoop (pa / 64))
  else if !arrived then .miss s
  else if s.memberPoison obj pa n then .fault s 7
  else match s.memberAccess obj pa n none with
    | .done t old => .val (t.dropValid (coreOf h) pa n) old
    | .aborted t => .wait t

/-- A load that bypasses L1 (R187, R277): in program order, at the home or the memory-side slice. -/
def State.loadHome (s : State) (h : Nat) (arrived : Bool) (pa n : Nat) (pbmt : BitVec 2) : LdRes :=
  if !(s.hart h).sbuf.isEmpty || (pbmt == 2 && (s.atomUncached h || (s.hart h).elemUncached)) then .wait s
  else if s.hostBias pa && s.hostHolds pa then .wait (s.sendSnoop (pa / 64))
  else if !arrived then .miss s
  else if poisoned s.bad pa n then .fault s 7
  else .val s (s.homeBytes pa n)

/-- A load of a tracked or untracked page: forwarding, a hit, or a miss (R168, R187). -/
def State.loadCached (s : State) (h : Nat) (arrived : Bool) (va : Word) (pa n : Nat) (pbmt : BitVec 2) : LdRes :=
  let c := coreOf h
  match forward (s.hart h).sbuf pa n with
  | .all bs => .val s bs
  | .part => .wait s
  | .none =>
    if pbmt = 1 then
      match (s.core c).uline (pa / 64) with
      | some u => if u.poisoned pa n then .fault s 7 else .val s ((u.data.drop (pa % 64)).take n)
      | none =>
        if !arrived then .miss s
        else if poisoned s.bad pa n then .fault s 7
        else
          let s := s.fillLine c (pa / 64)
          .val s (s.mem.readN pa n)
    else if (s.core c).l1has pa n then (if s.l1Bad c pa n then .fault s 7 else .val s (s.l1Bytes c pa n))
    else if s.inFlight c pa n then .wait s
    else if !arrived then .miss s
    else if s.l1Bad c pa n then .fault s 7
    else
      let bs := s.l1Bytes c pa n
      .val (s.fill c va pa n) bs

/-- A translated scalar load of G-space. `arrived`: the data of its miss arrives now (R99). -/
def State.loadG (s : State) (h : Nat) (arrived : Bool) (va : Word) (pa n : Nat) (pbmt : BitVec 2) : LdRes :=
  match (s.hart h).member with
  | some m => s.loadMember h m arrived pa n pbmt
  | none =>
    if s.flipping pa || s.heldStore pa n || s.postedTo h pa n then .wait s
    else if bypasses s pa pbmt then s.loadHome h arrived pa n pbmt
    else s.loadCached h arrived va pa n pbmt

/-- The data of the hart's miss arrives in this step (R99). -/
def Hart.arrived (x : Hart) : Bool := match x.wait with
  | some w => w.kind == .load && w.expired
  | none => false

/-- The hart is switched out on a miss (R99). -/
def State.switchOut (s : State) (h : Nat) : State :=
  s.modHart h fun x =>
    { x with wait := some { kind := .load, epoch := s.epoch, deadline := none, expired := false, stage := 0, arg := 0 } }

/-- Bytes of a load width (R325). -/
def ldBytes : LdW → Nat
  | .b | .bu => 1
  | .h | .hu => 2
  | .w | .wu => 4
  | .d => 8

/-- The register value of a load (R325). -/
def ldExtend (wd : LdW) (v : Nat) : Word := match wd with
  | .b => sext64 (BitVec.ofNat 8 v)
  | .h => sext64 (BitVec.ofNat 16 v)
  | .w => sext64 (BitVec.ofNat 32 v)
  | _ => BitVec.ofNat 64 v

/-- Bytes of a store width (R325). -/
def stBytes : StW → Nat
  | .b => 1
  | .h => 2
  | .w => 4
  | .d => 8

/-- The address of layout M (R326). -/
def memAddr (x : Hart) (a : Reg) (off : BitVec 24) : Word := x.rd a + sext64 off

/-- Puts a scalar result. -/
def State.result (s : State) (d : Reg) (v : Word) : State := s.modHart s.cur fun x => x.wr d v

/-- A message uses a bank of the target's A-space in this cycle (R135). -/
def State.useBank (s : State) (p : Place) : State := match p with
  | .aspace c off => s.modCore c fun x => { x with bankUse := .a c off :: x.bankUse }
  | .phys _ => s

/-- A vector access of hart `h` to another core's A-space uses a bank there (R135, R165). -/
def State.useRemote (s : State) (h c off : Nat) : State := if c = coreOf h then s else s.useBank (.aspace c off)

/-- An RA message leaves (R134). -/
def State.sendRa (s : State) (m : RaMsg) : State := { s with ras := s.ras ++ [{ m with seq := s.sends }], sends := s.sends + 1 }

/-- The hart waits for an RA message (R326). -/
def State.waitRa (s : State) (h : Nat) : State :=
  s.modHart h fun x =>
    { x with wait := some { kind := .ra, epoch := s.epoch, deadline := none, expired := false, stage := 0, arg := 0 } }

/-- STVAL of a faulting load: the poisoned word's address for cause 7, else the address (R199, R257). -/
def State.loadStval (s : State) (cause : Nat) (va : Word) (pa : Nat) : Word :=
  if cause = 7 then
    (if poisoned s.bad (pa / 4 * 4) 4 then va &&& ~~~3#64 else (va &&& ~~~3#64) + 4)
  else va

/-- The hart is switched out until a home answers, as on a scalar miss (R99, R336, R345). -/
def State.askHome (s : State) (go : State → Res) : Res :=
  if s.me.arrived then go s else if s.requestFree s.cur then .stall (s.switchOut s.cur) else .stall s

/-- A scalar load of hart s.cur (R326). Spaces C and W raise cause 5 (R325). -/
def effLoad (s : State) (wd : LdW) (sp : Space) (d : Reg) (va : Word) : Res :=
  let h := s.cur
  let n := ldBytes wd
  if va.toNat % n ≠ 0 then .trap s 3 va
  else if sp = .c || sp = .w then .trap s 5 va
  else match s.locate h sp .load va n with
    | (s, .fault c) => .trap s c va
    | (s, .at_ (.a c off)) =>
      if c = coreOf h then .ok (s.result d (ldExtend wd ((s.core c).a.readLe off n)))
      else if !s.requestFree h then .stall s
      else
        .stall ((s.sendRa { seq := 0, hart := h, core := c, off := off, load := some (wd, d), data := [] }).waitRa h)
    | (s, .at_ (.g pa m)) =>
      if inCtrl pa then
        if (s.hart h).sbuf.isEmpty then .ok (s.result d (s.ctrlLoad pa)) else .stall s
      else match s.loadG h (s.hart h).arrived va pa n m with
        | .val s bs => .ok (s.result d (ldExtend wd (leNat bs)))
        | .wait s => .stall s
        | .miss s => .stall (if s.requestFree h then s.switchOut h else s)
        | .fault s c => .trap s c (s.loadStval c va pa)
    | (s, .at_ _) => .trap s 5 va

/-! ## Scalar stores (R347) -/

/-- A G-space store that has passed its checks joins the store buffer, or the member's stores on their way (R245). -/
def State.storeG (s : State) (h : Nat) (va : Word) (pa : Nat) (pbmt : BitVec 2) (bs : List Byte) : Res :=
  match (s.hart h).member with
  | some _ =>
    if memberPage pa pbmt then
      if !s.requestFree h then .stall s
      else .ok (s.modHart h fun x => { x with tents := x.tents ++ [{ va := va, pa := pa, data := bs, vec := false }] })
    else .trap s 5 va
  | none =>
    if pbmt == 2 && (s.hart h).elemUncached then .stall s
    else .ok (s.modHart h fun x =>
      { x with sbuf := x.sbuf ++ [{ va := va, pa := pa, pbmt := pbmt, data := bs, iword := x.iword }] })

/-- A scalar store of hart s.cur (R347). -/
def effStore (s : State) (wd : StW) (sp : Space) (v : Word) (va : Word) : Res :=
  let h := s.cur
  let n := stBytes wd
  let bs := leBytes n v.toNat
  if va.toNat % n ≠ 0 then .trap s 3 va
  else if sp = .c || sp = .w then .trap s 5 va
  else match s.locate h sp .store va n with
    | (s, .fault c) => .trap s c va
    | (s, .at_ (.a c off)) =>
      if c = coreOf h then
        .ok ((s.modCore c fun x => { x with a := x.a.writeN off bs }).noteWrite none (aKey c off) n)
      else if !s.requestFree h then .stall s
      else .ok (s.sendRa { seq := 0, hart := h, core := c, off := off, load := none, data := bs })
    | (s, .at_ (.g pa m)) =>
      if inCtrl pa then
        if (s.hart h).sbuf.isEmpty then .ok (s.ctrlStore pa v) else .stall s
      else if s.inPackObject pa n then .trap s 5 va
      else s.storeG h va pa m bs
    | (s, .at_ _) => .trap s 5 va

/-! ## Conditions of fences (R171, R173) -/

/-- Every earlier posted atomic of the hart is performed (R173, R179). -/
def State.atomsDone (s : State) (h : Nat) : Bool := !(s.atoms.any fun a => a.hart == h && a.posted)

/-- Earlier scalar stores are drained and posted atomics performed; but for core scope the stores are acknowledged too
(R173, R175). -/
def State.released (s : State) (h : Nat) (sc : Scope) : Bool :=
  (s.hart h).sbuf.isEmpty && s.atomsDone h && (sc == .core || !(s.regs.any fun r => r.hart == h && !r.vec))

/-- The vector queue holds an instruction of a kind. -/
def Hart.queued (x : Hart) (p : Instr → Bool) : Bool := x.vq.any fun e => p e.instr

/-- A vector instruction that loads, by itself or through a stream operand; every one counts here. -/
def Hart.loadsDone (x : Hart) : Bool := x.vq.isEmpty && x.run.isNone

/-- Earlier vector stores, stream stores and VAMOs are performed (R171). -/
def State.storesDone (s : State) (h : Nat) : Bool :=
  let x := s.hart h
  x.vq.isEmpty && x.run.isNone && x.elems.isEmpty && x.tents.all (fun t => !t.vec) &&
  !(s.regs.any fun r => r.hart == h && r.vec)

/-- What VDRAIN of a kind waits for, the store buffer drained into L1 (R171). -/
def State.vdrained (s : State) (h : Nat) (k : DrainKind) : Bool :=
  (s.hart h).sbuf.isEmpty && (match k with
    | .l => (s.hart h).loadsDone
    | .s => s.storesDone h
    | .a => (s.hart h).loadsDone && s.storesDone h)

/-- VDRAIN.A and a package-scope release (R84 to R86, R240). -/
def State.quiet (s : State) (h : Nat) : Bool := s.vdrained h .a && s.released h .pkg

end Sys2Proof.Machine
end

