-- ==== Sys2Proof/Machine/Operands.lean ====
section
/-! DEFINITION. Vector operands (R57, R60, R61, R67, R352, R353), the arithmetic of one element (R106, R356 to R360), the
quantisation of a block (R121 to R125), reductions (R126, R364) and the execution of a range of elements. -/

namespace Sys2Proof.Machine

/-! ## Which registers an instruction reads and writes -/

/-- The fields of a layout R vector instruction. -/
def vargs : Instr → Option VArgs
  | .vadd v | .vsub v | .vmul v | .vmulh v | .vmulhr v | .vdiv v | .vrem v | .vmin v | .vmax v | .vand v | .vor v
  | .vxor v | .vshl v | .vshr v | .vsra v | .vrshr v | .vabs v | .vneg v | .vsqrt v | .vrsqrt v | .vexp2 v | .vfma v
  | .vsel v | .vclamp v | .vcmp _ v | .vcvt _ v | .vbscale v | .vpackni v | .vunpkni _ v | .vmov _ v | .vid v
  | .vext v | .vins v | .vslide _ v | .vperm v | .vcompress v | .vred _ v => some v
  | _ => none

/-- The fields of a vector memory instruction. -/
def vmemOf : Instr → Option VMem
  | .vld v | .vst v | .vamo _ v => some v
  | _ => none

/-- A vector register operand: the register, its element width, and the bytes the instruction reaches. -/
structure VOp where
  reg : Reg
  e : Nat
  bytes : Nat
  deriving DecidableEq, Repr

/-- An operand of VL elements of width `e`. -/
def vop (r : Reg) (e vl : Nat) : VOp := { reg := r, e := e, bytes := vl * e }

/-- Element width of a VMOV that moves VEW-bit elements, else of T. -/
def movWidth (byVew : Bool) (v : VArgs) (vew : Nat) : Nat := if byVew then vew / 8 else v.t.bytes

/-- The vector registers an instruction reads (R352, R358, R361 to R364, R366). -/
def vsrcs (i : Instr) (vl vew : Nat) : List VOp :=
  match i with
  | .vadd v | .vsub v | .vmul v | .vmulh v | .vmulhr v | .vdiv v | .vrem v | .vmin v | .vmax v | .vand v | .vor v
  | .vxor v | .vshl v | .vshr v | .vsra v | .vrshr v | .vsel v | .vcmp _ v =>
    vop v.a v.t.bytes vl :: (if v.bs then [] else [vop v.b v.t.bytes vl])
  | .vabs v | .vneg v | .vsqrt v | .vrsqrt v | .vexp2 v | .vslide _ v | .vcompress v | .vred _ v | .vext v =>
    [vop v.a v.t.bytes vl]
  | .vfma v | .vclamp v =>
    vop v.a v.t.bytes vl :: (if v.bs then [] else [vop v.b v.t.bytes vl]) ++ (if v.cs then [] else [vop v.c v.t.bytes vl])
  | .vcvt src v => [vop v.a src.bytes vl]
  | .vbscale v => [vop v.a v.t.bytes vl]
  | .vpackni v => [vop v.a v.t.bytes vl, { reg := v.b, e := 2, bytes := 2 * (vl / 32) }]
  | .vunpkni k v => [{ reg := v.a, e := 1, bytes := k.toNat * (vl / 8) }, { reg := v.b, e := 2, bytes := 2 * (vl / 32) }]
  | .vmov byVew v => if v.bs then [] else [vop v.a (movWidth byVew v vew) vl]
  | .vperm v => [vop v.a v.t.bytes vl, vop v.b 4 vl]
  | .vadds _ a _ => [vop a 4 vl]
  | .vld v => if v.k = .indexed then [vop v.b 4 vl] else []
  | .vst v | .vamo _ v => vop v.d v.t.bytes vl :: (if v.k = .indexed then [vop v.b 4 vl] else [])
  | .mrow f _ _ a _ c | .mrowv f _ a _ c _ =>
    vop a (if f = .bf16 then 2 else 1) vl :: (if f = .ni8 then [{ reg := c, e := 2, bytes := 2 * (vl / 32) }] else [])
  | _ => []

/-- The vector register an instruction writes. -/
def vdst (i : Instr) (vl vew : Nat) : Option VOp :=
  match i with
  | .vcmp _ _ | .vext _ => none
  | .vbscale v => some { reg := v.d, e := 2, bytes := 2 * (vl / 32) }
  | .vpackni v => some (vop v.d 1 vl)
  | .vmov byVew v => some (vop v.d (movWidth byVew v vew) vl)
  | .vadds d _ _ => some (vop d 4 vl)
  | .vld v => some (vop v.d v.t.bytes vl)
  | .vst _ | .vamo _ _ => none
  | i => match vargs i with
    | some v => some (vop v.d v.t.bytes vl)
    | none => none

/-- The widest element width an instruction forms its groups at (R60). DESIGN CHOICE (log 67): MLOGIC, MPOPC and MFIRST, which
have no element width, form their groups at width 1. -/
def groupWidth (i : Instr) (vl vew : Nat) : Nat :=
  ((vsrcs i vl vew).map fun o => o.e).foldl max (match vdst i vl vew with
    | some o => o.e
    | none => 1)

/-- Elements of an element group (R60). -/
def groupSize (c e : Nat) : Nat := if e = 8 then 8 * c else 16 * c * 4 / e

/-- Cycles that the lanes take for one element group (R355); memory and mask instructions, which its table does not list,
take 1 (log 29). -/
def groupCycles : Instr → Nat
  | .vdiv _ | .vrem _ => 16
  | .vsqrt _ | .vrsqrt _ => 8
  | .vexp2 _ | .vbscale _ | .vpackni _ | .vunpkni _ _ | .vslide _ _ | .vperm _ | .vcompress _ => 2
  | _ => 1

/-- The execution mask. -/
def vmaskOf (i : Instr) : Nat := match i with
  | .mlogic _ _ _ _ m | .mpopc _ _ m | .mfirst _ _ m => m.toNat
  | i => match vargs i, vmemOf i with
    | some v, _ => v.m.toNat
    | _, some v => v.m.toNat
    | _, _ => 0

/-- Instructions that act whole (R126, R331, R354, R362, R363). -/
def actsWhole : Instr → Bool
  | .vred _ _ | .vcompress _ | .vext _ | .vins _ | .mpopc _ _ _ | .mfirst _ _ _ => true
  | _ => false

/-- Instructions that stop on block boundaries (R124). -/
def byBlocks : Instr → Bool
  | .vbscale _ | .vpackni _ | .vunpkni _ _ => true
  | _ => false

/-! ## Checks at issue: cause 1 (R40, R57, R67, R68, R110, R124, R353, R360, R361, R363, R369) -/

/-- D must differ from a source whose elements it could overwrite (R360, R361, R363). -/
def overlapOk (i : Instr) : Bool := match i with
  | .vcvt src v => v.d != v.a || src.bytes == v.t.bytes
  | .vbscale v => v.d != v.a
  | .vpackni v | .vunpkni _ v => v.d != v.a && v.d != v.b
  | .vslide _ v | .vcompress v => v.d != v.a
  | .vperm v => v.d != v.a && v.d != v.b
  | _ => true

/-- The rounding mode in force gives a mode (R110). -/
def roundOk (i : Instr) (frm : BitVec 3) : Bool := match i with
  | .vcvt _ v => (rmode v.rm frm (v.t != .f32) 0).isSome
  | .vpackni v | .vunpkni _ v => (rmode v.rm frm true 0).isSome
  | i => match vargs i with
    | some v => (rmode v.rm frm false 0).isSome
    | none => true

/-- A source register is unbound, or bound to a load stream of its width (R67, R68, R369). -/
def Hart.srcOk (x : Hart) (o : VOp) : Bool :=
  decide (o.reg.toNat < x.nvreg) && decide (o.bytes ≤ x.vbytes) && (match x.stream o.reg with
    | some t => !t.store && t.ty.bytes == o.e
    | none => true)

/-- A destination register is unbound, or bound to a store stream of its width. -/
def Hart.dstOk (x : Hart) (o : VOp) : Bool :=
  decide (o.reg.toNat < x.nvreg) && decide (o.bytes ≤ x.vbytes) && (match x.stream o.reg with
    | some t => t.store && t.ty.bytes == o.e
    | none => true)

/-- No cause 1 at issue. -/
def Hart.vectorOk (x : Hart) (i : Instr) : Bool :=
  (vsrcs i x.vl x.vew).all (fun o => x.srcOk o) &&
  (match vdst i x.vl x.vew with
    | some o => x.dstOk o
    | none => true) &&
  overlapOk i && roundOk i x.frm && (!byBlocks i || x.vl % 32 == 0)

/-! ## Elements of operands -/

/-- Element `i` of register `r` at width `e`, from a popped strip where the register is bound (R67). -/
def VRun.val (ru : VRun) (x : Hart) (r : Reg) (i e : Nat) : Nat :=
  match ru.strips.find? fun s => s.1 == r with
  | some s => s.2.readLe (i * e) e
  | none => x.velem r i e

/-- Byte `b` of a register or strip. -/
def VRun.byte (ru : VRun) (x : Hart) (r : Reg) (b : Nat) : Nat := ru.val x r b 1

/-- The element's word is poisoned, for a register that is not bound. -/
def VRun.bad (ru : VRun) (x : Hart) (r : Reg) (i e : Nat) : Bool :=
  (ru.strips.all fun s => s.1 != r) && x.elemBad r i e

/-- Writes element `i` of the destination: into the register, or as a store of the bound stream (R67). -/
def VRun.put (ru : VRun) (x : Hart) (r : Reg) (i e v : Nat) : Hart :=
  match x.stream r with
  | some _ => match ru.outs.find? fun o => o.idx == i with
    | some o => { x with elems := x.elems ++ [{ o with data := BitVec.ofNat 64 v }] }
    | none => x
  | none => x.setElem r i e v

/-- The scalar operand of an element type (R107, R353). -/
def scalarBits (t : Ty) (w : Word) : Nat := w.toNat % 2 ^ tyBits t

/-- Operand B of an element. -/
def VRun.opB (ru : VRun) (x : Hart) (v : VArgs) (i : Nat) : Nat :=
  if v.bs then scalarBits v.t ru.e.sb else ru.val x v.b i v.t.bytes
/-- Operand C of an element. -/
def VRun.opC (ru : VRun) (x : Hart) (v : VArgs) (i : Nat) : Nat :=
  if v.cs then scalarBits v.t ru.e.sc else ru.val x v.c i v.t.bytes

/-- The positions of the destination's `vl` elements in the order of the elements they belong to: a container belongs to
its block, a plane byte to its first element (R121, R361). Pairs of position and element. -/
def VRun.positions (ru : VRun) : List (Nat × Nat) := match ru.e.instr with
  | .vbscale _ => (List.range (ru.vl / 32)).map fun b => (b, 32 * b)
  | .vpackni _ => (List.range (ru.vl / 8)).flatMap fun b => (List.range 8).map fun p => (p * (ru.vl / 8) + b, 8 * b)
  | _ => (List.range ru.vl).map fun i => (i, i)

/-- The instruction writes the destination element that belongs to element `i` (R61, R353, R362 to R364). -/
def VRun.writesAt (ru : VRun) (x : Hart) (i : Nat) : Bool := match ru.e.instr with
  | .vins _ => decide (i = ru.e.sb.toNat)
  | .vcompress v => decide (i < ((List.range ru.vl).filter fun j => x.maskBit v.c.toNat j).length)
  | .vred _ _ => decide (i = 0)
  | .vslide true v => x.maskBit v.m.toNat i && decide (ru.e.sb.toNat ≤ i)
  | ins => x.maskBit (vmaskOf ins) i

/-- Words of a register lose their poison where every element of the word, of width `e`, has been written (R269); wider
elements clear it themselves. -/
def Hart.clearWritten (x : Hart) (r : Reg) (e : Nat) (written : Nat → Bool) : Hart :=
  { x with vbad := x.vbad.filter fun a =>
      !(decide (e < 4) && decide (4 * a / 2 ^ 20 = r.toNat) && (List.range (4 / e)).all fun k => written ((4 * a % 2 ^ 20) / e + k)) }

/-! ## Arithmetic of one element (R106, R356 to R360) -/

/-- The signed value of raw bits, whatever the type's sign (VSRA). -/
def rawInt (t : Ty) (x : Nat) : Int :=
  if 2 ^ (tyBits t - 1) ≤ x then (x : Int) - (2 ^ tyBits t : Nat) else x

/-- |a| and −a on an FP type: the canonical NaN for a NaN, with NV for a signalling one (R357). -/
def fsign (f : FTy) (x : Nat) (r : Nat) : Val := match fdec f x with
  | .nan s => nanVal f s
  | _ => Val.pure r

/-- VABS. -/
def vabsVal (t : Ty) (sat : Bool) (a : Nat) : Val :=
  if t.isFp then fsign (tyF t) a (a % 2 ^ (tyBits t - 1))
  else if t.isSigned then intResult t sat (if tyInt t a < 0 then -tyInt t a else tyInt t a)
  else Val.pure a

/-- VNEG. -/
def vnegVal (t : Ty) (sat : Bool) (a : Nat) : Val :=
  if t.isFp then fsign (tyF t) a (fflip (tyF t) a)
  else intResult t sat (-tyInt t a)

/-- The smaller or larger of two elements. -/
def vminmax (t : Ty) (mn : Bool) (a b : Nat) : Val :=
  if t.isFp then fminmax (tyF t) mn a b
  else
    let less := decide (tyInt t a < tyInt t b)
    Val.pure (if mn then (if less then a else b) else (if less then b else a))

/-- VCLAMP (R358). -/
def vclampVal (t : Ty) (a b c : Nat) : Val :=
  let m := vminmax t false a b
  let n := vminmax t true m.bits c
  { bits := n.bits, fl := m.fl ||| n.fl }

/-- The operation of an element-wise arithmetic instruction. -/
def arithVal (ins : Instr) (md : RMode) (t : Ty) (sat : Bool) (a b c : Nat) : Val :=
  let f := tyF t
  let ia := tyInt t a
  let ib := tyInt t b
  let w := tyBits t
  match ins with
  | .vadd _ => if t.isFp then fadd f md a b else intResult t sat (ia + ib)
  | .vsub _ => if t.isFp then fsub f md a b else intResult t sat (ia - ib)
  | .vmul _ => if t.isFp then fmul f md a b else intResult t sat (ia * ib)
  | .vmulh _ => Val.pure (tyWrap t (ia * ib / (2 ^ w : Nat)))
  | .vmulhr _ => Val.pure (tyWrap t ((ia * ib + (2 ^ (w - 1) : Nat)) / (2 ^ w : Nat)))
  | .vdiv _ => if t.isFp then fdiv f md a b else intDiv t sat a b
  | .vrem _ => intRem t a b
  | .vmin _ => vminmax t true a b
  | .vmax _ => vminmax t false a b
  | .vand _ => Val.pure (a &&& b)
  | .vor _ => Val.pure (a ||| b)
  | .vxor _ => Val.pure (a ^^^ b)
  | .vshl _ => intResult t sat (ia * (2 ^ (b % w) : Nat))
  | .vshr _ => Val.pure (a / 2 ^ (b % w))
  | .vsra _ => Val.pure (tyWrap t (rawInt t a / (2 ^ (b % w) : Nat)))
  | .vrshr _ => Val.pure (intRshr t a (b % w))
  | .vabs _ => vabsVal t sat a
  | .vneg _ => vnegVal t sat a
  | .vsqrt _ => fsqrt f md a
  | .vrsqrt _ => frsqrt f md a
  | .vexp2 _ => fexp2 f md a
  | .vfma _ => if t.isFp then ffma f md a b c else intResult t sat (ia * ib + tyInt t c)
  | .vclamp _ => vclampVal t a b c
  | .vcvt src _ => convert t src md sat a
  | _ => Val.pure a

/-- A relation of VCMP (R359). -/
def vcmpVal (rel : VRel) (t : Ty) (a b : Nat) : Bool × FlagBits :=
  if t.isFp then
    let r := fcompare (tyF t) a b
    let v := match rel with
      | .eq => r == some .eq
      | .ne => r != some .eq
      | .lt => r == some .lt
      | .le => r == some .lt || r == some .eq
      | .gt => r == some .gt
      | .ge => r == some .gt || r == some .eq
      | .un => r.isNone
    (v, fcmpFlags (tyF t) a b)
  else
    let x := tyInt t a
    let y := tyInt t b
    (match rel with
      | .eq => decide (x = y)
      | .ne => decide (x ≠ y)
      | .lt => decide (x < y)
      | .le => decide (x ≤ y)
      | .gt => decide (y < x)
      | .ge => decide (y ≤ x)
      | .un => false, 0)

/-- The mode of element `i`; a reserved FRM has been refused at issue. -/
def VRun.mode (ru : VRun) (v : VArgs) (i : Nat) : RMode :=
  (rmode v.rm ru.frm true (srHash ru.sb ru.seed i)).getD .rne

/-! ## One element -/

/-- The exception bit of element `i` (R116). -/
def setExcept (x : Hart) (xm : BitVec 3) (i : Nat) (fl : FlagBits) : Hart :=
  if xm = 0 then x
  else
    let m := x.mask xm.toNat
    x.setMask xm.toNat (if flagsExcept fl then m ||| (1#131072 <<< i) else m &&& ~~~(1#131072 <<< i))

/-- Writes a mask bit. -/
def Hart.putMaskBit (x : Hart) (n i : Nat) (b : Bool) : Hart :=
  let m := x.mask n
  x.setMask n (if b then m ||| (1#131072 <<< i) else m &&& ~~~(1#131072 <<< i))

/-- An element result with its flags and exception bit. -/
def VRun.deliver (ru : VRun) (x : Hart) (v : VArgs) (i : Nat) (r : Val) : Hart :=
  setExcept ((ru.put x v.d i v.t.bytes r.bits).orFlags r.fl) v.xm i r.fl

/-- The operation of MLOGIC (R330). -/
def mlogicBit (op : MOp) (a b : Bool) : Bool := match op with
  | .and => a && b
  | .or => a || b
  | .xor => a != b
  | .andn => a && !b
  | .orn => a || !b
  | .nand => !(a && b)
  | .nor => !(a || b)
  | .xnor => a == b

/-- One active element of an element-wise instruction (R353, R356 to R363, R331). -/
def VRun.elem (ru : VRun) (x : Hart) (i : Nat) : Hart :=
  match ru.e.instr with
  | .mlogic op d a b _ => x.putMaskBit d.toNat i (mlogicBit op (x.maskBit a.toNat i) (x.maskBit b.toNat i))
  | .vcmp rel v =>
    let r := vcmpVal rel v.t (ru.val x v.a i v.t.bytes) (ru.opB x v i)
    (x.putMaskBit v.d.toNat i r.1).orFlags r.2
  | .vcvt src v => ru.deliver x v i (arithVal ru.e.instr (ru.mode v i) v.t v.sat (ru.val x v.a i src.bytes) 0 0)
  | .vsel v =>
    ru.put x v.d i v.t.bytes (if x.maskBit v.c.toNat i then ru.val x v.a i v.t.bytes else ru.opB x v i)
  | .vmov byVew v =>
    let e := if byVew then ru.width else v.t.bytes
    ru.put x v.d i e (if v.bs then scalarBits v.t ru.e.sb else ru.val x v.a i e)
  | .vid v => ru.put x v.d i v.t.bytes ((if v.bs then ru.e.sb.toNat + i else i) % 2 ^ tyBits v.t)
  | .vadds d a _ =>
    let r := fadd .f32 .rne (ru.val x a i 4) (ru.e.sb.toNat % 2 ^ 32)
    (ru.put x d i 4 r.bits).orFlags r.fl
  | .vslide up v =>
    let n := ru.e.sb.toNat
    if up then (if n ≤ i then ru.put x v.d i v.t.bytes (ru.val x v.a (i - n) v.t.bytes) else x)
    else ru.put x v.d i v.t.bytes (if i + n < ru.vl then ru.val x v.a (i + n) v.t.bytes else 0)
  | .vperm v =>
    let j := ru.val x v.b i 4
    ru.put x v.d i v.t.bytes (if j < ru.vl then ru.val x v.a j v.t.bytes else 0)
  | ins => match vargs ins with
    | some v =>
      ru.deliver x v i (arithVal ins (ru.mode v i) v.t v.sat (ru.val x v.a i v.t.bytes) (ru.opB x v i) (ru.opC x v i))
    | none => x

/-- The register elements that element `i` reads, for poison (R269, R354). -/
def VRun.reads (ru : VRun) (x : Hart) (i : Nat) : List (Reg × Nat × Nat) :=
  match ru.e.instr with
  | .vslide up v =>
    let n := ru.e.sb.toNat
    if up then (if n ≤ i then [(v.a, i - n, v.t.bytes)] else [])
    else if i + n < ru.vl then [(v.a, i + n, v.t.bytes)] else []
  | .vperm v =>
    let j := ru.val x v.b i 4
    (v.b, i, 4) :: (if j < ru.vl then [(v.a, j, v.t.bytes)] else [])
  | .vsel v =>
    if x.maskBit v.c.toNat i then [(v.a, i, v.t.bytes)] else if v.bs then [] else [(v.b, i, v.t.bytes)]
  | .vbscale v => [(v.a, i, v.t.bytes)]
  | .vpackni v => [(v.a, i, v.t.bytes), (v.b, i / 32, 2)]
  | .vunpkni k v => (v.b, i / 32, 2) :: (List.range k.toNat).map fun p => (v.a, p * (ru.vl / 8) + i / 8, 1)
  | .vcompress v => if x.maskBit v.c.toNat i then [(v.a, i, v.t.bytes)] else []
  | .vext v => if ru.e.sb.toNat = i then [(v.a, i, v.t.bytes)] else []
  | ins => (vsrcs ins ru.vl (8 * ru.width)).map fun o => (o.reg, i, o.e)

/-- Element `i` reads a poisoned word. -/
def VRun.readsBad (ru : VRun) (x : Hart) (i : Nat) : Bool := (ru.reads x i).any fun r => ru.bad x r.1 r.2.1 r.2.2

/-- The lowest active element of [lo, lo + n) that reads a poisoned word. -/
def VRun.firstBad (ru : VRun) (x : Hart) : Nat → Nat → Option Nat
  | _, 0 => none
  | lo, n + 1 =>
    if x.maskBit (vmaskOf ru.e.instr) lo && ru.readsBad x lo then some lo else VRun.firstBad ru x (lo + 1) n

/-! ## Quantisation (R121 to R125) -/

/-- The scale of a container as m × 2^e; none where E = 255 or bits [15:10] are set; m = 0 where E = 0 (R123). -/
def niScale (c : Nat) : Option (Nat × Int) :=
  let e := c / 4 % 256
  if 1024 ≤ c || e = 255 then none
  else if e = 0 then some (0, 0) else some (4 + c % 4, (e : Int) - 129)

/-- m × 2^e ≤ k × 2^g. -/
def dyLe (m : Nat) (e : Int) (k : Nat) (g : Int) : Bool :=
  let b := min e g
  decide (m * 2 ^ (e - b).toNat ≤ k * 2 ^ (g - b).toNat)

/-- The smallest container whose scale s has max ≤ 127 s, searched upward from `c` (R125). -/
def scaleFrom (m : Nat) (e : Int) : Nat → Nat → Nat
  | 0, c => c
  | n + 1, c =>
    let r := (niScale c).getD (0, 0)
    if dyLe m e (127 * r.1) r.2 then c else scaleFrom m e n (c + 1)

/-- The larger of two magnitudes. -/
def dyMax (a b : Nat × Int) : Nat × Int := if dyLe a.1 a.2 b.1 b.2 then b else a

/-- The container of a block and its flags (R125). -/
def blockScale (f : FTy) (xs : List Nat) : Val :=
  if xs.any fun x => match fdec f x with
    | .fin _ _ _ => false
    | _ => true then { bits := 255 * 4, fl := flNV }
  else
    let mx := xs.foldl (fun (r : Nat × Int) x => match fdec f x with
      | .fin _ m e => dyMax r (m, e)
      | _ => r) (0, 0)
    if mx.1 = 0 then Val.pure 0
    else
      let top : Int := mx.2 + Nat.log2 mx.1
      Val.pure (scaleFrom mx.1 mx.2 64 (4 * (max 1 (top + 127 - 8)).toNat))

/-- q of one element under a container: round(x / s), clamped to ±127 (R125). Where E = 0 every q is 0, and a NaN sets NV.
DESIGN CHOICE (log 67): so does an infinite x there, for which R125 gives both q = 0 and ±127. -/
def quantVal (f : FTy) (md : RMode) (sat : Bool) (x c : Nat) : Int × FlagBits :=
  match niScale c with
  | none => (0, flNV)
  | some (0, _) => match fdec f x with
    | .fin _ m _ => (0, flagIf (m != 0) flNX)
    | _ => (0, flNV)
  | some (sm, se) => match fdec f x with
    | .nan _ => (0, flNV)
    | .inf n => (if n then -127 else 127, flNV)
    | .fin n m e =>
      let k := (m * 2 ^ 64) / sm
      let st := b2n (decide (m * 2 ^ 64 % sm ≠ 0))
      let r := quantize md n (2 * k + st) (e - se - 65) 0
      let q := min r.1 127
      let exact := dyLe (q * sm) se m e && dyLe m e (q * sm) se
      (if n then -(q : Int) else q,
        flagIf (!exact) flNX ||| flagIf (sat && decide (127 < r.1)) flIV)

/-- q_k of the top k bits of q (R122). -/
def niValue (k h : Nat) : Int :=
  let hs : Int := if 2 ^ (k - 1) ≤ h then (h : Int) - (2 ^ k : Nat) else h
  let q := hs * (2 ^ (8 - k) : Nat) + (if k < 8 then (2 ^ (7 - k) : Nat) else 0)
  if q = -128 then -127 else q

/-- The element of a reader of k planes (R123, R125). -/
def unquantVal (f : FTy) (md : RMode) (sat : Bool) (k h c : Nat) : Val :=
  match niScale c with
  | none => Val.pure (canonNaN f)
  | some (0, _) => Val.pure 0
  | some (sm, se) =>
    let q := niValue k h
    fround f md sat (decide (q < 0)) (sm * q.natAbs) se

/-- The top k bits of element i in the planes of a register (R121). -/
def VRun.planes (ru : VRun) (x : Hart) (r : Reg) (i : Nat) : Nat → Nat
  | 0 => 0
  | k + 1 => 2 * VRun.planes ru x r i k + ru.byte x r (k * (ru.vl / 8) + i / 8) / 2 ^ (i % 8) % 2

/-- q of element `i` of VPACKNI, with its flags. -/
def VRun.packVal (ru : VRun) (v : VArgs) (x : Hart) (i : Nat) : Int × FlagBits :=
  quantVal (tyF v.t) (ru.mode v i) v.sat (ru.val x v.a i v.t.bytes) (ru.val x v.b (i / 32) 2)

/-- The byte of plane `p` that eight q's make (R121). -/
def planeByte (p : Nat) : List Int → Nat
  | [] => 0
  | q :: qs => (q % 256).toNat / 2 ^ (7 - p) % 2 + 2 * planeByte p qs

/-- VPACKNI of elements 8b to 8b + 7: one byte of each plane. -/
def VRun.packByte (ru : VRun) (v : VArgs) (x : Hart) (b : Nat) : Hart :=
  let rs := (List.range 8).map fun j => ru.packVal v x (8 * b + j)
  (List.range 8).foldl (fun (y : Hart) p => ru.put y v.d (p * (ru.vl / 8) + b) 1 (planeByte p (rs.map fun r => r.1)))
    (rs.foldl (fun (y : Hart) r => y.orFlags r.2) x)

/-- One element of VUNPKNI. -/
def VRun.unpackElem (ru : VRun) (k : Nat) (v : VArgs) (x : Hart) (i : Nat) : Hart :=
  let r := unquantVal (tyF v.t) (ru.mode v i) v.sat k (ru.planes x v.a i k) (ru.val x v.b (i / 32) 2)
  (ru.put x v.d i v.t.bytes r.bits).orFlags r.fl

/-- One block of VBSCALE. -/
def VRun.scaleBlock (ru : VRun) (v : VArgs) (x : Hart) (b : Nat) : Hart :=
  let r := blockScale (tyF v.t) ((List.range 32).map fun j => ru.val x v.a (32 * b + j) v.t.bytes)
  (ru.put x v.d b 2 r.bits).orFlags r.fl

/-! ## Reductions (R126, R364) -/

/-- One combination. -/
def redVal (op : RedOp) (md : RMode) (t : Ty) (sat : Bool) (a b : Nat) : Val :=
  match op with
  | .sum => if t.isFp then fadd (tyF t) md a b else intResult t sat (tyInt t a + tyInt t b)
  | .min => vminmax t true a b
  | .max => vminmax t false a b
  | .and => Val.pure (a &&& b)
  | .or => Val.pure (a ||| b)
  | .xor => Val.pure (a ^^^ b)

/-- One level of the pairwise tree. -/
def treeLevel (f : Nat → Nat → Val) : List Nat → List Nat × FlagBits
  | a :: b :: rest =>
    let r := f a b
    let t := treeLevel f rest
    (r.bits :: t.1, r.fl ||| t.2)
  | l => (l, 0)

/-- The pairwise tree (R126); `n` levels at most. -/
def treeFold (f : Nat → Nat → Val) : Nat → List Nat → FlagBits → List Nat × FlagBits
  | 0, l, fl => (l, fl)
  | n + 1, l, fl =>
    if l.length ≤ 1 then (l, fl)
    else
      let t := treeLevel f l
      treeFold f n t.1 (fl ||| t.2)

/-- The value of an empty list (R364). -/
def redEmpty (op : RedOp) (t : Ty) : Nat := match op with
  | .sum | .or | .xor => 0
  | .and => 2 ^ tyBits t - 1
  | .min => if t.isFp then infBits (tyF t) false else tyWrap t (tyMax t)
  | .max => if t.isFp then infBits (tyF t) true else tyWrap t (tyMin t)

/-- VRED over the active elements. DESIGN CHOICE (log 67): the value of a list of one element passes up unchanged as R126 says,
a NaN with its bits and without NV, although R108 makes every NaN that an operation returns canonical. -/
def VRun.reduce (ru : VRun) (op : RedOp) (v : VArgs) (x : Hart) : Hart :=
  let xs := ((List.range ru.vl).filter fun i => decide (ru.lo ≤ i) && x.maskBit v.m.toNat i).map
    fun i => ru.val x v.a i v.t.bytes
  let r := treeFold (redVal op (ru.mode v 0) v.t v.sat) 20 xs 0
  if ru.vl = 0 then x
  else (ru.put x v.d 0 v.t.bytes (r.1.headD (redEmpty op v.t))).orFlags r.2

/-! ## Instructions that act whole (R331, R362, R363) -/

/-- VCOMPRESS: elements from `i` on, packed at `k`. -/
def VRun.compress (ru : VRun) (v : VArgs) : Nat → Nat → Nat → Hart → Hart
  | 0, _, _, x => x
  | n + 1, i, k, x =>
    if x.maskBit v.c.toNat i then
      VRun.compress ru v n (i + 1) (k + 1) (ru.put x v.d k v.t.bytes (ru.val x v.a i v.t.bytes))
    else VRun.compress ru v n (i + 1) k x

/-- The scalar that VEXT writes (R362). -/
def extValue (t : Ty) (x : Nat) : Word :=
  if t.isSigned then BitVec.ofInt 64 (tyInt t x) else BitVec.ofNat 64 x

/-- Elements of a mask that MPOPC and MFIRST look at. -/
def VRun.maskElems (ru : VRun) (x : Hart) (a : Reg) (m : BitVec 3) : List Nat :=
  (List.range ru.vl).filter fun i => decide (ru.lo ≤ i) && x.maskBit m.toNat i && x.maskBit a.toNat i

/-- The effect of an instruction that acts whole. -/
def VRun.whole (ru : VRun) (x : Hart) : Hart :=
  match ru.e.instr with
  | .vred op v => ru.reduce op v x
  | .vcompress v => ru.compress v ru.vl 0 0 x
  | .vext v =>
    let j := ru.e.sb.toNat
    x.wr v.d (if j < ru.vl then extValue v.t (ru.val x v.a j v.t.bytes) else 0)
  | .vins v =>
    let j := ru.e.sb.toNat
    if j < ru.vl then ru.put x v.d j v.t.bytes (scalarBits v.t ru.e.sa) else x
  | .mpopc d a m => x.wr d (BitVec.ofNat 64 (ru.maskElems x a m).length)
  | .mfirst d a m => x.wr d (match ru.maskElems x a m with
    | i :: _ => BitVec.ofNat 64 i
    | [] => BitVec.allOnes 64)
  | _ => x

/-! ## A range of elements (R60, R61) -/

/-- Elements [lo, lo + n) of the instruction, active ones only. -/
def VRun.range (ru : VRun) : Nat → Nat → Hart → Hart
  | _, 0, x => x
  | lo, n + 1, x =>
    VRun.range ru (lo + 1) n (if x.maskBit (vmaskOf ru.e.instr) lo then ru.elem x lo else x)

/-- The quantisation instructions over [lo, hi), hi a multiple of 32 or the end. DESIGN CHOICE (log 68): from a VSTART that is no
multiple of 32, VBSCALE does its whole block again, VPACKNI starts at byte VSTART / 8 and VUNPKNI at element VSTART. -/
def VRun.blocks (ru : VRun) (lo hi : Nat) (x : Hart) : Hart :=
  let is := (List.range (hi - lo)).map (lo + ·)
  match ru.e.instr with
  | .vbscale v => ((List.range (hi / 32 - lo / 32)).map (lo / 32 + ·)).foldl (fun y b => ru.scaleBlock v y b) x
  | .vpackni v => ((List.range (hi / 8 - lo / 8)).map (lo / 8 + ·)).foldl (fun y b => ru.packByte v y b) x
  | .vunpkni k v => is.foldl (fun y i => ru.unpackElem k.toNat v y i) x
  | _ => x

/-- The words that elements [lo, hi) have covered whole lose their poison (R269). -/
def VRun.clean (ru : VRun) (x₀ : Hart) (lo hi : Nat) (x : Hart) : Hart :=
  if x.vbad.isEmpty then x
  else match vdst ru.e.instr ru.vl (8 * ru.width) with
    | some o =>
      if (x.stream o.reg).isSome then x
      else x.clearWritten o.reg o.e fun j => ru.positions.any fun p =>
        p.1 == j && decide (lo ≤ p.2) && decide (p.2 < hi) && ru.writesAt x₀ p.2
    | none => x

/-- Executes elements [lo, hi) of a started instruction. -/
def VRun.exec (ru : VRun) (lo hi : Nat) (x : Hart) : Hart :=
  ru.clean x lo hi (if actsWhole ru.e.instr then ru.whole x
    else if byBlocks ru.e.instr then ru.blocks lo hi x
    else ru.range lo (hi - lo) x)

end Sys2Proof.Machine
end

