-- ==== Sys2Proof/Machine/Vector.lean ====
section
/-! DEFINITION. The vector queue (R62, R99, R342, R353, R383): issue, start, element accesses (R168, R172, R366 to R368),
streams (R66 to R70, R369), element groups and lanes (R60, R153), retirement and traps (R260), landing commits (R72, R370). -/

namespace Sys2Proof.Machine

/-! ## Issue (R98, R353, R383) -/

/-- Instructions whose scalar result the scoreboard guards (R331, R362). -/
def scalarResult : Instr → Bool
  | .mpopc _ _ _ | .mfirst _ _ _ | .vext _ => true
  | _ => false

/-- The space code in MT (R131). -/
def mtSpace (mt : Nat) : Space := match mt with
  | 0 => .g | 1 => .a | 2 => .c | 3 => .w | _ => .ra

/-- The entry of an instruction that joins the queue, with what scalar issue reads and what a trap of it takes back (R353, R366,
R383). `sent`: how many atomics and messages the package has sent. -/
def Hart.entry (x : Hart) (sent : Nat) (i : Instr) : VEntry :=
  let e : VEntry := { instr := i, pc := x.pc, iword := x.iword, sa := 0, sb := 0, sc := 0, sd := 0, num := x.mt
                      prio := x.prio, desc := [], seq := sent, save := { s := x.s, sbad := x.sbad, fflags := x.fflags } }
  match i with
  | .vadds _ _ b => { e with sb := x.rd b }
  | i => match vargs i, vmemOf i with
    | some v, _ => { e with sa := x.rd v.a, sb := x.rd v.b, sc := x.rd v.c }
    | _, some v => { e with sa := x.rd v.a, sb := x.rd v.b }
    | _, _ => e

/-- Nothing of the hart is in the vector queue. -/
def Hart.vectorIdle (x : Hart) : Bool := x.queueIdle

/-- A vector instruction joins its hart's queue. A cause 1 is raised once every older vector instruction has completed
(R383). -/
def State.queueVector (s : State) (i : Instr) : Res :=
  let x := s.me
  if decide (Config.vqDepth ≤ x.vq.length) then .stall s
  else if !x.vectorOk i then (if x.vectorIdle then s.illegal else .stall s)
  else .ok (s.modHart s.cur fun y => { y with vq := y.vq ++ [y.entry s.sends i] })

/-! ## Element accesses (R168, R169, R366 to R368) -/

/-- Two places overlap. -/
def placesMeet (p : ElemPlace) (n : Nat) (q : ElemPlace) (k : Nat) : Bool :=
  match p, q with
  | .g a _, .g b _ => meet a n b k
  | .a c a, .a d b => c == d && meet a n b k
  | .c a, .c b => meet a n b k
  | .w a, .w b => meet a n b k
  | _, _ => false

/-- An earlier element access of the queue must come first (R169, R368): it meets the same bytes and one of the two
writes. -/
def elemBlocked (l : List Elem) (k : Nat) (e : Elem) : Bool :=
  (l.take k).any fun f => placesMeet f.place f.bytes e.place e.bytes && !(f.kind == .load && e.kind == .load)

/-- What an element read gives; `moved`: it waits, and has made something happen (the abort of a pack, R247). -/
inductive ElemGot
  | val (s : State) (v : Nat)
  | wait
  | moved (s : State)
  | fault (s : State) (cause : Nat)
  deriving DecidableEq, Repr

/-- The pack at `obj` is open. -/
def State.packOpen (s : State) (obj : Nat) : Bool := match s.pack? obj with
  | some p => p.state == .opened
  | none => false

/-- Reads an element's bytes of an untracked line (R187). -/
def State.readLine (s : State) (c pa n : Nat) : ElemGot := match (s.core c).uline (pa / 64) with
  | some u => if u.poisoned pa n then .fault s 7 else .val s (leNat ((u.data.drop (pa % 64)).take n))
  | none => if poisoned s.bad pa n then .fault s 7 else .val (s.fillLine c (pa / 64)) (leNat (s.mem.readN pa n))

/-- Reads an element's bytes by its page's mode, or at its bank (R168, R187, R245, R277). `pack`: the pack of a member's
access. -/
def State.readElem (s : State) (h : Nat) (va : Word) (p : ElemPlace) (n : Nat) (pack : Option Nat) : ElemGot :=
  match p with
  | .a c off => .val (s.useRemote h c off) ((s.core c).a.readLe off n)
  | .c off => .val s ((s.core (coreOf h)).c.readLe off n)
  | .w off => .val s ((s.core (coreOf h)).w.readLe off n)
  | .g pa m =>
    let c := coreOf h
    match pack with
    | some obj =>
      if !s.packOpen obj || ((s.hart h).tents.any fun t => meet t.pa t.data.length pa n) || s.readHeld pa n then .wait
      else match s.loadMember h obj true pa n m with
        | .val t bs => .val t (leNat bs)
        | .fault t c => .fault t c
        | .wait t | .miss t => .moved t
    | none =>
      if s.flipping pa || s.heldStore pa n then .wait
      else if bypasses s pa m then
        if s.hostBias pa && s.hostHolds pa then .wait
        else if poisoned s.bad pa n then .fault s 7
        else .val s (leNat (s.homeBytes pa n))
      else if m = 1 then s.readLine c pa n
      else if (s.core c).l1has pa n then (if s.l1Bad c pa n then .fault s 7 else .val s (leNat (s.l1Bytes c pa n)))
      else if s.inFlight c pa n then .wait
      else if s.l1Bad c pa n then .fault s 7
      else .val (s.fill c va pa n) (leNat (s.l1Bytes c pa n))

/-- The line an element waits for is in the host's cache: a snoop is sent (R277). -/
def State.elemSnoop (s : State) (p : ElemPlace) : Option State := match p with
  | .g pa _ => if s.hostBias pa && s.hostHolds pa && !s.snooping pa then some (s.sendSnoop (pa / 64)).happen else none
  | _ => none

/-- C-space bytes among the addresses a slot watches. -/
def cKey (core off : Nat) : Nat := 2 ^ 61 + core * 2 ^ 21 + off

/-- Performs a store element: a drain step, a tentative store, or a bank write (R245, R366). None: it waits. -/
def State.writeElem (s : State) (h : Nat) (e : Elem) : Option (State × Bool) :=
  let bs := leBytes e.bytes e.data.toNat
  match e.place with
  | .a c off =>
    some (((s.useRemote h c off).modCore c fun x => { x with a := x.a.writeN off bs }).noteWrite none (aKey c off) e.bytes, true)
  | .c off =>
    let c := coreOf h
    some ((s.modCore c fun x => { x with c := x.c.writeN off bs }).noteWrite none (cKey c off) e.bytes, true)
  | .w _ => none
  | .g pa m => match e.pack with
    | some obj =>
      if s.pageHeld pa || s.hostWaits pa e.bytes then none
      else match s.memberAccess obj pa e.bytes (some fun _ => bs) with
        | .done t _ => some (t, true)
        | .aborted t => some (t, true)
    | none =>
      if s.storeReady (coreOf h) pa e.bytes m then some (s.putStore h true (some (e.iword, e.idx)) e.va pa m bs) else none

/-- The AMO operation of a VAMO (R367). -/
def vamoOp : VAmoOp → Bool → AmoOp
  | .add, _ => .add
  | .and, _ => .and
  | .or, _ => .or
  | .xor, _ => .xor
  | .min, sgn => if sgn then .min else .minu
  | .max, sgn => if sgn then .max else .maxu
  | .fadd, _ => .fadd

/-- An atomic on a place may be performed now: no hold of its page, no pack that holds its line, no registration of its
own core on the way, no copy in the host's cache (R139, R152, R247, R277, R279, R303). -/
def State.atomReady (s : State) (core : Nat) (p : Place) (n : Nat) : Bool := match p with
  | .aspace _ _ => true
  | .phys pa => !s.pageHeld pa && !s.flipping pa && !s.packHolds pa n && !s.inFlight core pa n &&
      !(s.hostBias pa && s.hostHolds pa)

/-- Performs a VAMO element; its flags go to ATFLAGS (R141, R367). -/
def State.amoElem (s : State) (h : Nat) (op : VAmoOp) (sgn : Bool) (e : Elem) : Option State :=
  let o := vamoOp op sgn
  let flags := fun (t : State) (f : FlagBits) => t.modHart h fun x => { x with atflags := x.atflags ||| f }
  match e.place with
  | .a c off =>
    let r := (s.useRemote h c off).atomicAt (coreOf h) (.aspace c off) e.bytes (.amo o) e.data.toNat
    some (flags r.2.2 r.2.1)
  | .g pa _ => match e.pack with
    | some hd =>
      let f := fun bs : List Byte => leBytes e.bytes (amoApply o e.bytes (leNat bs) e.data.toNat).bits
      if s.pageHeld pa || s.hostWaits pa e.bytes then none
      else match s.memberAccess hd pa e.bytes (some f) with
      | .done t old => some (flags t (amoApply o e.bytes (leNat old) e.data.toNat).fl)
      | .aborted t => some t
    | none =>
      if s.atomReady (coreOf h) (.phys pa) e.bytes then
        let r := s.atomicAt (coreOf h) (.phys pa) e.bytes (.amo o) e.data.toNat
        some (flags r.2.2 r.2.1)
      else none
  | _ => none

/-! ## Streams (R66, R67, R69, R70) -/

/-- The space of a descriptor's SPACE code (R66). -/
def streamSpace (n : Nat) : Space := match n with
  | 1 => .g | 2 => .a | 3 => .c | 4 => .w | _ => .ra

/-- Stream element j lies inside the stream. -/
def VStream.inside (t : VStream) (j : Nat) : Bool := decide (j < t.count0 * t.count1)

/-- The address of stream element j (R67). -/
def VStream.addr (t : VStream) (j : Nat) : Word :=
  t.base + BitVec.ofNat 64 (j % t.count0) * t.stride0 + BitVec.ofNat 64 (j / t.count0) * t.stride1

/-- Where an element access lies, with its alignment (R132, R366). -/
def State.locateElem (s : State) (h : Nat) (sp : Space) (acc : Acc) (va : Word) (n : Nat) : State × Loc :=
  if va.toNat % n ≠ 0 then (s, .fault 3) else s.locate h sp acc va n

/-- An access to an uncached page comes after the hart's earlier ones (R187). -/
def State.uncachedWaits (s : State) (h k : Nat) (p : ElemPlace) : Bool := match p with
  | .g _ m => m == 2 && ((s.hart h).sbuf.any (fun e => e.pbmt == 2) || s.atomUncached h ||
      ((s.hart h).elems.take k).any Elem.uncached)
  | _ => false

/-- What a read of a strip comes to: its elements, or a wait, with the state where it has made something happen. -/
abbrev StripRes (α : Type) := Except (Option State) α

/-- Reads element `j` of a stream (R67, R69). -/
def State.readOne (s : State) (h : Nat) (t : VStream) (j : Nat) : StripRes (State × StripElem) :=
  if !t.inside j then .ok (s, { value := 0, fault := none })
  else
    let va := t.addr j
    match s.locateElem h (streamSpace t.space) .load va t.ty.bytes with
    | (s, .fault c) => .ok (s, { value := 0, fault := some (c, va) })
    | (s, .at_ p) =>
      if ((s.hart h).elems.any fun e => e.kind != .load && placesMeet e.place e.bytes p t.ty.bytes) ||
          s.uncachedWaits h (s.hart h).elems.length p then .error none
      else match s.readElem h va p t.ty.bytes (s.hart h).member with
        | .val s v => .ok (s, { value := BitVec.ofNat 64 v, fault := none })
        | .fault s c => .ok (s, { value := 0, fault := some (c, va) })
        | .moved s => .error (some s)
        | .wait => .error (match p with
          | .g pa _ => if s.hostBias pa && s.hostHolds pa && !s.snooping pa then some (s.sendSnoop (pa / 64)).happen else none
          | _ => none)

/-- Reads elements `j`, …, `j + n - 1` of a strip into a list. -/
def State.readStrip (s : State) (h : Nat) (t : VStream) (j : Nat) : Nat → StripRes (State × List StripElem)
  | 0 => .ok (s, [])
  | n + 1 => match s.readOne h t j with
    | .error r => .error r
    | .ok (s, e) => (State.readStrip s h t (j + 1) n).map fun r => (r.1, e :: r.2)

/-- Drops `k` elements and takes `n`. -/
def slice {α : Type} (k n : Nat) (l : List α) : List α := (l.drop k).take n

/-- The strip an instruction pops: the prefetched one at its position, or read now (R67, R69). -/
def State.popStrip (s : State) (h : Nat) (t : VStream) (vl : Nat) : StripRes (State × List StripElem) :=
  match t.strips.find? fun p => p.1 == t.pos && p.2.length == vl with
  | some p => .ok (s, p.2)
  | none => s.readStrip h t t.pos vl

/-- A strip as bytes of a register. -/
def stripMem (e : Nat) : Nat → List StripElem → Memory → Memory
  | _, [], m => m
  | i, x :: xs, m => stripMem e (i + 1) xs (m.writeLe (i * e) e x.value.toNat)

/-- The step of R384 that a fault belongs to: alignment, a window, a translation, data. -/
def VFault.step (f : VFault) : Nat := if f.cause = 3 then 0 else if f.cause = 7 then 3 else if f.late then 2 else 1

/-- A cause of an access to a space comes from its translation (R384). -/
def lateCause (sp : Space) (cause : Nat) : Bool := (sp == .g || sp == .dflt) && (cause == 4 || cause == 5)

/-- The fault that is reported (R366, R384): the one of the lower element; in one element that of the earlier step, the first
operand's for one step. -/
def lowerFault (a b : Option VFault) : Option VFault := match a, b with
  | some x, some y =>
    if y.elem < x.elem || (y.elem == x.elem && decide (y.step < x.step)) then some y else some x
  | some x, none => some x
  | none, y => y

/-- The element at which an instruction stops for a fault of element `n`: VRED and VCOMPRESS restart whole, the quantisation
instructions stop on a block boundary (R124, R126, R354, R363). -/
def badElem (i : Instr) (n : Nat) : Nat := match i with
  | .vred _ _ | .vcompress _ => 0
  | i => if byBlocks i then n / 32 * 32 else n

/-- The first element whose operands an instruction reads: VCOMPRESS and VEXT ignore VSTART (R362, R363). -/
def VRun.from_ (ru : VRun) : Nat := match ru.e.instr with
  | .vcompress _ | .vext _ => 0
  | _ => ru.lo

/-- The first element that reads position `j` of source register `r`: a container belongs to its block and a plane byte to its
first element (R121, R361), and a permute reads other positions than its own (R363). A position that none reads has its own
number (R69). -/
def VRun.firstUse (ru : VRun) (x : Hart) (r : Reg) (j : Nat) : Nat := match ru.e.instr with
  | .vpackni v => if r = v.b && r != v.a && decide (j < ru.vl / 32) then 32 * j else j
  | .vunpkni k v =>
    if r = v.a then (if j < k.toNat * (ru.vl / 8) then 8 * (j % (ru.vl / 8)) else j)
    else if j < ru.vl / 32 then 32 * j else j
  | .vslide up _ => if up then j + ru.e.sb.toNat else if ru.e.sb.toNat ≤ j then j - ru.e.sb.toNat else j
  | .vperm v =>
    if r = v.b then j
    else ((List.range ru.vl).find? fun i =>
      decide (ru.lo ≤ i) && x.maskBit v.m.toNat i && ru.val x v.b i 4 == j).getD j
  | _ => j

/-- The element at which a fault of position `j` of source register `r` stops the instruction: the element of that number, or a
lower one that reads it (R69, R354, R361, R363). -/
def VRun.stopFor (ru : VRun) (x : Hart) (r : Reg) (j : Nat) : Option Nat :=
  let u := ru.firstUse x r j
  let is := match ru.e.instr with
    | .vslide _ v | .vperm v => (if decide (u < ru.vl) && x.maskBit v.m.toNat u then [u] else []) ++ [j]
    | _ => [u]
  (is.filter fun i => decide (ru.from_ ≤ i)).min?

/-- A fault of position `j` of a strip of the stream. -/
def VRun.posFault (ru : VRun) (x : Hart) (t : VStream) (j : Nat) (f : Nat × Word) : Option VFault :=
  (ru.stopFor x t.reg j).map fun i =>
    { cause := f.1, stval := f.2, elem := badElem ru.e.instr i, late := lateCause (streamSpace t.space) f.1 }

/-- The fault of a popped strip that stops the instruction (R69). -/
def VRun.stripFault (ru : VRun) (x : Hart) (t : VStream) : Nat → List StripElem → Option VFault
  | _, [] => none
  | j, e :: es => lowerFault (e.fault.bind fun f => ru.posFault x t j f) (VRun.stripFault ru x t (j + 1) es)

/-- Words of the bound register are poisoned: the pop reads them (R269). -/
def VRun.popBad (ru : VRun) (x : Hart) (t : VStream) : Option VFault :=
  if x.vbad.isEmpty then none
  else ((List.range ru.vl).filter fun j => x.elemBad t.reg j t.ty.bytes).foldl
    (fun f j => lowerFault f (ru.posFault x t j (7, 0))) none

/-- Takes the strips of every load-bound source, without their faults; a register is popped once (R67). -/
def State.takeStrips (s : State) (h : Nat) : List VOp → VRun → List (VStream × List StripElem) →
    StripRes (State × VRun × List (VStream × List StripElem))
  | [], ru, got => .ok (s, ru, got)
  | o :: os, ru, got => match (s.hart h).stream o.reg with
    | none => State.takeStrips s h os ru got
    | some t =>
      if ru.strips.any fun p => p.1 == o.reg then State.takeStrips s h os ru got
      else match s.popStrip h t ru.vl with
        | .error r => .error r
        | .ok (s, es) =>
          State.takeStrips s h os { ru with strips := (o.reg, stripMem t.ty.bytes 0 es []) :: ru.strips } (got ++ [(t, es)])

/-- Pops the strips of every load-bound source. -/
def State.popAll (s : State) (h : Nat) (os : List VOp) (ru : VRun) : StripRes (State × VRun) :=
  match s.takeStrips h os ru [] with
  | .error r => .error r
  | .ok (s, ru, got) =>
    .ok (s, { ru with fault := got.foldl (fun f p =>
      lowerFault f (lowerFault (ru.stripFault (s.hart h) p.1 0 p.2) (ru.popBad (s.hart h) p.1))) ru.fault })

/-- A store of a vector instruction may not reach a live pack object, nor a member's store a page that is not tracked device
memory (R236, R245). -/
def State.placeBad (s : State) (pack : Option Nat) (store : Bool) (p : ElemPlace) (n : Nat) : Bool := match p with
  | .g pa m => (store && s.inPackObject pa n) || (pack.isSome && !memberPage pa m)
  | _ => false

/-- The checked stores of a store-bound destination at positions with their elements, and the first fault. -/
def State.outsFrom (s : State) (h : Nat) (t : VStream) (ru : VRun) : List (Nat × Nat) → State × List Elem × Option VFault
  | [] => (s, [], none)
  | (j, i) :: rest =>
    let x := s.hart h
    if decide (i < ru.lo) || !ru.writesAt x i || !t.inside (t.pos + j) then State.outsFrom s h t ru rest
    else
      let va := t.addr (t.pos + j)
      let fault := fun (c : Nat) =>
        some { cause := c, stval := va, elem := badElem ru.e.instr i, late := lateCause (streamSpace t.space) c : VFault }
      match s.locateElem h (streamSpace t.space) .store va t.ty.bytes with
      | (s, .fault c) => (s, [], fault c)
      | (s, .at_ p) =>
        if s.placeBad x.member true p t.ty.bytes then (s, [], fault 5)
        else match State.outsFrom s h t ru rest with
          | (s, es, f) =>
            (s, { seq := ru.e.seq, pack := x.member, kind := .store, idx := j, bytes := t.ty.bytes, va := va, place := p, data := 0
                  iword := ru.e.iword } :: es, f)

/-- Bound registers of the instruction move on by VL elements (R70). -/
def Hart.advanceStreams (x : Hart) (i : Instr) (vl : Nat) : Hart :=
  let rs := (vsrcs i vl x.vew).map (fun o => o.reg) ++ (match vdst i vl x.vew with
    | some o => [o.reg]
    | none => [])
  { x with streams := x.streams.map fun t =>
      if rs.contains t.reg then { t with pos := t.pos + vl, strips := t.strips.filter fun p => p.1 != t.pos } else t }

/-! ## The end of a vector instruction -/

/-- A scalar register receives a result that is usable from a CYCLE on (R103). -/
def Hart.setBusy (x : Hart) (r : Reg) (cycle : Nat) : Hart :=
  if r = 0 then x else { x with busy := (r.toNat, cycle) :: x.busy.filter fun b => b.1 != r.toNat }

/-- Cycles from the start of a group until its results are there (R355). -/
def resultLatency : Instr → Nat
  | .vadd v | .vsub v | .vmin v | .vmax v | .vabs v | .vneg v | .vclamp v | .vcmp _ v => if v.t.isFp then 4 else 1
  | .vmul v | .vfma v => if v.t.isFp then 4 else 3
  | .vmulh _ | .vmulhr _ => 3
  | .vcvt _ _ | .vadds _ _ _ => 4
  | .vdiv _ | .vrem _ => 16
  | .vsqrt _ | .vrsqrt _ => 12
  | .vexp2 _ => 8
  | .vbscale _ | .vpackni _ | .vunpkni _ _ => 6
  | .vslide _ _ | .vperm _ | .vcompress _ => 4
  | .vext _ | .vins _ => 2
  | _ => 1

/-- The vector registers, and masks as 64 + n, that an instruction reads. -/
def resultReads (i : Instr) (vl vew : Nat) : List Nat :=
  ((vsrcs i vl vew).map fun o => o.reg.toNat) ++ (match i with
    | .xred _ _ d _ => [d.toNat]
    | _ => []) ++ ((vmaskOf i :: (match i with
    | .mlogic _ _ a b _ => [a.toNat, b.toNat]
    | .mpopc _ a _ | .mfirst _ a _ => [a.toNat]
    | .vsel v | .vcompress v => [v.c.toNat]
    | _ => [])).map (64 + ·))

/-- The vector registers and masks that an instruction writes. -/
def resultWrites (i : Instr) (vl vew : Nat) : List Nat :=
  ((match vdst i vl vew with
    | some o => [o.reg.toNat]
    | none => []) ++ (match i with
    | .mlogic _ d _ _ _ => [64 + d.toNat]
    | .vcmp _ v => [64 + v.d.toNat]
    | _ => [])) ++ (match vargs i with
    | some v => if v.xm = 0 then [] else [64 + v.xm.toNat]
    | none => [])

/-- A result that the head of the queue reads is still to come (R62, R355). -/
def Hart.resultDue (x : Hart) (i : Instr) (cyc : Nat) : Bool :=
  !x.vdue.isEmpty && x.vdue.any fun d => decide (cyc < d.2) && (resultReads i x.vl x.vew).contains d.1

/-- The results of an instruction whose last group has just ended are there from a CYCLE on. -/
def Hart.noteResults (x : Hart) (i : Instr) (cyc : Nat) : Hart :=
  { x with vdue := (x.vdue.filter fun d => decide (cyc < d.2)) ++ (if resultLatency i ≤ groupCycles i then [] else
      (resultWrites i x.vl x.vew).map fun r => (r, cyc + 1 + resultLatency i - groupCycles i)) }

/-- The head of the queue has completed: VSTART := 0, the streams move on; a scalar result is usable from the next cycle on
(R331, R362), a vector result once its latency is over (R62, R355). -/
def State.retireVector (s : State) (h : Nat) (ru : VRun) : State :=
  let cyc := (s.core (coreOf h)).cycle
  (s.modHart h fun x =>
    let y := { (x.advanceStreams ru.e.instr ru.vl).noteResults ru.e.instr cyc with
      vq := x.vq.drop 1, run := none, passed := x.linked.isSome, vstart := 0, progress := s.gtime, reported := false }
    match scalarDest ru.e.instr with
    | some d => y.setBusy d (cyc + 1)
    | none => y).happen

/-- A row op or a collective that traps at its start: its number completes at once, ISSUED keeps it, and its landing space is
freed (R216, R334). The younger ones' go back with the queue (R383). -/
def State.endNumber (s : State) (h : Nat) (e : VEntry) : State :=
  let forget := fun (x : Hart) => { x with vq := { e with instr := .nop } :: x.vq.drop 1 }
  match e.instr with
  | .mrow .. => (s.complete h 1 e.num).modHart h forget
  | .mrowv _ _ _ _ _ tag => (s.complete h 1 e.num).modHart h fun x =>
      forget { x with landing := putAt none x.landing tag.toNat none }
  | _ => s

/-- The head of the queue stops at a fault (R195, R260): VSTART holds the element. -/
def State.trapVector (s : State) (h : Nat) (e : VEntry) (f : VFault) : State :=
  (((s.endNumber h e).modHart h fun x => { x with vstart := f.elem }).takeTrap h false f.cause e.pc f.stval e.iword).noteDest h
    f.cause (destOf e.instr)

/-- Ends the head of the queue: its fault, or its completion. -/
def State.endVector (s : State) (h : Nat) (ru : VRun) : State := match ru.fault with
  | some f => s.trapVector h ru.e f
  | none => s.retireVector h ru

/-! ## Lanes (R60, R153) -/

/-- What lane `l` of the leased lanes does in the group of elements from `lo`: 0 useful, 1 masked, 2 beyond VL. -/
def laneClass (x : Hart) (ru : VRun) (e lo l : Nat) : Nat :=
  let is := if e = 8 then [lo + l / 2] else (List.range (4 / e)).map fun j => lo + l * (4 / e) + j
  if is.any fun i => decide (i < ru.vl) && decide (ru.lo ≤ i) && x.maskBit (vmaskOf ru.e.instr) i then 0
  else if is.all fun i => decide (ru.vl ≤ i) then 2 else 1

/-- The leased lanes, in the order of their clusters, that belong to clusters in service: the lanes of a retired cluster
count UNLEASED (R60, R153). -/
def State.lanesOf (s : State) (h : Nat) : List Nat :=
  let lease := (s.hart h).lease
  let cl := (List.range 16).filter fun k => lease.getLsbD k
  (List.range (16 * cl.length)).filter fun l => !(s.core (coreOf h)).lanedis.getLsbD (getAt 0 cl (l / 16))

/-- Notes the lanes of a group in this cycle, each with its cluster. -/
def State.useLanes (s : State) (h : Nat) (ru : VRun) (e lo : Nat) : State :=
  let x := s.hart h
  let cl := (List.range 16).filter fun k => x.lease.getLsbD k
  s.modCore (coreOf h) fun c =>
    { c with laneUse := c.laneUse ++ (s.lanesOf h).map fun l => (getAt 0 cl (l / 16), laneClass x ru e lo l)
             laneHarts := c.laneHarts ||| (1#8 <<< localHart h) }

/-! ## Banks (R60, R135, R165) -/

/-- The elements of an element group of the instruction (R60). -/
def VRun.size (ru : VRun) (c : Nat) : Nat := groupSize c (groupWidth ru.e.instr ru.vl (8 * ru.width))

/-- The first element group that the head executes below `hi`, and their number (R60). VEXT and VINS execute one group, that of
their element (R355). -/
def VRun.groups (ru : VRun) (c hi : Nat) : Nat × Nat :=
  let g := ru.size c
  let one := (if ru.e.sb.toNat < ru.vl then ru.e.sb.toNat / g else 0, if ru.fault.isSome then 0 else 1)
  match ru.e.instr with
  | .vext _ => one
  | .vins _ => one
  | _ => if hi ≤ ru.next || g = 0 then (0, 0) else (ru.next / g, (hi - 1) / g + 1 - ru.next / g)

/-- The execution group of element `i`, counted from the first group. -/
def VRun.groupOf (ru : VRun) (c i : Nat) : Nat := match ru.e.instr with
  | .vext _ | .vins _ => 0
  | _ => i / ru.size c - ru.lo / ru.size c

/-- The element that a position of the destination belongs to. -/
def VRun.elemOf (ru : VRun) (j : Nat) : Nat := match ru.e.instr with
  | .vbscale _ => 32 * j
  | .vpackni _ => 8 * (j % (ru.vl / 8))
  | _ => j

/-- The A-space bank words and the C-space bank words of places, for the banks of one core. -/
def bankWords (core : Nat) (ps : List ElemPlace) : List Nat × List Nat :=
  (ps.filterMap fun p => match p with
    | .a c off => if c = core then some (off / 8) else none
    | _ => none,
   ps.filterMap fun p => match p with
    | .c off => some (off / 16)
    | _ => none)

/-- The most distinct words that fall in one of `m` banks. -/
def bankDepth (m : Nat) (ws : List Nat) : Nat :=
  ((List.range m).map fun b => (ws.filter fun w => w % m == b).eraseDups.length).foldl max 0

/-- An element access goes to a bank of the core's own A- or C-space (R165). -/
def ownBank (core : Nat) (e : Elem) : Bool := match e.place with
  | .a c _ => c == core
  | .c _ => true
  | _ => false

/-- The element queues, or the bound store stream, have no room for the stores of another group (R153). -/
def Hart.elemsFull (core : Nat) (x : Hart) (ru : VRun) : Bool :=
  !ru.outs.isEmpty && decide (Config.elemQueue ≤ (x.elems.filter fun e => !ownBank core e).length)

/-- The extra cycles of one access group. -/
def extraCycles (core : Nat) (ps : List ElemPlace) : Nat :=
  let w := bankWords core ps
  max (bankDepth 256 w.1) (bankDepth 64 w.2) - 1

/-- The access groups of one access of elements `e` bytes wide, each with the execution group that first needs it (R60) and
its places; `first` gives the first element that needs a position. -/
def VRun.accessGroups (ru : VRun) (c e : Nat) (first : Nat → Nat) (es : List (Nat × ElemPlace)) : List (Nat × List ElemPlace) :=
  let g := groupSize c e
  (es.map fun p => p.1 / g).eraseDups.map fun j =>
    let here := es.filter fun p => p.1 / g == j
    ((here.map fun p => ru.groupOf c (max (first p.1) ru.lo)).foldl min (2 ^ 32), here.map fun q => q.2)

/-- The places of the first `n` elements that a popped strip takes from the core's own A- or C-space. -/
def State.stripPlaces (s : State) (h : Nat) (t : VStream) (n : Nat) : List (Nat × ElemPlace) :=
  if t.space = 2 || t.space = 3 || t.space = 5 then
    (List.range n).filterMap fun i =>
      if t.inside (t.pos + i) then match (s.locateElem h (streamSpace t.space) .load (t.addr (t.pos + i)) t.ty.bytes).2 with
        | .at_ p => some (i, p)
        | .fault _ => none
      else none
  else []

/-- A run with the extra cycles and the bank places of its popped strips and of the element accesses it makes. -/
def State.withWaits (s : State) (h : Nat) (ru : VRun) (acc : List (List Elem)) : VRun :=
  let x := s.hart h
  let core := coreOf h
  let pops := (ru.strips.map fun p => p.1).flatMap fun r => match x.stream r with
    | some t => ru.accessGroups x.c t.ty.bytes (fun j => min (ru.firstUse x r j) (ru.vl - 1)) (s.stripPlaces h t ru.vl)
    | none => []
  let own := acc.flatMap fun es => match es.head? with
    | some e => ru.accessGroups x.c e.bytes ru.elemOf (es.map fun e => (e.idx, e.place))
    | none => []
  let gs := pops ++ own
  let ws := (gs.map fun p => (p.1, extraCycles core p.2)).filter fun p => p.2 != 0
  let last := (ws.map fun p => p.1 + 1).foldl max 0
  { ru with waits := (List.range last).map fun k => ((ws.filter fun p => p.1 == k).map fun p => p.2).sum
            places := gs.flatMap fun p => (p.2.filter fun q => match q with
              | .a c _ => c == core
              | .c _ => true
              | _ => false).map fun q => (p.1, q) }

/-! ## Start (R342, R366) -/

/-- The address of element i of a vector memory instruction (R366, R367). -/
def VRun.addr (ru : VRun) (x : Hart) (v : VMem) (i : Nat) : Word :=
  let b := ru.e.sa + sext64 v.off
  match v.k with
  | .unit => b + BitVec.ofNat 64 (i * v.t.bytes)
  | .strided => b + BitVec.ofNat 64 i * ru.e.sb
  | .indexed => b + sext64 (BitVec.ofNat 32 (ru.val x v.b i 4))

/-- The space of a vector memory instruction (R131). -/
def VRun.space (ru : VRun) (v : VMem) : Space := if v.sp = .dflt then mtSpace ru.e.num else v.sp

/-- Checks elements `i`, …, `i + n - 1` of a vector memory instruction in order and makes their accesses; the first fault
stops (R384: cause 3, 5, 4 or 5, then a poisoned data register). -/
def State.elemsFrom (s : State) (h : Nat) (ru : VRun) (v : VMem) (kind : ElemKind) (i : Nat) : Nat →
    State × List Elem × Option VFault
  | 0 => (s, [], none)
  | n + 1 =>
    let x := s.hart h
    if !x.maskBit v.m.toNat i then State.elemsFrom s h ru v kind (i + 1) n
    else if v.k = .indexed && ru.bad x v.b i 4 then (s, [], some { cause := 7, stval := 0, elem := i })
    else
      let va := ru.addr x v i
      let sp := ru.space v
      let acc := if kind = .load then Acc.load else .store
      let noSpace : Bool := match kind with
        | .amo _ _ => sp == .c || sp == .w
        | _ => false
      match (if va.toNat % v.t.bytes ≠ 0 then (s, Loc.fault 3) else if noSpace then (s, .fault 5)
          else s.locate h sp acc va v.t.bytes) with
      | (s, .fault c) => (s, [], some { cause := c, stval := va, elem := i, late := lateCause sp c })
      | (s, .at_ p) =>
        let badData := kind != .load && ru.bad x v.d i v.t.bytes
        if s.placeBad x.member (kind != .load) p v.t.bytes then (s, [], some { cause := 5, stval := va, elem := i })
        else if badData then (s, [], some { cause := 7, stval := 0, elem := i })
        else
          let d := if kind = .load then 0 else BitVec.ofNat 64 (ru.val x v.d i v.t.bytes)
          match State.elemsFrom s h ru v kind (i + 1) n with
          | (s, es, f) =>
            (s, { seq := ru.e.seq, pack := x.member, kind := kind, idx := i, bytes := v.t.bytes, va := va, place := p, data := d
                  iword := ru.e.iword } :: es, f)

/-- The run of a queue entry with the configuration it takes (R342). -/
def Hart.newRun (x : Hart) (e : VEntry) : VRun :=
  { e := e, vl := x.vl, lo := x.vstart, next := x.vstart, limit := x.vl, fault := none, frm := x.frm, sb := x.sb
    seed := x.seed, width := x.vew / 8, strips := [], staged := [], outs := [], waits := [], places := [], spent := 0 }

/-- A fault sets the limit; an instruction that acts whole then does nothing. -/
def VRun.stopAt (ru : VRun) (f : Option VFault) : VRun := match lowerFault ru.fault f with
  | some g => { ru with fault := some g, limit := if actsWhole ru.e.instr then 0 else min ru.limit g.elem }
  | none => ru

/-- The checked positions of a store-bound destination, and the first fault. -/
def State.addOuts (s : State) (h : Nat) (ru : VRun) : State × List Elem × Option VFault :=
  match vdst ru.e.instr ru.vl (8 * ru.width) with
  | none => (s, [], none)
  | some o => match (s.hart h).stream o.reg with
    | none => (s, [], none)
    | some t => s.outsFrom h t ru ru.positions

/-- The elements below `hi` that a VLD has received are written (R366). -/
def VRun.writeLoaded (ru : VRun) (v : VMem) (hi : Nat) (x : Hart) : Hart :=
  let y := ru.staged.foldl (fun (y : Hart) p => if p.1 < hi then ru.put y v.d p.1 v.t.bytes p.2.toNat else y) x
  if (x.stream v.d).isSome || x.vbad.isEmpty then y
  else y.clearWritten v.d v.t.bytes fun j => decide (j < hi) && ru.staged.any fun p => p.1 == j

/-- A VLD whose loads have all delivered writes its elements and ends (R366). -/
def State.endLoad (s : State) (h : Nat) (ru : VRun) (v : VMem) : State :=
  (s.modHart h fun x => ru.writeLoaded v ru.limit x).endVector h ru

/-- No load element of the hart is left. -/
def Hart.loadsLeft (x : Hart) : Bool := x.elems.any fun e => e.kind == .load

/-! ## Loads ahead of older vector loads (R171, R172)

A load need not wait for the elements of the vector loads in front of it, whatever they name: an element access comes after
the element it depends on only (R172). The value read ahead is held until the load starts (R383). Which loads read ahead, and
when, is free (log 7). -/

/-- The index of element `i` of the load behind the load at the head: in its register, or delivered to the head. -/
def Hart.earlyIndex (x : Hart) (head : VEntry) (v : VMem) (i : Nat) : Option Word :=
  let writes := match head.instr with
    | .vld u => u.d == v.b
    | _ => true
  if v.k != .indexed then some 0
  else if (x.stream v.b).isSome || x.elemBad v.b i 4 then none
  else if !writes then some (sext64 (BitVec.ofNat 32 (x.velem v.b i 4)))
  else match x.run with
    | some ru => match ru.e.instr with
      | .vld u => if u.t.bytes = 4 then (ru.staged.find? fun p => p.1 == i).map fun p => sext64 (BitVec.ofNat 32 p.2.toNat) else none
      | _ => none
    | none => none

/-- Element `i` of the load behind the head is read ahead, where its access is plain and no older access of the hart meets its
bytes (R169, R187). -/
def State.earlyElem (s : State) (h : Nat) (head : VEntry) (e : VEntry) (v : VMem) (i : Nat) : State :=
  let x := s.hart h
  if !x.maskBit v.m.toNat i || x.early.any (fun r => r.pc == e.pc && r.idx == i) then s
  else match x.earlyIndex head v i with
    | none => s
    | some ix =>
      let va := e.sa + sext64 v.off + (match v.k with
        | .unit => BitVec.ofNat 64 (i * v.t.bytes)
        | .strided => BitVec.ofNat 64 i * e.sb
        | .indexed => ix)
      match s.locateElem h (if v.sp = .dflt then mtSpace e.num else v.sp) .load va v.t.bytes with
      | (t, .at_ p) =>
        if (x.elems.any fun f => placesMeet f.place f.bytes p v.t.bytes) || (match p with
          | .g _ m => m == 2
          | _ => false) then s
        else match t.readElem h va p v.t.bytes none with
          | .val t w => t.modHart h fun y => 
              { y with early := { pc := e.pc, idx := i, va := va, value := BitVec.ofNat 64 w } :: y.early }
          | _ => s
      | _ => s

/-- The vector load behind the vector load at work reads ahead, element by element as free choices say: the accesses of those
behind it come after its own (R169). -/
def State.readAheads (s : State) (h : Nat) : State :=
  let x := s.hart h
  match x.vq with
  | e₀ :: e :: es => match e₀.instr, e.instr with
    | .vld _, .vld v =>
      if x.pack.isSome || (e₀ :: es).any fun f => f.pc == e.pc then s
      else (List.range x.vl).foldl (fun (t : State) i =>
        let u := if Config.choice t.fresh then t.earlyElem h e₀ e v i else t
        { u with fresh := u.fresh + 1 }) s
    | _, _ => s
  | _ => s

/-! ## Start (R342, R366) -/

/-- The VST or VAMO behind a vector load whose data the load delivers, with the kind of its accesses (R172). -/
def linkable (x : Hart) (e₀ e₁ : VEntry) : Option (VMem × ElemKind) :=
  let meets := fun (u v : VMem) => v.d == u.d && v.t.bytes == u.t.bytes && (x.stream v.d).isNone && x.pack.isNone &&
    (v.k != .indexed || (v.b != u.d && (x.stream v.b).isNone))
  match e₀.instr, e₁.instr with
  | .vld u, .vst v => if meets u v then some (v, .store) else none
  | .vld u, .vamo op v => if meets u v then some (v, .amo op v.t.isSigned) else none
  | _, _ => none

/-- The store behind the load at work passes its checks ahead of its start, where a free choice says so: then each of its
accesses waits for its own element of the load only (R172, log 7). -/
def State.linkStore (s : State) (h : Nat) : State :=
  let x := s.hart h
  match x.vq with
  | e₀ :: e₁ :: _ => match linkable x e₀ e₁ with
    | some (v, kind) =>
      if x.linked.isSome then s
      else
        let t := { s with fresh := s.fresh + 1 }
        if Config.choice s.fresh then match t.elemsFrom h { x.newRun e₁ with lo := 0, next := 0 } v kind 0 x.vl with
          | (u, es, none) => if es.any Elem.uncached then t else u.modHart h fun y => { y with linked := some es }
          | _ => t
        else t
    | none => s
  | _ => s

/-- Element `i` of the load at work has delivered: a linked access that uses it joins the element queue, where a free choice
says so and no load that is still to deliver meets poison (R172, R383). -/
def State.joinLinked (s : State) (h i : Nat) (v : Word) : State :=
  let x := s.hart h
  match x.linked with
  | none => s
  | some es => match es.find? fun f => f.idx == i with
    | none => s
    | some f =>
      let clean := x.elems.all fun g => g.kind != .load || (match g.place with
        | .g pa _ => !poisoned s.bad pa g.bytes
        | _ => true)
      if Config.choice s.fresh && clean then
        { s with fresh := s.fresh + 1 }.modHart h fun y =>
          { y with linked := some (es.filter fun g => g.idx != i), passed := true, elems := y.elems ++ [{ f with data := v }] }
      else { s with fresh := s.fresh + 1 }

/-- The checks and accesses of a vector memory instruction, or the poison that another meets (R354, R366, R384). -/
def State.ownElems (s : State) (h : Nat) (ru : VRun) (hi : Nat) : State × List Elem × Option VFault :=
  match ru.e.instr with
  | .vld v => s.elemsFrom h ru v .load ru.lo (hi - ru.lo)
  | .vst v => s.elemsFrom h ru v .store ru.lo (hi - ru.lo)
  | .vamo op v => s.elemsFrom h ru v (.amo op v.t.isSigned) ru.lo (hi - ru.lo)
  | i => (s, [], (ru.firstBad (s.hart h) ru.from_ (hi - ru.from_)).map fun n => { cause := 7, stval := 0, elem := badElem i n })

/-- The elements of a VLD that it has read ahead. -/
def Hart.earlyStaged (x : Hart) (e : VEntry) (es : List Elem) : List (Nat × Word) :=
  es.filterMap fun f => (x.early.find? fun r => r.pc == e.pc && r.idx == f.idx && r.va == f.va).map fun r => (f.idx, r.value)

/-- The head of the queue starts with its checked run: a load's accesses join the element queue, those of a store and of an
atomic wait in the run for their element groups. -/
def State.startRun (s : State) (h : Nat) (ru : VRun) (es : List Elem) : State :=
  match ru.e.instr with
  | .vld _ =>
    let early := (s.hart h).earlyStaged ru.e es
    (((s.modHart h fun y =>
      { y with run := some { ru with staged := early }, early := y.early.filter fun r => r.pc != ru.e.pc
               elems := y.elems ++ es.filter fun f => !early.any fun p => p.1 == f.idx }).readAheads h)).happen
  | _ => (s.modHart h fun y => { y with run := some ru }).happen

/-- A store whose accesses were linked to the load before it starts with those that are left and the data of its register. -/
def State.startLinked (s : State) (h : Nat) (e : VEntry) (es : List Elem) : State :=
  let x := s.hart h
  let ru := x.newRun e
  let es := match vmemOf e.instr with
    | some v => es.map fun f => { f with data := BitVec.ofNat 64 (x.velem v.d f.idx v.t.bytes) }
    | none => es
  let ru := { s.withWaits h ru [es] with outs := es }
  (s.modHart h fun y => { y with run := some ru, linked := none }).happen

/-- The head of the queue starts (R342). None where it cannot start now. -/
def State.startVector (s : State) (h : Nat) : Option State :=
  let x := s.hart h
  match x.vq, x.run with
  | e :: _, none =>
    if x.resultDue e.instr (s.core (coreOf h)).cycle then none
    else match x.linked with
    | some es => some (s.startLinked h e es)
    | none => match s.popAll h (vsrcs e.instr x.vl x.vew) (x.newRun e) with
    | .error r => r
    | .ok (s, ru) => match s.addOuts h ru with
      | (s, outs, fd) =>
        let hi := match lowerFault fd ru.fault with
          | some f => min ru.vl (f.elem + 1)
          | none => ru.vl
        match s.ownElems h ru hi with
        | (s, es, fe) =>
          let ru := { ru with fault := lowerFault fd (lowerFault fe ru.fault) }.stopAt none
          let es := es.filter fun f => decide (f.idx < ru.limit)
          let ru := { s.withWaits h ru [outs, es] with outs := outs ++ (match e.instr with
            | .vld _ => []
            | _ => es) }
          some (s.startRun h ru es)
  | _, _ => none

/-! ## Element groups (R60, R260) -/

/-- The end of the elements that the head executes together from `next` on: an element group, as many as whole blocks take
(R124), or all of them for an instruction that acts whole. -/
def VRun.groupEnd (ru : VRun) (c : Nat) : Nat :=
  if actsWhole ru.e.instr then ru.limit
  else
    let g := ru.size c
    let g := if byBlocks ru.e.instr && g % 32 != 0 then 2 * g else g
    if g = 0 then ru.limit else min ru.limit ((ru.next / g + 1) * g)

/-- The levels of a reduction's tree: ceil(log2 n) for n active elements (R355). DESIGN CHOICE (log 29): its lanes count as
in its last group meanwhile. -/
def VRun.levels (ru : VRun) (x : Hart) : Nat := match ru.e.instr with
  | .vred _ v =>
    let n := ((List.range ru.vl).filter fun i => decide (ru.lo ≤ i) && x.maskBit v.m.toNat i).length
    if n ≤ 1 then 0 else Nat.log2 (n - 1) + 1
  | _ => 0

/-- The cycles that elements [next, hi) take, without the banks' extra ones (R355). -/
def VRun.cycles (ru : VRun) (x : Hart) (hi : Nat) : Nat :=
  let n := (ru.groups x.c hi).2
  if n = 0 then 0 else n * groupCycles ru.e.instr + ru.levels x

/-- An element group starts in the head's next cycle. -/
def VRun.opens (ru : VRun) (x : Hart) (hi : Nat) : Bool :=
  decide (ru.spent < (ru.groups x.c hi).2 * groupCycles ru.e.instr) && ru.spent % groupCycles ru.e.instr == 0

/-- The element group of the head's next cycle. -/
def VRun.atGroup (ru : VRun) (c hi : Nat) : Nat :=
  let gs := ru.groups c hi
  gs.1 + min (ru.spent / groupCycles ru.e.instr) (gs.2 - 1)

/-- The bank places of the group that the head starts next. -/
def VRun.groupPlaces (ru : VRun) (x : Hart) : List ElemPlace :=
  let j := ru.atGroup x.c (ru.groupEnd x.c) - ru.lo / ru.size x.c
  (ru.places.filter fun p => p.1 == j).map fun p => p.2

/-- The extra cycles that the bank uses of engines and messages in a cycle cost a group that is presented, or waits to be, in it:
each is one more word of its bank (R135, R165). -/
def engineWait (core : Nat) (shown used : List ElemPlace) : Nat :=
  let g := bankWords core shown
  let u := bankWords core used
  let depth := fun (m : Nat) (ws us : List Nat) =>
    ((List.range m).map fun b =>
      if ws.any (fun w => w % m == b) then (ws.filter fun w => w % m == b).eraseDups.length + (us.filter fun w => w % m == b).length
      else 0).foldl max 0
  if used.isEmpty then 0
  else max (depth 256 g.1 u.1) (depth 64 g.2 u.2) - max (bankDepth 256 g.1) (bankDepth 64 g.2)

/-- What this cycle's uses of its banks add to the wait of the group that the head starts next. -/
def State.engineDelay (s : State) (h : Nat) (ru : VRun) : Nat :=
  let x := s.hart h
  if ru.opens x (ru.groupEnd x.c) then engineWait (coreOf h) (ru.groupPlaces x) (s.core (coreOf h)).bankUse else 0

/-- An asynchronous cause waits to be taken at the next boundary of a load in progress, which presents no further group (R260). A
younger word that has passed it (R383), the other half of a pair, and a PKCOMMIT that waits for it keep the cause waiting. -/
def Hart.asyncWaits (x : Hart) (ru : VRun) (now : Nat) : Bool :=
  (x.priv == .user || wbit x.sstatus 1) && (!x.asyncs.isEmpty || (x.sstart != 0 && decide (x.sstart.toNat ≤ now))) &&
  !x.passed && formOf ru.e.iword != 1 && !(match x.item with
    | .instr (.pkcommit _) _ => x.wait.isSome
    | _ => false)

/-- A load in progress stops at the boundary it has reached. -/
def VRun.stopsLoad (ru : VRun) (x : Hart) (now : Nat) : Bool := match ru.e.instr with
  | .vld _ => decide (ru.lo < ru.next) && x.asyncWaits ru now
  | _ => false

/-- The head may execute in this cycle: it has not done so yet, and the banks are not busy with the access of a group that
starts (R60, R135). -/
def State.groupReady (s : State) (h : Nat) (ru : VRun) : Bool :=
  let x := s.hart h
  !(s.core (coreOf h)).laneHarts.getLsbD (localHart h) && !(s.core (coreOf h)).snapped && !ru.stopsLoad x s.gtime &&
    s.engineDelay h ru == 0 && !(ru.opens x (ru.groupEnd x.c) && (ru.waits.headD 0 != 0 || x.elemsFull (coreOf h) ru))

/-- Executes elements [lo, hi); the flags and the scalar result of the oldest instruction stay when a younger one traps
(R383). -/
def VRun.execHeld (ru : VRun) (lo hi : Nat) (x : Hart) : Hart :=
  let y := ru.exec lo hi { x with fflags := 0 }
  let z := { y with fflags := x.fflags }.raiseFlags y.fflags
  match scalarDest ru.e.instr with
  | some d => if d = 0 then z else
      { z with vq := z.vq.map fun e =>
          { e with save := { e.save with s := putAt 0 e.save.s d.toNat (y.rd d), sbad := e.save.sbad &&& ~~~(1#64 <<< d.toNat) } } }
  | none => z

/-- What an element group does: the checked stores and atomics of the group join the element queue, or the elements are
computed. An instruction that acts whole and faults writes nothing. -/
def VRun.group (ru : VRun) (hi : Nat) (x : Hart) : Hart := match ru.e.instr with
  | .vld _ => x
  | .vst _ | .vamo _ _ =>
    { x.dropStrips with elems := x.elems ++ ru.outs.filter fun e => decide (ru.next ≤ e.idx) && decide (e.idx < hi) }
  | i =>
    let x := if actsWhole i && ru.fault.isSome then x else ru.execHeld ru.next hi x
    if ru.outs.isEmpty then x else x.dropStrips

/-- The head of the queue has presented its groups up to `next`: the last one ends it, but for a load that waits for data. -/
def State.endGroup (s : State) (h : Nat) (ru : VRun) : State :=
  if ru.next < ru.limit then s.modHart h fun x => { x with run := some ru }
  else match ru.e.instr with
    | .vld v => if (s.hart h).loadsLeft then s.modHart h fun x => { x with run := some ru } else s.endLoad h ru v
    | _ => s.endVector h ru

/-- A load that has presented its last group and waits for data. -/
def VRun.presented (ru : VRun) (x : Hart) : Bool := match ru.e.instr with
  | .vld _ => decide (ru.limit ≤ ru.next) && x.loadsLeft
  | _ => false

/-- The run once the cycle of a group is under way: a group that starts has been served by the banks. -/
def VRun.tick (ru : VRun) (x : Hart) (hi : Nat) : VRun := if ru.opens x hi then { ru with waits := ru.waits.drop 1 } else ru

/-- The head of the queue executes for one cycle (R60, R153, R355): the last cycle of its group, or of what it executes
together, has the effect. None where nothing runs or it must wait. -/
def State.runGroup (s : State) (h : Nat) : Option State :=
  match (s.hart h).run with
  | none => none
  | some ru =>
    let x := s.hart h
    if !s.groupReady h ru || ru.presented x then none
    else
      let hi := ru.groupEnd x.c
      let n := ru.cycles x hi
      let j := ru.atGroup x.c hi
      let s := if n = 0 then s else s.useLanes h ru (groupWidth ru.e.instr ru.vl (8 * ru.width)) (j * ru.size x.c)
      let ru := ru.tick x hi
      if ru.spent + 1 < n then some ((s.modHart h fun x => { x with run := some { ru with spent := ru.spent + 1 } }).happen)
      else
        let s := s.modHart h fun x => { ru.group hi x with progress := s.gtime, reported := false }
        some ((s.endGroup h { ru with next := hi, spent := 0 }).happen)

/-! ## The element step (R168) -/

/-- The last element of a group of a load has delivered: that is progress (R258). A fault leaves no access above its element
(R366). -/
def Hart.delivered (x : Hart) (ru : VRun) (idx now : Nat) : Hart :=
  let g := ru.size x.c
  let es := if ru.fault.isSome then x.elems.filter fun e => e.kind != .load || decide (e.idx < ru.limit) else x.elems
  if es.any fun e => e.kind == .load && e.idx / g == idx / g then { x with run := some ru, elems := es }
  else { x with run := some ru, elems := es, progress := now, reported := false }

/-- A load element's value, or its fault, reaches the run; the last one ends the instruction. -/
def State.deliver (s : State) (h : Nat) (idx : Nat) (got : Option Nat) (f : Option VFault) : State :=
  match (s.hart h).run with
  | none => s
  | some ru =>
    let ru := ru.stopAt f
    let ru := match got with
      | some v => { ru with staged := ru.staged ++ [(idx, BitVec.ofNat 64 v)] }
      | none => ru
    let s := ((s.modHart h fun x => x.delivered ru idx s.gtime).readAheads h).linkStore h
    let s := match got with
      | some v => s.joinLinked h idx (BitVec.ofNat 64 v)
      | none => s
    if (s.hart h).loadsLeft || decide (ru.next < ru.limit) then s
    else match ru.e.instr with
      | .vld v => s.endLoad h ru v
      | _ => s

/-- An element write outside every pack that a pack holds arrives at its home (R247). -/
def State.holdElem (s : State) (e : Elem) : Option State := match e.place with
  | .g pa _ => if e.pack.isSome then none else s.noteHold pa e.bytes
  | _ => none

/-- Of what the hart had sent before the element's instruction, something to the same word of an A-space is still on its way
(R134). -/
def State.sentBefore (s : State) (h : Nat) (e : Elem) : Bool := match e.place with
  | .a c off =>
    (s.ras.any fun m => m.hart == h && decide (m.seq < e.seq) && m.core == c && meet (m.off / 8 * 8) 8 off e.bytes) ||
    s.atoms.any fun a => a.hart == h && decide (a.seq < e.seq) && (match a.place with
      | .aspace d o => d == c && meet (o / 8 * 8) 8 off e.bytes
      | .phys _ => false)
  | _ => false

/-- Element access `k` of a hart's element queue performs its read, its drain or its atomic step. None where it must
wait. -/
def State.stepElem (s : State) (h k : Nat) : Option State :=
  match (s.hart h).elems[k]? with
  | none => none
  | some e =>
    if elemBlocked (s.hart h).elems k e || s.uncachedWaits h k e.place || s.sentBefore h e then none
    else
      let gone := fun (t : State) => t.modHart h fun x => { x with elems := x.elems.eraseIdx k }
      match s.elemSnoop e.place with
      | some t => some t
      | none => match e.kind with
        | .load => match s.readElem h e.va e.place e.bytes e.pack with
          | .moved t => some t
          | .val t v => some ((gone t).deliver h e.idx (some v) none).happen
          | .fault t c => some ((gone t).deliver h e.idx none (some { cause := c, stval := e.va, elem := e.idx })).happen
          | .wait => none
        | .store => match s.writeElem h e with
          | some (t, true) => some ((gone t).modHart h Hart.dropStrips).happen
          | some (t, false) => some t
          | none => s.holdElem e
        | .amo op sgn => match s.amoElem h op sgn e with
          | some t => some ((gone t).modHart h Hart.dropStrips).happen
          | none => s.holdElem e

/-! ## Prefetch (R67, R69) -/

/-- An element of the strip lies in an uncached page: it is read in program order, when its strip is popped (R187). -/
def State.stripUncached (s : State) (h : Nat) (t : VStream) (j n : Nat) : Bool :=
  (List.range n).any fun i => t.inside (j + i) &&
    (match (s.locateElem h (streamSpace t.space) .load (t.addr (j + i)) t.ty.bytes).2 with
    | .at_ (.g _ m) => m == 2
    | _ => false)

/-- A load stream takes one more strip ahead: at most 4, with every earlier vector instruction done. -/
def State.prefetch (s : State) (h reg : Nat) : Option State :=
  let x := s.hart h
  match x.stream (BitVec.ofNat 6 reg) with
  | none => none
  | some t =>
    if t.store || x.vl = 0 || decide (4 ≤ t.strips.length) || !x.vectorIdle || !x.elems.isEmpty || x.member.isSome ||
        t.ty.bytes * x.vl > x.vbytes || !t.inside (t.pos + t.strips.length * x.vl) ||
        s.stripUncached h t (t.pos + t.strips.length * x.vl) x.vl then none
    else match s.readStrip h t (t.pos + t.strips.length * x.vl) x.vl with
      | .error r => r
      | .ok (u, es) => some (u.modHart h fun y =>
          y.setStream { t with strips := t.strips ++ [(t.pos + t.strips.length * x.vl, es)] }).happen

/-! ## VBIND, VUNBIND, VCOMMIT (R66, R68, R72, R369, R370) -/

/-- A descriptor whose fields obey R66. -/
def streamOf (r : Reg) (bs : List Byte) : Option VStream :=
  let c0 := le bs 24 4
  let c1 := le bs 28 4
  let sp := le bs 32 1
  let dir := le bs 34 1
  let ty : Option Ty := match le bs 33 1 with
    | 0 => some .i8 | 1 => some .i16 | 2 => some .i32 | 3 => some .i64 | 4 => some .u8 | 5 => some .u16
    | 6 => some .u32 | 7 => some .u64 | 8 => some .bf16 | 9 => some .f32
    | _ => none
  match ty with
  | none => none
  | some t =>
    if c0 = 0 || c1 = 0 || sp = 0 || decide (5 < sp) || decide (1 < dir) || le bs 35 29 ≠ 0 || (dir = 1 && sp = 4) then
      none
    else some { reg := r, base := leW bs 0, stride0 := leW bs 8, stride1 := leW bs 16, count0 := c0, count1 := c1
                space := sp, ty := t, store := dir == 1, pos := 0, strips := [] }

/-- The descriptor's 64 bytes as a load of the hart (R369). -/
def State.readDesc (s : State) (h : Nat) (pa : Nat) (m : BitVec 2) : LdRes :=
  match (s.hart h).member with
  | some hd => s.loadMember h hd true pa 64 m
  | none =>
    if s.flipping pa || s.heldStore pa 64 || s.inFlight (coreOf h) pa 64 || s.postedTo h pa 64 then .wait s
    else if bypasses s pa m then s.loadHome h true pa 64 m
    else if m = 1 then s.loadCached h true 0 pa 64 m
    else if s.l1Bad (coreOf h) pa 64 then .fault s 7
    else .val s (s.l1Bytes (coreOf h) pa 64)

/-- VBIND. -/
def effVbind (s : State) (d a : Reg) : Res :=
  let x := s.me
  let va := x.rd a
  if decide (x.nvreg ≤ d.toNat) || (x.stream d).isSome || decide (8 ≤ x.streams.length) then s.illegal
  else if va.toNat % 64 ≠ 0 then .trap s 3 va
  else if !x.vectorIdle || !x.sbuf.isEmpty then .stall s
  else match s.locateG s.cur .load va 64 with
    | (s, .fault c) => .trap s c va
    | (s, .at_ (.g pa m)) => match s.readDesc s.cur pa m with
      | .val s bs => match streamOf d bs with
        | some t => .ok (s.modHart s.cur fun y => { y with streams := y.streams ++ [t] })
        | none => s.illegal
      | .wait s => .stall s
      | .miss s => .stall s
      | .fault s c => .trap s c va
    | (s, .at_ _) => .trap s 5 va

/-- VUNBIND (R68). -/
def effVunbind (s : State) (d : Reg) : Res :=
  let x := s.me
  if decide (x.nvreg ≤ d.toNat) then s.illegal
  else if !x.vectorIdle then .stall s
  else match x.stream d with
    | none => .ok s
    | some t =>
      if t.store && !s.storesDone s.cur then .stall s
      else .ok (s.modHart s.cur fun y => { y with streams := y.streams.filter fun u => u.reg != d })

/-- The committed elements (R72): `n` elements of width `e` from element `i` on. -/
def commitElems (t : LandTag) (e : Nat) : Nat → Nat → Hart → Hart
  | _, 0, x => x
  | i, n + 1, x =>
    commitElems t e (i + 1) n
      (if x.maskBit t.mask.toNat i then x.setElem t.reg i e (le t.data (i * e) e) else x)

/-- The width of a tag's elements. -/
def LandTag.width (t : LandTag) : Nat := if t.vl = 0 then 1 else t.bytes / t.vl

/-- The committed elements are in the register: words they cover lose their poison (R269). -/
def LandTag.commit (t : LandTag) (x : Hart) : Hart :=
  (commitElems t t.width 0 t.vl x).clearWritten t.reg t.width fun j => decide (j < t.vl) && x.maskBit t.mask.toNat j

/-- The stores of a commit to a register that has been bound to a store stream since (R67): checked element by element. -/
def State.commitOuts (s : State) (h : Nat) (u : VStream) (t : LandTag) : Nat → Nat → State × Except (Nat × Word) (List Elem)
  | _, 0 => (s, .ok [])
  | i, n + 1 =>
    if !(s.hart h).maskBit t.mask.toNat i || !u.inside (u.pos + i) then State.commitOuts s h u t (i + 1) n
    else
      let va := u.addr (u.pos + i)
      let m := (s.hart h).member
      match s.locateElem h (streamSpace u.space) .store va t.width with
      | (s, .fault c) => (s, .error (c, va))
      | (s, .at_ p) =>
        if s.placeBad m true p t.width then (s, .error (5, va))
        else match State.commitOuts s h u t (i + 1) n with
          | (s, .error f) => (s, .error f)
          | (s, .ok es) =>
            (s, .ok ({ seq := s.sends, pack := m, kind := .store, idx := i, bytes := t.width, va := va, place := p
                       data := BitVec.ofNat 64 (le t.data (i * t.width) t.width), iword := (s.hart h).iword } :: es))

/-- VCOMMIT (R370). To a register that has been bound since, it writes as any instruction does (R67, R68). -/
def effVcommit (s : State) (tag : BitVec 4) : Res :=
  let x := s.me
  let free := fun (y : Hart) => { y with landing := putAt none y.landing tag.toNat none }
  if !x.vectorIdle then .stall s
  else match getAt none x.landing tag.toNat with
    | none => .ok s
    | some t =>
      if !t.done then .stall s
      else if t.err then
        .trap (s.modHart s.cur fun y =>
          { free y with pend := y.pend.filter fun f => !(f.destKind == 5 && f.destReg == tag.toNat) }) 6 0
      else match x.stream t.reg with
        | none => .ok (s.modHart s.cur fun y => free (t.commit y))
        | some u =>
          if !u.store || u.ty.bytes != t.width then s.illegal
          else match s.commitOuts s.cur u t 0 t.vl with
            | (s, .error f) => .trap s f.1 f.2
            | (s, .ok es) => .ok (s.modHart s.cur fun y =>
                free ({ y with elems := y.elems ++ es }.setStream { u with pos := u.pos + t.vl }))

end Sys2Proof.Machine
end

