-- ==== Sys2Proof/Machine/Scalar.lean ====
section
/-! DEFINITION. Scalar integer instructions (R297 to R299, R328, R329, R375), moves and NOP (R42), scalar floating point
(R317 to R319). Each is an operation on the hart, `h<Name>`, and its meaning, `exec<Name>`. -/

namespace Sys2Proof.Machine

/-! ## Word operations -/

/-- Position of the highest set bit below `n`, plus one; 0 for none. -/
def topBit (x : Word) : Nat → Nat
  | 0 => 0
  | n + 1 => if x.getLsbD n then n + 1 else topBit x n

/-- Zero bits below the lowest set bit, looking at `n` bits from bit `i`. -/
def lowZeros (x : Word) : Nat → Nat → Nat
  | _, 0 => 0
  | i, n + 1 => if x.getLsbD i then 0 else 1 + lowZeros x (i + 1) n

/-- CLZ (R298). -/
def clz (x : Word) : Word := BitVec.ofNat 64 (64 - topBit x 64)
/-- CTZ (R298). -/
def ctz (x : Word) : Word := BitVec.ofNat 64 (lowZeros x 0 64)

/-- Quotient and IZ (R106, R298). -/
def divVal (u : Bool) (a b : Word) : Word × FlagBits :=
  if b = 0 then (0, flIZ) else (if u then a.udiv b else BitVec.ofInt 64 (Int.tdiv a.toInt b.toInt), 0)
/-- Remainder and IZ (R106, R328). -/
def remVal (u : Bool) (a b : Word) : Word × FlagBits :=
  if b = 0 then (a, flIZ) else (if u then a.umod b else BitVec.ofInt 64 (Int.tmod a.toInt b.toInt), 0)
/-- Bits [127:64] of the product (R328). -/
def mulhVal (u : Bool) (a b : Word) : Word :=
  if u then BitVec.ofNat 64 (a.toNat * b.toNat / 2 ^ 64) else BitVec.ofInt 64 (a.toInt * b.toInt / (2 ^ 64 : Nat))
/-- a < b, signed or unsigned. -/
def lessVal (u : Bool) (a b : Word) : Bool := if u then decide (a.toNat < b.toNat) else decide (a.toInt < b.toInt)
/-- A truth value as a word. -/
def boolWord (b : Bool) : Word := if b then 1 else 0
/-- The shift count s[B][5:0] (R297). -/
def shCount (b : Word) : Nat := b.toNat % 64

/-! ## Operations on the hart -/

/-- d := a + b. -/
def hAdd (d a b : Reg) (x : Hart) : Hart := x.wr d (x.rd a + x.rd b)
/-- d := a + sext(IMM). -/
def hAddi (d a : Reg) (imm : BitVec 36) (x : Hart) : Hart := x.wr d (x.rd a + sext64 imm)
/-- d := a AND b. -/
def hAnd (d a b : Reg) (x : Hart) : Hart := x.wr d (x.rd a &&& x.rd b)
/-- d := a AND sext(IMM). -/
def hAndi (d a : Reg) (imm : BitVec 36) (x : Hart) : Hart := x.wr d (x.rd a &&& sext64 imm)
/-- Leading zeros. -/
def hClz (d a : Reg) (x : Hart) : Hart := x.wr d (clz (x.rd a))
/-- Trailing zeros. -/
def hCtz (d a : Reg) (x : Hart) : Hart := x.wr d (ctz (x.rd a))
/-- Quotient. -/
def hDiv (u : Bool) (d a b : Reg) (x : Hart) : Hart :=
  (x.wr d (divVal u (x.rd a) (x.rd b)).1).orFlags (divVal u (x.rd a) (x.rd b)).2
/-- d := a + (b << sh). -/
def hLea (d a b : Reg) (sh : BitVec 3) (x : Hart) : Hart := x.wr d (x.rd a + (x.rd b <<< sh.toNat))
/-- d := sext(IMM). -/
def hLi (d : Reg) (imm : BitVec 36) (x : Hart) : Hart := x.wr d (sext64 imm)
/-- d := the extension word (R37). -/
def hLiExt (d : Reg) (val : Word) (x : Hart) : Hart := x.wr d val
/-- The larger. -/
def hMax (u : Bool) (d a b : Reg) (x : Hart) : Hart := x.wr d (if lessVal u (x.rd a) (x.rd b) then x.rd b else x.rd a)
/-- The smaller. -/
def hMin (u : Bool) (d a b : Reg) (x : Hart) : Hart := x.wr d (if lessVal u (x.rd a) (x.rd b) then x.rd a else x.rd b)
/-- Low product. -/
def hMul (d a b : Reg) (x : Hart) : Hart := x.wr d (x.rd a * x.rd b)
/-- High product. -/
def hMulh (u : Bool) (d a b : Reg) (x : Hart) : Hart := x.wr d (mulhVal u (x.rd a) (x.rd b))
/-- d := a OR b. -/
def hOr (d a b : Reg) (x : Hart) : Hart := x.wr d (x.rd a ||| x.rd b)
/-- d := a OR sext(IMM). -/
def hOri (d a : Reg) (imm : BitVec 36) (x : Hart) : Hart := x.wr d (x.rd a ||| sext64 imm)
/-- Set bits. -/
def hPopc (d a : Reg) (x : Hart) : Hart := x.wr d (BitVec.ofNat 64 (popcount (x.rd a)))
/-- Remainder. -/
def hRem (u : Bool) (d a b : Reg) (x : Hart) : Hart :=
  (x.wr d (remVal u (x.rd a) (x.rd b)).1).orFlags (remVal u (x.rd a) (x.rd b)).2
/-- d := a if c ≠ 0, else b. -/
def hSel (d a b c : Reg) (x : Hart) : Hart := x.wr d (if x.rd c ≠ 0 then x.rd a else x.rd b)
/-- Left shift. -/
def hShl (d a b : Reg) (x : Hart) : Hart := x.wr d (x.rd a <<< shCount (x.rd b))
/-- Shift by an immediate count (R329). -/
def hShli (k : ShKind) (d a : Reg) (n : BitVec 6) (x : Hart) : Hart := x.wr d (match k with
  | .shl => x.rd a <<< n.toNat
  | .shr => x.rd a >>> n.toNat
  | .sra => (x.rd a).sshiftRight n.toNat)
/-- Logical right shift. -/
def hShr (d a b : Reg) (x : Hart) : Hart := x.wr d (x.rd a >>> shCount (x.rd b))
/-- d := 1 if a < b, else 0. -/
def hSlt (u : Bool) (d a b : Reg) (x : Hart) : Hart := x.wr d (boolWord (lessVal u (x.rd a) (x.rd b)))
/-- d := 1 if a < sext(IMM), else 0. -/
def hSlti (u : Bool) (d a : Reg) (imm : BitVec 36) (x : Hart) : Hart :=
  x.wr d (boolWord (lessVal u (x.rd a) (sext64 imm)))
/-- Arithmetic right shift. -/
def hSra (d a b : Reg) (x : Hart) : Hart := x.wr d ((x.rd a).sshiftRight (shCount (x.rd b)))
/-- d := a − b. -/
def hSub (d a b : Reg) (x : Hart) : Hart := x.wr d (x.rd a - x.rd b)
/-- d := a XOR b. -/
def hXor (d a b : Reg) (x : Hart) : Hart := x.wr d (x.rd a ^^^ x.rd b)
/-- d := a XOR sext(IMM). -/
def hXori (d a : Reg) (imm : BitVec 36) (x : Hart) : Hart := x.wr d (x.rd a ^^^ sext64 imm)
/-- d := a (the MOV half). -/
def hMov (d a : Reg) (x : Hart) : Hart := x.wr d (x.rd a)

/-! ## Meanings -/

def execAdd (d a b : Reg) (s : State) : Out := s.onHart (hAdd d a b)
def execAddi (d a : Reg) (imm : BitVec 36) (s : State) : Out := s.onHart (hAddi d a imm)
def execAnd (d a b : Reg) (s : State) : Out := s.onHart (hAnd d a b)
def execAndi (d a : Reg) (imm : BitVec 36) (s : State) : Out := s.onHart (hAndi d a imm)
def execClz (d a : Reg) (s : State) : Out := s.onHart (hClz d a)
def execCtz (d a : Reg) (s : State) : Out := s.onHart (hCtz d a)
def execDiv (u : Bool) (d a b : Reg) (s : State) : Out := s.onHart (hDiv u d a b)
def execLea (d a b : Reg) (sh : BitVec 3) (s : State) : Out := s.onHart (hLea d a b sh)
def execLi (d : Reg) (imm : BitVec 36) (s : State) : Out := s.onHart (hLi d imm)
/-- A form 10 word is 16 bytes (R36). -/
def execLiExt (d : Reg) (val : Word) (s : State) : Out := finishAt s.cur 16 (.ok (s.modHart s.cur (hLiExt d val)))
def execMax (u : Bool) (d a b : Reg) (s : State) : Out := s.onHart (hMax u d a b)
def execMin (u : Bool) (d a b : Reg) (s : State) : Out := s.onHart (hMin u d a b)
def execMul (d a b : Reg) (s : State) : Out := s.onHart (hMul d a b)
def execMulh (u : Bool) (d a b : Reg) (s : State) : Out := s.onHart (hMulh u d a b)
def execOr (d a b : Reg) (s : State) : Out := s.onHart (hOr d a b)
def execOri (d a : Reg) (imm : BitVec 36) (s : State) : Out := s.onHart (hOri d a imm)
def execPopc (d a : Reg) (s : State) : Out := s.onHart (hPopc d a)
def execRem (u : Bool) (d a b : Reg) (s : State) : Out := s.onHart (hRem u d a b)
def execSel (d a b c : Reg) (s : State) : Out := s.onHart (hSel d a b c)
def execShl (d a b : Reg) (s : State) : Out := s.onHart (hShl d a b)
def execShli (k : ShKind) (d a : Reg) (n : BitVec 6) (s : State) : Out := s.onHart (hShli k d a n)
def execShr (d a b : Reg) (s : State) : Out := s.onHart (hShr d a b)
def execSlt (u : Bool) (d a b : Reg) (s : State) : Out := s.onHart (hSlt u d a b)
def execSlti (u : Bool) (d a : Reg) (imm : BitVec 36) (s : State) : Out := s.onHart (hSlti u d a imm)
def execSra (d a b : Reg) (s : State) : Out := s.onHart (hSra d a b)
def execSub (d a b : Reg) (s : State) : Out := s.onHart (hSub d a b)
def execXor (d a b : Reg) (s : State) : Out := s.onHart (hXor d a b)
def execXori (d a : Reg) (imm : BitVec 36) (s : State) : Out := s.onHart (hXori d a imm)
def execMov (d a : Reg) (s : State) : Out := s.onHart (hMov d a)
def execNop (s : State) : Out := finish s (.ok s)

/-! ## Floating point (R107 to R114, R317 to R319) -/

/-- The bits of a format in a scalar register (R107). -/
def fpBits (f : FTy) (w : Word) : Nat := w.toNat % 2 ^ (fprec f + 8)

/-- A floating-point result: zero-extended, its flags in FFLAGS. -/
def hFval (d : Reg) (v : Val) (x : Hart) : Hart := (x.wr d (BitVec.ofNat 64 v.bits)).orFlags v.fl

/-- A rounded operation of hart s.cur; a reserved mode in FRM raises cause 1 (R110). -/
def effFround (s : State) (rm : Rm) (f : RMode → Hart → Hart) : Res :=
  match rmode rm s.me.frm false 0 with
  | some md => .ok (s.modHart s.cur (f md))
  | none => s.illegal

/-- round(a + b). -/
def hFadd (t : FTy) (d a b : Reg) (md : RMode) (x : Hart) : Hart :=
  hFval d (Machine.fadd t md (fpBits t (x.rd a)) (fpBits t (x.rd b))) x
/-- round(a − b). -/
def hFsub (t : FTy) (d a b : Reg) (md : RMode) (x : Hart) : Hart :=
  hFval d (Machine.fsub t md (fpBits t (x.rd a)) (fpBits t (x.rd b))) x
/-- round(a × b). -/
def hFmul (t : FTy) (d a b : Reg) (md : RMode) (x : Hart) : Hart :=
  hFval d (Machine.fmul t md (fpBits t (x.rd a)) (fpBits t (x.rd b))) x
/-- round(a × b + c). -/
def hFfma (t : FTy) (d a b c : Reg) (md : RMode) (x : Hart) : Hart :=
  hFval d (Machine.ffma t md (fpBits t (x.rd a)) (fpBits t (x.rd b)) (fpBits t (x.rd c))) x
/-- round(a / b). -/
def hFdiv (t : FTy) (d a b : Reg) (md : RMode) (x : Hart) : Hart :=
  hFval d (Machine.fdiv t md (fpBits t (x.rd a)) (fpBits t (x.rd b))) x
/-- The smaller or larger (R109). -/
def hFminmax (t : FTy) (mn : Bool) (d a b : Reg) (x : Hart) : Hart :=
  hFval d (fminmax t mn (fpBits t (x.rd a)) (fpBits t (x.rd b))) x

/-- A relation of FCMP (R318). -/
def fcmpVal (t : FTy) (rel : FRel) (a b : Nat) : Val :=
  let r := fcompare t a b
  let v := match rel with
    | .eq => r == some .eq
    | .lt => r == some .lt
    | .le => r == some .lt || r == some .eq
    | .un => r.isNone
  { bits := b2n v, fl := fcmpFlags t a b }

/-- FCMP. -/
def hFcmp (t : FTy) (rel : FRel) (d a b : Reg) (x : Hart) : Hart :=
  hFval d (fcmpVal t rel (fpBits t (x.rd a)) (fpBits t (x.rd b))) x

/-- The register value of a converted result: extended as the type gives (R319). -/
def convWord (t : Ty) (bits : Nat) : Word := if t.isSigned then BitVec.ofInt 64 (tyInt t bits) else BitVec.ofNat 64 bits

/-- FCVT under a mode. -/
def hFcvt (dst src : Ty) (sat : Bool) (d a : Reg) (md : RMode) (x : Hart) : Hart :=
  let v := convert dst src md sat ((x.rd a).toNat % 2 ^ tyBits src)
  (x.wr d (convWord dst v.bits)).orFlags v.fl

def execFadd (t : FTy) (rm : Rm) (d a b : Reg) (s : State) : Out := finish s (effFround s rm (hFadd t d a b))
def execFsub (t : FTy) (rm : Rm) (d a b : Reg) (s : State) : Out := finish s (effFround s rm (hFsub t d a b))
def execFmul (t : FTy) (rm : Rm) (d a b : Reg) (s : State) : Out := finish s (effFround s rm (hFmul t d a b))
def execFfma (t : FTy) (rm : Rm) (d a b c : Reg) (s : State) : Out := finish s (effFround s rm (hFfma t d a b c))
def execFdiv (t : FTy) (rm : Rm) (d a b : Reg) (s : State) : Out := finish s (effFround s rm (hFdiv t d a b))
def execFmin (t : FTy) (d a b : Reg) (s : State) : Out := s.onHart (hFminmax t true d a b)
def execFmax (t : FTy) (d a b : Reg) (s : State) : Out := s.onHart (hFminmax t false d a b)
def execFcmp (t : FTy) (rel : FRel) (d a b : Reg) (s : State) : Out := s.onHart (hFcmp t rel d a b)
/-- RM = 5 is accepted where the destination is bf16 or an integer type, and uses sr(0) (R118, R319). -/
def effFcvt (dst src : Ty) (rm : Rm) (sat : Bool) (d a : Reg) (s : State) : Res :=
  match rmode rm s.me.frm (dst != .f32) (srHash s.me.sb s.me.seed 0) with
  | some md => .ok (s.modHart s.cur (hFcvt dst src sat d a md))
  | none => s.illegal

def execFcvt (dst src : Ty) (rm : Rm) (sat : Bool) (d a : Reg) (s : State) : Out := finish s (effFcvt dst src rm sat d a s)

/-! ## Scalar instructions that touch only their hart, as one function -/

/-- The effect on the hart of an instruction that rounds nothing. -/
def hartOp : Instr → Option (Hart → Hart)
  | .add d a b => some (hAdd d a b)
  | .addi d a imm => some (hAddi d a imm)
  | .and d a b => some (hAnd d a b)
  | .andi d a imm => some (hAndi d a imm)
  | .clz d a => some (hClz d a)
  | .ctz d a => some (hCtz d a)
  | .div u d a b => some (hDiv u d a b)
  | .lea d a b sh => some (hLea d a b sh)
  | .li d imm => some (hLi d imm)
  | .liExt d v => some (hLiExt d v)
  | .max u d a b => some (hMax u d a b)
  | .min u d a b => some (hMin u d a b)
  | .mul d a b => some (hMul d a b)
  | .mulh u d a b => some (hMulh u d a b)
  | .or d a b => some (hOr d a b)
  | .ori d a imm => some (hOri d a imm)
  | .popc d a => some (hPopc d a)
  | .rem u d a b => some (hRem u d a b)
  | .sel d a b c => some (hSel d a b c)
  | .shl d a b => some (hShl d a b)
  | .shli k d a n => some (hShli k d a n)
  | .shr d a b => some (hShr d a b)
  | .slt u d a b => some (hSlt u d a b)
  | .slti u d a imm => some (hSlti u d a imm)
  | .sra d a b => some (hSra d a b)
  | .sub d a b => some (hSub d a b)
  | .xor d a b => some (hXor d a b)
  | .xori d a imm => some (hXori d a imm)
  | .mov d a => some (hMov d a)
  | .nop => some id
  | .fmin t d a b => some (hFminmax t true d a b)
  | .fmax t d a b => some (hFminmax t false d a b)
  | .fcmp t rel d a b => some (hFcmp t rel d a b)
  | _ => none

/-- The effect of a scalar instruction that touches only its hart. -/
def effScalar (i : Instr) (s : State) : Option Res := match i with
  | .fadd t rm d a b => some (effFround s rm (hFadd t d a b))
  | .fsub t rm d a b => some (effFround s rm (hFsub t d a b))
  | .fmul t rm d a b => some (effFround s rm (hFmul t d a b))
  | .ffma t rm d a b c => some (effFround s rm (hFfma t d a b c))
  | .fdiv t rm d a b => some (effFround s rm (hFdiv t d a b))
  | .fcvt dst src rm sat d a => some (effFcvt dst src rm sat d a s)
  | i => (hartOp i).map fun f => .ok (s.modHart s.cur f)

end Sys2Proof.Machine
end

