-- ==== Sys2Proof/Machine/Memory.lean ====
section
/-! DEFINITION. Scalar memory instructions (R325, R326, R346, R347), atomics (R139 to R141, R300 to R303) and the steps of
the ordering machine that follow them (R168). -/

namespace Sys2Proof.Machine

/-- A step of another hart: `f` runs with that hart as the issuing one. -/
def State.asHart (s : State) (h : Nat) (f : State → Out) : Out :=
  match f { s with cur := h } with
  | .next t => .next { t with cur := s.cur }
  | .fault e => .fault e
  | .refused r => .refused r

/-- LD. -/
def effLd (w : LdW) (sp : Space) (d a : Reg) (off : BitVec 24) (s : State) : Res :=
  effLoad s w sp d (memAddr s.me a off)
/-- ST. -/
def effSt (w : StW) (sp : Space) (d a : Reg) (off : BitVec 24) (s : State) : Res :=
  effStore s w sp (s.me.rd d) (memAddr s.me a off)

def execLd (w : LdW) (sp : Space) (d a : Reg) (off : BitVec 24) (s : State) : Out := finish s (effLd w sp d a off s)
def execSt (w : StW) (sp : Space) (d a : Reg) (off : BitVec 24) (s : State) : Out := finish s (effSt w sp d a off s)

/-! ## Atomics -/

/-- The flags an atomic raises in its hart: FFLAGS for a value-returning form, ATFLAGS for a posted one (R141). -/
def Hart.atomFlags (x : Hart) (posted : Bool) (f : FlagBits) : Hart :=
  if posted then { x with atflags := x.atflags ||| f } else x.orFlags f

/-- The hart waits for an atomic's value (R301). -/
def State.waitAtomic (s : State) (h : Nat) : State :=
  s.modHart h fun x =>
    { x with wait := some { kind := .atomic, epoch := s.epoch, deadline := none, expired := false, stage := 0, arg := 0 } }

/-- The result register and the flags of an atomic with its old value. -/
def State.atomValue (s : State) (h : Nat) (op : AtomOp) (n : Nat) (posted : Bool) (d : Reg) (old : Nat) (f : FlagBits) :
    State :=
  s.modHart h fun x => (if posted then x else x.wr d (op.result n old)).atomFlags posted f

/-- An atomic of a member, applied at the home (R245). -/
def State.atomMember (s : State) (m : Nat) (op : AtomOp) (n : Nat) (posted : Bool) (d : Reg) (pa : Nat)
    (operand : Nat) : Res :=
  let f := fun bs : List Byte => match op.apply n (leNat bs) operand with
    | some v => leBytes n v.bits
    | none => bs
  match s.memberAccess m pa n (some f) with
  | .done t old =>
    let fl := match op.apply n (leNat old) operand with
      | some v => v.fl
      | none => 0
    .ok (t.atomValue s.cur op n posted d (leNat old) fl)
  | .aborted t => .stall t

/-- An atomic leaves for its unit (R139); a value-returning one leaves its hart waiting. -/
def State.sendAtomic (s : State) (a : Atomic) : Res :=
  let t := { s with atoms := s.atoms ++ [{ a with seq := s.sends }], sends := s.sends + 1 }
  if a.posted then .ok t else .stall (t.waitAtomic a.hart)

/-- AMO and CAS: drain, checks, and the step on its way to the word's unit (R301, R302). DESIGN CHOICE (log 67): the window of
the control registers (R274), which is silent on them, answers with cause 5. -/
def effAtomic (op : AtomOp) (w32 posted : Bool) (sp : Space) (d : Reg) (va operand : Word) (s : State) : Res :=
  let h := s.cur
  let x := s.me
  let n := if w32 then 4 else 8
  let opnd := operand.toNat % 2 ^ (8 * n)
  if !x.sbuf.isEmpty || decide (Config.maxRequests ≤ s.outstanding (coreOf h)) then .stall s
  else if va.toNat % n ≠ 0 then .trap s 3 va
  else if sp = .c || sp = .w then .trap s 5 va
  else match s.locate h sp .store va n with
    | (s, .fault c) => .trap s c va
    | (s, .at_ p) =>
      let send := fun (pl : Place) (m : BitVec 2) =>
        s.sendAtomic { seq := 0, hart := h, op := op, bytes := n, sgn := true, place := pl, pbmt := m, va := va
                       operand := BitVec.ofNat 64 opnd, posted := posted, d := d, arrived := none }
      match p with
      | .a c off =>
        if c = coreOf h then
          let r := s.atomicAt c (.aspace c off) n op opnd
          .ok (r.2.2.atomValue h op n posted d r.1 r.2.1)
        else send (.aspace c off) 0
      | .g pa m =>
        if inCtrl pa || s.inPackObject pa n then .trap s 5 va
        else match x.member with
          | some mh =>
            if !memberPage pa m then .trap s 5 va
            else if (x.tents.any fun t => meet t.pa t.data.length pa n) || s.pageHeld pa || s.flipping pa then .stall s
            else if s.hostBias pa && s.hostHolds pa then .stall (s.sendSnoop (pa / 64))
            else if !posted && s.memberPoison mh pa n then .trap s 7 (s.loadStval 7 va pa)
            else s.atomMember mh op n posted d pa opnd
          | none => if m == 2 && x.elemUncached then .stall s else send (.phys pa) m
      | _ => .trap s 5 va

/-- AMO. -/
def effAmo (op : AmoOp) (w32 post : Bool) (sp : Space) (d a b : Reg) (s : State) : Res :=
  effAtomic (.amo op) w32 post sp d (s.me.rd a) (s.me.rd b) s
/-- CAS. -/
def effCas (w32 : Bool) (sp : Space) (d a b c : Reg) (s : State) : Res :=
  effAtomic (.cas (s.me.rd b)) w32 false sp d (s.me.rd a) (s.me.rd c) s

def execAmo (op : AmoOp) (w32 post : Bool) (sp : Space) (d a b : Reg) (s : State) : Out :=
  finish s (effAmo op w32 post sp d a b s)
def execCas (w32 : Bool) (sp : Space) (d a b c : Reg) (s : State) : Out := finish s (effCas w32 sp d a b c s)

/-! ## Steps of the ordering machine (R168) -/

/-- The oldest buffered store drains (R168), after the hart's posted atomics on its bytes and, uncached, after every one that
is (R169, R187). A store that bypasses L1 may first snoop the host. -/
def State.drainOldest (s : State) (h : Nat) : Option State :=
  match (s.hart h).sbuf with
  | [] => none
  | e :: _ =>
    if s.postedTo h e.pa e.data.length || (e.pbmt == 2 && s.atomUncached h) then none
    else if s.storeReady (coreOf h) e.pa e.data.length e.pbmt then
      match s.putStore h false none e.va e.pa e.pbmt e.data with
      | (t, true) => some (t.modHart h fun x => { x with sbuf := x.sbuf.drop 1 })
      | (t, false) => some t
    else if bypasses s e.pa e.pbmt then s.noteHold e.pa e.data.length
    else none

/-- DRAIN: the oldest store-buffer entry of hart h. -/
def execDrain (h : Nat) (s : State) : Out := match s.drainOldest h with
  | some t => event t
  | none => notEnabled "DRAIN"

/-- A registration is at its home but is held there (R152, R247, R279). -/
def State.holdReg (s : State) (k : Nat) (r : Registration) : State :=
  { s with regs := s.regs.set k { r with arrived := some s.gtime } }

/-- What REGISTER can do with registration k: record it, or hold it at its home. -/
def State.arriveReg (s : State) (k : Nat) : Option State :=
  match s.regs[k]? with
  | none => none
  | some r =>
    if !regFirst s.regs k r then none
    else if s.regHeld r then (if r.arrived.isNone then some ((s.snoopFor (4 * r.w) 4).holdReg k r) else none)
    else some (s.performReg k r)

/-- REGISTER: a registration arrives at its home. -/
def execRegister (k : Nat) (s : State) : Out := match s.arriveReg k with
  | some t => event t
  | none => notEnabled "REGISTER"

/-- EVICT. -/
def execEvict (c line : Nat) (s : State) : Out := match s.evictLine c line with
  | some t => event t
  | none => notEnabled "EVICT"

/-- An access of `n` bytes at a place and one of `k` bytes at another reach one word (R134, R169). -/
def Place.meets (p : Place) (n : Nat) (q : Place) (k : Nat) : Bool := match p, q with
  | .phys a, .phys b => meet a n b k
  | .aspace c a, .aspace d b => c == d && a / 8 == b / 8
  | _, _ => false

/-- A vector access of an instruction that issued before message `seq` is still to be made to its word of an A-space (R134). -/
def Hart.elemBefore (x : Hart) (seq : Nat) (p : Place) : Bool := match p with
  | .aspace c off => (x.elems ++ (match x.run with
      | some ru => ru.outs
      | none => [])).any fun e => decide (e.seq ≤ seq) && (match e.place with
        | .a d o => d == c && meet (off / 8 * 8) 8 o e.bytes
        | _ => false)
  | .phys _ => false

/-- Of what the hart has sent before number `seq`, nothing to the same word is still on its way (R134, R169), and nothing
uncached before an uncached access (R187). -/
def State.sentFirst (s : State) (seq h : Nat) (p : Place) (n : Nat) (unc : Bool) : Bool :=
  (s.atoms.all fun b => !(b.hart == h && decide (b.seq < seq) && (b.place.meets b.bytes p n || (unc && b.pbmt == 2)))) &&
  (s.ras.all fun m => !(m.hart == h && decide (m.seq < seq) && (Place.aspace m.core m.off).meets 8 p n)) &&
  !((s.hart h).elemBefore seq p)

/-- The host's copy of the line must be snooped first (R277). -/
def State.atomSnoop (s : State) (p : Place) : Option State := match p with
  | .phys pa =>
    if s.hostBias pa && s.hostHolds pa && !s.snooping pa then some (s.sendSnoop (pa / 64)) else none
  | .aspace _ _ => none

/-- A value-returning atomic on a poisoned word (R199, R301). -/
def State.atomPoison (s : State) (a : Atomic) : Bool := !a.posted && (match a.place with
  | .phys pa => poisoned s.bad pa a.bytes
  | .aspace _ _ => false)

/-- The value arrives: the hart's AMO or CAS completes. -/
def State.endAtomic (s : State) (a : Atomic) (old : Nat) (f : FlagBits) : State :=
  let s := s.atomValue a.hart a.op a.bytes a.posted a.d old f
  if a.posted then s else s.retire a.hart ((s.hart a.hart).pc + 8)

/-- An atomic that meets a hold keeps its arrival time (R151, R247). -/
def State.holdAtom (s : State) (k : Nat) (a : Atomic) : State :=
  { s with atoms := s.atoms.set k { a with arrived := some s.gtime } }

/-- Atomic k reaches its unit (R139). -/
def State.stepAtomic (s : State) (k : Nat) : Option State :=
  match s.atoms[k]? with
  | none => none
  | some a =>
    if !s.sentFirst a.seq a.hart a.place a.bytes (a.pbmt == 2) || (s.atomPoison a && !(s.hart a.hart).queueIdle) then none
    else match s.atomSnoop a.place with
      | some t => some t
      | none =>
        if !s.atomReady (coreOf a.hart) a.place a.bytes then
          (if a.arrived.isNone && (match a.place with
            | .phys pa => s.packHolds pa a.bytes || s.pageHeld pa
            | _ => false) then some (s.holdAtom k a) else none)
        else
          let s := { s with atoms := s.atoms.eraseIdx k }.useBank a.place
          if s.atomPoison a then
            let pa := match a.place with
              | .phys pa => pa
              | .aspace _ o => o
            some ((s.takeTrap a.hart false 7 (s.hart a.hart).pc (s.loadStval 7 a.va pa) (s.hart a.hart).iword).noteDest
              a.hart 7 (1, a.d.toNat))
          else
            let r := s.atomicAt (coreOf a.hart) a.place a.bytes a.op a.operand.toNat
            some (r.2.2.endAtomic a r.1 r.2.1)

/-- ATOMIC_STEP. -/
def execAtomicStep (k : Nat) (s : State) : Out := match s.stepAtomic k with
  | some t => event t
  | none => notEnabled "ATOMIC_STEP"

/-- RA message k takes effect at the target's bank unit (R134). -/
def State.arriveRa (s : State) (k : Nat) : Option State :=
  match s.ras[k]? with
  | none => none
  | some m =>
    if !s.sentFirst m.seq m.hart (.aspace m.core m.off) 8 false then none
    else
      let s := { s with ras := s.ras.eraseIdx k }.useBank (.aspace m.core m.off)
      match m.load with
      | some (w, d) =>
        let v := (s.core m.core).a.readLe m.off (ldBytes w)
        let s := s.modHart m.hart fun x => x.wr d (ldExtend w v)
        some (s.retire m.hart ((s.hart m.hart).pc + 8))
      | none =>
        some ((s.modCore m.core fun x => { x with a := x.a.writeN m.off m.data }).noteWrite none (aKey m.core m.off)
          m.data.length)

/-- RA_MESSAGE_ARRIVAL. -/
def execRaMessageArrival (k : Nat) (s : State) : Out := match s.arriveRa k with
  | some t => event t
  | none => notEnabled "RA_MESSAGE_ARRIVAL"

end Sys2Proof.Machine
end

