-- ==== Sys2Proof/Machine/Ordering.lean ====
section
/-! DEFINITION. Ordering instructions (R171, R173 to R178), waits on a word (R148) and cache control (R188). -/

namespace Sys2Proof.Machine

/-- FENCE.acq: every Valid word of the core's L1 becomes Invalid; at core scope nothing does (R173, R175). -/
def State.acquire (s : State) (h : Nat) (sc : Scope) : State := if sc = .core then s else s.acquireAll (coreOf h)

/-- A later CSRR of ATFLAGS returns the flags of the posted atomics before the fence (R141); strips that a stream has prefetched
before it are read again, as every later load is (R67, R173). -/
def State.fence (s : State) : State := s.modHart s.cur fun x => { x.dropStrips with fenced := s.sends }

/-- FENCE.acq: every earlier scalar load has its value when the next word issues (R99). -/
def effFenceAcq (sc : Scope) (s : State) : Res := .ok (s.acquire s.cur sc).fence
/-- FENCE.rel. -/
def effFenceRel (sc : Scope) (s : State) : Res := if s.released s.cur sc then .ok s.fence else .stall s
/-- FENCE.full. -/
def effFenceFull (sc : Scope) (s : State) : Res := if s.released s.cur sc then .ok (s.acquire s.cur sc).fence else .stall s
/-- VDRAIN (R171). A stream access is one of the vector accesses that it orders, so strips prefetched before it are read again
(R67). -/
def effVdrain (k : DrainKind) (s : State) : Res :=
  if s.vdrained s.cur k then .ok (s.modHart s.cur Hart.dropStrips) else .stall s

/-- A slot bound to an object; object 0 names slot 0 (R173). -/
def Core.slotOfObject (c : Core) (obj : Word) (slot : Nat) : Bool :=
  if obj = 0 then slot == 0 else c.binds.any fun b => b.obj == obj && b.slot == slot

/-- ACQUIRE: the lines whose slot is bound to the object. -/
def effAcquire (sc : Scope) (a : Reg) (s : State) : Res :=
  if sc = .core then .ok s
  else
    let c := s.core (coreOf s.cur)
    .ok ((s.selfInvalidate (coreOf s.cur) fun w => c.slotOfObject (s.me.rd a) w.slot).modHart s.cur Hart.dropStrips).happen
/-- RELEASE acts as FENCE.rel, whatever the object (R173). -/
def effRelease (sc : Scope) (_a : Reg) (s : State) : Res := if s.released s.cur sc then .ok s else .stall s

def execFenceAcq (sc : Scope) (s : State) : Out := finish s (effFenceAcq sc s)
def execFenceRel (sc : Scope) (s : State) : Out := finish s (effFenceRel sc s)
def execFenceFull (sc : Scope) (s : State) : Out := finish s (effFenceFull sc s)
def execVdrain (k : DrainKind) (s : State) : Out := finish s (effVdrain k s)
def execAcquire (sc : Scope) (a : Reg) (s : State) : Out := finish s (effAcquire sc a s)
def execRelease (sc : Scope) (a : Reg) (s : State) : Out := finish s (effRelease sc a s)

/-! ## Bindings (R174) -/

/-- The lowest free slot. -/
def Core.freeSlot (c : Core) : Option Nat := ((List.range 63).map (· + 1)).find? fun k => c.binds.all fun b => b.slot != k

/-- The lines of L1 carry the slots of the table. -/
def Core.retag (c : Core) : Core := { c with l1 := c.l1.map fun w => { w with slot := c.slotOf w.vline } }

/-- BINDR. -/
def effBindr (d a b c : Reg) (s : State) : Res :=
  let x := s.me
  let base := x.rd a
  let len := x.rd b
  let core := s.core (coreOf s.cur)
  if base.toNat % 64 ≠ 0 then .trap s 3 base
  else if len.toNat % 64 ≠ 0 then .trap s 3 len
  else if x.rd c = 0 || len = 0 || decide (2 ^ 40 < len.toNat) then .ok (s.result d 65)
  else if core.binds.any fun e => meet e.base e.len base.toNat len.toNat then .ok (s.result d 64)
  else match core.freeSlot with
    | none => .ok (s.result d 0)
    | some k =>
      let e : Binding := { slot := k, obj := x.rd c, base := base.toNat, len := len.toNat }
      let s := s.modCore (coreOf s.cur) fun (y : Core) => ({ y with binds := y.binds ++ [e] } : Core).retag
      .ok (s.result d (BitVec.ofNat 64 k))

/-- BINDR.un. -/
def effBindrUn (d c : Reg) (s : State) : Res :=
  let obj := s.me.rd c
  let n := ((s.core (coreOf s.cur)).binds.filter fun e => e.obj == obj).length
  let s := s.modCore (coreOf s.cur) fun (y : Core) => ({ y with binds := y.binds.filter fun e => e.obj != obj } : Core).retag
  .ok (s.result d (BitVec.ofNat 64 n))

def execBindr (d a b c : Reg) (s : State) : Out := finish s (effBindr d a b c s)
def execBindrUn (d c : Reg) (s : State) : Out := finish s (effBindrUn d c s)

/-! ## Timelines (R176) -/

/-- The timeout of a wait has ended. -/
def Hart.expired (x : Hart) : Bool := match x.wait with
  | some w => w.expired
  | none => false

/-- Waits with a timeout in units of 1,024 ns, running from the first try; 0 waits without limit (R148, R176). -/
def State.stallFor (s : State) (timeout : BitVec 24) : Res :=
  match s.me.wait with
  | some _ => .stall s
  | none =>
    let dl := if timeout = 0 then none else some (s.gtime + 1024 * timeout.toNat)
    .stall (s.modHart s.cur fun x =>
      { x with wait := some { kind := .retry, epoch := s.epoch, deadline := dl, expired := false, stage := 0, arg := 0 } })

/-- TLWAIT. -/
def effTlwait (d tl b : Reg) (timeout : BitVec 24) (s : State) : Res :=
  let t := s.me.tline tl.toNat
  let target := (s.me.rd b).toNat
  if t.issued < target then .ok (s.result d (BitVec.ofNat 64 t.done))
  else if target ≤ t.done then
    .ok ((s.acquireFor s.cur).result d (BitVec.ofNat 64 t.done))
  else if s.me.expired then .ok (s.result d (BitVec.ofNat 64 t.done))
  else s.stallFor timeout

/-- TLREAD. -/
def effTlread (issued : Bool) (d tl : Reg) (s : State) : Res :=
  let t := s.me.tline tl.toNat
  .ok (s.result d (BitVec.ofNat 64 (if issued then t.issued else t.done)))

def execTlwait (d tl b : Reg) (timeout : BitVec 24) (s : State) : Out := finish s (effTlwait d tl b timeout s)
def execTlread (issued : Bool) (d tl : Reg) (s : State) : Out := finish s (effTlread issued d tl s)

/-! ## WAITA (R148) -/

/-- The condition of WAITA. -/
def waitCond (c : WaitCond) (v b : Word) : Bool := match c with
  | .eq => v == b
  | .ne => v != b
  | .geu => decide (b.toNat ≤ v.toNat)

/-- The word of a WAITA, read at its home or bank, bypassing L1; own buffered stores come first (R169). -/
def State.waitaWord (s : State) (h : Nat) (p : ElemPlace) : LdRes := match p with
  | .a c off => .val s ((s.core c).a.readN off 8)
  | .g pa m => match (s.hart h).member with
    | some mh => s.loadMember h mh true pa 8 m
    | none =>
      if (s.hart h).sbuf.any (fun e => meet e.pa e.data.length pa 8 || (m == 2 && e.pbmt == 2)) || s.inFlight (coreOf h) pa 8 ||
          s.flipping pa ||
          s.heldStore pa 8 || s.postedTo h pa 8 || (m == 2 && (s.atomUncached h || (s.hart h).elemUncached)) then .wait s
      else if s.hostBias pa && s.hostHolds pa then .wait (s.sendSnoop (pa / 64))
      else if poisoned s.bad pa 8 then .fault s 7
      else .val (s.dropValid (coreOf h) pa 8) (s.modeBytes m pa 8)
  | _ => .fault s 5

/-- WAITA. DESIGN CHOICE (log 67): the window of the control registers (R274), which is silent on WAITA, answers with cause 5. -/
def effWaita (cond : WaitCond) (inA : Bool) (d a b : Reg) (timeout : BitVec 24) (s : State) : Res :=
  let va := s.me.rd a
  if va.toNat % 8 ≠ 0 then .trap s 3 va
  else match s.locate s.cur (if inA then .a else .g) .load va 8 with
    | (s, .fault c) => .trap s c va
    | (s, .at_ (.g pa m)) =>
      if inCtrl pa then .trap s 5 va
      else match s.waitaWord s.cur (.g pa m) with
        | .fault s c => .trap s c (s.loadStval c va pa)
        | .wait s => s.stallFor timeout
        | .miss s => s.stallFor timeout
        | .val s bs =>
          let v := BitVec.ofNat 64 (leNat bs)
          if waitCond cond v (s.me.rd b) then .ok ((s.acquireFor s.cur).result d v)
          else if s.me.expired then .ok (s.result d v)
          else s.stallFor timeout
    | (s, .at_ p) => match s.waitaWord s.cur p with
        | .val s bs =>
          let v := BitVec.ofNat 64 (leNat bs)
          if waitCond cond v (s.me.rd b) then .ok ((s.acquireFor s.cur).result d v)
          else if s.me.expired then .ok (s.result d v)
          else s.stallFor timeout
        | _ => .trap s 5 va

def execWaita (cond : WaitCond) (inA : Bool) (d a b : Reg) (timeout : BitVec 24) (s : State) : Out :=
  finish s (effWaita cond inA d a b timeout s)

/-- A waiting hart's timeout has elapsed. -/
def State.timedOut (s : State) (h : Nat) : Bool := match (s.hart h).wait with
  | some w => (match w.deadline with
    | some t => decide (t ≤ s.gtime)
    | none => false) && !w.expired
  | none => false

/-- The timeout of a wait ends. -/
def State.expire (s : State) (h : Nat) : State :=
  s.modHart h fun x => { x with wait := x.wait.map fun w => { w with expired := true } }

/-- WAITA_TIMEOUT: the WAITA returns the word (R148). -/
def execWaitaTimeout (h : Nat) (s : State) : Out :=
  if s.timedOut h then
    match (s.hart h).item with
    | .instr (.waita c i d a b t) _ => (s.expire h).asHart h fun u => execWaita c i d a b t u
    | _ => notEnabled "WAITA_TIMEOUT"
  else notEnabled "WAITA_TIMEOUT"

/-- TLWAIT_TIMEOUT: the TLWAIT returns DONE (R176). -/
def execTlwaitTimeout (h : Nat) (s : State) : Out :=
  if s.timedOut h then
    match (s.hart h).item with
    | .instr (.tlwait d tl b t) _ => (s.expire h).asHart h fun u => execTlwait d tl b t u
    | _ => notEnabled "TLWAIT_TIMEOUT"
  else notEnabled "TLWAIT_TIMEOUT"

/-! ## CFLUSH and CINVAL (R188) -/

/-- What a cache instruction does to a line. -/
inductive LineOp | flush | flushInv | inval
  deriving DecidableEq, Repr

/-- Acts on one physical line of the core's L1; Registered words keep their state. -/
def State.lineOp (s : State) (c line : Nat) (op : LineOp) : State := match op with
  | .flush => s.cleanLine c line
  | .flushInv => (s.cleanLine c line).dropLine c line
  | .inval => (s.dropLine c line).modCore c fun x =>
      { x with l1 := x.l1.filter fun w => w.owned || w.w / 16 != line }

/-- `n` lines from an address, in increasing order; a line that does not translate traps there. -/
def State.linesFrom (s : State) (op : LineOp) (va : Word) : Nat → Res
  | 0 => .ok s.happen
  | n + 1 => match s.locateG s.cur .load va 64 with
    | (s, .fault c) => .trap s c va
    | (s, .at_ (.g pa _)) => State.linesFrom (s.lineOp (coreOf s.cur) (pa / 64) op) op (va + 64) n
    | (s, .at_ _) => .trap s 5 va

/-- A write-back to one of `n` lines from an address is held at its home (R151, R247, R277). -/
def State.linesHeld (s : State) (va : Word) : Nat → Bool
  | 0 => false
  | n + 1 => (match s.locateG s.cur .load va 64 with
    | (s, .at_ (.g pa _)) => s.heldPuts.any fun p => p.src == .device && meet p.pa p.data.length (pa / 64 * 64) 64
    | _ => false) || State.linesHeld s (va + 64) n

/-- The lines have been acted on: the instruction returns once every write-back is performed (R188, R310). -/
def State.linesDone (s : State) (va : Word) (n : Nat) : Res :=
  if s.heldPuts.isEmpty || !s.linesHeld va n then .ok s else s.stallAt 1 0

/-- CFLUSH, CFLUSH.inv and CINVAL. -/
def effLines (op : LineOp) (a b : Reg) (s : State) : Res :=
  let base := s.me.rd a
  let len := s.me.rd b
  if 2 ^ 40 < len.toNat then s.illegal
  else if base.toNat % 64 ≠ 0 then .trap s 3 base
  else if len.toNat % 64 ≠ 0 then .trap s 3 len
  else if !s.me.sbuf.isEmpty then .stall s
  else if s.me.stage = 1 then s.linesDone base (len.toNat / 64)
  else match s.linesFrom op base (len.toNat / 64) with
    | .ok t => t.linesDone base (len.toNat / 64)
    | r => r

def execCflush (a b : Reg) (s : State) : Out := finish s (effLines .flush a b s)
def execCflushInv (a b : Reg) (s : State) : Out := finish s (effLines .flushInv a b s)
def execCinval (a b : Reg) (s : State) : Out := finish s (effLines .inval a b s)

end Sys2Proof.Machine
end

