-- ==== Sys2Proof/Machine/Branch.lean ====
section
/-! DEFINITION. Branches and jumps (R37, R308, R309, R322, R323), YIELD (R98, R380), BKPT (R257, R307), TRMARK (R351). -/

namespace Sys2Proof.Machine

/-- A branch condition (R308). -/
def ccHolds (cc : CC) (a b : Word) : Bool := match cc with
  | .eq => a == b
  | .ne => a != b
  | .lt => lessVal false a b
  | .ge => !lessVal false a b
  | .ltu => lessVal true a b
  | .geu => !lessVal true a b

/-- A word displacement from an address (R308). -/
def dispTarget {n : Nat} (pc : Word) (disp : BitVec n) : Word := pc + sext64 disp * 8

/-- A branch. -/
def effBranch (taken : Bool) (target : Word) (s : State) : Res := if taken then .jump s target else .ok s
/-- BR. -/
def effBr (cc : CC) (a b : Reg) (disp : BitVec 38) (s : State) : Res :=
  effBranch (ccHolds cc (s.me.rd a) (s.me.rd b)) (dispTarget s.me.pc disp) s
/-- BRNZ. -/
def effBrnz (a : Reg) (imm : BitVec 15) (s : State) : Res := effBranch (s.me.rd a != 0) (dispTarget s.me.pc imm) s
/-- BRZ. -/
def effBrz (a : Reg) (imm : BitVec 15) (s : State) : Res := effBranch (s.me.rd a == 0) (dispTarget s.me.pc imm) s

/-- A jump with a link; a misaligned target writes no link (R37, R323). -/
def effJump (link : Reg) (len : Nat) (target : Word) (s : State) : Res :=
  if target.toNat % 8 ≠ 0 then .trap s 3 target
  else .jump (s.modHart s.cur fun x => x.wr link (x.pc + BitVec.ofNat 64 len)) target

def execBr (cc : CC) (a b : Reg) (disp : BitVec 38) (s : State) : Out := finish s (effBr cc a b disp s)
def execBrnz (a : Reg) (imm : BitVec 15) (s : State) : Out := finish s (effBrnz a imm s)
def execBrz (a : Reg) (imm : BitVec 15) (s : State) : Out := finish s (effBrz a imm s)
/-- The target of form 00 is a multiple of 8 only where the PC is; it is not checked (R323). -/
def execJ (disp : BitVec 38) (s : State) : Out := finish s (.jump s (dispTarget s.me.pc disp))
def execJExt (target : Word) (s : State) : Out := finishAt s.cur 16 (effJump 0 16 target s)
def execJal (a : Reg) (disp : BitVec 38) (s : State) : Out :=
  finish s (.jump (s.modHart s.cur fun x => x.wr a (x.pc + 8)) (dispTarget s.me.pc disp))
def execJalExt (a : Reg) (target : Word) (s : State) : Out := finishAt s.cur 16 (effJump a 16 target s)
/-- s[A] is read before the link is written (R323). -/
def execJr (d a : Reg) (off : BitVec 24) (s : State) : Out := finish s (effJump d 8 (s.me.rd a + sext64 off) s)

/-- The greedy run of the core ends after this word (R98). -/
def State.endRun (s : State) : State :=
  s.modCore (coreOf s.cur) fun c => { c with hist := { c.hist with yielded := true } }

/-- YIELD. -/
def execYield (s : State) : Out := finish s (.ok s.endRun)
/-- BKPT: cause 8 with STVAL = 0 (R159, R257). -/
def execBkpt (s : State) : Out := finish s (.trap s 8 0)
/-- TRMARK: a MARK record with the tag and s[A] (R162, R351). -/
def execTrmark (a : Reg) (tag : BitVec 9) (s : State) : Out :=
  finish s (.ok (s.record (coreOf s.cur) 4 (localHart s.cur) tag.toNat (s.me.rd a)))

end Sys2Proof.Machine
end

