-- ==== Sys2Proof/Machine/Tasks.lean ====
section
/-! DEFINITION. Task instructions (R82 to R88, R91, R94, R348) and the scheduler's steps (R78 to R80, R90, R91, R95, R96,
R98, R282). -/

namespace Sys2Proof.Machine

/-- The hart is inside a pack region as a member (R245). -/
def Hart.inRegion (x : Hart) : Bool := x.member.isSome

/-- A record address of hart s.cur: aligned, translated for reading, its bytes read at the home once earlier accesses are
performed (R84). -/
inductive RecGot
  | ok (s : State) (r : TaskRec)
  | res (r : Res)

/-- Reads the record that an instruction names. -/
def State.readRec (s : State) (va : Word) (out : Bool) : RecGot :=
  match s.locateG s.cur .load va 64 with
  | (s, .fault c) => .res (.trap s c va)
  | (s, .at_ (.g pa m)) =>
    if inCtrl pa then .res (.trap s 5 va)
    else if !s.quiet s.cur then .res (.stall s)
    else if out && !s.me.arrived then .res (s.askHome .stall)
    else if poisoned s.bad pa 64 then .res (.trap s 7 va)
    else .ok (s.lookAt pa 64) (TaskRec.ofBytes (s.modeBytes m pa 64))
  | (s, .at_ _) => .res (.trap s 5 va)

/-- Adds to the launch's OUTSTANDING before a push (R84). -/
def State.countPush (s : State) (r : TaskRec) (k : Nat) : State :=
  if r.launch = 0 then s else s.levelJoin (s.ctx s.cur) r.launch (s.partOf s.cur) k

/-- The launch whose OUTSTANDING a push will count translates for writing, or the push traps before any effect (R84). -/
def State.pushing (s : State) (r : TaskRec) (k : State → Res) : Res :=
  if r.launch = 0 then k s
  else match s.translate (s.ctx s.cur) .store r.launch with
    | (s, .ok _ _) => k s
    | (s, .fault c) => .trap s c r.launch

/-- SPAWN (R84). -/
def effSpawn (d a : Reg) (s : State) : Res :=
  let va := s.me.rd a
  let part := s.partOf s.cur
  let die := dieOf s.cur
  if s.me.inRegion then s.illegal
  else if va.toNat % 64 ≠ 0 then .trap s 3 va
  else match s.readRec va true with
    | .res r => r
    | .ok s r => match s.checkRec (s.ctx s.cur) r part with
      | (s, .invalid) => .ok (s.result d 2)
      | (s, .closed) => .ok (s.result d 3)
      | (s, .ok) =>
        if s.levelFull die part r then .ok (s.result d 1)
        else s.pushing r fun s => .ok (((s.countPush r 1).push die part (s.qrec die r va none none)).result d 0)

/-- JOIN (R85): both addresses first, then the decrement at the counter's atomic unit. -/
def effJoin (d a b : Reg) (s : State) : Res :=
  let ca := s.me.rd a
  let va := s.me.rd b
  let part := s.partOf s.cur
  let die := dieOf s.cur
  if s.me.inRegion then s.illegal
  else if ca.toNat % 8 ≠ 0 then .trap s 3 ca
  else if va.toNat % 64 ≠ 0 then .trap s 3 va
  else match s.locateG s.cur .store ca 8 with
    | (s, .fault c) => .trap s c ca
    | (s, .at_ (.g pa _)) =>
      if inCtrl pa || s.inPackObject pa 8 then .trap s 5 ca
      else match s.locateG s.cur .load va 64 with
        | (s, .fault c) => .trap s c va
        | (s, .at_ (.g ra m)) =>
          if inCtrl ra then .trap s 5 va
          else if !s.quiet s.cur || s.inFlight (coreOf s.cur) pa 8 then .stall s
          else if s.writeHeld pa 8 then .stall (s.await pa 8)
          else if poisoned s.bad pa 8 then .trap s 7 (s.loadStval 7 ca pa)
          else
            let dec := fun (t : State) => (t.atomicAt (coreOf t.cur) (.phys pa) 8 (.amo .add) (2 ^ 64 - 1)).2.2
            if leNat (s.homeBytes pa 8) ≠ 1 then .ok ((dec s).result d 0)
            else if poisoned s.bad ra 64 then .trap s 7 va
            else
              let s := s.lookAt ra 64
              let r := TaskRec.ofBytes (s.modeBytes m ra 64)
              match s.checkRec (s.ctx s.cur) r part with
              | (s, .ok) =>
                if s.levelFull die part r then .ok (s.result d 2)
                else s.pushing r fun s =>
                  .ok ((((dec s).countPush r 1).push die part (s.qrec die r va none none)).result d 1)
              | (s, _) => .ok (s.result d 3)
        | (s, .at_ _) => .trap s 5 va
    | (s, .at_ _) => .trap s 5 ca

/-- The level record an instruction names: aligned and translated. -/
def State.namedLevel (s : State) (va : Word) : State × (Sum Res LevelRec) :=
  if va.toNat % 64 ≠ 0 then (s, .inl (.trap s 3 va))
  else match s.locateG s.cur .store va 64 with
    | (s, .fault c) => (s, .inl (.trap s c va))
    | (s, .at_ (.g pa m)) =>
      if inCtrl pa || s.inPackObject pa 64 then (s, .inl (.trap s 5 va))
      else if poisoned s.bad pa 64 then (s, .inl (.trap s 7 va))
      else (s.lookAt pa 64, .inr (LevelRec.ofBytes pa (s.modeBytes m pa 64)))
    | (s, .at_ _) => (s, .inl (.trap s 5 va))

/-- KIND is one of a level record's (R89). -/
def LevelRec.isLevel (l : LevelRec) : Bool := decide (1 ≤ l.kind) && decide (l.kind ≤ 4)

/-- A level record that an instruction names takes the caller's partition where SET is clear (R386). -/
def State.stampNamed (s : State) (l : LevelRec) (part : Nat) : State := if l.isLevel then s.stamp l part else s

/-- JOIN.lvl (R85, R90, R386). -/
def effJoinLvl (d a : Reg) (s : State) : Res :=
  let va := s.me.rd a
  let part := s.partOf s.cur
  if s.me.inRegion then s.illegal
  else match s.namedLevel va with
    | (_, .inl r) => r
    | (s, .inr _) =>
      if !s.quiet s.cur then .stall s
      else match s.namedLevel va with
        | (_, .inl r) => r
        | (s, .inr l) =>
          let s := s.stampNamed l part
          if l.running && l.isLevel && (!l.set || l.part == part) then
            match s.levelDec (s.ctx s.cur) false part levelFuel va with
            | (s, zero) => .ok (s.result d (boolWord zero))
          else .ok (s.result d 3)

/-- The KIND that TCANCEL names (R82). -/
def levelKindNum : LevelKind → Nat
  | .launch => 1 | .graph => 2 | .phase => 3 | .job => 4

/-- TCANCEL (R91). -/
def effTcancel (k : LevelKind) (d a : Reg) (s : State) : Res :=
  let va := s.me.rd a
  let part := s.partOf s.cur
  if s.me.inRegion then s.illegal
  else match s.namedLevel va with
    | (_, .inl r) => r
    | (s, .inr l) =>
      let s := s.stampNamed l part
      if l.kind ≠ levelKindNum k || (l.set && l.part != part) then .ok (s.result d 2)
      else if l.running then .ok (((s.cancelLevel l va part 2 none).happen).result d 0)
      else .ok (s.result d 1)

/-- Pushes a gang's copies on the dies of a mask (R94). -/
def State.pushGang (s : State) (part : Nat) (r : TaskRec) (va : Word) (g : Nat) (mask : BitVec 4) : State :=
  (List.range 4).foldl (fun (t : State) d =>
    if mask.getLsbD d then t.push d part (t.qrec d r va none (some g)) else t) s

/-- When the instruction of hart s.cur was issued: before a wait of its own. -/
def State.issuedAt (s : State) : Nat := match s.me.wait with
  | some w => w.arg
  | none => s.gtime

/-- GANG (R94). -/
def effGang (d a b : Reg) (s : State) : Res :=
  let va := s.me.rd a
  let m := s.me.rd b
  let part := s.partOf s.cur
  let start := s.issuedAt
  if s.me.inRegion then s.illegal
  else if va.toNat % 64 ≠ 0 then .trap s 3 va
  else match s.readRec va false with
    | .res r => r
    | .ok s r =>
      let mask := BitVec.ofNat 4 (field m 0 4)
      if field m 4 60 ≠ 0 || mask = 0 || r.launch = 0 then .ok (s.result d 2)
      else match s.checkRec (s.ctx s.cur) r part with
        | (s, .invalid) => .ok (s.result d 2)
        | (s, .closed) => .ok (s.result d 3)
        | (s, .ok) =>
          if (List.range 4).any fun k => mask.getLsbD k && s.levelFull k part r then .ok (s.result d 1)
          else s.pushing r fun s =>
            let g := s.ids
            let s := (s.countPush r (popcount mask)).pushGang part r va g mask
            let gang : Gang := { id := g, launch := r.launch, handle := va, part := part, start := start, mask := mask
                                 acked := 0 }
            let s := { s with ids := s.ids + 1 }.modDie (dieOf s.cur) fun x => { x with gangs := x.gangs ++ [gang] }
            .ok (s.result d 0)

/-- What TSELF reads (R87); 0 for the handle and LAUNCH of a hart without a task (R348). -/
def State.selfValue (s : State) (k : SelfKind) : Word := match k with
  | .task => match s.me.task with
    | some t => t.handle
    | none => 0
  | .launch => s.me.launch
  | .hart => BitVec.ofNat 64 s.cur
  | .die => BitVec.ofNat 64 (dieOf s.cur)
  | .part => BitVec.ofNat 64 (s.partOf s.cur)

/-- TSELF. -/
def effTself (k : SelfKind) (d : Reg) (s : State) : Res := .ok (s.result d (s.selfValue k))

/-- Every command of the hart has completed (R86 step 2). -/
def Hart.timelinesDone (x : Hart) : Bool := x.tl.all fun t => t.done == t.issued

/-- The join counter of the hart's task does not translate: a fault that the supervisor may resolve (R86). -/
def State.joinFaults (s : State) (h : Nat) : Bool := match (s.hart h).task with
  | none => false
  | some t => t.rc.joinctr != 0 && (match (s.translate { s.ctx h with priv := .user } .store t.rc.joinctr).2 with
    | .fault _ => true
    | .ok _ _ => false)

/-- TEND (R86, R348). Where its counter does not translate it waits for the supervisor as long as a free choice says (log 5): its
step 4 is complete (R102). -/
def effTend (s : State) : Res :=
  if s.me.pack.isSome || s.me.task.isNone then s.illegal
  else if !s.me.timelinesDone || !s.quiet s.cur then .stall s
  else if s.joinFaults s.cur && Config.choice s.fresh then { s with fresh := s.fresh + 1 }.stallAt 4 0
  else .ok (s.endTask s.cur .tend)

def execSpawn (d a : Reg) (s : State) : Out := finish s (effSpawn d a s)
def execJoin (d a b : Reg) (s : State) : Out := finish s (effJoin d a b s)
def execJoinLvl (d a : Reg) (s : State) : Out := finish s (effJoinLvl d a s)
def execTcancel (k : LevelKind) (d a : Reg) (s : State) : Out := finish s (effTcancel k d a s)
def execGang (d a b : Reg) (s : State) : Out := finish s (effGang d a b s)
def execTself (k : SelfKind) (d : Reg) (s : State) : Out := finish s (effTself k d s)
def execTend (s : State) : Out := finish s (effTend s)

/-! ## The scheduler's steps -/

/-- An idle hart: a compute hart at user privilege without a task, on an assigned core that is neither gated nor retired
(R78, R262). DESIGN CHOICE (log 68): nor does a hart of a core with a pending PARTCORE write (R274) receive a record. -/
def State.idle (s : State) (h : Nat) : Bool :=
  decide (h < 1024) && (s.hart h).task.isNone && (s.hart h).priv == .user && (s.core (coreOf h)).assigned &&
  (s.core (coreOf h)).partPending.isNone && !(s.core (coreOf h)).gated && !(s.core (coreOf h)).retired

/-- The highest non-empty level of a partition, looking from level `n - 1` down. -/
def Die.highest (x : Die) (part : Nat) : Nat → Option Nat
  | 0 => none
  | n + 1 => if (x.level part n).recs.isEmpty then Die.highest x part n else some n

/-- The record has waited 2^16 core cycles on its level by the die's core clock (R79). -/
def QRec.aged (q : QRec) (clock : Nat) : Bool := !q.rc.noAge && decide (q.since + 65536 * Config.clockUnit ≤ clock)

/-- The place of the record of a level that is due to move to the next one, where that has room (R79). -/
def Die.moveDue (x : Die) (part lv : Nat) : Option Nat :=
  if 7 ≤ lv || (x.level part (lv + 1)).full then none
  else (x.level part lv).recs.findIdx? fun q => q.aged x.clock

/-- The idle hart of a die's partition that is served next: the first at or after the turn, in round-robin order (R78). -/
def State.nextIdle (s : State) (d part : Nat) : Option Nat :=
  let first := getAt 0 (s.die d).popRr part
  ((List.range 256).map fun k => 256 * d + (first + k) % 256).find? fun h => s.partOf h == part && s.idle h

/-- TASK_POP: the oldest record of the highest level goes to the idle hart whose turn it is (R78, R80). A record that is due
to move has moved first (R79). -/
def State.pop (s : State) (h : Nat) : Option State :=
  let d := dieOf h
  let part := s.partOf h
  if !s.idle h then none
  else match (s.die d).highest part 8 with
    | none => none
    | some lv =>
      if ((List.range 7).any fun k => ((s.die d).moveDue part k).isSome) || s.nextIdle d part != some h then none
      else match ((s.die d).level part lv).recs[0]? with
      | none => none
      | some q =>
        let s := (s.takeAt d part lv 0).modDie d fun x => { x with popRr := putAt 0 x.popRr part ((h + 1) % 256) }
        some (s.startOn h q lv)

/-- TASK_POP. -/
def execTaskPop (h : Nat) (s : State) : Out := match s.pop h with
  | some t => event t
  | none => notEnabled "TASK_POP"

/-- AGING_MOVE: the oldest aged record of a level moves to the tail of the next one, where there is room (R79). -/
def State.age (s : State) (d part lv : Nat) : Option State :=
  match (s.die d).moveDue part lv with
  | none => none
  | some i => match ((s.die d).level part lv).recs[i]? with
    | none => none
    | some q =>
      let q := s.refill ((s.die d).level part lv) i q
      let s := s.lookRing ((s.die d).level part lv) i
      some ((s.takeAt d part lv i).pushAt d part (lv + 1) { q with since := (s.die d).clock })

/-- AGING_MOVE. -/
def execAgingMove (d part lv : Nat) (s : State) : Out := match s.age d part lv with
  | some t => event t
  | none => notEnabled "AGING_MOVE"

/-- The launch fails where it is still RUNNING; its handler runs once (R95). -/
def State.failGang (s : State) (d : Nat) (g : Gang) : State :=
  let x := s.partCtx g.part
  match s.levelAt x .store g.launch with
  | (s, none) => s
  | (s, some l) =>
    let s := s.levelPut l 12 1 (g.mask &&& ~~~g.acked).toNat
    if !l.running then s
    else
      let s := { s.cancelLevel l g.launch g.part 3 (some s.ids) with ids := s.ids + 1 }
      if l.handler = 0 then s else s.pushHandler x d g.part g.launch g.handle 0 l

/-- GANG_TIMEOUT: gang k of a die is 20,000 ns old without every acknowledgement (R95). A gang whose dies have all
acknowledged is forgotten. -/
def State.gangTimeout (s : State) (d k : Nat) : Option State :=
  match (s.die d).gangs[k]? with
  | none => none
  | some g =>
    if s.gtime ≤ g.start + 20000 then none
    else
      let s := s.modDie d fun x => { x with gangs := x.gangs.eraseIdx k }
      some (if g.mask &&& ~~~g.acked = 0 then s else s.failGang d g)

/-- GANG_TIMEOUT. -/
def execGangTimeout (d k : Nat) (s : State) : Out := match s.gangTimeout d k with
  | some t => event t
  | none => notEnabled "GANG_TIMEOUT"

/-- A cancellation that R95 made before the push of a handler record never stops the handler (R93). -/
def Cancel.spares (c : Cancel) (t : Task) : Bool := match c.gang, t.handler with
  | some n, some k => decide (n < k)
  | _, _ => false

/-- The broadcast reaches one hart: its task is to stop where it belongs to the level's partition and its chain holds the
handle (R91). -/
def State.cancelHart (s : State) (c : Cancel) (h : Nat) : State :=
  match (s.hart h).task with
  | none => s
  | some t => if s.partOf h != c.part then s else
    match s.chainHolds (s.partCtx (s.partOf h)) t.rc.launch c.handle (c.spares t) with
    | (s, true) => s.modHart h fun x => { x with stop := .cancelled }
    | (s, false) => s

/-- CANCEL_BROADCAST: a handle reaches a die's scheduler (R91). -/
def State.cancelBroadcast (s : State) (d : Nat) : Option State :=
  match (s.die d).cancels with
  | [] => none
  | c :: rest =>
    let s := s.modDie d fun x => { x with cancels := rest }
    some ((List.range 256).foldl (fun (t : State) k => t.cancelHart c (256 * d + k)) s)

/-- CANCEL_BROADCAST. -/
def execCancelBroadcast (d : Nat) (s : State) : Out := match s.cancelBroadcast d with
  | some t => event t
  | none => notEnabled "CANCEL_BROADCAST"

/-- The first held push of a kind whose level has room; no record of a launch passes an earlier one (R282). -/
def heldIndex (s : State) (d : Nat) (donecont : Bool) : List HeldPush → Nat → List HeldPush → Option Nat
  | _, _, [] => none
  | before, i, p :: ps =>
    if p.donecont == donecont && !s.levelFull d p.part p.rc &&
        before.all (fun q => q.donecont != donecont || q.rc.launch != p.rc.launch) then some i
    else heldIndex s d donecont (before ++ [p]) (i + 1) ps

/-- Pushes a held record (R90, R230, R282). -/
def State.pushHeld (s : State) (d : Nat) (donecont : Bool) : Option State :=
  match heldIndex s d donecont [] 0 (s.die d).held with
  | none => none
  | some i => match (s.die d).held[i]? with
    | none => none
    | some p => some ((s.modDie d fun x => { x with held := x.held.eraseIdx i }).pushOrHold d p)

/-- DONECONT_PUSH (R90). -/
def execDoneContPush (d : Nat) (s : State) : Out := match s.pushHeld d true with
  | some t => event t
  | none => notEnabled "DONECONT_PUSH"

/-- HELD_PUSH (R282). -/
def execHeldPush (d : Nat) (s : State) : Out := match s.pushHeld d false with
  | some t => event t
  | none => notEnabled "HELD_PUSH"

/-! ## The lane arbiter (R96) -/

/-- Clusters leased by the harts of a core. -/
def State.leased (s : State) (c : Nat) : BitVec 16 :=
  if c < 128 then (List.range 8).foldl (fun m k => m ||| (s.hart (8 * c + k)).lease) 0
  else (s.hart (1024 + c - 128)).lease

/-- Free, non-retired clusters; those released in this cycle are not free yet. -/
def State.freeClusters (s : State) (c : Nat) : BitVec 16 :=
  ~~~(s.leased c ||| (s.core c).freed ||| (s.core c).lanedis)

/-- The `n` lowest set bits of a mask, from bit `i` on; `k` bits remain to look at. -/
def lowest (m : BitVec 16) : Nat → Nat → Nat → BitVec 16
  | 0, _, _ => 0
  | k + 1, i, n =>
    if n = 0 then 0
    else if m.getLsbD i then (1#16 <<< i) ||| lowest m k (i + 1) (n - 1)
    else lowest m k (i + 1) n

/-- LEASE_GRANT: the oldest waiting request, where at least MINCL clusters are free. The registers become zero with the new
lease (R59). Clusters that a waiting CTXLOAD's hart still holds count as free for it and change hands in the same step (R268,
DESIGN CHOICE, log 67). -/
def State.grant (s : State) (c : Nat) : Option State :=
  match (s.core c).leaseq with
  | [] => none
  | r :: rest =>
    let old := (s.hart r.hart).lease
    let f := s.freeClusters c ||| (old &&& ~~~(s.core c).lanedis)
    let n := min r.prefcl (popcount f)
    if n < r.mincl then none
    else
      let s := s.modCore c fun x => { x with leaseq := rest, freed := x.freed ||| (old &&& ~~~lowest f 16 0 n) }
      some (s.modHart r.hart fun x => { x.zeroVectors with lease := lowest f 16 0 n })

/-- LEASE_GRANT. -/
def execLeaseGrant (c : Nat) (s : State) : Out := match s.grant c with
  | some t => event t
  | none => notEnabled "LEASE_GRANT"

/-- GTO_STARVATION: a ready hart whose count has reached 2,048 is chosen ahead of all others (R98). -/
def execGtoStarvation (h : Nat) (s : State) : Out :=
  if !(s.core (coreOf h)).rr && decide (2048 ≤ (s.hart h).gto) && ((s.hart h).task.isSome || (s.hart h).priv == .sup)
      && (s.hart h).wait.isNone then
    event { s with cur := h }
  else notEnabled "GTO_STARVATION"

end Sys2Proof.Machine
end

