-- ==== Sys2Proof/Machine/Lanes.lean ====
section
/-! DEFINITION. The lane-cycle record (R153 to R155) and the core cycle. -/

namespace Sys2Proof.Machine

/-- The harts of a core. -/
def hartsOf (c : Nat) : List Nat := if c < 128 then (List.range 8).map (8 * c + ·) else [1024 + c - 128]

/-- The hart waits in VCOMMIT. -/
def Hart.inVcommit (x : Hart) : Bool := x.wait.isSome && (match x.item with
  | .instr (.vcommit _) _ => true
  | _ => false)

/-- The hart's oldest started vector instruction cannot present its next group: its banks are busy, it waits for memory data,
the element queue or the store stream is full, or a VCOMMIT waits (R135, R153, R165). -/
def stalledRun (core : Nat) (x : Hart) : Bool := match x.run with
  | some ru => ru.waits.headD 0 != 0 || x.elemsFull core ru || (match ru.e.instr with
    | .vld _ => x.elems.any fun e => e.kind == .load && !ownBank core e
    | _ => false)
  | none => x.inVcommit

/-- Lanes of the hart's lease that belong to clusters in service. -/
def State.liveLanes (s : State) (_c h : Nat) : Nat := (s.lanesOf h).length

/-- Lanes of the core's harts that satisfy `p` and execute no group in this cycle. -/
def State.quietLanes (s : State) (c : Nat) (p : Hart → Bool) : Nat :=
  ((hartsOf c).map fun h =>
    if (s.core c).laneHarts.getLsbD (localHart h) || !p (s.hart h) then 0 else s.liveLanes c h).sum

/-- The lanes of a core in the six classes of this cycle, in the order of the counters (R54, R153). -/
def State.laneClasses (s : State) (c : Nat) : List Nat :=
  let x := s.core c
  let n := fun k => (x.laneUse.filter fun l => l.2 == k && !x.freed.getLsbD l.1 && !x.lanedis.getLsbD l.1).length
  let u := n 0
  let m := n 1
  let b := n 2
  let st := s.quietLanes c (stalledRun c)
  let su := s.quietLanes c fun y => !stalledRun c y
  [u, m, b, su, st, 256 - (u + m + b + su + st)]

/-- Adds `k` times each class to a counter, modulo 2^64. -/
def addClasses (k : Nat) : List Word → List Nat → List Word
  | w :: ws, n :: ns => (w + BitVec.ofNat 64 (k * n)) :: addClasses k ws ns
  | ws, _ => ws

/-- The live counters: the cycles counted before, and this one (R155). -/
def State.liveLcr (s : State) (c : Nat) : List Word :=
  if (s.core c).uncounted || (s.core c).snapped || (s.core c).gated || c ≥ 128 then (s.core c).lcr
  else addClasses 1 (s.core c).lcr (s.laneClasses c)

/-- A run for which the banks are busy has one cycle less to wait (R135). -/
def Hart.serveBank (x : Hart) : Hart := match x.run with
  | some ru => match ru.waits with
    | (n + 1) :: ns => { x with run := some { ru with waits := n :: ns } }
    | _ => x
  | none => x

/-- The banks of a core are busy with the next group of a hart. -/
def State.banksBusy (s : State) (c : Nat) : Bool :=
  (hartsOf c).any fun h => match (s.hart h).run with
    | some ru => ru.waits.headD 0 != 0
    | none => false

/-- A cycle of the banks: a hart that has presented no group in it has waited one. -/
def State.serveBanks (s : State) (c : Nat) : State :=
  if s.banksBusy c then
    (hartsOf c).foldl (fun t h => if (s.core c).laneHarts.getLsbD (localHart h) then t else t.modHart h Hart.serveBank) s
  else s

/-- The groups of the core's vector instructions that can execute in this cycle do so (R165). -/
def State.runGroups (s : State) (c : Nat) : State :=
  (hartsOf c).foldl (fun (t : State) h => if (t.hart h).run.isSome then (t.runGroup h).getD t else t) s

/-- The run of a hart waits longer before its next group. -/
def Hart.delay (n : Nat) (x : Hart) : Hart := match x.run with
  | some ru => { x with run := some { ru with waits := (ru.waits.headD 0 + n) :: ru.waits.drop 1 } }
  | none => x

/-- What engines and messages have used in this cycle delays the groups that are presented in it (R135, R165). -/
def State.delayGroups (s : State) (c : Nat) : State :=
  if (s.core c).bankUse.isEmpty then s
  else
    ((hartsOf c).foldl (fun t h => match (s.hart h).run with
      | some ru => if s.engineDelay h ru = 0 then t else t.modHart h (Hart.delay (s.engineDelay h ru))
      | none => t) s).modCore c fun x => { x with bankUse := [] }

/-- The core cycle ends: its element groups have executed, the counters advance, and clusters released in it become free (R96,
R154, R165). -/
def State.endCycle (s : State) (c : Nat) : State :=
  let s := (s.delayGroups c).runGroups c
  let l := s.liveLcr c
  (s.serveBanks c).modCore c fun x =>
    { x with lcr := l, laneUse := [], laneHarts := 0, uncounted := false, snapped := false, freed := 0, cycle := x.cycle + 1
             issued := none }

/-- `k` more cycles in which the core does nothing. -/
def State.idleCycles (s : State) (c k : Nat) : State :=
  let l := if (s.core c).gated || c ≥ 128 then (s.core c).lcr else addClasses k (s.core c).lcr (s.laneClasses c)
  s.modCore c fun x => { x with lcr := l, cycle := x.cycle + k }

/-- The core's next cycle is like every one that follows while nothing happens: no vector instruction is at work on it. -/
def State.quietCore (s : State) (c : Nat) : Bool :=
  (s.core c).bankUse.isEmpty && (hartsOf c).all fun h => (s.hart h).run.isNone

/-- A CSRW to a lane counter clears all six in the cycle in which it takes effect (R154, R155). -/
def State.clearLcr (s : State) (c : Nat) : State :=
  s.modCore c fun x => { x with lcr := List.replicate 6 0, uncounted := true }

/-- A CSRR of LCR_USEFUL: the live value, and the snapshot of the other five, this cycle's lanes included (R155). -/
def State.snapLcr (s : State) (h : Nat) : Word × State :=
  let s := (s.delayGroups (coreOf h)).runGroups (coreOf h)
  let l := s.liveLcr (coreOf h)
  (getAt 0 l 0, (s.modCore (coreOf h) fun x => { x with lcr := l, snapped := true }).modHart h fun x => { x with lcr := l.drop 1 })

end Sys2Proof.Machine
end

