-- ==== Sys2Proof/Machine/Configure.lean ====
section
/-! DEFINITION. Vector configuration (R58, R59, R341 to R344) and the control and status registers (R54 to R56, R115, R155,
R157, R196, R256, R312 to R314). -/

namespace Sys2Proof.Machine

/-! ## Vector configuration -/

/-- SETMT, and a CSRW of MT: 0 to 4 (R131). -/
def effSetmt (n : Nat) (s : State) : Res :=
  if 4 < n then s.illegal
  else if !s.me.vectorIdle then .stall s
  else .ok (s.modHart s.cur fun x => { x with mt := n })

/-- A stream is bound or a landing tag is occupied. -/
def Hart.bound (x : Hart) : Bool := !x.streams.isEmpty || x.tagUsed

/-- SETNV, and a CSRW of NVREG (R58). -/
def effSetnv (n : Nat) (s : State) : Res :=
  if !(n == 8 || n == 16 || n == 32 || n == 64) then s.illegal
  else if s.me.bound then s.illegal
  else if !s.storesDone s.cur then .stall s
  else .ok (s.modHart s.cur fun x => { x.zeroVectors with nvreg := n, vl := 0 })

/-- Writes SB (R342). -/
def effSetsb (v : Word) (s : State) : Res :=
  if !s.me.vectorIdle then .stall s else .ok (s.modHart s.cur fun x => { x with sb := v.setWidth 32 })

/-- The value SETSB gives SB (R342). -/
def sbValue (add : Bool) (a : Reg) (imm : BitVec 36) (x : Hart) : Word :=
  (if add then zext64 x.sb else 0) + x.rd a + sext64 imm

/-- Writes SEED (R342). -/
def effSetseed (v : Word) (s : State) : Res :=
  if !s.me.vectorIdle then .stall s else .ok (s.modHart s.cur fun x => { x with seed := v })

/-- The clusters of a core that LANEDIS does not mark; a control core has none (R8, R97). -/
def State.clustersLeft (s : State) (c : Nat) : Nat := if c < 128 then 16 - popcount (s.core c).lanedis else 0

/-- VEW := width, VL := min(request, MVL), s[D] := VL (R59). -/
def Hart.setVl (x : Hart) (d : Reg) (req width : Nat) : Hart :=
  let y : Hart := { x with vew := width }
  let z : Hart := { y with vl := min req y.mvl }
  z.wr d (BitVec.ofNat 64 z.vl)

/-- MINCL and PREFCL of a hart's task; 1 and 1 without a task (log 21). -/
def Hart.leaseWish (x : Hart) : Nat × Nat := match x.task with
  | some t => (t.rc.mincl.toNat, t.rc.prefcl.toNat)
  | none => (1, 1)

/-- The request of a hart joins the arbiter's queue (R96). -/
def State.askLease (s : State) (h : Nat) : State :=
  s.modCore (coreOf h) fun (c : Core) =>
    if c.leaseq.any (fun r => r.hart == h) then c
    else
      let r : LeaseReq := { hart := h, mincl := (s.hart h).leaseWish.1, prefcl := (s.hart h).leaseWish.2 }
      { c with leaseq := c.leaseq ++ [r] }

/-- SETVL (R59, R96, R97). The hart waits until LEASE_GRANT has given it its clusters. -/
def effSetvl (d a : Reg) (width : Nat) (s : State) : Res :=
  let h := s.cur
  let x := s.me
  let req := (x.rd a).toNat
  if !(width == 8 || width == 16 || width == 32 || width == 64) then s.illegal
  else if !x.vectorIdle then .stall s
  else if req = 0 then
    if x.lease = 0 then .ok (s.modHart h fun y => y.setVl d 0 width)
    else if x.bound then s.illegal
    else if !s.storesDone h then .stall s
    else .ok ((s.releaseLease h).modHart h fun y => y.setVl d 0 width)
  else if x.lease ≠ 0 then .ok (s.modHart h fun y => y.setVl d req width)
  else if s.clustersLeft (coreOf h) < x.leaseWish.1 then .trap s 13 (BitVec.ofNat 64 x.leaseWish.1)
  else if x.bound then s.illegal
  else if !s.storesDone h then .stall s
  else .stall (s.askLease h)

def execSetmt (n : BitVec 36) (s : State) : Out := finish s (effSetmt n.toNat s)
def execSetnv (n : BitVec 36) (s : State) : Out := finish s (effSetnv n.toNat s)
def execSetsb (add : Bool) (a : Reg) (imm : BitVec 36) (s : State) : Out := finish s (effSetsb (sbValue add a imm s.me) s)
def execSetseed (a : Reg) (imm : BitVec 36) (s : State) : Out := finish s (effSetseed (s.me.rd a + sext64 imm) s)
def execSetvl (d a : Reg) (width : BitVec 36) (s : State) : Out := finish s (effSetvl d a width.toNat s)

/-! ## ASIDSW (R196) -/

/-- The first-level entries of an address space leave the core. -/
def State.dropAsid (s : State) (c : Nat) (asid : BitVec 16) : State :=
  s.modCore c fun x => { x with tlb := x.tlb.filter fun e => !(e.2.asid == asid) }

/-- ASIDSW, and a CSRW of SATP, at supervisor privilege. -/
def effAsidsw (d : Reg) (v : Word) (s : State) : Res :=
  let x := s.me
  if !x.streams.isEmpty || !satpOk (isControl s.cur) v then s.illegal
  else if !s.quiet s.cur then .stall s
  else .ok ((s.dropAsid (coreOf s.cur) (satpAsid x.satp)).modHart s.cur fun y =>
    { (y.wr d y.satp).dropStrips with satp := v })

def execAsidsw (d a : Reg) (s : State) : Out := finish s (s.privOnly (effAsidsw d (s.me.rd a) s))

/-! ## CSRs (R54) -/

/-- Names of the CSRs. -/
inductive Csr
  | vl | mt | nvreg | sb | seed | vstart | mvl | lease | vew | fflags | frm | atflags | mleash | prio | issuepol
  | lcr (n : Nat)
  | cycle | gtime | stvec | sepc | scause | stval | sstatus | satp | sstart | lanedis
  | bkctl (n : Nat)
  | bkaddr (n : Nat)
  | bkval (n : Nat)
  deriving DecidableEq, Repr

/-- The CSR with a number; none: unassigned. -/
def csrOf (n : BitVec 12) : Option Csr :=
  match n.toNat with
  | 0x000 => some .vl
  | 0x001 => some .mt
  | 0x002 => some .nvreg
  | 0x003 => some .sb
  | 0x004 => some .seed
  | 0x005 => some .vstart
  | 0x006 => some .mvl
  | 0x007 => some .lease
  | 0x008 => some .vew
  | 0x010 => some .fflags
  | 0x011 => some .frm
  | 0x012 => some .atflags
  | 0x020 => some .mleash
  | 0x021 => some .prio
  | 0x030 => some .issuepol
  | 0x050 => some .cycle
  | 0x051 => some .gtime
  | 0x100 => some .stvec
  | 0x101 => some .sepc
  | 0x102 => some .scause
  | 0x103 => some .stval
  | 0x104 => some .sstatus
  | 0x105 => some .satp
  | 0x106 => some .sstart
  | 0x107 => some .lanedis
  | k =>
    if 0x040 ≤ k ∧ k ≤ 0x045 then some (.lcr (k - 0x040))
    else if 0x110 ≤ k ∧ k ≤ 0x117 then some (.bkctl (k - 0x110))
    else if 0x118 ≤ k ∧ k ≤ 0x11F then some (.bkaddr (k - 0x118))
    else if 0x120 ≤ k ∧ k ≤ 0x127 then some (.bkval (k - 0x120))
    else none

/-- CSRs that only the supervisor may name. -/
def Csr.supervisor : Csr → Bool
  | .vstart | .issuepol | .stvec | .sepc | .scause | .stval | .sstatus | .satp | .sstart | .lanedis | .bkctl _ | .bkaddr _
  | .bkval _ => true
  | _ => false

/-- CSRs that nobody may write. -/
def Csr.readOnly : Csr → Bool
  | .vl | .mvl | .lease | .vew | .prio | .cycle | .gtime | .lanedis => true
  | _ => false

/-- A breakpoint unit of a core. -/
def Core.unit (c : Core) (n : Nat) : BkUnit := getAt { ctl := 0, addr := 0, val := 0 } c.bk n
/-- Writes it. -/
def Core.setUnit (c : Core) (n : Nat) (u : BkUnit) : Core :=
  { c with bk := putAt { ctl := 0, addr := 0, val := 0 } c.bk n u }

/-- What CSRR returns where it does not wait and takes no snapshot. -/
def State.csrValue (s : State) (h : Nat) (r : Csr) : Word :=
  let x := s.hart h
  let c := s.core (coreOf h)
  match r with
  | .vl => BitVec.ofNat 64 x.vl
  | .mt => BitVec.ofNat 64 x.mt
  | .nvreg => BitVec.ofNat 64 x.nvreg
  | .sb => zext64 x.sb
  | .seed => x.seed
  | .vstart => BitVec.ofNat 64 x.vstart
  | .mvl => BitVec.ofNat 64 x.mvl
  | .lease => BitVec.ofNat 64 (x.lease.toNat * 65536 + x.c)
  | .vew => BitVec.ofNat 64 x.vew
  | .fflags => zext64 x.fflags
  | .frm => zext64 x.frm
  | .atflags => zext64 x.atflags
  | .mleash => BitVec.ofNat 64 x.mleash
  | .prio => BitVec.ofNat 64 x.prio
  | .issuepol => BitVec.ofNat 64 (b2n c.rr)
  | .lcr n => getAt 0 x.lcr (n - 1)
  | .cycle => BitVec.ofNat 64 c.cycle
  | .gtime => BitVec.ofNat 64 s.gtime
  | .stvec => x.stvec
  | .sepc => x.sepc
  | .scause => x.scause
  | .stval => x.stval
  | .sstatus => x.sstatus
  | .satp => x.satp
  | .sstart => x.sstart
  | .lanedis => zext64 c.lanedis
  | .bkctl n => (c.unit n).ctl
  | .bkaddr n => (c.unit n).addr
  | .bkval n => (c.unit n).val

/-- Posted atomics whose flags a CSRR of ATFLAGS must return: those before the hart's last FENCE, and the elements of its
VAMOs (R141). -/
def State.flagsDue (s : State) (h : Nat) : Bool :=
  (s.atoms.any fun a => a.hart == h && a.posted && decide (a.seq < (s.hart h).fenced)) ||
  (s.hart h).elems.any fun e => e.kind != .load && e.kind != .store

/-- CSRR. -/
def effCsrr (d : Reg) (n : BitVec 12) (s : State) : Res :=
  match csrOf n with
  | none => s.illegal
  | some r =>
    if r.supervisor && s.me.priv = .user then s.privileged
    else if (r = .fflags && !s.me.vectorIdle) || (r = .atflags && s.flagsDue s.cur) then .stall s
    else if r = .lcr 0 then .ok ((s.snapLcr s.cur).2.result d (s.snapLcr s.cur).1)
    else .ok (s.result d (s.csrValue s.cur r))

/-- A BKCTL value without reserved codes (R157). -/
def bkctlOk (v : Word) : Bool :=
  field v 41 23 == 0 && field v 38 2 == 0 && field v 31 1 == 0 && field v 19 1 == 0 && field v 3 5 == 0 &&
  decide (field v 24 4 ≤ 9) && decide (field v 22 2 ≤ 2) && decide (field v 16 3 ≤ 3) && decide (field v 1 2 ≤ 1) &&
  !(field v 22 2 == 2 && decide (2 ≤ field v 16 3) && decide (field v 24 4 < 8))

/-- Stores a value into a CSR that CSRW may write, as R56 cuts it. DESIGN CHOICE (log 67): VSTART, of which R54 says only
"element index", holds all 64 bits; a write of ISSUEPOL keeps the current hart, its word count and the exclusion, for when the
policy is GTO. -/
def State.csrPut (s : State) (h : Nat) (r : Csr) (v : Word) : State :=
  let hart := fun f => s.modHart h f
  let core := fun f => s.modCore (coreOf h) f
  match r with
  | .vstart => hart fun x => { x with vstart := v.toNat }
  | .fflags => hart fun x => { x with fflags := v.setWidth 7 }
  | .frm => hart fun x => { x with frm := v.setWidth 3 }
  | .atflags => hart fun x => { x with atflags := v.setWidth 7 }
  | .mleash => hart fun x => { x with mleash := min v.toNat 1023 }
  | .issuepol => core fun x => { x with rr := wbit v 0, hist := { x.hist with last := 7 } }
  | .lcr _ => s.clearLcr (coreOf h)
  | .stvec => hart fun x => { x with stvec := v &&& ~~~7#64 }
  | .sepc => hart fun x => { x with sepc := v &&& ~~~7#64 }
  | .scause => hart fun x => { x with scause := keep (2 ^ 63 + 31) v }
  | .stval => hart fun x => { x with stval := v }
  | .sstatus => hart fun x => { x with sstatus := keep 0x122 v ||| keep 0x200 x.sstatus }
  | .sstart => hart fun x => { x with sstart := v }
  | .bkctl n => core fun x => x.setUnit n { x.unit n with ctl := v }
  | .bkaddr n => core fun x => x.setUnit n { x.unit n with addr := v &&& ~~~7#64 }
  | .bkval n => core fun x => x.setUnit n { x.unit n with val := v }
  | _ => s

/-- CSRW (R55, R56, R314). -/
def effCsrw (n : BitVec 12) (a : Reg) (s : State) : Res :=
  let v := s.me.rd a
  match csrOf n with
  | none => s.illegal
  | some r =>
    if r.supervisor && s.me.priv = .user then s.privileged
    else if r.readOnly then s.illegal
    else match r with
      | .mt => effSetmt v.toNat s
      | .nvreg => effSetnv v.toNat s
      | .sb => effSetsb v s
      | .seed => effSetseed v s
      | .satp => effAsidsw 0 v s
      | .fflags | .frm => if !s.me.vectorIdle then .stall s else .ok (s.csrPut s.cur r v)
      | .lcr _ => if s.me.priv = .user then s.privileged else .ok (s.csrPut s.cur r v)
      | .bkctl _ => if bkctlOk v then .ok (s.csrPut s.cur r v) else s.illegal
      | r => .ok (s.csrPut s.cur r v)

def execCsrr (d : Reg) (csr : BitVec 12) (s : State) : Out := finish s (effCsrr d csr s)
def execCsrw (csr : BitVec 12) (a : Reg) (s : State) : Out := finish s (effCsrw csr a s)

end Sys2Proof.Machine
end

