-- ==== Sys2Proof/Machine/VectorArms.lean ====
section
/-! DEFINITION. The vector instructions' meanings at issue: masks (R330), arithmetic (R352 to R364), memory (R365 to R368),
streams and landing (R369, R370). Each joins its hart's vector queue (R353); VECTOR_START and ELEMENT_GROUP carry it out. -/

namespace Sys2Proof.Machine

def execVadd (v : VArgs) (s : State) : Out := finish s (s.queueVector (.vadd v))
def execVsub (v : VArgs) (s : State) : Out := finish s (s.queueVector (.vsub v))
def execVmul (v : VArgs) (s : State) : Out := finish s (s.queueVector (.vmul v))
def execVmulh (v : VArgs) (s : State) : Out := finish s (s.queueVector (.vmulh v))
def execVmulhr (v : VArgs) (s : State) : Out := finish s (s.queueVector (.vmulhr v))
def execVdiv (v : VArgs) (s : State) : Out := finish s (s.queueVector (.vdiv v))
def execVrem (v : VArgs) (s : State) : Out := finish s (s.queueVector (.vrem v))
def execVmin (v : VArgs) (s : State) : Out := finish s (s.queueVector (.vmin v))
def execVmax (v : VArgs) (s : State) : Out := finish s (s.queueVector (.vmax v))
def execVand (v : VArgs) (s : State) : Out := finish s (s.queueVector (.vand v))
def execVor (v : VArgs) (s : State) : Out := finish s (s.queueVector (.vor v))
def execVxor (v : VArgs) (s : State) : Out := finish s (s.queueVector (.vxor v))
def execVshl (v : VArgs) (s : State) : Out := finish s (s.queueVector (.vshl v))
def execVshr (v : VArgs) (s : State) : Out := finish s (s.queueVector (.vshr v))
def execVsra (v : VArgs) (s : State) : Out := finish s (s.queueVector (.vsra v))
def execVrshr (v : VArgs) (s : State) : Out := finish s (s.queueVector (.vrshr v))
def execVabs (v : VArgs) (s : State) : Out := finish s (s.queueVector (.vabs v))
def execVneg (v : VArgs) (s : State) : Out := finish s (s.queueVector (.vneg v))
def execVsqrt (v : VArgs) (s : State) : Out := finish s (s.queueVector (.vsqrt v))
def execVrsqrt (v : VArgs) (s : State) : Out := finish s (s.queueVector (.vrsqrt v))
def execVexp2 (v : VArgs) (s : State) : Out := finish s (s.queueVector (.vexp2 v))
def execVfma (v : VArgs) (s : State) : Out := finish s (s.queueVector (.vfma v))
def execVsel (v : VArgs) (s : State) : Out := finish s (s.queueVector (.vsel v))
def execVclamp (v : VArgs) (s : State) : Out := finish s (s.queueVector (.vclamp v))
def execVcmp (rel : VRel) (v : VArgs) (s : State) : Out := finish s (s.queueVector (.vcmp rel v))
def execVcvt (src : Ty) (v : VArgs) (s : State) : Out := finish s (s.queueVector (.vcvt src v))
def execVbscale (v : VArgs) (s : State) : Out := finish s (s.queueVector (.vbscale v))
def execVpackni (v : VArgs) (s : State) : Out := finish s (s.queueVector (.vpackni v))
def execVunpkni (k : BitVec 4) (v : VArgs) (s : State) : Out := finish s (s.queueVector (.vunpkni k v))
def execVmov (byVew : Bool) (v : VArgs) (s : State) : Out := finish s (s.queueVector (.vmov byVew v))
def execVid (v : VArgs) (s : State) : Out := finish s (s.queueVector (.vid v))
def execVext (v : VArgs) (s : State) : Out := finish s (s.queueVector (.vext v))
def execVins (v : VArgs) (s : State) : Out := finish s (s.queueVector (.vins v))
def execVslide (up : Bool) (v : VArgs) (s : State) : Out := finish s (s.queueVector (.vslide up v))
def execVperm (v : VArgs) (s : State) : Out := finish s (s.queueVector (.vperm v))
def execVcompress (v : VArgs) (s : State) : Out := finish s (s.queueVector (.vcompress v))
def execVred (op : RedOp) (v : VArgs) (s : State) : Out := finish s (s.queueVector (.vred op v))
def execVadds (d a b : Reg) (s : State) : Out := finish s (s.queueVector (.vadds d a b))
def execMlogic (op : MOp) (d a b : Reg) (m : BitVec 3) (s : State) : Out := finish s (s.queueVector (.mlogic op d a b m))
def execMpopc (d a : Reg) (m : BitVec 3) (s : State) : Out := finish s (s.queueVector (.mpopc d a m))
def execMfirst (d a : Reg) (m : BitVec 3) (s : State) : Out := finish s (s.queueVector (.mfirst d a m))
def execVld (v : VMem) (s : State) : Out := finish s (s.queueVector (.vld v))
def execVst (v : VMem) (s : State) : Out := finish s (s.queueVector (.vst v))
def execVamo (op : VAmoOp) (v : VMem) (s : State) : Out := finish s (s.queueVector (.vamo op v))

def execVbind (d a : Reg) (s : State) : Out := finish s (effVbind s d a)
def execVunbind (d : Reg) (s : State) : Out := finish s (effVunbind s d)
def execVcommit (tag : BitVec 4) (s : State) : Out := finish s (effVcommit s tag)

/-! ## Steps of the vector unit -/

/-- ELEMENT: element access k of hart h (R168). -/
def execElement (h k : Nat) (s : State) : Out := match s.stepElem h k with
  | some t => .next t
  | none => notEnabled "ELEMENT"

/-- ELEMENT_GROUP: the next element group of hart h (R60, R260). -/
def execElementGroup (h : Nat) (s : State) : Out := match s.runGroup h with
  | some t => .next t
  | none => notEnabled "ELEMENT_GROUP"

/-- STREAM_PREFETCH: the stream of a register takes one more strip (R67, R69). -/
def execStreamPrefetch (h reg : Nat) (s : State) : Out := match s.prefetch h reg with
  | some t => .next t
  | none => notEnabled "STREAM_PREFETCH"

end Sys2Proof.Machine
end

