-- ==== Sys2Proof/Machine/Engines.lean ====
section
/-! DEFINITION. The copy engine (R142 to R147, R311) and the collective engine (R376 to R379), landing transfers (R72), and
the faults engines deliver (R146, R216). -/

namespace Sys2Proof.Machine

/-! ## Faults of engines (R146, R216) -/

/-- A saved task's faults grow. -/
def parkFault (t : Task) (f : BoundaryFault) : List Parked → List Parked
  | [] => []
  | p :: ps => if p.task = t then { p with pend := p.pend ++ [f] } :: ps else p :: parkFault t f ps

/-- A fault of an engine for a task: at the task's next boundary, or at its first one after resumption (R270); for a task
that has ended, its launch's handler runs with ARG1 = 0. -/
def State.lateFault (s : State) (h part : Nat) (t : Option Task) (f : BoundaryFault) : State :=
  if (s.hart h).task = t then s.modHart h fun x => { x with pend := x.pend ++ [f] }
  else match t with
    | none => s
    | some k =>
      if s.parked.any fun p => p.task == k then { s with parked := parkFault k f s.parked }
      else s.faultHandler (s.partCtx part) (dieOf h) part k.rc.launch k.handle 0

/-! ## Tiles in W-space (R202, R208) -/

/-- K of a format (R202). -/
def tileK (fmt : Nat) : Nat :=
  if fmt = 1 then 2048 else if fmt = 2 then 1024 else if fmt ≤ 4 then 512 else if fmt ≤ 8 then 256 else 64
/-- Bytes of a tile (R202). -/
def tileSize (fmt : Nat) : Nat :=
  if fmt = 9 then 32768 else 32 * tileK fmt * fmt + 16 * tileK fmt
/-- ADDR of a descriptor (R64). -/
def descAddr (w : Word) : Nat := field w 0 23
/-- FMT of a descriptor. -/
def descFmt (w : Word) : Nat := field w 36 4
/-- VALID of a descriptor. -/
def descValid (w : Word) : Bool := wbit w 63

/-- Rows that have not entered the array. -/
def Core.pondRows (c : Core) : List Row := c.pond.flatMap fun g => match g with
  | some p => p.rows
  | none => []

/-- A row pins a byte of the W-space range (R208). -/
def Core.pinned (c : Core) (off n : Nat) : Bool :=
  c.pondRows.any fun r => meet (descAddr r.desc) (tileSize (descFmt r.desc)) off n

/-- A write to W-space marks a latched tile stale (R209). -/
def Latch.note (l : Latch) (off n : Nat) : Latch :=
  { l with stale := l.stale || meet l.addr (tileSize l.fmt) off n }

/-- Writes bytes to W-space. -/
def Core.writeW (c : Core) (off : Nat) (bs : List Byte) : Core :=
  { c with w := c.w.writeN off bs
           arr := { c.arr with active := c.arr.active.map fun l => l.note off bs.length
                               shadow := c.arr.shadow.map fun l => l.note off bs.length } }

/-! ## CPY and CPY2D at issue (R143, R144, R311) -/

/-- The space a copy code names. -/
def copySpace (code : Nat) : Space := match code with
  | 1 => .g | 2 => .a | 3 => .c | 4 => .w | _ => .ra

/-- The extent of one row lies in its space and window (R132 to R134); G-space is checked by the engine. -/
def State.extentOk (s : State) (h code : Nat) (va : Word) (n : Nat) : Bool :=
  let c := coreOf h
  let launch := (s.hart h).launch
  n = 0 || (match copySpace code with
    | .a => s.okA c launch va.toNat n
    | .c => s.okC c launch va.toNat n
    | .w => okW c va.toNat n
    | .ra =>
      let t := field va 22 8
      field va 30 34 == 0 &&
        (if t = c then s.okA c launch (field va 0 22) n else s.okRa (s.partOf h) t (field va 0 22) n)
    | _ => true)

/-- The first row from number `i` on whose extent fails. -/
def State.badRow (s : State) (h code : Nat) (base pitch : Word) (n i : Nat) : Nat → Option Word
  | 0 => none
  | k + 1 =>
    let va := base + BitVec.ofNat 64 i * pitch
    if s.extentOk h code va n then State.badRow s h code base pitch n (i + 1) k else some va

/-- The shape of a copy: row bytes, rows, source and destination pitch. -/
structure CopyShape where
  rowBytes : Nat
  rows : Nat
  spitch : Word
  dpitch : Word
  deriving DecidableEq, Repr

/-- CPY moves one row. -/
def shape1 (len : Word) : CopyShape := { rowBytes := len.toNat, rows := 1, spitch := 0, dpitch := 0 }

/-- The shape in s[B] and s(B + 1) of CPY2D. -/
def shape2 (b b1 : Word) : CopyShape :=
  { rowBytes := field b 0 32, rows := field b 32 32, spitch := sext64 (BitVec.ofNat 32 (field b1 0 32))
    dpitch := sext64 (BitVec.ofNat 32 (field b1 32 32)) }

/-- The first misaligned operand, in the order D, B, C, s(B + 1) (R143, R384): of a W destination the address, the length or row
size and the pitch, and the flag address. -/
def misalignedCopy (dst : Nat) (daddr : Word) (z : CopyShape) (flag : Word) : Option Word :=
  let w := dst == 4
  if w && daddr.toNat % 64 != 0 then some daddr
  else if w && z.rowBytes % 64 != 0 then some (BitVec.ofNat 64 z.rowBytes)
  else if flag.toNat % 8 ≠ 0 then some flag
  else if w && z.dpitch.toNat % 64 != 0 then some z.dpitch
  else none

/-- The codes name a source and a destination (R143). -/
def copyCodesOk (src dst : Nat) : Bool :=
  (src == 1 || src == 2 || src == 3 || src == 5) && decide (1 ≤ dst) && decide (dst ≤ 5)

/-- The hart's flag address translates for writing, or there is none. -/
def State.flagOk (s : State) (h : Nat) (flag : Word) : State × Option Nat :=
  if flag = 0 then (s, none)
  else match s.translate (s.ctx h) .store flag with
    | (s, .ok _ _) => (s, none)
    | (s, .fault c) => (s, some c)

/-- What follows the checks: the drains, the hart's stores on their way as messages included, room in the channel, the tl0
number and the command. -/
def State.enqueueCopy (s : State) (src dst ch : Nat) (daddr saddr : Word) (z : CopyShape) (flag val : Word) : Res :=
  let h := s.cur
  let x := s.me
  let q := getAt [] (s.core (coreOf h)).chans ch
  if !s.storesDone h || !s.released h .pkg || (s.ras.any fun m => m.hart == h) || decide (16 ≤ q.length) then .stall s
  else
    let n := (x.takeNum 0).1
    let cmd : CopyCmd :=
      { hart := h, num := n, src := src, dst := dst, daddr := daddr, saddr := saddr, rowBytes := z.rowBytes, rows := z.rows
        spitch := z.spitch, dpitch := z.dpitch, flag := flag, flagVal := val, satp := x.satp, priv := x.priv
        task := x.task, part := s.partOf h, moved := false, faulted := none, retry := 0 }
    .ok ((s.setHart h (x.takeNum 0).2).modCore (coreOf h) fun c => { c with chans := putAt [] c.chans ch (q ++ [cmd]) })

/-- The checks of a copy in the order of R384, then its issue. -/
def effCopy (src dst ch : Nat) (d a c : Reg) (z : CopyShape) (s : State) : Res :=
  let h := s.cur
  let x := s.me
  let daddr := x.rd d
  let saddr := x.rd a
  let flag := x.rd c
  if x.inRegion || !copyCodesOk src dst || c = 63 || decide (2 ^ 40 < z.rowBytes * z.rows) then s.illegal
  else match misalignedCopy dst daddr z flag with
    | some v => .trap s 3 v
    | none => match s.badRow h dst daddr z.dpitch z.rowBytes 0 z.rows with
      | some v => .trap s 5 v
      | none => match s.badRow h src saddr z.spitch z.rowBytes 0 z.rows with
        | some v => .trap s 5 v
        | none => match s.flagOk h flag with
          | (s, some k) => .trap s k flag
          | (s, none) => s.enqueueCopy src dst ch daddr saddr z flag (if flag = 0 then 0 else x.rdNext c)

/-- CPY. -/
def effCpy (src dst : BitVec 3) (ch : BitVec 2) (d a b c : Reg) (s : State) : Res :=
  effCopy src.toNat dst.toNat ch.toNat d a c (shape1 (s.me.rd b)) s

/-- CPY2D. -/
def effCpy2d (src dst : BitVec 3) (ch : BitVec 2) (d a b c : Reg) (s : State) : Res :=
  if b = 63 then s.illegal
  else effCopy src.toNat dst.toNat ch.toNat d a c (shape2 (s.me.rd b) (s.me.rdNext b)) s

def execCpy (src dst : BitVec 3) (ch : BitVec 2) (d a b c : Reg) (s : State) : Out := finish s (effCpy src dst ch d a b c s)
def execCpy2d (src dst : BitVec 3) (ch : BitVec 2) (d a b c : Reg) (s : State) : Out :=
  finish s (effCpy2d src dst ch d a b c s)

/-! ## The transfer (R144, R146, R147) -/

/-- Where a byte of a copy lies; in G-space with its page's mode. -/
inductive BytePlace
  | g (pa : Nat) (pbmt : BitVec 2)
  | a (core off : Nat)
  | c (off : Nat)
  | w (off : Nat)
  deriving DecidableEq, Repr

/-- The context of a command's translations: the SATP captured at issue (R196). -/
def CopyCmd.ctx (k : CopyCmd) : Ctx := { core := coreOf k.hart, priv := k.priv, satp := k.satp }

/-- A fault of a byte, and whether it is one of translation, which the supervisor may resolve (R146). -/
abbrev ByteFault := Word × Bool

/-- Finds a byte of a copy. A store to a live pack object raises cause 5 (R236). -/
def State.placeByte (s : State) (k : CopyCmd) (code : Nat) (acc : Acc) (va : Word) : State × Except ByteFault BytePlace :=
  match copySpace code with
  | .a => (s, .ok (.a (coreOf k.hart) va.toNat))
  | .c => (s, .ok (.c va.toNat))
  | .w => (s, .ok (.w va.toNat))
  | .ra => (s, .ok (.a (field va 22 8) (field va 0 22)))
  | _ => match s.translate k.ctx acc va with
    | (s, .fault _) => (s, .error (va, true))
    | (s, .ok pa m) => if acc = .store && s.inPackObject pa 1 then (s, .error (va, false)) else (s, .ok (.g pa m))

/-- A byte whose page or line is held now (R151, R152, R247, R277, R279), or whose tile is pinned (R208). -/
def State.byteBlocked (s : State) (core : Nat) (write : Bool) (p : BytePlace) : Bool := match p with
  | .g pa _ =>
    s.flipping pa || (s.hostBias pa && s.hostHolds pa) ||
      (if write then s.pageHeld pa || s.packHolds pa 1 else s.heldStore pa 1)
  | .w off => write && (s.core core).pinned off 1
  | _ => false

/-- Reads a byte at its bank, or by its page's mode; none: its word is poisoned (R187, R199). -/
def State.copyByte (s : State) (core : Nat) (p : BytePlace) : Option Byte := match p with
  | .g pa m => if poisoned s.bad pa 1 then none else some (getAt 0 (s.modeBytes m pa 1) 0)
  | .a c off => some ((s.core c).a.read off)
  | .c off => some ((s.core core).c.read off)
  | .w off => some ((s.core core).w.read off)

/-- A copy uses banks of A- or C-space in this cycle (R135). -/
def State.copyBanks (s : State) (core : Nat) (p : BytePlace) (n : Nat) : State := match p with
  | .a c off => s.modCore c fun x =>
      { x with bankUse := (List.range ((off + n - 1) / 8 - off / 8 + 1)).map (fun k => .a c (8 * (off / 8 + k))) ++ x.bankUse }
  | .c off => s.modCore core fun x =>
      { x with bankUse := (List.range ((off + n - 1) / 16 - off / 16 + 1)).map (fun k => .c (16 * (off / 16 + k))) ++ x.bankUse }
  | _ => s

/-- The engine that an engine's write to a page registers: in tracked memory that is not in host bias (R180, R187, R277). -/
def State.engineOwner (s : State) (core pa : Nat) (m : BitVec 2) : Option Owner :=
  if m = 0 && !s.hostBias pa then some (.engine core) else none

/-- Writes bytes at consecutive places of one line, or one bank word. -/
def State.copyPut (s : State) (core : Nat) (p : BytePlace) (bs : List Byte) : State := match p with
  | .g pa m => s.homeWrite (s.engineOwner core pa m) pa bs
  | .a c off => ((s.copyBanks core p bs.length).modCore c fun x => { x with a := x.a.writeN off bs }).noteWrite none
    (aKey c off) bs.length
  | .c off =>
    ((s.copyBanks core p bs.length).modCore core fun x => { x with c := x.c.writeN off bs }).noteWrite none (cKey core off) bs.length
  | .w off => s.modCore core fun x => x.writeW off bs

/-- The addresses of a command's bytes, source and destination, row by row. -/
def CopyCmd.addrs (k : CopyCmd) : List (Word × Word) :=
  (List.range k.rows).flatMap fun r => (List.range k.rowBytes).map fun j =>
    (k.saddr + BitVec.ofNat 64 r * k.spitch + BitVec.ofNat 64 j, k.daddr + BitVec.ofNat 64 r * k.dpitch + BitVec.ofNat 64 j)

/-- A byte to move: where it goes, and what. -/
structure Moved where
  place : BytePlace
  byte : Byte
  deriving DecidableEq, Repr

/-- What gathering the bytes of a copy gives: the bytes that can move, the first fault, and whether one is blocked. -/
structure Gather where
  moved : List Moved
  fault : Option ByteFault
  blocked : Bool
  deriving DecidableEq, Repr

/-- The fault of one byte, if any: at its source or at its destination. -/
def State.gatherByte (s : State) (k : CopyCmd) (p : Word × Word) : State × Except ByteFault Moved × Bool :=
  let core := coreOf k.hart
  match s.placeByte k k.src .load p.1 with
  | (s, .error f) => (s, .error f, false)
  | (s, .ok q) => match s.copyByte core q with
    | none => (s, .error (p.1, false), false)
    | some b => match s.placeByte k k.dst .store p.2 with
      | (s, .error f) => (s, .error f, false)
      | (s, .ok d) => (s, .ok { place := d, byte := b }, s.byteBlocked core false q || s.byteBlocked core true d)

/-- Gathers every byte of a copy. -/
def State.gather (s : State) (k : CopyCmd) : List (Word × Word) → State × Gather
  | [] => (s, { moved := [], fault := none, blocked := false })
  | p :: ps => match s.gatherByte k p with
    | (s, r, bl) => match State.gather s k ps with
      | (s, g) => match r with
        | .error f => (s, { g with fault := some f })
        | .ok m => (s, { g with moved := m :: g.moved, blocked := g.blocked || bl })

/-- The next place after a place. -/
def BytePlace.next : BytePlace → BytePlace
  | .g pa m => .g (pa + 1) m
  | .a k off => .a k (off + 1)
  | .c off => .c (off + 1)
  | .w off => .w (off + 1)

/-- The address within a space, for line boundaries. -/
def BytePlace.off : BytePlace → Nat
  | .g pa _ => pa
  | .a _ off => off
  | .c off => off
  | .w off => off

/-- A run of bytes at consecutive places that is being collected. -/
structure CopyRun where
  start : BytePlace
  next : BytePlace
  bytes : List Byte
  deriving DecidableEq, Repr

/-- Writes the moved bytes, at most a line at a time, so that whole words are written whole (R199). -/
def State.scatter (s : State) (core : Nat) : Option CopyRun → List Moved → State
  | none, [] => s
  | some r, [] => s.copyPut core r.start r.bytes
  | none, m :: ms => State.scatter s core (some { start := m.place, next := m.place.next, bytes := [m.byte] }) ms
  | some r, m :: ms =>
    if m.place = r.next && m.place.off % 64 ≠ 0 then
      State.scatter s core (some { r with next := m.place.next, bytes := r.bytes ++ [m.byte] }) ms
    else
      State.scatter (s.copyPut core r.start r.bytes) core
        (some { start := m.place, next := m.place.next, bytes := [m.byte] }) ms

/-- At a payload fault each destination byte holds its old or its copied value: which one is a free choice (log 5). -/
def chosen (n : Nat) : List Moved → List Moved
  | [] => []
  | m :: ms => if Config.choice n then m :: chosen (n + 1) ms else chosen (n + 1) ms

/-- Channel `ch` of a core. -/
def Core.chan (c : Core) (ch : Nat) : List CopyCmd := getAt [] c.chans ch
/-- Writes it. -/
def Core.setChan (c : Core) (ch : Nat) (q : List CopyCmd) : Core := { c with chans := putAt [] c.chans ch q }

/-- Sends snoops for the destination and source lines of a copy that the host may hold (R277). -/
def State.copySnoops (s : State) (core : Nat) (k : CopyCmd) : State :=
  let lines := k.addrs.filterMap fun p =>
    match (s.placeByte k k.src .load p.1).2, (s.placeByte k k.dst .store p.2).2 with
    | .ok (.g pa _), _ => if s.hostBias pa && s.hostHolds pa then some (pa / 64) else none
    | _, .ok (.g pa _) => if s.hostBias pa && s.hostHolds pa then some (pa / 64) else none
    | _, _ => none
  if (s.core core).gated then s else lines.foldl State.sendSnoop s

/-- The banks that the source rows of a copy use (R135). -/
def State.sourceBanks (s : State) (core : Nat) (k : CopyCmd) : State :=
  (List.range k.rows).foldl (fun (t : State) r =>
    let va := k.saddr + BitVec.ofNat 64 r * k.spitch
    if k.rowBytes = 0 then t
    else match copySpace k.src with
      | .a => t.copyBanks core (.a core va.toNat) k.rowBytes
      | .c => t.copyBanks core (.c va.toNat) k.rowBytes
      | .ra => t.copyBanks core (.a (field va 22 8) (field va 0 22)) k.rowBytes
      | _ => t) s

/-- A command that has met a translation fault waits for the supervisor, where a free choice says that it resolves the fault
(R146, log 5). -/
def CopyCmd.waitFault (k : CopyCmd) (now : Nat) : CopyCmd := { k with retry := now + 1 }

/-- COPY_TRANSFER: the payload of the first command of a channel that has not moved (R144). None where there is none, or
where one of its bytes must wait and no snoop is left to send. -/
def State.copyTransfer (s : State) (core ch : Nat) : Option State :=
  let q := (s.core core).chan ch
  match q.findIdx? (fun k => !k.moved) with
  | none => none
  | some i => match q[i]? with
    | none => none
    | some k => if s.gtime < k.retry then none else match s.gather k k.addrs with
      | (s, g) =>
        let put := fun (t : State) (k : CopyCmd) => t.modCore core fun c => c.setChan ch ((c.chan ch).set i k)
        if g.blocked then
          let t := s.copySnoops core k
          if t.snoops.length = s.snoops.length then
            (g.moved.filterMap fun m => match m.place with
              | .g pa _ => s.noteHold pa 1
              | _ => none).head?
          else some t
        else match g.fault with
          | none => some (put ((s.scatter core none g.moved).sourceBanks core k) { k with moved := true })
          | some (va, tr) =>
            if tr && Config.choice s.fresh then some (put { s with fresh := s.fresh + 1 } (k.waitFault s.gtime)) else
            let t := { s.scatter core none (chosen s.fresh g.moved) with fresh := s.fresh + g.moved.length }
            some (put t { k with moved := true, faulted := some va, flagVal := k.flagVal ^^^ 0x8000000000000000#64 })

/-- COPY_TRANSFER. -/
def execCopyTransfer (core ch : Nat) (s : State) : Out := match s.copyTransfer core ch with
  | some t => event t
  | none => notEnabled "COPY_TRANSFER"

/-- The fault of a copy, at the next boundary of its task (R146). -/
def State.copyFault (s : State) (k : CopyCmd) (va : Word) : State :=
  s.lateFault k.hart k.part k.task { cause := 6, stval := va, destKind := 0, destReg := 0 }

/-- The flag of a command is written; the flag's page or line may have to be waited for, or the supervisor (R146). The result
says whether the command is done. -/
def State.writeFlag (s : State) (core : Nat) (k : CopyCmd) (wait : State → State) : Option (State × Bool) :=
  if k.flag = 0 then some (s, true)
  else match s.translate k.ctx .store k.flag with
    | (s, .fault _) =>
      if Config.choice s.fresh then some (wait { s with fresh := s.fresh + 1 }, false) else some (s.copyFault k k.flag, true)
    | (s, .ok pa m) =>
      if s.inPackObject pa 8 then some (s.copyFault k k.flag, true)
      else if s.packHolds pa 8 then (s.noteHold pa 8).map fun t => (t, false)
      else if s.hostBias pa && s.hostHolds pa then
        (if s.snooping pa then none else some (s.sendSnoop (pa / 64), false))
      else if s.byteBlocked core true (.g pa m) then none
      else some (s.homeWrite (s.engineOwner core pa m) pa (leBytes 8 k.flagVal.toNat), true)

/-- COPY_FLAG_WRITE: the head of a channel, moved, writes its flag and completes on tl0 (R144, R145). DESIGN CHOICE (log 67): its
entry in the channel's queue frees here and not where the command starts; and where the payload and the flag write both fault,
the flag's fault is taken first. -/
def State.copyFlag (s : State) (core ch : Nat) : Option State :=
  match (s.core core).chan ch with
  | [] => none
  | k :: rest =>
    if !k.moved || decide (s.gtime < k.retry) then none
    else match s.writeFlag core k fun t => t.modCore core fun c => c.setChan ch (k.waitFault s.gtime :: rest) with
      | none => none
      | some (t, false) => some t
      | some (t, true) =>
        let t := match k.faulted with
          | some va => t.copyFault k va
          | none => t
        some ((t.modCore core fun c => c.setChan ch rest).complete k.hart 0 k.num)

/-- COPY_FLAG_WRITE. -/
def execCopyFlagWrite (core ch : Nat) (s : State) : Out := match s.copyFlag core ch with
  | some t => event t
  | none => notEnabled "COPY_FLAG_WRITE"

/-! ## Landing (R71, R72) -/

/-- Landing space in use. -/
def Hart.landingUse (x : Hart) : Nat := (x.landing.map fun t => match t with
  | some u => u.bytes
  | none => 0).sum

/-- Tag `tag` is free and `n` bytes fit (R71). -/
def Hart.canLand (x : Hart) (tag n : Nat) : Bool :=
  (getAt none x.landing tag).isNone && decide (x.landingUse + n ≤ Config.landingBytes)

/-- Reserves a tag. -/
def Hart.reserve (x : Hart) (tag num : Nat) (r : Reg) (vl n : Nat) (row : Bool) : Hart :=
  { x with landing := putAt none x.landing tag (some
      { num := num, reg := r, vl := vl, bytes := n, mask := 0, data := [], came := false, done := false, err := false
        row := row, discard := false }) }

/-- LANDING_COMPLETE. -/
def execLandingComplete (h tag : Nat) (s : State) : Out := match s.landingDone h tag with
  | some t => event t
  | none => notEnabled "LANDING_COMPLETE"

/-! ## XRED (R377 to R379) -/

/-- The element type of a collective. -/
def xTy : XTy → Ty
  | .i32 => .i32 | .i64 => .i64 | .bf16 => .bf16 | .f32 => .f32
/-- Its operation. -/
def xRed : XOp → RedOp
  | .sum => .sum | .min => .min | .max => .max

/-- XRED at scalar issue. Its register may not be bound: it is read and written (R68). -/
def effXred (op : XOp) (t : XTy) (d : Reg) (tag : BitVec 4) (s : State) : Res :=
  let h := s.cur
  let x := s.me
  let g := (s.die (dieOf h)).xgctl
  let n := x.vl * (xTy t).bytes
  if !wbit g 0 || field g 8 4 ≠ s.partOf h then .trap s 5 0
  else if x.inRegion then s.illegal
  else if decide (Config.vqDepth ≤ x.vq.length) then .stall s
  else if decide (x.nvreg ≤ d.toNat) || (x.stream d).isSome || !x.fits x.vl (xTy t).bytes || !x.canLand tag.toNat n then
    (if x.vectorIdle then s.illegal else .stall s)
  else
    let k := (x.takeNum 3).1
    let y := (x.takeNum 3).2.reserve tag.toNat k d x.vl n false
    .ok (s.setHart h { y with vq := y.vq ++ [{ x.entry s.sends (.xred op t d tag) with num := k }] })

def execXred (op : XOp) (t : XTy) (d : Reg) (tag : BitVec 4) (s : State) : Out := finish s (effXred op t d tag s)

/-- Bytes [0, n) of a vector register. -/
def Hart.regBytes (x : Hart) (r : Reg) (n : Nat) : List Byte := x.v.readN (vaddr r 0) n

/-- The head of the queue, an XRED, starts: it captures its elements and joins collective XGSEQ (R378). -/
def State.startXred (s : State) (h : Nat) (e : VEntry) (op : XOp) (t : XTy) (d : Reg) (tag : BitVec 4) : State :=
  let x := s.hart h
  let w := (xTy t).bytes
  match (List.range x.vl).find? fun i => x.elemBad d i w with
  | some i => s.trapVector h e { cause := 7, stval := 0, elem := i }
  | none =>
    let die := s.die (dieOf h)
    let c : Collective :=
      { k := die.xgseq, hart := h, num := e.num, tag := tag.toNat, op := op, ty := t, vl := x.vl
        data := x.regBytes d (x.vl * w), start := s.gtime }
    let s := s.modDie (dieOf h) fun y => { y with colls := y.colls ++ [c], xgseq := y.xgseq + 1 }
    s.modHart h fun y => { y with vq := y.vq.drop 1, vstart := 0, progress := s.gtime }

/-- VECTOR_START: the head of hart h's vector queue starts (R342, R378). Row ops start by ROW_CAPTURE. -/
def State.startHead (s : State) (h : Nat) : Option State :=
  match (s.hart h).vq, (s.hart h).run with
  | e :: _, none => match e.instr with
    | .mrow .. | .mrowv .. => none
    | .xred op t d tag =>
      if (s.hart h).resultDue e.instr (s.core (coreOf h)).cycle then none else some (s.startXred h e op t d tag).happen
    | _ => s.startVector h
  | _, _ => none

/-- VECTOR_START. -/
def execVectorStart (h : Nat) (s : State) : Out := match s.startHead h with
  | some t => .next t
  | none => notEnabled "VECTOR_START"

/-- P and RANK of a group (R376). -/
def groupSizeOf (g : Word) : Nat := field g 16 10
def rankOf (g : Word) : Nat := field g 32 10

/-- Element `i` of every contribution, reduced as R126 gives in rank order. -/
def reduceRanks (op : XOp) (t : XTy) (i : Nat) (parts : List (List Byte)) : Nat :=
  let w := (xTy t).bytes
  (treeFold (redVal (xRed op) .rne (xTy t) false) 10 (parts.map fun p => le p (i * w) w) 0).1.headD 0

/-- The result of a collective, element by element. -/
def collectiveResult (c : Collective) (parts : List (List Byte)) : List Byte :=
  (List.range c.vl).flatMap fun i => leBytes (xTy c.ty).bytes (reduceRanks c.op c.ty i parts)

/-- The collective group of a die: VALID, PARTITION and P of XGCTL, which its members share (R376); 0 outside every group. -/
def Die.group (x : Die) : Nat := if wbit x.xgctl 0 then 1 + 2 * field x.xgctl 8 4 + 32 * field x.xgctl 16 10 else 0

/-- Collective k of a die. -/
def Die.coll (x : Die) (k : Nat) : Option Collective := x.colls.find? fun c => c.k == k

/-- The dies of this package in the group of die d. -/
def State.inGroup (s : State) (d : Nat) : List Nat := (List.range 4).filter fun e => (s.die e).group == (s.die d).group

/-- Two members' collectives agree (R378). -/
def Collective.agrees (c b : Collective) : Bool := c.op == b.op && c.ty == b.ty && c.vl == b.vl

/-- The contributions in rank order: `contrib`, with what the group's dies of this package have captured at their ranks. -/
def State.contributions (s : State) (d k : Nat) (contrib : List (List Byte)) : List (List Byte) :=
  (s.inGroup d).foldl (fun l e => match (s.die e).coll k with
    | some c => putAt [] l (rankOf (s.die e).xgctl) c.data
    | none => l) contrib

/-- Collective k of a die ends with the result, or with an error where the members differ. -/
def State.endOne (s : State) (d k : Nat) (ok : Bool) (parts : List (List Byte)) : State := match (s.die d).coll k with
  | some c => if ok then s.endCollective d c (collectiveResult c parts) false else s.endCollective d c [] true
  | none => s

/-- COLLECTIVE_COMPLETE: `contrib` holds the contributions of ranks 0 to P − 1; those of this package's dies are what they have
captured, and the step waits for a die of the group that has not started its collective k. It ends collective k of every die of
the group in this package: with an error where operation, type or VL differ, which a contribution from another package shows by
its length (R378). -/
def State.collective (s : State) (d k : Nat) (contrib : List (List Byte)) : Option State :=
  match (s.die d).coll k with
  | none => none
  | some c =>
    let es := s.inGroup d
    if contrib.length ≠ groupSizeOf (s.die d).xgctl || es.any fun e => decide ((s.die e).xgseq ≤ k) then none
    else
      let parts := s.contributions d k contrib
      let ok := parts.all (fun p => p.length == c.data.length) && es.all fun e => match (s.die e).coll k with
        | some b => c.agrees b
        | none => true
      some (es.foldl (fun (t : State) e => t.endOne e k ok parts) s)

/-- COLLECTIVE_COMPLETE. -/
def execCollectiveComplete (d k : Nat) (contrib : List (List Byte)) (s : State) : Out :=
  match s.collective d k contrib with
  | some t => event t
  | none => notEnabled "COLLECTIVE_COMPLETE"

/-- XGTIMEOUT in ns; 0 means 1,000,000 (R376). -/
def xgLimit (v : Word) : Nat := if v = 0 then 1000000 else v.toNat

/-- XRED_TIMEOUT: collective k of a die has not completed in time (R378). -/
def State.collectiveTimeout (s : State) (d k : Nat) : Option State :=
  match (s.die d).colls.find? fun c => c.k == k with
  | none => none
  | some c => if c.start + xgLimit (s.die d).xgtimeout ≤ s.gtime then some (s.endCollective d c [] true) else none

/-- XRED_TIMEOUT. -/
def execXredTimeout (d k : Nat) (s : State) : Out := match s.collectiveTimeout d k with
  | some t => event t
  | none => notEnabled "XRED_TIMEOUT"

end Sys2Proof.Machine
end

