-- ==== Sys2Proof/Machine/Matrix.lean ====
section
/-! DEFINITION. The matrix array and the millpond (R127 to R129, R202 to R218, R294, R332, R334, R374). -/

namespace Sys2Proof.Machine

/-! ## WSET (R203, R374) -/

/-- The descriptor of a tile (R64). -/
def tileDesc (fmt addr : Nat) : Word := BitVec.ofNat 64 (2 ^ 63 + fmt * 2 ^ 36 + tileK fmt * 2 ^ 24 + addr)

/-- Tile register wB. -/
def Hart.tile (x : Hart) (b : Reg) : Word := getAt 0 x.w b.toNat

/-- WSET, once its hart's vector queue has started everything before it. -/
def effWset (fmt : BitVec 4) (d a : Reg) (s : State) : Res :=
  let x := s.me
  let v := x.rd a
  let f := fmt.toNat
  if !x.vectorIdle then .stall s
  else if f = 0 || decide (9 < f) || decide (3 < d.toNat) then s.illegal
  else if v.toNat % 64 ≠ 0 then .trap s 3 v
  else if Config.wBytes < v.toNat + tileSize f then .trap s 5 v
  else .ok (s.modHart s.cur fun y => { y with w := putAt 0 y.w d.toNat (tileDesc f v.toNat) })

def execWset (fmt : BitVec 4) (d a : Reg) (s : State) : Out := finish s (effWset fmt d a s)

/-! ## MROW and MROWV at issue (R205, R206, R211, R294) -/

/-- L: MLEASH, or the smaller of MLEASH and the record's LEASH (R211). -/
def Hart.leash (x : Hart) : Nat := match x.task with
  | some t => if t.rc.leash = 0 then x.mleash else min x.mleash t.rc.leash.toNat
  | none => x.mleash

/-- The queue entry of a row op: its tl1 number, s[D], L and PRIO. -/
def Hart.rowEntry (x : Hart) (sent : Nat) (i : Instr) (n : Nat) (sd : Word) : VEntry :=
  { x.entry sent i with num := n, sa := BitVec.ofNat 64 x.leash, sd := sd }

/-- No room in the vector queue. -/
def Hart.queueBusy (x : Hart) : Bool := decide (Config.vqDepth ≤ x.vq.length)

/-- MROW. -/
def effMrow (f : AFmt) (z : Bool) (d a b c : Reg) (s : State) : Res :=
  let x := s.me
  if x.queueBusy then .stall s
  else
    let k := (x.takeNum 1).1
    let y := (x.takeNum 1).2
    .ok (s.setHart s.cur { y with vq := y.vq ++ [x.rowEntry s.sends (.mrow f z d a b c) k (x.rd d)] })

/-- MROWV. -/
def effMrowv (f : AFmt) (d a b c : Reg) (tag : BitVec 4) (s : State) : Res :=
  let x := s.me
  if x.queueBusy then .stall s
  else if !x.canLand tag.toNat 1024 then (if x.vectorIdle then s.illegal else .stall s)
  else
    let k := (x.takeNum 1).1
    let y := (x.takeNum 1).2.reserve tag.toNat k d 256 1024 true
    .ok (s.setHart s.cur { y with vq := y.vq ++ [x.rowEntry s.sends (.mrowv f d a b c tag) k 0] })

def execMrow (f : AFmt) (z : Bool) (d a b c : Reg) (s : State) : Out := finish s (effMrow f z d a b c s)
def execMrowv (f : AFmt) (d a b c : Reg) (tag : BitVec 4) (s : State) : Out := finish s (effMrowv f d a b c tag s)

/-! ## Capture (R205, R206, R129) -/

/-- The fields of a row op. -/
structure RowOp where
  f : AFmt
  z : Bool
  d : Reg
  a : Reg
  b : Reg
  c : Reg
  tag : Option Nat
  deriving DecidableEq, Repr

/-- The row op of a queue entry. -/
def rowOp : Instr → Option RowOp
  | .mrow f z d a b c => some { f := f, z := z, d := d, a := a, b := b, c := c, tag := none }
  | .mrowv f d a b c tag => some { f := f, z := false, d := d, a := a, b := b, c := c, tag := some tag.toNat }
  | _ => none

/-- The cause 1 checks of R206 at start. -/
def Hart.rowOk (x : Hart) (i : Instr) (o : RowOp) : Bool :=
  let w := x.tile o.b
  descValid w && !(descFmt w == 9 && o.f != .bf16) && x.vl == tileK (descFmt w) &&
  (vsrcs i x.vl x.vew).all (fun v => x.srcOk v) &&
  (match o.tag with
    | some _ => decide (1024 ≤ x.vbytes) && x.dstOk { reg := o.d, e := 4, bytes := 1024 }
    | none => true)

/-- Bytes [0, n) of an operand. -/
def VRun.bytes (ru : VRun) (x : Hart) (r : Reg) (n : Nat) : List Byte :=
  (List.range n).map fun b => BitVec.ofNat 8 (ru.byte x r b)

/-- A word of the operand's first n bytes is poisoned. -/
def VRun.anyBad (ru : VRun) (x : Hart) (r : Reg) (n : Nat) : Bool := (List.range n).any fun b => ru.bad x r b 1

/-- K NI8 values as planes and containers (R129, R387). -/
def packRow (k : Nat) (qs : List Int) (scales : List Nat) : List Byte :=
  ((List.range 8).flatMap fun p => (List.range (k / 8)).map fun j =>
    BitVec.ofNat 8 (planeByte p ((qs.drop (8 * j)).take 8))) ++
  scales.flatMap fun c => leBytes 2 c

/-- A BF16 row quantised per block of 32 (R129). -/
def quantRow (k : Nat) (xs : List Nat) : List Byte :=
  let scales := (List.range (k / 32)).map fun b => (blockScale .bf16 ((xs.drop (32 * b)).take 32)).bits
  let qs := (List.range k).map fun i => (quantVal .bf16 .rne false (getAt 0 xs i) (getAt 0 scales (i / 32))).1
  packRow k qs scales

/-- The captured row in the form R387 lists. -/
def VRun.capture (ru : VRun) (x : Hart) (o : RowOp) (fmt : Nat) : List Byte :=
  let k := tileK fmt
  match o.f with
  | .int8 => ru.bytes x o.a k
  | .ni8 => ru.bytes x o.a k ++ ru.bytes x o.c (k / 16)
  | .bf16 => if fmt = 9 then ru.bytes x o.a 128 else quantRow k ((List.range k).map fun i => ru.val x o.a i 2)

/-- A captured word is poisoned. -/
def VRun.rowBad (ru : VRun) (x : Hart) (o : RowOp) (fmt : Nat) : Bool :=
  let k := tileK fmt
  ru.anyBad x o.a (if o.f = .bf16 then 2 * k else k) || (o.f == .ni8 && ru.anyBad x o.c (k / 16))

/-- The code of an activation format (R204). -/
def afmtCode : AFmt → Nat
  | .bf16 => 0 | .int8 => 1 | .ni8 => 2

/-! ## The millpond (R210 to R213) -/

/-- The priority of a group: the highest PRIO of its rows, or 7 (R211, R213). -/
def PondGroup.prio (g : PondGroup) : Nat := if g.aged then 7 else (g.rows.map fun r => r.prio).foldl max 0
/-- Its deadline: the earliest of its rows. -/
def PondGroup.deadline (g : PondGroup) : Nat := match g.rows with
  | [] => 0
  | r :: rs => rs.foldl (fun m q => min m q.deadline) r.deadline
/-- The group becomes READY. -/
def PondGroup.ready (g : PondGroup) (cyc : Nat) : PondGroup := { g with state := .ready, readyAt := cyc }
/-- A group that is full or past its deadline becomes READY as its row joins (R211, R212). -/
def PondGroup.settle (g : PondGroup) (cyc : Nat) : PondGroup :=
  if decide (64 ≤ g.rows.length) || decide (g.deadline ≤ cyc) then g.ready cyc else g
/-- The group has a key. -/
def PondGroup.keyed (g : PondGroup) (addr fmt part : Nat) : Bool := g.addr == addr && g.fmt == fmt && g.part == part

/-- Group slot `i`. -/
def Core.group (c : Core) (i : Nat) : Option PondGroup := getAt none c.pond i
/-- Writes it. -/
def Core.setGroup (c : Core) (i : Nat) (g : Option PondGroup) : Core := { c with pond := putAt none c.pond i g }

/-- The first slot among 0 to 7 that satisfies `p`. -/
def Core.slotWhere (c : Core) (p : Option PondGroup → Bool) : Option Nat := (List.range 8).find? fun i => p (c.group i)

/-- A row may join: the group is WAITING, or has reached its deadline in this cycle (R212, R218). -/
def PondGroup.joinable (g : PondGroup) (cyc : Nat) : Bool :=
  g.state == .waiting || (g.state == .ready && g.readyAt == cyc && g.deadline == cyc && decide (g.rows.length < 64))

/-- The group of a key that a row joins. -/
def Core.waitingKey (c : Core) (addr fmt part : Nat) : Option Nat := c.slotWhere fun g => match g with
  | some p => p.joinable c.cycle && p.keyed addr fmt part
  | none => false

/-- Places a row (R210, R212), with its deadline counted from its entry (R211, R215); none: no free entry, or no free slot for a
new key. -/
def State.placeRow (s : State) (c part : Nat) (r : Row) : Option State :=
  let x := s.core c
  let r := { r with deadline := x.cycle + r.leash }
  let addr := descAddr r.desc
  let fmt := descFmt r.desc
  if 64 ≤ x.pondRows.length then none
  else match x.waitingKey addr fmt part with
    | some i => match x.group i with
      | some g => some (s.setCore c (x.setGroup i (some (({ g with rows := g.rows ++ [r] } : PondGroup).settle x.cycle))))
      | none => none
    | none => match x.slotWhere (fun g => g.isNone) with
      | none => none
      | some i =>
        let g : PondGroup := { addr := addr, fmt := fmt, part := part, state := .waiting, rows := [r], readyAt := 0
                               aged := false, formed := x.cycle, entered := [] }
        some (s.setCore c (x.setGroup i (some (g.settle x.cycle))))

/-- The order of a choice: higher priority, then the smaller of each later figure. -/
def keyLess : List Nat → List Nat → Bool
  | a :: as, b :: bs => decide (a < b) || (a == b && keyLess as bs)
  | _, _ => false

/-- The slot whose group has the least key among those that have one. -/
def leastSlot (key : PondGroup → Option (List Nat)) : Nat → List (Option PondGroup) → Option (Nat × List Nat)
  | _, [] => none
  | i, g :: gs =>
    let rest := leastSlot key (i + 1) gs
    match g.bind key, rest with
    | some k, some (j, l) => if keyLess l k then some (j, l) else some (i, k)
    | some k, none => some (i, k)
    | none, r => r

/-- PRESSURE: the WAITING group of highest priority, ties to the earliest deadline, becomes READY (R212). A row op is retried
each cycle, so in a cycle in which a group has become READY it makes no other one READY. -/
def State.pressure (s : State) (c : Nat) : Option State :=
  let x := s.core c
  if x.pond.any fun g => match g with
      | some p => p.state == .ready && p.readyAt == x.cycle
      | none => false then none
  else match leastSlot (fun g => if g.state = .waiting then some [7 - g.prio, g.deadline] else none) 0 x.pond with
  | none => none
  | some (i, _) => match x.group i with
    | some g => some (s.setCore c (x.setGroup i (some (g.ready x.cycle))))
    | none => none

/-- The row that an entry captures. -/
def State.rowOf (s : State) (h : Nat) (e : VEntry) (o : RowOp) (ru : VRun) : Row :=
  let x := s.hart h
  let desc := x.tile o.b
  { desc := desc
    dest := match o.tag with
      | some t => .v o.d t
      | none => .c e.sd.toNat
    num := e.num, afmt := afmtCode o.f, z := o.z, leash := e.sa.toNat, prio := e.prio, hart := h, task := x.task
    deadline := (s.core (coreOf h)).cycle + e.sa.toNat, data := ru.capture x o (descFmt desc) }

/-- The C row of an MROW is aligned and in the window (R206). -/
def State.rowDestFault (s : State) (h : Nat) (e : VEntry) (o : RowOp) : Option VFault :=
  if o.tag.isSome then none
  else if e.sd.toNat % 64 ≠ 0 then some { cause := 3, stval := e.sd, elem := 0 }
  else if !s.okC (coreOf h) (s.hart h).launch e.sd.toNat 1024 then some { cause := 5, stval := e.sd, elem := 0 }
  else none

/-- The head of the queue, a row op, starts: its checks, its capture, its place in the millpond (R205, R206, R212). -/
def State.rowCapture (s : State) (h : Nat) : Option State :=
  let x := s.hart h
  match x.vq, x.run with
  | e :: _, none => match rowOp e.instr with
    | none => none
    | some o =>
      if x.resultDue e.instr (s.core (coreOf h)).cycle then none
      else if !x.rowOk e.instr o then some (s.trapVector h e { cause := 1, stval := e.iword, elem := 0 })
      else match (s.rowDestFault h e o).filter fun f => f.cause == 3 with
        | some f => some (s.trapVector h e f)
        | none => match s.popAll h (vsrcs e.instr x.vl x.vew) { x.newRun e with lo := 0 } with
          | .error r => r
          | .ok (s, ru) =>
            let bad := if ru.rowBad (s.hart h) o (descFmt (x.tile o.b)) then
              some { cause := 7, stval := 0, elem := 0 : VFault } else none
            let popped := ru.fault.map fun f => { f with elem := 0 }
            match lowerFault (s.rowDestFault h e o) (match popped, bad with
                | some f, some b => if f.cause = 7 then some b else some f
                | some f, none => some f
                | none, b => b) with
              | some f => some (s.trapVector h e f)
              | none => match s.placeRow (coreOf h) (s.partOf h) (s.rowOf h e o ru) with
                | some t => some (t.retireVector h ru)
                | none => s.pressure (coreOf h)
  | _, _ => none

/-- ROW_CAPTURE. -/
def execRowCapture (h : Nat) (s : State) : Out := match s.rowCapture h with
  | some t => event t
  | none => notEnabled "ROW_CAPTURE"

/-- Applies `f` to a group that satisfies `p`. -/
def State.onGroup (s : State) (c i : Nat) (p : PondGroup → Bool) (f : PondGroup → PondGroup) : Option State :=
  match (s.core c).group i with
  | some g => if p g then some (s.modCore c fun x => x.setGroup i (some (f g))) else none
  | none => none

/-- LEASH: a WAITING group reaches its deadline (R212). -/
def execLeash (c i : Nat) (s : State) : Out :=
  let cyc := (s.core c).cycle
  match s.onGroup c i (fun g => g.state == .waiting && decide (g.deadline ≤ cyc)) fun g => g.ready cyc with
  | some t => event t
  | none => notEnabled "LEASH"

/-- GROUP_AGE: a group READY for 4,096 cycles counts as priority 7 (R213). -/
def execGroupAge (c i : Nat) (s : State) : Out :=
  let cyc := (s.core c).cycle
  match s.onGroup c i (fun g => g.state == .ready && !g.aged && decide (g.readyAt + 4096 ≤ cyc))
      fun g => { g with aged := true } with
  | some t => event t
  | none => notEnabled "GROUP_AGE"

/-- Makes READY the WAITING groups that satisfy `p` (R214). -/
def State.kick (s : State) (c : Nat) (p : PondGroup → Bool) : State :=
  (s.modCore c fun x => { x with pond := x.pond.map fun g => g.map fun q =>
    if q.state == .waiting && (p q) then q.ready x.cycle else q }).happen

/-- MKICK wA (R214, R332). -/
def effMkick (a : Reg) (s : State) : Res :=
  let w := s.me.tile a
  if !s.me.vectorIdle then .stall s
  else if decide (3 < a.toNat) || !descValid w then s.illegal
  else .ok (s.kick (coreOf s.cur) fun g => g.keyed (descAddr w) (descFmt w) (s.partOf s.cur))

/-- MKICK.all: groups that hold a row of the issuing hart. -/
def effMkickAll (s : State) : Res :=
  if !s.me.vectorIdle then .stall s
  else .ok (s.kick (coreOf s.cur) fun g => g.rows.any fun r => r.hart == s.cur)

def execMkick (a : Reg) (s : State) : Out := finish s (effMkick a s)
def execMkickAll (s : State) : Out := finish s (effMkickAll s)

/-! ## The array (R207, R209, R213) -/

/-- The READY group that the array takes up next (R213). -/
def Core.nextGroup (c : Core) : Option Nat :=
  (leastSlot (fun g => if g.state = .ready then some [7 - g.prio, g.readyAt, g.deadline, g.formed] else none) 0 c.pond).map
    fun p => p.1

/-- A latch holds a group's tile and no write has reached it since. -/
def Latch.serves (l : Latch) (g : PondGroup) : Bool := g.keyed l.addr l.fmt l.part && !l.stale

/-- A latch may serve a group. -/
def latchServes (l : Option Latch) (g : PondGroup) : Bool := match l with
  | some l => l.serves g
  | none => false

/-- The next group, with its slot. -/
def Core.next (c : Core) : Option (Nat × PondGroup) := match c.nextGroup with
  | some i => (c.group i).map fun g => (i, g)
  | none => none

/-- The tile in W-space. -/
def Core.readTile (c : Core) (g : PondGroup) : Latch :=
  { addr := g.addr, fmt := g.fmt, part := g.part, stale := false
    tile := c.w.filter fun b => decide (g.addr ≤ b.1) && decide (b.1 < g.addr + tileSize g.fmt) }

/-- TILE_LOAD: the shadow latch reads the tile of the group taken up next, in 32 cycles (R209). -/
def State.tileLoad (s : State) (c : Nat) : Option State :=
  let x := s.core c
  match x.next with
  | none => none
  | some (_, g) =>
    if latchServes x.arr.active g || latchServes x.arr.shadow g then none
    else some (s.setCore c { x with arr := { x.arr with shadow := some (x.readTile g), loadDone := x.cycle + 32 } })

/-- TILE_LOAD. -/
def execTileLoad (c : Nat) (s : State) : Out := match s.tileLoad c with
  | some t => event t
  | none => notEnabled "TILE_LOAD"

/-- ARRAY_TAKE_UP: no group streams, and the next group's tile is in the active latch or loaded in the shadow latch. -/
def State.takeUp (s : State) (c : Nat) : Option State :=
  let x := s.core c
  if x.arr.streaming.isSome then none
  else match x.next with
    | none => none
    | some (i, g) =>
      let go := fun (a : MatrixArray) =>
        s.setCore c (({ x with arr := { a with streaming := some i, nextEntry := max a.nextEntry x.cycle } } : Core).setGroup i
          (some { g with state := .streaming }))
      if latchServes x.arr.active g then some (go x.arr)
      else if latchServes x.arr.shadow g && decide (x.arr.loadDone ≤ x.cycle) then
        some (go { x.arr with active := x.arr.shadow, shadow := none })
      else none

/-- ARRAY_TAKE_UP. -/
def execArrayTakeUp (c : Nat) (s : State) : Out := match s.takeUp c with
  | some t => event t
  | none => notEnabled "ARRAY_TAKE_UP"

/-- Weight (k, n) of an NI tile: the top bits of q in the stored planes (R202). -/
def weightBits (t : Memory) (addr fmt kk n k : Nat) : Nat :=
  (List.range fmt).foldl (fun h p =>
    2 * h + (t.read (addr + p * 32 * kk + (n * kk + k) / 8)).toNat / 2 ^ ((n * kk + k) % 8) % 2) 0

/-- The weight container of block b of column n. -/
def weightScale (t : Memory) (addr fmt kk n b : Nat) : Nat := t.readLe (addr + 32 * kk * fmt + 2 * (n * (kk / 32) + b)) 2

/-- Activation k of a captured row as an integer (R129, R387). -/
def Row.q (r : Row) (kk k : Nat) : Int :=
  if r.afmt = 1 then (getAt 0 r.data k).toInt
  else niValue 8 ((List.range 8).foldl (fun h p =>
    2 * h + (getAt 0 r.data (p * (kk / 8) + k / 8)).toNat / 2 ^ (k % 8) % 2) 0)

/-- The scale of block b of a captured row. -/
def Row.scale (r : Row) (kk b : Nat) : Option (Nat × Int) :=
  if r.afmt = 1 then some (1, 0) else niScale (le r.data (kk + 2 * b) 2)

/-- isum × sa × sw rounded once; a zero product is +0 (R127). -/
def blockProduct (sa sw : Option (Nat × Int)) (isum : Int) : Nat := match sa, sw with
  | some (ma, ea), some (mw, ew) =>
    if isum.natAbs * ma * mw = 0 then 0
    else (fround .f32 .rne false (decide (isum < 0)) (isum.natAbs * ma * mw) (ea + ew)).bits
  | _, _ => canonNaN .f32

/-- One step of R127 for block b. -/
def niBlock (t : Memory) (g : Latch) (r : Row) (n b : Nat) (acc : Nat) : Nat :=
  let kk := tileK g.fmt
  let isum := (List.range 32).foldl (fun (z : Int) j =>
    z + r.q kk (32 * b + j) * niValue g.fmt (weightBits t g.addr g.fmt kk n (32 * b + j))) 0
  (fadd .f32 .rne acc (blockProduct (r.scale kk b) (niScale (weightScale t g.addr g.fmt kk n b)) isum)).bits

/-- A column of an NI tile (R127). -/
def niColumn (g : Latch) (r : Row) (n acc : Nat) : Nat :=
  (List.range (tileK g.fmt / 32)).foldl (fun acc b => niBlock g.tile g r n b acc) acc

/-- A BF16 column (R128): BF16 values are FP32 values with 16 low zero bits. -/
def bfColumn (g : Latch) (r : Row) (n acc : Nat) : Nat :=
  (List.range 64).foldl (fun acc k =>
    (ffma .f32 .rne (le r.data (2 * k) 2 * 65536) (g.tile.readLe (g.addr + 2 * (64 * n + k)) 2 * 65536) acc).bits) acc

/-- The accumulator of a column as its row enters: the value of the last row before it in flight to that word, else what
C-space held. -/
def accAt (before : List RowFlight) (off : Nat) (base : W32) : Nat :=
  match before.reverse.find? (fun f => match f.row.dest with
    | .c o => decide (o ≤ off) && decide (off < o + 1024)
    | .v _ _ => false) with
  | some f => match f.row.dest with
    | .c o => (getAt 0 f.result ((off - o) / 4)).toNat
    | .v _ _ => 0
  | none => base.toNat

/-- The words of a row's C row at its entry. -/
def Core.rowBase (c : Core) (r : Row) : List W32 := match r.dest with
  | .c off => (List.range 256).map fun n => BitVec.ofNat 32 (c.c.readLe (off + 4 * n) 4)
  | .v _ _ => []

/-- The 256 columns of a row under the latch it meets, behind the rows in flight before it. -/
def rowResult (before : List RowFlight) (g : Latch) (base : List W32) (r : Row) : List W32 :=
  (List.range 256).map fun n =>
    let acc := match r.dest with
      | .c off => if r.z then 0 else accAt before (off + 4 * n) (getAt 0 base n)
      | .v _ _ => 0
    BitVec.ofNat 32 (if g.fmt = 9 then bfColumn g r n acc else niColumn g r n acc)

/-- Two rows are the same row op. -/
def Row.same (r q : Row) : Bool := r.hart == q.hart && r.num == q.num

/-- Array cycles per row (R202). -/
def rowCycles (fmt : Nat) : Nat := if fmt = 9 then 4 else 1

/-- A row enters: on a re-run its result stands, as its accumulator is not read twice (R212). -/
def Core.enterRow (c : Core) (g : Latch) (r : Row) : List RowFlight :=
  if c.arr.flight.any fun f => f.row.same r then
    c.arr.flight.map fun f => if f.row.same r then { f with at_ := c.cycle + 288 } else f
  else
    let base := c.rowBase r
    c.arr.flight ++ [{ row := r, latch := g, base := base, result := rowResult c.arr.flight g base r, at_ := c.cycle + 288 }]

/-- ROW_ENTER: the first row of the streaming group enters; the last one frees the group (R209, R212). -/
def State.rowEnter (s : State) (c : Nat) : Option State :=
  let x := s.core c
  match x.arr.streaming, x.arr.active with
  | some i, some l => match x.group i with
    | some g => match g.rows with
      | r :: rest =>
        if x.cycle < x.arr.nextEntry then none
        else
          let a : MatrixArray := { x.arr with flight := x.enterRow l r, nextEntry := x.cycle + rowCycles g.fmt
                                              streaming := if rest.isEmpty then none else some i }
          let g' : Option PondGroup := if rest.isEmpty then none else some { g with rows := rest, entered := g.entered ++ [r] }
          some (s.setCore c (({ x with arr := a } : Core).setGroup i g'))
      | [] => none
    | none => none
  | _, _ => none

/-- ROW_ENTER. -/
def execRowEnter (c : Nat) (s : State) : Out := match s.rowEnter c with
  | some t => event t
  | none => notEnabled "ROW_ENTER"

/-- A row's result is delivered: its C row, or its landing transfer. -/
def State.deliverRow (s : State) (c : Nat) (f : RowFlight) : State :=
  let bs := f.result.flatMap fun v => leBytes 4 v.toNat
  match f.row.dest with
  | .c off => (s.modCore c fun x => { x with c := x.c.writeN off bs }).noteWrite none (cKey c off) 1024
  | .v _ tag => s.landed f.row.hart tag f.row.num bs false

/-- A row that has been written is what a later one in flight to the same words has read (R207). -/
def RowFlight.feeds (f g : RowFlight) : RowFlight := match f.row.dest, g.row.dest with
  | .c o, .c p =>
    { g with base := (List.range 256).map fun n =>
        if o ≤ p + 4 * n && decide (p + 4 * n < o + 1024) then getAt 0 f.result ((p + 4 * n - o) / 4) else getAt 0 g.base n }
  | _, _ => g

/-- ROW_RESULT: the oldest row in the array is written 288 cycles after it entered, and its number completes. A row that is
to enter again is not written before. -/
def State.rowDone (s : State) (c : Nat) : Option State :=
  let x := s.core c
  match x.arr.flight with
  | [] => none
  | f :: rest =>
    if x.cycle < f.at_ || x.pondRows.any (fun r => r.same f.row) then none
    else
      let s := s.setCore c { x with arr := { x.arr with flight := rest.map f.feeds } }
      some ((s.deliverRow c f).complete f.row.hart 1 f.row.num)

/-- ROW_RESULT. -/
def execRowResult (c : Nat) (s : State) : Out := match s.rowDone c with
  | some t => event t
  | none => notEnabled "ROW_RESULT"

/-! ## Errors (R212, R216) -/

/-- TILE_LATCH_ERROR: a correctable error; the tile reloads and the rows of the streaming group enter again. One whose result is
written already does not: no accumulator is read twice (R212). -/
def State.latchError (s : State) (c : Nat) : Option State :=
  let x := s.core c
  match x.arr.streaming with
  | none => none
  | some i => match x.group i with
    | none => none
    | some g =>
      some (s.setCore c (({ x with arr := { x.arr with nextEntry := x.cycle + 32 } } : Core).setGroup i
        (some { g with rows := g.entered.filter (fun r => x.arr.flight.any fun f => f.row.same r) ++ g.rows, entered := [] })))

/-- TILE_LATCH_ERROR. -/
def execTileLatchError (c : Nat) (s : State) : Out := match s.latchError c with
  | some t => event t
  | none => notEnabled "TILE_LATCH_ERROR"

/-- A row fails: nothing is written, its number completes, its owner takes cause 6 at a boundary (R216). -/
def State.failRow (s : State) (r : Row) : State :=
  let part := s.partOf r.hart
  let s := match r.dest with
    | .c _ => s.lateFault r.hart part r.task { cause := 6, stval := 0, destKind := 4, destReg := 0 }
    | .v _ tag => match getAt none (s.hart r.hart).landing tag with
      | some t =>
        if t.num = r.num && !t.discard then s.landed r.hart tag r.num [] true
        else (s.landed r.hart tag r.num [] true).lateFault r.hart part r.task
          { cause := 6, stval := 0, destKind := 5, destReg := tag }
      | none => s.lateFault r.hart part r.task { cause := 6, stval := 0, destKind := 5, destReg := tag }
  s.complete r.hart 1 r.num

/-- A row leaves its group; an empty group becomes FREE. -/
def dropRow (r : Row) (g : PondGroup) : Option PondGroup :=
  let rows := g.rows.filter fun q => !q.same r
  if rows.isEmpty then none else some { g with rows := rows, entered := g.entered.filter fun q => !q.same r }

/-- The results of the rows in flight, formed again behind those that are left: nothing of a failed row stays in a later
one (R216). -/
def reflight (before : List RowFlight) : List RowFlight → List RowFlight
  | [] => before
  | f :: fs => reflight (before ++ [{ f with result := rowResult before f.latch f.base f.row }]) fs

/-- A row leaves the array and the millpond. -/
def Core.removeRow (c : Core) (r : Row) : Core :=
  let pond := c.pond.map fun g => match g with
    | some p => if p.rows.any fun q => q.same r then dropRow r p else some { p with entered := p.entered.filter fun q => !q.same r }
    | none => none
  let st := match c.arr.streaming with
    | some i => if (getAt none pond i).isNone then none else some i
    | none => none
  { c with pond := pond, arr := { c.arr with flight := c.arr.flight.filter fun f => !f.row.same r, streaming := st } }

/-- ROW_ERROR: row k, counted through the array and then the millpond, fails alone; an error of the tile's W-space data
fails every row of the streaming group (R216). -/
def State.rowError (s : State) (c k : Nat) (wspace : Bool) : Option State :=
  let x := s.core c
  let rows : List Row := if wspace then (match x.arr.streaming with
      | some i => match x.group i with
        | some g => g.entered ++ g.rows
        | none => []
      | none => [])
    else (((x.arr.flight.map fun f => f.row) ++ x.pondRows).drop k).take 1
  if rows.isEmpty then none
  else
    let t := s.modCore c fun y =>
      let z := rows.foldl Core.removeRow y
      { z with arr := { z.arr with flight := reflight [] z.arr.flight } }
    some (rows.foldl State.failRow t)

/-- ROW_ERROR. -/
def execRowError (c k : Nat) (wspace : Bool) (s : State) : Out := match s.rowError c k wspace with
  | some t => event t
  | none => notEnabled "ROW_ERROR"

end Sys2Proof.Machine
end

