-- ==== Sys2Proof/Machine/Packs.lean ====
section
/-! DEFINITION. Packs (R236 to R255, R335, R336). -/

namespace Sys2Proof.Machine

/-- The live pack that a handle names within a partition (log 45). -/
def State.packIn (s : State) (handle : Word) (part : Nat) : Option Pack :=
  s.packs.find? fun p => p.handle == handle && p.part == part

/-- A new pack object (R239). -/
def newPack (s : State) (handle : Word) (pa expected life : Nat) : Pack :=
  { handle := handle, pa := pa, die := s.homeDie pa, expected := expected, entered := 0, committed := 0, state := .opened
    code := 0, epoch := 0, lifetime := if life = 0 then 1000 else life, part := s.partOf s.cur, start := 0, members := []
    tent := [], reads := [], freeWait := [], aborted := 0 }

/-- An earlier store of the hart to [pa, pa + n) is still on its way: the object is written after it (R169, R239). -/
def State.storesTo (s : State) (h pa n : Nat) : Bool :=
  let x := s.hart h
  let meets := fun (e : Elem) => match e.place with
    | .g q _ => e.kind != .load && meet q e.bytes pa n
    | _ => false
  (x.sbuf.any fun e => meet e.pa e.data.length pa n) || s.inFlight (coreOf h) pa n || s.postedTo h pa n || x.elems.any meets ||
    (match x.run with
      | some ru => ru.outs.any meets
      | none => false)

/-- PKALLOC (R239). -/
def effPkalloc (d a b : Reg) (life : BitVec 24) (s : State) : Res :=
  let va := s.me.rd a
  let n := (s.me.rd b).toNat
  if s.me.inRegion then s.illegal
  else if va.toNat % 64 ≠ 0 then .trap s 3 va
  else match s.translate (s.ctx s.cur) .store va with
    | (s, .fault c) => .trap s c va
    | (s, .ok pa _) => s.askHome fun s =>
      if n = 0 || decide (Config.maxMembers < n) || decide (Config.deviceBytes ≤ pa) || (s.packIn va (s.partOf s.cur)).isSome ||
          s.inPackObject pa 64 then .ok (s.result d 2)
      else if Config.maxPacks ≤ s.packs.length then .ok (s.result d 1)
      else if s.storesTo s.cur pa 64 then .stall s
      else
        let p := newPack s va pa n life.toNat
        .ok (({ s.agentWrite none pa p.bytes with packs := s.packs ++ [p] }).result d va)

/-- The hart enters: s[D] := 0, then its checkpoint (R240). Strips prefetched outside the region are read again inside it
(R245). -/
def Hart.enterPack (x : Hart) (d : Reg) (p : Pack) (handler : Word) : Hart :=
  let y := (x.wr d 0).dropStrips
  { y with pack := some { handle := p.handle, obj := p.pa, epoch := p.epoch, handler := handler, ckpt := y.s, count := 0
                          restore := false, trapped := false, nested := 0, sup := x.priv == .sup } }

/-- An entry at the pack's home (R240, R254). -/
def Pack.enter (p : Pack) (h now : Nat) : Pack :=
  { p with entered := p.entered + 1, start := if p.entered = 0 then now else p.start, members := p.members ++ [h] }

/-- PKENTER (R240). -/
def effPkenter (d a b : Reg) (s : State) : Res :=
  let h := s.cur
  let hd := s.me.rd a
  let hr := s.me.rd b
  if s.me.pack.isSome then s.illegal
  else if hr.toNat % 8 ≠ 0 then .trap s 3 hr
  else if !s.quiet h then .stall s
  else s.askHome fun s =>
    let s := s.acquireFor h
    match s.packIn hd (s.partOf h) with
    | none => .ok (s.result d 3)
    | some p =>
      if p.state ≠ .opened then .ok (s.result d 2)
      else if p.entered = p.expected then .ok (s.result d 1)
      else .ok ((s.setPack (p.enter h s.gtime)).modHart h fun x => x.enterPack d p hr)

/-- Sets a member's commit progress. -/
def Hart.setCount (x : Hart) (n : Nat) : Hart :=
  { x with pack := x.pack.map fun m => { m with count := n } }

/-- Everything a PKCOMMIT waits for before its count is sent (R241). -/
def State.commitReady (s : State) (h : Nat) : Bool :=
  s.vdrained h .a && (s.hart h).tents.isEmpty

/-- PKCOMMIT (R241): the count is sent; the hart waits; once the pack has committed it leaves the region. -/
def effPkcommit (d : Reg) (s : State) : Res :=
  let h := s.cur
  match s.me.pack with
  | none => s.illegal
  | some m =>
    if m.trapped then s.illegal
    else if m.count = 0 then
      (if s.commitReady h then .stall ((s.modHart h fun x => x.setCount 1).happen) else .stall s)
    else if m.count = 3 then
      .ok (((s.acquireFor h).modHart h fun x => { x.wr d 0 with pack := none }).packLeave m.obj h)
    else .stall s

/-- PKABORT (R242). -/
def effPkabort (code : BitVec 24) (s : State) : Res :=
  match s.me.member with
  | none => s.illegal
  | some obj => .ok (s.abortPack obj (BitVec.ofNat 32 (1 + 256 * code.toNat)))

/-- The word of PKSTAT (R243). -/
def Pack.stat (p : Pack) (code : Bool) : Word :=
  if code then BitVec.ofNat 64 (p.code.toNat + 2 ^ 32 * p.epoch.toNat)
  else BitVec.ofNat 64 (p.state.num + 16 * (p.die % 4) + 2 ^ 16 * p.entered + 2 ^ 32 * p.committed + 2 ^ 48 * p.expected)

/-- PKSTAT (R243). -/
def effPkstat (code : Bool) (d a : Reg) (s : State) : Res := s.askHome fun s =>
  match s.packIn (s.me.rd a) (s.partOf s.cur) with
  | none => .ok (s.result d 0)
  | some p => .ok (s.result d (p.stat code))

/-- A PKFREE waits for the pack's step to end. -/
def State.waitFree (s : State) (p : Pack) : State :=
  { s with packs := s.packs.map fun q => if q.pa == p.pa then { q with freeWait := s.cur :: q.freeWait } else q }

/-- PKFREE (R244). -/
def effPkfree (d a : Reg) (s : State) : Res :=
  if s.me.inRegion then s.illegal
  else if s.me.stage = 1 then match s.packIn (s.me.rd a) (s.partOf s.cur) with
    | none => .ok (s.result d 0)
    | some p => if p.freeWait.contains s.cur then s.stallAt 1 0 else .ok (s.result d 0)
  else s.askHome fun s => match s.packIn (s.me.rd a) (s.partOf s.cur) with
    | none => .ok (s.result d 3)
    | some p =>
      if p.state = .opened && p.entered = 0 then .ok ((s.dropPack p).result d 0)
      else
        let t := (s.waitFree p).abortPack p.pa 8
        t.stallAt 1 0

def execPkalloc (d a b : Reg) (life : BitVec 24) (s : State) : Out := finish s (effPkalloc d a b life s)
def execPkenter (d a b : Reg) (s : State) : Out := finish s (effPkenter d a b s)
def execPkcommit (d : Reg) (s : State) : Out := finish s (effPkcommit d s)
def execPkabort (code : BitVec 24) (s : State) : Out := finish s (effPkabort code s)
def execPkstat (code : Bool) (d a : Reg) (s : State) : Out := finish s (effPkstat code d a s)
def execPkfree (d a : Reg) (s : State) : Out := finish s (effPkfree d a s)

/-! ## The home's steps (R248 to R251) -/

/-- The bytes of a pack go to memory: from the commit instant every read returns them (R181, R248). Whole words are written
whole. -/
def State.commitBytes (s : State) (p : Pack) : State :=
  ((p.tent.map fun c => c.1 / 4).dedup).foldl (fun (t : State) w =>
    let bs := (List.range 4).map fun i => p.tentAt (4 * w + i)
    if bs.all fun b => b.isSome then t.homeWrite none (4 * w) (bs.map fun b => b.getD 0)
    else (List.range 4).foldl (fun (u : State) i => match p.tentAt (4 * w + i) with
      | some b => u.homeWrite none (4 * w + i) [b]
      | none => u) t) s

/-- PACK_COUNT_ARRIVAL: the count of hart h reaches the pack's home; the one that completes EXPECTED is the commit instant
(R248). One that comes too late finds the pack aborting (R249). The instant waits for the release of a page of the pack's
that is held or flipped (R151, R279, log 37), and for a line that the host has taken since (R277). -/
def State.countArrival (s : State) (h : Nat) : Option State :=
  match (s.hart h).pack with
  | none => none
  | some m =>
    if m.count ≠ 1 || m.restore then none
    else match s.pack? m.obj with
      | none => none
      | some p =>
        if p.state ≠ .opened then none
        else if p.expired s.gtime then some (s.abortPack m.obj 6)
        else if p.committed + 1 = p.expected ∧ p.tent.any (fun c => s.pageHeld c.1 || s.flipping c.1) then none
        else match (if p.committed + 1 = p.expected then p.tent.findSome? (fun c => s.hostLine c.1 1) else none) with
        | some a => if s.snooping a then none else some (s.sendSnoop (a / 64)).happen
        | none =>
          let s := s.modHart h fun x => x.setCount 2
          let q := { p with committed := p.committed + 1 }
          some (if q.committed = q.expected then (s.setPack { q with state := .committing }).commitBytes q else s.setPack q)

/-- PACK_COUNT_ARRIVAL. -/
def execPackCountArrival (h : Nat) (s : State) : Out := match s.countArrival h with
  | some t => event t
  | none => notEnabled "PACK_COUNT_ARRIVAL"

/-- PACK_FLIP: the homes remove the pack's marks and perform what they held; the members may return (R248). -/
def State.packFlip (s : State) (obj : Nat) : Option State :=
  match s.pack? obj with
  | none => none
  | some p =>
    if p.state ≠ .committing || p.members.all (fun h => match (s.hart h).pack with
      | some m => m.count == 3
      | none => true) then none
    else
      let s := p.members.foldl (fun (t : State) h => t.modHart h fun x => x.setCount 3) s
      some ({ s with packs := s.packs.map fun (q : Pack) => if q.pa == obj then { q with tent := [], reads := [] } else q
              }).cleanHolds

/-- PACK_FLIP of the pack whose object stands at `obj`. -/
def execPackFlip (obj : Nat) (s : State) : Out := match s.packFlip obj with
  | some t => event t
  | none => notEnabled "PACK_FLIP"

/-- PACK_ABORT: a cause that comes from no member reaches the home: 6, the lifetime, or 7, a lost die (R250, R251). -/
def State.packAbort (s : State) (obj code : Nat) : Option State :=
  match s.pack? obj with
  | none => none
  | some p =>
    if p.state ≠ .opened then none
    else if (code = 6 && p.expired s.gtime) || (code = 7 && s.packDieLost p) then
      some (s.abortPack obj (BitVec.ofNat 32 code))
    else none

/-- PACK_ABORT. -/
def execPackAbort (obj code : Nat) (s : State) : Out := match s.packAbort obj code with
  | some t => event t
  | none => notEnabled "PACK_ABORT"

/-- PACK_LIFETIME_EXPIRY: code 6 (R249). -/
def execPackLifetimeExpiry (obj : Nat) (s : State) : Out := match s.packAbort obj 6 with
  | some t => event t
  | none => notEnabled "PACK_LIFETIME_EXPIRY"

/-- A hart that waits for an atomic's or a message's value is at no boundary. -/
def Hart.awaitsValue (x : Hart) : Bool := match x.wait with
  | some w => w.kind == .atomic || w.kind == .ra
  | none => false

/-- The head of the queue is the vector half of a pair. -/
def Hart.runsPair (x : Hart) : Bool := match x.run with
  | some ru => formOf ru.e.iword == 1
  | none => false

/-- The first element of a VLD in progress that is stopped: that of the next group to be presented, or of the group of its lowest
presented element still to be delivered. -/
def VRun.loadStop (ru : VRun) (x : Hart) : Nat :=
  let lo := (x.elems.filter fun e => e.kind == .load).foldl (fun m e => min m e.idx) (min ru.next ru.limit)
  let g := ru.size x.c
  max ru.lo (if g = 0 then lo else lo / g * g)

/-- A vector load that is stopped has written the elements below its VSTART. -/
def Hart.stopLoad (x : Hart) : Hart := match x.run with
  | some ru => match ru.e.instr with
    | .vld v => ru.writeLoaded v (ru.loadStop x) x
    | _ => x
  | none => x

/-- The presented groups of a VLD have been delivered, and no fault of theirs comes first (R260, R270). -/
def VRun.loadBoundary (ru : VRun) (x : Hart) : Bool :=
  !(x.elems.any fun e => e.kind == .load && decide (e.idx < ru.next)) && !(ru.fault.isSome && decide (ru.limit ≤ ru.next))

/-- The head of the queue stands between two element groups, or has not started; what executes together is cut nowhere else
(R60, R124). MPOPC, MFIRST, VEXT and VINS complete once they have started (R331, R362). -/
def Hart.groupBoundary (x : Hart) : Bool := match x.run with
  | some ru => match ru.e.instr with
    | .mpopc .. | .mfirst .. | .vext _ | .vins _ => false
    | .vld _ => ru.loadBoundary x
    | i => ru.spent == 0 || (actsWhole i && ru.spent % groupCycles i == 0)
  | none => true

/-- The head of the queue can be stopped for good: at a group boundary, or in a load that an aborted pack keeps from delivering. -/
def Hart.canStop (x : Hart) : Bool := x.groupBoundary || (match x.run, x.pack with
  | some ru, some m => m.restore && (match ru.e.instr with
    | .vld _ => true
    | _ => false)
  | _, _ => false)

/-- MEMBER_RESTORE: at its next boundary, which is no place inside a pair (R43), a member takes its checkpoint back and
acknowledges (R251, R252). -/
def State.memberRestore (s : State) (h : Nat) : Option State :=
  let x := s.hart h
  match x.pack with
  | none => none
  | some m =>
    if !m.restore || m.trapped || x.awaitsValue || x.runsPair || !x.canStop then none
    else some (((s.leaveWaits h).setHart h { x.stopLoad.restoreCkpt m with progress := s.gtime }).packLeave m.obj h)

/-- MEMBER_RESTORE. -/
def execMemberRestore (h : Nat) (s : State) : Out := match s.memberRestore h with
  | some t => event t
  | none => notEnabled "MEMBER_RESTORE"

/-- TENTATIVE_STORE_ARRIVAL: the oldest store of a member on its way reaches the write-set buffer of its home (R245 to
R247); one of an aborted pack is discarded. -/
def State.tentArrival (s : State) (h : Nat) : Option State :=
  let x := s.hart h
  match x.tents, x.pack with
  | t :: rest, some m =>
    let gone := fun (u : State) => u.modHart h fun y => { y with tents := rest }
    if m.restore then some (gone s)
    else if s.pageHeld t.pa || s.flipping t.pa then none
    else if s.hostBias t.pa && s.hostHolds t.pa then
      (if s.snooping t.pa then none else some (s.sendSnoop (t.pa / 64)))
    else match s.memberAccess m.obj t.pa t.data.length (some fun _ => t.data) with
      | .done u _ => some (gone u)
      | .aborted u => some (gone u)
  | _, _ => none

/-- TENTATIVE_STORE_ARRIVAL. -/
def execTentativeStoreArrival (h : Nat) (s : State) : Out := match s.tentArrival h with
  | some t => event t
  | none => notEnabled "TENTATIVE_STORE_ARRIVAL"

/-- NONMEMBER_HOLD_EXPIRY: held write k is 2,000 ns old; the packs that hold it abort with code 2 (R247). -/
def State.holdExpiry (s : State) (k : Nat) : Option State :=
  match s.heldWrites[k]? with
  | some (ws, some t) =>
    let ps := s.packs.filter fun p => p.state == .opened && ws.any fun w => p.holds w.1 w.2
    if s.gtime < t + 2000 || ps.isEmpty then none
    else some (ps.foldl (fun (u : State) (p : Pack) => u.abortPack p.pa 2) s)
  | _ => none

/-- NONMEMBER_HOLD_EXPIRY. -/
def execNonmemberHoldExpiry (k : Nat) (s : State) : Out := match s.holdExpiry k with
  | some t => event t
  | none => notEnabled "NONMEMBER_HOLD_EXPIRY"

end Sys2Proof.Machine
end

