-- ==== Sys2Proof/Machine/Loops.lean ====
section
/-! DEFINITION. Loop replay: LOOPMARK and LOOPBR (R219 to R221), the flume's recording (R222 to R224), the millrace (R225 to
R230, R233 to R235), RPSTAT (R231, R340). -/

namespace Sys2Proof.Machine

/-! ## Instruction words at an address -/

/-- Fetches the 8-byte word at an address: its value, or the cause of the fetch fault (R47). A poisoned word is cause 6. -/
def State.fetchWord (s : State) (h : Nat) (va : Word) : State × Except Nat Word :=
  match s.locateG h .fetch va 8 with
  | (s, .fault c) => (s, .error c)
  | (s, .at_ (.g pa m)) => if poisoned s.bad pa 8 then (s, .error 6) else (s.lookAt pa 8, .ok (wordOfBytes (s.modeBytes m pa 8)))
  | (s, .at_ _) => (s, .error 5)

/-- The instructions of one word: one, or the two halves of a pair. -/
def instrsOf (w : Word) : List Instr := match (decode (bytesOfWord w)).1 with
  | .instr i 8 => [i]
  | .pair a b => [a, b]
  | _ => []

/-! ## What a body touches (R222, R223) -/

/-- Scalar registers an instruction of the captured set reads. -/
def sUses : Instr → List Reg
  | .add _ a b | .sub _ a b | .mul _ a b | .and _ a b | .or _ a b | .xor _ a b | .shl _ a b | .shr _ a b | .sra _ a b
  | .max _ _ a b | .min _ _ a b | .slt _ _ a b => [a, b]
  | .sel _ a b c => [a, b, c]
  | .addi _ a _ | .andi _ a _ | .ori _ a _ | .xori _ a _ | .shli _ _ a _ | .slti _ _ a _ | .mov _ a => [a]
  | .fadd _ _ _ a b | .fsub _ _ _ a b | .fmul _ _ _ a b | .fmin _ _ a b | .fmax _ _ a b | .fcmp _ _ _ a b => [a, b]
  | .ffma _ _ _ a b c => [a, b, c]
  | .fcvt _ _ _ _ _ a => [a]
  | .setvl _ a _ => [a]
  | .br _ a b _ => [a, b]
  | .brnz a _ | .brz a _ => [a]
  | .vld v | .vst v => v.a :: (if v.k = .strided then [v.b] else [])
  | .vadds _ _ b => [b]
  | i => match vargs i with
    | some v => (if v.bs then [v.b] else []) ++ (if v.cs then [v.c] else [])
    | none => []

/-- The scalar register it writes. -/
def sDef : Instr → Option Reg
  | .add d _ _ | .sub d _ _ | .mul d _ _ | .and d _ _ | .or d _ _ | .xor d _ _ | .shl d _ _ | .shr d _ _ | .sra d _ _
  | .max _ d _ _ | .min _ d _ _ | .slt _ d _ _ | .sel d _ _ _ | .addi d _ _ | .andi d _ _ | .ori d _ _ | .xori d _ _
  | .shli _ d _ _ | .slti _ d _ _ | .mov d _ | .li d _ | .fadd _ _ d _ _ | .fsub _ _ d _ _ | .fmul _ _ d _ _
  | .fmin _ d _ _ | .fmax _ d _ _ | .fcmp _ _ d _ _ | .ffma _ _ d _ _ _ | .fcvt _ _ _ _ d _ | .setvl d _ _ =>
    if d = 0 then none else some d
  | _ => none

/-- Vector registers (0 to 63) and masks (64 + n) it reads. -/
def vUses (i : Instr) : List Nat :=
  ((vsrcs i 32 32).map fun o => o.reg.toNat) ++ (if vmaskOf i = 0 then [] else [64 + vmaskOf i])

/-- Vector registers and masks it writes. -/
def vDefs (i : Instr) : List Nat :=
  (match vdst i 32 32 with
    | some o => [o.reg.toNat]
    | none => []) ++
  (match i with
    | .vcmp _ v => [64 + v.d.toNat]
    | _ => []) ++
  (match vargs i with
    | some v => if v.xm = 0 then [] else [64 + v.xm.toNat]
    | none => [])

/-- A vector access in G-space or own A-space, unit or strided (R222). -/
def memCapturable (mt : Nat) (v : VMem) : Bool :=
  v.k != .indexed && (v.sp == .g || v.sp == .a || (v.sp == .dflt && decide (mt ≤ 1)))

/-- The set of R222 without the branches. -/
def capturable (mt : Nat) : Instr → Bool
  | .add .. | .sub .. | .mul .. | .and .. | .or .. | .xor .. | .shl .. | .shr .. | .sra .. | .min .. | .max .. | .slt ..
  | .sel .. | .addi .. | .andi .. | .ori .. | .xori .. | .shli .. | .slti .. | .li .. | .nop
  | .fadd .. | .fsub .. | .fmul .. | .ffma .. | .fmin .. | .fmax .. | .fcmp .. | .fcvt ..
  | .vadd _ | .vsub _ | .vmul _ | .vmulh _ | .vmulhr _ | .vfma _ | .vmin _ | .vmax _ | .vclamp _ | .vcmp _ _ | .vsel _
  | .vshl _ | .vshr _ | .vsra _ | .vrshr _ | .vcvt _ _ | .vmov _ _ | .vbscale _ | .vpackni _ | .vunpkni _ _ | .vadds _ _ _
  | .setvl .. => true
  | .vld v | .vst v => memCapturable mt v
  | _ => false

/-- A branch of the body: whether it goes forward, and whether it is taken (R222). -/
def guardOf (x : Hart) : Instr → Option (Bool × Bool)
  | .br cc a b disp => some (decide (0 < disp.toInt), ccHolds cc (x.rd a) (x.rd b))
  | .brnz a imm => some (decide (0 < imm.toInt), x.rd a != 0)
  | .brz a imm => some (decide (0 < imm.toInt), x.rd a == 0)
  | _ => none

/-- The reason for which one instruction ends the recording; none: it is captured. -/
def captureFault (x : Hart) (i : Instr) : Option Nat :=
  match guardOf x i with
  | some (false, _) => some 16
  | some (true, true) => some 19
  | some (true, false) => none
  | none =>
    if !capturable x.mt i || sDef i == some x.mark.creg ||
        (vUses i ++ vDefs i).any (fun r => decide (r < 64) && (x.stream (BitVec.ofNat 6 r)).isSome) then some 16
    else none

/-- The stream address of a VLD or VST: base register plus OFF (R223). -/
def streamAddr (x : Hart) : Instr → Option Word
  | .vld v | .vst v => some (x.rd v.a + sext64 v.off)
  | _ => none

/-! ## Recording (R222 to R224, R232) -/

/-- The recording ends in CORE. -/
def Hart.endMark (x : Hart) (reason : Nat) : Hart :=
  { x with mark := { x.mark with state := .core, reason := reason, k := x.mark.iters.length, opened := false } }

/-- The address of the closing LOOPBR. -/
def Mark.brPc (m : Mark) : Word := m.mpc + BitVec.ofNat 64 (8 * (m.len + 1))

/-- The hart is recording. -/
def Hart.recording (x : Hart) : Bool := x.mark.state == .recording && x.mark.opened

/-- Load and store streams of an iteration. -/
def countStreams (ws : List Word) : Nat × Nat :=
  let is := ws.flatMap instrsOf
  ((is.filter fun i => match i with
    | .vld _ => true
    | _ => false).length,
   (is.filter fun i => match i with
    | .vst _ => true
    | _ => false).length)

/-- A LOOPMARK, which closes an open mark with a reason of its own (R220, R232). -/
def isLoopmark : Instr → Bool
  | .loopmarkWait .. | .loopmarkAhead .. => true
  | _ => false

/-- The flume notes an instruction as it issues (R222); a nested LOOPMARK is no part of a body (R232). -/
def Hart.noteFlume (x : Hart) (is : List Instr) : Hart :=
  if !x.recording || is.any isLoopmark then x
  else
    let closing := x.pc == x.mark.brPc && (match is with
      | [.loopbr a _] => a == x.mark.creg
      | _ => false)
    if closing then x
    else match is.findSome? (captureFault x) with
      | some r => x.endMark r
      | none =>
        if is.isEmpty then x.endMark 16
        else
          let it := { x.mark.now with words := x.mark.now.words ++ [x.iword]
                                      addrs := x.mark.now.addrs ++ is.filterMap fun i => (streamAddr x i).map fun a => (x.pc, a)
                                      vls := x.mark.now.vls ++ [x.vl] }
          let n := countStreams it.words
          if decide (4 < n.1) || decide (2 < n.2) then x.endMark 17
          else { x with mark := { x.mark with now := it } }

/-! ## Classification (R223, R224) -/

/-- Reads before writes, and writes, of a sequence. -/
def rbw {α : Type} [BEq α] (uses defs : Instr → List α) : List Instr → List α × List α → List α × List α
  | [], acc => acc
  | i :: is, (rs, ws) =>
    rbw uses defs is (rs ++ (uses i).filter (fun r => !ws.contains r && !rs.contains r),
      ws ++ (defs i).filter fun r => !ws.contains r)

/-- Scalars written, as a list. -/
def sDefs (i : Instr) : List Reg := match sDef i with
  | some d => [d]
  | none => []

/-- The scalar updates of a register are one ADD, MIN or MAX with an operand that the body writes (R223). -/
def isReduction (is : List Instr) (written : List Reg) (r : Reg) : Bool :=
  match is.filter fun i => sDef i == some r with
  | [.add _ a b] | [.min _ _ a b] | [.max _ _ a b] =>
    (a == r && b != r && written.contains b) || (b == r && a != r && written.contains a)
  | _ => false

/-- A body's carried scalars, without the count register, its carried vectors and masks, and what it writes. -/
structure BodyClass where
  carried : List Reg
  reductions : List Reg
  carriedV : List Nat
  writesS : List Reg
  writesV : List Nat
  deriving DecidableEq, Repr

/-- Classifies a body. -/
def classify (is : List Instr) : BodyClass :=
  let sc := rbw sUses sDefs is ([], [])
  let ve := rbw vUses vDefs is ([], [])
  let car := sc.1.filter fun r => sc.2.contains r && r != 0
  { carried := car, reductions := car.filter fun r => isReduction is sc.2 r, carriedV := ve.1.filter fun r => ve.2.contains r
    writesS := sc.2, writesV := ve.2 }

/-- Scalar register r of an iteration at its LOOPBR. -/
def Iteration.reg (t : Iteration) (r : Reg) : Word := getAt 0 t.sregs r.toNat

/-- The value changed by one constant over three iterations. -/
def affine3 (a b c : Word) : Bool := b - a == c - b

/-- Every stream address changed by one constant. -/
def addrsAffine : List (Word × Word) → List (Word × Word) → List (Word × Word) → Bool
  | a :: as, b :: bs, c :: cs => affine3 a.2 b.2 c.2 && addrsAffine as bs cs
  | [], [], [] => true
  | _, _, _ => false

/-- The check at the end of iteration 2: the reason it fails for, or the class of the body (R223, R224). -/
def confirm (m : Mark) (is : List Iteration) : Except Nat BodyClass :=
  match is with
  | [a, b, c] =>
    if a.words ≠ b.words || b.words ≠ c.words then .error 19
    else
      let cl := classify (a.words.flatMap instrsOf)
      if decide (5 < cl.carried.length) || decide (1 < cl.reductions.length) || decide (2 < cl.carriedV.length) then .error 18
      else if !addrsAffine a.addrs b.addrs c.addrs || !((m.creg :: cl.carried).all fun r =>
          cl.reductions.contains r || affine3 (a.reg r) (b.reg r) (c.reg r)) then .error 18
      else if m.ahead && (!cl.reductions.isEmpty || !cl.carriedV.isEmpty) then .error 24
      else if a.vls ≠ b.vls || b.vls ≠ c.vls || !(match a.vls with
          | v :: vs => vs.all fun w => w == v
          | [] => true) then .error 2
      else .ok cl
  | _ => .error 19

/-! ## LOOPMARK (R220) -/

/-- Recordings in use on a core (R220). -/
def State.flumes (s : State) (c : Nat) : Nat := ((hartsOf c).filter fun h => (s.hart h).mark.state == .recording).length

/-- The mark of a LOOPMARK. -/
def newMark (x : Hart) (ahead : Bool) (num : Nat) (a b c : Reg) (len : Nat) : Mark :=
  { Mark.reset with ahead := ahead, num := num, mpc := x.pc, len := len, creg := a, count := x.rd a
                    handler := if b = 0 then 0 else x.rd b, lrec := x.rd c, frame := x.rd 3, start := x.s }

/-- The state that the mark takes (R220). -/
def State.openMark (s : State) (m : Mark) : State :=
  let x := s.me
  let core := fun r => { m with state := MarkState.core, reason := r }
  let m' := if x.recording then core 23
    else if x.inRegion then core 25
    else if 2 ≤ s.flumes (coreOf s.cur) then core 20
    else { m with state := .recording, opened := true }
  s.modHart s.cur fun y => { y with mark := m' }

/-- The checks of R220 on len, A and the closing LOOPBR. -/
def State.checkLoop (s : State) (a : Reg) (len : Nat) : State × Option (Nat × Word) :=
  let x := s.me
  if len = 0 || decide (32 < len) || a = 0 then (s, some (1, x.iword))
  else
    let va := x.pc + BitVec.ofNat 64 (8 * (len + 1))
    match s.fetchWord s.cur va with
    | (s, .error c) => (s, some (c, va))
    | (s, .ok w) => match instrsOf w with
      | [.loopbr r disp] => if r = a && disp.toInt = -(len : Int) then (s, none) else (s, some (1, x.iword))
      | _ => (s, some (1, x.iword))

/-- What follows the checks of LOOPMARK: an iteration count of 0 skips the loop. -/
def State.startLoop (s : State) (m : Mark) : Res :=
  if m.count = 0 then
    .jump (s.modHart s.cur fun y => { y with mark := { m with state := .core, reason := 22 } }) (m.brPc + 8)
  else .ok (s.openMark m)

/-- LOOPMARK.wait. -/
def effLoopmarkWait (a : Reg) (len : BitVec 6) (s : State) : Res :=
  match s.checkLoop a len.toNat with
  | (s, some (c, v)) => .trap s c v
  | (s, none) => s.startLoop (newMark s.me false 0 a 0 0 len.toNat)

/-- LOOPMARK.ahead: the tl2 number is taken and written before the count is read. -/
def effLoopmarkAhead (d a b c : Reg) (len : BitVec 6) (s : State) : Res :=
  match s.checkLoop a len.toNat with
  | (s, some (k, v)) => .trap s k v
  | (s, none) =>
    let lr := s.me.rd c
    if lr.toNat % 64 ≠ 0 then .trap s 3 lr
    else match s.translate (s.ctx s.cur) .store lr with
      | (s, .fault k) => .trap s k lr
      | (s, .ok _ _) =>
        let n := (s.me.takeNum 2).1
        let m := newMark s.me true n a b c len.toNat
        let s := s.setHart s.cur ((s.me.takeNum 2).2.wr d (BitVec.ofNat 64 n))
        let m : Mark := { m with count := s.me.rd a }
        let e : AheadNum := { num := n, lo := m.mpc + 8, hi := m.brPc, exited := m.count == (0 : Word) }
        (s.modHart s.cur fun y => { y with aheads := y.aheads ++ [e] }).startLoop m

def execLoopmarkWait (a : Reg) (len : BitVec 6) (s : State) : Out := finish s (effLoopmarkWait a len s)
def execLoopmarkAhead (d a b c : Reg) (len : BitVec 6) (s : State) : Out := finish s (effLoopmarkAhead d a b c len s)

/-- Completes the AHEAD numbers whose loops have exited with every vector store performed (R220). An instruction that
observes tl2 from outside the loop's words shows that the loop has been left (log 22). -/
def State.settleAheads (s : State) (h : Nat) (is : List Instr) : State :=
  let x := s.hart h
  let looks := is.any fun i => match i with
    | .tlwait .. | .tlread .. | .tend | .loopmarkWait .. | .loopmarkAhead .. => true
    | _ => false
  let out := fun (a : AheadNum) => a.exited || (looks && (decide (x.pc.toNat < a.lo.toNat) || decide (a.hi.toNat < x.pc.toNat)))
  let as := x.aheads.map fun a => { a with exited := out a }
  if as.any (fun a => a.exited) && s.storesDone h then
    let s := s.setHart h { x with aheads := as.filter fun a => !a.exited }
    as.foldl (fun (t : State) a => if a.exited then t.complete h 2 a.num else t) s
  else s.setHart h { x with aheads := as }

/-! ## LOOPBR (R221, R224 to R227) -/

/-- A free millrace slot of a die. -/
def Die.freeSlot (x : Die) : Option Nat := (List.range 8).find? fun k => (getAt none x.slots k).isNone
/-- Slot `k`. -/
def Die.slot (x : Die) (k : Nat) : Option Slot := getAt none x.slots k
/-- Writes it. -/
def Die.setSlot (x : Die) (k : Nat) (t : Option Slot) : Die := { x with slots := putAt none x.slots k t }

/-- The hart after LOOPBR in AHEAD mode: the count register 0, affine scalars as if the loop had run (R226, R227). -/
def Hart.aheadDone (x : Hart) (m : Mark) (cl : BodyClass) (v0 : Iteration) (v1 : Iteration) : Hart :=
  let y := cl.carried.foldl (fun (y : Hart) r => y.wr r (v0.reg r + (m.count - 1) * (v1.reg r - v0.reg r))) x
  y.wr m.creg 0

/-- The slot that a confirmed loop takes. -/
def newSlot (s : State) (m : Mark) (cl : BodyClass) (x : Hart) : Slot :=
  { core := coreOf s.cur, hart := s.cur, mark := m, part := s.partOf s.cur, base := x
    now := { x with pc := m.mpc + 8, fflags := 0, wait := none, mark := Mark.reset, aheads := [] }, k := 3
    carried := m.creg :: cl.carried, carriedV := cl.carriedV, writesS := cl.writesS, writesV := cl.writesV, writes := []
    reclaim := false, cancelled := false }

/-- Waits for hand-back: the hart stands at the first body word (R226, R229). -/
def Hart.awaitReplay (x : Hart) (s : State) (m : Mark) : Hart :=
  { x with mark := m, pc := m.mpc + 8
           wait := some { kind := .replay, epoch := s.epoch, deadline := none, expired := false, stage := 0, arg := 0 } }

/-- Iteration 2 ends with a pattern that is confirmed and a free slot: the hart drains and releases, and the slot starts
(R225). -/
def State.startReplay (s : State) (k : Nat) (x : Hart) (m : Mark) (cl : BodyClass) (its : List Iteration) : Res :=
  if !s.quiet s.cur then .stall s
  else
    let m := { m with state := .replay, opened := false, reason := 0, k := 0, iters := its, now := Iteration.empty }
    let s := s.modDie (dieOf s.cur) fun y => y.setSlot k (some (newSlot s m cl x))
    if m.ahead then
      let v := fun n => getAt Iteration.empty its n
      let y := { x.aheadDone m cl (v 0) (v 1) with mark := m, aheads := x.aheads.filter fun a => a.num != m.num }
      .ok (s.setHart s.cur y)
    else .stall (s.setHart s.cur (x.awaitReplay s m))

/-- LOOPBR's decrement and branch with a mark that is closed. -/
def State.loopStep (s : State) (x : Hart) (a : Reg) (disp : BitVec 38) : Res :=
  let pc := s.me.pc
  if x.rd a = 0 then
    .ok (s.setHart s.cur { x with aheads := x.aheads.map fun e => { e with exited := e.exited || e.hi == pc } })
  else .jump (s.setHart s.cur x) (dispTarget pc disp)

/-- LOOPBR (R221). The LOOPBR that closes an open mark ends an iteration (R224). -/
def effLoopbr (a : Reg) (disp : BitVec 38) (s : State) : Res :=
  let x := s.me
  let y := x.wr a (x.rd a - 1)
  let m := x.mark
  if a = 0 then s.illegal
  else if !(x.recording && x.pc == m.brPc && a == m.creg) then s.loopStep y a disp
  else
    let its := m.iters ++ [{ m.now with sregs := y.s, vls := m.now.vls ++ [y.vl] }]
    if y.rd a = 0 then
      s.loopStep { y with mark := { m with state := .core, reason := 22, k := m.count.toNat, opened := false } } a disp
    else if its.length < 3 then
      s.loopStep { y with mark := { m with iters := its, now := Iteration.empty } } a disp
    else match confirm m its with
      | .error r => s.loopStep (y.endMark r) a disp
      | .ok cl => match (s.die (dieOf s.cur)).freeSlot with
        | none => s.loopStep (y.endMark 21) a disp
        | some k => s.startReplay k y m cl its

def execLoopbr (a : Reg) (disp : BitVec 38) (s : State) : Out := finish s (effLoopbr a disp s)

/-! ## RPSTAT (R231) -/

/-- STATE (R231). -/
def MarkState.num : MarkState → Nat
  | .none => 0 | .recording => 1 | .replay => 2 | .complete => 3 | .core => 4 | .departed => 5

/-- The word of R231. -/
def Mark.word (m : Mark) : Word :=
  let k := if m.state = .recording then m.iters.length else m.k
  BitVec.ofNat 64 (m.state.num + 256 * m.reason + 2 ^ 32 * min k (2 ^ 32 - 1))

/-- RPSTAT. -/
def effRpstat (d : Reg) (s : State) : Res := .ok (s.result d s.me.mark.word)
def execRpstat (d : Reg) (s : State) : Out := finish s (effRpstat d s)

/-! ## An iteration of a slot (R225, R233, R235) -/

/-- A store of an iteration, held until the iteration has ended. -/
structure SlotStore where
  place : ElemPlace
  bytes : List Byte
  deriving DecidableEq, Repr

/-- How far an iteration has come: the slot's hart, its held stores, the places of its store streams. -/
structure Iter where
  x : Hart
  stores : List SlotStore
  streams : List (ElemPlace × Nat)
  deriving DecidableEq, Repr

/-- What an iteration comes to; a wait is for the line of an address. -/
inductive IterRes
  | ok (s : State) (t : Iter)
  | depart (s : State) (reason : Nat)
  | wait (pa : Nat)
  deriving DecidableEq, Repr

/-- Byte `i` of a place in the held stores, the youngest first. -/
def heldByte (l : List SlotStore) (p : ElemPlace) (i : Nat) : Option Byte :=
  l.foldl (fun r e =>
    let at_ := fun (a b : Nat) => if decide (b ≤ a + i) && decide (a + i < b + e.bytes.length) then
        some (getAt 0 e.bytes (a + i - b)) else r
    match p, e.place with
    | .g a _, .g b _ => at_ a b
    | .a c a, .a d b => if c = d then at_ a b else r
    | _, _ => r) none

/-- What an element read of a slot gives. -/
inductive SlotGot
  | val (v : Nat)
  | wait (pa : Nat)
  | fault
  deriving DecidableEq, Repr

/-- Reads an element for a slot: a read miss, or the marking core's bank, under its own held stores (R169, R233). -/
def State.slotRead (s : State) (t : Iter) (p : ElemPlace) (n : Nat) : SlotGot :=
  let merge := fun (bs : List Byte) => leNat ((List.range n).map fun i => match heldByte t.stores p i with
    | some b => b
    | none => getAt 0 bs i)
  match p with
  | .a c off => .val (merge ((s.core c).a.readN off n))
  | .g pa m =>
    if s.readHeld pa n then .wait pa
    else if poisoned s.bad pa n then .fault
    else .val (merge (s.modeBytes m pa n))
  | _ => .fault

/-- The loads of a VLD from element `i` on. -/
def State.slotLoads (s : State) (h : Nat) (ru : VRun) (v : VMem) (t : Iter) (i : Nat) : Nat → IterRes
  | 0 => .ok s t
  | n + 1 =>
    if !t.x.maskBit v.m.toNat i then State.slotLoads s h ru v t (i + 1) n
    else match s.locateElem h (ru.space v) .load (ru.addr t.x v i) v.t.bytes with
      | (s, .fault _) => .depart s 3
      | (s, .at_ p) => match s.slotRead t p v.t.bytes with
        | .wait pa => .wait pa
        | .fault => .depart s 3
        | .val w => State.slotLoads s h ru v { t with x := ru.put t.x v.d i v.t.bytes w } (i + 1) n

/-- The stores of a VST from element `i` on; the places of inactive elements belong to the stream too (R228). -/
def State.slotStores (s : State) (h : Nat) (ru : VRun) (v : VMem) (t : Iter) (i : Nat) : Nat → IterRes
  | 0 => .ok s t
  | n + 1 =>
    let act := t.x.maskBit v.m.toNat i
    match s.locateElem h (ru.space v) .store (ru.addr t.x v i) v.t.bytes with
    | (s', .fault _) => if act then .depart s' 3 else State.slotStores s h ru v t (i + 1) n
    | (s', .at_ p) =>
      let obj : Bool := match p with
        | .g pa _ => s.inPackObject pa v.t.bytes
        | _ => false
      let t1 := { t with streams := (p, v.t.bytes) :: t.streams }
      if !act then State.slotStores s h ru v t1 (i + 1) n
      else if obj || ru.bad t.x v.d i v.t.bytes then .depart s' 3
      else State.slotStores s' h ru v
        { t1 with stores := t.stores ++ [{ place := p, bytes := leBytes v.t.bytes (ru.val t.x v.d i v.t.bytes) }] } (i + 1) n

/-- One instruction of an iteration. -/
def State.slotInstr (s : State) (h : Nat) (t : Iter) (i : Instr) : IterRes :=
  let x := t.x
  let put := fun (y : Hart) => IterRes.ok s { t with x := y }
  match guardOf x i with
  | some (_, taken) => if taken then .depart s 1 else put x
  | none => match effScalar i (s.setHart h x) with
    | some (.ok u) => put (u.hart h)
    | some _ => .depart s 3
    | none => match i with
      | .setvl d a w =>
        let y := x.setVl d (x.rd a).toNat w.toNat
        if y.vl = x.vl then put y else .depart s 2
      | .vld v =>
        if x.vectorOk i then State.slotLoads (s.setHart h x) h (x.newRun (x.entry 0 i)) v t 0 x.vl else .depart s 3
      | .vst v =>
        if x.vectorOk i then State.slotStores (s.setHart h x) h (x.newRun (x.entry 0 i)) v t 0 x.vl else .depart s 3
      | i =>
        let ru := x.newRun (x.entry 0 i)
        if !x.vectorOk i || (ru.firstBad x 0 x.vl).isSome then .depart s 3 else put (ru.exec 0 x.vl x)

/-- The instructions of an iteration in order. -/
def State.slotInstrs (s : State) (h : Nat) (t : Iter) : List Instr → IterRes
  | [] => .ok s t
  | i :: is => match s.slotInstr h t i with
    | .ok s t => State.slotInstrs s h t is
    | r => r

/-- GUARD or TAIL: a guard that the iteration would take, else a SETVL that would yield a different VL (R228). Scalar
registers do not depend on what its vector instructions do, so that neither do these. -/
def State.scalarDepart (s : State) (h : Nat) (x : Hart) (tail : Bool) : List Instr → Option Nat
  | [] => if tail then some 2 else none
  | i :: is => match guardOf x i with
    | some (_, true) => some 1
    | some (_, false) => State.scalarDepart s h x tail is
    | none => match effScalar i (s.setHart h x) with
      | some (.ok u) => State.scalarDepart s h (u.hart h) tail is
      | _ => match i with
        | .setvl d a w =>
          let y := x.setVl d (x.rd a).toNat w.toNat
          State.scalarDepart s h y (tail || y.vl != x.vl) is
        | _ => State.scalarDepart s h x tail is

/-- Where a place stands among the addresses that writes are noted under. -/
def ElemPlace.key : ElemPlace → Nat
  | .g pa _ => pa
  | .a k off => aKey k off
  | .c off => 2 ^ 61 + off
  | .w off => 2 ^ 62 + off

/-- A write by another agent has reached a byte of the iteration's store streams (R228). -/
def Slot.conflict (t : Slot) (it : Iter) : Bool :=
  it.streams.any fun p => t.writes.any fun w => meet p.1.key p.2 w.1 w.2

/-- The next iteration of a slot: its hart with LOOPBR's decrement and its stores, or its departure for the first reason in
the table's order (R225, R228). The hart of the package is as before. -/
def State.iterate (s : State) (t : Slot) : IterRes :=
  let h := t.hart
  let s0 := { s.setHart h t.now with cur := h }
  let is := (getAt Iteration.empty t.mark.iters 2).words.flatMap instrsOf
  match s0.scalarDepart h t.now false is with
  | some r => .depart s r
  | none => match s0.slotInstrs h { x := t.now, stores := [], streams := [] } is with
  | .wait pa => .wait pa
  | .depart u r => .depart ({ u with cur := s.cur }.setHart h (s.hart h)) r
  | .ok u it =>
    let u := { u with cur := s.cur }.setHart h (s.hart h)
    let y := it.x.wr t.mark.creg (it.x.rd t.mark.creg - 1)
    if t.conflict it then .depart u 4
    else if t.reclaim || t.cancelled then .depart u 5
    else .ok u { it with x := { y with pc := t.mark.mpc + 8 } }

/-- N as a number of iterations. -/
def Slot.n (t : Slot) : Nat := t.mark.count.toNat

/-- A held store cannot be sent now. -/
def State.sendBlocked (s : State) (e : SlotStore) : Bool := match e.place with
  | .g pa _ => s.pageHeld pa || s.flipping pa || s.packHolds pa e.bytes.length || (s.hostBias pa && s.hostHolds pa)
  | _ => false

/-- A write that a pack holds, or a line that the host may hold, is noted or snooped. -/
def State.sendWait (s : State) (e : SlotStore) : Option State := match e.place with
  | .g pa _ =>
    if s.hostBias pa && s.hostHolds pa && !s.snooping pa then some (s.sendSnoop (pa / 64)) else s.noteHold pa e.bytes.length
  | _ => none

/-- Sends a held store under the slot's identity (R180, R225). -/
def State.sendStore (s : State) (d k : Nat) (e : SlotStore) : State := match e.place with
  | .g pa _ => s.homeWrite (some (.slot d k)) pa e.bytes
  | .a c off =>
    (s.modCore c fun x => { x with a := x.a.writeN off e.bytes }).noteWrite (some (d, k)) (aKey c off) e.bytes.length
  | _ => s

/-- MILLRACE_ITERATION: iteration k of a slot is executed, sent and performed (R225). -/
def State.slotIteration (s : State) (d k : Nat) : Option State :=
  match (s.die d).slot k with
  | none => none
  | some t =>
    if t.n ≤ t.k then none
    else match s.iterate t with
      | .ok u it =>
        match it.stores.find? (fun e => u.sendBlocked e) with
        | some e => u.sendWait e
        | none =>
          let u := it.stores.foldl (fun (w : State) e => w.sendStore d k e) u
          some (u.modDie d fun y => y.setSlot k ((y.slot k).map fun t => { t with now := it.x, k := t.k + 1 }))
      | .wait pa => if s.hostBias pa && s.hostHolds pa && !s.snooping pa then some (s.sendSnoop (pa / 64)) else none
      | .depart _ _ => none

/-- MILLRACE_ITERATION. -/
def execMillraceIteration (d k : Nat) (s : State) : Out := match s.slotIteration d k with
  | some t => event t
  | none => notEnabled "MILLRACE_ITERATION"

/-! ## Hand-back (R226, R227, R229, R230) -/

/-- Copies a vector register. -/
def Hart.copyVReg (x from_ : Hart) (r : Nat) : Hart :=
  let lo := r * 2 ^ 20
  let hi := (r + 1) * 2 ^ 20
  let inside := fun (c : Host.Cell) => decide (lo ≤ c.1) && decide (c.1 < hi)
  { x with v := ((from_.v.filter inside).foldl (fun (m : Memory) c => m.write c.1 c.2) (x.v.clear lo hi))
           vbad := (x.vbad.filter fun w => !(decide (lo ≤ 4 * w) && decide (4 * w < hi))) ++
             from_.vbad.filter fun w => decide (lo ≤ 4 * w) && decide (4 * w < hi)
           dirty := x.dirty ||| (1#64 <<< r) }

/-- Copies a vector register or a mask. -/
def Hart.copyV (x from_ : Hart) (r : Nat) : Hart :=
  if r < 64 then x.copyVReg from_ r else x.setMask (r - 64) (from_.mask (r - 64))

/-- Temporaries take their value after iteration 2 or after the last performed iteration; which one is a free choice of
the device, per register (R226, R229, log 5). -/
def mixV (now : Hart) : Nat → List Nat → Hart → Hart
  | _, [], x => x
  | n, r :: rs, x => mixV now (n + 1) rs (if Config.choice n then x.copyV now r else x)

/-- The same for scalar temporaries. -/
def mixS (now : Hart) : Nat → List Reg → Hart → Hart
  | _, [], x => x
  | n, r :: rs, x => mixS now (n + 1) rs (if Config.choice n then x.wr r (now.rd r) else x)

/-- The hart at hand-back in WAIT mode: carried registers exact, temporaries either way, flags of the replayed iterations. -/
def Slot.handBack (t : Slot) (fresh : Nat) (x : Hart) : Hart :=
  let tempS := t.writesS.filter fun r => !t.carried.contains r
  let tempV := t.writesV.filter fun r => !t.carriedV.contains r
  let y := mixV t.now (fresh + tempS.length) tempV (mixS t.now fresh tempS x)
  let y := t.carried.foldl (fun (y : Hart) r => y.wr r (t.now.rd r)) y
  let y := t.carriedV.foldl (fun (y : Hart) r => y.copyV t.now r) y
  { y.orFlags t.now.fflags with wait := none }

/-- Free choices a hand-back uses. -/
def Slot.choices (t : Slot) : Nat := t.writesS.length + t.writesV.length

/-- The mark of the hart ends, where it is still the slot's. -/
def Hart.closeMark (x : Hart) (t : Slot) (st : MarkState) (reason k : Nat) : Hart :=
  if x.mark.state == .replay && x.mark.num == t.mark.num && x.mark.mpc == t.mark.mpc then
    { x with mark := { x.mark with state := st, reason := reason, k := k, opened := false } }
  else x

/-- The hart takes the loop back in WAIT mode at an address. -/
def State.waitBack (s : State) (t : Slot) (st : MarkState) (reason : Nat) (pc : Word) : State :=
  let s := s.acquireFor t.hart
  let s := s.modHart t.hart fun x =>
    { (t.handBack s.fresh x).closeMark t st reason t.k with pc := pc, progress := s.gtime }
  { s with fresh := s.fresh + t.choices }

/-- REPLAY_COMPLETE: iteration N − 1 has been performed (R225, R226). -/
def State.replayDone (s : State) (d k : Nat) : Option State :=
  match (s.die d).slot k with
  | none => none
  | some t =>
    if t.k < t.n then none
    else
      let s := s.modDie d fun y => y.setSlot k none
      some (if t.mark.ahead then
          (s.modHart t.hart fun x => x.closeMark t .complete 0 t.k).endAhead t.hart t.mark.num t.now.fflags t.base.task
        else s.waitBack t .complete 0 (t.mark.brPc + 8))

/-- REPLAY_COMPLETE. -/
def execReplayComplete (d k : Nat) (s : State) : Out := match s.replayDone d k with
  | some t => event t
  | none => notEnabled "REPLAY_COMPLETE"

/-- Ascending order of register numbers, for CREG (log 23). -/
def insertReg (r : Reg) : List Reg → List Reg
  | [] => [r]
  | q :: qs => if r.toNat ≤ q.toNat then r :: q :: qs else q :: insertReg r qs

/-- Pads a list of bytes. -/
def padTo (n : Nat) (bs : List Byte) : List Byte := bs ++ List.replicate (n - bs.length) 0

/-- The loop record (R230). -/
def Slot.record (t : Slot) (reason : Nat) : List Byte :=
  let cs := t.carried.foldl (fun l r => insertReg r l) []
  leBytes 8 t.k ++ leBytes 1 reason ++ leBytes 1 cs.length ++ padTo 6 (cs.flatMap fun r => leBytes 1 r.toNat) ++
  padTo 48 (cs.flatMap fun r => leBytes 8 (t.now.rd r).toNat)

/-- The handler record of an AHEAD departure (R230). -/
def Slot.handlerRec (t : Slot) (k : Task) : TaskRec :=
  { code := t.mark.handler, frame := t.mark.frame, joinctr := 0, launch := k.rc.launch, mincl := k.rc.mincl
    prefcl := k.rc.mincl, prio := k.rc.prio, flags := 0, leash := 0, res38 := 0, arg0 := t.mark.lrec, arg1 := k.handle
    res56 := 0 }

/-- The loop record is written under the marking hart's translation, and not over a live pack object, which only its home writes
(R236). -/
def State.writeLoopRec (s : State) (t : Slot) (reason : Nat) : State :=
  match s.translate { core := t.core, priv := t.base.priv, satp := t.base.satp } .store t.mark.lrec with
  | (s, .ok pa _) =>
    if s.inPackObject pa (t.record reason).length then s.logDiscard (dieOf t.hart) t.base.prio t.mark.lrec
    else s.agentWrite none pa (t.record reason)
  | (s, .fault _) => s.logDiscard (dieOf t.hart) t.base.prio t.mark.lrec

/-- The handler of an AHEAD departure, or cause 11 (R230). On cancellation there is neither. -/
def State.aheadHandler (s : State) (t : Slot) : State :=
  let h := t.hart
  let done := fun (u : State) => u.endAhead h t.mark.num t.now.fflags t.base.task
  if t.cancelled then done s
  else match t.base.task with
    | none => done s
    | some k =>
      if t.mark.handler = 0 then
        done (s.lateFault h t.part (some k) { cause := 11, stval := t.mark.lrec, destKind := 0, destReg := 0 })
      else
        let x := { core := t.core, priv := .user, satp := t.base.satp : Ctx }
        let s := if k.rc.launch = 0 then s else s.levelAdd x k.rc.launch 1
        s.pushOrHold (dieOf h) { rc := t.handlerRec k, handle := t.mark.lrec, part := t.part, donecont := false
                                 handler := none, after := .tl2 h t.mark.num t.now.fflags t.base.task }

/-- The slot departs at iteration k (R228 to R230). -/
def State.leaveSlot (s : State) (d k : Nat) (t : Slot) (reason : Nat) : State :=
  let s := s.modDie d fun y => y.setSlot k none
  if t.mark.ahead then
    let s := s.modHart t.hart fun x => x.closeMark t .departed reason t.k
    (s.writeLoopRec t reason).aheadHandler t
  else s.waitBack t .departed reason (t.mark.mpc + 8)

/-- DEPARTURE: a condition of R228 holds at the slot's next iteration. -/
def State.departure (s : State) (d k : Nat) : Option State :=
  match (s.die d).slot k with
  | none => none
  | some t =>
    if t.n ≤ t.k then none
    else match s.iterate t with
      | .depart u r => some (u.leaveSlot d k t r)
      | .wait _ => if t.reclaim || t.cancelled then some (s.leaveSlot d k t 5) else none
      | .ok _ _ => none

/-- DEPARTURE. -/
def execDeparture (d k : Nat) (s : State) : Out := match s.departure d k with
  | some t => event t
  | none => notEnabled "DEPARTURE"

/-- The slots of a hart in WAIT mode are to depart: an interrupt, a pre-emption or a cancellation waits (R228, R234). -/
def State.recallSlots (s : State) (h : Nat) : State :=
  s.modDie (dieOf h) fun y => { y with slots := y.slots.map fun t => t.map fun u =>
    if u.hart = h && !u.mark.ahead then { u with reclaim := true } else u }

end Sys2Proof.Machine
end

