-- ==== Sys2Proof/Machine/System.lean ====
section
/-! DEFINITION. ECALL, ERET and ERET.kill (R261 to R263, R316), TLBINV (R197, R349), BIASSET (R278, R279), POISONCLR (R200,
R338), PMIG (R151, R152, R337). -/

namespace Sys2Proof.Machine

/-! ## ECALL (R257, R316) -/

/-- ECALL traps with SEPC after itself, once every older vector instruction has completed. A WHEN = 1 test of it stays due: it
has completed with its entry into the handler (R159; DEDUCED, log 67). -/
def execEcall (code : BitVec 24) (s : State) : Out :=
  if s.me.queueIdle then
    .next ((s.takeTrap s.cur false 9 (s.me.pc + 8) (zext64 code) s.me.iword).modHart s.cur fun x =>
      { x with brkAfter := s.me.brkAfter })
  else .next (s.markWait s.cur)

/-! ## ERET (R253, R260, R262) -/

/-- A vector instruction, which VSTART concerns. -/
def isVector : Instr → Bool
  | .mlogic .. | .mpopc .. | .mfirst .. | .vadds .. => true
  | i => (vargs i).isSome || (vmemOf i).isSome

/-- The word at the hart's SEPC as its task would fetch it. -/
def State.wordAtSepc (s : State) (h : Nat) : Except Nat Word :=
  ((s.modHart h fun x => { x with priv := if wbit x.sstatus 8 then .sup else .user }).fetchWord h (s.hart h).sepc).2

/-- VSTART after a return: kept where a vector instruction stands at SEPC, or where the word cannot be read yet. -/
def State.returnVstart (s : State) (h : Nat) : Nat := match s.wordAtSepc h with
  | .error _ => (s.hart h).vstart
  | .ok w => match instrsOf w with
    | [i] => if isVector i then (s.hart h).vstart else 0
    | _ => 0

/-- A stop of the task is held, or its ancestry holds a cancelled level (R91). -/
def State.stopHeld (s : State) (h : Nat) : State × Bool :=
  let x := s.hart h
  match x.task with
  | none => (s, false)
  | some t =>
    if x.stop = .cancelled then (s, true)
    else if x.chain then s.chainCancelled (s.partCtx (s.partOf h)) t.rc.launch t.handler.isSome
    else (s, false)

/-- The return to a member's region, or to its handler where an abort was held (R253). -/
def State.returnMember (s : State) (h : Nat) (m : Member) : Res :=
  let x := (s.hart h).returnTrap
  if m.restore then
    .jump ((s.setHart h { x.restoreCkpt m with chain := false }).packLeave m.obj h) m.handler
  else
    .jump (s.setHart h { x with pack := some { m with trapped := false, nested := 0 }, vstart := s.returnVstart h
                                chain := false }) x.pc

/-- The return to supervisor code: to a region that runs there, or within the handler of a trap from a region (R253, R262). -/
def State.returnSup (s : State) (h : Nat) : Res :=
  let x := s.hart h
  let plain := fun (p : Option Member) => Res.jump (s.setHart h { x.returnTrap with pack := p, vstart := s.returnVstart h }) x.sepc
  match x.pack with
  | some m =>
    if m.trapped && decide (0 < m.nested) then plain (some { m with nested := m.nested - 1 })
    else if m.trapped && m.sup then s.returnMember h m
    else plain (some m)
  | none => plain none

/-- ERET at supervisor privilege. DESIGN CHOICE (log 68): on a control-core hart without a task it makes the hart idle at user
privilege as R262 says, although control-core harts are otherwise always at supervisor privilege (R8). -/
def effEret (s : State) : Res :=
  let h := s.cur
  let x := s.me
  if wbit x.sstatus 9 then s.illegal
  else if wbit x.sstatus 8 then s.returnSup h
  else if x.task.isNone then .jump (s.modHart h Hart.goIdle) x.sepc
  else match s.stopHeld h with
    | (s, true) => .jump (s.endTask h .cancel) x.sepc
    | (s, false) => match x.pack with
      | some m => s.returnMember h m
      | none => .jump (s.setHart h { x.returnTrap with vstart := s.returnVstart h, chain := false }) x.sepc

def execEret (s : State) : Out := finish s (s.privOnly (effEret s))

/-! ## ERET.kill (R263) -/

/-- The fault record. -/
def State.faultRecord (s : State) (h : Nat) (t : Task) : List Byte :=
  let x := s.hart h
  leBytes 8 x.sepc.toNat ++ leBytes 8 x.trapWord.toNat ++ leBytes 8 x.stval.toNat ++ leBytes 1 (field x.scause 0 5) ++
  leBytes 1 x.trapDest.1 ++ leBytes 1 (if x.trapDest.1 = 0 || x.trapDest.1 = 4 then 0 else x.trapDest.2) ++ leBytes 1 0 ++
  leBytes 4 h ++ leBytes 8 t.handle.toNat ++ leBytes 8 t.rc.launch.toNat ++ leBytes 8 x.trapTime ++ leBytes 8 0

/-- What lets a blocked access go on: a snoop of the host, or a write's arrival at the home of a pack's line. None where that has
been done, or nothing of the kind holds it. -/
def State.unblocks (s : State) (pa n : Nat) (write : Bool) : Option State :=
  match (linesOf pa n).find? fun a => s.hostBias a && s.hostHolds a && !s.snooping a with
  | some a => some (s.sendSnoop (a / 64))
  | none => if write then s.noteHold pa n else none

/-- The state in which a blocked write waits. -/
def State.unblock (s : State) (pa n : Nat) : State := (s.unblocks pa n true).getD s

/-- ERET.kill. -/
def effEretKill (a : Reg) (s : State) : Res :=
  let h := s.cur
  let va := s.me.rd a
  match s.me.task with
  | none => s.illegal
  | some t =>
    if va.toNat % 64 ≠ 0 then .trap s 3 va
    else match s.translate (s.ctx h) .store va with
      | (s, .fault c) => .trap s c va
      | (s, .ok pa _) =>
        if s.inPackObject pa 64 then .trap s 5 va
        else
          let s := s.agentWrite none pa (s.faultRecord h t)
          .jump (s.endTask h (.fault va)) s.me.sepc

def execEretKill (a : Reg) (s : State) : Out := finish s (s.privOnly (effEretKill a s))

/-! ## TLBINV (R197) -/

/-- The length that marks the ASID form: no range has it. -/
def asidForm : Nat := 2 ^ 64

/-- The invalidation matches an entry. -/
def Inval.hits (v : Inval) (t : TlbEntry) : Bool :=
  v.all || (if v.len = asidForm then !t.g && v.asid == some t.asid
    else (t.g || v.asid == some t.asid) && meet (t.vpn * t.size) t.size (v.base % 2 ^ 57) v.len)

/-- Takes the next number of the die's invalidation timeline. -/
def State.invalidate (s : State) (d : Reg) (base len : Nat) (asid : Option (BitVec 16)) (all : Bool) : Res :=
  let die := dieOf s.cur
  let n := (s.die die).invIssued + 1
  let v : Inval := { num := n, base := base, len := len, asid := asid, all := all }
  .ok ((s.modDie die fun x => { x with invIssued := n, invals := x.invals ++ [v] }).result d (BitVec.ofNat 64 n))

/-- TLBINV.va. -/
def effTlbinvVa (d a b c : Reg) (s : State) : Res :=
  let base := s.me.rd a
  let len := s.me.rd b
  let asid := s.me.rd c
  if 65536 ≤ asid.toNat then s.illegal
  else if base.toNat % 4096 ≠ 0 then .trap s 3 base
  else if len.toNat % 4096 ≠ 0 then .trap s 3 len
  else s.invalidate d base.toNat len.toNat (some (asid.setWidth 16)) false

/-- TLBINV.asid. -/
def effTlbinvAsid (d c : Reg) (s : State) : Res :=
  let asid := s.me.rd c
  if 65536 ≤ asid.toNat then s.illegal else s.invalidate d 0 asidForm (some (asid.setWidth 16)) false

/-- TLBINV.all. -/
def effTlbinvAll (d : Reg) (s : State) : Res := s.invalidate d 0 0 none true

/-- TLBINV.wait. -/
def effTlbinvWait (d b : Reg) (s : State) : Res :=
  let x := s.die (dieOf s.cur)
  let n := (s.me.rd b).toNat
  if x.invIssued < n then .ok (s.result d (BitVec.ofNat 64 x.invDone))
  else if n ≤ x.invDone then .ok ((s.acquireFor s.cur).result d (BitVec.ofNat 64 x.invDone))
  else .stall s

def execTlbinvVa (d a b c : Reg) (s : State) : Out := finish s (s.privOnly (effTlbinvVa d a b c s))
def execTlbinvAsid (d c : Reg) (s : State) : Out := finish s (s.privOnly (effTlbinvAsid d c s))
def execTlbinvAll (d : Reg) (s : State) : Out := finish s (s.privOnly (effTlbinvAll d s))
def execTlbinvWait (d b : Reg) (s : State) : Out := finish s (s.privOnly (effTlbinvWait d b s))

/-- The TLB entries that the invalidation drops. -/
def State.dropped (s : State) (v : Inval) : List TlbEntry :=
  (s.cores.flatMap fun c => (c.tlb.map fun e => e.2).filter v.hits) ++ s.dies.flatMap fun d => d.l2tlb.filter v.hits

/-- An address lies in the range, or in the page of an entry that the invalidation drops: it may have been translated through
that (R197). -/
def Inval.touches (v : Inval) (gone : List TlbEntry) (va : Word) : Bool :=
  v.all || v.len == asidForm || meet (va.toNat % 2 ^ 57) 64 (v.base % 2 ^ 57) v.len ||
    gone.any fun t => t.vpn == va.toNat % 2 ^ 57 / t.size

/-- An element access of G-space, as virtual and physical address. -/
def Elem.access (e : Elem) : Option (Word × Nat) := match e.place with
  | .g pa _ => some (e.va, pa)
  | _ => none

/-- Accesses on their way, as virtual and physical address. -/
def State.onTheWay (s : State) : List (Word × Nat) :=
  s.harts.flatMap (fun x =>
    (x.sbuf.map fun e => (e.va, e.pa)) ++ (x.tents.map fun t => (t.va, t.pa)) ++
    (x.elems ++ (x.linked.getD []) ++ (match x.run with
      | some ru => ru.outs
      | none => [])).filterMap Elem.access) ++
  (s.regs.map fun r => (BitVec.ofNat 64 (64 * r.vline), 4 * r.w)) ++
  s.atoms.filterMap fun a => match a.place with
    | .phys pa => some (a.va, pa)
    | _ => none

/-- Entries that the invalidation matches leave every TLB of the package. -/
def State.dropEntries (s : State) (v : Inval) : State :=
  { s with cores := s.cores.map fun c => { c with tlb := c.tlb.filter fun e => !v.hits e.2 }
           dies := s.dies.map fun d => { d with l2tlb := d.l2tlb.filter fun e => !v.hits e } }

/-- TLBINV_COMPLETE: the oldest invalidation of a die completes, once no access translated before is on its way; stores
held by a page move stay held (R152, R197). -/
def State.completeInval (s : State) (d : Nat) : Option State :=
  match (s.die d).invals with
  | [] => none
  | v :: rest =>
    let gone := s.dropped v
    if s.onTheWay.any fun p => v.touches gone p.1 && !s.pageHeld p.2 then none
    else some ((s.dropEntries v).modDie d fun x => { x with invals := rest, invDone := v.num })

/-- TLBINV_COMPLETE. -/
def execTlbinvComplete (d : Nat) (s : State) : Out := match s.completeInval d with
  | some t => event t
  | none => notEnabled "TLBINV_COMPLETE"

/-! ## BIASSET (R278, R279) -/

/-- A page of L1 copies is given up: Registered words go to memory, Valid words and untracked lines leave. -/
def State.flushPage (s : State) (pa : Nat) : State :=
  let inside := fun (w : Nat) => decide (pa ≤ 4 * w) && decide (4 * w < pa + 4096)
  let s := s.recallRange pa 4096
  let s := (List.range 136).foldl (fun (t : State) c =>
    (((t.core c).ul1.filter fun u => decide (pa / 64 ≤ u.line) && decide (u.line < pa / 64 + 64)).foldl
      (fun (u : State) l => (u.cleanLine c l.line).dropLine c l.line) t)) s
  { s with cores := s.cores.map fun c => { c with l1 := c.l1.filter fun w => !inside w.w } }

/-- The lines of a page that the host may hold. -/
def State.pageHostLines (s : State) (pa : Nat) : List Nat :=
  s.hostLines.filter fun l => decide (pa / 64 ≤ l) && decide (l < pa / 64 + 64)

/-- What one page of a BIASSET comes to: done, with the number of flips, or still waiting. -/
inductive PageFlip
  | done (s : State) (n : Nat)
  | wait (s : State)
  deriving DecidableEq, Repr

/-- One page to host bias. -/
def State.flipHost (s : State) (pa : Nat) : PageFlip :=
  if s.hostBias pa then .done s 0
  else if s.packHolds pa 4096 then .wait (s.unblock pa 4096)
  else .done { s.flushPage pa with bias := pa / 4096 :: s.bias } 1

/-- One page to device bias: held while the host's lines are snooped; the flip sends its own snoops (R279). -/
def State.flipDev (s : State) (pa : Nat) : PageFlip :=
  if !s.hostBias pa then .done s 0
  else if s.packHolds pa 4096 then .wait (s.unblock pa 4096)
  else match s.pageHostLines pa with
    | [] => .done { s with bias := s.bias.filter (fun p => p != pa / 4096)
                           flips := s.flips.filter (fun p => p != pa / 4096) }.cleanHolds 1
    | ls =>
      let s := if s.flips.contains (pa / 4096) then s
        else { s with snoops := s.snoops.filter fun n => n.line / 64 != pa / 4096 }
      let t := ls.foldl State.sendSnoop s
      .wait { t with flips := if t.flips.contains (pa / 4096) then t.flips else pa / 4096 :: t.flips }

/-- The instruction goes on at a stage by itself: nothing has to happen first. -/
def State.againAt (s : State) (stage arg : Nat) : Res :=
  .stall (s.modHart s.cur fun x => { x with wait := some { kind := .retry, epoch := s.epoch, deadline := none
                                                           expired := true, stage := stage, arg := arg } })

/-- One page after the other in increasing address order: page `i` with `k` flips made, `n` pages left. Stage and argument keep
where it stands; between two pages an interrupt can be taken (R279). -/
def State.flipPages (s : State) (d : Reg) (dev : Bool) (base i k n : Nat) : Res :=
  if n = 0 then .ok (s.happen.result d (BitVec.ofNat 64 k))
  else
    match (if dev then s.flipDev (base + 4096 * i) else s.flipHost (base + 4096 * i)) with
    | .done t j => if n = 1 then .ok (t.happen.result d (BitVec.ofNat 64 (k + j))) else t.happen.againAt (i + 1) (k + j)
    | .wait t => t.stallAt i k

/-- BIASSET. -/
def effBiasset (dev : Bool) (d a b : Reg) (s : State) : Res :=
  let base := s.me.rd a
  let len := s.me.rd b
  if base.toNat % 4096 ≠ 0 then .trap s 3 base
  else if len.toNat % 4096 ≠ 0 then .trap s 3 len
  else if len = 0 then .ok (s.result d 0)
  else if Config.deviceBytes < base.toNat + len.toNat then
    .trap s 5 (BitVec.ofNat 64 (max base.toNat Config.deviceBytes))
  else s.flipPages d dev base.toNat s.me.stage (if s.me.stage = 0 then 0 else s.me.waitArg) (len.toNat / 4096 - s.me.stage)

def execBiassetHost (d a b : Reg) (s : State) : Out := finish s (s.privOnly (effBiasset false d a b s))
def execBiassetDev (d a b : Reg) (s : State) : Out := finish s (s.privOnly (effBiasset true d a b s))

/-! ## POISONCLR (R200, R338) -/

/-- Writes zeros to [pa, pa + k) of one page; what the core itself holds of them goes with them (R200). -/
def State.clearPage (s : State) (pa k : Nat) : State :=
  ((s.agentWrite none pa (List.replicate k 0)).dropValid (coreOf s.cur) pa k).modCore (coreOf s.cur) fun c => c.zeroLines pa k

/-- Writes zeros page by page: `off` bytes are done, of `len`. Between two pages an interrupt can be taken (R338). -/
def State.clearPages (s : State) (base : Word) (len off : Nat) : Res :=
  let va := base + BitVec.ofNat 64 off
  let k := min (len - off) (4096 - va.toNat % 4096)
  if k = 0 then .ok s.happen
  else match s.translate (s.ctx s.cur) .store va with
    | (s, .fault c) => .trap s c va
    | (s, .ok pa _) =>
      if s.inPackObject pa k then .trap s 5 va
      else if off + k = len then .ok (s.clearPage pa k).happen
      else (s.clearPage pa k).happen.againAt 1 (off + k)

/-- POISONCLR. -/
def effPoisonclr (a b : Reg) (s : State) : Res :=
  let base := s.me.rd a
  let len := s.me.rd b
  if 2 ^ 40 < len.toNat then s.illegal
  else if base.toNat % 4 ≠ 0 then .trap s 3 base
  else if len.toNat % 4 ≠ 0 then .trap s 3 len
  else if !s.released s.cur .pkg then .stall s
  else s.clearPages base len.toNat (if s.me.stage = 1 then s.me.waitArg else 0)

def execPoisonclr (a b : Reg) (s : State) : Out := finish s (s.privOnly (effPoisonclr a b s))

/-! ## PMIG (R151, R152, R337) -/

/-- A frame of `n` bytes lies in one of the tiers. -/
def frameOk (pa n : Nat) : Bool := paValid pa && paValid (pa + n - 1)

/-- Copies byte `i` and on of a frame; a poisoned word stays poisoned. -/
def State.copyFrame (s : State) (src dst n : Nat) : State :=
  let bad := (s.bad.filter fun w => decide (src ≤ 4 * w) && decide (4 * w < src + n)).map fun w => (4 * w - src + dst) / 4
  let s := (s.lookAt src n).agentWrite none dst (s.homeBytes src n)
  { s with bad := bad.foldl addWord s.bad }

/-- An abandoned move leaves any mix of old and copied bytes: a free choice for each (log 5). -/
def State.mixFrame (s : State) (src dst : Nat) (bs : List Byte) : State :=
  ((List.range bs.length).foldl (fun (t : State) i =>
    if Config.choice (s.fresh + i) then t.agentWrite none (dst + i) [getAt 0 bs i] else t) s)

/-- A pass that an interrupt ends: each byte of the destination that nothing holds is an old or a copied one (log 5). -/
def State.mixPass (s : State) (src dst n : Nat) : State :=
  { (List.range n).foldl (fun (t : State) i =>
      if Config.choice (s.fresh + i) && !t.writeHeld (dst + i) 1 then t.homeWrite none (dst + i) [s.homeByte (src + i)] else t) s with
    fresh := s.fresh + n }

/-- Starts a pass: the filter watches the source. -/
def State.startPass (s : State) (src n pass : Nat) : Res :=
  let f : Filter := { hart := s.cur, src := src, bytes := n, dirty := false }
  ({ s with filters := f :: s.filters.filter fun g => g.hart != s.cur } : State).happen.stallAt pass 0

/-- A pass ends: clean, it opens the hold; dirty, the next one starts, or the fifth abandons the move. -/
def State.endPass (s : State) (d : Reg) (src dst n pass : Nat) : Res :=
  let dirty := s.filters.any fun f => f.hart == s.cur && f.dirty
  let gone := { s with filters := s.filters.filter fun f => f.hart != s.cur }
  if !dirty then
    .ok (({ gone.copyFrame src dst n with holds := s.holds ++ [{ src := src, dst := dst, bytes := n }] } : State).result d 0)
  else if pass < 5 then gone.startPass src n (pass + 1)
  else .ok (({ gone.mixFrame src dst (s.homeBytes src n) with fresh := s.fresh + n }).result d 1)

/-- PMIG.p4k and PMIG.p2m. DESIGN CHOICE (log 67): a move to a page that is held itself, or to lines that a pack holds, waits
at the end of its pass for them. -/
def effPmig (n : Nat) (d a b : Reg) (s : State) : Res :=
  let src := s.me.rd a
  let dst := s.me.rd b
  if src.toNat % n ≠ 0 then .trap s 3 src
  else if dst.toNat % n ≠ 0 then .trap s 3 dst
  else if !frameOk src.toNat n then .trap s 5 src
  else if !frameOk dst.toNat n then .trap s 5 dst
  else if Config.maxHolds ≤ s.holds.length then
    .ok (({ s with filters := s.filters.filter fun f => f.hart != s.cur }).result d 3)
  else if s.me.stage = 0 then s.startPass src.toNat n 1
  else if s.pageHeld dst.toNat then .stall s
  else s.endPass d src.toNat dst.toNat n s.me.stage

/-- A physical address of a moved page, on its destination frame. -/
def Hold.moves (k : Hold) (pa : Nat) : Nat := if k.src ≤ pa && decide (pa < k.src + k.bytes) then pa - k.src + k.dst else pa

/-- A registration on the destination frame. -/
def Registration.move (r : Registration) (k : Hold) : Registration := { r with w := k.moves (4 * r.w) / 4 }

/-- A place on the destination frame. -/
def ElemPlace.move (p : ElemPlace) (k : Hold) : ElemPlace := match p with
  | .g pa m => .g (k.moves pa) m
  | q => q

/-- An atomic on the destination frame. -/
def Atomic.move (a : Atomic) (k : Hold) : Atomic := { a with place := match a.place with
  | .phys pa => .phys (k.moves pa)
  | q => q }

/-- A pack on the destination frame, with its home there. -/
def Pack.move (s : State) (k : Hold) (p : Pack) : Pack :=
  { p with pa := k.moves p.pa, die := s.homeDie (k.moves p.pa), tent := p.tent.map fun c => (k.moves c.1, c.2)
           reads := p.reads.map fun w => k.moves (4 * w) / 4 }

/-- An element access on the destination frame. -/
def Elem.move (k : Hold) (e : Elem) : Elem := { e with place := e.place.move k, pack := e.pack.map k.moves }

/-- Accesses through stale translations that are on their way go to the destination frame, and so do the packs and their
lines. -/
def State.redirect (s : State) (k : Hold) : State :=
  { s with
    harts := s.harts.map fun x =>
      { x with sbuf := x.sbuf.map fun e => { e with pa := k.moves e.pa }
               elems := x.elems.map (Elem.move k), linked := x.linked.map fun es => es.map (Elem.move k)
               run := x.run.map fun ru => { ru with outs := ru.outs.map (Elem.move k) }
               pack := x.pack.map fun m => { m with obj := k.moves m.obj }
               tents := x.tents.map fun t => { t with pa := k.moves t.pa } }
    regs := s.regs.map fun r => r.move k
    atoms := s.atoms.map fun a => a.move k
    packs := s.packs.map (Pack.move s k) }

/-- The objects of packs on a moved page name their new home. -/
def State.rewriteObjects (s : State) (k : Hold) : State :=
  (s.packs.filter fun p => decide (k.dst ≤ p.pa) && decide (p.pa < k.dst + k.bytes)).foldl
    (fun (t : State) p => t.setPack p) s

/-- A write held at the homes of a page being moved: its place in its list. -/
inductive HeldRef
  | reg (i : Nat)
  | put (i : Nat)
  | atom (i : Nat)
  deriving DecidableEq, Repr

/-- The writes that a hold keeps at its homes, with their arrival (R151). -/
def State.heldBy (s : State) (k : Hold) : List (Nat × HeldRef) :=
  let moved := fun (pa : Nat) => k.moves pa != pa
  (s.regs.zipIdx.filterMap fun p => if moved (4 * p.1.w) then p.1.arrived.map fun t => (t, HeldRef.reg p.2) else none) ++
  (s.heldPuts.zipIdx.filterMap fun p => if moved p.1.pa then some (p.1.arrived, HeldRef.put p.2) else none) ++
  s.atoms.zipIdx.filterMap fun p => match p.1.place with
    | .phys pa => if moved pa then p.1.arrived.map fun t => (t, HeldRef.atom p.2) else none
    | .aspace _ _ => none

/-- The earliest arrival. -/
def earliest : List (Nat × HeldRef) → Option (Nat × HeldRef)
  | [] => none
  | a :: as => match earliest as with
    | some b => if b.1 < a.1 then some b else some a
    | none => some a

/-- A held write is performed on the destination frame. -/
def State.performAt (s : State) (k : Hold) : HeldRef → State
  | .reg i => match s.regs[i]? with
    | none => s
    | some r =>
      let s := s.modCore r.core fun c => r.words.foldl Core.l1drop c
      ({ s with regs := s.regs.eraseIdx i }).recordReg (r.move k) (s.regs.drop (i + 1))
  | .put i => match s.heldPuts[i]? with
    | none => s
    | some p =>
      let t := HeldPut.perform { p with pa := k.moves p.pa } { s with heldPuts := s.heldPuts.eraseIdx i }
      if p.src = .response then t.endSnoop (p.pa / 64) else t
  | .atom i => match s.atoms[i]? with
    | none => s
    | some a =>
      let s := { s with atoms := s.atoms.set i (a.move k) }
      (s.stepAtomic i).getD s

/-- Performs the held writes on the destination frame in arrival order; at most `n`. -/
def State.performHeld (s : State) (k : Hold) : Nat → State
  | 0 => s
  | n + 1 => match earliest (s.heldBy k) with
    | none => s
    | some (_, r) => State.performHeld (s.performAt k r) k n

/-- PMIG.rel (R151). DESIGN CHOICE (log 67): its frame is checked as one of 4 KiB, the rule naming no page size for it. -/
def effPmigRel (d a _b : Reg) (s : State) : Res :=
  let src := s.me.rd a
  if src.toNat % 4096 ≠ 0 then .trap s 3 src
  else if !frameOk src.toNat 4096 then .trap s 5 src
  else match s.holds.find? fun k => k.src == src.toNat with
    | none => .ok (s.result d 2)
    | some k =>
      let s := (s.performHeld k (s.regs.length + s.heldPuts.length + s.atoms.length)).redirect k
      let s := s.rewriteObjects k
      .ok ((({ s with holds := s.holds.filter fun q => q.src != k.src }).happen).result d 0)

def execPmigP4k (d a b : Reg) (s : State) : Out := finish s (s.privOnly (effPmig 4096 d a b s))
def execPmigP2m (d a b : Reg) (s : State) : Out := finish s (s.privOnly (effPmig (2 * 1024 * 1024) d a b s))
def execPmigRel (d a b : Reg) (s : State) : Out := finish s (s.privOnly (effPmigRel d a b s))

end Sys2Proof.Machine
end

