-- ==== Sys2Proof/Machine/Context.lean ====
section
/-! DEFINITION. CTXSAVE and CTXLOAD (R63, R70, R215, R265 to R270, R387). -/

namespace Sys2Proof.Machine

/-! ## The save area as pieces (R266) -/

/-- Cuts bytes at an offset of the area into pieces that each lie in one page; at most `k` pieces. -/
def cutPages : Nat → Nat → List Byte → List (Nat × List Byte)
  | 0, _, _ => []
  | k + 1, off, bs =>
    if bs.isEmpty then []
    else
      let n := 4096 - off % 4096
      (off, bs.take n) :: cutPages k (off + n) (bs.drop n)

/-- All pieces of some bytes. -/
def pagePieces (off : Nat) (bs : List Byte) : List (Nat × List Byte) := cutPages (bs.length / 4096 + 2) off bs

/-- Offset of the slot of v (R266). -/
def slotOff (c nvreg v : Nat) : Nat := 118784 + v * (65536 * c / nvreg)

/-- The area's offset of mask i. -/
def maskOff (i : Nat) : Nat := 4096 + 16384 * (i - 1)

/-- The user's scalar registers: s56 to s63 from the bank (R266). -/
def Hart.userRegs (x : Hart) : List Word := if x.swapped then x.s.take 56 ++ x.shadow else x.s

/-- The membership from whose region the trap at user privilege was taken (R253, R265). -/
def Hart.trappedMember (x : Hart) : Option Member := x.pack.filter fun m => m.trapped && !m.sup

/-- The image of a task: the checkpoint's registers and handler where a pack aborts (R265 step 4). -/
def Hart.savedRegs (x : Hart) : List Word × Word × Nat := match x.trappedMember with
  | some m => (m.ckpt, m.handler, 0)
  | none => (x.userRegs, x.sepc, x.vstart)

/-- Bytes of a word. -/
def wordBytes (v : Word) : List Byte := leBytes 8 v.toNat

/-- A stream entry: the descriptor, REG and POS. -/
def VStream.bytes (t : VStream) : List Byte :=
  wordBytes t.base ++ wordBytes t.stride0 ++ wordBytes t.stride1 ++ leBytes 4 t.count0 ++ leBytes 4 t.count1 ++
  leBytes 1 t.space ++ leBytes 1 (Ty.toBits t.ty).toNat ++ leBytes 1 (b2n t.store) ++ leBytes 29 0 ++
  leBytes 8 (t.reg.toNat + 128) ++ leBytes 8 t.pos

/-- A landing entry (R266). -/
def LandTag.bytes_ (t : LandTag) (off : Nat) : List Byte :=
  leBytes 1 t.reg.toNat ++ leBytes 1 (1 + 2 * b2n (t.row && !t.came)) ++ leBytes 1 t.mask.toNat ++ leBytes 1 0 ++
  leBytes 4 t.vl ++ leBytes 8 off

/-- The landing entries and their data, from a data offset on. -/
def landImage : Nat → List (Option LandTag) → List Byte × List Byte
  | _, [] => ([], [])
  | off, none :: ts =>
    let r := landImage off ts
    (List.replicate 16 0 ++ r.1, r.2)
  | off, some t :: ts =>
    let r := landImage (off + t.bytes) ts
    (t.bytes_ off ++ r.1, padTo t.bytes (t.data.take t.bytes) ++ r.2)

/-- A withdrawn row (R387). -/
def Row.bytes (r : Row) : List Byte :=
  let dest := match r.dest with
    | .c off => off
    | .v reg tag => reg.toNat + 256 * tag
  let v := match r.dest with
    | .c _ => 0
    | .v _ _ => 1
  padTo 4096 (wordBytes r.desc ++ leBytes 8 dest ++ leBytes 8 r.num ++
    leBytes 8 (r.afmt + 4 * b2n r.z + 8 * v + 2 ^ 16 * r.leash + 2 ^ 28 * r.prio) ++ leBytes 32 0 ++ r.data)

/-- VALIDMAP after a save (R267): `old` is the map in the area, `same` whether it is the area of the last CTXLOAD. -/
def Hart.validMap (x : Hart) (same : Bool) (old : BitVec 64) : BitVec 64 :=
  if same then x.dirty ||| (old &&& ~~~x.dirty) else x.dirty ||| x.restored

/-- The registers whose slots are written (R267). -/
def Hart.slotsWritten (x : Hart) (same : Bool) : List Nat :=
  (List.range x.nvreg).filter fun v => x.dirty.getLsbD v || (!same && x.restored.getLsbD v)

/-- The first 4,096 bytes of the area. -/
def State.areaHead (s : State) (h : Nat) (t : Task) (map : BitVec 64) : List Byte :=
  let x := s.hart h
  let (regs, sepc, vstart) := x.savedRegs
  wordBytes 1 ++ wordBytes sepc ++ leBytes 8 vstart ++ wordBytes x.trapStatus ++
  ((regs.drop 1).take 63).flatMap wordBytes ++
  (([x.vl, x.vew, x.nvreg, x.mt, x.sb.toNat, x.seed.toNat, x.frm.toNat, x.fflags.toNat, x.atflags.toNat, x.mleash, x.prio,
    x.mark.word.toNat] : List Nat).flatMap (leBytes 8)) ++
  leBytes 8 (x.c + 256 * t.rc.mincl.toNat + 65536 * t.rc.prefcl.toNat) ++
  ((List.range 4).flatMap fun i => wordBytes (getAt 0 x.w i)) ++
  ((List.range 4).flatMap fun k => leBytes 8 (x.tline k).issued ++ leBytes 8 (x.tline k).done) ++
  padTo 640 (x.streams.flatMap VStream.bytes) ++
  padTo 256 (landImage 0 (x.landing.take 16)).1 ++
  leBytes 8 x.saved.length ++ leBytes 8 map.toNat ++ leBytes 8 (coreOf h) ++ wordBytes t.handle ++ t.rc.toBytes ++
  leBytes 2368 0

/-- Everything CTXSAVE writes, as offsets and bytes. -/
def State.areaImage (s : State) (h : Nat) (t : Task) (same : Bool) (old : BitVec 64) : List (Nat × List Byte) :=
  let x := s.hart h
  [(0, s.areaHead h t (x.validMap same old))] ++
  ((List.range 7).map fun i =>
    (maskOff (i + 1), (List.range ((x.mvl + 7) / 8)).map fun b => ((x.mask (i + 1)) >>> (8 * b)).setWidth 8)) ++
  ((x.slotsWritten same).map fun v =>
    (slotOff x.c x.nvreg v, x.v.readN (vaddr (BitVec.ofNat 6 v) 0) (x.vl * (x.vew / 8)))) ++
  [(1167360, (landImage 0 (x.landing.take 16)).2)] ++
  (List.range x.saved.length).filterMap fun i => (x.saved[i]?).map fun r => (1429504 + 4096 * i, r.bytes)

/-- Offsets of the poisoned words of the slots written (R267). -/
def Hart.badOffsets (x : Hart) (same : Bool) : List Nat :=
  (x.slotsWritten same).flatMap fun v =>
    let lo := vaddr (BitVec.ofNat 6 v) 0
    (x.vbad.filter fun w => decide (lo ≤ 4 * w) && decide (4 * w < lo + x.vl * (x.vew / 8))).map fun w =>
      slotOff x.c x.nvreg v + (4 * w - lo)

/-- A piece of the area in physical memory, with its page's mode. -/
structure Piece where
  pa : Nat
  pbmt : BitVec 2
  bytes : List Byte
  deriving DecidableEq, Repr

/-- The first byte of [pa, pa + n) that lies in a live pack object, which no store may reach (R236). -/
def State.firstInObject (s : State) (pa n : Nat) : Option Nat :=
  (s.packs.find? fun p => meet p.pa 64 pa n).map fun p => p.pa - pa

/-- Where the pieces of the area lie: the physical pieces, or the first fault. -/
def State.placePieces (s : State) (x : Ctx) (acc : Acc) (va : Word) :
    List (Nat × List Byte) → State × Except (Nat × Word) (List Piece)
  | [] => (s, .ok [])
  | p :: ps =>
    let a := va + BitVec.ofNat 64 p.1
    match s.translate x acc a with
    | (s, .fault c) => (s, .error (c, a))
    | (s, .ok pa m) => match (if acc = .store then s.firstInObject pa p.2.length else none) with
      | some o => (s, .error (5, a + BitVec.ofNat 64 o))
      | none => match State.placePieces s x acc va ps with
        | (s, .ok l) => (s, .ok ({ pa := pa, pbmt := m, bytes := p.2 } :: l))
        | r => r

/-- Marks poisoned memory words at offsets of the area. -/
def State.poisonArea (s : State) (x : Ctx) (va : Word) (offs : List Nat) : State :=
  offs.foldl (fun (t : State) o => match t.translate x .store (va + BitVec.ofNat 64 o) with
    | (t, .ok pa _) => { t with bad := addWord t.bad (pa / 4) }
    | (t, .fault _) => t) s

/-! ## CTXSAVE (R265) -/

/-- Steps 1 and 3 at the start: the rows are withdrawn, the loops in AHEAD mode count as left (log 22). -/
def State.beginSave (s : State) (h : Nat) : State :=
  match s.withdrawRows h with
  | (s, rows) => s.modHart h fun x =>
      { x with saved := x.saved ++ rows, aheads := x.aheads.map fun a => { a with exited := true } }

/-- Step 2: every other command has completed, every landing transfer too. -/
def Hart.saveReady (x : Hart) : Bool :=
  let nums := x.saved.map fun r => r.num
  (List.range 4).all (fun k =>
    let t := x.tline k
    (List.range (t.issued - t.done)).all fun i =>
      let n := t.done + 1 + i
      t.above.contains n || (k == 1 && nums.contains n)) &&
  x.landing.all fun t => match t with
    | none => true
    | some u => u.done || (u.row && !u.discard && nums.contains u.num)

/-- Step 4: a pack that has not committed aborts with code 4; the membership ends once the image is written. -/
def State.leavePack (s : State) (h : Nat) : State := match (s.hart h).trappedMember with
  | none => s
  | some m => ((s.abortPack m.obj 4).packLeave m.obj h).modHart h fun x => { x with pack := none, tents := [] }

/-- A pack past its commit instant is no cause of an abort: the image is the state at the trap. -/
def State.passedCommit (s : State) (h : Nat) : State := match (s.hart h).trappedMember with
  | none => s
  | some m => match s.pack? m.obj with
    | some p => if p.state = .committing then
        (s.packLeave m.obj h).modHart h fun x => { x with pack := none, tents := [] } else s
    | none => s

/-- Steps 5 and 6 once the area is written. -/
def State.endSave (s : State) (h : Nat) (t : Task) : State :=
  let s := (s.leavePack h).releaseLease h
  let s : State := { s with parked := s.parked ++ [{ task := t, pend := (s.hart h).pend, landing := (s.hart h).landing }] }
  (s.modHart h fun x => { x with task := none, pend := [], stop := .none, streams := [], landing := List.replicate 16 none
                                 saved := [], mark := Mark.reset, aheads := [] }).happen

/-- The map in the area, which matters where its clean slots are kept (R267). -/
def State.oldMap (s : State) (h : Nat) (va : Word) : State × Got :=
  if (s.hart h).ctxArea == some va then s.agentRead (s.ctx h) (va + 1640) 8 else (s, .ok [])

/-- Writes the area: all of its pages first translate and take writes. A fault leaves the hart's state, its membership of a pack
included, as it is (R265). -/
def State.writeArea (s : State) (h : Nat) (t : Task) (va : Word) (d : Reg) : Res :=
  let x := s.ctx h
  let same := (s.hart h).ctxArea == some va
  match s.oldMap h va with
  | (s, .fault c) => .trap s c (va + 1640)
  | (s, .ok old) =>
    let ps := ((s.passedCommit h).areaImage h t same (BitVec.ofNat 64 (leNat old))).flatMap fun p => pagePieces p.1 p.2
    match s.placePieces x .store va ps with
    | (s, .error e) => .trap s e.1 e.2
    | (s, .ok l) =>
      match l.find? fun p => s.writeHeld p.pa p.bytes.length with
      | some p => .stall (s.unblock p.pa p.bytes.length)
      | none =>
        let bad := (s.hart h).badOffsets same
        let s := l.foldl (fun (u : State) p => (u.homeWrite none p.pa p.bytes).dropValid (coreOf h) p.pa p.bytes.length)
          (s.passedCommit h)
        .ok (((s.poisonArea x va bad).endSave h t).result d 0)

/-- A scalar register of the task has an uncorrectable error: CTXSAVE reads it (R269). -/
def Hart.savesError (x : Hart) : Bool :=
  (List.range 64).any fun r => decide (0 < r) && (if 56 ≤ r && x.swapped then x.shbad.getLsbD (r - 56) else x.sbad.getLsbD r)

/-- CTXSAVE at supervisor privilege. -/
def effCtxsave (d a : Reg) (s : State) : Res :=
  let h := s.cur
  let va := s.me.rd a
  match s.me.task with
  | none => s.illegal
  | some t =>
    if !s.me.swapped || wbit s.me.sstatus 8 then s.illegal
    else if va.toNat % 4096 ≠ 0 then .trap s 3 va
    else if s.me.stage = 0 && s.me.savesError then .trap s 6 0
    else
      let s := ((s.beginSave h).settleAheads h [])
      if !s.me.saveReady || !s.quiet h then .stall s
      else (s.modHart h Hart.dropStrips).writeArea h t va d

def execCtxsave (d a : Reg) (s : State) : Out := finish s (s.privOnly (effCtxsave d a s))

/-! ## CTXLOAD (R268) -/

/-- The bytes of pieces of memory as their pages' modes give them. -/
def State.readPieces (s : State) (l : List Piece) : List Byte := l.flatMap fun p => s.modeBytes p.pbmt p.pa p.bytes.length

/-- The hart has read pieces at their homes: it waits where a read there must, and its core keeps no Valid copy of them. -/
def State.lookPieces (s : State) (c : Nat) (l : List Piece) : State :=
  l.foldl (fun (t : State) p => (t.lookAt p.pa p.bytes.length).dropValid c p.pa p.bytes.length) s

/-- What a read of the area gives: its bytes, and the places of poisoned words where they are tolerated. -/
def State.areaRead (s : State) (x : Ctx) (va : Word) (off n : Nat) (tolerate : Bool) :
    State × Except (Nat × Word) (List Byte × List Nat) :=
  match s.placePieces x .load va (pagePieces off (List.replicate n 0)) with
  | (s, .error e) => (s, .error e)
  | (s, .ok l) =>
    if !tolerate && l.any (fun p => poisoned s.bad p.pa p.bytes.length) then (s, .error (7, va + BitVec.ofNat 64 off))
    else
      let words := (List.range ((n + 3) / 4)).filter fun k =>
        (pagePieces off (List.replicate n 0)).zip l |>.any fun q =>
          decide (q.1.1 ≤ off + 4 * k) && decide (off + 4 * k < q.1.1 + q.1.2.length) &&
            s.bad.contains ((q.2.pa + (off + 4 * k - q.1.1)) / 4)
      (s.lookPieces x.core l, .ok (s.readPieces l, words))

/-- Reads several parts of the area. -/
def State.areaParts (s : State) (x : Ctx) (va : Word) :
    List (Nat × Nat × Bool) → State × Except (Nat × Word) (List (List Byte × List Nat))
  | [] => (s, .ok [])
  | (off, n, tol) :: ps => match s.areaRead x va off n tol with
    | (s, .error e) => (s, .error e)
    | (s, .ok r) => match State.areaParts s x va ps with
      | (s, .ok l) => (s, .ok (r :: l))
      | (s, .error e) => (s, .error e)

/-- The fields of the area's head that say what else to read. -/
structure AreaHead where
  bytes : List Byte
  vl : Nat
  vew : Nat
  nvreg : Nat
  c : Nat
  map : BitVec 64
  nrows : Nat
  deriving DecidableEq, Repr

/-- Reads the head. -/
def AreaHead.ofBytes (bs : List Byte) : AreaHead :=
  { bytes := bs, vl := le bs 536 8, vew := le bs 544 8, nvreg := le bs 552 8, c := le bs 632 1 % 32
    map := BitVec.ofNat 64 (le bs 1640 8), nrows := min 64 (le bs 1632 8) }

/-- MVL of the saved configuration. -/
def AreaHead.mvl (a : AreaHead) : Nat := 65536 * a.c / (a.nvreg * (a.vew / 8))

/-- Registers with saved contents. -/
def AreaHead.slots (a : AreaHead) : List Nat := (List.range 64).filter fun v => a.map.getLsbD v && decide (v < a.nvreg)

/-- The parts after the head: 7 masks, the slots, the landing data, the rows. -/
def AreaHead.parts (a : AreaHead) : List (Nat × Nat × Bool) :=
  ((List.range 7).map fun i => (maskOff (i + 1), (a.mvl + 7) / 8, false)) ++
  (a.slots.map fun v => (slotOff a.c a.nvreg v, a.vl * (a.vew / 8), true)) ++
  [(1167360, Config.landingBytes, false)] ++
  ((List.range a.nrows).map fun i => (1429504 + 4096 * i, 4096, false))

/-- A row as saved (R387), owned by a hart and its task; its deadline is set at its entry (R215). -/
def rowOfBytes (bs : List Byte) (h : Nat) (t : Task) : Row :=
  let desc := leW bs 0
  let mode := leW bs 24
  let k := tileK (descFmt desc)
  let afmt := field mode 0 2
  let n := if afmt = 1 then k else if afmt = 0 && descFmt desc = 9 then 128 else k + k / 16
  { desc := desc
    dest := if wbit mode 3 then .v (BitVec.ofNat 6 (le bs 8 1)) (le bs 9 1 % 16) else .c (le bs 8 8)
    num := le bs 16 8, afmt := afmt, z := wbit mode 2, leash := field mode 16 10, prio := field mode 28 3
    hart := h, task := some t, deadline := 0, data := (bs.drop 64).take n }

/-- The streams of the area. -/
def AreaHead.streams (a : AreaHead) : List VStream :=
  (List.range 8).filterMap fun i =>
    let o := 736 + 80 * i
    let reg := le a.bytes (o + 64) 8
    if reg / 128 % 2 = 1 then
      (streamOf (BitVec.ofNat 6 reg) ((a.bytes.drop o).take 64)).map fun t => { t with pos := le a.bytes (o + 72) 8 }
    else none

/-- Tag `i` of the area is occupied, and where its data stands. -/
def AreaHead.tagAt (a : AreaHead) (i : Nat) : Option Nat :=
  if le a.bytes (1377 + 16 * i) 1 % 2 = 1 then some (le a.bytes (1384 + 16 * i) 8) else none

/-- Bytes of a tag's data: as the device kept them, else up to the next tag's data, else 4 for each element (log 24). -/
def AreaHead.tagBytes (a : AreaHead) (kept : List (Option LandTag)) (i vl : Nat) : Nat :=
  match getAt none kept i with
  | some k => k.bytes
  | none =>
    let off := le a.bytes (1384 + 16 * i) 8
    match ((List.range 16).filterMap a.tagAt).filter fun o => decide (off < o) with
    | o :: os => (os.foldl min o - off) / max vl 1 * vl
    | [] => 4 * vl

/-- The landing tags of the area with the landing data and the rows that are still to come. -/
def AreaHead.tags (a : AreaHead) (data : List Byte) (rows : List Row) (kept : List (Option LandTag)) :
    List (Option LandTag) :=
  (List.range 16).map fun i =>
    let o := 1376 + 16 * i
    let st := le a.bytes (o + 1) 1
    if st % 2 = 0 then none
    else
      let vl := le a.bytes (o + 4) 4
      let n := a.tagBytes kept i vl
      let waits := st / 2 % 2 = 1
      let num := match rows.find? fun r => (match r.dest with
          | .v _ tag => tag == i
          | .c _ => false) with
        | some r => r.num
        | none => 0
      some { num := num, reg := BitVec.ofNat 6 (le a.bytes o 1), vl := vl, bytes := n
             mask := BitVec.ofNat 3 (le a.bytes (o + 2) 1), data := (data.drop (le a.bytes (o + 8) 8)).take n
             came := !waits, done := !waits
             err := (match getAt none kept i with
               | some k => k.err
               | none => false), row := waits, discard := false }

/-- The RPSTAT word as a mark. -/
def markOf (w : Word) : Mark :=
  let st := match field w 0 8 with
    | 1 => MarkState.recording | 2 => .replay | 3 => .complete | 4 => .core | 5 => .departed | _ => .none
  { Mark.reset with state := st, reason := field w 8 8, k := field w 32 32 }

/-- A timeline as saved, with the numbers of withdrawn rows not completed. -/
def timelineOf (issued done : Nat) (waiting : List Nat) : Timeline :=
  { issued := issued, done := done
    above := ((List.range (issued - done)).map fun i => done + 1 + i).filter fun n => !waiting.contains n && !waiting.isEmpty }

/-- The vector registers of the area. -/
def loadSlots : List Nat → List (List Byte × List Nat) → Memory × List Nat → Memory × List Nat
  | v :: vs, p :: ps, acc =>
    let base := vaddr (BitVec.ofNat 6 v) 0
    loadSlots vs ps (acc.1.writeN base p.1, acc.2 ++ p.2.map fun k => base / 4 + k)
  | _, _, acc => acc

/-- The hart with everything the area holds; its clusters are leased already. -/
def Hart.restore (x : Hart) (a : AreaHead) (parts : List (List Byte × List Nat)) (rows : List Row) (p : Parked)
    (va : Word) : Hart :=
  let w := fun (off : Nat) => leW a.bytes off
  let n := fun (off : Nat) => le a.bytes off 8
  let regs : List Word := 0 :: (List.range 63).map fun i => w (32 + 8 * i)
  let slots := loadSlots a.slots ((parts.drop 7).take a.slots.length) ([], [])
  let data := (getAt ([], []) parts (7 + a.slots.length)).1
  let nums := rows.map fun r => r.num
  { x with
    s := if x.swapped then regs.take 56 ++ x.s.drop 56 else regs
    shadow := if x.swapped then regs.drop 56 else x.shadow
    sbad := 0, sepc := w 8 &&& ~~~7#64, vstart := n 16, sstatus := keep 0x322 (w 24), trapStatus := keep 0x322 (w 24)
    vl := a.vl, vew := a.vew, nvreg := a.nvreg, mt := n 560 % 8, sb := (w 568).setWidth 32, seed := w 576
    frm := (w 584).setWidth 3, fflags := (w 592).setWidth 7, atflags := (w 600).setWidth 7, mleash := min (n 608) 1023
    prio := n 616 % 8, mark := markOf (w 624)
    w := (List.range 4).map fun i => w (640 + 8 * i)
    tl := (List.range 4).map fun k => timelineOf (n (672 + 16 * k)) (n (680 + 16 * k)) (if k = 1 then nums else [])
    streams := a.streams, landing := a.tags data rows p.landing
    v := slots.1, vbad := slots.2, dirty := 0, restored := a.map
    m := (List.range 7).map fun i => BitVec.ofNat 131072 (leNat (getAt ([], []) parts i).1)
    ctxArea := some va, saved := rows, task := some p.task, pend := p.pend, chain := true, stop := .none }

/-- Re-issues withdrawn rows one after another (R215); the second result says whether all have a place. -/
def State.reissue (s : State) (h : Nat) : Nat → State × Bool
  | 0 => (s, (s.hart h).saved.isEmpty)
  | k + 1 => match (s.hart h).saved with
    | [] => (s, true)
    | r :: rest => match s.placeRow (coreOf h) (s.partOf h) r with
      | some t => State.reissue (t.modHart h fun x => { x with saved := rest }) h k
      | none => match s.pressure (coreOf h) with
        | some t => (t, false)
        | none => (s, false)

/-- The rows go back; the hart waits until all have a place. -/
def State.finishLoad (s : State) (d : Reg) : Res :=
  match s.reissue s.cur 65 with
  | (s, true) => .ok (s.result d 0)
  | (s, false) => s.stallAt 2 0

/-- The record and the handle of the area, with what the device kept of the parked task (R146, R270). -/
def State.unpark (s : State) (a : AreaHead) : State × Parked :=
  let rc := TaskRec.ofBytes ((a.bytes.drop 1664).take 64)
  let handle := leW a.bytes 1656
  match s.parked.find? fun p => p.task.rc == rc && p.task.handle == handle with
  | some p => ({ s with parked := s.parked.erase p }, p)
  | none => (s, { task := { rc := rc, handle := handle, handler := none }, pend := [], landing := [] })

/-- Restores from an area that has been read and whose clusters the hart holds. -/
def State.loadArea (s : State) (va : Word) (d : Reg) (a : AreaHead) (parts : List (List Byte × List Nat)) : Res :=
  let h := s.cur
  match s.unpark a with
  | (s, p) =>
    let rows := (parts.drop (8 + a.slots.length)).map fun q => rowOfBytes q.1 h p.task
    let s := s.modHart h fun x => { x.restore a parts rows p va with loading := [] }
    s.happen.finishLoad d

/-- A CTXLOAD that waits for its clusters: once it has them it restores what it has read. It returns 2 where a cluster has been
retired meanwhile, so that the core has too few. -/
def State.awaitLease (s : State) (va : Word) (d : Reg) : Res :=
  let h := s.cur
  match s.me.loading with
  | [] => .stall s
  | p :: parts =>
    let hd := AreaHead.ofBytes p.1
    if !((s.core (coreOf h)).leaseq.any fun r => r.hart == h) then s.loadArea va d hd parts
    else if s.clustersLeft (coreOf h) < hd.c then
      .ok (((s.dropLease h).modHart h fun x => { x with loading := [] }).result d 2)
    else .stall s

/-- Asks for exactly `c` clusters. Those that the hart holds stay with it until they are granted. -/
def State.askExactly (s : State) (h c : Nat) : State :=
  (s.dropLease h).modCore (coreOf h) fun x => { x with leaseq := x.leaseq ++ [{ hart := h, mincl := c, prefcl := c }] }

/-- CTXLOAD at supervisor privilege. It reads the whole area, after the hart's earlier stores (R169), before it changes anything:
a fault there leaves no effect (R48). Stage 1 waits for the clusters, stage 2 for room in the millpond. DESIGN CHOICE (log 68):
on a control core, which has no vector state to restore (R8), it returns 1. -/
def effCtxload (d a : Reg) (s : State) : Res :=
  let h := s.cur
  let va := s.me.rd a
  if s.me.stage = 2 then s.finishLoad d
  else if s.me.stage = 1 then s.awaitLease va d
  else if s.me.task.isSome then s.illegal
  else if va.toNat % 4096 ≠ 0 then .trap s 3 va
  else if !s.released h .pkg then .stall s
  else match s.areaRead (s.ctx h) va 0 4096 false with
    | (s, .error e) => .trap s e.1 e.2
    | (s, .ok (bs, ws)) =>
      let hd := AreaHead.ofBytes bs
      if le bs 0 8 ≠ 1 || le bs 1648 8 ≠ coreOf h || isControl h then .ok (s.result d 1)
      else if s.clustersLeft (coreOf h) < hd.c then .ok (s.result d 2)
      else match s.areaParts (s.ctx h) va hd.parts with
        | (s, .error e) => .trap s e.1 e.2
        | (s, .ok parts) =>
          if hd.c = 0 then (s.releaseLease h).loadArea va d hd parts
          else ((s.askExactly h hd.c).modHart h fun x => { x with loading := (bs, ws) :: parts }).stallAt 1 0

def execCtxload (d a : Reg) (s : State) : Out := finish s (s.privOnly (effCtxload d a s))

end Sys2Proof.Machine
end

