-- ==== Sys2Proof/Machine/Pair.lean ====
section
/-! DEFINITION. Pair words (R41 to R43, R372): both halves read their operands before either has an effect, and a pair has
all of its effects or none. -/

namespace Sys2Proof.Machine

/-- A vector half: it acts on elements 0 to VL − 1. Its checks are made before the pair has any effect (R43); its element
groups follow, and no asynchronous trap comes between them (R260). -/
def effVectorHalf (i : Instr) (s : State) : Res :=
  let h := s.cur
  let x := s.me
  if !x.vectorOk i then s.illegal
  else
    let e := x.entry s.sends i
    let run : VRun := { x.newRun e with lo := 0, next := 0 }
    match s.popAll h (vsrcs i x.vl x.vew) run with
    | .error r => .stall (r.getD s)
    | .ok (s, ru) =>
      let bad := (ru.firstBad s.me 0 ru.vl).map fun n => { cause := 7, stval := 0, elem := n : VFault }
      match s.addOuts h ru with
      | (s, outs, fd) => match lowerFault fd (lowerFault bad ru.fault) with
        | some f => .trap s f.cause f.stval
        | none => .ok (s.modHart h fun y =>
            { y with vq := y.vq ++ [e], run := some { s.withWaits h ru [outs] with outs := outs } })

/-- The effect of a half. A pair's YIELD ends the run once the pair has issued (R104). -/
def effHalf (i : Instr) (s : State) : Res := match effScalar i s with
  | some r => r
  | none => match i with
    | .ld w sp d a off => effLd w sp d a off s
    | .st w sp d a off => effSt w sp d a off s
    | .brnz a imm => effBrnz a imm s
    | .brz a imm => effBrz a imm s
    | .yield => .ok s
    | .setvl d a w => effSetvl d a w.toNat s
    | i => effVectorHalf i s

/-- The step of R384 that a cause of a half belongs to. -/
def halfStep (cause : Nat) : Nat :=
  if cause = 3 then 1 else if cause = 4 || cause = 5 then 2 else if cause = 6 || cause = 7 then 3 else 0

/-- A pair word. Of two faults it reports the one of the earlier step of R384, half A's for one step; half B's fault waits for
half A's data only where it is one of data itself. -/
def effPair (a b : Instr) (s : State) : Res :=
  if !s.me.vectorIdle then .stall s
  else match effHalf a s, effHalf b s with
    | .trap u c v, .trap u' c' v' => if halfStep c' < halfStep c then .trap u' c' v' else .trap u c v
    | .stall u, .trap u' c v => if halfStep c < 3 then .trap u' c v else .stall u
    | .ok _, .trap u c v => .trap u c v
    | .ok _, .stall u => .stall u
    | .ok t, _ => effHalf b t
    | r, _ => r

/-- The meaning of a pair word. -/
def execPair (a b : Instr) (s : State) : Out := finish s (effPair a b s)

end Sys2Proof.Machine
end

