-- ==== Sys2Proof/Machine/Fetch.lean ====
section
/-! DEFINITION. Fetching an instruction and the order of its checks (R47), when a hart may issue (R98, R105), breakpoint
units (R157 to R159), scalar register errors (R269), and the steps that fetch, translate and deliver load data. -/

namespace Sys2Proof.Machine

/-! ## Fetch (R35, R36, R47) -/

/-- What stands at a hart's PC: an instruction with its first word, or the trap of R47 rows 1 to 5. -/
inductive Fetched
  | item (it : Item) (w : Word)
  | trap (cause : Nat) (stval w : Word)
  deriving DecidableEq, Repr

/-- The cause of a CSRR or CSRW that names a CSR it may not: the check stands with the field checks (R55, R313). -/
def csrCheck (p : Priv) (n : BitVec 12) (write : Bool) : Option Nat := match csrOf n with
  | none => some 1
  | some r =>
    if p = .user && (r.supervisor || (write && (match r with
      | .lcr _ => true
      | _ => false))) then some 2
    else none

/-- The cause that an instruction's fields raise beyond the decoder's checks. -/
def fieldCause (p : Priv) : Decoded → Option Nat
  | .one (.csrr _ n) => csrCheck p n false
  | .one (.csrw n _) => csrCheck p n true
  | _ => none

/-- What a first word comes to for a hart at privilege `p` (R47 rows 2 to 4). -/
def wordCheck (p : Priv) (w : Word) : Except Nat Decoded :=
  match decodeWord w with
  | .reject .fields => .error (if p = .user && privilegedWord w then 2 else 1)
  | .reject _ => .error 1
  | d =>
    if p = .user && privilegedWord w then .error 2
    else match fieldCause p d with
      | some c => .error c
      | none => .ok d

/-- Fetches and decodes the instruction at the hart's PC. -/
def State.fetchItem (s : State) (h : Nat) : State × Fetched :=
  let pc := (s.hart h).pc
  if pc.toNat % 8 ≠ 0 then (s, .trap 3 pc 0)
  else match s.fetchWord h pc with
    | (s, .error c) => (s, .trap c pc 0)
    | (s, .ok w) => match wordCheck (s.hart h).priv w with
      | .error c => (s, .trap c w w)
      | .ok (.one i) => (s, .item (.instr i 8) w)
      | .ok (.pair a b) => (s, .item (.pair a b) w)
      | .ok (.needExt mj r) => match s.fetchWord h (pc + 8) with
        | (s, .error c) => (s, .trap c (pc + 8) w)
        | (s, .ok x) => (s, .item (.instr (extended mj r x) 16) w)
      | .ok (.reject _) => (s, .trap 1 w w)

/-! ## Readiness (R98, R105) -/

/-- The hart's core works: not stopped by a fatal error, gated or retired; a control core after its release (R290). -/
def State.running (s : State) (h : Nat) : Bool :=
  let c := s.core (coreOf h)
  s.fatal.isNone && !c.gated && !c.retired && (!isControl h || s.bringup == .up)

/-- The hart works: its core runs, and it holds a task or is at supervisor privilege (R105). -/
def State.awake (s : State) (h : Nat) : Bool :=
  s.running h && ((s.hart h).priv == .sup || (s.hart h).task.isSome)

/-- A hart that waits looks again once something has happened: it takes no issue slot for that (R97, R98). -/
def Hart.looks (x : Hart) (epoch : Nat) : Bool := match x.wait with
  | none => false
  | some w => (w.kind == .retry || w.kind == .held) && (w.epoch != epoch || w.expired)

/-- Waits before the next word issues: for the vector queue, or for an access of its own fetch. -/
def State.holdIssue (s : State) (h : Nat) (it : Item) (w : Word) : State :=
  s.modHart h fun x =>
    { x with item := it, iword := w
             wait := some { kind := .held, epoch := s.epoch, deadline := none, expired := false, stage := 0, arg := 0 } }

/-- A trap of R47 rows 1 to 5, once every older vector instruction has completed (R383). -/
def State.fetchTrap (s : State) (h cause : Nat) (stval w : Word) : State :=
  if (s.hart h).queueIdle then s.takeTrap h false cause (s.hart h).pc stval w else s.holdIssue h .short w

/-! ## What instructions read -/

/-- Scalar registers an instruction reads, for R103, R269 and R383. -/
def scalarReads : Instr → List Reg
  | .clz _ a | .ctz _ a | .popc _ a | .ld _ _ _ a _ | .acquire _ a | .release _ a | .jr _ a _ | .trmark a _ | .spawn _ a
  | .joinLvl _ a | .tcancel _ _ a | .setsb _ a _ | .setseed a _ | .vbind _ a | .wset _ _ a | .pkstat _ _ a
  | .pkfree _ a | .csrw _ a | .eretKill a | .asidsw _ a | .ctxsave _ a | .ctxload _ a | .pmigRel _ a _
  | .loopmarkWait a _ | .loopbr a _ => [a]
  | .div _ _ a b | .rem _ _ a b | .mulh _ _ a b | .lea _ a b _ | .fdiv _ _ _ a b | .amo _ _ _ _ _ a b | .cflush a b
  | .cflushInv a b | .cinval a b | .join _ a b | .gang _ a b | .waita _ _ _ a b _ | .pkalloc _ a b _ | .pkenter _ a b
  | .biassetHost _ a b | .biassetDev _ a b | .poisonclr a b | .pmigP4k _ a b | .pmigP2m _ a b => [a, b]
  | .st _ _ d a _ => [d, a]
  | .cas _ _ _ a b c | .bindr _ a b c | .tlbinvVa _ a b c => [a, b, c]
  | .cpy _ _ _ _ a b c => [a, b, c, c + 1]
  | .cpy2d _ _ _ _ a b c => [a, b, b + 1, c, c + 1]
  | .bindrUn _ c | .tlbinvAsid _ c => [c]
  | .tlwait _ _ b _ | .tlbinvWait _ b => [b]
  | .loopmarkAhead _ a b c _ => [a, b, c, 3]
  | .mrow _ _ d _ _ _ => [d]
  | .mkick _ => []
  | .vamo _ v => v.a :: (if v.k = .strided then [v.b] else [])
  | .vins v => [v.a, v.b]
  | .vext v => [v.b]
  | i => sUses i

/-- The instructions of an item. -/
def itemInstrs : Item → List Instr
  | .instr i _ => [i]
  | .pair a b => [a, b]
  | _ => []

/-- Scalar registers that an item reads. -/
def Item.scalarReads (it : Item) : List Reg := (itemInstrs it).flatMap Machine.scalarReads
/-- Scalar registers that an item writes. -/
def Item.scalarDests (it : Item) : List Reg := (itemInstrs it).filterMap scalarDest
/-- The item reads or writes a scalar register. -/
def Item.names (it : Item) (r : Reg) : Bool := r != 0 && ((Item.scalarReads it).contains r || (Item.scalarDests it).contains r)

/-- A register the item reads has an uncorrectable error (R269). -/
def Hart.readsError (x : Hart) (it : Item) : Bool := (Item.scalarReads it).any fun r => r != 0 && x.sbad.getLsbD r.toNat

/-- The instruction joins the vector queue. -/
def queues : Instr → Bool
  | .mrow .. | .mrowv .. | .xred .. => true
  | .mpopc .. | .mfirst .. | .mlogic .. | .vadds .. => true
  | i => isVector i

/-! ## The scoreboard (R98, R103) -/

/-- Cycles from issue until a result is usable (R103 and the reference entries). -/
def latency : Instr → Nat
  | .mul .. | .mulh .. => 3
  | .div .. | .rem .. => 20
  | .fadd .. | .fsub .. | .fmul .. | .ffma .. => 4
  | .fdiv .. => 16
  | .fmin .. | .fmax .. | .fcmp .. => 2
  | .fcvt .. => 3
  | .ld _ sp _ _ _ => if sp = .g || sp = .dflt then 4 else 8
  | _ => 1

/-- Registers whose results are usable later than in the next cycle, with the cycle. -/
def Item.pending (it : Item) (cyc : Nat) : List (Nat × Nat) :=
  (itemInstrs it).filterMap fun i => match scalarDest i with
    | some d => if d != 0 && decide (1 < latency i) then some (d.toNat, cyc + latency i) else none
    | none => none

/-- A register of the item awaits an earlier result in this cycle. -/
def State.scoreboard (s : State) (h : Nat) : Bool :=
  let live := (s.hart h).busy.filter fun b => decide ((s.core (coreOf h)).cycle < b.2)
  !live.isEmpty && (match (s.fetchItem h).2 with
    | .item it _ => live.any fun b => Item.names it (BitVec.ofNat 6 b.1)
    | .trap _ _ _ => false)

/-! ## Breakpoint units (R157 to R159) -/

/-- REL between two numbers. -/
def relHolds (rel : Nat) (o : Option Ordering) : Bool :=
  if rel = 0 then o == some .eq else if rel = 1 then o != some .eq else if rel = 2 then o == some .lt
  else o == some .gt || o == some .eq

/-- Compares two values of `n` bits as CTYPE gives. -/
def bkCompare (ctype n : Nat) (f : FTy) (a b : Nat) : Option Ordering :=
  if ctype = 2 then fcompare f a b
  else if ctype = 1 then some (compare (a % 2 ^ n) (b % 2 ^ n))
  else some (compare (BitVec.ofNat n a).toInt (BitVec.ofNat n b).toInt)

/-- The condition of a unit. -/
def BkUnit.cond (u : BkUnit) (x : Hart) : Bool :=
  let kind := field u.ctl 16 3
  let reg := BitVec.ofNat 6 (field u.ctl 32 6)
  let rel := field u.ctl 20 2
  let ctype := field u.ctl 22 2
  let val := u.val.toNat
  if kind = 0 then true
  else if kind = 1 then
    let n := if ctype = 2 then 32 else 64
    relHolds rel (bkCompare ctype n .f32 ((x.rd reg).toNat % 2 ^ n) (val % 2 ^ n))
  else if x.nvreg ≤ reg.toNat || x.vl = 0 then false
  else
    let code := field u.ctl 24 4
    let bytes := if code = 8 then 2 else if code = 9 then 4 else 2 ^ (code % 4)
    let f : FTy := if code = 8 then .bf16 else .f32
    let is := (List.range x.vl).filter fun i => x.maskBit (field u.ctl 28 3) i
    let test := fun i => relHolds rel (bkCompare ctype (8 * bytes) f (x.velem reg i bytes) (val % 2 ^ (8 * bytes)))
    if kind = 2 then is.any test else !is.isEmpty && is.all test

/-- The unit is enabled, watches the hart and names the address, with WHEN as given. -/
def BkUnit.watches (u : BkUnit) (h : Nat) (pc : Word) (after : Bool) : Bool :=
  wbit u.ctl 0 && wbit u.ctl (8 + localHart h) && u.addr == pc && wbit u.ctl 40 == after

/-- Numbers of the units that watch an address. -/
def State.watching (s : State) (h : Nat) (pc : Word) (after : Bool) : List Nat :=
  (List.range 8).filter fun n => ((s.core (coreOf h)).unit n).watches h pc after

/-- Numbers of the units that match. -/
def State.matching (s : State) (h : Nat) (pc : Word) (after : Bool) : List Nat :=
  (s.watching h pc after).filter fun n => ((s.core (coreOf h)).unit n).cond (s.hart h)

/-! ## What the vector queue holds back (R99, R383) -/

/-- Instructions whose effects on scalar registers, FFLAGS and the PC a trap of an older vector instruction takes back: they are
discarded and issue again after it (R383). -/
def speculates : Instr → Bool
  | .ld _ sp _ _ _ => sp == .dflt || sp == .g || sp == .a
  | .br .. | .j .. | .jal .. | .jalExt .. | .jr .. | .brnz .. | .brz .. | .nop | .tlread .. | .tself .. => true
  | .add .. | .addi .. | .and .. | .andi .. | .clz .. | .ctz .. | .div .. | .lea .. | .li .. | .liExt .. | .max .. | .min ..
  | .mul .. | .mulh .. | .or .. | .ori .. | .popc .. | .rem .. | .sel .. | .shl .. | .shli .. | .shr .. | .slt .. | .slti ..
  | .sra .. | .sub .. | .xor .. | .xori .. | .mov .. => true
  | .fadd .. | .fsub .. | .fmul .. | .ffma .. | .fdiv .. | .fmin .. | .fmax .. | .fcmp .. | .fcvt .. => true
  | _ => false

/-- Other instructions that take no part in vector state, whose effects are released once the vector instruction in front of them
can trap no more. -/
def passes : Instr → Bool
  | .ld .. | .st .. | .amo .. | .cas .. | .yield | .fenceAcq .. | .fenceRel .. | .fenceFull .. | .acquire .. | .release ..
  | .vdrain .. | .waita .. => true
  | i => speculates i

/-- The one vector instruction in front has passed the last point at which it can raise a synchronous trap: its elements have
passed their checks and its loads have delivered (R383). -/
def Hart.pastTraps (x : Hart) : Bool := decide (x.vq.length = 1) && !x.loadsLeft && (match x.run with
  | some ru => ru.fault.isNone
  | none => false)

/-- A scalar result of the vector queue is still to come in a register of the item (R103, R331, R362). -/
def Hart.awaitsResult (x : Hart) (it : Item) : Bool := x.vq.any fun e => scalarResult e.instr && (match scalarDest e.instr with
  | some d => Item.names it d
  | none => false)

/-- No mark, pack or AHEAD number notes what the hart executes. -/
def Hart.unwatched (x : Hart) : Bool := x.pack.isNone && !x.recording && x.aheads.isEmpty

/-- The next word cannot issue for the vector queue: the queue is full, a register of the item awaits a result of it, or the
effects of an item that is no vector instruction must be held back (R98, R99, R383). The halves of a pair act together. -/
def Item.holds (it : Item) (x : Hart) : Bool :=
  !x.queueIdle && (x.awaitsResult it || decide (Config.vqDepth ≤ x.vq.length) || (match it with
    | .instr i _ => !queues i && !(x.unwatched && (speculates i || (passes i && x.pastTraps)))
    | .pair a b => !(x.unwatched && speculates a && speculates b)
    | _ => true))

/-- The item waits for the vector queue: its effects must, or a breakpoint test or an error of a register it reads is to be met
with nothing older in the queue (R159, R269, R383). -/
def State.queueFirst (s : State) (h : Nat) (it : Item) : Bool :=
  let x := s.hart h
  Item.holds it x || (!x.queueIdle && (x.brkAfter.isSome || !(s.watching h x.pc false).isEmpty || x.readsError it))

/-- The vector queue keeps the hart's next word from issuing: such a hart is not ready (R98). -/
def State.heldBack (s : State) (h : Nat) : Bool :=
  !(s.hart h).queueIdle && (decide (Config.vqDepth ≤ (s.hart h).vq.length) || (match (s.fetchItem h).2 with
    | .item it _ => s.queueFirst h it
    | .trap _ _ _ => true))

/-- The hart is ready: its next word can issue in this cycle (R98). -/
def State.ready (s : State) (h : Nat) : Bool :=
  s.awake h && (s.hart h).wait.isNone && !s.scoreboard h && !s.heldBack h

/-! ## Breakpoints (R159) -/

/-- A mask of units. -/
def unitMask (l : List Nat) : Nat := l.foldl (fun m n => m + 2 ^ n) 0

/-- The matching units act together (R159): one BREAK record, then one trap where a unit asks for it. The second result
says whether a trap was taken. -/
def State.breakAt (s : State) (h : Nat) (pc w : Word) (after : Bool) : State × Bool :=
  let ms := s.matching h pc after
  let act := fun (n : Nat) => field ((s.core (coreOf h)).unit n).ctl 1 2
  let recs := ms.filter fun n => act n == 1
  let s' := if recs.isEmpty then s else s.record (coreOf h) 3 (localHart h) (unitMask recs) pc
  if ms.any fun n => act n == 0 then
    (s'.takeTrap h false 8 (s.hart h).pc (BitVec.ofNat 64 (unitMask ms)) w, true)
  else (s', false)

/-! ## Loads and translation -/

/-- LOAD_DATA_ARRIVAL: the data of the hart's scalar load miss arrives; the load, or the pair that holds it, completes (R99), as
does a pack instruction whose home answers and a SPAWN whose record is read (R336, R345). Where it cannot complete yet it arrives
again once something has happened. -/
def execLoadDataArrival (h : Nat) (s : State) : Out :=
  match (s.hart h).wait with
  | some w =>
    if w.kind = .load && (!w.expired || w.epoch != s.epoch) then
      let t := s.modHart h fun x => { x with wait := some { w with expired := true } }
      match (s.hart h).item with
      | .instr (.ld wd sp d a off) _ => t.asHart h (execLd wd sp d a off)
      | .pair a b => t.asHart h (execPair a b)
      | .instr (.pkalloc d a b life) _ => t.asHart h (execPkalloc d a b life)
      | .instr (.pkenter d a b) _ => t.asHart h (execPkenter d a b)
      | .instr (.pkstat code d a) _ => t.asHart h (execPkstat code d a)
      | .instr (.pkfree d a) _ => t.asHart h (execPkfree d a)
      | .instr (.spawn d a) _ => t.asHart h (execSpawn d a)
      | _ => notEnabled "LOAD_DATA_ARRIVAL"
    else notEnabled "LOAD_DATA_ARRIVAL"
  | none => notEnabled "LOAD_DATA_ARRIVAL"

/-- Addresses that an instruction at a hart's PC names, with the kind of access. -/
def namedAddrs (x : Hart) : Instr → List (Word × Acc)
  | .ld _ _ _ a off => [(memAddr x a off, .load)]
  | .st _ _ _ a off => [(memAddr x a off, .store)]
  | .amo _ _ _ _ _ a _ | .cas _ _ _ a _ _ => [(x.rd a, .store)]
  | .waita _ _ _ a _ _ | .spawn _ a | .gang _ a _ | .vbind _ a | .ctxload _ a => [(x.rd a, .load)]
  | .join _ a b => [(x.rd a, .store), (x.rd b, .load)]
  | .joinLvl _ a | .tcancel _ _ a | .pkalloc _ a _ _ | .eretKill a | .ctxsave _ a | .poisonclr a _ => [(x.rd a, .store)]
  | .cflush a _ | .cflushInv a _ | .cinval a _ => [(x.rd a, .load)]
  | _ => []

/-- A translation that the hart asks for: its next word's, its instruction's, or an element's of its vector queue. -/
def State.asksFor (s : State) (h : Nat) (va : Word) (acc : Acc) : Bool :=
  let x := s.hart h
  let fetch := acc == .fetch && (va == x.pc || va == x.pc + 8)
  let named := match (s.fetchItem h).2 with
    | .item (.instr i _) _ => (namedAddrs x i).any fun p => p.1 == va && p.2 == acc
    | .item (.pair a b) _ => (namedAddrs x a ++ namedAddrs x b).any fun p => p.1 == va && p.2 == acc
    | _ => false
  let elem := match x.vq with
    | e :: _ => match vmemOf e.instr with
      | some v => (List.range x.vl).any fun i => (x.newRun e).addr x v i == va
      | none => false
    | [] => false
  fetch || named || elem

/-- PAGE_WALK: a walk that the hart asks for completes, setting A and D and filling the TLBs, or ends in a fault, which the
access itself reports (R193, R194). -/
def execPageWalk (h : Nat) (va : Word) (acc : Acc) (s : State) : Out :=
  let x := s.ctx h
  if satpMode x.satp = 0 || !canonical va || !s.asksFor h va acc then notEnabled "PAGE_WALK"
  else event (s.walkFill x acc va.toNat).1

/-- L2_TLB_EVICTION: entry k of a die's L2 TLB leaves, and its first-level copies with it (R189). -/
def execL2TlbEviction (d k : Nat) (s : State) : Out := match (s.die d).l2tlb[k]? with
  | none => notEnabled "L2_TLB_EVICTION"
  | some t => event ((s.modDie d fun x => { x with l2tlb := x.l2tlb.eraseIdx k }).dropFirst d fun u => t.same u)

end Sys2Proof.Machine
end

