-- ==== Sys2Proof/Machine/Boundary.lean ====
section
/-! DEFINITION. Instruction boundaries: stops of tasks (R91, R92), faults held for a boundary (R146, R216, R230),
asynchronous traps (R257, R259, R260, R264), the timer (R256) and the watchdog (R258). -/

namespace Sys2Proof.Machine

/-! ## Where the oldest instruction stands (R260, R383) -/

/-- SEPC of a trap at a boundary: the oldest instruction that has not completed. -/
def Hart.resumePc (x : Hart) : Word := match x.vq with
  | e :: _ => e.pc
  | [] => x.pc

/-- VSTART of an asynchronous trap: the next element group of a vector instruction in progress; VRED and VCOMPRESS restart whole
(R126, R260, R363). -/
def Hart.stopVstart (x : Hart) : Nat := match x.run with
  | some ru => match ru.e.instr with
    | .vld _ => ru.loadStop x
    | .vred _ _ | .vcompress _ => 0
    | i => if actsWhole i then x.vstart else ru.next
  | none => x.vstart

/-- First word at an address as the hart fetches it; 0 where it cannot be fetched. -/
def State.peekWord (s : State) (h : Nat) (pc : Word) : Word := match (s.fetchWord h pc).2 with
  | .ok w => w
  | .error _ => 0

/-- A trap at a boundary, with VSTART as R260 gives. -/
def State.boundaryTrap (s : State) (h : Nat) (int : Bool) (cause : Nat) (stval : Word) : State :=
  let x := s.hart h
  let w := s.peekWord h x.resumePc
  ((s.modHart h fun y => { y.stopLoad with vstart := x.stopVstart }).takeTrap h int cause x.resumePc stval w).happen

/-! ## Asynchronous causes (R256, R257, R259) -/

/-- The timer of the hart has come: GTIME ≥ SSTART ≠ 0. -/
def State.timerDue (s : State) (h : Nat) : Bool :=
  let t := (s.hart h).sstart
  t != 0 && decide (t.toNat ≤ s.gtime)

/-- The pending asynchronous causes. -/
def State.pending (s : State) (h : Nat) : List (Nat × Word) :=
  (s.hart h).asyncs ++ (if s.timerDue h then [(15, 0)] else [])

/-- The lowest code. -/
def lowestCause : List (Nat × Word) → Option (Nat × Word)
  | [] => none
  | a :: as => match lowestCause as with
    | some b => if b.1 < a.1 then some b else some a
    | none => some a

/-- The hart waits in a millrace replay of WAIT mode. -/
def Hart.inReplay (x : Hart) : Bool := match x.wait with
  | some w => w.kind == .replay
  | none => false

/-- The pack of the hart is past its commit instant while the hart waits in PKCOMMIT (R241, R250, R336). -/
def State.pastCommit (s : State) (h : Nat) : Bool := match (s.hart h).member with
  | some hd => (match (s.hart h).pack with
      | some m => m.count == 3
      | none => false) || (match s.pack? hd with
      | some p => p.state == .committing
      | none => false)
  | none => false

/-- The hart waits in PKCOMMIT (R336). -/
def Hart.committing (x : Hart) : Bool := x.member.isSome && x.wait.isSome && (match x.item with
  | .instr (.pkcommit _) _ => true
  | _ => false)

/-- The page in the middle of a hart's BIASSET.dev. -/
def State.flipPage (s : State) (h : Nat) : Option Nat := match (s.hart h).item, (s.hart h).wait with
  | .instr (.biassetDev _ a _) _, some w => some (((s.hart h).rd a).toNat + 4096 * w.stage)
  | _, _ => none

/-- A BIASSET.dev of the hart stands in the middle of a page (R279). -/
def State.inFlip (s : State) (h : Nat) : Bool := match s.flipPage h with
  | some pa => s.flipping pa
  | none => false

/-- A younger word has issued behind the vector instruction at work, which cannot be stopped any more (R383). -/
def Hart.overtaken (x : Hart) : Bool := x.passed && !x.queueIdle

/-- The hart stands where an asynchronous cause can be taken: between instructions, between element groups, or in a wait
that can be left. -/
def State.interruptible (s : State) (h cause : Nat) : Bool :=
  let x := s.hart h
  s.running h && !x.awaitsValue && !x.runsPair && x.groupBoundary && !x.overtaken && !s.pastCommit h &&
  !(x.committing && cause != 10) && !s.inFlip h

/-- The asynchronous trap that the hart takes at its boundary (R259). -/
def State.asyncDue (s : State) (h : Nat) : Option (Nat × Word) :=
  let x := s.hart h
  if x.priv = .sup && !x.sie then none
  else match lowestCause (s.pending h) with
    | some c => if s.interruptible h c.1 then some c else none
    | none => none

/-- An interrupt that meets a copy pass of a page move ends it: the destination keeps any mix of old and copied bytes (R337). -/
def State.leavePass (s : State) (h : Nat) : State :=
  let x := s.hart h
  match x.item with
  | .instr (.pmigP4k _ a b) _ => if x.stage = 0 then s else s.mixPass (x.rd a).toNat (x.rd b).toNat 4096
  | .instr (.pmigP2m _ a b) _ => if x.stage = 0 then s else s.mixPass (x.rd a).toNat (x.rd b).toNat (2 * 1024 * 1024)
  | _ => s

/-- Takes an asynchronous cause. Pre-emption aborts an open pack of the hart with code 4 (R250, R264). -/
def State.takeAsync (s : State) (h : Nat) (c : Nat × Word) : State :=
  let mem := (s.hart h).member
  let s := (s.modHart h fun x => { x with asyncs := x.asyncs.erase c }).leavePass h
  let s := s.boundaryTrap h true c.1 c.2
  match mem with
  | some obj => if c.1 = 10 then s.abortPack obj 4 else s
  | none => s

/-- Some slot of the hart in WAIT mode has not been told to depart. -/
def State.replayUntold (s : State) (h : Nat) : Bool :=
  (s.die (dieOf h)).slots.any fun t => match t with
    | some u => u.hart == h && !u.mark.ahead && !u.reclaim
    | none => false

/-! ## What happens at a boundary before an instruction issues -/

/-- The hart's TEND has completed its step 4 and goes on by itself (R102). -/
def Hart.tendGoesOn (x : Hart) : Bool := x.stage == 4 && (match x.item with
  | .instr .tend _ => true
  | _ => false)

/-- The stop waits for the supervisor to resolve a fault of the join counter, as long as a free choice says (R86 step 6, R92,
log 5). -/
def State.stopWaits (s : State) (h : Nat) : Bool := match (s.hart h).task with
  | some t => t.rc.joinAlways && s.joinFaults h && Config.choice s.fresh
  | none => false

/-- The stop of a task at its next boundary, which is no place inside a pair or an element group, and not while its hart is in a
supervisor trap (R43, R91, R92). -/
def State.stopDue (s : State) (h : Nat) : Bool :=
  let x := s.hart h
  x.stop == .cancelled && x.priv == .user && x.task.isSome && s.running h && !x.awaitsValue && !x.overtaken && !s.pastCommit h &&
  !x.runsPair && x.canStop && !x.tendGoesOn && !s.stopWaits h

/-- A fault held for the boundary is due: at user privilege, or in a hart without a task. A wait that can be left is a
boundary too (log 53). -/
def State.pendDue (s : State) (h : Nat) : Option BoundaryFault :=
  let x := s.hart h
  if s.interruptible h 6 && x.queueIdle && (x.priv == .user || x.task.isNone) then x.pend.head? else none

/-- Takes the first held fault (R146, R216, R230, R347). -/
def State.takePend (s : State) (h : Nat) (f : BoundaryFault) : State :=
  let s := s.modHart h fun x => { x with pend := x.pend.drop 1 }
  (s.boundaryTrap h false f.cause f.stval).noteDest h f.cause (f.destKind, f.destReg)

/-- The WHEN = 1 test of an instruction, once it has completed (R159). -/
def State.breakAfter (s : State) (h : Nat) : Option State :=
  let x := s.hart h
  match x.brkAfter with
  | none => none
  | some a =>
    if (match x.wait with
      | some w => w.kind != .held
      | none => false) || !x.queueIdle then none
    else some (((s.breakAt h a (s.peekWord h a) true).1).modHart h fun y => { y with brkAfter := none })

/-- What a boundary of the hart does ahead of asynchronous traps and of its next instruction: a due test, a stop, a restore, a
held fault (R259). -/
def State.syncBoundary (s : State) (h : Nat) : Option State := match s.breakAfter h with
  | some t => some t
  | none =>
    if s.stopDue h then some (s.endTask h .cancel)
    else match s.memberRestore h with
      | some t => some t
      | none => (s.pendDue h).map fun f => s.takePend h f

/-- What a boundary of the hart does ahead of its next instruction: an asynchronous trap comes last. In WAIT replay the slot
departs first (R228, R234). -/
def State.boundary (s : State) (h : Nat) : Option State :=
  let x := s.hart h
  if x.inReplay then
    (if (s.stopDue h || (s.asyncDue h).isSome) && s.replayUntold h then some (s.recallSlots h) else none)
  else match s.syncBoundary h with
    | some t => some t
    | none => (s.asyncDue h).map fun c => s.takeAsync h c

/-! ## Fetch traps as rows (R46, R47) -/

/-- The hart's next word meets its fetch checks now: nothing of its boundary goes first. -/
def State.meetsFetch (s : State) (h : Nat) : Bool := s.ready h && (s.hart h).queueIdle && (s.boundary h).isNone

/-- ILLEGAL_INSTRUCTION: the hart issues a word that is no instruction, or one with an illegal field (R46, R47 rows 2 to
4). -/
def execIllegalInstruction (h : Nat) (s : State) : Out :=
  if !s.meetsFetch h then notEnabled "ILLEGAL_INSTRUCTION"
  else match s.fetchItem h with
    | (s, .trap 1 v w) => event (s.fetchTrap h 1 v w)
    | _ => notEnabled "ILLEGAL_INSTRUCTION"

/-- INSTRUCTION_FETCH_FAULT: the first word cannot be fetched (R47 row 1). -/
def execInstructionFetchFault (h : Nat) (s : State) : Out :=
  if !s.meetsFetch h then notEnabled "INSTRUCTION_FETCH_FAULT"
  else match s.fetchItem h with
    | (s, .trap c v w) =>
      if c = 1 || c = 2 || v != (s.hart h).pc then notEnabled "INSTRUCTION_FETCH_FAULT" else event (s.fetchTrap h c v w)
    | _ => notEnabled "INSTRUCTION_FETCH_FAULT"

/-! ## Timers -/

/-- TIMER: the hart takes cause 15, which is pending while GTIME ≥ SSTART ≠ 0 (R256). -/
def execTimer (h : Nat) (s : State) : Out :=
  if (s.hart h).inReplay then
    (if s.timerDue h && (s.asyncDue h).isSome && s.replayUntold h then event (s.recallSlots h) else notEnabled "TIMER")
  else match s.syncBoundary h, s.asyncDue h with
    | none, some c => if c.1 = 15 then event (s.takeAsync h c) else notEnabled "TIMER"
    | _, _ => notEnabled "TIMER"

/-- The watchdog of a hart has come (R258); a hart of a retired core makes no progress either. -/
def State.watchdogDue (s : State) (h : Nat) : Bool :=
  let x := s.hart h
  let limit := field (s.die (dieOf h)).wdctl 0 32
  decide (h < 1024) && x.task.isSome && x.priv == .user && limit != 0 && !x.reported && s.fatal.isNone &&
  decide (x.progress + 1000 * limit ≤ s.gtime)

/-- WATCHDOG: cause 16 becomes pending at control-core hart 0 of the die. -/
def execWatchdog (h : Nat) (s : State) : Out :=
  if s.watchdogDue h then
    event ((s.modHart h fun x => { x with reported := true }).modHart (controlHart (dieOf h)) fun x =>
      { x with asyncs := x.asyncs ++ [(16, BitVec.ofNat 64 h)] })
  else notEnabled "WATCHDOG"

/-- PREEMPT_REQUEST: a write to the pre-emption register of hart h (R264). -/
def execPreemptRequest (h : Nat) (s : State) : Out :=
  if h < 1024 then event (s.requestPreempt h) else notEnabled "PREEMPT_REQUEST"

end Sys2Proof.Machine
end

