-- ==== Sys2Proof/Machine/Errors.lean ====
section
/-! DEFINITION. Errors of registers, lanes and agents (R199, R217, R269, R276) and the fatal stop with its dump (R271). -/

namespace Sys2Proof.Machine

/-! ## Registers and lanes -/

/-- An error record of a hart's core. -/
def errOf (s : State) (kind core hart unit : Nat) (addr syndrome : Word) : ErrRec :=
  { time := s.gtime, kind := kind, severity := 1, core := if core < 128 then core % 32 else 255, hart := hart, unit := unit
    addr := addr, syndrome := syndrome }

/-- LANE_RETIRED: a lane cluster reports an uncorrectable error: LANEDIS, the log, cause 13 at control-core hart 0 (R217,
R257). -/
def execLaneRetired (core lane elem : Nat) (syndrome : Word) (s : State) : Out :=
  let d := dieOfCore core
  let cl := lane / 16
  if 128 ≤ core || 256 ≤ lane || 131072 ≤ elem || (s.core core).lanedis.getLsbD cl then notEnabled "LANE_RETIRED"
  else
    let s := s.modCore core fun c => { c with lanedis := c.lanedis ||| (1#16 <<< cl) }
    let s := s.logErr d (errOf s 11 core 255 (lane * 256 + cl) (BitVec.ofNat 64 elem) syndrome)
    event (s.modHart (controlHart d) fun x =>
      { x with asyncs := x.asyncs ++ [(13, BitVec.ofNat 64 (core * 2 ^ 56 + lane * 2 ^ 48 + elem))] })

/-! ## Failing agents (R199) -/

/-- The owner is the agent, or its engine. -/
def Agent.owns (a : Agent) (o : Owner) : Bool := match a, o with
  | .core n, .core m | .core n, .engine m => n == m
  | .slot d k, .slot e j => d == e && k == j
  | .die n, .core m | .die n, .engine m => dieOfCore m == n
  | .die n, .slot e _ | .die n, .sched e => n == e
  | _, _ => false

/-- The homes poison every word registered to the agent; registrations of it on their way are discarded. -/
def State.poisonAgent (s : State) (a : Agent) : State :=
  let ws := s.tables.flatMap fun t => (t.filter fun e => Agent.owns a e.owner).flatMap RangeEntry.words
  { s with bad := ws.foldl addWord s.bad
           tables := s.tables.map fun t => t.filter fun e => !Agent.owns a e.owner
           regs := s.regs.filter fun r => !Agent.owns a (.core r.core)
           atoms := s.atoms.filter fun k => !Agent.owns a (.core (coreOf k.hart))
           ras := s.ras.filter fun m => !Agent.owns a (.core (coreOf m.hart)) }

/-- The unacknowledged stores of a hart of a failed core are lost. -/
def Hart.fail (x : Hart) : Hart := { x.flushQueue with sbuf := [], elems := [], tents := [] }

/-- A member on a failed core leaves its pack, which waits for no acknowledgement of it (R251; DESIGN CHOICE, log 68). -/
def State.failMember (s : State) (h : Nat) : State := match (s.hart h).pack with
  | some m => (s.packLeave m.obj h).modHart h fun x => { x.fail with pack := none }
  | none => s.modHart h Hart.fail

/-- A core fails: it is retired with its L1, its queues and its harts' stores. -/
def State.failCore (s : State) (c : Nat) : State :=
  (hartsOf c).foldl (fun (t : State) h => t.failMember h)
    (s.modCore c fun x => { x with retired := true, l1 := [], ul1 := [], chans := List.replicate 4 [], leaseq := [] })

/-- What the agent's failure does beyond the homes. -/
def State.failAgent (s : State) (a : Agent) : State := match a with
  | .core n => s.failCore n
  | .slot d k => s.modDie d fun x => x.setSlot k none
  | .die n =>
    ((List.range 136).foldl (fun (t : State) c => if dieOfCore c = n then t.failCore c else t) s).modDie n fun x =>
      { x with lost := true, slots := List.replicate 8 none }

/-- The agent exists and has not failed yet. -/
def State.agentWorks (s : State) (a : Agent) : Bool := match a with
  | .core n => decide (n < 136) && !(s.core n).retired
  | .slot d k => decide (d < 4) && ((s.die d).slot k).isSome
  | .die n => decide (n < 4) && !(s.die n).lost

/-- The die whose log records the failure, the kind, the core and the unit (log 26). -/
def Agent.record (a : Agent) : Nat × Nat × Nat × Nat := match a with
  | .core n => (dieOfCore n, 3, n, 0)
  | .slot d k => (d, 4, 255, k)
  | .die n => (n, 7, 255, n)

/-! ## The fatal stop (R271) -/

/-- CAUSE of the dump. -/
def fatalCode : FatalCause → Nat
  | .controlState => 1 | .dieLink => 2 | .pseudoChannel => 3 | .watchdog => 4 | .thermal => 5

/-- The last 65,536 bytes of a core's trace ring; with WRAP set the bytes before the head go on from the ring's end (R161). -/
def State.ringTail (s : State) (c : Nat) : List Byte :=
  let t := (s.core c).trace
  if wbit t.ctl 1 then
    let n := min 65536 t.size.toNat
    (List.range n).map fun i => s.homeByte (t.base.toNat + (t.head + t.size.toNat + i - n) % t.size.toNat)
  else
    let n := min 65536 t.head
    s.homeBytes (t.base.toNat + t.head - n) n

/-- A hart's part of the dump. -/
def Hart.dump (x : Hart) : List Byte :=
  ([x.stvec, x.sepc, x.scause, x.stval, x.sstatus, x.sstart, x.pc, BitVec.ofNat 64 x.vstart,
    (match x.task with
      | some t => t.handle
      | none => 0)] : List Word).flatMap wordBytes

/-- The state of a millpond slot. -/
def pondCode : Option PondGroup → Nat
  | none => 0
  | some g => match g.state with
    | .waiting => 1 | .ready => 2 | .streaming => 3

/-- A millpond slot's part of the dump: its state, then the group's tile, format, partition, the time it became READY, and
its rows: descriptor, number, hart, deadline. -/
def pondDump (g : Option PondGroup) : List Byte :=
  leBytes 8 (pondCode g) ++ match g with
    | none => []
    | some g =>
      leBytes 8 g.addr ++ leBytes 8 g.fmt ++ leBytes 8 g.part ++ leBytes 8 g.readyAt ++ leBytes 8 g.rows.length ++
      g.rows.flatMap fun r => wordBytes r.desc ++ leBytes 8 r.num ++ leBytes 8 r.hart ++ leBytes 8 r.deadline

/-- A millrace slot's part: the hart plus 1, or 0; the iteration, and the mark's K, PC and count. -/
def slotDump : Option Slot → List Byte
  | none => leBytes 8 0
  | some u => leBytes 8 (1 + u.hart) ++ leBytes 8 u.k ++ leBytes 8 u.mark.k ++ wordBytes u.mark.mpc ++ wordBytes u.mark.count

/-- A pack's part: its handle, where its object stands, the object, and its lines. -/
def Pack.dump (p : Pack) : List Byte :=
  let ls := p.lines
  wordBytes p.handle ++ leBytes 8 p.pa ++ p.bytes ++ leBytes 8 ls.length ++ (ls.flatMap fun l => leBytes 8 (64 * l)) ++
  leBytes 8 p.reads.length ++ p.reads.flatMap fun w => leBytes 8 (4 * w)

/-- A die's section: the error log, the harts, the millpond groups, the slots, the pack directory, the heads of the queues,
the ends of the trace rings; its items are words in this order (log 27). -/
def State.dumpSection (s : State) (d : Nat) : List Byte :=
  let x := s.die d
  let cores := (List.range 32).map (32 * d + ·)
  (x.errs.flatMap fun r => (List.range 4).flatMap fun w => wordBytes (r.word w)) ++
  (((List.range 256).map (256 * d + ·) ++ [1024 + 2 * d, 1025 + 2 * d]).flatMap fun h => (s.hart h).dump) ++
  (cores.flatMap fun c => (s.core c).pond.flatMap pondDump) ++
  (x.slots.flatMap slotDump) ++ ((s.packs.filter fun p => p.die == d).flatMap Pack.dump) ++
  (x.levels.flatMap fun l => match l.recs with
    | q :: _ => wordBytes q.handle
    | [] => leBytes 8 0) ++
  cores.flatMap fun c => s.ringTail c

/-- Sections of the dies in a mask. -/
def State.dumpSections (s : State) (dies : Nat) : List (Nat × List Byte) :=
  ((List.range 4).filter fun d => decide (dies / 2 ^ d % 2 = 1)).map fun d => (d, s.dumpSection d)

/-- Bytes of the section of a die; 0 where it has none. -/
def sectionSize (l : List (Nat × List Byte)) (d : Nat) : Nat := match l.find? fun p => p.1 == d with
  | some p => p.2.length
  | none => 0

/-- The first 4,096 bytes of the dump. -/
def dumpHead (f : Fatal) (l : List (Nat × List Byte)) : List Byte :=
  leBytes 4 1 ++ leBytes 4 f.cause ++ leBytes 8 f.time ++ leBytes 1 f.origin ++ leBytes 1 f.dies ++ leBytes 14 0 ++
  ((List.range 4).flatMap fun d => leBytes 8 (d * 2 ^ 30 + 4096)) ++
  ((List.range 4).flatMap fun d => leBytes 8 (sectionSize l d)) ++ leBytes 4000 0

/-- Where the dump goes: device memory, or the host address where that is unusable. -/
def State.dumpBase (s : State) (c : FatalCause) : Option Nat :=
  if c = .pseudoChannel || s.bringup != .up then s.dumpAddr.map fun a => a.toNat else some 0x7E40000000

/-- The dump is written. -/
def State.writeDump (s : State) (f : Fatal) (base : Nat) : State :=
  let l := s.dumpSections f.dies
  l.foldl (fun (t : State) p => t.memPut (base + p.1 * 2 ^ 30 + 4096) p.2) (s.memPut base (dumpHead f l))

/-- KIND of a fatal error's record; a cause that R276 gives no kind has 0 (log 26). -/
def fatalKind : FatalCause → Nat
  | .controlState => 4 | .dieLink => 7 | .pseudoChannel => 6 | .watchdog | .thermal => 0

/-- A fatal error is recorded and stops the package (R271, R276). UNIT of a failed pseudo-channel is its number, which the row
does not give: a free value (log 26). -/
def State.fatalStop (s : State) (c : FatalCause) (origin dies : Nat) : State :=
  let unit := if c = .pseudoChannel then Config.failedChannel s.fresh else 0
  let s := { s.logErr origin { time := s.gtime, kind := fatalKind c, severity := 2, core := 255, hart := 255, unit := unit, addr := 0
                               syndrome := 0 } with fresh := s.fresh + 1 }
  let f : Fatal := { cause := fatalCode c, time := s.gtime, origin := origin, dies := dies % 16 }
  let s := { s with fatal := some f }
  match s.dumpBase c with
  | some b => s.writeDump f b
  | none => s

/-- REGISTER_SOFT_ERROR: an uncorrectable error in 32-bit word `word` of a vector register, or in a scalar register (R269,
R276). ADDR is the element index of the word at the current VEW (log 25). In a control core it is fatal (R271). -/
def execRegisterSoftError (h reg word : Nat) (scalar : Bool) (syndrome : Word) (s : State) : Out :=
  let x := s.hart h
  let e := fun (kind : Nat) (addr : Nat) => errOf s kind (coreOf h) (localHart h) reg (BitVec.ofNat 64 addr) syndrome
  if 1032 ≤ h then notEnabled "REGISTER_SOFT_ERROR"
  else if isControl h then
    (if s.fatal.isSome || !scalar || reg = 0 || 64 ≤ reg then notEnabled "REGISTER_SOFT_ERROR"
    else event ((s.logErr (dieOf h) (e 2 0)).fatalStop .controlState (dieOf h) 15))
  else if scalar then
    (if reg = 0 || 64 ≤ reg then notEnabled "REGISTER_SOFT_ERROR"
    else event ((s.modHart h fun y => { y with sbad := y.sbad ||| (1#64 <<< reg) }).logErr (dieOf h) (e 2 0)))
  else if x.nvreg ≤ reg || x.vbytes < 4 * word + 4 then notEnabled "REGISTER_SOFT_ERROR"
  else
    let w := vaddr (BitVec.ofNat 6 reg) (4 * word) / 4
    event ((s.modHart h fun y => { y with vbad := addWord y.vbad w }).logErr (dieOf h) (e 1 (4 * word / (x.vew / 8))))

/-- AGENT_FAILURE. The error that retires a control core is one of its state and stops the package (R199, R271). -/
def execAgentFailure (a : Agent) (syndrome : Word) (s : State) : Out :=
  if s.agentWorks a then
    let r := Agent.record a
    if r.2.2.1 < 136 && decide (128 ≤ r.2.2.1) then
      (if s.fatal.isSome then notEnabled "AGENT_FAILURE"
      else event ((s.logErr r.1 (errOf s r.2.1 r.2.2.1 255 r.2.2.2 0 syndrome)).fatalStop .controlState r.1 15))
    else
    event (((s.poisonAgent a).failAgent a).logErr r.1 (errOf s r.2.1 r.2.2.1 255 r.2.2.2 0 syndrome))
  else notEnabled "AGENT_FAILURE"

/-- FATAL_ERROR. A thermal trip has its own row. -/
def execFatalError (c : FatalCause) (origin dies : Nat) (s : State) : Out :=
  if s.fatal.isSome || 4 ≤ origin || c = .thermal then notEnabled "FATAL_ERROR" else event (s.fatalStop c origin dies)

/-- THERMAL_TRIP: a sensor of a die at 110 degrees, or flow below 2.5 L/min for 1 s (R288). -/
def execThermalTrip (d : Nat) (_byFlow : Bool) (s : State) : Out :=
  if s.fatal.isSome || 4 ≤ d then notEnabled "THERMAL_TRIP" else event (s.fatalStop .thermal d 15)

end Sys2Proof.Machine
end

