-- ==== Sys2Proof/Machine/HostPort.lean ====
section
/-! DEFINITION. The host port: notifies (R281), CXL.mem reads and writes (R277, R279, R293), snoops (R280, R293), the
mailbox and bring-up (R137, R290, R291), power gating (R280) and control register writes (R274, R275). -/

namespace Sys2Proof.Machine

/-! ## Control register writes from outside the cores (R161, R274, R275, R376) -/

/-- Bring-up is over: before it, and after a failed step, the device offers configuration space and the mailbox at most
(R290). -/
def State.offered (s : State) : Bool := s.bringup == .up

/-- TRCTL_WRITE. -/
def execTrctlWrite (core : Nat) (v : Word) (s : State) : Out :=
  if core < 128 && s.offered then event (s.writeTrctl core v) else notEnabled "TRCTL_WRITE"
/-- PARTCORE_WRITE. -/
def execPartcoreWrite (core : Nat) (v : Word) (s : State) : Out :=
  if core < 128 && s.offered then event (s.writePartcore core v) else notEnabled "PARTCORE_WRITE"
/-- PARTITION_CHANGE: the core is idle (R275). -/
def execPartitionChange (core : Nat) (s : State) : Out :=
  if decide (core < 128) && (s.core core).partPending.isSome && s.coreIdle core then event (s.changePartition core)
  else notEnabled "PARTITION_CHANGE"
/-- QRING_WRITE. -/
def execQringWrite (d part level : Nat) (size : Bool) (v : Word) (s : State) : Out :=
  if d < 4 ∧ part < 16 ∧ level < 8 ∧ s.offered then event (s.writeQring d part level size v) else notEnabled "QRING_WRITE"
/-- QUEUE_MAP: a QMAP write with MAPPED = 1. -/
def execQueueMap (d q : Nat) (v : Word) (s : State) : Out :=
  if decide (d < 4) && decide (q < 4096) && wbit v 0 && s.offered then event (s.mapQueue d q v) else notEnabled "QUEUE_MAP"
/-- QUEUE_UNMAP: a QMAP write with MAPPED = 0. -/
def execQueueUnmap (d q : Nat) (v : Word) (s : State) : Out :=
  if decide (d < 4) && decide (q < 4096) && !wbit v 0 && s.offered then event (s.unmapQueue d q v) else notEnabled "QUEUE_UNMAP"
/-- QSUBMIT. -/
def execQsubmit (d : Nat) (v : Word) (s : State) : Out :=
  if d < 4 && s.offered then event (s.submit d v) else notEnabled "QSUBMIT"
/-- MRRECLAIM. -/
def execMrreclaim (d : Nat) (v : Word) (s : State) : Out :=
  if d < 4 && s.offered then event (s.writeMrreclaim d v) else notEnabled "MRRECLAIM"
/-- XGCTL_WRITE. -/
def execXgctlWrite (d : Nat) (v : Word) (s : State) : Out :=
  if d < 4 && s.offered then event (s.writeXgctl d v) else notEnabled "XGCTL_WRITE"

/-- A register whose write has no row of its own. -/
def CReg.plain : CReg → Bool
  | .window .. | .thctl | .wdctl | .errtail | .xgtimeout | .err .. | .errhead | .errlost | .xgseq | .none => true
  | .trace _ k => k != 0
  | _ => false

/-- CONFIG_REGISTER_WRITE: every other register of a die's space. -/
def execConfigRegisterWrite (d off : Nat) (v : Word) (s : State) : Out :=
  let r := cregOf d off
  if decide (d < 4) && decide (off < 2 ^ 24) && decide (off % 8 = 0) && r.plain && s.offered then event (s.writeCreg d r v)
  else notEnabled "CONFIG_REGISTER_WRITE"

/-! ## Notify (R281) -/

/-- The die that maps queue q. -/
def State.queueDie (s : State) (q : Nat) : Option Nat :=
  (List.range 4).find? fun d => (s.die d).qmap.any fun e => e.1 == q && wbit e.2 0

/-- NOTIFY: a write of v to the notify page of queue q sets TAIL; the records of a mapped queue are processed once the cycle has
ended, so that an unmapping in the same cycle comes first (R281, R292). A queue that no die has mapped has no descriptor to
write (log 28). -/
def execNotify (q : Nat) (v : Word) (s : State) : Out :=
  if 4096 ≤ q || !s.offered then notEnabled "NOTIFY"
  else match s.queueDie q with
    | some d => match (s.die d).queue q with
      | some desc =>
        event { s.agentWrite (some (.sched d)) (desc + 24) (leBytes 8 v.toNat) with
          notified := if s.notified.contains (q, d) then s.notified else s.notified ++ [(q, d)] }
      | none => notEnabled "NOTIFY"
    | none => match s.queueDesc q with
      | some desc =>
        event ((s.hostPut (desc + 24) (leBytes 8 v.toNat)).hostPut (desc + 32) [1])
      | none => event s

/-- The scheduler processes the records of a notified queue; where an access of it must wait it tries again (log 66). -/
def State.serveNotify (s : State) (n : Nat × Nat) : State := match (s.die n.2).queue n.1 with
  | some desc =>
    let t := s.processQueue n.2 desc
    match t.want with
    | none => t
    | some (pa, k, w) => { (s.unblocks pa k w).getD s with notified := s.notified ++ [n] }
  | none => s

/-- Every notified queue is served. -/
def State.serveNotifies (s : State) : State :=
  if s.notified.isEmpty then s else s.notified.foldl (fun (t : State) n => t.serveNotify n) { s with notified := [] }

/-! ## CXL.mem (R277, R279, R293) -/

/-- A host access of `w` bytes within one line of device memory. -/
def hostSpan (pa w : Nat) : Bool :=
  decide (0 < w) && decide (w ≤ 8) && decide (pa % 64 + w ≤ 64) && decide (pa + w ≤ Config.deviceBytes)

/-- The host may hold the line (R293). -/
def State.holdLine (s : State) (line : Nat) : State :=
  if s.hostLines.contains line then s else { s with hostLines := line :: s.hostLines }

/-- A request of the host in host bias sets the line's bit when it arrives (R293). -/
def State.hostArrives (s : State) (pa : Nat) : State := if s.hostBias pa then s.holdLine (pa / 64) else s

/-- HOST_MEM_READ: the value at the home and the poison indication (R199); in host bias the host may cache the line. A read of
a word whose held store waits for a page move waits for it (R152). -/
def execHostMemRead (pa w : Nat) (s : State) : Out :=
  if !s.offered || !hostSpan pa w || s.heldStore pa w then notEnabled "HOST_MEM_READ"
  else event { s.hostArrives pa with hostRead := (s.homeBytes pa w, poisoned s.bad pa w) }

/-- HOST_MEM_WRITE: in device bias it is performed at the home under the host's identity; in host bias at the memory-side
slice. A write to a live pack object is discarded (R236 has it raise cause 5, which a host cannot take: DESIGN CHOICE, log 28).
-/
def execHostMemWrite (pa w : Nat) (v : Word) (s : State) : Out :=
  if !s.offered || !hostSpan pa w then notEnabled "HOST_MEM_WRITE"
  else if s.inPackObject pa w then event (s.hostArrives pa)
  else event ((s.hostArrives pa).hostPut pa (leBytes w v.toNat))

/-- HOST_SNOOP: a snoop of a host-memory line is answered from its owner; an invalidating one takes the copies away (R280).
-/
def execHostSnoop (line : Nat) (k : SnoopKind) (s : State) : Out :=
  let pa := 64 * line
  if !(decide (Config.hostBase ≤ pa) && decide (pa < Config.hostEnd)) then notEnabled "HOST_SNOOP"
  else
    let s := s.recallRange pa 64
    let s := (List.range 136).foldl (fun (t : State) c => match (t.core c).uline line with
      | some _ => t.cleanLine c line
      | none => t) s
    event (if k = .shared then s else
      { s with cores := s.cores.map fun c => { c with l1 := c.l1.filter fun w => w.w / 16 != line
                                                      ul1 := c.ul1.filter fun u => u.line != line } })

/-- SNOOP_RESPONSE: the host answers a back-invalidate snoop; data it carries is written to device memory, and the
host-held bit clears (R293). -/
def execSnoopResponse (line : Nat) (data : Option (List Byte)) (s : State) : Out :=
  let fits := match data with
    | some bs => bs.length == 64
    | none => true
  let held := s.heldPuts.any fun p => p.src == .response && p.pa == 64 * line
  if !s.snooping (64 * line) || held || !fits then notEnabled "SNOOP_RESPONSE"
  else
    event ((match data with
      | some bs => s.snoopPut (64 * line) bs
      | none => s.endSnoop line).cleanHolds)

/-- BIAS_SNOOP_TIMEOUT: a snoop of a BIASSET.dev is 1,000,000 ns old: cause 6 with the page; it stays in host bias (R279). A
response that comes later is taken as any other (R293). -/
def execBiasSnoopTimeout (h : Nat) (s : State) : Out := match s.flipPage h with
  | none => notEnabled "BIAS_SNOOP_TIMEOUT"
  | some pa =>
    let old := s.snoops.any fun n => n.line / 64 == pa / 4096 && decide (n.sent + 1000000 ≤ s.gtime)
    if s.flips.contains (pa / 4096) && old then
      let s := { s with flips := s.flips.filter (fun p => p != pa / 4096) }.cleanHolds
      event ((s.takeTrap h false 6 (s.hart h).pc (BitVec.ofNat 64 pa) (s.hart h).iword).noteDest h 6
        (destOfItem (s.hart h).item))
    else notEnabled "BIAS_SNOOP_TIMEOUT"

/-! ## Reset and bring-up (R137, R280, R290, R291) -/

/-- Bytes of host memory, which a reset of the device leaves. -/
def Memory.hostPart (m : Memory) : Memory := m.filter fun c => decide (Config.hostBase ≤ c.1)

/-- Registrations of host memory words still on their way are performed in their order; at most `n`. -/
def State.flushRegs (s : State) : Nat → State
  | 0 => s
  | n + 1 => match s.regs.zipIdx.find? fun p => decide (Config.hostBase ≤ 4 * p.1.w) with
    | some p => State.flushRegs (s.performReg p.2 p.1) n
    | none => s

/-- The reset flush writes modified lines of host memory back (R280). -/
def State.flushHost (s : State) : State :=
  let s := s.flushRegs s.regs.length
  let ws := (s.cores.flatMap fun c => c.l1.map fun w => w.w).filter fun w => decide (Config.hostBase ≤ 4 * w)
  (List.range 136).foldl (fun (t : State) c =>
    ((t.core c).ul1.filter fun u => decide (Config.hostBase ≤ 64 * u.line)).foldl (fun (u : State) l => u.cleanLine c l.line) t)
    (ws.foldl State.recall s)

/-- A power-on or CXL reset: every piece of state at its reset value, host memory and the global time as they are. -/
def State.coldReset (s : State) : State :=
  let t := s.flushHost
  { State.reset with mem := Memory.hostPart t.mem, gtime := s.gtime, agenda := s.agenda, fresh := s.fresh
                     epoch := s.epoch }

/-- The repair map moves up to three failed pseudo-channels onto the spares 509, 510 and 511 (R137). -/
def repairOf (failed : List Nat) : List (Nat × Nat) :=
  let spares := [509, 510, 511].filter fun p => !failed.contains p
  ((failed.filter fun p => decide (p < 509)).zip spares)

/-- Ports after training. -/
def trainPorts (failed : List Nat) : List Port :=
  (List.range 18).map fun p => { Port.reset with enabled := !failed.contains p }

/-- The record of a peer link: KIND 8, UNIT the port; the log of die 0 keeps it (log 26). -/
def State.logPort (s : State) (port severity : Nat) : State :=
  s.logErr 0 { time := s.gtime, kind := 8, severity := severity, core := 255, hart := 255, unit := port, addr := 0, syndrome := 0 }

/-- Failed ports are reported (R283, R290). -/
def State.reportPorts (s : State) (failed : List Nat) : State :=
  ((List.range 18).filter fun p => failed.contains p).foldl (fun (t : State) p => t.logPort p 1) s

/-- Steps 2 to 5 of bring-up: a failure of device memory is reported through the mailbox, so the link is trained all the
same. -/
def State.train (s : State) (b : BringUp) : State :=
  let s := { s with image := b.digest, linkUp := b.cxlOk }
  if 3 < b.failedPcs.length then { s with bringup := .noMemory }
  else
    let s := { s with repair := repairOf b.failedPcs }
    if !b.cxlOk then { s with bringup := .noLink }
    else
      let s := { s.reportPorts b.failedPorts with ports := trainPorts b.failedPorts, bringup := .up }
      (List.range 8).foldl (fun (t : State) k => t.modHart (1024 + k) fun x => { x with pc := b.entry }) s

/-- BRING_UP: after power-on or a CXL reset (R290). -/
def execBringUp (b : BringUp) (s : State) : Out :=
  let s := s.coldReset
  event (if b.imageOk then s.train b else { s with bringup := .recovery, linkUp := b.cxlOk })

/-- The mailbox answers. -/
def State.mailbox (s : State) : Bool := s.linkUp

/-- MAILBOX_RECOVERY_IMAGE: command 0xC001; an image that fails verification is never started (R291). -/
def execMailboxRecoveryImage (valid : Bool) (b : BringUp) (s : State) : Out :=
  if s.bringup = .recovery && s.mailbox then event (if valid then s.train b else s) else notEnabled "MAILBOX_RECOVERY_IMAGE"

/-- MAILBOX_DUMP_ADDRESS: command 0xC002. -/
def execMailboxDumpAddress (a : Word) (s : State) : Out :=
  if s.mailbox then event { s with dumpAddr := some a } else notEnabled "MAILBOX_DUMP_ADDRESS"
/-- MAILBOX_BRINGUP_STATUS: command 0xC003 reads State.bringup. -/
def execMailboxBringupStatus (s : State) : Out := if s.mailbox then event s else notEnabled "MAILBOX_BRINGUP_STATUS"
/-- The answer to an SPDM request: the digests of the image and of the fuses with their signature, or the device's part of a
key exchange (R273, R291). -/
def State.spdmReply (s : State) (measurements : Bool) : List Byte :=
  if measurements then
    leBytes 48 s.image.toNat ++ leBytes 48 Config.fuseDigest.toNat ++
    leBytes 96 (Config.signature s.spdm s.image Config.fuseDigest).toNat
  else leBytes 96 (Config.ideAnswer s.spdm).toNat

/-- DOE_SPDM_REQUEST (R291). -/
def execDoeSpdmRequest (measurements : Bool) (s : State) : Out :=
  if s.mailbox then event { s with spdm := s.spdm + 1, spdmAnswer := s.spdmReply measurements }
  else notEnabled "DOE_SPDM_REQUEST"

/-! ## Power gating (R154, R280) -/

/-- Nothing of the core is at work. -/
def State.gateable (s : State) (c : Nat) : Bool :=
  let x := s.core c
  s.coreIdle c && x.chans.all (fun q => q.isEmpty) && x.leaseq.isEmpty &&
  ((hartsOf c).all fun h =>
    let y := s.hart h
    y.priv == .user && y.sbuf.isEmpty && y.elems.isEmpty && y.queueIdle && y.lease == 0) &&
  !(s.regs.any fun r => r.core == c) && !(s.atoms.any fun a => coreOf a.hart == c) && !(s.ras.any fun m => coreOf m.hart == c)

/-- Every modified line of the core is written back and leaves L1. -/
def State.emptyL1 (s : State) (c : Nat) : State :=
  let s := ((s.core c).l1.map fun w => w.w).foldl (fun (t : State) w => t.evictWord c w) s
  ((s.core c).ul1.map fun u => u.line).foldl (fun (t : State) l => (t.cleanLine c l).dropLine c l) s

/-- CORE_POWER_GATING: an idle core is gated; its lane counters stop. -/
def execCorePowerGating (c : Nat) (s : State) : Out :=
  if decide (c < 128) && !(s.core c).gated && !(s.core c).retired && s.gateable c then
    event ((s.emptyL1 c).modCore c fun x => { x with gated := true })
  else notEnabled "CORE_POWER_GATING"

/-- CORE_POWER_UNGATING: power returns and the lane counters count again. -/
def execCorePowerUngating (c : Nat) (s : State) : Out :=
  if decide (c < 128) && (s.core c).gated then event (s.modCore c fun x => { x with gated := false })
  else notEnabled "CORE_POWER_UNGATING"

end Sys2Proof.Machine
end

