-- ==== Sys2Proof/Machine/Power.lean ====
section
/-! DEFINITION. Peer links (R283), the collective throttle (R285, R286), HBM temperature (R287), supply droops (R289) and the
trace records that clocks and sampling write (R162, R163). -/

namespace Sys2Proof.Machine

/-! ## SYNC and SAMPLE records (R162, R163) -/

/-- The step of a core's die. -/
def State.clockStep (s : State) (c : Nat) : Nat := (s.die (dieOfCore c)).throttle.step

/-- The SYNC record due in this cycle is written: its causes and the step in force, and the global time of its cause. DESIGN
CHOICE (log 68): its hart field is 0. -/
def State.putSync (s : State) (c : Nat) : State := match (s.core c).trace.sync with
  | some p =>
    (s.tracePut c (traceWord 0 0 (p.1 + s.clockStep c) (s.core c).cycle) (BitVec.ofNat 64 p.2)).modCore c fun x =>
      { x with trace := { x.trace with sync := none } }
  | none => s

/-- The SAMPLE record due in this cycle is written: the word issued in it, or the next word of the hart last selected. -/
def State.putSample (s : State) (c : Nat) : State :=
  let x := s.core c
  if x.trace.sample then
    let p := match x.issued with
      | some p => p
      | none => (x.hist.last % 8, (s.hart (8 * c + x.hist.last % 8)).pc)
    (s.writeRecord c 7 p.1 0 (s.core c).cycle p.2).modCore c fun y => { y with trace := { y.trace with sample := false } }
  else s

/-- The clock of a die stands still in the next nanosecond: of a clock-stretch episode one cycle in four may stretch, by one
nanosecond, which is less than a period (R289). Which do is free (log 58). -/
def Die.stands (x : Die) : Bool := match x.stretching with
  | some (_, last) => x.clock / Config.clockUnit % 4 == 3 && last != some (x.clock / Config.clockUnit) && Config.stretches x.clock
  | none => false

/-- The parts of a core cycle that a die's clock advances in the next nanosecond (R10, R285, R289). -/
def Die.rate (x : Die) : Nat := if x.stands then 0 else 28 - x.throttle.step

/-- The core's cycle ends with the next nanosecond, so no cause of a record can join it any more. -/
def State.cycleEnds (s : State) (c : Nat) : Bool :=
  let d := s.die (dieOfCore c)
  decide (d.clock / Config.clockUnit < (d.clock + d.rate) / Config.clockUnit)

/-- SYNC: a record is due in this cycle (R163). -/
def execSync (c : Nat) (s : State) : Out :=
  if decide (c < 128) && (s.core c).trace.sync.isSome && s.cycleEnds c then event (s.putSync c) else notEnabled "SYNC"

/-- SAMPLE: this cycle is a multiple of the sampling period (R162). -/
def execSample (c : Nat) (s : State) : Out :=
  if decide (c < 128) && (s.core c).trace.sample && ((s.core c).issued.isSome || s.cycleEnds c) then event (s.putSample c)
  else notEnabled "SAMPLE"

/-- A cause of a SYNC record, INFO[8:7]; causes in one cycle share a record (R163). -/
def Trace.dueSync (t : Trace) (bits now : Nat) : Trace :=
  if wbit t.ctl 0 && t.closing.isNone then
    match t.sync with
    | some p => { t with sync := some (p.1 ||| bits, p.2) }
    | none => { t with sync := some (bits, now) }
  else t

/-- Every core of a die is due a SYNC record. -/
def State.syncDie (s : State) (d bits : Nat) : State :=
  (List.range 32).foldl (fun (t : State) k =>
    t.modCore (32 * d + k) fun x => { x with trace := x.trace.dueSync bits s.gtime }) s

/-! ## Lyszir ports (R283) -/

/-- Port `p`. -/
def State.port (s : State) (p : Nat) : Port := getAt Port.reset s.ports p
/-- Writes it. -/
def State.setPort (s : State) (p : Nat) (x : Port) : State := { s with ports := putAt Port.reset s.ports p x }

/-- FLIT_RECEIVE: the next flit in order is taken. A flit that fails its CRC is logged as corrected, and the sender replays from
it out of its buffer of 256 flits: what follows it until then, and what has been taken before, is not taken again. One sequence
for a port is PRESUMED, its virtual channels sharing the buffer (log 58). -/
def execFlitReceive (p : Nat) (f : FlitHead) (crcOk : Bool) (payload : List Byte) (s : State) : Out :=
  let x := s.port p
  if 18 ≤ p || !x.enabled || payload.length ≠ 240 || x.nextSeq + 256 ≤ f.seq then notEnabled "FLIT_RECEIVE"
  else if crcOk && f.seq == x.nextSeq then
    event (s.setPort p { x with nextSeq := x.nextSeq + 1, taken := x.taken ++ [(f, payload)] })
  else
    let t := s.setPort p { x with replays := x.replays + 1 }
    event (if crcOk then t else t.logPort p 0)

/-- PORT_LANE_LOSS: the port goes on with 4 lanes; the loss is logged. -/
def execPortLaneLoss (p : Nat) (s : State) : Out :=
  let x := s.port p
  if 18 ≤ p || !x.enabled || x.lanes ≤ 4 then notEnabled "PORT_LANE_LOSS"
  else event ((s.setPort p { x with lanes := 4 }).logPort p 0)

/-! ## The collective throttle (R285, R286) -/

/-- The step a member asks for: its floor, and what power and temperature call for beyond their limits. -/
def stepRequest (floor : Nat) (x : ThrottleIn) : Nat :=
  max (min floor 14)
    (if x.power ≤ 1800 ∧ x.hottest ≤ 1000 then 0 else min 14 (Config.throttleStep x.power x.hottest).toNat)

/-- A die's throttle member. -/
def State.thr (s : State) (d : Nat) : Throttle := (s.die d).throttle
/-- Changes it. -/
def State.modThr (s : State) (d : Nat) (f : Throttle → Throttle) : State :=
  s.modDie d fun x => { x with throttle := f x.throttle }

/-- The members of die d's group in this package. Dies outside every collective group throttle as one group of the package
(DESIGN CHOICE, log 58). -/
def State.members (s : State) (d : Nat) : List Nat := (s.inGroup d).filter fun e => (s.thr e).member

/-- The group of die d has members in other packages (R284, R376). -/
def State.reachesOut (s : State) (d : Nat) : Bool :=
  wbit (s.die d).xgctl 0 && decide ((s.inGroup d).length < groupSizeOf (s.die d).xgctl)

/-- The largest request over the members; what those in other packages request is free (log 58). -/
def State.largest (s : State) (d : Nat) : Nat :=
  ((s.members d).map fun e => (s.thr e).request).foldl max
    (if s.reachesOut d then min 14 (Config.remoteRequest s.fresh).toNat else 0)

/-- The leader of die d's group in this package: the member whose THCTL.LEADER is set. -/
def State.leader (s : State) (d : Nat) : Option Nat := (s.members d).find? fun e => wbit (s.die e).thctl 8

/-- The leader announces a step with its effect time. -/
def State.announce (s : State) (d step : Nat) : State :=
  s.modThr d fun t => { t with announced := some (step, s.gtime + 2000), acks := 2 ^ d, heard := s.gtime }

/-- The leader sees the largest request `m`: it stays at or below each step from now, or from before. -/
def Throttle.see (t : Throttle) (now m : Nat) : Throttle :=
  { t with since := (List.range 16).map fun k =>
      if k < m then none else match getAt none t.since k with
        | some t0 => some t0
        | none => some now }

/-- The largest request has stayed at or below step k for 100,000 ns. -/
def Throttle.stayed (t : Throttle) (now k : Nat) : Bool := match getAt none t.since k with
  | some t0 => decide (t0 + 100000 ≤ now)
  | none => false

/-- The leader's decision: a higher step at once; a lower one once the largest request has stayed at or below it for
100,000 ns (R285). -/
def State.decide_ (s : State) (d : Nat) : State :=
  let m := s.largest d
  let s := { s.modThr d fun t => t.see s.gtime m with fresh := s.fresh + 1 }
  let t := s.thr d
  if t.announced.isSome then s
  else if t.step < m then s.announce d m
  else match (List.range t.step).find? fun k => t.stayed s.gtime k with
    | some k => s.announce d k
    | none => s

/-- A die that has left its group applies its own request (R286). -/
def State.applyOwn (s : State) (d : Nat) : State :=
  if (s.thr d).step = (s.thr d).request then s
  else (s.modThr d fun t => { t with step := t.request }).syncDie d 256

/-- A member evaluates its request every 10,000 ns (R285). -/
def Throttle.due (t : Throttle) (now : Nat) : Bool := match t.evaluated with
  | some t0 => decide (t0 + 10000 ≤ now)
  | none => true

/-- THROTTLE_EVALUATION: a member computes its request; the leader of its group may announce a step. -/
def execThrottleEvaluation (d : Nat) (x : ThrottleIn) (s : State) : Out :=
  if 4 ≤ d || !(s.thr d).due s.gtime then notEnabled "THROTTLE_EVALUATION"
  else
    let s := s.modThr d fun t => { t with request := stepRequest (field (s.die d).thctl 0 4) x, evaluated := some s.gtime }
    event (if !(s.thr d).member then s.applyOwn d else match s.leader d with
      | some l => s.decide_ l
      | none => s)

/-- THROTTLE_ANNOUNCEMENT: the leader's announcement reaches a member, which acknowledges it. A leader in another package
announces here too; its next announcement tells that it has cancelled the last one. -/
def execThrottleAnnouncement (d step t0 : Nat) (s : State) : Out :=
  let news := decide (d < 4) && (s.thr d).member && (s.thr d).announced != some (step, t0 + 2000)
  let sent := match s.leader d with
    | some l => d != l && (s.thr l).announced == some (step, t0 + 2000)
    | none => decide (step ≤ 14) && decide (t0 ≤ s.gtime)
  if news && sent then
    event (s.modThr d fun t => { t with announced := some (step, t0 + 2000), heard := s.gtime })
  else notEnabled "THROTTLE_ANNOUNCEMENT"

/-- THROTTLE_ACK: a member's acknowledgement reaches the leader by T − 1,000 ns. -/
def execThrottleAck (d : Nat) (s : State) : Out := match s.leader d with
  | none => notEnabled "THROTTLE_ACK"
  | some l => match (s.thr l).announced with
    | none => notEnabled "THROTTLE_ACK"
    | some (step, t) =>
      if decide (d < 4) && d != l && (s.thr d).announced == some (step, t) && decide ((s.thr l).acks / 2 ^ d % 2 = 0) &&
          decide (s.gtime + 1000 ≤ t) then
        event (s.modThr l fun u => { u with acks := u.acks + 2 ^ d })
      else notEnabled "THROTTLE_ACK"

/-- Every member of the leader's group has acknowledged; whether those in other packages have is free (log 58). -/
def State.allAcked (s : State) (l : Nat) : Bool :=
  ((s.members l).all fun d => decide ((s.thr l).acks / 2 ^ d % 2 = 1)) && (!s.reachesOut l || Config.remoteAcks s.fresh)

/-- The announcement is over in some dies. -/
def State.clearAnnounced (s : State) (ds : List Nat) : State :=
  ds.foldl (fun (t : State) d => t.modThr d fun u => { u with announced := none, acks := 0 }) s

/-- Dies change their clock; their SYNC records carry INFO[8]. -/
def State.changeStep (s : State) (ds : List Nat) (step : Nat) : State :=
  ds.foldl (fun (t : State) d => (t.modThr d fun u => { u with step := step }).syncDie d 256) s

/-- THROTTLE_EFFECT: at T the members of the leader `d` change their core clock, or the change is cancelled. A member of a
leader in another package changes its own; a change that the leader cancels has no effect row here. -/
def execThrottleEffect (d : Nat) (s : State) : Out :=
  match (s.thr d).announced with
  | some (step, t) =>
    if 4 ≤ d || s.gtime < t then notEnabled "THROTTLE_EFFECT"
    else match s.leader d with
      | some l =>
        let ds := s.members l
        if l ≠ d then notEnabled "THROTTLE_EFFECT"
        else
          let u := { s with fresh := s.fresh + 1 }
          event (if s.allAcked d then (u.changeStep ds step).clearAnnounced ds else u.clearAnnounced ds)
      | none =>
        if (s.thr d).member then event ((s.changeStep [d] step).clearAnnounced [d]) else notEnabled "THROTTLE_EFFECT"
  | none => notEnabled "THROTTLE_EFFECT"

/-- LEADER_SILENCE: a member that has heard nothing for 100,000 ns leaves the group and applies its own request. -/
def execLeaderSilence (d : Nat) (s : State) : Out :=
  let t := s.thr d
  if decide (d < 4) && t.member && s.leader d != some d && decide (t.heard + 100000 ≤ s.gtime) then
    event ((s.modThr d fun u => { u with member := false, announced := none }).applyOwn d)
  else notEnabled "LEADER_SILENCE"

/-! ## HBM temperature (R287) -/

/-- The band of a temperature in degrees: 0 to 3; 4 is a thermal trip. -/
def bandOf (t : Nat) : Nat := if t < 85 then 0 else if t < 95 then 1 else if t < 105 then 2 else if t < 115 then 3 else 4

/-- The lower bound of a band. -/
def bandLow (b : Nat) : Nat := if b = 0 then 0 else 75 + 10 * b

/-- A stack leaves a band downward only 3 degrees below its lower bound. -/
def bandDown (t : Nat) : Nat → Nat
  | 0 => 0
  | b + 1 => if t + 3 ≤ bandLow (b + 1) then bandDown t b else b + 1

/-- HBM_TEMP_SAMPLE. A stack at 115 degrees is a thermal trip (R271). -/
def execHbmTempSample (stack temp : Nat) (s : State) : Out :=
  let cur := getAt 0 s.bands stack
  let b := bandOf temp
  if 8 ≤ stack then notEnabled "HBM_TEMP_SAMPLE"
  else if b = 4 then
    (if s.fatal.isSome then notEnabled "HBM_TEMP_SAMPLE" else event (s.fatalStop .thermal (stack / 2) 15))
  else event { s with bands := putAt 0 s.bands stack (if cur ≤ b then b else bandDown temp cur) }

/-! ## Supply droops (R289) -/

/-- SUPPLY_DROOP: a clock-stretch episode starts. -/
def execSupplyDroop (d : Nat) (s : State) : Out :=
  if decide (d < 4) && (s.die d).stretching.isNone then
    event (s.modDie d fun x => { x with stretching := some (s.gtime, none) })
  else notEnabled "SUPPLY_DROOP"

/-- An episode ends: every core of the die writes a SYNC record with INFO[7] and the unchanged step. -/
def State.endStretch (s : State) (d : Nat) : State := (s.modDie d fun x => { x with stretching := none }).syncDie d 128

/-- STRETCH_END. -/
def execStretchEnd (d : Nat) (s : State) : Out :=
  if decide (d < 4) && (s.die d).stretching.isSome then event (s.endStretch d) else notEnabled "STRETCH_END"

/-- The episodes that have lasted 500 ns end (R289). -/
def State.endStretches (s : State) : State :=
  (List.range 4).foldl (fun (t : State) d => match (t.die d).stretching with
    | some (t0, _) => if t0 + 500 ≤ t.gtime then t.endStretch d else t
    | none => t) s

end Sys2Proof.Machine
end

