-- ==== Sys2Proof/Machine/Dispatch.lean ====
section
/-! DEFINITION. The meaning of every instruction and event: one arm for each constructor of Instr. -/

namespace Sys2Proof.Machine

/-- Executes an instruction for the hart State.cur, or lets an event come about. -/
def exec (i : Instr) (s : State) : Host.Outcome State Fault Refusal :=
  match i with
  | .add d a b => Sys2Proof.Machine.execAdd d a b s
  | .addi d a imm => Sys2Proof.Machine.execAddi d a imm s
  | .and d a b => Sys2Proof.Machine.execAnd d a b s
  | .andi d a imm => Sys2Proof.Machine.execAndi d a imm s
  | .clz d a => Sys2Proof.Machine.execClz d a s
  | .ctz d a => Sys2Proof.Machine.execCtz d a s
  | .div u d a b => Sys2Proof.Machine.execDiv u d a b s
  | .lea d a b sh => Sys2Proof.Machine.execLea d a b sh s
  | .li d imm => Sys2Proof.Machine.execLi d imm s
  | .liExt d val => Sys2Proof.Machine.execLiExt d val s
  | .max u d a b => Sys2Proof.Machine.execMax u d a b s
  | .min u d a b => Sys2Proof.Machine.execMin u d a b s
  | .mul d a b => Sys2Proof.Machine.execMul d a b s
  | .mulh u d a b => Sys2Proof.Machine.execMulh u d a b s
  | .or d a b => Sys2Proof.Machine.execOr d a b s
  | .ori d a imm => Sys2Proof.Machine.execOri d a imm s
  | .popc d a => Sys2Proof.Machine.execPopc d a s
  | .rem u d a b => Sys2Proof.Machine.execRem u d a b s
  | .sel d a b c => Sys2Proof.Machine.execSel d a b c s
  | .shl d a b => Sys2Proof.Machine.execShl d a b s
  | .shli k d a n => Sys2Proof.Machine.execShli k d a n s
  | .shr d a b => Sys2Proof.Machine.execShr d a b s
  | .slt u d a b => Sys2Proof.Machine.execSlt u d a b s
  | .slti u d a imm => Sys2Proof.Machine.execSlti u d a imm s
  | .sra d a b => Sys2Proof.Machine.execSra d a b s
  | .sub d a b => Sys2Proof.Machine.execSub d a b s
  | .xor d a b => Sys2Proof.Machine.execXor d a b s
  | .xori d a imm => Sys2Proof.Machine.execXori d a imm s
  | .mov d a => Sys2Proof.Machine.execMov d a s
  | .nop => Sys2Proof.Machine.execNop s
  | .fadd t rm d a b => Sys2Proof.Machine.execFadd t rm d a b s
  | .fsub t rm d a b => Sys2Proof.Machine.execFsub t rm d a b s
  | .fmul t rm d a b => Sys2Proof.Machine.execFmul t rm d a b s
  | .ffma t rm d a b c => Sys2Proof.Machine.execFfma t rm d a b c s
  | .fdiv t rm d a b => Sys2Proof.Machine.execFdiv t rm d a b s
  | .fmin t d a b => Sys2Proof.Machine.execFmin t d a b s
  | .fmax t d a b => Sys2Proof.Machine.execFmax t d a b s
  | .fcmp t rel d a b => Sys2Proof.Machine.execFcmp t rel d a b s
  | .fcvt dst src rm sat d a => Sys2Proof.Machine.execFcvt dst src rm sat d a s
  | .ld w sp d a off => Sys2Proof.Machine.execLd w sp d a off s
  | .st w sp d a off => Sys2Proof.Machine.execSt w sp d a off s
  | .amo op w32 post sp d a b => Sys2Proof.Machine.execAmo op w32 post sp d a b s
  | .cas w32 sp d a b c => Sys2Proof.Machine.execCas w32 sp d a b c s
  | .fenceAcq sc => Sys2Proof.Machine.execFenceAcq sc s
  | .fenceRel sc => Sys2Proof.Machine.execFenceRel sc s
  | .fenceFull sc => Sys2Proof.Machine.execFenceFull sc s
  | .vdrain k => Sys2Proof.Machine.execVdrain k s
  | .acquire sc a => Sys2Proof.Machine.execAcquire sc a s
  | .release sc a => Sys2Proof.Machine.execRelease sc a s
  | .bindr d a b c => Sys2Proof.Machine.execBindr d a b c s
  | .bindrUn d c => Sys2Proof.Machine.execBindrUn d c s
  | .tlwait d tl b timeout => Sys2Proof.Machine.execTlwait d tl b timeout s
  | .tlread issued d tl => Sys2Proof.Machine.execTlread issued d tl s
  | .waita cond inA d a b timeout => Sys2Proof.Machine.execWaita cond inA d a b timeout s
  | .cflush a b => Sys2Proof.Machine.execCflush a b s
  | .cflushInv a b => Sys2Proof.Machine.execCflushInv a b s
  | .cinval a b => Sys2Proof.Machine.execCinval a b s
  | .br cc a b disp => Sys2Proof.Machine.execBr cc a b disp s
  | .brnz a imm => Sys2Proof.Machine.execBrnz a imm s
  | .brz a imm => Sys2Proof.Machine.execBrz a imm s
  | .j disp => Sys2Proof.Machine.execJ disp s
  | .jExt target => Sys2Proof.Machine.execJExt target s
  | .jal a disp => Sys2Proof.Machine.execJal a disp s
  | .jalExt a target => Sys2Proof.Machine.execJalExt a target s
  | .jr d a off => Sys2Proof.Machine.execJr d a off s
  | .loopbr a disp => Sys2Proof.Machine.execLoopbr a disp s
  | .loopmarkWait a len => Sys2Proof.Machine.execLoopmarkWait a len s
  | .loopmarkAhead d a b c len => Sys2Proof.Machine.execLoopmarkAhead d a b c len s
  | .rpstat d => Sys2Proof.Machine.execRpstat d s
  | .yield => Sys2Proof.Machine.execYield s
  | .bkpt => Sys2Proof.Machine.execBkpt s
  | .trmark a tag => Sys2Proof.Machine.execTrmark a tag s
  | .spawn d a => Sys2Proof.Machine.execSpawn d a s
  | .join d a b => Sys2Proof.Machine.execJoin d a b s
  | .joinLvl d a => Sys2Proof.Machine.execJoinLvl d a s
  | .tcancel k d a => Sys2Proof.Machine.execTcancel k d a s
  | .gang d a b => Sys2Proof.Machine.execGang d a b s
  | .tself k d => Sys2Proof.Machine.execTself k d s
  | .tend => Sys2Proof.Machine.execTend s
  | .setmt n => Sys2Proof.Machine.execSetmt n s
  | .setnv n => Sys2Proof.Machine.execSetnv n s
  | .setsb add a imm => Sys2Proof.Machine.execSetsb add a imm s
  | .setseed a imm => Sys2Proof.Machine.execSetseed a imm s
  | .setvl d a width => Sys2Proof.Machine.execSetvl d a width s
  | .mlogic op d a b m => Sys2Proof.Machine.execMlogic op d a b m s
  | .mpopc d a m => Sys2Proof.Machine.execMpopc d a m s
  | .mfirst d a m => Sys2Proof.Machine.execMfirst d a m s
  | .vadd v => Sys2Proof.Machine.execVadd v s
  | .vsub v => Sys2Proof.Machine.execVsub v s
  | .vmul v => Sys2Proof.Machine.execVmul v s
  | .vmulh v => Sys2Proof.Machine.execVmulh v s
  | .vmulhr v => Sys2Proof.Machine.execVmulhr v s
  | .vdiv v => Sys2Proof.Machine.execVdiv v s
  | .vrem v => Sys2Proof.Machine.execVrem v s
  | .vmin v => Sys2Proof.Machine.execVmin v s
  | .vmax v => Sys2Proof.Machine.execVmax v s
  | .vand v => Sys2Proof.Machine.execVand v s
  | .vor v => Sys2Proof.Machine.execVor v s
  | .vxor v => Sys2Proof.Machine.execVxor v s
  | .vshl v => Sys2Proof.Machine.execVshl v s
  | .vshr v => Sys2Proof.Machine.execVshr v s
  | .vsra v => Sys2Proof.Machine.execVsra v s
  | .vrshr v => Sys2Proof.Machine.execVrshr v s
  | .vabs v => Sys2Proof.Machine.execVabs v s
  | .vneg v => Sys2Proof.Machine.execVneg v s
  | .vsqrt v => Sys2Proof.Machine.execVsqrt v s
  | .vrsqrt v => Sys2Proof.Machine.execVrsqrt v s
  | .vexp2 v => Sys2Proof.Machine.execVexp2 v s
  | .vfma v => Sys2Proof.Machine.execVfma v s
  | .vsel v => Sys2Proof.Machine.execVsel v s
  | .vclamp v => Sys2Proof.Machine.execVclamp v s
  | .vcmp rel v => Sys2Proof.Machine.execVcmp rel v s
  | .vcvt src v => Sys2Proof.Machine.execVcvt src v s
  | .vbscale v => Sys2Proof.Machine.execVbscale v s
  | .vpackni v => Sys2Proof.Machine.execVpackni v s
  | .vunpkni k v => Sys2Proof.Machine.execVunpkni k v s
  | .vmov byVew v => Sys2Proof.Machine.execVmov byVew v s
  | .vid v => Sys2Proof.Machine.execVid v s
  | .vext v => Sys2Proof.Machine.execVext v s
  | .vins v => Sys2Proof.Machine.execVins v s
  | .vslide up v => Sys2Proof.Machine.execVslide up v s
  | .vperm v => Sys2Proof.Machine.execVperm v s
  | .vcompress v => Sys2Proof.Machine.execVcompress v s
  | .vred op v => Sys2Proof.Machine.execVred op v s
  | .vadds d a b => Sys2Proof.Machine.execVadds d a b s
  | .vld v => Sys2Proof.Machine.execVld v s
  | .vst v => Sys2Proof.Machine.execVst v s
  | .vamo op v => Sys2Proof.Machine.execVamo op v s
  | .vbind d a => Sys2Proof.Machine.execVbind d a s
  | .vunbind d => Sys2Proof.Machine.execVunbind d s
  | .vcommit tag => Sys2Proof.Machine.execVcommit tag s
  | .wset fmt d a => Sys2Proof.Machine.execWset fmt d a s
  | .mrow f z d a b c => Sys2Proof.Machine.execMrow f z d a b c s
  | .mrowv f d a b c tag => Sys2Proof.Machine.execMrowv f d a b c tag s
  | .mkick a => Sys2Proof.Machine.execMkick a s
  | .mkickAll => Sys2Proof.Machine.execMkickAll s
  | .cpy src dst ch d a b c => Sys2Proof.Machine.execCpy src dst ch d a b c s
  | .cpy2d src dst ch d a b c => Sys2Proof.Machine.execCpy2d src dst ch d a b c s
  | .xred op t d tag => Sys2Proof.Machine.execXred op t d tag s
  | .pkalloc d a b life => Sys2Proof.Machine.execPkalloc d a b life s
  | .pkenter d a b => Sys2Proof.Machine.execPkenter d a b s
  | .pkcommit d => Sys2Proof.Machine.execPkcommit d s
  | .pkabort code => Sys2Proof.Machine.execPkabort code s
  | .pkstat code d a => Sys2Proof.Machine.execPkstat code d a s
  | .pkfree d a => Sys2Proof.Machine.execPkfree d a s
  | .csrr d csr => Sys2Proof.Machine.execCsrr d csr s
  | .csrw csr a => Sys2Proof.Machine.execCsrw csr a s
  | .ecall code => Sys2Proof.Machine.execEcall code s
  | .eret => Sys2Proof.Machine.execEret s
  | .eretKill a => Sys2Proof.Machine.execEretKill a s
  | .tlbinvVa d a b c => Sys2Proof.Machine.execTlbinvVa d a b c s
  | .tlbinvAsid d c => Sys2Proof.Machine.execTlbinvAsid d c s
  | .tlbinvAll d => Sys2Proof.Machine.execTlbinvAll d s
  | .tlbinvWait d b => Sys2Proof.Machine.execTlbinvWait d b s
  | .asidsw d a => Sys2Proof.Machine.execAsidsw d a s
  | .ctxsave d a => Sys2Proof.Machine.execCtxsave d a s
  | .ctxload d a => Sys2Proof.Machine.execCtxload d a s
  | .biassetHost d a b => Sys2Proof.Machine.execBiassetHost d a b s
  | .biassetDev d a b => Sys2Proof.Machine.execBiassetDev d a b s
  | .poisonclr a b => Sys2Proof.Machine.execPoisonclr a b s
  | .pmigP4k d a b => Sys2Proof.Machine.execPmigP4k d a b s
  | .pmigP2m d a b => Sys2Proof.Machine.execPmigP2m d a b s
  | .pmigRel d a b => Sys2Proof.Machine.execPmigRel d a b s
  | .vectorStart h => Sys2Proof.Machine.execVectorStart h s
  | .element h k => Sys2Proof.Machine.execElement h k s
  | .elementGroup h => Sys2Proof.Machine.execElementGroup h s
  | .streamPrefetch h reg => Sys2Proof.Machine.execStreamPrefetch h reg s
  | .loadDataArrival h => Sys2Proof.Machine.execLoadDataArrival h s
  | .drain h => Sys2Proof.Machine.execDrain h s
  | .register k => Sys2Proof.Machine.execRegister k s
  | .evict core line => Sys2Proof.Machine.execEvict core line s
  | .atomicStep k => Sys2Proof.Machine.execAtomicStep k s
  | .raMessageArrival k => Sys2Proof.Machine.execRaMessageArrival k s
  | .pageWalk h va acc => Sys2Proof.Machine.execPageWalk h va acc s
  | .tlbinvComplete die => Sys2Proof.Machine.execTlbinvComplete die s
  | .l2TlbEviction die k => Sys2Proof.Machine.execL2TlbEviction die k s
  | .illegalInstruction h => Sys2Proof.Machine.execIllegalInstruction h s
  | .instructionFetchFault h => Sys2Proof.Machine.execInstructionFetchFault h s
  | .copyTransfer core ch => Sys2Proof.Machine.execCopyTransfer core ch s
  | .copyFlagWrite core ch => Sys2Proof.Machine.execCopyFlagWrite core ch s
  | .rowCapture h => Sys2Proof.Machine.execRowCapture h s
  | .leash core slot => Sys2Proof.Machine.execLeash core slot s
  | .groupAge core slot => Sys2Proof.Machine.execGroupAge core slot s
  | .arrayTakeUp core => Sys2Proof.Machine.execArrayTakeUp core s
  | .tileLoad core => Sys2Proof.Machine.execTileLoad core s
  | .rowEnter core => Sys2Proof.Machine.execRowEnter core s
  | .rowResult core => Sys2Proof.Machine.execRowResult core s
  | .tileLatchError core => Sys2Proof.Machine.execTileLatchError core s
  | .rowError core k wspace => Sys2Proof.Machine.execRowError core k wspace s
  | .landingComplete h tag => Sys2Proof.Machine.execLandingComplete h tag s
  | .collectiveComplete die k contrib => Sys2Proof.Machine.execCollectiveComplete die k contrib s
  | .xredTimeout die k => Sys2Proof.Machine.execXredTimeout die k s
  | .millraceIteration die slot => Sys2Proof.Machine.execMillraceIteration die slot s
  | .replayComplete die slot => Sys2Proof.Machine.execReplayComplete die slot s
  | .departure die slot => Sys2Proof.Machine.execDeparture die slot s
  | .taskPop h => Sys2Proof.Machine.execTaskPop h s
  | .agingMove die part level => Sys2Proof.Machine.execAgingMove die part level s
  | .gangTimeout die k => Sys2Proof.Machine.execGangTimeout die k s
  | .cancelBroadcast die => Sys2Proof.Machine.execCancelBroadcast die s
  | .doneContPush die => Sys2Proof.Machine.execDoneContPush die s
  | .heldPush die => Sys2Proof.Machine.execHeldPush die s
  | .leaseGrant core => Sys2Proof.Machine.execLeaseGrant core s
  | .gtoStarvation h => Sys2Proof.Machine.execGtoStarvation h s
  | .packCountArrival h => Sys2Proof.Machine.execPackCountArrival h s
  | .packFlip handle => Sys2Proof.Machine.execPackFlip handle s
  | .packAbort handle code => Sys2Proof.Machine.execPackAbort handle code s
  | .memberRestore h => Sys2Proof.Machine.execMemberRestore h s
  | .tentativeStoreArrival h => Sys2Proof.Machine.execTentativeStoreArrival h s
  | .nonmemberHoldExpiry k => Sys2Proof.Machine.execNonmemberHoldExpiry k s
  | .packLifetimeExpiry handle => Sys2Proof.Machine.execPackLifetimeExpiry handle s
  | .timer h => Sys2Proof.Machine.execTimer h s
  | .watchdog h => Sys2Proof.Machine.execWatchdog h s
  | .waitaTimeout h => Sys2Proof.Machine.execWaitaTimeout h s
  | .tlwaitTimeout h => Sys2Proof.Machine.execTlwaitTimeout h s
  | .registerSoftError h reg word scalar syndrome => Sys2Proof.Machine.execRegisterSoftError h reg word scalar syndrome s
  | .laneRetired core lane elem syndrome => Sys2Proof.Machine.execLaneRetired core lane elem syndrome s
  | .agentFailure a syndrome => Sys2Proof.Machine.execAgentFailure a syndrome s
  | .fatalError c origin dieMask => Sys2Proof.Machine.execFatalError c origin dieMask s
  | .sync core => Sys2Proof.Machine.execSync core s
  | .sample core => Sys2Proof.Machine.execSample core s
  | .trctlWrite core v => Sys2Proof.Machine.execTrctlWrite core v s
  | .preemptRequest h => Sys2Proof.Machine.execPreemptRequest h s
  | .partcoreWrite core v => Sys2Proof.Machine.execPartcoreWrite core v s
  | .partitionChange core => Sys2Proof.Machine.execPartitionChange core s
  | .qringWrite die part level size v => Sys2Proof.Machine.execQringWrite die part level size v s
  | .queueMap die q v => Sys2Proof.Machine.execQueueMap die q v s
  | .queueUnmap die q v => Sys2Proof.Machine.execQueueUnmap die q v s
  | .qsubmit die v => Sys2Proof.Machine.execQsubmit die v s
  | .mrreclaim die v => Sys2Proof.Machine.execMrreclaim die v s
  | .xgctlWrite die v => Sys2Proof.Machine.execXgctlWrite die v s
  | .configRegisterWrite die off v => Sys2Proof.Machine.execConfigRegisterWrite die off v s
  | .notify q v => Sys2Proof.Machine.execNotify q v s
  | .hostMemRead pa w => Sys2Proof.Machine.execHostMemRead pa w s
  | .hostMemWrite pa w v => Sys2Proof.Machine.execHostMemWrite pa w v s
  | .hostSnoop line k => Sys2Proof.Machine.execHostSnoop line k s
  | .snoopResponse line data => Sys2Proof.Machine.execSnoopResponse line data s
  | .biasSnoopTimeout h => Sys2Proof.Machine.execBiasSnoopTimeout h s
  | .mailboxRecoveryImage valid b => Sys2Proof.Machine.execMailboxRecoveryImage valid b s
  | .mailboxDumpAddress a => Sys2Proof.Machine.execMailboxDumpAddress a s
  | .mailboxBringupStatus => Sys2Proof.Machine.execMailboxBringupStatus s
  | .doeSpdmRequest measurements => Sys2Proof.Machine.execDoeSpdmRequest measurements s
  | .bringUp b => Sys2Proof.Machine.execBringUp b s
  | .flitReceive port head crcOk payload => Sys2Proof.Machine.execFlitReceive port head crcOk payload s
  | .portLaneLoss port => Sys2Proof.Machine.execPortLaneLoss port s
  | .throttleEvaluation die x => Sys2Proof.Machine.execThrottleEvaluation die x s
  | .throttleAnnouncement die step t0 => Sys2Proof.Machine.execThrottleAnnouncement die step t0 s
  | .throttleAck die => Sys2Proof.Machine.execThrottleAck die s
  | .throttleEffect die => Sys2Proof.Machine.execThrottleEffect die s
  | .leaderSilence die => Sys2Proof.Machine.execLeaderSilence die s
  | .hbmTempSample stack temp => Sys2Proof.Machine.execHbmTempSample stack temp s
  | .supplyDroop die => Sys2Proof.Machine.execSupplyDroop die s
  | .stretchEnd die => Sys2Proof.Machine.execStretchEnd die s
  | .thermalTrip die byFlow => Sys2Proof.Machine.execThermalTrip die byFlow s
  | .corePowerGating core => Sys2Proof.Machine.execCorePowerGating core s
  | .corePowerUngating core => Sys2Proof.Machine.execCorePowerUngating core s

end Sys2Proof.Machine
end

