-- ==== Sys2Proof/Machine/Run.lean ====
section
/-! DEFINITION. Issuing one instruction (R98, R99, R157 to R159, R222), the choice of the hart that issues (R98, R104, R105),
core cycles and time (R10), and the steps the device takes of its own accord. -/

namespace Sys2Proof.Machine

/-! ## Execution -/

/-- Executes what was fetched. -/
def State.run (s : State) (h : Nat) : Item → Out
  | .instr i _ => exec i s
  | .pair a b => execPair a b s
  | _ => .next (s.markWait h)

/-- Starts an instruction of hart h: what it is, the end of a wait for the vector queue, a WHEN = 1 test that is due after
it, and the flume's note of it. -/
def State.begin (s : State) (h : Nat) (it : Item) (w : Word) : State :=
  let pc := (s.hart h).pc
  let s := s.modHart h fun x =>
    ({ x with item := it, iword := w, wait := none
              brkAfter := if (s.watching h pc true).isEmpty then none else some pc } : Hart).noteFlume (itemInstrs it)
  s.settleAheads h (itemInstrs it)

/-- The hart waits with an access that its step could not make: nothing of the step has happened (log 66). -/
def State.block (s : State) (h pa n : Nat) (write : Bool) : State :=
  let s := (s.unblocks pa n write).getD s
  s.modHart h fun x =>
    { x with wait := some (match x.wait with
        | some w => { w with epoch := s.epoch, expired := w.expired && w.deadline.isSome }
        | none => { kind := .held, epoch := s.epoch, deadline := none, expired := false, stage := 0, arg := 0 }) }

/-- The outcome of an attempt of hart h that began in `s`: one whose access must wait has had no effect. -/
def State.settle (s : State) (h : Nat) (r : Out) : Out := match r with
  | .next t => match t.want with
    | none => .next t
    | some (pa, n, write) => .next (s.block h pa n write)
  | r => r

/-! ## Issue (R98, R99) -/

/-- A trap that an attempt has taken in hart h, seen in the two registers that only a trap writes together (R259). -/
def Hart.trapped (x : Hart) (mark : Word) : Bool := x.scause != mark && x.sepc != mark

/-- The instruction itself would raise cause 1, 3, 4 or 5, which goes before an error in a register that it reads (R384): it is
tried on a copy whose trap registers hold a mark that no trap leaves. -/
def State.ownCause (s : State) (h : Nat) (it : Item) (w : Word) : Bool :=
  let mark := BitVec.allOnes 64
  match ((s.modHart h fun x => { x with scause := mark, sepc := mark }).begin h it w).run h it with
  | .next t => (t.hart h).trapped mark && [1, 3, 4, 5].contains (field (t.hart h).scause 0 6)
  | _ => false

/-- What an attempt to issue comes to: a word has issued, with its outcome; or something went first. -/
inductive Attempt
  | issued (r : Out)
  | other (r : Out)

/-- Issues an instruction that begins: it may have to wait for the vector queue; breakpoint units test it; an error in a
scalar register it reads is cause 6 (R269). DESIGN CHOICE (log 68): a word whose execution traps, or that meets this cause 6,
counts as issued for R104 and R105; one that a fetch trap (R47) or a breakpoint stops does not. -/
def State.first (s : State) (h : Nat) (it : Item) (w : Word) : Attempt :=
  let x := s.hart h
  if s.queueFirst h it then
    .other (.next (s.holdIssue h it w))
  else
    match (if x.vstart ≠ 0 && (itemInstrs it).any isVector then (s, false) else s.breakAt h x.pc w false) with
    | (s, true) => .other (.next s)
    | (s, false) =>
      if x.readsError it && !s.ownCause h it w then
        .issued (.next ((s.takeTrap h false 6 x.pc 0 w).noteDest h 6 (destOfItem it)))
      else .issued ((s.begin h it w).run h it)

/-- Fetches, decodes and executes the next instruction of hart h. -/
def State.issueOne (s : State) (h : Nat) : Attempt :=
  match s.fetchItem h with
  | (s, .trap c v w) => .other (.next (s.fetchTrap h c v w))
  | (s, .item it w) => s.first h it w

/-- The issue history of a core after local hart k has issued; `ended`: its run ends with this word. A hart whose run ended and
that is chosen again counts from 1 (DESIGN CHOICE, log 67). -/
def IssueHist.next (x : IssueHist) (k : Nat) (ended : Bool) : IssueHist :=
  let run := if x.cur = some k then x.run + 1 else 1
  if ended || x.yielded || decide (256 ≤ run) then { cur := none, run := 0, yielded := false, excluded := some k, last := k }
  else { cur := some k, run := run, yielded := false, excluded := none, last := k }

/-- Hart h after its word has issued in cycle `cyc`: the time counts anew (R98, R258), a younger word has passed the vector
instruction at work (R383), and the results still to come (R103). -/
def Hart.issuedIn (x : Hart) (it : Item) (behind : Bool) (cyc now : Nat) : Hart :=
  { x with gto := 0, progress := now, reported := false
           passed := (x.passed || behind) && !x.queueIdle
           busy := (x.busy.filter fun b => decide (cyc < b.2)) ++ (if x.wait.isSome then [] else Item.pending it cyc) }

/-- A pair with a YIELD half. -/
def Item.yields : Item → Bool
  | .pair a b => a == .yield || b == .yield
  | _ => false

/-- A write of ISSUEPOL: the last hart to issue then counts as hart 7 (R105). -/
def Item.picks : Item → Bool
  | .instr (.csrw n _) _ => csrOf n == some .issuepol
  | _ => false

/-- The word at `pc` of hart h, item `it`, has issued, and `t` is what it came to. -/
def State.hasIssued (s t : State) (h : Nat) : State :=
  let x := s.hart h
  let it := (t.hart h).item
  let behind := !x.queueIdle && !(itemInstrs it).all fun i => queues i || speculates i
  let t := t.modHart h fun y => y.issuedIn it behind (s.core (coreOf h)).cycle s.gtime
  t.modCore (coreOf h) fun c =>
    let hist := c.hist.next (localHart h) (!t.awake h || (Item.yields it && !c.rr))
    { c with issued := some (localHart h, x.pc), hist := if Item.picks it then { hist with last := 7 } else hist }

/-- One issue of hart h. -/
def State.issue (s : State) (h : Nat) : Out :=
  let s := { s with cur := h }
  match s.issueOne h with
  | .other r => s.settle h r
  | .issued (.next t) => match t.want with
    | none => .next (s.hasIssued t h)
    | some (pa, n, write) => .next (s.block h pa n write)
  | .issued r => r

/-- A waiting hart looks again: one that waits to issue may try to, and another's instruction goes on (R97, R178). -/
def State.look (s : State) (h : Nat) : Out :=
  let s := { s with cur := h }
  match (s.hart h).wait with
  | some w =>
    if w.kind = .held then .next (s.modHart h fun x => { x with wait := none })
    else s.settle h ((s.settleAheads h (itemInstrs (s.hart h).item)).run h (s.hart h).item)
  | none => .next s

/-! ## Selection (R98, R104, R105) -/

/-- The oldest of some harts: earliest task start, then the lower number. A supervisor hart without a task has the age of its last
task (DESIGN CHOICE, log 67). -/
def State.oldest (s : State) : List Nat → Option Nat
  | [] => none
  | h :: hs => match State.oldest s hs with
    | some k => if (s.hart k).started < (s.hart h).started then some k else some h
    | none => some h

/-- The first ready hart after the last issuing one, modulo 8. -/
def afterLast (last : Nat) (ready : List Nat) : Option Nat :=
  match ready.find? fun h => decide (last < localHart h) with
  | some h => some h
  | none => ready.head?

/-- GTO among ready harts. DESIGN CHOICE (log 68): a hart chosen because it has waited 2,048 cycles becomes the current one, and
the interrupted run ends without an exclusion. -/
def State.selectGto (s : State) (c : Nat) (ready : List Nat) : Option Nat :=
  let x := (s.core c).hist
  match s.oldest (ready.filter fun h => decide (2048 ≤ (s.hart h).gto)) with
  | some h => some h
  | none =>
    match ready.find? fun h => x.cur == some (localHart h) && decide (x.run < 256) && !x.yielded with
    | some h => some h
    | none =>
      let gone := match x.cur with
        | some k => some k
        | none => x.excluded
      match s.oldest (ready.filter fun h => gone != some (localHart h)) with
      | some h => some h
      | none => s.oldest ready

/-- A boundary action of the hart is due that must wait for an access: the hart issues nothing before it (log 66). -/
def State.stuck (s : State) (h : Nat) : Bool := match s.boundary h with
  | some t => t.want.isSome
  | none => false

/-- The hart of core c that issues next. -/
def State.select (s : State) (c : Nat) : Option Nat :=
  let ready := (hartsOf c).filter fun h => s.ready h && !s.stuck h
  if (s.core c).rr then afterLast (s.core c).hist.last ready else s.selectGto c ready

/-! ## Core cycles (R98, R104, R154, R162, R163) -/

/-- Harts that were ready in this cycle and have not issued count it under GTO; the run of a current hart that is not ready ends
(R98, R104). -/
def State.countCycle (s : State) (c : Nat) : State :=
  let mine := (s.core c).issued.map fun p => p.1
  let idle := (hartsOf c).filter fun h => s.ready h && mine != some (localHart h)
  let s := if (s.core c).rr then s
    else idle.foldl (fun (t : State) h => t.modHart h fun x => { x with gto := x.gto + 1 }) s
  match (s.core c).hist.cur with
  | some k => if mine = some k || idle.any (fun h => localHart h == k) then s
    else s.modCore c fun x => { x with hist := x.hist.leave k }
  | none => s

/-- What trace records the cycle that begins is due (R162, R163). -/
def Core.dueRecords (x : Core) (now : Nat) : Core :=
  let t := if x.cycle % 65536 = 0 then x.trace.dueSync 0 now else x.trace
  { x with trace := { t with sample := t.enabled 7 && sampleAt t.ctl x.cycle } }

/-- The cycle of core c ends and the next one begins. -/
def State.closeCycle (s : State) (c : Nat) : State :=
  let s := ((((s.putSync c).putSample c).closeTrace c).countCycle c).endCycle c
  if c < 128 then s.modCore c fun x => x.dueRecords s.gtime else s

/-- Nothing of the core changes from one cycle to the next but its counters. -/
def State.resting (s : State) (c : Nat) : Bool :=
  let x := s.core c
  !wbit x.trace.ctl 0 && x.trace.closing.isNone && x.issued.isNone && x.hist.cur.isNone && x.freed == 0 &&
  x.laneUse.isEmpty && !x.uncounted &&
  !x.snapped && s.quietCore c && (hartsOf c).all fun h => !(s.awake h) || (s.hart h).wait.isSome

/-- `n` nanoseconds of core c from the `i`-th on: a cycle closes where the die's clock passes a multiple of its unit. -/
def State.runCore (s : State) (c clock rate i : Nat) : Nat → State
  | 0 => s
  | n + 1 =>
    let now := s.gtime
    let s := if (clock + rate * i) / Config.clockUnit < (clock + rate * (i + 1)) / Config.clockUnit then
        { ({ s with gtime := now + i + 1 } : State).closeCycle c with gtime := now }
      else s
    State.runCore s c clock rate (i + 1) n

/-- Core c through `ns` nanoseconds. A gated core goes on counting CYCLE, on which its trace records rest (R163); its lane
counters stop (R154). -/
def State.passCore (s : State) (c ns : Nat) : State :=
  let d := s.die (dieOfCore c)
  if s.resting c then s.idleCycles c ((d.clock + d.rate * ns) / Config.clockUnit - d.clock / Config.clockUnit)
  else s.runCore c d.clock d.rate 0 ns

/-- A die's clock after `ns` nanoseconds; a cycle that stretches is noted. -/
def Die.pass (x : Die) (ns : Nat) : Die :=
  { x with clock := x.clock + x.rate * ns
           stretching := if x.stands then x.stretching.map fun p => (p.1, some (x.clock / Config.clockUnit)) else x.stretching }

/-- Every core and clock through `ns` nanoseconds. -/
def State.passSpan (s : State) (ns : Nat) : State :=
  let s := (List.range 136).foldl (fun (t : State) c => t.passCore c ns) s
  { s with gtime := s.gtime + ns, dies := s.dies.map fun x => x.pass ns }

/-- Time passes while nothing else happens: notified queues are served, and each core counts its cycles (R10, R154, R281). -/
def State.passTime (s : State) (ns : Nat) : State :=
  let s := s.serveNotifies
  (if s.dies.any fun x => x.stretching.isSome then
      (List.range ns).foldl (fun (t : State) _ => (t.passSpan 1).endStretches) s
    else s.passSpan ns).happen

/-! ## Steps of the device's own accord -/

/-- Per hart. -/
def hartEvents (x : Hart) (h : Nat) : List Instr :=
  [.loadDataArrival h, .waitaTimeout h, .tlwaitTimeout h, .vectorStart h, .rowCapture h, .elementGroup h] ++
  ((List.range x.elems.length).map fun k => .element h k) ++
  ((List.range 16).map fun t => .landingComplete h t) ++
  [.packCountArrival h, .tentativeStoreArrival h, .drain h, .watchdog h]

/-- Per core. -/
def coreEvents (c : Nat) : List Instr :=
  [.rowResult c, .rowEnter c, .arrayTakeUp c, .tileLoad c, .leaseGrant c, .partitionChange c, .sync c, .sample c] ++
  ((List.range 8).flatMap fun k => [.leash c k, .groupAge c k]) ++
  ((List.range 4).flatMap fun k => [.copyFlagWrite c k, .copyTransfer c k])

/-- Per die. -/
def dieEvents (x : Die) (d : Nat) : List Instr :=
  [.cancelBroadcast d, .tlbinvComplete d, .doneContPush d, .heldPush d] ++
  ((List.range 8).flatMap fun k => [.replayComplete d k, .departure d k, .millraceIteration d k]) ++
  ((List.range x.gangs.length).map fun k => .gangTimeout d k) ++
  ((List.range x.colls.length).map fun k => .xredTimeout d k) ++
  ((List.range 16).flatMap fun p => (List.range 7).map fun l => .agingMove d p l)

/-- Steps the device can take of its own accord, in the order in which they are tried (log 3). -/
def State.ownEvents (s : State) : List Instr :=
  ((List.range 1032).flatMap fun h => hartEvents (s.hart h) h) ++
  ((List.range s.regs.length).map fun k => .register k) ++
  ((List.range s.atoms.length).map fun k => .atomicStep k) ++
  ((List.range s.ras.length).map fun k => .raMessageArrival k) ++
  (s.packs.map fun p => .packFlip p.pa) ++ ((List.range s.heldWrites.length).map fun k => .nonmemberHoldExpiry k) ++
  (s.packs.flatMap fun p => [.packLifetimeExpiry p.pa, .packAbort p.pa 7]) ++
  ((List.range 128).flatMap coreEvents) ++
  ((List.range 4).flatMap fun d => dieEvents (s.die d) d) ++
  (List.range 1024).map fun h => .taskPop h

/-! ## The order of moves (log 3) -/

/-- The next state of an outcome whose access need not wait, or what lets it go on. -/
def State.freed (s : State) : Out → Option State
  | .next t => match t.want with
    | none => some t
    | some (pa, n, write) => s.unblocks pa n write
  | _ => none

/-- The next state of an event, where it is enabled. -/
def State.tryEvent (s : State) (i : Instr) : Option State := s.freed (exec i s)

/-- The first step that is enabled. -/
def State.background (s : State) : Option State := s.ownEvents.findSome? fun i => s.tryEvent i

/-- The first hart of the core after `c`. -/
def nextCoreHart (c : Nat) : Nat :=
  let k := (c + 1) % 136
  if k < 128 then 8 * k else 1024 + (k - 128)

/-- What hart h does by itself: a boundary action, or another look at what it waits for. -/
def State.hartMove (s : State) (h : Nat) : Option Out := match s.boundary h with
  | some t => (s.freed (.next t)).map .next
  | none => if s.awake h && (s.hart h).looks s.epoch then some (s.look h) else none

/-- What core c does next: what one of its harts does by itself, or an issue, one in each cycle. -/
def State.coreMove (s : State) (c : Nat) : Option Out :=
  match (hartsOf c).findSome? fun h => s.hartMove h with
  | some r => some r
  | none => if (s.core c).issued.isSome then none else (s.select c).map fun h => s.issue h

/-- The cores take turns, starting at the core of State.cur. -/
def State.turn (s : State) : Option Out :=
  (List.range 136).findSome? fun k =>
    let c := (coreOf s.cur + k) % 136
    (s.coreMove c).map fun
      | .next t => .next { t with cur := nextCoreHart c }
      | r => r

/-- Some core has issued in its cycle, or a hart waits for its own results only. -/
def State.busyNow (s : State) : Bool :=
  s.cores.any (fun x => x.issued.isSome) ||
    (List.range 1032).any fun h => !(s.hart h).busy.isEmpty && s.awake h && (s.hart h).wait.isNone

/-- A move without an agenda: every eighth nanosecond, and where no hart can issue, the device's own steps come first. -/
def State.auto (s : State) : Out :=
  match (if s.gtime % 8 = 7 then s.background else none) with
  | some t => .next t
  | none => match s.turn with
    | some r => r
    | none =>
      if s.busyNow then .next (s.passTime 1)
      else match s.background with
        | some t => .next t
        | none => .next (s.passTime 10)

/-- An event row: it has no words. -/
def isEvent (i : Instr) : Bool := (encode i).isEmpty

/-- The agenda asks hart h to issue: what it does by itself goes first, the end of its core's cycle or of its own results is
awaited, as is the vector queue where it holds the hart back, and the core must choose it. -/
def State.askIssue (s : State) (h : Nat) : Out :=
  match s.hartMove h with
  | some r => r
  | none =>
    if s.awake h && (s.hart h).wait.isNone && s.heldBack h then
      (match s.background with
        | some t => .next { t with agenda := .issue h :: t.agenda }
        | none => .next { s.passTime 1 with agenda := .issue h :: s.agenda })
    else if s.awake h && (s.hart h).wait.isNone && ((s.core (coreOf h)).issued.isSome || s.scoreboard h) then
      .next { s.passTime 1 with agenda := .issue h :: s.agenda }
    else if s.select (coreOf h) = some h then s.issue h
    else notEnabled "ISSUE"

/-- Some hart issues as soon as its queue or its results let it, or executes element groups. -/
def State.stirring (s : State) : Bool :=
  s.busyNow || (List.range 1032).any fun h => (s.hart h).run.isSome || (s.awake h && (s.hart h).wait.isNone)

/-- The agenda lets time pass: harts that can act do so first (R98, R101), and while some may soon, one nanosecond passes. -/
def State.letPass (s : State) (ns : Nat) : Out := match s.turn with
  | some (.next t) => .next { t with agenda := .time ns :: t.agenda }
  | some r => r
  | none =>
    if decide (ns ≤ 1) || !s.stirring then .next (s.passTime ns)
    else .next { s.passTime 1 with agenda := .time (ns - 1) :: s.agenda }

/-- Makes a move of the agenda. -/
def State.move (s : State) : Move → Out
  | .issue h => s.askIssue h
  | .event i => if isEvent i then (match exec i s with
      | .next t => match s.freed (.next t) with
        | some u => .next u
        | none => notEnabled "EVENT"
      | r => r) else notEnabled "EVENT"
  | .time ns => s.letPass ns

/-! ## Placing an instruction where the next step fetches -/

/-- A record for a hart that runs a placed word. -/
def placedTask : Task :=
  { rc := { code := 0, frame := 0, joinctr := 0, launch := 0, mincl := 1, prefcl := 16, prio := 0, flags := 0, leash := 0
            res38 := 0, arg0 := 0, arg1 := 0, res56 := 0 }
    handle := 0, handler := none }

/-- Hart 0 in the supervisor's handler of a task, about to issue: every other thing a hart does first is cleared. -/
def Hart.placed (x : Hart) : Hart :=
  { x with priv := .sup, swapped := true, task := some placedTask, satp := 0, sstatus := 0, wait := none, vq := [], run := none
           pend := [], asyncs := [], stop := .none, pack := none, brkAfter := none, sbad := 0
           busy := [], pc := x.pc &&& 0xFFFFFFFFF8#64 }

/-- Core 0 runs, its breakpoint units are off. -/
def Core.placed (x : Core) : Core :=
  { x with gated := false, retired := false, rr := false, issued := none
           hist := { x.hist with cur := some 0, run := 0, yielded := false }
           bk := x.bk.map fun u => { u with ctl := 0 } }

/-- The state in which the next step runs the words in `w` (log 30). -/
def State.place (s : State) (nbits w : Nat) : State :=
  let s := { s with cur := 0, agenda := [], fatal := none, want := none, gtime := s.gtime / 8 * 8 }
  let s := (s.modHart 0 Hart.placed).modCore 0 Core.placed
  let pc := (s.hart 0).pc.toNat
  (s.recallRange pc 16).memPut pc (leBytes 16 (w % 2 ^ nbits))

end Sys2Proof.Machine
end

