-- ==== Sys2Proof/Machine/Step.lean ====
section
/-! DEFINITION. One step of the machine. -/

namespace Sys2Proof.Machine

/-- Rows of the CXL link and of the management controller, which a fatal stop leaves at work (R271). -/
def staysUp : Instr → Bool
  | .bringUp _ | .hostMemRead .. | .hostMemWrite .. | .snoopResponse .. | .hostSnoop .. | .mailboxDumpAddress _
  | .mailboxBringupStatus | .doeSpdmRequest _ => true
  | _ => false

/-- The package's next step: a move of the agenda, or of its own order (log 3). A fatal stop lasts until a reset, with the CXL
link up (R271). -/
def step (s : State) : Host.Outcome State Fault Refusal :=
  match s.fatal, s.agenda with
  | none, [] => s.auto
  | none, m :: rest => State.move { s with agenda := rest } m
  | some _, .event i :: rest => if staysUp i then State.move { s with agenda := rest } (.event i) else .fault .fatalStop
  | some _, _ => .fault .fatalStop

/-- Places the words of `w` where hart 0 fetches next. -/
def State.withFetchWord (s : State) (nbits w : Nat) : State := s.place nbits w

end Sys2Proof.Machine
end

