-- ==== Sys2Proof/Safety.lean ====
section
/-! DEFINITION. What a safe run is, and the states in which claims say that an instruction ends. -/

namespace Sys2Proof.Machine

/-- The next `k` steps of a run are safe: each has a next state, and no fatal error stops the package (R271). -/
def Safe (k : Nat) (s : State) : Prop := ∃ t, Host.Core.run core k s = .next t ∧ t.fatal = none

/-- The issuing hart becomes `y` and completes an instruction of `n` bytes: its PC moves on and it waits for nothing.
Nothing else of the package changes. -/
def State.done (s : State) (y : Hart) (n : Nat) : State :=
  { s with
    harts := putAt Hart.reset s.harts s.cur
      { y with pc := s.me.pc + BitVec.ofNat 64 n, wait := none }
    epoch := s.epoch + 1 }

/-- The issuing hart becomes `y` and jumps. -/
def State.jumped (s : State) (y : Hart) (pc : Word) : State :=
  { s with
    harts := putAt Hart.reset s.harts s.cur { y with pc := pc, wait := none }
    epoch := s.epoch + 1 }

/-- The issuing hart takes the trap of the instruction it issues (R257, R259). -/
def State.trapped (s : State) (cause : Nat) (stval : Word) : State :=
  (s.takeTrap s.cur false cause s.me.pc stval s.me.iword).noteDest s.cur cause (destOfItem s.me.item)

/-- The outcome is a next state. -/
def isNext : Out → Bool
  | .next _ => true
  | _ => false

end Sys2Proof.Machine
end

