-- ==== Sys2Proof/Certificates/Slice0/Obligations.lean ====
section
/-! DEFINITION. The statements for the provers. A statement over several shapes is the conjunction of named parts, each a
definition of `Sys2Proof.Claims`. -/

open Sys2Proof Sys2Proof.Machine

/-! ## Scalar integer instructions -/

/-- R297, R298, R328, R375: the results of the register forms, MOV (R42) and NOP, for every register including s0. -/
def Sys2Proof.Claims.RegisterArithmetic : Prop :=
  ∀ (s : State) (d a b c : Reg) (sh : BitVec 3),
    let x := s.me
    let ra := x.rd a
    let rb := x.rd b
    exec (.add d a b) s = .next (s.done (x.wr d (ra + rb)) 8) ∧
    exec (.sub d a b) s = .next (s.done (x.wr d (ra - rb)) 8) ∧
    exec (.and d a b) s = .next (s.done (x.wr d (ra &&& rb)) 8) ∧
    exec (.or d a b) s = .next (s.done (x.wr d (ra ||| rb)) 8) ∧
    exec (.xor d a b) s = .next (s.done (x.wr d (ra ^^^ rb)) 8) ∧
    exec (.shl d a b) s = .next (s.done (x.wr d (ra <<< (rb.toNat % 64))) 8) ∧
    exec (.shr d a b) s = .next (s.done (x.wr d (ra >>> (rb.toNat % 64))) 8) ∧
    exec (.sra d a b) s = .next (s.done (x.wr d (ra.sshiftRight (rb.toNat % 64))) 8) ∧
    exec (.slt false d a b) s = .next (s.done (x.wr d (if ra.slt rb then 1 else 0)) 8) ∧
    exec (.slt true d a b) s = .next (s.done (x.wr d (if ra.ult rb then 1 else 0)) 8) ∧
    exec (.min false d a b) s = .next (s.done (x.wr d (if ra.slt rb then ra else rb)) 8) ∧
    exec (.min true d a b) s = .next (s.done (x.wr d (if ra.ult rb then ra else rb)) 8) ∧
    exec (.max false d a b) s = .next (s.done (x.wr d (if ra.slt rb then rb else ra)) 8) ∧
    exec (.max true d a b) s = .next (s.done (x.wr d (if ra.ult rb then rb else ra)) 8) ∧
    exec (.lea d a b sh) s = .next (s.done (x.wr d (ra + (rb <<< sh.toNat))) 8) ∧
    exec (.sel d a b c) s = .next (s.done (x.wr d (if x.rd c ≠ 0 then ra else rb)) 8) ∧
    exec (.mov d a) s = .next (s.done (x.wr d ra) 8) ∧
    exec .nop s = .next (s.done x 8)

/-- R299, R329, R375, R37: the results of the immediate forms. -/
def Sys2Proof.Claims.ImmediateArithmetic : Prop :=
  ∀ (s : State) (d a : Reg) (imm : BitVec 36) (n : BitVec 6) (v : Word),
    let x := s.me
    let ra := x.rd a
    let k := imm.signExtend 64
    exec (.addi d a imm) s = .next (s.done (x.wr d (ra + k)) 8) ∧
    exec (.andi d a imm) s = .next (s.done (x.wr d (ra &&& k)) 8) ∧
    exec (.ori d a imm) s = .next (s.done (x.wr d (ra ||| k)) 8) ∧
    exec (.xori d a imm) s = .next (s.done (x.wr d (ra ^^^ k)) 8) ∧
    exec (.slti false d a imm) s = .next (s.done (x.wr d (if ra.slt k then 1 else 0)) 8) ∧
    exec (.slti true d a imm) s = .next (s.done (x.wr d (if ra.ult k then 1 else 0)) 8) ∧
    exec (.shli .shl d a n) s = .next (s.done (x.wr d (ra <<< n.toNat)) 8) ∧
    exec (.shli .shr d a n) s = .next (s.done (x.wr d (ra >>> n.toNat)) 8) ∧
    exec (.shli .sra d a n) s = .next (s.done (x.wr d (ra.sshiftRight n.toNat)) 8) ∧
    exec (.li d imm) s = .next (s.done (x.wr d k) 8) ∧
    exec (.liExt d v) s = .next (s.done (x.wr d v) 16)

/-- R106, R298, R328: products, and the truncating division with its corners: divisor 0 sets IZ (bit 6 of FFLAGS), and
the signed minimum over −1 sets no flag. -/
def Sys2Proof.Claims.MultiplyDivide : Prop :=
  ∀ (s : State) (d a b : Reg),
    let x := s.me
    let ra := x.rd a
    let rb := x.rd b
    let iz : BitVec 7 := if rb = 0 then 0x40 else 0
    exec (.mul d a b) s = .next (s.done (x.wr d (ra * rb)) 8) ∧
    exec (.mulh false d a b) s =
      .next (s.done (x.wr d ((ra.signExtend 128 * rb.signExtend 128).extractLsb' 64 64)) 8) ∧
    exec (.mulh true d a b) s =
      .next (s.done (x.wr d ((ra.setWidth 128 * rb.setWidth 128).extractLsb' 64 64)) 8) ∧
    exec (.div false d a b) s = .next (s.done ((x.wr d (if rb = 0 then 0 else ra.sdiv rb)).orFlags iz) 8) ∧
    exec (.div true d a b) s = .next (s.done ((x.wr d (if rb = 0 then 0 else ra.udiv rb)).orFlags iz) 8) ∧
    exec (.rem false d a b) s = .next (s.done ((x.wr d (if rb = 0 then ra else ra.srem rb)).orFlags iz) 8) ∧
    exec (.rem true d a b) s = .next (s.done ((x.wr d (if rb = 0 then ra else ra.umod rb)).orFlags iz) 8)

/-- R298, R328: CLZ, CTZ and POPC, each result by what it counts. -/
def Sys2Proof.Claims.BitCounts : Prop :=
  ∀ (s : State) (d a : Reg),
    let x := s.me
    let ra := x.rd a
    (∃ n : Nat, n ≤ 64 ∧ exec (.clz d a) s = .next (s.done (x.wr d (BitVec.ofNat 64 n)) 8) ∧
      (∀ i, 64 - n ≤ i → ra.getLsbD i = false) ∧ (n < 64 → ra.getLsbD (63 - n) = true)) ∧
    (∃ n : Nat, n ≤ 64 ∧ exec (.ctz d a) s = .next (s.done (x.wr d (BitVec.ofNat 64 n)) 8) ∧
      (∀ i, i < n → ra.getLsbD i = false) ∧ (n < 64 → ra.getLsbD n = true)) ∧
    exec (.popc d a) s =
      .next (s.done (x.wr d (BitVec.ofNat 64 (((List.range 64).filter fun i => ra.getLsbD i).length))) 8)

/-- The results of every scalar integer instruction. -/
def Obligations.IntegerResults : Prop :=
  Claims.RegisterArithmetic ∧ Claims.ImmediateArithmetic ∧ Claims.MultiplyDivide ∧ Claims.BitCounts

/-- The destination of a scalar instruction that only writes registers of its hart and rounds nothing. -/
def Sys2Proof.Claims.registerOnly : Instr → Option Reg
  | .add d .. | .addi d .. | .and d .. | .andi d .. | .clz d .. | .ctz d .. | .div _ d .. | .lea d .. | .li d .. | .liExt d ..
  | .max _ d .. | .min _ d .. | .mul d .. | .mulh _ d .. | .or d .. | .ori d .. | .popc d .. | .rem _ d .. | .sel d ..
  | .shl d .. | .shli _ d .. | .shr d .. | .slt _ d .. | .slti _ d .. | .sra d .. | .sub d .. | .xor d .. | .xori d ..
  | .mov d .. | .fmin _ d .. | .fmax _ d .. | .fcmp _ _ d .. => some d
  | .nop => some 0
  | _ => none

/-- The instruction may raise a flag: IZ of DIV and REM, NV of FMIN, FMAX and FCMP (R297, R318). -/
def Sys2Proof.Claims.raisesFlag : Instr → Bool
  | .div .. | .rem .. | .fmin .. | .fmax .. | .fcmp .. => true
  | _ => false

/-- R297: the frame of the register-only instructions. Every other scalar register, the flags unless the instruction names
one, every other part of the hart but the PC and the marks of progress, every other hart, core and die, and every byte of
memory stay as they were. -/
def Obligations.RegisterOnlyFrame : Prop :=
  ∀ (i : Instr) (d : Reg) (s t : State), Claims.registerOnly i = some d → exec i s = .next t →
    (∀ r, r ≠ d → (t.hart s.cur).rd r = s.me.rd r) ∧
    (Claims.raisesFlag i = false → (t.hart s.cur).fflags = s.me.fflags) ∧
    (∃ regs bad fl pc, t.hart s.cur =
      { s.me with s := regs, sbad := bad, fflags := fl, pc := pc, wait := none }) ∧
    (∀ k, k ≠ s.cur → t.hart k = s.hart k) ∧ (∀ c, t.core c = s.core c) ∧ (∀ n, t.die n = s.die n) ∧
    (∀ a, t.mem.read a = s.mem.read a) ∧ { t with harts := s.harts, epoch := s.epoch } = s

/-! ## Scalar floating point -/

/-- R317 to R319: the results of the rounding instructions under the mode in force, and of FMIN, FMAX and FCMP. Operands are
the low bits of the registers, the result is zero-extended (FCVT to a signed integer type: sign-extended), flags are ORed
into FFLAGS. -/
def Obligations.FloatResults : Prop :=
  ∀ (s : State) (t : FTy) (rm : Rm) (d a b c : Reg) (md : RMode),
    let x := s.me
    let bits := fun r : Reg => (x.rd r).toNat % 2 ^ (fprec t + 8)
    let put := fun r : Val => Host.Outcome.next (φ := Fault) (ρ := Refusal)
      (s.done ((x.wr d (BitVec.ofNat 64 r.bits)).orFlags r.fl) 8)
    (rmode rm x.frm false 0 = some md →
      exec (.fadd t rm d a b) s = put (fadd t md (bits a) (bits b)) ∧
      exec (.fsub t rm d a b) s = put (fsub t md (bits a) (bits b)) ∧
      exec (.fmul t rm d a b) s = put (fmul t md (bits a) (bits b)) ∧
      exec (.fdiv t rm d a b) s = put (fdiv t md (bits a) (bits b)) ∧
      exec (.ffma t rm d a b c) s = put (ffma t md (bits a) (bits b) (bits c))) ∧
    exec (.fmin t d a b) s = put (fminmax t true (bits a) (bits b)) ∧
    exec (.fmax t d a b) s = put (fminmax t false (bits a) (bits b)) ∧
    (∀ rel, exec (.fcmp t rel d a b) s = put
      { bits := match rel, fcompare t (bits a) (bits b) with
          | .eq, some .eq | .lt, some .lt | .le, some .lt | .le, some .eq | .un, none => 1
          | _, _ => 0
        fl := if (fdec t (bits a)).isSig || (fdec t (bits b)).isSig then 0x10 else 0 }) ∧
    (∀ dst src sat, rmode rm x.frm (dst != .f32) (srHash x.sb x.seed 0) = some md →
      exec (.fcvt dst src rm sat d a) s =
        let r := convert dst src md sat ((x.rd a).toNat % 2 ^ tyBits src)
        .next (s.done ((x.wr d (if dst.isSigned then BitVec.ofInt 64 (tyInt dst r.bits) else BitVec.ofNat 64 r.bits)).orFlags
          r.fl) 8))

/-- R108: an operation with a NaN operand returns the canonical NaN, and sets NV only for a signalling one; FFMA sets NV as
well where its product is 0 × ∞. -/
def Obligations.NanResults : Prop :=
  ∀ (t : FTy) (md : RMode) (x y z : Nat),
    let nan := fun v => (fdec t v).isNan
    let sig := fun v => (fdec t v).isSig
    let res := fun b : Bool => ({ bits := canonNaN t, fl := if b then 0x10 else 0 } : Val)
    canonNaN .f32 = 0x7FC00000 ∧ canonNaN .bf16 = 0x7FC0 ∧
    (nan x = true ∨ nan y = true →
      fadd t md x y = res (sig x || sig y) ∧ fsub t md x y = res (sig x || sig y) ∧
      fmul t md x y = res (sig x || sig y) ∧ fdiv t md x y = res (sig x || sig y)) ∧
    (let zeroInf : Bool := match fdec t x, fdec t y with
        | .inf _, .fin _ 0 _ | .fin _ 0 _, .inf _ => true
        | _, _ => false
      nan x = true ∨ nan y = true ∨ nan z = true ∨ zeroInf = true →
        ffma t md x y z = res (sig x || sig y || sig z || zeroInf))

/-- R110: the mode in force by RM and, for RM = 7, by FRM; where there is none, the instruction raises cause 1 with the first
word as STVAL (R257) and changes no register by its result. -/
def Sys2Proof.Claims.RoundingModeInForce : Prop :=
  (∀ (frm : BitVec 3) (sr : Bool) (h : Nat),
    rmode .rne frm sr h = some .rne ∧ rmode .rtz frm sr h = some .rtz ∧ rmode .rup frm sr h = some .rup ∧
    rmode .rdn frm sr h = some .rdn ∧ rmode .rmm frm sr h = some .rmm ∧
    rmode .dyn frm sr h = if frm = 6 ∨ frm = 7 then none
      else if frm = 0 then rmode .rne frm sr h else if frm = 1 then rmode .rtz frm sr h
      else if frm = 2 then rmode .rup frm sr h else if frm = 3 then rmode .rdn frm sr h
      else if frm = 4 then rmode .rmm frm sr h else if sr then some (.sr h) else none) ∧
  ∀ (s : State) (t : FTy) (rm : Rm) (d a b c : Reg), s.me.queueIdle = true → rmode rm s.me.frm false 0 = none →
    let trap := Host.Outcome.next (φ := Fault) (ρ := Refusal) (s.trapped 1 s.me.iword)
    exec (.fadd t rm d a b) s = trap ∧ exec (.fsub t rm d a b) s = trap ∧ exec (.fmul t rm d a b) s = trap ∧
    exec (.fdiv t rm d a b) s = trap ∧ exec (.ffma t rm d a b c) s = trap

/-- R110: what each rounding mode does with m / 2^s: nearest with ties to even or away from zero, toward zero, and toward
+∞ or −∞ for the sign of the value. -/
def Sys2Proof.Claims.RoundingDirections : Prop :=
  ∀ (neg : Bool) (m s : Nat),
    let v := fun md => roundShift md neg m s
    v .rtz * 2 ^ s ≤ m ∧ m < (v .rtz + 1) * 2 ^ s ∧
    (2 * (v .rne * 2 ^ s) ≤ 2 * m + 2 ^ s ∧ 2 * m ≤ 2 * (v .rne * 2 ^ s) + 2 ^ s) ∧
    (2 * (v .rne * 2 ^ s) = 2 * m + 2 ^ s ∨ 2 * m = 2 * (v .rne * 2 ^ s) + 2 ^ s → v .rne % 2 = 0) ∧
    (2 * (v .rmm * 2 ^ s) ≤ 2 * m + 2 ^ s ∧ 2 * m < 2 * (v .rmm * 2 ^ s) + 2 ^ s) ∧
    (neg = false → m ≤ v .rup * 2 ^ s ∧ v .rup * 2 ^ s < m + 2 ^ s ∧ v .rdn = v .rtz) ∧
    (neg = true → m ≤ v .rdn * 2 ^ s ∧ v .rdn * 2 ^ s < m + 2 ^ s ∧ v .rup = v .rtz)

/-- R110: which rounding mode is in force, and what each mode does. -/
def Obligations.RoundingModes : Prop :=
  Claims.RoundingModeInForce ∧ Claims.RoundingDirections

/-! ## Control flow -/

/-- R308, R309, R37, R323: the conditions and targets of branches and jumps, and the links. A displacement counts words of
8 bytes from the instruction's own address; the second word of a 16-byte form is the target itself. -/
def Sys2Proof.Claims.BranchesAndJumps : Prop :=
  ∀ (s : State) (a b d : Reg) (disp : BitVec 38) (imm : BitVec 15) (off : BitVec 24) (target : Word),
    let x := s.me
    let ra := x.rd a
    let rb := x.rd b
    let far := x.pc + disp.signExtend 64 * 8
    let near := x.pc + imm.signExtend 64 * 8
    let go := fun (c : Bool) (dest : Word) =>
      Host.Outcome.next (φ := Fault) (ρ := Refusal) (if c then s.jumped x dest else s.done x 8)
    exec (.br .eq a b disp) s = go (decide (ra = rb)) far ∧
    exec (.br .ne a b disp) s = go (decide (ra ≠ rb)) far ∧
    exec (.br .lt a b disp) s = go (ra.slt rb) far ∧
    exec (.br .ge a b disp) s = go (!ra.slt rb) far ∧
    exec (.br .ltu a b disp) s = go (ra.ult rb) far ∧
    exec (.br .geu a b disp) s = go (!ra.ult rb) far ∧
    exec (.brnz a imm) s = go (decide (ra ≠ 0)) near ∧
    exec (.brz a imm) s = go (decide (ra = 0)) near ∧
    exec (.j disp) s = .next (s.jumped x far) ∧
    exec (.jal a disp) s = .next (s.jumped (x.wr a (x.pc + 8)) far) ∧
    (target.toNat % 8 = 0 →
      exec (.jExt target) s = .next (s.jumped x target) ∧
      exec (.jalExt a target) s = .next (s.jumped (x.wr a (x.pc + 16)) target)) ∧
    (let dest := ra + off.signExtend 64
     dest.toNat % 8 = 0 → exec (.jr d a off) s = .next (s.jumped (x.wr d (x.pc + 8)) dest))

/-- R323, R37: a jump whose target is no multiple of 8 raises cause 3 with the target as STVAL and writes no link. -/
def Sys2Proof.Claims.MisalignedTarget : Prop :=
  ∀ (s : State) (a d : Reg) (off : BitVec 24) (target : Word), s.me.queueIdle = true →
    (target.toNat % 8 ≠ 0 →
      exec (.jExt target) s = .next (s.trapped 3 target) ∧ exec (.jalExt a target) s = .next (s.trapped 3 target)) ∧
    (let dest := s.me.rd a + off.signExtend 64
     dest.toNat % 8 ≠ 0 → exec (.jr d a off) s = .next (s.trapped 3 dest))

/-- R221: LOOPBR whose mark is closed decrements s[A] and branches while it is not 0; A = s0 is illegal (R257). -/
def Sys2Proof.Claims.LoopBranch : Prop :=
  ∀ (s : State) (a : Reg) (disp : BitVec 38),
    let x := s.me
    let n := x.rd a - 1
    (a ≠ 0 → x.recording = false →
      (n ≠ 0 → exec (.loopbr a disp) s = .next (s.jumped (x.wr a n) (x.pc + disp.signExtend 64 * 8))) ∧
      (n = 0 → ∃ out, exec (.loopbr a disp) s = .next (s.done { x.wr a n with aheads := out } 8))) ∧
    (x.queueIdle = true → exec (.loopbr 0 disp) s = .next (s.trapped 1 x.iword))

/-- Branches, jumps and LOOPBR. -/
def Obligations.ControlTransfers : Prop :=
  Claims.BranchesAndJumps ∧ Claims.MisalignedTarget ∧ Claims.LoopBranch

/-- R98, R257, R351, R231: YIELD ends the greedy run of its core; BKPT raises cause 8 with STVAL 0; TRMARK writes a MARK
record; RPSTAT reads the state of the most recent mark. -/
def Obligations.ControlWords : Prop :=
  ∀ (s : State) (a d : Reg) (tag : BitVec 9),
    let x := s.me
    (∃ t, exec .yield s = .next t ∧ t.harts = (s.done x 8).harts ∧ t.mem = s.mem ∧ t.dies = s.dies ∧
      (t.core (coreOf s.cur)).hist.yielded = true ∧ ∀ c, c ≠ coreOf s.cur → t.core c = s.core c) ∧
    (x.queueIdle = true → exec .bkpt s = .next (s.trapped 8 0)) ∧
    (∃ t, exec (.trmark a tag) s = .next t ∧ t.harts = (s.done x 8).harts ∧
      ((s.core (coreOf s.cur)).trace.enabled 4 = false → t = s.done x 8) ∧
      (let tr := (s.core (coreOf s.cur)).trace
       let at_ := tr.base.toNat + tr.place
       let y := (t.core (coreOf s.cur)).trace
       tr.enabled 4 = true → 16 ≤ tr.size.toNat →
        (tr.room = false → t.mem = s.mem ∧ y.lost = tr.lost + 1 ∧ y.head = tr.head) ∧
        (tr.room = true → tr.lost = 0 ∨ tr.enabled 6 = false →
          y.head = (if wbit tr.ctl 1 = true ∧ tr.size.toNat ≤ tr.place + 16 then 0 else tr.place + 16) ∧ y.lost = tr.lost ∧
          (s.pageHeld at_ = false → s.packHolds at_ 16 = false → s.hostWaits at_ 16 = false → (s.recallRange at_ 16).mem.wf = true →
            t.mem.readLe at_ 8 =
              4 * 2 ^ 60 + localHart s.cur * 2 ^ 57 + tag.toNat * 2 ^ 48 + (s.core (coreOf s.cur)).cycle % 2 ^ 48 ∧
            t.mem.readLe (at_ + 8) 8 = (x.rd a).toNat ∧
            ∀ p, (p < at_ ∨ at_ + 16 ≤ p) → t.mem.read p = (s.recallRange at_ 16).mem.read p)))) ∧
    exec (.rpstat d) s = .next (s.done (x.wr d x.mark.word) 8) ∧
    (x.mark = Mark.reset → x.mark.word = 0)

/-! ## Scalar memory -/

/-- R132, R133, R326, R347: LD and ST in the own A-space act on the bank at once. The value is extended as R325 gives; a
store changes its bytes of the bank and no other byte of any memory. -/
def Obligations.LocalLoadStore : Prop :=
  ∀ (s : State) (d a : Reg) (off : BitVec 24),
    let x := s.me
    let c := coreOf s.cur
    let va := x.rd a + off.signExtend 64
    let bank := (s.core c).a
    let ld := fun (wd : LdW) (n : Nat) (f : Nat → Word) =>
      va.toNat % n = 0 → s.okA c x.launch va.toNat n = true →
        exec (.ld wd .a d a off) s = .next (s.done (x.wr d (f (bank.readLe va.toNat n))) 8)
    let st := fun (wd : StW) (n : Nat) =>
      va.toNat % n = 0 → s.okA c x.launch va.toNat n = true → bank.wf = true →
        ∃ t, exec (.st wd .a d a off) s = .next t ∧ t.harts = (s.done x 8).harts ∧
          (t.core c).a.readN va.toNat n = leBytes n (x.rd d).toNat ∧
          (∀ p, p < va.toNat ∨ va.toNat + n ≤ p → (t.core c).a.read p = bank.read p) ∧
          (∃ m, t.core c = { s.core c with a := m }) ∧ (∀ k, k ≠ c → t.core k = s.core k) ∧
          t.mem = s.mem ∧ t.regs = s.regs ∧ t.atoms = s.atoms ∧ t.ras = s.ras
    ld .b 1 (fun v => (BitVec.ofNat 8 v).signExtend 64) ∧ ld .bu 1 (BitVec.ofNat 64) ∧
    ld .h 2 (fun v => (BitVec.ofNat 16 v).signExtend 64) ∧ ld .hu 2 (BitVec.ofNat 64) ∧
    ld .w 4 (fun v => (BitVec.ofNat 32 v).signExtend 64) ∧ ld .wu 4 (BitVec.ofNat 64) ∧ ld .d 8 (BitVec.ofNat 64) ∧
    st .b 1 ∧ st .h 2 ∧ st .w 4 ∧ st .d 8

/-- R168, R187, R277, R326: an aligned LD of G-space outside a pack region that no flip, held store or posted atomic of the
hart concerns. On a tracked page it takes the store buffer's
bytes where they cover it, else the L1's where it holds every word, else, once the data of its miss arrive, the home's,
whose words become Valid in L1, perhaps with the rest of their line; on an untracked page the L1 line's in place of the
words'. An uncached page and a page in host bias are read at the home, after the hart's buffered stores. -/
def Sys2Proof.Claims.GlobalLoad : Prop :=
  ∀ (s u : State) (wd : LdW) (sp : Space) (d a : Reg) (off : BitVec 24) (pa : Nat) (m : BitVec 2),
    let c := coreOf s.cur
    let n := ldBytes wd
    let va := s.me.rd a + off.signExtend 64
    let loads := fun (v : State) (bs : List Byte) =>
      exec (.ld wd sp d a off) s = .next (v.done (v.me.wr d (ldExtend wd (leNat bs))) 8)
    sp = .g ∨ sp = .dflt → va.toNat % n = 0 → s.locate s.cur .g .load va n = (u, .at_ (.g pa m)) → inCtrl pa = false →
    u.me.member = none → (u.flipping pa || u.heldStore pa n || u.postedTo s.cur pa n) = false →
    u.cur = s.cur ∧
    (bypasses u pa m = true → u.me.sbuf = [] → (m = 2 → u.atomUncached s.cur = false ∧ u.me.elemUncached = false) →
      (u.hostBias pa && u.hostHolds pa) = false → u.me.arrived = true →
      poisoned u.bad pa n = false → loads u (u.homeBytes pa n)) ∧
    (bypasses u pa m = false → ∀ bs, forward u.me.sbuf pa n = .all bs → loads u bs) ∧
    (bypasses u pa m = false → forward u.me.sbuf pa n = .none →
      (m = 1 →
        (∀ l, (u.core c).uline (pa / 64) = some l → l.poisoned pa n = false → loads u ((l.data.drop (pa % 64)).take n)) ∧
        ((u.core c).uline (pa / 64) = none → u.me.arrived = true → poisoned u.bad pa n = false →
          loads (u.fillLine c (pa / 64)) ((u.fillLine c (pa / 64)).mem.readN pa n))) ∧
      (m ≠ 1 →
        ((u.core c).l1has pa n = true → u.l1Bad c pa n = false → loads u (u.l1Bytes c pa n)) ∧
        ((u.core c).l1has pa n = false → u.inFlight c pa n = false → u.me.arrived = true → u.l1Bad c pa n = false →
          loads (u.fill c va pa n) (u.l1Bytes c pa n))))

/-- R168, R347: an aligned ST to G-space outside a pack region and off every live pack object joins the store buffer with
the low bytes of s[D]; no byte of memory, of the bank or of L1 changes. An uncached one goes behind the uncached elements of
the hart (R187). -/
def Sys2Proof.Claims.GlobalStore : Prop :=
  ∀ (s u : State) (wd : StW) (sp : Space) (d a : Reg) (off : BitVec 24) (pa : Nat) (m : BitVec 2),
    let n := stBytes wd
    let va := s.me.rd a + off.signExtend 64
    sp = .g ∨ sp = .dflt → va.toNat % n = 0 → s.locate s.cur .g .store va n = (u, .at_ (.g pa m)) → inCtrl pa = false →
    u.inPackObject pa n = false → u.me.member = none →
    (m = 2 → u.me.elemUncached = false) →
    u.cur = s.cur ∧ exec (.st wd sp d a off) s = .next (u.done { u.me with
      sbuf := u.me.sbuf ++ [{ va := va, pa := pa, pbmt := m, data := leBytes n (s.me.rd d).toNat, iword := u.me.iword }] } 8)

/-- LD and ST of G-space. -/
def Obligations.GlobalAccess : Prop :=
  Claims.GlobalLoad ∧ Claims.GlobalStore

/-- R134, R326, R347, R11: an access to another core's A-space is a message, sent where the core has a request free. A store is
complete once it is sent; a load waits, and RA_MESSAGE_ARRIVAL, in order for one hart and word, gives it the value or writes the
store's bytes to the bank. -/
def Obligations.RemoteAccess : Prop :=
  (∀ (s : State) (wd : StW) (d a : Reg) (off : BitVec 24) (tc pos : Nat),
    let va := s.me.rd a + off.signExtend 64
    va.toNat % stBytes wd = 0 → s.locate s.cur .ra .store va (stBytes wd) = (s, .at_ (.a tc pos)) → tc ≠ coreOf s.cur →
    s.requestFree s.cur = true → exec (.st wd .ra d a off) s = .next (({ s with
      ras := s.ras ++ [{ seq := s.sends, hart := s.cur, core := tc, off := pos, load := none
                         data := leBytes (stBytes wd) (s.me.rd d).toNat }]
      sends := s.sends + 1 } : State).done s.me 8)) ∧
  (∀ (s : State) (wd : LdW) (d a : Reg) (off : BitVec 24) (tc pos : Nat),
    let va := s.me.rd a + off.signExtend 64
    va.toNat % ldBytes wd = 0 → s.locate s.cur .ra .load va (ldBytes wd) = (s, .at_ (.a tc pos)) → tc ≠ coreOf s.cur →
    s.requestFree s.cur = true → ∃ t, exec (.ld wd .ra d a off) s = .next t ∧
      t.ras = s.ras ++ [{ seq := s.sends, hart := s.cur, core := tc, off := pos, load := some (wd, d), data := [] }] ∧
      (t.hart s.cur).pc = s.me.pc ∧ (t.hart s.cur).s = s.me.s ∧ (t.hart s.cur).wait.map (fun w => w.kind) = some .ra) ∧
  ∀ (s : State) (k : Nat) (m : RaMsg), s.ras[k]? = some m →
    s.sentFirst m.seq m.hart (.aspace m.core m.off) 8 false = true →
    ∃ t, exec (.raMessageArrival k) s = .next t ∧ t.ras = s.ras.eraseIdx k ∧ t.mem = s.mem ∧
      match m.load with
      | some (wd, d) =>
        (t.hart m.hart).rd d = (if d = 0 then 0 else ldExtend wd ((s.core m.core).a.readLe m.off (ldBytes wd))) ∧
        (t.hart m.hart).pc = (s.hart m.hart).pc + 8 ∧ (t.hart m.hart).wait = none ∧
        ∀ j, (t.core j).a = (s.core j).a
      | none => (t.core m.core).a = (s.core m.core).a.writeN m.off m.data ∧ t.harts = s.harts

/-- R326, R347, R301, R302, R148, R130: an address that is no multiple of the width raises cause 3 with the address, and
spaces C and W raise cause 5, before anything else is done. -/
def Obligations.AccessFaults : Prop :=
  ∀ (s : State) (sp : Space) (d a b c : Reg) (off : BitVec 24) (op : AmoOp) (w32 post : Bool), s.me.queueIdle = true →
    let x := s.me
    let va := x.rd a + off.signExtend 64
    let trap := fun (k : Nat) (v : Word) => Host.Outcome.next (φ := Fault) (ρ := Refusal) (s.trapped k v)
    let free := s.outstanding (coreOf s.cur) < Config.maxRequests
    let atomicTraps := fun (k : Nat) =>
      exec (.amo op w32 post sp d a b) s = trap k (x.rd a) ∧ exec (.cas w32 sp d a b c) s = trap k (x.rd a)
    (∀ wd, va.toNat % ldBytes wd ≠ 0 → exec (.ld wd sp d a off) s = trap 3 va) ∧
    (∀ wd, va.toNat % stBytes wd ≠ 0 → exec (.st wd sp d a off) s = trap 3 va) ∧
    (x.sbuf = [] → free → (x.rd a).toNat % (if w32 then 4 else 8) ≠ 0 → atomicTraps 3) ∧
    (sp = .c ∨ sp = .w →
      (∀ wd, va.toNat % ldBytes wd = 0 → exec (.ld wd sp d a off) s = trap 5 va) ∧
      (∀ wd, va.toNat % stBytes wd = 0 → exec (.st wd sp d a off) s = trap 5 va) ∧
      (x.sbuf = [] → free → (x.rd a).toNat % (if w32 then 4 else 8) = 0 → atomicTraps 5)) ∧
    (∀ cond inA timeout, (x.rd a).toNat % 8 ≠ 0 → exec (.waita cond inA d a b timeout) s = trap 3 (x.rd a))

/-- R300: the new value of a word of `n` bytes that holds `old`. -/
def Sys2Proof.Claims.amoResult (op : AmoOp) (n old b : Nat) : Nat :=
  let sg := fun v : Nat => if v < 2 ^ (8 * n - 1) then (v : Int) else v - 2 ^ (8 * n)
  match op with
  | .swap => b
  | .add => (old + b) % 2 ^ (8 * n)
  | .and => old &&& b
  | .or => old ||| b
  | .xor => old ^^^ b
  | .min => if sg old < sg b then old else b
  | .max => if sg old < sg b then b else old
  | .minu => if old < b then old else b
  | .maxu => if old < b then b else old
  | .fadd => (fadd .f32 .rne old b).bits % 2 ^ 32

/-- R300, R301, R302: AMO and CAS on a word of the own A-space act at once: the old value goes to s[D] (sign-extended;
zero-extended for fadd), the new one to the bank, a failed compare writes nothing, and no other byte of the bank changes.
Only fadd raises flags: FFLAGS, or ATFLAGS where posted (R141). -/
def Sys2Proof.Claims.LocalAtomics : Prop :=
  ∀ (s : State) (d a b e : Reg) (w32 : Bool),
    let x := s.me
    let c := coreOf s.cur
    let n := if w32 then 4 else 8
    let off := (x.rd a).toNat
    let bank := (s.core c).a
    let old := bank.readLe off n
    let ext : Word := if w32 then (BitVec.ofNat 32 old).signExtend 64 else BitVec.ofNat 64 old
    let becomes := fun (t : State) (y : Hart) (new : Nat) =>
      t.harts = (s.done y 8).harts ∧ (t.core c).a.readLe off n = new ∧
      (∀ p, p < off ∨ off + n ≤ p → (t.core c).a.read p = bank.read p) ∧
      (∃ m, t.core c = { s.core c with a := m }) ∧ (∀ k, k ≠ c → t.core k = s.core k) ∧ t.mem = s.mem
    x.sbuf = [] → s.outstanding c < Config.maxRequests → off % n = 0 → s.okA c x.launch off n = true → bank.wf = true →
    let operand := fun r : Reg => (x.rd r).toNat % 2 ^ (8 * n)
    (∀ op, (op = .fadd → w32 = true) →
      let fl : BitVec 7 := if op = .fadd then (fadd .f32 .rne old (operand b)).fl else 0
      let v : Word := if op = .fadd then BitVec.ofNat 64 old else ext
      (∃ t, exec (.amo op w32 false .a d a b) s = .next t ∧
        becomes t ((x.wr d v).orFlags fl) (Claims.amoResult op n old (operand b))) ∧
      (∃ t, exec (.amo op w32 true .a d a b) s = .next t ∧
        becomes t { x with atflags := x.atflags ||| fl } (Claims.amoResult op n old (operand b)))) ∧
    (∃ t, exec (.cas w32 .a d a b e) s = .next t ∧
      becomes t (x.wr d ext) (if old = operand b then operand e else old))

/-- R139, R301, R302: an AMO or CAS of G-space outside a pack region is sent to the word's unit. A posted AMO completes with
it, any other waits; ATOMIC_STEP performs the oldest one of its hart and word where nothing holds it, and a waiting hart
then completes with the old value. -/
def Sys2Proof.Claims.GlobalAtomics : Prop :=
  (∀ (s u : State) (op : AmoOp) (sp : Space) (d a b e : Reg) (w32 : Bool) (pa : Nat) (m : BitVec 2),
    let n := if w32 then 4 else 8
    let va := s.me.rd a
    let sent := fun (o : AtomOp) (r : Reg) (post : Bool) =>
      ({ u with
        atoms := u.atoms ++ [{ seq := u.sends, hart := s.cur, op := o, bytes := n, sgn := true, place := .phys pa, pbmt := m, va := va
                               operand := BitVec.ofNat 64 ((s.me.rd r).toNat % 2 ^ (8 * n)), posted := post, d := d
                               arrived := none }]
        sends := u.sends + 1 } : State)
    sp = .g ∨ sp = .dflt → s.me.sbuf = [] → s.outstanding (coreOf s.cur) < Config.maxRequests →
    s.me.member = none → (m = 2 → s.me.elemUncached = false) → va.toNat % n = 0 →
    s.locate s.cur .g .store va n = (u, .at_ (.g pa m)) → inCtrl pa = false → u.inPackObject pa n = false →
    exec (.amo op w32 true sp d a b) s = .next ((sent (.amo op) b true).done u.me 8) ∧
    exec (.amo op w32 false sp d a b) s = .next (((sent (.amo op) b false).waitAtomic s.cur).markWait s.cur) ∧
    exec (.cas w32 sp d a b e) s = .next (((sent (.cas (s.me.rd b)) e false).waitAtomic s.cur).markWait s.cur)) ∧
  (∀ (s : State) (k : Nat) (t : Atomic) (pa : Nat), s.atoms[k]? = some t → t.place = .phys pa →
    s.sentFirst t.seq t.hart t.place t.bytes (t.pbmt == 2) = true → (s.atomSnoop t.place).isNone = true →
      s.atomReady (coreOf t.hart) t.place t.bytes = true →
    s.atomPoison t = false →
    let u := s.recallRange pa t.bytes
    let old := u.mem.readLe pa t.bytes
    ∃ v, exec (.atomicStep k) s = .next v ∧ v.atoms = s.atoms.eraseIdx k ∧
      (v.mem = match t.op.apply t.bytes old t.operand.toNat with
        | some r => u.mem.writeLe pa t.bytes r.bits
        | none => u.mem) ∧
      (t.posted = false →
        (v.hart t.hart).wait = none ∧ (v.hart t.hart).pc = (s.hart t.hart).pc + 8 ∧
        (t.d ≠ 0 → (v.hart t.hart).rd t.d = t.op.result t.bytes old)) ∧
      ∀ r, r ≠ t.d ∨ t.posted = true → (v.hart t.hart).rd r = (s.hart t.hart).rd r)

/-- AMO and CAS, in the own A-space and in G-space. -/
def Obligations.AtomicOperations : Prop :=
  Claims.LocalAtomics ∧ Claims.GlobalAtomics

/-! ## The ordering machine -/

/-- R168, R187, R277: DRAIN of the oldest store-buffer entry. On a tracked page it sends a registration, and memory is as
before; on an untracked one it writes the L1 line (in both cases with room in L1: else an older line leaves it first); a store
that bypasses L1 is performed at its home. The posted atomics of its hart that R169 and R187 order before it are performed.
An uncorrectable error in its drain makes cause 6 due with the store's address (R347); that such a store writes nothing is the
model's choice (log 68). -/
def Obligations.DrainStep : Prop :=
  ∀ (s : State) (h : Nat) (e : SbEntry) (rest : List SbEntry), (s.hart h).sbuf = e :: rest →
    let c := coreOf h
    s.storeReady c e.pa e.data.length e.pbmt = true → s.postedTo h e.pa e.data.length = false →
    (e.pbmt = 2 → s.atomUncached h = false) →
    let room := (s.core c).l1.length + (s.core c).ul1.length < Config.l1Lines
    let drained := fun t : State => exec (.drain h) s = .next t ∧ (t.hart h).sbuf = rest ∧
      { t.hart h with sbuf := (s.hart h).sbuf } = s.hart h ∧ ∀ k, k ≠ h → t.hart k = s.hart k
    (s.drainFails e.pa e.data.length = true → ∃ t, exec (.drain h) s = .next t ∧ (t.hart h).sbuf = rest ∧ t.mem = s.mem ∧
      t.regs = s.regs ∧ (t.hart h).pend = (s.hart h).pend ++ [{ cause := 6, stval := e.va, destKind := 0, destReg := 0 }] ∧
      ∀ k, k ≠ h → t.hart k = s.hart k) ∧
    (s.drainFails e.pa e.data.length = false →
    (s.hostBias e.pa = false → e.pbmt = 0 → room → ∃ t, drained t ∧ t.mem = s.mem ∧ t.tables = s.tables ∧
      ∃ r, t.regs = s.regs ++ [r] ∧ r.core = c ∧ r.hart = h ∧ r.w = e.pa / 4 ∧ r.arrived = none ∧
        (e.data.length % 4 = 0 → r.vals = dataWords (e.data.length / 4) e.data ∧ r.mask = 15 ∧
          ∀ i, i < e.data.length / 4 →
            ∃ y, (t.core c).l1get (e.pa / 4 + i) = some y ∧ y.owned = true ∧ y.val = getAt 0 r.vals i) ∧
        (e.data.length % 4 ≠ 0 → r.vals = [BitVec.ofNat 32 (leNat e.data * 2 ^ (8 * (e.pa % 4)))] ∧
          r.mask = BitVec.ofNat 4 ((2 ^ e.data.length - 1) * 2 ^ (e.pa % 4)))) ∧
    (s.hostBias e.pa = false → e.pbmt = 1 → room → e.pa % 64 + e.data.length ≤ 64 →
      ∃ t, drained t ∧ t.mem = s.mem ∧ t.regs = s.regs ∧ ∃ l, (t.core c).uline (e.pa / 64) = some l ∧
        (∀ i, i < e.data.length →
          getAt 0 l.data (e.pa % 64 + i) = getAt 0 e.data i ∧ l.dirty.getLsbD (e.pa % 64 + i) = true) ∧
        ∀ j, j < 64 → j < e.pa % 64 ∨ e.pa % 64 + e.data.length ≤ j → getAt 0 l.data j =
          match (s.core c).uline (e.pa / 64) with
          | some o => getAt 0 o.data j
          | none => s.mem.read (e.pa / 64 * 64 + j)) ∧
    (e.pbmt = 2 ∨ s.hostBias e.pa = true → (s.hostBias e.pa && s.hostHolds e.pa) = false → s.mem.wf = true →
      ∃ t, drained t ∧ t.regs = s.regs ∧ t.mem.readN e.pa e.data.length = e.data ∧
        ∀ p, p < e.pa ∨ e.pa + e.data.length ≤ p → t.mem.read p = (s.recallRange e.pa e.data.length).mem.read p))

/-- R168, R183: REGISTER performs a registration that nothing holds and no earlier one of its core precedes. It leaves the
fabric, and where its home's table was empty and its words lie in one line, every read miss of its words now gives the
registered values. -/
def Sys2Proof.Claims.RegisterStep : Prop :=
  ∀ (s : State) (k : Nat) (r : Registration), s.regs[k]? = some r → regFirst s.regs k r = true → s.regHeld r = false →
    ∃ t, exec (.register k) s = .next t ∧ t.regs = s.regs.eraseIdx k ∧ t.harts = s.harts ∧ t.atoms = s.atoms ∧
      t.packs = s.packs ∧
      (r.mask = 15 → s.table (4 * r.w) = [] → s.hostBias (4 * r.w) = false →
        0 < r.width → r.width ≤ r.stride → r.vals.length % r.width = 0 →
        (∀ i, i < r.vals.length → r.word i / 16 = r.w / 16) →
        ∀ i, i < r.vals.length → t.homeWord (r.word i) = getAt 0 r.vals i ∧ t.ownerOf (r.word i) = some (.core r.core))

/-- R168, R187: EVICT takes the words of a line that have no registration on their way out of the core's L1. -/
def Sys2Proof.Claims.EvictStep : Prop :=
  ∀ (s : State) (c line : Nat),
    ((s.core c).l1.any (fun y => y.w / 16 == line && !s.inFlight c (4 * y.w) 4) || ((s.core c).uline line).isSome) = true →
    ∃ t, exec (.evict c line) s = .next t ∧ t.harts = s.harts ∧ t.regs = s.regs ∧
      (∀ w, w / 16 = line → s.inFlight c (4 * w) 4 = false → (t.core c).l1get w = none) ∧ (t.core c).uline line = none

/-- How words of L1 change owner: REGISTER and EVICT. -/
def Obligations.OwnershipSteps : Prop :=
  Claims.RegisterStep ∧ Claims.EvictStep

/-- R171, R173, R175: the ordering instructions. A fence or drain whose condition holds completes; an acquire beyond core
scope leaves only the Registered words of the lines it covers; a release waits until it is satisfied. A FENCE notes how many
atomics had been sent, for a later CSRR of ATFLAGS (R141). What an acquire or a drain orders includes stream accesses (R67):
strips prefetched before it are read again. -/
def Obligations.Fences : Prop :=
  ∀ (s : State) (sc : Scope) (k : DrainKind) (a : Reg),
    let x := s.me
    let c := coreOf s.cur
    let f := { x.dropStrips with fenced := s.sends }
    let acquires := fun (i : Instr) (y : Hart) (gone : L1Word → Bool) => ∃ t, exec i s = .next t ∧ t.harts = (s.done y 8).harts ∧
      t.mem = s.mem ∧ (t.core c).l1 = (s.core c).l1.filter (fun w => w.owned || !gone w) ∧
      ∀ j, j ≠ c → t.core j = s.core j
    let covered := fun w : L1Word =>
      if x.rd a = 0 then w.slot == 0 else (s.core c).binds.any fun b => b.obj == x.rd a && b.slot == w.slot
    (sc = .core → exec (.fenceAcq sc) s = .next (s.done f 8) ∧ exec (.acquire sc a) s = .next (s.done x 8)) ∧
    (sc ≠ .core → acquires (.fenceAcq sc) f (fun _ => true) ∧ acquires (.acquire sc a) x.dropStrips covered) ∧
    (s.released s.cur sc = true → exec (.fenceRel sc) s = .next (s.done f 8) ∧ exec (.release sc a) s = .next (s.done x 8) ∧
      (sc = .core → exec (.fenceFull sc) s = .next (s.done f 8)) ∧
      (sc ≠ .core → acquires (.fenceFull sc) f (fun _ => true))) ∧
    (s.released s.cur sc = false → exec (.fenceRel sc) s = .next (s.markWait s.cur) ∧
      exec (.release sc a) s = .next (s.markWait s.cur) ∧ exec (.fenceFull sc) s = .next (s.markWait s.cur)) ∧
    (s.vdrained s.cur k = true → exec (.vdrain k) s = .next (s.done x.dropStrips 8)) ∧
    (s.vdrained s.cur k = false → exec (.vdrain k) s = .next (s.markWait s.cur)) ∧
    (s.released s.cur sc = true ↔ x.sbuf = [] ∧ (∀ m ∈ s.atoms, m.hart = s.cur → m.posted = false) ∧
      (sc ≠ .core → ∀ r ∈ s.regs, r.hart = s.cur → r.vec = true))

/-- R174: BINDR with aligned operands writes 65 for a zero object or length or a length above 2^40, 64 for an overlap, 0
where no slot is free, else the lowest free slot, which it binds; BINDR.un writes how many bindings of the object it removed.
An unaligned base or length raises cause 3. -/
def Obligations.Bindings : Prop :=
  ∀ (s : State) (d a b e : Reg),
    let x := s.me
    let c := coreOf s.cur
    let y := s.core c
    let base := x.rd a
    let len := x.rd b
    let writes := fun v : Word => exec (.bindr d a b e) s = .next (s.done (x.wr d v) 8)
    let overlap := y.binds.any fun t => decide (t.base < base.toNat + len.toNat) && decide (base.toNat < t.base + t.len)
    (x.queueIdle = true → (base.toNat % 64 ≠ 0 → exec (.bindr d a b e) s = .next (s.trapped 3 base)) ∧
      (base.toNat % 64 = 0 → len.toNat % 64 ≠ 0 → exec (.bindr d a b e) s = .next (s.trapped 3 len))) ∧
    (base.toNat % 64 = 0 → len.toNat % 64 = 0 →
      (x.rd e = 0 ∨ len = 0 ∨ 2 ^ 40 < len.toNat → writes 65) ∧
      (x.rd e ≠ 0 → len ≠ 0 → len.toNat ≤ 2 ^ 40 →
        (overlap = true → writes 64) ∧
        (overlap = false → (∀ k, 1 ≤ k → k ≤ 63 → ∃ t ∈ y.binds, t.slot = k) → writes 0) ∧
        (overlap = false → ∀ k, 1 ≤ k → k ≤ 63 → (∀ t ∈ y.binds, t.slot ≠ k) →
          (∀ j, 1 ≤ j → j < k → ∃ t ∈ y.binds, t.slot = j) →
          ∃ t, exec (.bindr d a b e) s = .next t ∧ t.harts = (s.done (x.wr d (BitVec.ofNat 64 k)) 8).harts ∧
            (t.core c).binds = y.binds ++ [{ slot := k, obj := x.rd e, base := base.toNat, len := len.toNat }]))) ∧
    (let gone := (y.binds.filter fun t => t.obj == x.rd e).length
     ∃ t, exec (.bindrUn d e) s = .next t ∧ t.harts = (s.done (x.wr d (BitVec.ofNat 64 gone)) 8).harts ∧
      (t.core c).binds = y.binds.filter fun t => t.obj != x.rd e)

/-- R176: TLREAD reads ISSUED or DONE. TLWAIT writes DONE and completes where the number has not been issued or is reached
(then with an acquire), or where its timeout has ended; else it waits. An acquire reads prefetched strips again (R67). -/
def Sys2Proof.Claims.TimelineReads : Prop :=
  ∀ (s : State) (d tl b : Reg) (timeout : BitVec 24),
    let x := s.me
    let t := x.tline tl.toNat
    let n := (x.rd b).toNat
    let done := x.wr d (BitVec.ofNat 64 t.done)
    exec (.tlread true d tl) s = .next (s.done (x.wr d (BitVec.ofNat 64 t.issued)) 8) ∧
    exec (.tlread false d tl) s = .next (s.done done 8) ∧
    (t.issued < n → exec (.tlwait d tl b timeout) s = .next (s.done done 8)) ∧
    (n ≤ t.issued → n ≤ t.done → ∃ u, exec (.tlwait d tl b timeout) s = .next u ∧
      u.harts = (s.done (x.dropStrips.wr d (BitVec.ofNat 64 t.done)) 8).harts ∧
      (u.core (coreOf s.cur)).l1 = (s.core (coreOf s.cur)).l1.filter (fun w => w.owned)) ∧
    (n ≤ t.issued → t.done < n → x.expired = true → exec (.tlwait d tl b timeout) s = .next (s.done done 8)) ∧
    (n ≤ t.issued → t.done < n → x.wait = none → ∃ u w, exec (.tlwait d tl b timeout) s = .next u ∧
      (u.hart s.cur).wait = some w ∧ w.expired = false ∧ (u.hart s.cur).pc = x.pc ∧
      w.deadline = if timeout = 0 then none else some (s.gtime + 1024 * timeout.toNat))

/-- R148: WAITA on a word of the own A-space, or of G-space at its home, whose condition holds writes the word and acquires;
one whose timeout has ended writes the word; else it waits. At its deadline WAITA_TIMEOUT ends a wait whose address locates and
whose word reads: s[D] is the word, the PC is 8 further and the hart no longer waits, whether the condition holds or not.
TLWAIT_TIMEOUT likewise writes DONE. -/
def Sys2Proof.Claims.WaitOnWord : Prop :=
  (∀ (s u r : State) (cond : WaitCond) (inA : Bool) (d a b : Reg) (timeout : BitVec 24) (p : ElemPlace) (bs : List Byte),
    let va := s.me.rd a
    va.toNat % 8 = 0 → s.locate s.cur (if inA then .a else .g) .load va 8 = (u, .at_ p) →
    (∀ pa m, p = .g pa m → inCtrl pa = false) → u.waitaWord s.cur p = .val r bs →
    let v : Word := BitVec.ofNat 64 (leNat bs)
    let holds := match cond with
      | .eq => decide (v = r.me.rd b)
      | .ne => decide (v ≠ r.me.rd b)
      | .geu => (r.me.rd b).ule v
    (holds = true → ∃ t, exec (.waita cond inA d a b timeout) s = .next t ∧ t.harts = (r.done (r.me.dropStrips.wr d v) 8).harts ∧
      (t.core (coreOf s.cur)).l1 = (r.core (coreOf s.cur)).l1.filter (fun w => w.owned)) ∧
    (holds = false → r.me.expired = true → exec (.waita cond inA d a b timeout) s = .next (r.done (r.me.wr d v) 8)) ∧
    (holds = false → r.me.wait = none → ∃ t w, exec (.waita cond inA d a b timeout) s = .next t ∧
      (t.hart s.cur).wait = some w ∧ w.expired = false ∧
      w.deadline = if timeout = 0 then none else some (r.gtime + 1024 * timeout.toNat))) ∧
  ∀ (s : State) (h : Nat) (w : Wait) (t : Nat) (n : Nat), (s.hart h).wait = some w → w.deadline = some t → t ≤ s.gtime →
    w.expired = false →
    (∀ (cond : WaitCond) (inA : Bool) (d a b : Reg) (tmo : BitVec 24) (v r : State) (p : ElemPlace) (bs : List Byte),
      (s.hart h).item = .instr (.waita cond inA d a b tmo) n → ((s.hart h).rd a).toNat % 8 = 0 →
      State.locate { s.expire h with cur := h } h (if inA then .a else .g) .load ((s.hart h).rd a) 8 = (v, .at_ p) →
      (∀ pa m, p = .g pa m → inCtrl pa = false) → v.waitaWord h p = .val r bs →
      ∃ u, exec (.waitaTimeout h) s = .next u ∧ (u.hart h).rd d = (if d = 0 then 0 else BitVec.ofNat 64 (leNat bs)) ∧
        (u.hart h).pc = (s.hart h).pc + 8 ∧ (u.hart h).wait = none ∧ u.cur = s.cur) ∧
    (∀ d tl b tmo, (s.hart h).item = .instr (.tlwait d tl b tmo) n → ∃ u, exec (.tlwaitTimeout h) s = .next u ∧
      (u.hart h).rd d = (if d = 0 then 0 else BitVec.ofNat 64 ((s.hart h).tline tl.toNat).done) ∧
      (u.hart h).pc = (s.hart h).pc + 8 ∧ (u.hart h).wait = none ∧ u.cur = s.cur)

/-- TLREAD, TLWAIT and WAITA, and the ends of their timeouts. -/
def Obligations.TimedWaits : Prop :=
  Claims.TimelineReads ∧ Claims.WaitOnWord

/-- R188: CFLUSH, CFLUSH.inv and CINVAL with no buffered store act on the lines of the range in order. A length above 2^40 is
illegal, an unaligned base or length raises cause 3. One line that translates completes, after CFLUSH.inv and CINVAL without
its untracked line and after CINVAL without its Valid words; a length of 0 does nothing. CFLUSH and CFLUSH.inv return once
their write-backs are performed, so at once where no page move, pack, flip or host copy holds the line's (R151, R247, R277,
R279). -/
def Obligations.CacheLines : Prop :=
  ∀ (s u : State) (a b : Reg) (pa : Nat) (m : BitVec 2),
    let x := s.me
    let c := coreOf s.cur
    let base := x.rd a
    let len := x.rd b
    let all := fun o : Out => exec (.cflush a b) s = o ∧ exec (.cflushInv a b) s = o ∧ exec (.cinval a b) s = o
    let home := pa / 64 * 64
    x.sbuf = [] →
    (x.queueIdle = true →
      (2 ^ 40 < len.toNat → all (.next (s.trapped 1 x.iword))) ∧
      (len.toNat ≤ 2 ^ 40 → base.toNat % 64 ≠ 0 → all (.next (s.trapped 3 base))) ∧
      (len.toNat ≤ 2 ^ 40 → base.toNat % 64 = 0 → len.toNat % 64 ≠ 0 → all (.next (s.trapped 3 len)))) ∧
    (len = 0 → base.toNat % 64 = 0 → ∃ t, all (.next t) ∧ t.harts = (s.done x 8).harts ∧ t.mem = s.mem ∧ t.cores = s.cores) ∧
    (len = 64 → base.toNat % 64 = 0 → x.stage ≠ 1 → s.locateG s.cur .load base 64 = (u, .at_ (.g pa m)) → u.heldPuts = [] →
      ((∀ p, home ≤ p → p < home + 64 → u.pageHeld p = false) → (u.packHolds home 64 || u.hostWaits home 64) = false →
      (∃ t, exec (.cflush a b) s = .next t ∧ t.harts = (u.done u.me 8).harts ∧
        ∀ l, (t.core c).uline (pa / 64) = some l → l.dirty = 0) ∧
      (∃ t, exec (.cflushInv a b) s = .next t ∧ t.harts = (u.done u.me 8).harts ∧ (t.core c).uline (pa / 64) = none)) ∧
      (∃ t, exec (.cinval a b) s = .next t ∧ t.harts = (u.done u.me 8).harts ∧ t.mem = u.mem ∧
        (t.core c).uline (pa / 64) = none ∧
        (t.core c).l1 = (u.core c).l1.filter (fun w => w.owned || w.w / 16 != pa / 64)))

/-! ## Tasks and the scheduler -/

/-- Address `va` names 64 readable bytes at `pa` of a page of type `m` for the issuing hart, after the translation has left
state `u`; the hart's earlier accesses are performed (R84), and nothing holds the bytes back (R152, R277, R279). -/
def Sys2Proof.Claims.Names (s u : State) (acc : Acc) (va : Word) (pa : Nat) (m : BitVec 2) : Prop :=
  va.toNat % 64 = 0 ∧ s.locateG s.cur acc va 64 = (u, .at_ (.g pa m)) ∧ inCtrl pa = false ∧
  u.quiet s.cur = true ∧ poisoned u.bad pa 64 = false ∧ u.readHeld pa 64 = false

/-- R83, R84, R345: SPAWN switches its hart out while the record at s[A] is read. With the data it writes 2 for a record that is not
well formed, 3 for a launch that is not RUNNING, 1 for a
full level, else 0 with a copy at the tail of its level on the own die; the launch must translate for writing first, or SPAWN
takes that fault. Inside a pack region it is illegal. -/
def Sys2Proof.Claims.Spawn : Prop :=
  ∀ (s u : State) (d a : Reg) (pa : Nat) (m : BitVec 2), Claims.Names s u .load (s.me.rd a) pa m → s.me.inRegion = false →
    (s.me.arrived = false → u.requestFree s.cur = true → ∃ t w, exec (.spawn d a) s = .next t ∧ (t.hart s.cur).pc = s.me.pc ∧
      (t.hart s.cur).s = s.me.s ∧ (t.hart s.cur).wait = some w ∧ w.kind = .load ∧ w.expired = false ∧ t.mem = u.mem) ∧
    (s.me.arrived = true →
    let va := s.me.rd a
    let r := TaskRec.ofBytes (u.modeBytes m pa 64)
    let part := u.partOf s.cur
    let v := (u.checkRec (u.ctx s.cur) r (s.partOf s.cur)).1
    let writes := fun (t : State) (n : Word) => exec (.spawn d a) s = .next (t.done (t.me.wr d n) 8)
    u.cur = s.cur ∧ v.cur = s.cur ∧
    ((u.checkRec (u.ctx s.cur) r (s.partOf s.cur)).2 = .invalid → writes v 2) ∧
    ((u.checkRec (u.ctx s.cur) r (s.partOf s.cur)).2 = .closed → writes v 3) ∧
    ((u.checkRec (u.ctx s.cur) r (s.partOf s.cur)).2 = .ok →
      (v.levelFull (dieOf s.cur) (s.partOf s.cur) r = true → writes v 1) ∧
      (v.levelFull (dieOf s.cur) (s.partOf s.cur) r = false → r.launch = 0 →
        ∃ t, exec (.spawn d a) s = .next t ∧ t.harts = (v.done (v.me.wr d 0) 8).harts ∧
          ((t.die (dieOf s.cur)).level (s.partOf s.cur) r.prio.toNat).recs =
            ((v.die (dieOf s.cur)).level (s.partOf s.cur) r.prio.toNat).recs ++
              [{ rc := r, handle := va, since := (v.die (dieOf s.cur)).clock, handler := none, gang := none }]) ∧
      (∀ w f, v.levelFull (dieOf s.cur) (s.partOf s.cur) r = false → r.launch ≠ 0 → w.me.queueIdle = true →
        v.translate (v.ctx s.cur) .store r.launch = (w, .fault f) → exec (.spawn d a) s = .next (w.trapped f r.launch)) ∧
      (∀ w q k, v.levelFull (dieOf s.cur) (s.partOf s.cur) r = false →
        v.translate (v.ctx s.cur) .store r.launch = (w, .ok q k) →
        ∃ t, exec (.spawn d a) s = .next t ∧ (d ≠ 0 → (t.hart s.cur).rd d = 0) ∧ (t.hart s.cur).pc = s.me.pc + 8)) ∧
    (r.fieldsOk = false → (u.checkRec (u.ctx s.cur) r (s.partOf s.cur)).2 = .invalid) ∧
    (r.fieldsOk = true → r.launch = 0 → u.checkRec (u.ctx s.cur) r part = (u, .ok)))

/-- R94: GANG writes 2 for a bad mask, a record that is not well formed or without LAUNCH, 3 for a launch that is not RUNNING,
1 where a target level is full, else 0. -/
def Sys2Proof.Claims.GangStatus : Prop :=
  ∀ (s u : State) (d a b : Reg) (pa : Nat) (k : BitVec 2), Claims.Names s u .load (s.me.rd a) pa k → s.me.inRegion = false →
    let r := TaskRec.ofBytes (u.modeBytes k pa 64)
    let m := (s.me.rd b).toNat
    let chk := u.checkRec (u.ctx s.cur) r (s.partOf s.cur)
    let writes := fun (t : State) (n : Word) => exec (.gang d a b) s = .next (t.done (t.me.wr d n) 8)
    (16 ≤ m ∨ m = 0 ∨ r.launch = 0 → writes u 2) ∧
    (0 < m → m < 16 → r.launch ≠ 0 →
      (chk.2 = .invalid → writes chk.1 2) ∧ (chk.2 = .closed → writes chk.1 3) ∧
      (chk.2 = .ok → (∃ k, k < 4 ∧ m.testBit k = true ∧ chk.1.levelFull k (s.partOf s.cur) r = true) → writes chk.1 1) ∧
      (chk.2 = .ok → (∀ k, k < 4 → m.testBit k = true → chk.1.levelFull k (s.partOf s.cur) r = false) →
        (∃ w q g, chk.1.translate (chk.1.ctx s.cur) .store r.launch = (w, .ok q g)) →
        ∃ t, exec (.gang d a b) s = .next t ∧ (d ≠ 0 → (t.hart s.cur).rd d = 0) ∧ (t.hart s.cur).pc = s.me.pc + 8))

/-- SPAWN and GANG. -/
def Obligations.TaskPushes : Prop :=
  Claims.Spawn ∧ Claims.GangStatus

/-- R85: JOIN with both addresses good and earlier accesses performed, at a counter that is not 1, decrements the counter
with wrap and writes 0, whatever the record; at 1 it writes 3 and leaves the counter where the record cannot be pushed, and
2 where its level is full; and 1 where it pushes. -/
def Obligations.Join : Prop :=
  ∀ (s u v : State) (d a b : Reg) (pa ra : Nat) (m k : BitVec 2),
    let ca := s.me.rd a
    let va := s.me.rd b
    s.me.inRegion = false → ca.toNat % 8 = 0 → va.toNat % 64 = 0 →
    s.locateG s.cur .store ca 8 = (u, .at_ (.g pa m)) → inCtrl pa = false → u.inPackObject pa 8 = false →
    u.locateG s.cur .load va 64 = (v, .at_ (.g ra k)) → inCtrl ra = false → v.quiet s.cur = true →
    v.inFlight (coreOf s.cur) pa 8 = false → v.writeHeld pa 8 = false → poisoned v.bad pa 8 = false →
    let n := leNat (v.homeBytes pa 8)
    let r := TaskRec.ofBytes (v.modeBytes k ra 64)
    let chk := v.checkRec (v.ctx s.cur) r (s.partOf s.cur)
    (n ≠ 1 → ∃ t, exec (.join d a b) s = .next t ∧ t.harts = (v.done (v.me.wr d 0) 8).harts ∧
      (let w := v.recallRange pa 8
       w.mem.wf = true → t.mem.readLe pa 8 = (w.mem.readLe pa 8 + (2 ^ 64 - 1)) % 2 ^ 64 ∧
        ∀ p, p < pa ∨ pa + 8 ≤ p → t.mem.read p = w.mem.read p)) ∧
    (n = 1 → poisoned v.bad ra 64 = false → v.readHeld ra 64 = false →
      (chk.2 ≠ .ok → exec (.join d a b) s = .next (chk.1.done (chk.1.me.wr d 3) 8)) ∧
      (chk.2 = .ok → chk.1.levelFull (dieOf s.cur) (s.partOf s.cur) r = true →
        exec (.join d a b) s = .next (chk.1.done (chk.1.me.wr d 2) 8)) ∧
      (chk.2 = .ok → chk.1.levelFull (dieOf s.cur) (s.partOf s.cur) r = false →
        (r.launch = 0 ∨ ∃ w q g, chk.1.translate (chk.1.ctx s.cur) .store r.launch = (w, .ok q g)) →
        ∃ t, exec (.join d a b) s = .next t ∧ (d ≠ 0 → (t.hart s.cur).rd d = 1) ∧ (t.hart s.cur).pc = s.me.pc + 8))

/-- R85, R90, R91, R386: on a good level record JOIN.lvl and TCANCEL write a status in s[D] and go on; TCANCEL of another
KIND or another partition's record writes 2, of a record that is not RUNNING 1, and of a RUNNING one 0, with its handle on
its way to every die. JOIN.lvl writes 3 for a record that is not RUNNING, of no level's KIND or of another partition; else 1
where its OUTSTANDING was 1, or 0. -/
def Obligations.LevelRecords : Prop :=
  ∀ (s u : State) (k : LevelKind) (d a : Reg) (pa : Nat) (m : BitVec 2), Claims.Names s u .store (s.me.rd a) pa m →
    u.inPackObject pa 64 = false → s.me.inRegion = false →
    let va := s.me.rd a
    let l := LevelRec.ofBytes pa (u.modeBytes m pa 64)
    let num := match k with | .launch => 1 | .graph => 2 | .phase => 3 | .job => 4
    let mine := l.kind = num ∧ (l.set = true → l.part = s.partOf s.cur)
    (¬ mine → ∃ t, exec (.tcancel k d a) s = .next t ∧ (d ≠ 0 → (t.hart s.cur).rd d = 2) ∧
      (t.hart s.cur).pc = s.me.pc + 8 ∧ ∀ j, (t.die j).cancels = (u.die j).cancels) ∧
    (mine → l.st ≠ 0 → ∃ t, exec (.tcancel k d a) s = .next t ∧ (d ≠ 0 → (t.hart s.cur).rd d = 1) ∧
      (t.hart s.cur).pc = s.me.pc + 8 ∧ ∀ j, (t.die j).cancels = (u.die j).cancels) ∧
    (mine → l.st = 0 → ∃ t, exec (.tcancel k d a) s = .next t ∧ (d ≠ 0 → (t.hart s.cur).rd d = 0) ∧
      (t.hart s.cur).pc = s.me.pc + 8 ∧ ∀ j, j < 4 → (t.die j).cancels = (u.die j).cancels ++
        [{ handle := va, part := s.partOf s.cur, gang := none }]) ∧
    (u.locateG s.cur .store va 64 = (u, .at_ (.g pa m)) →
      let level := 1 ≤ l.kind ∧ l.kind ≤ 4 ∧ (l.set = true → l.part = s.partOf s.cur)
      let gives := fun v : Word => ∃ t, exec (.joinLvl d a) s = .next t ∧ (d ≠ 0 → (t.hart s.cur).rd d = v) ∧
        (t.hart s.cur).pc = s.me.pc + 8
      (l.st ≠ 0 ∨ ¬ level → gives 3) ∧
      (l.st = 0 → level → ∀ w o, (u.stampNamed l (s.partOf s.cur)).levelAt (u.ctx s.cur) .store va = (w, some o) →
        gives (if o.outstanding = 1 then 1 else 0)))

/-- R87, R348, R86: TSELF reads the task's handle and launch (0 without a task), the hart, the die and the partition; TEND in
a task whose commands are complete and accesses performed leaves the hart idle; SPAWN, JOIN, JOIN.lvl, TCANCEL, GANG and TEND
are illegal inside a pack region, TEND also in a supervisor trap taken there and without a task. -/
def Obligations.TaskSelfAndEnd : Prop :=
  ∀ (s : State) (d a b : Reg) (k : LevelKind),
    let x := s.me
    let writes := fun (q : SelfKind) (v : Word) => exec (.tself q d) s = .next (s.done (x.wr d v) 8)
    (x.task = none → writes .task 0 ∧ writes .launch 0) ∧
    (∀ t, x.task = some t → writes .task t.handle ∧ writes .launch t.rc.launch) ∧
    writes .hart (BitVec.ofNat 64 s.cur) ∧ writes .die (BitVec.ofNat 64 (dieOf s.cur)) ∧
    writes .part (BitVec.ofNat 64 (s.core (coreOf s.cur)).part) ∧
    (x.task ≠ none → x.pack = none → (∀ t ∈ x.tl, t.done = t.issued) → s.quiet s.cur = true →
      s.joinFaults s.cur = false →
      ∃ t, exec .tend s = .next t ∧ (t.hart s.cur).task = none ∧ (t.hart s.cur).priv = .user ∧
        (t.hart s.cur).wait = none ∧ (t.hart s.cur).streams = [] ∧ (t.hart s.cur).lease = 0) ∧
    (x.queueIdle = true → x.pack.isSome = true ∨ x.task = none → exec .tend s = .next (s.trapped 1 x.iword)) ∧
    (x.queueIdle = true → x.inRegion = true → ∀ i, i = .spawn d a ∨ i = .join d a b ∨ i = .joinLvl d a ∨
      i = .tcancel k d a ∨ i = .gang d a b → exec i s = .next (s.trapped 1 x.iword))

/-- R78, R80, R52: TASK_POP gives the oldest record of the highest level to an idle hart: the PC is CODE, s3 to s6 are FRAME,
ARG0, ARG1 and the handle. In whatever way a record starts, the hart then has the values of R52, and its timelines keep
theirs. -/
def Obligations.TaskStart : Prop :=
  (∀ (s : State) (h lv : Nat) (q : QRec) (rest : List QRec), s.idle h = true →
    (s.die (dieOf h)).highest (s.partOf h) 8 = some lv →
    ((s.die (dieOf h)).level (s.partOf h) lv).recs = q :: rest → q.rc.launch = 0 → q.gang = none →
    (∀ k, k < 7 → (s.die (dieOf h)).moveDue (s.partOf h) k = none) → s.nextIdle (dieOf h) (s.partOf h) = some h →
    ∃ t, exec (.taskPop h) s = .next t ∧ ((t.die (dieOf h)).level (s.partOf h) lv).recs.length = rest.length ∧
      (rest.length < Config.fifoRecords → ((t.die (dieOf h)).level (s.partOf h) lv).recs = rest) ∧
      (let x := t.hart h
       x.pc = q.rc.code ∧ x.priv = .user ∧ x.task = some { rc := q.rc, handle := q.handle, handler := q.handler } ∧
       x.rd 3 = q.rc.frame ∧ x.rd 4 = q.rc.arg0 ∧ x.rd 5 = q.rc.arg1 ∧ x.rd 6 = q.handle ∧ x.prio = lv ∧ x.wait = none) ∧
      ∀ k, k ≠ h → t.hart k = s.hart k) ∧
  ∀ (s t : State) (h : Nat), exec (.taskPop h) s = .next t → (t.hart h).task ≠ none →
    let x := t.hart h
    (∀ r : Reg, r.toNat < 3 ∨ 6 < r.toNat → x.rd r = 0) ∧ x.lease = 0 ∧ x.vl = 0 ∧ 65536 * x.c / (x.nvreg * (x.vew / 8)) = 0 ∧
    x.vstart = 0 ∧ x.nvreg = 32 ∧ x.mt = 0 ∧ x.sb = 0 ∧ x.seed = 0 ∧ x.frm = 0 ∧ x.fflags = 0 ∧ x.atflags = 0 ∧ x.vew = 32 ∧
    x.mleash = 32 ∧ (∀ n, 0 < n → n < 8 → x.mask n = 0) ∧ (∀ r : Reg, r.toNat < 4 → descValid (x.tile r) = false) ∧
    x.streams = [] ∧ (∀ n, getAt none x.landing n = none) ∧ x.tl = (s.hart h).tl

/-- R79, R90, R91, R95, R96, R98, R282: the other steps of the scheduler and the lane arbiter take place where their
conditions hold. AGING_MOVE moves the first record of a level that has aged to the tail of the next one; GANG_TIMEOUT ends a
gang and cancels its RUNNING launch where a die has not acknowledged; CANCEL_BROADCAST stops the task of a die's one busy
hart whose chain holds the handle, and no hart without a task or of another partition; a held push goes to the tail of its
level; LEASE_GRANT gives the oldest request the smaller of its wish and what is free; GTO_STARVATION gives its core the
turn, and a hart that alone has waited 2,048 cycles there is the one that the core selects. -/
def Obligations.SchedulerSteps : Prop :=
  (∀ (s : State) (d part lv : Nat) (pre rest : List QRec) (q : QRec), lv < 7 →
    let level := fun (t : State) (n : Nat) => ((t.die d).level part n).recs
    level s lv = pre ++ q :: rest → (∀ p ∈ pre, p.aged (s.die d).clock = false) → q.aged (s.die d).clock = true →
    pre.length + rest.length < Config.fifoRecords → (level s (lv + 1)).length < Config.fifoRecords →
    ∃ t, exec (.agingMove d part lv) s = .next t ∧ level t lv = pre ++ rest ∧
      level t (lv + 1) = level s (lv + 1) ++ [{ q with since := (s.die d).clock }] ∧ t.harts = s.harts ∧ t.mem = s.mem) ∧
  (∀ (s : State) (d k : Nat) (g : Gang), (s.die d).gangs[k]? = some g → g.start + 20000 < s.gtime →
    let r := s.modDie d fun x => { x with gangs := x.gangs.eraseIdx k }
    ∃ t, exec (.gangTimeout d k) s = .next t ∧ (t.die d).gangs = (s.die d).gangs.eraseIdx k ∧ t.harts = s.harts ∧
      (g.mask &&& ~~~g.acked = 0 → t.mem = s.mem ∧ ∀ j, (t.die j).cancels = (s.die j).cancels) ∧
      (g.mask &&& ~~~g.acked ≠ 0 → ∀ u l, r.levelAt (r.partCtx g.part) .store g.launch = (u, some l) → ∀ j, j < 4 →
        (t.die j).cancels = (u.die j).cancels ++
          (if l.st = 0 then [{ handle := g.launch, part := g.part, gang := some u.ids }] else []))) ∧
  (∀ (s : State) (d : Nat) (c : Cancel) (rest : List Cancel), (s.die d).cancels = c :: rest →
    let r := s.modDie d fun x => { x with cancels := rest }
    ∃ t, exec (.cancelBroadcast d) s = .next t ∧
      (∀ h, (s.hart h).task = none ∨ s.partOf h ≠ c.part ∨ h / 256 ≠ d → t.hart h = s.hart h) ∧
      ∀ h k, h / 256 = d → (s.hart h).task = some k → s.partOf h = c.part →
        (∀ j, j / 256 = d → j ≠ h → (s.hart j).task = none) →
        (r.chainHolds (r.partCtx c.part) k.rc.launch c.handle (c.spares k)).2 = true → (t.hart h).stop = .cancelled) ∧
  (∀ (s : State) (d : Nat) (p : HeldPush) (rest : List HeldPush), (s.die d).held = p :: rest → p.after = .nothing →
    s.levelFull d p.part p.rc = false →
    ∃ t, (p.donecont = true → exec (.doneContPush d) s = .next t) ∧ (p.donecont = false → exec (.heldPush d) s = .next t) ∧
      (t.die d).held = rest ∧ ((t.die d).level p.part p.rc.prio.toNat).recs =
        ((s.die d).level p.part p.rc.prio.toNat).recs ++
          [{ rc := p.rc, handle := p.handle, since := (s.die d).clock, handler := p.handler, gang := none }]) ∧
  (∀ (s : State) (c : Nat) (r : LeaseReq) (rest : List LeaseReq), (s.core c).leaseq = r :: rest →
    let f := s.freeClusters c ||| ((s.hart r.hart).lease &&& ~~~(s.core c).lanedis)
    r.mincl ≤ min r.prefcl (popcount f) →
    ∃ t, exec (.leaseGrant c) s = .next t ∧ (t.core c).leaseq = rest ∧ (t.hart r.hart).c = min r.prefcl (popcount f) ∧
      (t.hart r.hart).lease &&& ~~~f = 0 ∧ (t.hart r.hart).v = []) ∧
  ∀ (s : State) (h : Nat), (s.core (coreOf h)).rr = false → 2048 ≤ (s.hart h).gto →
    ((s.hart h).task ≠ none ∨ (s.hart h).priv = .sup) → (s.hart h).wait = none →
    ∃ t, exec (.gtoStarvation h) s = .next t ∧ t.cur = h ∧ t.harts = s.harts ∧ t.mem = s.mem ∧
      (h < 1032 → t.ready h = true → t.stuck h = false →
        (∀ k ∈ hartsOf (coreOf h), k ≠ h → (s.hart k).gto < 2048) → t.select (coreOf h) = some h)

/-! ## The vector unit -/

/-- R341, R342, R58, R59: the configuration instructions with the vector queue idle. SETMT takes 0 to 4 and SETNV 8, 16, 32 or
64, anything else is illegal; SETNV clears the registers, m1 to m7 and VL. SETVL with a lease sets VEW, VL = min(s[A], MVL)
and s[D] = VL; without one it waits for the lane arbiter. -/
def Obligations.Configuration : Prop :=
  ∀ (s : State) (a d : Reg) (imm : BitVec 36), s.me.queueIdle = true →
    let x := s.me
    let n := imm.toNat
    let illegal := Host.Outcome.next (φ := Fault) (ρ := Refusal) (s.trapped 1 x.iword)
    (n ≤ 4 → exec (.setmt imm) s = .next (s.done { x with mt := n } 8)) ∧
    (4 < n → exec (.setmt imm) s = illegal) ∧
    (n = 8 ∨ n = 16 ∨ n = 32 ∨ n = 64 → x.bound = false → s.storesDone s.cur = true →
      exec (.setnv imm) s = .next (s.done { x.zeroVectors with nvreg := n, vl := 0 } 8)) ∧
    (n = 8 ∨ n = 16 ∨ n = 32 ∨ n = 64 → x.bound = true → exec (.setnv imm) s = illegal) ∧
    (¬ (n = 8 ∨ n = 16 ∨ n = 32 ∨ n = 64) → exec (.setnv imm) s = illegal ∧ exec (.setvl d a imm) s = illegal) ∧
    exec (.setsb false a imm) s = .next (s.done { x with sb := (x.rd a + imm.signExtend 64).setWidth 32 } 8) ∧
    exec (.setsb true a imm) s =
      .next (s.done { x with sb := (x.sb.setWidth 64 + x.rd a + imm.signExtend 64).setWidth 32 } 8) ∧
    exec (.setseed a imm) s = .next (s.done { x with seed := x.rd a + imm.signExtend 64 } 8) ∧
    (n = 8 ∨ n = 16 ∨ n = 32 ∨ n = 64 → x.lease ≠ 0 → x.rd a ≠ 0 →
      let vl := min (x.rd a).toNat (65536 * x.c / (x.nvreg * (n / 8)))
      exec (.setvl d a imm) s = .next (s.done (({ x with vew := n, vl := vl } : Hart).wr d (BitVec.ofNat 64 vl)) 8)) ∧
    (n = 8 ∨ n = 16 ∨ n = 32 ∨ n = 64 → x.lease = 0 → x.rd a = 0 →
      exec (.setvl d a imm) s = .next (s.done (({ x with vew := n, vl := 0 } : Hart).wr d 0) 8)) ∧
    (n = 8 ∨ n = 16 ∨ n = 32 ∨ n = 64 → x.lease = 0 → x.rd a ≠ 0 → x.bound = false →
      (s.clustersLeft (coreOf s.cur) < x.leaseWish.1 →
        exec (.setvl d a imm) s = .next (s.trapped 13 (BitVec.ofNat 64 x.leaseWish.1))) ∧
      (x.leaseWish.1 ≤ s.clustersLeft (coreOf s.cur) → s.storesDone s.cur = true →
        (∀ r ∈ (s.core (coreOf s.cur)).leaseq, r.hart ≠ s.cur) →
        ∃ t, exec (.setvl d a imm) s = .next t ∧ (t.hart s.cur).pc = x.pc ∧ (t.hart s.cur).s = x.s ∧
          (t.core (coreOf s.cur)).leaseq = (s.core (coreOf s.cur)).leaseq ++
            [{ hart := s.cur, mincl := x.leaseWish.1, prefcl := x.leaseWish.2 }]))

/-- The vector instructions that join the vector queue at issue. -/
def Sys2Proof.Claims.queued : Instr → Bool
  | .mlogic .. | .mpopc .. | .mfirst .. | .vadd _ | .vsub _ | .vmul _ | .vmulh _ | .vmulhr _ | .vdiv _ | .vrem _ | .vmin _
  | .vmax _ | .vand _ | .vor _ | .vxor _ | .vshl _ | .vshr _ | .vsra _ | .vrshr _ | .vabs _ | .vneg _ | .vsqrt _ | .vrsqrt _
  | .vexp2 _ | .vfma _ | .vsel _ | .vclamp _ | .vcmp .. | .vcvt .. | .vbscale _ | .vpackni _ | .vunpkni .. | .vmov .. | .vid _
  | .vext _ | .vins _ | .vslide .. | .vperm _ | .vcompress _ | .vred .. | .vadds .. | .vld _ | .vst _ | .vamo .. => true
  | _ => false

/-- R353, R168, R383: a vector instruction joins the queue with its PC and what scalar issue reads, and the hart goes on;
nothing else of the package changes. With 8 entries it waits. One that breaks a rule
of its operands (R57, R67, R110, R124, R360, R361, R363) is illegal once the queue is idle. -/
def Sys2Proof.Claims.VectorIssue : Prop :=
  ∀ (s : State) (i : Instr), Claims.queued i = true →
    let x := s.me
    let open_ := x.vq.length < 8
    (open_ → x.vectorOk i = true → ∃ e : VEntry, e.instr = i ∧ e.pc = x.pc ∧ e.iword = x.iword ∧ e.num = x.mt ∧
      exec i s = .next (s.done { x with vq := x.vq ++ [e] } 8)) ∧
    (¬ open_ → exec i s = .next (s.markWait s.cur)) ∧
    (open_ → x.vectorOk i = false → x.queueIdle = true → exec i s = .next (s.trapped 1 x.iword)) ∧
    (open_ → x.vectorOk i = false → x.queueIdle = false → exec i s = .next (s.markWait s.cur))

/-- R342: VECTOR_START starts the oldest instruction of an idle queue; with no stream bound, an instruction of registers
takes the configuration that stands, at element VSTART, and stops at the first active element that reads a poisoned word. It
reads no result that is still to come (R62, R355). -/
def Sys2Proof.Claims.VectorStart : Prop :=
  ∀ (s : State) (h : Nat) (e : VEntry) (rest : List VEntry),
    let x := s.hart h
    x.vq = e :: rest → x.run = none → x.linked = none → x.streams = [] → Claims.queued e.instr = true → vmemOf e.instr = none →
    x.resultDue e.instr (s.core (coreOf h)).cycle = false →
    ∃ t ru, exec (.vectorStart h) s = .next t ∧ t.hart h = { x with run := some ru } ∧ (∀ k, k ≠ h → t.hart k = s.hart k) ∧
      t.mem = s.mem ∧ ru.e = e ∧ ru.vl = x.vl ∧ ru.lo = x.vstart ∧ ru.next = x.vstart ∧ ru.frm = x.frm ∧ ru.sb = x.sb ∧
      ru.seed = x.seed ∧ ru.width = x.vew / 8 ∧ ru.strips = [] ∧ ru.outs = [] ∧ ru.waits = [] ∧
      ((∀ j, ru.from_ ≤ j → j < x.vl → x.maskBit (vmaskOf e.instr) j = true → ru.readsBad x j = false) →
        ru.fault = none ∧ ru.limit = x.vl)

/-- A vector instruction from its issue to its start. -/
def Obligations.VectorQueue : Prop :=
  Claims.VectorIssue ∧ Claims.VectorStart

/-- The element-wise instructions of one destination register as wide as their elements, with their fields. -/
def Sys2Proof.Claims.lanewise : Instr → Option VArgs
  | .vadd v | .vsub v | .vmul v | .vmulh v | .vmulhr v | .vdiv v | .vrem v | .vmin v | .vmax v | .vand v | .vor v | .vxor v
  | .vshl v | .vshr v | .vsra v | .vrshr v | .vabs v | .vneg v | .vsqrt v | .vrsqrt v | .vexp2 v | .vfma v | .vclamp v => some v
  | _ => none

/-- R60, R61, R355 to R358: ELEMENT_GROUP of a running element-wise instruction without streams. In all but the last of the
cycles that the group takes it changes no register; in the last one each active element of the group takes the operation of
its own source elements, its flags are ORed into FFLAGS, of which no trap of a younger instruction takes them back, inactive elements
and every element outside the group keep their
bytes, and so do the other vector registers, the scalar registers and memory. -/
def Obligations.LanewiseGroup : Prop :=
  ∀ (s : State) (h : Nat) (ru : VRun) (v : VArgs),
    let x := s.hart h
    let n := v.t.bytes
    let hi := ru.groupEnd x.c
    x.run = some ru → s.groupReady h ru = true → Claims.lanewise ru.e.instr = some v → ru.strips = [] → x.streams = [] → ru.fault = none →
      v.xm = 0 →
    ru.next ≤ hi → hi * n ≤ 2 ^ 20 → x.v.wf = true →
    (ru.spent + 1 < ru.cycles x hi → ∃ t w, exec (.elementGroup h) s = .next t ∧ (t.hart h).run = some w ∧
      w.spent = ru.spent + 1 ∧ w.next = ru.next ∧ (t.hart h).v = x.v ∧ (t.hart h).s = x.s ∧ t.mem = s.mem) ∧
    (ru.cycles x hi ≤ ru.spent + 1 →
    let r := fun i => arithVal ru.e.instr (ru.mode v i) v.t v.sat (x.velem v.a i n) (ru.opB x v i) (ru.opC x v i)
    let fl := ((List.range hi).filter fun i => decide (ru.next ≤ i) && x.maskBit v.m.toNat i).foldl (fun f i => f ||| (r i).fl) 0
    ∃ t, exec (.elementGroup h) s = .next t ∧ t.mem = s.mem ∧ (∀ k, k ≠ h → t.hart k = s.hart k) ∧
      (∀ q, (t.hart h).rd q = x.rd q) ∧ (t.hart h).fflags = x.fflags ||| fl ∧
      (∀ i, ru.next ≤ i → i < hi → x.maskBit v.m.toNat i = true → (t.hart h).velem v.d i n = (r i).bits % 256 ^ n) ∧
      (∀ i, i * n < 2 ^ 20 → (i < ru.next ∨ hi ≤ i ∨ x.maskBit v.m.toNat i = false) →
        (t.hart h).velem v.d i n = x.velem v.d i n) ∧
      (∀ q : Reg, q ≠ v.d → ∀ i m, (i + 1) * m ≤ 2 ^ 20 → (t.hart h).velem q i m = x.velem q i m) ∧
      (ru.limit ≤ hi → (t.hart h).vq = (x.raiseFlags fl).vq.drop 1 ∧ (t.hart h).run = none ∧ (t.hart h).vstart = 0) ∧
      (hi < ru.limit → ∃ w, (t.hart h).run = some w ∧ w.next = hi ∧ w.e = ru.e))

/-- R106, R356 to R358: what the integer operations compute on an element of w bits, signed or not. -/
def Obligations.IntegerElements : Prop :=
  ∀ (v : VArgs) (md : RMode) (a b c : Nat), v.t.isFp = false → v.sat = false →
    let t := v.t
    let w := tyBits t
    let val := fun n : Nat => if t.isSigned ∧ 2 ^ (w - 1) ≤ n then (n : Int) - 2 ^ w else n
    let wrap := fun z : Int => (z % 2 ^ w).toNat
    let is := fun (i : Instr) (z : Int) => (arithVal i md t v.sat a b c).bits = wrap z
    a < 2 ^ w → b < 2 ^ w → c < 2 ^ w →
    is (.vadd v) (val a + val b) ∧ is (.vsub v) (val a - val b) ∧ is (.vmul v) (val a * val b) ∧
    is (.vmulh v) (val a * val b / 2 ^ w) ∧ is (.vfma v) (val a * val b + val c) ∧ is (.vneg v) (- val a) ∧
    is (.vand v) (a &&& b : Nat) ∧ is (.vor v) (a ||| b : Nat) ∧ is (.vxor v) (a ^^^ b : Nat) ∧
    is (.vmin v) (if val a < val b then val a else val b) ∧ is (.vmax v) (if val a < val b then val b else val a) ∧
    is (.vshl v) (val a * 2 ^ (b % w)) ∧ is (.vshr v) (a / 2 ^ (b % w) : Nat)

/-- R330, R331, R61: ELEMENT_GROUP of MLOGIC gives each active bit of the group the operation of the source bits and keeps
every other bit of m[D]; in the last of their cycles MPOPC counts and MFIRST finds the first of the set active bits from
VSTART on, all ones for none. -/
def Obligations.MaskOperations : Prop :=
  ∀ (s : State) (h : Nat) (ru : VRun) (d a b : Reg) (m : BitVec 3) (op : MOp),
    let x := s.hart h
    let hi := ru.groupEnd x.c
    let act := fun i => x.maskBit m.toNat i
    x.run = some ru → s.groupReady h ru = true → ru.cycles x hi ≤ ru.spent + 1 → ru.fault = none → x.streams = [] →
    (ru.e.instr = .mlogic op d a b m → d.toNat ≠ 0 → d.toNat < 8 → ru.next ≤ hi → hi ≤ 131072 →
      ∃ t, exec (.elementGroup h) s = .next t ∧
        ∀ i, i < 131072 → (t.hart h).maskBit d.toNat i =
          if ru.next ≤ i ∧ i < hi ∧ act i = true then
            (match op, x.maskBit a.toNat i, x.maskBit b.toNat i with
              | .and, p, q => p && q
              | .or, p, q => p || q
              | .xor, p, q => p ^^ q
              | .andn, p, q => p && !q
              | .orn, p, q => p || !q
              | .nand, p, q => !(p && q)
              | .nor, p, q => !(p || q)
              | .xnor, p, q => !(p ^^ q))
          else x.maskBit d.toNat i) ∧
    (let set := (List.range ru.vl).filter fun i => decide (ru.lo ≤ i) && act i && x.maskBit a.toNat i
     (ru.e.instr = .mpopc d a m → ∃ t, exec (.elementGroup h) s = .next t ∧
        (t.hart h).rd d = if d = 0 then 0 else BitVec.ofNat 64 set.length) ∧
     (ru.e.instr = .mfirst d a m → ∃ t, exec (.elementGroup h) s = .next t ∧
        (t.hart h).rd d = if d = 0 then 0 else match set with
          | i :: _ => BitVec.ofNat 64 i
          | [] => BitVec.allOnes 64))

/-- R166, R168, R366: an element access at the head of the element queue in A-, C- or W-space takes place at the bank: a load
that is not its instruction's last one and behind which nothing waits is delivered, a store's bytes are written. Nothing that
the hart sent to the word before the instruction is on its way (R134). -/
def Obligations.ElementStep : Prop :=
  ∀ (s : State) (h : Nat) (e : Elem) (rest : List Elem), (s.hart h).elems = e :: rest →
    let c := coreOf h
    (∀ k off, e.kind = .store → e.place = .a k off → s.sentBefore h e = false → (s.core k).a.wf = true →
      ∃ t, exec (.element h 0) s = .next t ∧ (t.hart h).elems = rest ∧ t.mem = s.mem ∧
        (t.core k).a.readN off e.bytes = leBytes e.bytes e.data.toNat ∧
        ∀ p, p < off ∨ off + e.bytes ≤ p → (t.core k).a.read p = (s.core k).a.read p) ∧
    (∀ off, e.kind = .store → e.place = .c off → (s.core c).c.wf = true →
      ∃ t, exec (.element h 0) s = .next t ∧ (t.hart h).elems = rest ∧
        (t.core c).c.readN off e.bytes = leBytes e.bytes e.data.toNat ∧
        ∀ p, p < off ∨ off + e.bytes ≤ p → (t.core c).c.read p = (s.core c).c.read p) ∧
    (∀ off ru, e.kind = .load → e.place = .w off → (s.hart h).run = some ru → ru.fault = none →
      (∃ f ∈ rest, f.kind = .load) → (s.hart h).vq.length ≤ 1 → (s.hart h).linked = none →
      ∃ t w, exec (.element h 0) s = .next t ∧ (t.hart h).elems = rest ∧ (t.hart h).run = some w ∧
        w.staged = ru.staged ++ [(e.idx, BitVec.ofNat 64 ((s.core c).w.readLe off e.bytes))])

/-- R66, R67, R68, R369: VBIND of a descriptor in memory binds a stream at its start; of a register that is bound, or beyond
NVREG, it is illegal; VUNBIND unbinds, at once for a load stream, and does nothing to an unbound register; STREAM_PREFETCH
takes a strip ahead, of no uncached page (R187), and moves nothing the program sees. -/
def Obligations.Streams : Prop :=
  (∀ (s u v : State) (d a : Reg) (pa : Nat) (m : BitVec 2) (bs : List Byte),
    let x := s.me
    let va := x.rd a
    x.queueIdle = true → x.sbuf = [] →
    ((x.nvreg ≤ d.toNat ∨ (x.stream d).isSome = true ∨ 8 ≤ x.streams.length) →
      exec (.vbind d a) s = .next (s.trapped 1 x.iword)) ∧
    (d.toNat < x.nvreg → (x.stream d).isSome = false → x.streams.length < 8 →
      (va.toNat % 64 ≠ 0 → exec (.vbind d a) s = .next (s.trapped 3 va)) ∧
      (va.toNat % 64 = 0 → s.locateG s.cur .load va 64 = (u, .at_ (.g pa m)) → u.readDesc s.cur pa m = .val v bs →
        v.cur = s.cur → ∀ st, streamOf d bs = some st → exec (.vbind d a) s =
          .next (v.done { v.me with streams := v.me.streams ++ [st] } 8) ∧ st.reg = d ∧ st.pos = 0))) ∧
  (∀ (s : State) (d : Reg),
    let x := s.me
    x.queueIdle = true →
    (x.nvreg ≤ d.toNat → exec (.vunbind d) s = .next (s.trapped 1 x.iword)) ∧
    (d.toNat < x.nvreg → x.stream d = none → exec (.vunbind d) s = .next (s.done x 8)) ∧
    (∀ st, d.toNat < x.nvreg → x.stream d = some st → (st.store = true → s.storesDone s.cur = true) →
      exec (.vunbind d) s = .next (s.done { x with streams := x.streams.filter fun u => u.reg != d } 8))) ∧
  ∀ (s u : State) (h reg : Nat) (st : VStream) (es : List StripElem),
    let x := s.hart h
    x.stream (BitVec.ofNat 6 reg) = some st → st.store = false → x.vl ≠ 0 → st.strips.length < 4 → x.queueIdle = true →
    x.elems = [] → x.member = none → st.ty.bytes * x.vl ≤ x.vbytes → st.inside (st.pos + st.strips.length * x.vl) = true →
    s.stripUncached h st (st.pos + st.strips.length * x.vl) x.vl = false →
    s.readStrip h st (st.pos + st.strips.length * x.vl) x.vl = .ok (u, es) →
    ∃ t, exec (.streamPrefetch h reg) s = .next t ∧ t.mem = u.mem ∧ (t.hart h).pc = (u.hart h).pc ∧
      (t.hart h).s = (u.hart h).s ∧ (t.hart h).v = (u.hart h).v

/-- R72, R370: VCOMMIT of a free landing tag does nothing; of one whose transfer is complete it writes the active elements
into the register and frees the tag, and is illegal where a load stream has been bound to the register since (R67); of one
with an error it raises cause 6 with STVAL 0 and frees it; else it waits.
LANDING_COMPLETE marks a tag whose data have come, or frees a discarded one. -/
def Obligations.LandingTags : Prop :=
  (∀ (s : State) (tag : BitVec 4), s.me.queueIdle = true →
    let x := s.me
    let free := fun y : Hart => { y with landing := putAt none y.landing tag.toNat none }
    (getAt none x.landing tag.toNat = none → exec (.vcommit tag) s = .next (s.done x 8)) ∧
    (∀ t, getAt none x.landing tag.toNat = some t →
      (t.done = false → exec (.vcommit tag) s = .next (s.markWait s.cur)) ∧
      (t.done = true → t.err = false → x.stream t.reg = none → exec (.vcommit tag) s = .next (s.done (free (t.commit x)) 8)) ∧
      (∀ u, t.done = true → t.err = false → x.stream t.reg = some u → u.store = false →
        exec (.vcommit tag) s = .next (s.trapped 1 x.iword)) ∧
      (t.done = true → t.err = true → ∃ u, exec (.vcommit tag) s = .next u ∧
        (x.pack = none → (u.hart s.cur).scause = 6 ∧ (u.hart s.cur).stval = 0 ∧ (u.hart s.cur).priv = .sup ∧
          getAt none (u.hart s.cur).landing tag.toNat = none)))) ∧
  ∀ (s : State) (h tag : Nat) (t : LandTag), getAt none (s.hart h).landing tag = some t → t.came = true → t.done = false →
    ∃ u, exec (.landingComplete h tag) s = .next u ∧
      getAt none (u.hart h).landing tag = if t.discard then none else some { t with done := true }

/-! ## The matrix unit and the engines -/

/-- R203, R374, R64, R202: WSET with the queue idle writes the descriptor (VALID, FMT, K, ADDR) of a tile that fits W-space; a
bad format or register is illegal, an address that is no multiple of 64 raises cause 3, a tile that does not fit cause 5. -/
def Sys2Proof.Claims.TileRegisters : Prop :=
  ∀ (s : State) (fmt : BitVec 4) (d a : Reg), s.me.queueIdle = true →
    let x := s.me
    let v := x.rd a
    let f := fmt.toNat
    let k := if f = 1 then 2048 else if f = 2 then 1024 else if f ≤ 4 then 512 else if f ≤ 8 then 256 else 64
    let size := if f = 9 then 32768 else 32 * k * f + 16 * k
    (f = 0 ∨ 9 < f ∨ 3 < d.toNat → exec (.wset fmt d a) s = .next (s.trapped 1 x.iword)) ∧
    (0 < f → f ≤ 9 → d.toNat ≤ 3 →
      (v.toNat % 64 ≠ 0 → exec (.wset fmt d a) s = .next (s.trapped 3 v)) ∧
      (v.toNat % 64 = 0 → 8 * 2 ^ 20 < v.toNat + size → exec (.wset fmt d a) s = .next (s.trapped 5 v)) ∧
      (v.toNat % 64 = 0 → v.toNat + size ≤ 8 * 2 ^ 20 → ∃ y, exec (.wset fmt d a) s = .next (s.done y 8) ∧
        y.tile d = BitVec.ofNat 64 (2 ^ 63 + f * 2 ^ 36 + k * 2 ^ 24 + v.toNat) ∧
        (∀ e, e ≠ d → y.tile e = x.tile e) ∧ { y with w := x.w } = x))

/-- R205, R206, R214, R332, R334: MROW and MROWV take a tl1 number at issue and join the vector queue with what scalar issue
reads; MROWV reserves its landing tag, and without room for it is illegal. MKICK makes the WAITING groups of its tile READY,
MKICK.all those that hold a row of the hart. -/
def Sys2Proof.Claims.RowOps : Prop :=
  ∀ (s : State) (f : AFmt) (z : Bool) (d a b c : Reg) (tag : BitVec 4),
    let x := s.me
    let core := s.core (coreOf s.cur)
    let n := (x.tline 1).issued + 1
    let free := x.vq.length < 8
    (free → ∃ y e, exec (.mrow f z d a b c) s = .next (s.done y 8) ∧ (y.tline 1).issued = n ∧ y.vq = x.vq ++ [e] ∧
      e.instr = .mrow f z d a b c ∧ e.num = n ∧ e.sd = x.rd d ∧ e.pc = x.pc ∧ y.s = x.s ∧ y.landing = x.landing) ∧
    (free → getAt none x.landing tag.toNat = none → x.landingUse + 1024 ≤ 262144 →
      ∃ y e t, exec (.mrowv f d a b c tag) s = .next (s.done y 8) ∧ (y.tline 1).issued = n ∧ y.vq = x.vq ++ [e] ∧
        e.instr = .mrowv f d a b c tag ∧ e.num = n ∧ y.s = x.s ∧ getAt none y.landing tag.toNat = some t ∧ t.num = n ∧
        t.reg = d ∧ t.bytes = 1024 ∧ t.vl = 256 ∧ t.done = false) ∧
    (free → x.canLand tag.toNat 1024 = false → x.queueIdle = true →
      exec (.mrowv f d a b c tag) s = .next (s.trapped 1 x.iword)) ∧
    (¬ free → exec (.mrow f z d a b c) s = .next (s.markWait s.cur) ∧
      exec (.mrowv f d a b c tag) s = .next (s.markWait s.cur)) ∧
    (x.queueIdle = true → a.toNat ≤ 3 → descValid (x.tile a) = true →
      ∃ t, exec (.mkick a) s = .next t ∧ t.harts = (s.done x 8).harts ∧ t.mem = s.mem ∧
        (t.core (coreOf s.cur)).pond = core.pond.map fun g => g.map fun q =>
          if q.state = .waiting ∧ q.keyed (descAddr (x.tile a)) (descFmt (x.tile a)) core.part = true then
            { q with state := .ready, readyAt := core.cycle } else q) ∧
    (x.queueIdle = true → (3 < a.toNat ∨ descValid (x.tile a) = false) →
      exec (.mkick a) s = .next (s.trapped 1 x.iword)) ∧
    (x.queueIdle = true → ∃ t, exec .mkickAll s = .next t ∧ t.harts = (s.done x 8).harts ∧ t.mem = s.mem ∧
      (t.core (coreOf s.cur)).pond = core.pond.map fun g => g.map fun q =>
        if q.state = .waiting ∧ (∃ r ∈ q.rows, r.hart = s.cur) then { q with state := .ready, readyAt := core.cycle }
        else q)

/-- WSET, MROW, MROWV and MKICK. -/
def Obligations.TileAndRowOps : Prop :=
  Claims.TileRegisters ∧ Claims.RowOps

/-- R205, R206, R210, R212: ROW_CAPTURE of the oldest queue entry: a row op that breaks R206 raises cause 1 with its word, a C
row that is no multiple of 64 cause 3 with its address; both end the number of the row op (R334); a good one with room in the
millpond joins it and leaves the queue. -/
def Sys2Proof.Claims.RowCapture : Prop :=
  ∀ (s : State) (h : Nat) (e : VEntry) (rest : List VEntry) (o : RowOp),
    let x := s.hart h
    x.vq = e :: rest → x.run = none → rowOp e.instr = some o → x.resultDue e.instr (s.core (coreOf h)).cycle = false →
    (x.pack = none → x.rowOk e.instr o = false → ∃ t, exec (.rowCapture h) s = .next t ∧ (t.hart h).scause = 1 ∧
      (t.hart h).stval = e.iword ∧ (t.hart h).sepc = e.pc &&& ~~~7#64 ∧ (t.hart h).vq = [] ∧
      (rest = [] → (t.hart h).tline 1 = (x.tline 1).complete e.num)) ∧
    (x.pack = none → x.rowOk e.instr o = true → o.tag = none → e.sd.toNat % 64 ≠ 0 →
      ∃ t, exec (.rowCapture h) s = .next t ∧ (t.hart h).scause = 3 ∧ (t.hart h).stval = e.sd) ∧
    (∀ u, x.rowOk e.instr o = true → s.rowDestFault h e o = none → x.streams = [] →
      ({ x.newRun e with lo := 0 } : VRun).rowBad x o (descFmt (x.tile o.b)) = false →
      s.placeRow (coreOf h) (s.partOf h) (s.rowOf h e o { x.newRun e with lo := 0 }) = some u →
      ∃ t, exec (.rowCapture h) s = .next t ∧ (t.hart h).vq = rest ∧ (t.hart h).s = x.s ∧
        (t.core (coreOf h)).pond = (u.core (coreOf h)).pond ∧ t.mem = s.mem)

/-- R209, R216: ROW_RESULT writes the 256 results of the oldest row that entered 288 cycles ago into its 1,024 bytes of C-space
and completes its tl1 number; ROW_ERROR drops a row without a result and completes its number as well. -/
def Sys2Proof.Claims.RowResults : Prop :=
  ∀ (s : State) (c : Nat) (f : RowFlight) (rest : List RowFlight), (s.core c).arr.flight = f :: rest →
    (∀ off, f.at_ ≤ (s.core c).cycle → (∀ r ∈ (s.core c).pondRows, r.same f.row = false) → f.row.dest = .c off →
      f.result.length = 256 → (s.core c).c.wf = true →
      ∃ t, exec (.rowResult c) s = .next t ∧ (t.core c).arr.flight = rest.map f.feeds ∧ t.mem = s.mem ∧
        (∀ j, j < 256 → (t.core c).c.readLe (off + 4 * j) 4 = (getAt 0 f.result j).toNat) ∧
        (∀ p, p < off ∨ off + 1024 ≤ p → (t.core c).c.read p = (s.core c).c.read p) ∧
        (t.hart f.row.hart).tline 1 = ((s.hart f.row.hart).tline 1).complete f.row.num) ∧
    (f.row.task = (s.hart f.row.hart).task → ∃ t, exec (.rowError c 0 false) s = .next t ∧
      (∀ g ∈ (t.core c).arr.flight, g.row.same f.row = false ∧ ∃ k ∈ rest, g.row = k.row ∧ g.at_ = k.at_) ∧
      (t.hart f.row.hart).tline 1 = ((s.hart f.row.hart).tline 1).complete f.row.num)

/-- A row from its capture to its result. -/
def Obligations.RowSteps : Prop :=
  Claims.RowCapture ∧ Claims.RowResults

/-- R209, R212, R213: the steps of the millpond and the array. A WAITING group past its deadline becomes READY; one READY for
4,096 cycles counts as aged; the array reads a tile, takes a group up, and its rows enter in order; a correctable latch error
makes every entered row whose result is not written yet enter again. That the group of highest priority is taken up or loaded next
even while another tile is loading is the model's choice (log 65). -/
def Obligations.ArraySteps : Prop :=
  ∀ (s : State) (c i : Nat) (g : PondGroup),
    let x := s.core c
    let only := fun t : State => t.harts = s.harts ∧ t.mem = s.mem ∧ t.dies = s.dies ∧ ∀ k, k ≠ c → t.core k = s.core k
    (x.group i = some g → g.state = .waiting → g.deadline ≤ x.cycle → ∃ t, exec (.leash c i) s = .next t ∧ only t ∧
      (t.core c).group i = some { g with state := .ready, readyAt := x.cycle }) ∧
    (x.group i = some g → g.state = .ready → g.aged = false → g.readyAt + 4096 ≤ x.cycle →
      ∃ t, exec (.groupAge c i) s = .next t ∧ only t ∧ (t.core c).group i = some { g with aged := true }) ∧
    (x.next = some (i, g) → latchServes x.arr.active g = false → latchServes x.arr.shadow g = false →
      ∃ t l, exec (.tileLoad c) s = .next t ∧ only t ∧ (t.core c).arr.shadow = some l ∧ l.addr = g.addr ∧ l.fmt = g.fmt ∧
        l.stale = false ∧ (t.core c).arr.loadDone = x.cycle + 32) ∧
    (x.next = some (i, g) → x.arr.streaming = none →
      (latchServes x.arr.active g = true ∨ (latchServes x.arr.shadow g = true ∧ x.arr.loadDone ≤ x.cycle)) →
      ∃ t, exec (.arrayTakeUp c) s = .next t ∧ only t ∧ (t.core c).arr.streaming = some i ∧
        (t.core c).group i = some { g with state := .streaming }) ∧
    (∀ l r rest, x.arr.streaming = some i → x.arr.active = some l → x.group i = some g → g.rows = r :: rest →
      x.arr.nextEntry ≤ x.cycle → (∀ f ∈ x.arr.flight, f.row.same r = false) →
      ∃ t, exec (.rowEnter c) s = .next t ∧ only t ∧
        (t.core c).arr.flight = x.arr.flight ++
          [{ row := r, latch := l, base := x.rowBase r, result := rowResult x.arr.flight l (x.rowBase r) r, at_ := x.cycle + 288 }] ∧
        (rest = [] → (t.core c).group i = none ∧ (t.core c).arr.streaming = none) ∧
        (rest ≠ [] → (t.core c).group i = some { g with rows := rest, entered := g.entered ++ [r] })) ∧
    (x.arr.streaming = some i → x.group i = some g → ∃ t, exec (.tileLatchError c) s = .next t ∧ only t ∧
      (t.core c).group i = some { g with
        rows := g.entered.filter (fun r => x.arr.flight.any fun f => f.row.same r) ++ g.rows, entered := [] } ∧
      (t.core c).arr.nextEntry = x.cycle + 32)

/-- R143, R144, R311, R384: CPY and CPY2D with good codes, alignment, extents and flag address take a tl0 number and queue a
command on their channel; inside a pack region, with bad codes, with C (and B of CPY2D) = s63 or above 2^40 bytes they are
illegal; the first operand that is not aligned, in the order D, B, C, s(B + 1), raises cause 3. -/
def Sys2Proof.Claims.CopyIssue : Prop :=
  ∀ (s u : State) (src dst : BitVec 3) (ch : BitVec 2) (d a b c : Reg),
    let x := s.me
    let both := fun (P : Instr → CopyShape → Prop) =>
      P (.cpy src dst ch d a b c) (shape1 (x.rd b)) ∧
      (b ≠ 63 → P (.cpy2d src dst ch d a b c) (shape2 (x.rd b) (x.rdNext b)))
    let flag := x.rd c
    let bad := fun z : CopyShape =>
      x.inRegion = true ∨ copyCodesOk src.toNat dst.toNat = false ∨ c = 63 ∨ 2 ^ 40 < z.rowBytes * z.rows
    (x.queueIdle = true → exec (.cpy2d src dst ch d a 63 c) s = .next (s.trapped 1 x.iword)) ∧
    both (fun i z => x.queueIdle = true → bad z → exec i s = .next (s.trapped 1 x.iword)) ∧
    both (fun i z => x.queueIdle = true → ¬ bad z → dst = 4 →
      ((x.rd d).toNat % 64 ≠ 0 → exec i s = .next (s.trapped 3 (x.rd d))) ∧
      ((x.rd d).toNat % 64 = 0 → z.rowBytes % 64 ≠ 0 → exec i s = .next (s.trapped 3 (BitVec.ofNat 64 z.rowBytes))) ∧
      ((x.rd d).toNat % 64 = 0 → z.rowBytes % 64 = 0 → flag.toNat % 8 = 0 → z.dpitch.toNat % 64 ≠ 0 →
        exec i s = .next (s.trapped 3 z.dpitch))) ∧
    both (fun i z => x.queueIdle = true → ¬ bad z → (dst = 4 → (x.rd d).toNat % 64 = 0 ∧ z.rowBytes % 64 = 0) →
      flag.toNat % 8 ≠ 0 → exec i s = .next (s.trapped 3 flag)) ∧
    both (fun i z => ¬ bad z → misalignedCopy dst.toNat (x.rd d) z flag = none →
      s.badRow s.cur dst.toNat (x.rd d) z.dpitch z.rowBytes 0 z.rows = none →
      s.badRow s.cur src.toNat (x.rd a) z.spitch z.rowBytes 0 z.rows = none → s.flagOk s.cur flag = (u, none) →
      u.storesDone s.cur = true → u.released s.cur .pkg = true → (∀ m ∈ u.ras, m.hart ≠ s.cur) →
      ((u.core (coreOf s.cur)).chan ch.toNat).length < 16 →
      ∃ t k, exec i s = .next t ∧ t.mem = u.mem ∧
        (t.hart s.cur).tline 0 = ((u.me.tline 0).take) ∧ (t.hart s.cur).s = u.me.s ∧ (t.hart s.cur).pc = u.me.pc + 8 ∧
        (t.core (coreOf s.cur)).chan ch.toNat = (u.core (coreOf s.cur)).chan ch.toNat ++ [k] ∧
        k.num = (u.me.tline 0).issued + 1 ∧ k.src = src.toNat ∧ k.dst = dst.toNat ∧ k.daddr = x.rd d ∧ k.saddr = x.rd a ∧
        k.rowBytes = z.rowBytes ∧ k.rows = z.rows ∧ k.spitch = z.spitch ∧ k.dpitch = z.dpitch ∧ k.flag = flag ∧
        k.satp = u.me.satp ∧ k.moved = false)

/-- R144, R145: COPY_TRANSFER of one row within the own A-space moves every byte as it was before the copy and nothing else
(where the rows overlap this is the model's choice, log 40: R147 leaves a mix open);
COPY_FLAG_WRITE of a moved command without a flag takes it off the channel and completes its tl0 number. -/
def Sys2Proof.Claims.CopySteps : Prop :=
  ∀ (s : State) (c ch : Nat) (k : CopyCmd) (rest : List CopyCmd), (s.core c).chan ch = k :: rest → coreOf k.hart = c →
    k.retry ≤ s.gtime →
    (k.moved = false → k.src = 2 → k.dst = 2 → k.rows = 1 → k.saddr.toNat + k.rowBytes ≤ 4 * 2 ^ 20 →
      k.daddr.toNat + k.rowBytes ≤ 4 * 2 ^ 20 → (s.core c).a.wf = true →
      ∃ t, exec (.copyTransfer c ch) s = .next t ∧ (t.core c).chan ch = { k with moved := true } :: rest ∧ t.mem = s.mem ∧
        (∀ j, j < k.rowBytes → (t.core c).a.read (k.daddr.toNat + j) = (s.core c).a.read (k.saddr.toNat + j)) ∧
        (∀ p, p < k.daddr.toNat ∨ k.daddr.toNat + k.rowBytes ≤ p → (t.core c).a.read p = (s.core c).a.read p)) ∧
    (k.moved = true → k.flag = 0 → k.faulted = none →
      ∃ t, exec (.copyFlagWrite c ch) s = .next t ∧ (t.core c).chan ch = rest ∧ t.mem = s.mem ∧
        (t.hart k.hart).tline 0 = ((s.hart k.hart).tline 0).complete k.num)

/-- CPY and CPY2D from issue to completion. Overlapping rows are the model's choice (log 40). -/
def Obligations.CopyCommands : Prop :=
  Claims.CopyIssue ∧ Claims.CopySteps

/-- R376, R377, R378: XRED raises cause 5 where its die has no group of the partition, is illegal inside a pack region, and
otherwise takes a tl3 number, reserves its tag and joins the queue. COLLECTIVE_COMPLETE with a contribution of each rank, those of
this package's dies being what they captured, and XRED_TIMEOUT fill the tag and complete the number; a member of this package
whose operation, type or length differs makes it an error. STVAL 0 for cause 5 is the model's choice (log 44). -/
def Obligations.Collectives : Prop :=
  (∀ (s : State) (op : XOp) (t : XTy) (d : Reg) (tag : BitVec 4),
    let x := s.me
    let g := (s.die (dieOf s.cur)).xgctl
    let bytes := x.vl * (match t with | .i32 => 4 | .i64 => 8 | .bf16 => 2 | .f32 => 4)
    let mine := wbit g 0 = true ∧ field g 8 4 = s.partOf s.cur
    (x.queueIdle = true → ¬ mine → exec (.xred op t d tag) s = .next (s.trapped 5 0)) ∧
    (x.queueIdle = true → mine → x.inRegion = true → exec (.xred op t d tag) s = .next (s.trapped 1 x.iword)) ∧
    (mine → x.inRegion = false → x.vq.length < 8 → d.toNat < x.nvreg →
      x.stream d = none → bytes ≤ x.vbytes → getAt none x.landing tag.toNat = none → x.landingUse + bytes ≤ 262144 →
      ∃ y e l, exec (.xred op t d tag) s = .next (s.done y 8) ∧ (y.tline 3).issued = (x.tline 3).issued + 1 ∧
        y.vq = x.vq ++ [e] ∧ e.instr = .xred op t d tag ∧ e.num = (x.tline 3).issued + 1 ∧
        getAt none y.landing tag.toNat = some l ∧ l.num = e.num ∧ l.reg = d ∧ l.bytes = bytes ∧ y.s = x.s)) ∧
  ∀ (s : State) (d k : Nat) (c : Collective) (l : LandTag), d < 4 → (s.die d).coll k = some c →
    getAt none (s.hart c.hart).landing c.tag = some l → l.num = c.num →
    (∀ contrib : List (List Byte), contrib.length = field (s.die d).xgctl 16 10 →
      (∀ e ∈ s.inGroup d, k < (s.die e).xgseq) →
      (∀ e ∈ s.inGroup d, e ≠ d → ∀ b, (s.die e).coll k = some b → b.hart ≠ c.hart) →
      let parts := s.contributions d k contrib
      let theirs := fun P : Collective → Prop => ∀ e ∈ s.inGroup d, ∀ b, (s.die e).coll k = some b → P b
      ∃ t m, exec (.collectiveComplete d k contrib) s = .next t ∧
        getAt none (t.hart c.hart).landing c.tag = some m ∧ m.came = true ∧ m.num = c.num ∧
        (t.hart c.hart).tline 3 = ((s.hart c.hart).tline 3).complete c.num ∧
        ((∀ p ∈ parts, p.length = c.data.length) → theirs (fun b => b.op = c.op ∧ b.ty = c.ty ∧ b.vl = c.vl) →
          m.err = false ∧ m.data = collectiveResult c parts) ∧
        ((∃ p ∈ parts, p.length ≠ c.data.length) ∨ ¬ theirs (fun b => b.op = c.op ∧ b.ty = c.ty ∧ b.vl = c.vl) →
          m.err = true)) ∧
    (c.start + xgLimit (s.die d).xgtimeout ≤ s.gtime → ∃ t m, exec (.xredTimeout d k) s = .next t ∧
      getAt none (t.hart c.hart).landing c.tag = some m ∧ m.came = true ∧ m.err = true ∧
      (t.hart c.hart).tline 3 = ((s.hart c.hart).tline 3).complete c.num)

/-! ## Packs and loops -/

/-- R237, R239 to R244, R335: the pack instructions. Each status in s[D] under its condition, the object that PKALLOC makes,
the checkpoint that PKENTER takes after it has written 0 to s[D], the count that PKCOMMIT sends and its end after the commit
instant, the word of PKSTAT, the faults of R335. A call that a home answers first leaves its hart switched out (R336). -/
def Obligations.PackCalls : Prop :=
  ∀ (s : State) (d a b : Reg) (life code : BitVec 24),
    let x := s.me
    let va := x.rd a
    let n := (x.rd b).toNat
    let illegal := Host.Outcome.next (φ := Fault) (ρ := Refusal) (s.trapped 1 x.iword)
    let mine := fun p : Pack => s.packs.find? (fun q => q.handle == va && q.part == s.partOf s.cur) = some p
    let none_ := ∀ p, ¬ mine p
    let asks := fun i : Instr => ∃ t w, exec i s = .next t ∧ (t.hart s.cur).pc = x.pc ∧ (t.hart s.cur).wait = some w ∧
      w.kind = .load ∧ w.expired = false
    (x.queueIdle = true →
      (x.pack.isSome = true → exec (.pkenter d a b) s = illegal) ∧
      (x.inRegion = true → exec (.pkalloc d a b life) s = illegal ∧ exec (.pkfree d a) s = illegal) ∧
      (x.inRegion = false → exec (.pkcommit d) s = illegal ∧ exec (.pkabort code) s = illegal) ∧
      (x.inRegion = false → va.toNat % 64 ≠ 0 → exec (.pkalloc d a b life) s = .next (s.trapped 3 va)) ∧
      (x.pack = none → n % 8 ≠ 0 → exec (.pkenter d a b) s = .next (s.trapped 3 (x.rd b)))) ∧
    (∀ u pa m, x.inRegion = false → va.toNat % 64 = 0 → s.translate (s.ctx s.cur) .store va = (u, .ok pa m) →
      (x.arrived = false → u.requestFree s.cur = true → asks (.pkalloc d a b life)) ∧ (x.arrived = true →
      let bad := n = 0 ∨ 1024 < n ∨ 509 * 2 ^ 30 ≤ pa ∨
        (u.packs.any fun q => q.handle == va && q.part == u.partOf s.cur) = true ∨ u.inPackObject pa 64 = true
      (bad → exec (.pkalloc d a b life) s = .next (u.done (u.me.wr d 2) 8)) ∧
      (¬ bad → 64 ≤ u.packs.length → exec (.pkalloc d a b life) s = .next (u.done (u.me.wr d 1) 8)) ∧
      (¬ bad → u.packs.length < 64 → u.storesTo s.cur pa 64 = false → u.writeHeld pa 64 = false →
        ∃ t p, exec (.pkalloc d a b life) s = .next t ∧ t.harts = (u.done (u.me.wr d va) 8).harts ∧
          t.packs = u.packs ++ [p] ∧ p.handle = va ∧ p.pa = pa ∧ p.expected = n ∧ p.entered = 0 ∧ p.committed = 0 ∧
          p.state = .opened ∧ p.code = 0 ∧ p.epoch = 0 ∧ p.start = 0 ∧ p.part = u.partOf s.cur ∧
          p.lifetime = (if life = 0 then 1000 else life.toNat) ∧
          ((u.recallRange pa 64).mem.wf = true → t.mem.readN pa 64 = p.bytes)))) ∧
    (x.pack = none → n % 8 = 0 → s.quiet s.cur = true → x.arrived = false → s.requestFree s.cur = true →
      asks (.pkenter d a b)) ∧
    (x.pack = none → n % 8 = 0 → s.quiet s.cur = true → x.arrived = true →
      let status := fun v : Word => ∃ t, exec (.pkenter d a b) s = .next t ∧ t.harts = (s.done (x.dropStrips.wr d v) 8).harts ∧
        t.packs = s.packs ∧ t.mem = s.mem
      (none_ → status 3) ∧ (∀ p, mine p → p.state ≠ .opened → status 2) ∧
      (∀ p, mine p → p.state = .opened → p.entered = p.expected → status 1) ∧
      (∀ p, mine p → p.state = .opened → p.entered ≠ p.expected →
        ∃ t, exec (.pkenter d a b) s = .next t ∧
          t.harts = (s.done { (x.wr d 0).dropStrips with
            pack := some { handle := va, obj := p.pa, epoch := p.epoch, handler := x.rd b, ckpt := (x.wr d 0).s, count := 0
                           restore := false, trapped := false, nested := 0, sup := x.priv == .sup } } 8).harts ∧
          (t.pack? p.pa).map (fun q => (q.entered, q.members, q.start)) =
            some (p.entered + 1, p.members ++ [s.cur], if p.entered = 0 then s.gtime else p.start))) ∧
    (∀ m : Member, x.pack = some m → m.trapped = false →
      (m.count = 0 → s.commitReady s.cur = true → ∃ t, exec (.pkcommit d) s = .next t ∧ (t.hart s.cur).pc = x.pc ∧
        (t.hart s.cur).wait.isSome = true ∧ (t.hart s.cur).pack = some { m with count := 1 }) ∧
      (m.count = 0 → s.commitReady s.cur = false → exec (.pkcommit d) s = .next (s.markWait s.cur)) ∧
      (m.count = 3 → ∃ t, exec (.pkcommit d) s = .next t ∧ t.harts = (s.done { x.dropStrips.wr d 0 with pack := none } 8).harts)) ∧
    (∀ h, x.member = some h → ∃ t, exec (.pkabort code) s = .next t ∧ (t.hart s.cur).pc = x.pc + 8 ∧
      (∀ p, s.pack? h = some p → p.state = .opened → p.members ≠ [] → (∀ c ∈ s.packCauses p, s.gtime ≤ c.1) →
        (t.pack? h).map (fun q => (q.state, q.code)) = some (.aborting, BitVec.ofNat 32 (1 + 256 * code.toNat)))) ∧
    (let writes := fun (c : Bool) (v : Word) => exec (.pkstat c d a) s = .next (s.done (x.wr d v) 8)
     (x.arrived = false → s.requestFree s.cur = true → asks (.pkstat false d a) ∧ asks (.pkstat true d a)) ∧
     (x.arrived = true → none_ → writes false 0 ∧ writes true 0) ∧
     (∀ p, x.arrived = true → mine p →
      writes false (BitVec.ofNat 64 ((match p.state with | .opened => 1 | .committing => 2 | .aborting => 3) +
        16 * (p.die % 4) + 2 ^ 16 * p.entered + 2 ^ 32 * p.committed + 2 ^ 48 * p.expected)) ∧
      writes true (BitVec.ofNat 64 (p.code.toNat + 2 ^ 32 * p.epoch.toNat)))) ∧
    (x.inRegion = false → x.stage ≠ 1 → x.arrived = false → s.requestFree s.cur = true → asks (.pkfree d a)) ∧
    (let waits := ∃ t w, exec (.pkfree d a) s = .next t ∧ (t.hart s.cur).pc = x.pc ∧ (t.hart s.cur).wait = some w ∧ w.stage = 1
     (x.inRegion = false → x.stage ≠ 1 → x.arrived = true →
       (none_ → exec (.pkfree d a) s = .next (s.done (x.wr d 3) 8)) ∧
       (∀ p, mine p → p.state = .opened → p.entered = 0 →
         ∃ t, exec (.pkfree d a) s = .next t ∧ t.harts = (s.done (x.wr d 0) 8).harts ∧
           t.packs = s.packs.filter fun q => q.pa != p.pa) ∧
       (∀ p, mine p → (p.state ≠ .opened ∨ p.entered ≠ 0) → waits)) ∧
     (x.inRegion = false → x.stage = 1 →
       (none_ → exec (.pkfree d a) s = .next (s.done (x.wr d 0) 8)) ∧
       (∀ p, mine p → (s.cur ∈ p.freeWait → waits) ∧
         (s.cur ∉ p.freeWait → exec (.pkfree d a) s = .next (s.done (x.wr d 0) 8)))))

/-- R181, R247 to R252: the steps of a pack at its home. The count that completes EXPECTED commits every tentative byte; the
flip lets the members return; causes 6 and 7 abort; a member takes its checkpoint back and goes to its handler; a store of an
aborted member is dropped; a write held for 2,000 ns aborts what holds it. Of causes that are due together the first counts, of those
of one cycle the lowest code (R250). -/
def Obligations.PackSteps : Prop :=
  (∀ (s : State) (h : Nat) (m : Member) (p : Pack), (s.hart h).pack = some m → m.count = 1 → m.restore = false →
    s.pack? m.obj = some p → p.state = .opened →
    (s.gtime ≤ p.start + 1000 * p.lifetime →
      (∀ pa b, p.tentAt pa = some b → s.pageHeld pa = false ∧ s.flipping pa = false ∧ s.hostLine pa 1 = none) →
      ∃ t, exec (.packCountArrival h) s = .next t ∧
      (t.hart h).pack = some { m with count := 2 } ∧
      (t.pack? m.obj).map (fun q => (q.committed, q.state)) =
        some (p.committed + 1, if p.committed + 1 = p.expected then .committing else .opened) ∧
      (p.committed + 1 = p.expected → s.mem.wf = true → (∀ w, s.ownerOf w = none) →
        ∀ pa b, p.tentAt pa = some b → t.mem.read pa = b)) ∧
    (0 < p.entered → p.start + 1000 * p.lifetime < s.gtime → p.members ≠ [] → (∀ c ∈ s.packCauses p, c.2 = 6) →
      ∃ t, exec (.packCountArrival h) s = .next t ∧
        (t.pack? m.obj).map (fun q => (q.state, q.code)) = some (.aborting, 6))) ∧
  (∀ (s : State) (n : Nat) (p : Pack), s.pack? n = some p →
    let first := fun (p : Pack) (t0 k : Nat) => (t0, k) ∈ s.packCauses p ∧
      ∀ c ∈ s.packCauses p, t0 < c.1 ∨ (t0 = c.1 ∧ k ≤ c.2)
    (p.state = .committing → (∃ h ∈ p.members, ∃ m, (s.hart h).pack = some m ∧ m.count ≠ 3) →
      ∃ t, exec (.packFlip n) s = .next t ∧ (s.heldPuts = [] → t.mem = s.mem) ∧
        (∀ h ∈ p.members, ∀ m, (t.hart h).pack = some m → m.count = 3) ∧
        (t.pack? n).map (fun q => (q.tent, q.reads)) = some ([], [])) ∧
    (p.state = .opened → 0 < p.entered → p.start + 1000 * p.lifetime < s.gtime → p.members ≠ [] →
      ∃ t, exec (.packAbort n 6) s = .next t ∧ exec (.packLifetimeExpiry n) s = .next t ∧
        (∀ t0 k, first p t0 k → (t.pack? n).map (fun q => (q.state, q.code)) = some (.aborting, BitVec.ofNat 32 k)) ∧
        ∀ h ∈ p.members, ∀ m, (t.hart h).pack = some m → m.restore = true) ∧
    (p.state = .opened → (s.die (p.die % 4)).lost = true → p.die < 4 → p.members ≠ [] →
      ∃ t, exec (.packAbort n 7) s = .next t ∧
        ∀ t0 k, first p t0 k → (t.pack? n).map (fun q => (q.state, q.code)) = some (.aborting, BitVec.ofNat 32 k))) ∧
  (∀ (s : State) (h : Nat) (m : Member), (s.hart h).pack = some m → m.restore = true → m.trapped = false →
    (s.hart h).awaitsValue = false → (s.hart h).runsPair = false → (s.hart h).groupBoundary = true →
    ∃ t, exec (.memberRestore h) s = .next t ∧ (t.hart h).pc = m.handler ∧ (t.hart h).s = m.ckpt ∧
      (t.hart h).pack = none ∧ (t.hart h).wait = none ∧ (t.hart h).vl = (s.hart h).vl ∧
      (t.hart h).fflags = (match (s.hart h).vq with
        | e :: _ => e.save.fflags
        | [] => (s.hart h).fflags) ∧
      ((∀ ru, (s.hart h).run = some ru → ∀ v, ru.e.instr ≠ .vld v) → (t.hart h).v = (s.hart h).v) ∧
      (∀ ru v, (s.hart h).run = some ru → ru.e.instr = .vld v →
        (t.hart h).v = (ru.writeLoaded v (ru.loadStop (s.hart h)) (s.hart h)).v) ∧ (t.hart h).tents = []) ∧
  (∀ (s : State) (h : Nat) (m : Member) (e : TentStore) (rest : List TentStore), (s.hart h).tents = e :: rest →
    (s.hart h).pack = some m → m.restore = true →
    ∃ t, exec (.tentativeStoreArrival h) s = .next t ∧ (t.hart h).tents = rest ∧ t.mem = s.mem ∧ t.packs = s.packs) ∧
  (∀ (s : State) (h : Nat) (m : Member) (p : Pack) (e : TentStore) (rest : List TentStore), (s.hart h).tents = e :: rest →
    (s.hart h).pack = some m → m.restore = false → (s.pageHeld e.pa || s.flipping e.pa || s.hostBias e.pa) = false →
    s.pack? m.obj = some p → p.state = .opened → s.packRivals p true e.pa e.data.length = [] → s.packs = [p] →
    (let q := (List.range e.data.length).foldl (fun (q : Pack) i => q.putTent (e.pa + i) (getAt 0 e.data i)) p
     q.lines.length ≤ 32768 → ({ s with packs := [q] } : State).directoryUse (s.homeDie e.pa) ≤ 65536 →
      ∃ t, exec (.tentativeStoreArrival h) s = .next t ∧ (t.hart h).tents = rest ∧ t.packs = [q])) ∧
  ∀ (s : State) (k t0 : Nat) (ws : List (Nat × Nat)), s.heldWrites[k]? = some (ws, some t0) → t0 + 2000 ≤ s.gtime →
    let held := fun p : Pack => p.state = .opened ∧ (ws.any fun w => p.holds w.1 w.2) = true
    (∃ p ∈ s.packs, held p) → ∃ t, exec (.nonmemberHoldExpiry k) s = .next t ∧
      ∀ p ∈ s.packs, held p → p.members ≠ [] → s.pack? p.pa = some p → (∀ c ∈ s.packCauses p, c.2 = 2) →
        (t.pack? p.pa).map (fun q => (q.state, q.code)) = some (.aborting, 2)

/-- R220: LOOPMARK whose closing LOOPBR names the same register and the same length opens a mark with the count, or ends in
CORE with reason 22, 23, 25 or 20; a count of 0 goes on behind the LOOPBR. AHEAD takes a tl2 number first and writes it to
s[D]. A bad length, A = s0 or another closing word is illegal; a fault of the closing word's fetch is raised with its address;
an AHEAD record address that is no multiple of 64 raises cause 3. For D = B or D = C the mark keeps the handler and the record
address of before s[D] is written: that is the model's choice (log 46). -/
def Sys2Proof.Claims.LoopMarks : Prop :=
  ∀ (s u : State) (a b c d : Reg) (len : BitVec 6),
    let x := s.me
    let n := len.toNat
    let va := x.pc + BitVec.ofNat 64 (8 * (n + 1))
    let both := fun o : Out => exec (.loopmarkWait a len) s = o ∧ exec (.loopmarkAhead d a b c len) s = o
    (x.queueIdle = true → n = 0 ∨ 32 < n ∨ a = 0 → both (.next (s.trapped 1 x.iword))) ∧
    (0 < n → n ≤ 32 → a ≠ 0 →
      (∀ k, s.fetchWord s.cur va = (u, .error k) → x.queueIdle = true → both (.next (u.trapped k va))) ∧
      (∀ w, s.fetchWord s.cur va = (u, .ok w) →
        (x.queueIdle = true → (∀ r disp, instrsOf w = [.loopbr r disp] → r ≠ a ∨ disp.toInt ≠ -(n : Int)) →
          both (.next (u.trapped 1 x.iword))) ∧
        (∀ disp, instrsOf w = [.loopbr a disp] → disp.toInt = -(n : Int) →
          (x.rd a = 0 → ∃ m, exec (.loopmarkWait a len) s = .next (u.jumped { u.me with mark := m } (va + 8)) ∧
            m.state = .core ∧ m.reason = 22) ∧
          (x.rd a ≠ 0 → ∃ m, exec (.loopmarkWait a len) s = .next (u.done { u.me with mark := m } 8) ∧
            m.mpc = x.pc ∧ m.len = n ∧ m.creg = a ∧ m.count = x.rd a ∧ m.ahead = false ∧
            (x.recording = true → m.state = .core ∧ m.reason = 23) ∧
            (x.recording = false → x.inRegion = true → m.state = .core ∧ m.reason = 25) ∧
            (x.recording = false → x.inRegion = false → 2 ≤ u.flumes (coreOf s.cur) → m.state = .core ∧ m.reason = 20) ∧
            (x.recording = false → x.inRegion = false → u.flumes (coreOf s.cur) < 2 →
              m.state = .recording ∧ m.opened = true)) ∧
          (x.queueIdle = true → (x.rd c).toNat % 64 ≠ 0 →
            exec (.loopmarkAhead d a b c len) s = .next (u.trapped 3 (x.rd c))) ∧
          (∀ v pa k, (x.rd c).toNat % 64 = 0 → u.translate (u.ctx s.cur) .store (x.rd c) = (v, .ok pa k) →
            ∃ t, exec (.loopmarkAhead d a b c len) s = .next t ∧ t.mem = v.mem ∧
              (let y := t.hart s.cur
               let taken := (x.tline 2).issued + 1
               y.tline 2 = (x.tline 2).take ∧ (d ≠ 0 → y.rd d = BitVec.ofNat 64 taken) ∧
               (∀ r, r ≠ d → y.rd r = x.rd r) ∧ y.mark.ahead = true ∧ y.mark.num = taken ∧ y.mark.lrec = x.rd c ∧
               y.mark.handler = x.rd b ∧ y.mark.count = y.rd a ∧
               y.pc = if y.rd a = 0 then va + 8 else x.pc + 8)))))

/-- R225 to R230: a slot performs its next iteration; after the last one, or where a condition of R228 holds, the slot is
free. In WAIT mode the hart resumes behind the LOOPBR, or at the first body word, with the carried scalars of the slot;
after the last iteration of AHEAD mode the tl2 number completes and the hart goes on as it is. -/
def Sys2Proof.Claims.LoopReplay : Prop :=
  ∀ (s : State) (d k : Nat) (t : Slot), (s.die d).slot k = some t →
    let h := t.hart
    let resumes := fun (u v : State) (pc : Word) (st : MarkState) (reason : Nat) =>
      (v.hart h).pc = pc ∧ (v.hart h).wait = none ∧ (∀ r ∈ t.carried, (v.hart h).rd r = t.now.rd r) ∧
      (v.hart h).fflags = (u.hart h).fflags ||| t.now.fflags ∧
      ((u.hart h).mark.state = .replay → (u.hart h).mark.num = t.mark.num → (u.hart h).mark.mpc = t.mark.mpc →
        (v.hart h).mark.state = st ∧ (v.hart h).mark.reason = reason ∧ (v.hart h).mark.k = t.k)
    (∀ u it, t.k < t.mark.count.toNat → s.iterate t = .ok u it → (∀ e ∈ it.stores, u.sendBlocked e = false) →
      ∃ v, exec (.millraceIteration d k) s = .next v ∧
        (it.stores = [] → (u.die d).slot k = some t →
          (v.die d).slot k = some { t with now := it.x, k := t.k + 1 } ∧ v.mem = u.mem)) ∧
    (t.mark.count.toNat ≤ t.k → ∃ v, exec (.replayComplete d k) s = .next v ∧ (v.die d).slot k = none ∧ v.mem = s.mem ∧
      (t.mark.ahead = false → resumes s v (t.mark.brPc + 8) .complete 0) ∧
      (t.mark.ahead = true → (v.hart h).tline 2 = ((s.hart h).tline 2).complete t.mark.num ∧
        (v.hart h).pc = (s.hart h).pc ∧ (v.hart h).s = (s.hart h).s)) ∧
    (∀ u r, t.k < t.mark.count.toNat → s.iterate t = .depart u r → ∃ v, exec (.departure d k) s = .next v ∧
      (v.die d).slot k = none ∧
      (t.mark.ahead = false → v.mem = u.mem ∧
        resumes s v (t.mark.mpc + 8) .departed r))

/-- LOOPMARK, and the replay of a loop it marks. For D = B or D = C the mark holds the addresses of before s[D] is
written: the model's choice (log 46). -/
def Obligations.MarkedLoops : Prop :=
  Claims.LoopMarks ∧ Claims.LoopReplay

/-! ## Traps, control registers and supervisor calls -/

/-- R259, R257: taking a trap of a hart outside a pack region. SEPC (its low three bits zero), SCAUSE, STVAL and SSTATUS
(SPP, SPIE, SIE = 0, END for causes 1, 2, 3, 6, 7, 11 and 13) are written, s56 to s63 are swapped at user privilege alone,
the hart is at supervisor privilege at STVEC; every other register of it and every other hart stay as they were. With vector
instructions queued, the scalar registers and the flags are those at the issue of the oldest, and younger instructions have no
effect (R383). Strips that streams have read ahead are dropped (R70). -/
def Obligations.TrapEntry : Prop :=
  ∀ (s : State) (h cause : Nat) (int : Bool) (sepc stval iw : Word), (s.hart h).pack = none → cause < 32 →
    let x := s.hart h
    let t := s.takeTrap h int cause sepc stval iw
    let y := t.hart h
    let regs := match x.vq with
      | e :: _ => e.save.s
      | [] => x.s
    let flags := match x.vq with
      | e :: _ => e.save.fflags
      | [] => x.fflags
    y.sepc = sepc &&& ~~~7#64 ∧ y.scause = BitVec.ofNat 64 ((if int then 2 ^ 63 else 0) + cause) ∧ y.stval = stval ∧
    y.priv = .sup ∧ y.pc = x.stvec ∧ y.wait = none ∧ y.vq = [] ∧ y.run = none ∧
    (∀ i, i < 64 → y.sstatus.getLsbD i =
      ((i == 9 && [1, 2, 3, 6, 7, 11, 13].contains cause) || (i == 8 && x.priv == .sup) || (i == 5 && wbit x.sstatus 1))) ∧
    (x.priv = .user → y.s = regs.take 56 ++ x.shadow ∧ y.shadow = regs.drop 56 ∧ y.swapped = !x.swapped) ∧
    (x.priv = .sup → y.s = regs ∧ y.shadow = x.shadow ∧ y.swapped = x.swapped) ∧
    y.task = x.task ∧ y.vl = x.vl ∧ y.v = x.v ∧ y.m = x.m ∧ y.fflags = flags ∧ y.satp = x.satp ∧ y.stvec = x.stvec ∧
    y.sstart = x.sstart ∧ y.vstart = x.vstart ∧ y.sbuf = x.sbuf ∧ y.streams = x.streams.map (fun v => { v with strips := [] }) ∧
    (∀ k, k ≠ h → t.hart k = s.hart k) ∧ t.gtime = s.gtime ∧
    ((s.core (coreOf h)).trace.enabled 5 = false → t.mem = s.mem ∧ t.dies = s.dies)

/-- R257, R262, R263, R316: ECALL traps with cause 9 and SEPC behind itself. ERET with END set is illegal; else it returns to
SEPC at the privilege of SPP with SIE := SPIE, the bank swapped back for user with the error marks of its registers and strips
read ahead dropped (R70), or leaves a hart without a task idle. ERET.kill
needs a task and a multiple of 64, writes the fault record of R263 and ends the task. -/
def Obligations.TrapReturn : Prop :=
  ∀ (s : State) (code : BitVec 24) (a : Reg),
    let x := s.me
    let va := x.rd a
    let illegal := Host.Outcome.next (φ := Fault) (ρ := Refusal) (s.trapped 1 x.iword)
    let back := fun y : Hart => { y with
      sstatus := setField x.sstatus 1 1 (field x.sstatus 5 1) }
    let user := fun y : Hart => if x.swapped then { y with
      s := x.s.take 56 ++ x.shadow, shadow := x.s.drop 56, swapped := false
      sbad := x.shbad ++ x.sbad.extractLsb' 0 56, shbad := x.sbad.extractLsb' 56 8 } else y
    (x.queueIdle = true → x.pack = none → ∃ t, exec (.ecall code) s = .next t ∧ (t.hart s.cur).sepc = (x.pc + 8) &&& ~~~7#64 ∧
      (t.hart s.cur).scause = 9 ∧ (t.hart s.cur).stval = code.setWidth 64 ∧ (t.hart s.cur).pc = x.stvec ∧
      (t.hart s.cur).priv = .sup) ∧
    (x.priv = .sup → wbit x.sstatus 9 = true → x.queueIdle = true → exec .eret s = illegal) ∧
    (x.priv = .sup → wbit x.sstatus 9 = false →
      (wbit x.sstatus 8 = true → x.pack = none →
        ∃ v, exec .eret s = .next (s.jumped { back x.dropStrips with priv := .sup, vstart := v } x.sepc)) ∧
      (wbit x.sstatus 8 = false → x.task ≠ none → x.stop ≠ .cancelled → x.chain = false → x.pack = none →
        ∃ v, exec .eret s = .next (s.jumped { user (back x.dropStrips) with priv := .user, vstart := v } x.sepc)) ∧
      (wbit x.sstatus 8 = false → x.task = none →
        ∃ t, exec .eret s = .next t ∧ (t.hart s.cur).priv = .user ∧ (t.hart s.cur).task = none ∧
          (t.hart s.cur).s = (user x).s ∧ (t.hart s.cur).shadow = (user x).shadow ∧ (t.hart s.cur).swapped = false ∧
          wbit (t.hart s.cur).sstatus 1 = wbit x.sstatus 5)) ∧
    (x.priv = .sup → x.queueIdle = true →
      (x.task = none → exec (.eretKill a) s = illegal) ∧
      (x.task ≠ none → va.toNat % 64 ≠ 0 → exec (.eretKill a) s = .next (s.trapped 3 va))) ∧
    (∀ u pa m k, x.priv = .sup → x.task = some k → va.toNat % 64 = 0 →
      s.translate (s.ctx s.cur) .store va = (u, .ok pa m) →
      u.inPackObject pa 64 = false → u.writeHeld pa 64 = false →
      let rec_ := u.faultRecord s.cur k
      ∃ t, exec (.eretKill a) s = .next t ∧
        t = (((u.homeWrite none pa rec_).endTask s.cur (.fault va)).retire s.cur x.sepc) ∧
        rec_.length = 64 ∧ le rec_ 0 8 = (u.hart s.cur).sepc.toNat ∧ le rec_ 8 8 = (u.hart s.cur).trapWord.toNat ∧
        le rec_ 16 8 = (u.hart s.cur).stval.toNat ∧ le rec_ 32 8 = k.handle.toNat ∧ le rec_ 40 8 = k.rc.launch.toNat)

/-- The numbers that R54 assigns no register to. -/
def Sys2Proof.Claims.unassignedCsr (k : Nat) : Prop :=
  (0x008 < k ∧ k < 0x010) ∨ (0x012 < k ∧ k < 0x020) ∨ (0x021 < k ∧ k < 0x030) ∨ (0x030 < k ∧ k < 0x040) ∨
  (0x045 < k ∧ k < 0x050) ∨ (0x051 < k ∧ k < 0x100) ∨ (0x107 < k ∧ k < 0x110) ∨ 0x127 < k

/-- The numbers of the registers that only the supervisor reads and writes (R54, R157). -/
def Sys2Proof.Claims.supervisorCsr (k : Nat) : Prop :=
  k = 0x005 ∨ k = 0x030 ∨ (0x100 ≤ k ∧ k ≤ 0x107) ∨ (0x110 ≤ k ∧ k ≤ 0x127)

/-- R54, R155: CSRR of each register, by its number; those of the supervisor at supervisor privilege. FFLAGS waits for the
vector queue, ATFLAGS for posted atomics before a FENCE; LCR_USEFUL gives the live count, the groups of this cycle included,
and takes the snapshot that the other five read; an unassigned number is
illegal, and at user privilege a register of the supervisor is cause 2. -/
def Sys2Proof.Claims.ControlReads : Prop :=
  ∀ (s : State) (d : Reg) (n : BitVec 12),
    let x := s.me
    let c := s.core (coreOf s.cur)
    let gives := fun (k : Nat) (v : Word) => n.toNat = k → exec (.csrr d n) s = .next (s.done (x.wr d v) 8)
    let sup := fun (k : Nat) (v : Word) => x.priv = .sup → gives k v
    let unit := fun (k : Nat) => getAt ({ ctl := 0, addr := 0, val := 0 } : BkUnit) c.bk k
    gives 0x000 (BitVec.ofNat 64 x.vl) ∧ gives 0x001 (BitVec.ofNat 64 x.mt) ∧ gives 0x002 (BitVec.ofNat 64 x.nvreg) ∧
    gives 0x003 (x.sb.setWidth 64) ∧ gives 0x004 x.seed ∧ sup 0x005 (BitVec.ofNat 64 x.vstart) ∧
    gives 0x006 (BitVec.ofNat 64 (65536 * x.c / (x.nvreg * (x.vew / 8)))) ∧
    gives 0x007 (BitVec.ofNat 64 (x.lease.toNat * 65536 + x.c)) ∧ gives 0x008 (BitVec.ofNat 64 x.vew) ∧
    (x.queueIdle = true → gives 0x010 (x.fflags.setWidth 64)) ∧
    (x.queueIdle = false → n.toNat = 0x010 → exec (.csrr d n) s = .next (s.markWait s.cur)) ∧
    gives 0x011 (x.frm.setWidth 64) ∧ (s.flagsDue s.cur = false → gives 0x012 (x.atflags.setWidth 64)) ∧
    (s.flagsDue s.cur = true → n.toNat = 0x012 → exec (.csrr d n) s = .next (s.markWait s.cur)) ∧
      gives 0x020 (BitVec.ofNat 64 x.mleash) ∧
    gives 0x021 (BitVec.ofNat 64 x.prio) ∧ sup 0x030 (if c.rr then 1 else 0) ∧
    (let u := (s.delayGroups (coreOf s.cur)).runGroups (coreOf s.cur)
     let l := u.liveLcr (coreOf s.cur)
     n.toNat = 0x040 → ∃ t, exec (.csrr d n) s = .next t ∧ (t.hart s.cur).lcr = l.drop 1 ∧
       (d ≠ 0 → (t.hart s.cur).rd d = getAt 0 l 0) ∧ (∀ k, k ≠ s.cur → t.hart k = u.hart k) ∧ t.mem = u.mem) ∧
    (∀ k, k < 5 → gives (0x041 + k) (getAt 0 x.lcr k)) ∧
    gives 0x050 (BitVec.ofNat 64 c.cycle) ∧ gives 0x051 (BitVec.ofNat 64 s.gtime) ∧
    sup 0x100 x.stvec ∧ sup 0x101 x.sepc ∧ sup 0x102 x.scause ∧ sup 0x103 x.stval ∧ sup 0x104 x.sstatus ∧ sup 0x105 x.satp ∧
    sup 0x106 x.sstart ∧ sup 0x107 (c.lanedis.setWidth 64) ∧
    (∀ k, k < 8 → sup (0x110 + k) (unit k).ctl ∧ sup (0x118 + k) (unit k).addr ∧ sup (0x120 + k) (unit k).val) ∧
    (x.queueIdle = true →
      (x.priv = .user → (n.toNat = 0x005 ∨ n.toNat = 0x030 ∨ (0x100 ≤ n.toNat ∧ n.toNat ≤ 0x107) ∨
          (0x110 ≤ n.toNat ∧ n.toNat ≤ 0x127)) → exec (.csrr d n) s = .next (s.trapped 2 x.iword)) ∧
      (Claims.unassignedCsr n.toNat → exec (.csrr d n) s = .next (s.trapped 1 x.iword)))

/-- R55, R56, R157, R314: CSRW of each register that software writes, with the bits that it keeps; MT, NVREG, SB and SEED as
SETMT, SETNV, SETSB and SETSEED; a read-only or unassigned register is illegal, a supervisor's register and a lane counter at
user privilege are cause 2, a BKCTL with reserved codes is illegal. That VSTART keeps all 64 bits and a write of ISSUEPOL keeps the
issue history but for the last hart is the model's choice (log 67). -/
def Sys2Proof.Claims.ControlWrites : Prop :=
  ∀ (s : State) (a : Reg) (n : BitVec 12),
    let x := s.me
    let v := x.rd a
    let k := n.toNat
    let c := coreOf s.cur
    let trap := fun cause : Nat => Host.Outcome.next (φ := Fault) (ρ := Refusal) (s.trapped cause x.iword)
    let hart := fun (num : Nat) (y : Hart) => k = num → exec (.csrw n a) s = .next (s.done y 8)
    let core := fun (num : Nat) (P : Core → Prop) => k = num → ∃ t, exec (.csrw n a) s = .next t ∧
      t.harts = (s.done x 8).harts ∧ t.mem = s.mem ∧ t.dies = s.dies ∧ P (t.core c) ∧ ∀ j, j ≠ c → t.core j = s.core j
    let sup := x.priv = .sup
    let width := v.toNat = 8 ∨ v.toNat = 16 ∨ v.toNat = 32 ∨ v.toNat = 64
    (x.queueIdle = true → v.toNat ≤ 4 → hart 0x001 { x with mt := v.toNat }) ∧
    (width → x.bound = false → s.storesDone s.cur = true → hart 0x002 { x.zeroVectors with nvreg := v.toNat, vl := 0 }) ∧
    (x.queueIdle = true → hart 0x003 { x with sb := v.setWidth 32 } ∧ hart 0x004 { x with seed := v } ∧
      hart 0x010 { x with fflags := v.setWidth 7 } ∧ hart 0x011 { x with frm := v.setWidth 3 }) ∧
    (∀ imm : BitVec 36, v = imm.setWidth 64 → (k = 0x001 → exec (.csrw n a) s = exec (.setmt imm) s) ∧
      (k = 0x002 → exec (.csrw n a) s = exec (.setnv imm) s)) ∧
    (k = 0x003 → exec (.csrw n a) s = exec (.setsb false a 0) s) ∧ (k = 0x004 → exec (.csrw n a) s = exec (.setseed a 0) s) ∧
    hart 0x012 { x with atflags := v.setWidth 7 } ∧ hart 0x020 { x with mleash := min v.toNat 1023 } ∧
    (sup →
      hart 0x005 { x with vstart := v.toNat } ∧ hart 0x100 { x with stvec := v &&& ~~~7#64 } ∧
      hart 0x101 { x with sepc := v &&& ~~~7#64 } ∧ hart 0x102 { x with scause := v &&& 0x800000000000001F#64 } ∧
      hart 0x103 { x with stval := v } ∧
      hart 0x104 { x with sstatus := (v &&& 0x122#64) ||| (x.sstatus &&& 0x200#64) } ∧ hart 0x106 { x with sstart := v } ∧
      core 0x030 (fun y => y.rr = v.getLsbD 0 ∧ ∃ r, y = { s.core c with rr := r, hist := { (s.core c).hist with last := 7 } }) ∧
      (∀ j, j < 6 → core (0x040 + j) (fun y => y = { s.core c with lcr := [0, 0, 0, 0, 0, 0], uncounted := true })) ∧
      (∀ j, j < 8 →
        (bkctlOk v = true → core (0x110 + j) (fun y => y = (s.core c).setUnit j { (s.core c).unit j with ctl := v })) ∧
        (bkctlOk v = false → x.queueIdle = true → k = 0x110 + j → exec (.csrw n a) s = trap 1) ∧
        core (0x118 + j) (fun y => y = (s.core c).setUnit j { (s.core c).unit j with addr := v &&& ~~~7#64 }) ∧
        core (0x120 + j) (fun y => y = (s.core c).setUnit j { (s.core c).unit j with val := v })) ∧
      (k = 0x105 → exec (.csrw n a) s = exec (.asidsw 0 a) s)) ∧
    (x.queueIdle = true →
      (x.priv = .user → k = 0x005 ∨ k = 0x030 ∨ (0x040 ≤ k ∧ k ≤ 0x045) ∨ (0x100 ≤ k ∧ k ≤ 0x107) ∨
        (0x110 ≤ k ∧ k ≤ 0x127) → exec (.csrw n a) s = trap 2) ∧
      (k = 0x000 ∨ k = 0x006 ∨ k = 0x007 ∨ k = 0x008 ∨ k = 0x021 ∨ k = 0x050 ∨ k = 0x051 ∨ (sup ∧ k = 0x107) ∨
        Claims.unassignedCsr k ∨ (k = 0x001 ∧ 4 < v.toNat) ∨ (k = 0x002 ∧ ¬ width) → exec (.csrw n a) s = trap 1))

/-- R54 to R56: CSRR and CSRW of every control and status register. The width of VSTART and the issue history under
a write of ISSUEPOL are the model's choice (log 67). -/
def Obligations.ControlRegisters : Prop :=
  Claims.ControlReads ∧ Claims.ControlWrites

/-- R45: every privileged instruction raises cause 2 with the first word as STVAL at user privilege, whatever its operands. At
fetch no other opcode has a privilege check but CSRR and CSRW, for the register that they name (R55). ECALL acts at every
privilege level; that the WHEN = 1 test of an ECALL is made in its handler is the model's choice (log 67). -/
def Obligations.PrivilegedInstructions : Prop :=
  (∀ (s : State) (i : Instr) (d a b c : Reg), s.me.priv = .user → s.me.queueIdle = true →
    i = .eret ∨ i = .eretKill a ∨ i = .tlbinvVa d a b c ∨ i = .tlbinvAsid d c ∨ i = .tlbinvAll d ∨ i = .tlbinvWait d b ∨
    i = .asidsw d a ∨ i = .ctxsave d a ∨ i = .ctxload d a ∨ i = .biassetHost d a b ∨ i = .biassetDev d a b ∨
    i = .poisonclr a b ∨ i = .pmigP4k d a b ∨ i = .pmigP2m d a b ∨ i = .pmigRel d a b →
    exec i s = .next (s.trapped 2 s.me.iword)) ∧
  (∀ (w : Word) (p : Priv), (∃ r, wordCheck p w = .error r) ∨ wordCheck p w = .ok (decodeWord w)) ∧
  (∀ (w : Word) (p : Priv), wordCheck p w = .error 2 ↔
    p = .user ∧ ((w.toNat / 2 ^ 62 = 0 ∧ 0xC3 ≤ w.toNat / 2 ^ 54 % 256 ∧ w.toNat / 2 ^ 54 % 256 ≤ 0xCA) ∨
      (∃ d n, decodeWord w = .one (.csrr d n) ∧ Claims.supervisorCsr n.toNat) ∨
      ∃ n a, decodeWord w = .one (.csrw n a) ∧ (Claims.supervisorCsr n.toNat ∨ (0x040 ≤ n.toNat ∧ n.toNat ≤ 0x045)))) ∧
  ∀ (s : State) (code : BitVec 24), s.me.queueIdle = true →
    exec (.ecall code) s = .next ((s.takeTrap s.cur false 9 (s.me.pc + 8) (code.setWidth 64) s.me.iword).modHart s.cur fun x =>
      { x with brkAfter := s.me.brkAfter })

/-- R196, R197, R349: at supervisor privilege the TLBINV forms take the next invalidation number of the die and write it to
s[D]; TLBINV.wait writes DONE once the number is reached or was never issued; TLBINV_COMPLETE drops the matching entries from
every TLB and moves DONE; ASIDSW writes the old SATP to s[D] and takes the new one. TLBINV_COMPLETE waits for no access that a
page move holds: that is the model's choice (log 49). -/
def Obligations.TranslationControl : Prop :=
  (∀ (s : State) (d a b c : Reg), s.me.priv = .sup →
    let x := s.me
    let die := s.die (dieOf s.cur)
    let n := die.invIssued + 1
    let asid := x.rd c
    let trap := fun (k : Nat) (v : Word) => Host.Outcome.next (φ := Fault) (ρ := Refusal) (s.trapped k v)
    let takes := fun (i : Instr) (P : Inval → Prop) => ∃ t v, exec i s = .next t ∧
      t.harts = (s.done (x.wr d (BitVec.ofNat 64 n)) 8).harts ∧ t.mem = s.mem ∧ t.cores = s.cores ∧
      t.die (dieOf s.cur) = { die with invIssued := n, invals := die.invals ++ [v] } ∧ v.num = n ∧ P v
    (asid.toNat < 65536 → (x.rd a).toNat % 4096 = 0 → (x.rd b).toNat % 4096 = 0 →
      takes (.tlbinvVa d a b c) fun v => v.base = (x.rd a).toNat ∧ v.len = (x.rd b).toNat ∧
        v.asid = some (asid.setWidth 16) ∧ v.all = false) ∧
    (asid.toNat < 65536 → takes (.tlbinvAsid d c) fun v => v.asid = some (asid.setWidth 16) ∧ v.all = false) ∧
    takes (.tlbinvAll d) (fun v => v.all = true) ∧
    (x.queueIdle = true →
      (65536 ≤ asid.toNat → exec (.tlbinvVa d a b c) s = trap 1 x.iword ∧ exec (.tlbinvAsid d c) s = trap 1 x.iword) ∧
      (asid.toNat < 65536 → (x.rd a).toNat % 4096 ≠ 0 → exec (.tlbinvVa d a b c) s = trap 3 (x.rd a)) ∧
      (asid.toNat < 65536 → (x.rd a).toNat % 4096 = 0 → (x.rd b).toNat % 4096 ≠ 0 →
        exec (.tlbinvVa d a b c) s = trap 3 (x.rd b))) ∧
    (let done := x.wr d (BitVec.ofNat 64 die.invDone)
     let m := (x.rd b).toNat
     (die.invIssued < m → exec (.tlbinvWait d b) s = .next (s.done done 8)) ∧
     (m ≤ die.invIssued → m ≤ die.invDone → ∃ t, exec (.tlbinvWait d b) s = .next t ∧
       t.harts = (s.done (x.dropStrips.wr d (BitVec.ofNat 64 die.invDone)) 8).harts ∧
       (t.core (coreOf s.cur)).l1 = (s.core (coreOf s.cur)).l1.filter (fun w => w.owned)) ∧
     (m ≤ die.invIssued → die.invDone < m → exec (.tlbinvWait d b) s = .next (s.markWait s.cur))) ∧
    (let v := x.rd a
     let mode := field v 60 4
     (x.queueIdle = true → x.streams ≠ [] → exec (.asidsw d a) s = trap 1 x.iword) ∧
     (x.streams = [] → s.quiet s.cur = false → (mode = 10 ∨ (mode = 0 ∧ 1024 ≤ s.cur)) →
        exec (.asidsw d a) s = .next (s.markWait s.cur)) ∧
     (x.streams = [] → s.quiet s.cur = true → (mode = 10 ∨ (mode = 0 ∧ 1024 ≤ s.cur)) →
        ∃ t, exec (.asidsw d a) s = .next t ∧ t.harts = (s.done { x.wr d x.satp with satp := v } 8).harts ∧ t.mem = s.mem ∧
          ∀ e ∈ (t.core (coreOf s.cur)).tlb, e.2.asid ≠ satpAsid x.satp) ∧
     (x.streams = [] → x.queueIdle = true → ¬ (mode = 10 ∨ (mode = 0 ∧ 1024 ≤ s.cur)) →
        exec (.asidsw d a) s = trap 1 x.iword))) ∧
  ∀ (s : State) (d : Nat) (v : Inval) (rest : List Inval), (s.die d).invals = v :: rest →
    (∀ p ∈ s.onTheWay, v.touches (s.dropped v) p.1 = true → s.pageHeld p.2 = true) →
    ∃ t, exec (.tlbinvComplete d) s = .next t ∧ (t.die d).invals = rest ∧ (t.die d).invDone = v.num ∧ t.harts = s.harts ∧
      t.mem = s.mem ∧ (∀ k, ∀ e ∈ (t.core k).tlb, v.hits e.2 = false) ∧ ∀ k, ∀ e ∈ (t.die k).l2tlb, v.hits e = false

/-- R151, R200, R278, R279, R337, R338: at supervisor privilege BIASSET moves a page between device and host bias and counts
it; POISONCLR writes zeros, page by page; PMIG with a clean last pass copies the frame, opens a hold and writes 0, PMIG.rel closes
one; with their faults on operands. That PMIG.rel checks its frame for 4 KiB is the model's choice (log 67). -/
def Obligations.PageOperations : Prop :=
  ∀ (s : State) (d a b : Reg), s.me.priv = .sup →
    let x := s.me
    let va := x.rd a
    let vb := x.rd b
    let trap := fun (k : Nat) (v : Word) => Host.Outcome.next (φ := Fault) (ρ := Refusal) (s.trapped k v)
    let bias := fun o : Out => exec (.biassetHost d a b) s = o ∧ exec (.biassetDev d a b) s = o
    let dev := 509 * 2 ^ 30
    (x.queueIdle = true →
      (va.toNat % 4096 ≠ 0 → bias (trap 3 va)) ∧
      (va.toNat % 4096 = 0 → vb.toNat % 4096 ≠ 0 → bias (trap 3 vb)) ∧
      (va.toNat % 4096 = 0 → vb.toNat % 4096 = 0 → vb ≠ 0 → dev < va.toNat + vb.toNat →
        bias (trap 5 (if dev ≤ va.toNat then va else BitVec.ofNat 64 dev))) ∧
      (2 ^ 40 < vb.toNat → exec (.poisonclr a b) s = trap 1 x.iword) ∧
      (vb.toNat ≤ 2 ^ 40 → va.toNat % 4 ≠ 0 → exec (.poisonclr a b) s = trap 3 va) ∧
      (vb.toNat ≤ 2 ^ 40 → va.toNat % 4 = 0 → vb.toNat % 4 ≠ 0 → exec (.poisonclr a b) s = trap 3 vb)) ∧
    (va.toNat % 4096 = 0 → vb = 0 → bias (.next (s.done (x.wr d 0) 8))) ∧
    (va.toNat % 4096 = 0 → vb = 4096 → va.toNat + 4096 ≤ dev → x.wait = none → s.packHolds va.toNat 4096 = false →
      let page := va.toNat / 4096
      let counts := fun (i : Instr) (n : Word) (P : State → Prop) => ∃ t, exec i s = .next t ∧
        t.harts = (s.done (x.wr d n) 8).harts ∧ P t
      (s.hostBias va.toNat = true → counts (.biassetHost d a b) 0 (fun t => t.bias = s.bias)) ∧
      (s.hostBias va.toNat = false → counts (.biassetDev d a b) 0 (fun t => t.bias = s.bias)) ∧
      (s.hostBias va.toNat = false → counts (.biassetHost d a b) 1 (fun t => t.bias = page :: s.bias)) ∧
      (s.hostBias va.toNat = true → s.pageHostLines va.toNat = [] →
        counts (.biassetDev d a b) 1 (fun t => t.bias = s.bias.filter fun p => p != page))) ∧
    (∀ u pa m, 0 < vb.toNat → va.toNat % 4096 + vb.toNat ≤ 4096 → va.toNat % 4 = 0 → vb.toNat % 4 = 0 → x.stage ≠ 1 →
      s.released s.cur .pkg = true → s.translate (s.ctx s.cur) .store va = (u, .ok pa m) →
      u.inPackObject pa vb.toNat = false → u.writeHeld pa vb.toNat = false →
      ∃ t, exec (.poisonclr a b) s = .next t ∧ t.harts = (u.done u.me 8).harts ∧
        (∀ w ∈ t.bad, ¬ (pa ≤ 4 * w ∧ 4 * w + 4 ≤ pa + vb.toNat)) ∧
        ((u.recallRange pa vb.toNat).mem.wf = true → ∀ p, pa ≤ p → p < pa + vb.toNat → t.mem.read p = 0)) ∧
    (∀ u pa m, 4096 < va.toNat % 4096 + vb.toNat → vb.toNat ≤ 2 ^ 40 → va.toNat % 4 = 0 → vb.toNat % 4 = 0 → x.stage ≠ 1 →
      s.released s.cur .pkg = true → s.translate (s.ctx s.cur) .store va = (u, .ok pa m) →
      let k := 4096 - va.toNat % 4096
      u.inPackObject pa k = false → u.writeHeld pa k = false →
      ∃ t w, exec (.poisonclr a b) s = .next t ∧ (t.hart s.cur).pc = x.pc ∧ (t.hart s.cur).wait = some w ∧ w.stage = 1 ∧
        w.arg = k ∧ (∀ q ∈ t.bad, ¬ (pa ≤ 4 * q ∧ 4 * q + 4 ≤ pa + k)) ∧
        ((u.recallRange pa k).mem.wf = true → ∀ p, pa ≤ p → p < pa + k → t.mem.read p = 0)) ∧
    (let move := fun (n : Nat) (i : Instr) =>
      (x.queueIdle = true →
        (va.toNat % n ≠ 0 → exec i s = trap 3 va) ∧
        (va.toNat % n = 0 → vb.toNat % n ≠ 0 → exec i s = trap 3 vb) ∧
        (va.toNat % n = 0 → vb.toNat % n = 0 → frameOk va.toNat n = false → exec i s = trap 5 va) ∧
        (va.toNat % n = 0 → vb.toNat % n = 0 → frameOk va.toNat n = true → frameOk vb.toNat n = false →
          exec i s = trap 5 vb)) ∧
      (va.toNat % n = 0 → vb.toNat % n = 0 → frameOk va.toNat n = true → frameOk vb.toNat n = true →
        (16 ≤ s.holds.length → ∃ t, exec i s = .next t ∧ t.harts = (s.done (x.wr d 3) 8).harts ∧ t.mem = s.mem) ∧
        (s.holds.length < 16 → x.stage = 0 → ∃ t w, exec i s = .next t ∧ (t.hart s.cur).pc = x.pc ∧
          (t.hart s.cur).wait = some w ∧ w.stage = 1 ∧
          ∃ f ∈ t.filters, f.hart = s.cur ∧ f.src = va.toNat ∧ f.bytes = n ∧ f.dirty = false) ∧
        (s.holds.length < 16 → x.stage ≠ 0 → s.writeHeld vb.toNat n = false →
          (∀ f ∈ s.filters, f.hart = s.cur → f.dirty = false) →
          ∃ t, exec i s = .next t ∧ t.harts = (s.done (x.wr d 0) 8).harts ∧
            t.holds = s.holds ++ [{ src := va.toNat, dst := vb.toNat, bytes := n }] ∧
            t.mem = (s.recallRange vb.toNat n).mem.writeN vb.toNat (s.homeBytes va.toNat n)))
     move 4096 (.pmigP4k d a b) ∧ move 2097152 (.pmigP2m d a b)) ∧
    (x.queueIdle = true →
      (va.toNat % 4096 ≠ 0 → exec (.pmigRel d a b) s = trap 3 va) ∧
      (va.toNat % 4096 = 0 → frameOk va.toNat 4096 = false → exec (.pmigRel d a b) s = trap 5 va)) ∧
    (va.toNat % 4096 = 0 → frameOk va.toNat 4096 = true →
      ((∀ k ∈ s.holds, k.src ≠ va.toNat) → exec (.pmigRel d a b) s = .next (s.done (x.wr d 2) 8)) ∧
      ((∃ k ∈ s.holds, k.src = va.toNat) → ∃ t, exec (.pmigRel d a b) s = .next t ∧
        t.holds = s.holds.filter (fun k => k.src != va.toNat) ∧ (d ≠ 0 → (t.hart s.cur).rd d = 0) ∧
        (t.hart s.cur).pc = x.pc + 8))

/-- R265, R266, R268: CTXSAVE and CTXLOAD at supervisor privilege. CTXSAVE in a trap from user privilege, with idle engines,
writes the area and leaves the hart without a task; CTXLOAD writes 1 for another format or core, 2 where the clusters are not
there, and restores an area without leased clusters and rows; with their faults on operands. The head of the area begins as
R266 lays it out: FORMAT, SEPC, SSTATUS as at the trap, and s1 to s63 of the task. That CTXLOAD returns 1 on a control core is the
model's choice (log 68), and so is that it keeps the clusters it holds until its own are granted (log 67). -/
def Obligations.ContextSwitch : Prop :=
  (∀ (s : State) (d a : Reg), s.me.priv = .sup →
    let x := s.me
    let va := x.rd a
    let trap := fun (k : Nat) (v : Word) => Host.Outcome.next (φ := Fault) (ρ := Refusal) (s.trapped k v)
    (x.queueIdle = true →
      (x.task = none ∨ x.swapped = false ∨ wbit x.sstatus 8 = true → exec (.ctxsave d a) s = trap 1 x.iword) ∧
      (x.task ≠ none → x.swapped = true → wbit x.sstatus 8 = false → va.toNat % 4096 ≠ 0 → exec (.ctxsave d a) s = trap 3 va) ∧
      (x.task ≠ none → x.swapped = true → wbit x.sstatus 8 = false → va.toNat % 4096 = 0 → x.stage = 0 →
        (∃ r, 0 < r ∧ r < 56 ∧ x.sbad.getLsbD r = true) →
        exec (.ctxsave d a) s = trap 6 0) ∧
      (x.stage ≠ 1 → x.stage ≠ 2 → x.task ≠ none → exec (.ctxload d a) s = trap 1 x.iword) ∧
      (x.stage ≠ 1 → x.stage ≠ 2 → x.task = none → va.toNat % 4096 ≠ 0 → exec (.ctxload d a) s = trap 3 va)) ∧
    (∀ k u v w z old l, x.task = some k → x.swapped = true → wbit x.sstatus 8 = false → va.toNat % 4096 = 0 → x.savesError = false →
      (s.beginSave s.cur).settleAheads s.cur [] = u → u.me.saveReady = true → u.quiet s.cur = true →
      u.modHart s.cur Hart.dropStrips = v → v.oldMap s.cur va = (w, .ok old) →
      w.placePieces (v.ctx s.cur) .store va
        (((w.passedCommit s.cur).areaImage s.cur k ((v.hart s.cur).ctxArea == some va) (BitVec.ofNat 64 (leNat old))).flatMap
          fun p => pagePieces p.1 p.2) = (z, .ok l) →
      (∀ p ∈ l, z.writeHeld p.pa p.bytes.length = false) →
      ∃ t, exec (.ctxsave d a) s = .next t ∧ (t.hart s.cur).task = none ∧ (d ≠ 0 → (t.hart s.cur).rd d = 0) ∧
        (t.hart s.cur).pc = x.pc + 8 ∧ (t.hart s.cur).streams = [] ∧ (t.hart s.cur).lease = 0) ∧
    (∀ u bs bad, x.wait = none → x.task = none → va.toNat % 4096 = 0 → s.released s.cur .pkg = true →
      s.areaRead (s.ctx s.cur) va 0 4096 false = (u, .ok (bs, bad)) →
      (le bs 0 8 ≠ 1 ∨ le bs 1648 8 ≠ coreOf s.cur ∨ 1024 ≤ s.cur → exec (.ctxload d a) s = .next (u.done (u.me.wr d 1) 8)) ∧
      (le bs 0 8 = 1 → le bs 1648 8 = coreOf s.cur → s.cur < 1024 →
        (u.clustersLeft (coreOf s.cur) < le bs 632 1 % 32 → exec (.ctxload d a) s = .next (u.done (u.me.wr d 2) 8)) ∧
        (∀ v parts, 0 < le bs 632 1 % 32 → le bs 632 1 % 32 ≤ u.clustersLeft (coreOf s.cur) →
          u.areaParts (u.ctx s.cur) va (AreaHead.ofBytes bs).parts = (v, .ok parts) →
          ∃ t w, exec (.ctxload d a) s = .next t ∧ (t.hart s.cur).pc = x.pc ∧ (t.hart s.cur).wait = some w ∧ w.stage = 1 ∧
            (t.hart s.cur).lease = x.lease ∧ ∃ r ∈ (t.core (coreOf s.cur)).leaseq,
              r.hart = s.cur ∧ r.mincl = le bs 632 1 % 32 ∧ r.prefcl = le bs 632 1 % 32) ∧
        (∀ v parts, le bs 632 1 % 32 = 0 → le bs 1632 8 = 0 →
          u.areaParts (u.ctx s.cur) va (AreaHead.ofBytes bs).parts = (v, .ok parts) →
          ∃ t, exec (.ctxload d a) s = .next t ∧
            (let y := t.hart s.cur
             (∃ k, y.task = some k ∧ k.rc = TaskRec.ofBytes ((bs.drop 1664).take 64) ∧ k.handle = leW bs 1656) ∧
             y.sepc = leW bs 8 &&& ~~~7#64 ∧ y.vstart = le bs 16 8 ∧ y.vl = le bs 536 8 ∧ y.nvreg = le bs 552 8 ∧
             (d ≠ 0 → y.rd d = 0) ∧ (∀ r : Reg, r ≠ 0 → r ≠ d → r.toNat < 56 → y.rd r = leW bs (32 + 8 * (r.toNat - 1))) ∧
             y.pc = x.pc + 8))))) ∧
  ∀ (s : State) (h : Nat) (t : Task) (map : BitVec 64), (s.hart h).pack = none → (s.hart h).swapped = true →
    (s.hart h).s.length = 64 → (s.hart h).shadow.length = 8 →
    let x := s.hart h
    let bs := s.areaHead h t map
    leW bs 0 = 1 ∧ leW bs 8 = x.sepc ∧ leW bs 24 = x.trapStatus ∧
    (∀ i, 0 < i → i < 56 → leW bs (32 + 8 * (i - 1)) = getAt 0 x.s i) ∧
    (∀ i, i < 8 → leW bs (32 + 8 * (55 + i)) = getAt 0 x.shadow i)

/-! ## Steps of the machine around the harts -/

/-- R46, R47, R99, R189, R193, R194, R256, R258, R259, R264: the events at fetch, at translation and at boundaries. A word
that is no instruction traps with cause 1 and a failed fetch with its own cause; the data of a load miss complete the load;
a walk fills the TLB of the core, an L2 entry leaves with its first-level copies; the timer traps with cause 15; the
watchdog and a pre-emption request make a cause pending. -/
def Obligations.BoundarySteps : Prop :=
  (∀ (s u : State) (h c : Nat) (v w : Word), s.meetsFetch h = true → (s.hart h).pack = none →
    s.fetchItem h = (u, .trap c v w) →
    let traps := fun (i : Instr) => ∃ t, exec i s = .next t ∧ (t.hart h).scause = BitVec.ofNat 64 c ∧ (t.hart h).stval = v ∧
      (t.hart h).sepc = (s.hart h).pc &&& ~~~7#64 ∧ (t.hart h).priv = .sup ∧ (t.hart h).pc = (s.hart h).stvec
    (c = 1 → traps (.illegalInstruction h)) ∧
    (c ≠ 1 → c ≠ 2 → v = (s.hart h).pc → traps (.instructionFetchFault h))) ∧
  (∀ (s u : State) (h n : Nat) (w : Wait) (wd : LdW) (sp : Space) (d a : Reg) (off : BitVec 24) (pa : Nat) (m : BitVec 2),
    (s.hart h).wait = some w → w.kind = .load → w.expired = false → (s.hart h).item = .instr (.ld wd sp d a off) n →
    let t0 : State := { s.modHart h fun x => { x with wait := some { w with expired := true } } with cur := h }
    let k := ldBytes wd
    let va := (s.hart h).rd a + off.signExtend 64
    sp = .g ∨ sp = .dflt → va.toNat % k = 0 → t0.locate h .g .load va k = (u, .at_ (.g pa m)) → inCtrl pa = false →
    u.me.member = none → (u.flipping pa || u.heldStore pa k || u.postedTo h pa k) = false →
    bypasses u pa m = false → m ≠ 1 → forward u.me.sbuf pa k = .none → (u.core (coreOf h)).l1has pa k = false →
    u.inFlight (coreOf h) pa k = false → u.l1Bad (coreOf h) pa k = false →
    ∃ t, exec (.loadDataArrival h) s = .next t ∧ t.cur = s.cur ∧ (t.hart h).wait = none ∧ (t.hart h).pc = (s.hart h).pc + 8 ∧
      (t.hart h).rd d = if d = 0 then 0 else ldExtend wd (leNat (u.l1Bytes (coreOf h) pa k))) ∧
  (∀ (s : State) (h : Nat) (va : Word) (acc : Acc), satpMode (s.hart h).satp ≠ 0 → canonical va = true →
    s.asksFor h va acc = true → ∃ t, exec (.pageWalk h va acc) s = .next t ∧ (t.hart h).pc = (s.hart h).pc ∧
      ∀ pa m, (s.walkFill (s.ctx h) acc va.toNat).2 = .ok pa m →
        ∃ e ∈ (t.core (coreOf h)).tlb, e.2.hits (satpAsid (s.hart h).satp) va.toNat = true ∧ e.2.pa va.toNat = pa) ∧
  (∀ (s : State) (d k : Nat) (e : TlbEntry), (s.die d).l2tlb[k]? = some e →
    ∃ t, exec (.l2TlbEviction d k) s = .next t ∧ (t.die d).l2tlb = (s.die d).l2tlb.eraseIdx k ∧ t.harts = s.harts ∧
      t.mem = s.mem ∧ ∀ c, c < 136 → dieOfCore c = d → ∀ f ∈ (t.core c).tlb, e.same f.2 = false) ∧
  (∀ (s : State) (h : Nat),
    let x := s.hart h
    x.asyncs = [] → x.sstart ≠ 0 → x.sstart.toNat ≤ s.gtime → (x.priv = .user ∨ wbit x.sstatus 1 = true) →
    s.interruptible h 15 = true → x.inReplay = false → s.syncBoundary h = none → x.pack = none →
    ∃ t, exec (.timer h) s = .next t ∧ (t.hart h).scause = 0x800000000000000F#64 ∧ (t.hart h).stval = 0 ∧
      (t.hart h).sepc = x.resumePc &&& ~~~7#64 ∧ (t.hart h).pc = x.stvec ∧ (t.hart h).priv = .sup ∧ (t.hart h).sstart = x.sstart) ∧
  (∀ (s : State) (h : Nat),
    let x := s.hart h
    let limit := field (s.die (dieOf h)).wdctl 0 32
    h < 1024 → x.task ≠ none → x.priv = .user → limit ≠ 0 → x.reported = false → s.fatal = none →
    x.progress + 1000 * limit ≤ s.gtime →
    ∃ t, exec (.watchdog h) s = .next t ∧ t.mem = s.mem ∧ (t.hart h).reported = true ∧
      (t.hart (controlHart (dieOf h))).asyncs = (s.hart (controlHart (dieOf h))).asyncs ++ [(16, BitVec.ofNat 64 h)]) ∧
  ∀ (s : State) (h : Nat), h < 1024 → ∃ t, exec (.preemptRequest h) s = .next t ∧ t.mem = s.mem ∧
    (∃ p ∈ (t.hart h).asyncs, p.1 = 10) ∧ ∀ k, k ≠ h → t.hart k = s.hart k

/-- R199, R217, R269, R271, R276, R288: a soft error marks the register's word and is logged; a retired lane sets LANEDIS and
raises cause 13 at control-core hart 0 of its die; a failing core is retired, and every word registered to it is poisoned; an
error in a control core is fatal; a fatal error stops the package: what the host does over its link goes on, and only BRING_UP ends
the stop. -/
def Obligations.ErrorSteps : Prop :=
  (∀ (s : State) (h reg word : Nat) (syn : Word), h < 1024 →
    let x := s.hart h
    let die := s.die (dieOf h)
    let logged := fun t : State => die.errHead - die.errTail ≠ 4096 → (t.die (dieOf h)).errHead = die.errHead + 1
    (0 < reg → reg < 64 → ∃ t, exec (.registerSoftError h reg word true syn) s = .next t ∧ logged t ∧ t.mem = s.mem ∧
      (t.hart h).sbad = x.sbad ||| (1#64 <<< reg) ∧ (t.hart h).s = x.s) ∧
    (reg < x.nvreg → 4 * word + 4 ≤ x.vbytes → ∃ t, exec (.registerSoftError h reg word false syn) s = .next t ∧ logged t ∧
      t.mem = s.mem ∧ (reg < 64 → vaddr (BitVec.ofNat 6 reg) (4 * word) / 4 ∈ (t.hart h).vbad))) ∧
  (∀ (s : State) (core lane elem : Nat) (syn : Word), core < 128 → lane < 256 → elem < 131072 →
    (s.core core).lanedis.getLsbD (lane / 16) = false →
    let ch := controlHart (dieOfCore core)
    ∃ t, exec (.laneRetired core lane elem syn) s = .next t ∧ t.mem = s.mem ∧
      (t.core core).lanedis = (s.core core).lanedis ||| (1#16 <<< (lane / 16)) ∧
      (t.hart ch).asyncs = (s.hart ch).asyncs ++ [(13, BitVec.ofNat 64 (core * 2 ^ 56 + lane * 2 ^ 48 + elem))] ∧
      ∀ k, k ≠ ch → t.hart k = s.hart k) ∧
  (∀ (s : State) (n : Nat) (syn : Word), n < 128 → (s.core n).retired = false →
    ∃ t, exec (.agentFailure (.core n) syn) s = .next t ∧ (t.core n).retired = true ∧ (t.core n).l1 = [] ∧
      (∀ r ∈ t.regs, r.core ≠ n) ∧ ((∀ h ∈ hartsOf n, (s.hart h).pack = none) →
        (∀ w, s.ownerOf w = some (.core n) → w ∈ t.bad) ∧ t.mem = s.mem)) ∧
  (∀ (s : State) (k reg word : Nat) (syn : Word), k < 8 → s.fatal = none →
    let stops := fun (i : Instr) => ∃ t f, exec i s = .next t ∧ t.fatal = some f ∧ f.cause = 1 ∧ f.time = s.gtime ∧
      f.origin = k / 2
    (0 < reg → reg < 64 → stops (.registerSoftError (1024 + k) reg word true syn)) ∧
    ((s.core (128 + k)).retired = false → stops (.agentFailure (.core (128 + k)) syn))) ∧
  (∀ (s : State) (c : FatalCause) (origin dies : Nat), s.fatal = none → origin < 4 →
    (c ≠ .thermal → ∃ t f, exec (.fatalError c origin dies) s = .next t ∧ t.fatal = some f ∧ f.time = s.gtime ∧
      f.origin = origin ∧ f.dies = dies % 16 ∧
      f.cause = match c with
        | .controlState => 1 | .dieLink => 2 | .pseudoChannel => 3 | .watchdog => 4 | .thermal => 5) ∧
    ∀ flow, ∃ t f, exec (.thermalTrip origin flow) s = .next t ∧ t.fatal = some f ∧ f.cause = 5 ∧ f.origin = origin) ∧
  ∀ (s : State) (f : Fatal), s.fatal = some f →
    (∀ b rest, s.agenda = .event (.bringUp b) :: rest → ∃ t, step s = .next t ∧ t.fatal = none) ∧
    ((∀ i rest, s.agenda = .event i :: rest → staysUp i = false) → step s = .fault .fatalStop) ∧
    ∀ i rest, s.agenda = .event i :: rest → staysUp i = true → step s = State.move { s with agenda := rest } (.event i)

/-- R161, R228, R264, R274 to R276, R281, R290, R376: once bring-up is over a write of each control register takes its effect.
TRCTL keeps its fields, and one that clears EN waits for the records already produced; PARTCORE waits for an idle core and then moves
it and clears its bindings; QRING changes an empty level alone; QMAP maps a
queue, clears PENDING and processes the queue, which for an empty one does nothing, and unmaps it, and then sets PENDING for a
notify of the same cycle; QSUBMIT reports INVALID for a record of bad fields, and OK or FULL for one without a launch, which it
pushes where there is room; INVALID for an address outside memory and for poison is the model's choice (log 68); MRRECLAIM recalls
the slots it names; XGCTL clears XGSEQ and ends the collectives of the die;
THCTL, WDCTL, ERRTAIL, XGTIMEOUT, TRBASE and the window table take the written value, ERRHEAD does not. -/
def Obligations.RegisterWrites : Prop :=
  ∀ (s : State) (c d part level q : Nat) (v : Word), s.offered = true →
    (c < 128 → ∃ t, exec (.trctlWrite c v) s = .next t ∧ t.harts = s.harts ∧ t.mem = s.mem ∧ t.dies = s.dies ∧
      (let x := (s.core c).trace
       let y := (t.core c).trace
       let at_once := wbit v 0 = true ∨ wbit x.ctl 0 = false ∨ (x.sync = none ∧ x.sample = false ∧ s.ringPut c = none)
       (at_once → y.ctl = v &&& 0xFFF003#64 ∧ y.closing = none) ∧
       (¬ at_once → y.ctl = x.ctl ∧ y.closing = some (v &&& 0xFFF003#64)) ∧
       y.base = x.base ∧ y.size = x.size ∧ y.head = x.head ∧ y.lost = x.lost) ∧
      ∀ k, k ≠ c → t.core k = s.core k) ∧
    (c < 128 → ∃ t, exec (.partcoreWrite c v) s = .next t ∧ t.harts = s.harts ∧ t.mem = s.mem ∧ t.dies = s.dies ∧
      t.core c = { s.core c with partPending := some (v &&& 0x10F#64) } ∧ ∀ k, k ≠ c → t.core k = s.core k) ∧
    (∀ w, c < 128 → (s.core c).partPending = some w → s.coreIdle c = true →
      ∃ t, exec (.partitionChange c) s = .next t ∧ t.harts = s.harts ∧ t.mem = s.mem ∧ t.dies = s.dies ∧
        (t.core c).part = field w 0 4 ∧ (t.core c).assigned = wbit w 8 ∧ (t.core c).partPending = none ∧
        (t.core c).binds = [] ∧ (∀ x ∈ (t.core c).l1, x.slot = 0) ∧ ∀ k, k ≠ c → t.core k = s.core k) ∧
    (d < 4 → part < 16 → level < 8 → ∀ size, ∃ t, exec (.qringWrite d part level size v) s = .next t ∧ t.harts = s.harts ∧
      t.mem = s.mem ∧ t.cores = s.cores ∧ (∀ k, k ≠ d → t.die k = s.die k) ∧
      (let x := (s.die d).level part level
       let y := (t.die d).level part level
       let ok := field v 0 5 = 0 ∨ (10 ≤ field v 0 5 ∧ field v 0 5 ≤ 24)
       (x.recs ≠ [] → y = x) ∧ (x.recs = [] →
        (size = false → y = { x with base := v, first := 0 }) ∧
        (size = true → ok → y = { x with log := field v 0 5, first := 0 }) ∧ (size = true → ¬ ok → y = x)))) ∧
    (d < 4 → q < 4096 →
      (wbit v 0 = true →
        let desc := 64 * field v 6 50
        let u := State.agentWrite { s.modDie d fun x =>
            { x with qmap := (q, v &&& 0xFFFFFFFFFFFFC1#64) :: x.qmap.filter fun e => e.1 != q } with
          descs := (q, desc) :: s.descs.filter fun e => e.1 != q } (some (.sched d)) (desc + 32) [0]
        (∃ t, exec (.queueMap d q v) s = .next t ∧ t = { u.processQueue d desc with epoch := t.epoch }) ∧
        (leNat (u.homeBytes (desc + 24) 8) = leNat (u.homeBytes (desc + 16) 8) →
          ∃ t, exec (.queueMap d q v) s = .next t ∧ t.harts = s.harts ∧ t.mem = u.mem ∧
            (t.die d).qmap = (q, v &&& 0xFFFFFFFFFFFFC1#64) :: (s.die d).qmap.filter fun e => e.1 != q)) ∧
      (wbit v 0 = false →
        let u : State := { s.modDie d fun x => { x with qmap := (q, v &&& 0xFFFFFFFFFFFFC0#64) :: x.qmap.filter fun e => e.1 != q } with
          notified := s.notified.filter fun n => n != (q, d) }
        (s.notified.contains (q, d) = false → ∃ t, exec (.queueUnmap d q v) s = .next t ∧ t.harts = s.harts ∧ t.mem = s.mem ∧
          t.cores = s.cores ∧ t.die d = u.die d ∧ ((t.die d).qmap.any fun e => e.1 == q && wbit e.2 0) = false) ∧
        (∀ desc, s.notified.contains (q, d) = true → s.queueDesc q = some desc →
          ∃ t, exec (.queueUnmap d q v) s = .next t ∧ t = { u.hostPut (desc + 32) [1] with epoch := t.epoch }))) ∧
    (d < 4 →
      let pa := 64 * field v 6 50
      let r := TaskRec.ofBytes (s.homeBytes pa 64)
      (paValid pa = false ∨ poisoned s.bad pa 64 = true → ∃ t, exec (.qsubmit d v) s = .next t ∧ t.harts = s.harts ∧
        t.mem = s.mem ∧ t.die d = { s.die d with qsubmit := 2 }) ∧
      (paValid pa = true → poisoned s.bad pa 64 = false →
        (r.fieldsOk = false → ∃ t, exec (.qsubmit d v) s = .next t ∧ t.harts = s.harts ∧ t.mem = s.mem ∧
          t.die d = { s.die d with qsubmit := 2 }) ∧
        (r.fieldsOk = true → r.launch = 0 →
          (s.levelFull d (field v 0 4) r = true → ∃ t, exec (.qsubmit d v) s = .next t ∧ t.harts = s.harts ∧
            t.mem = s.mem ∧ t.die d = { s.die d with qsubmit := 1 }) ∧
          (s.levelFull d (field v 0 4) r = false → ∃ t, exec (.qsubmit d v) s = .next t ∧ (t.die d).qsubmit = 0 ∧
            t.harts = ((s.lookAt pa 64).push d (field v 0 4) (s.qrec d r (BitVec.ofNat 64 pa) none none)).harts ∧
            ((t.die d).level (field v 0 4) r.prio.toNat).recs =
              (((s.lookAt pa 64).push d (field v 0 4) (s.qrec d r (BitVec.ofNat 64 pa) none none)).die d
                |>.level (field v 0 4) r.prio.toNat).recs)))) ∧
    (d < 4 → ∃ t, exec (.mrreclaim d v) s = .next t ∧ t.harts = s.harts ∧ t.mem = s.mem ∧ t.cores = s.cores ∧
      (∀ k, k ≠ d → t.die k = s.die k) ∧ (∀ k, (s.die d).slot k = none → (t.die d).slot k = none) ∧
      ∀ k x, (s.die d).slot k = some x → (t.die d).slot k =
        some (if field v 0 8 / 2 ^ k % 2 = 1 then { x with reclaim := true } else x)) ∧
    (d < 4 → ∃ t, exec (.xgctlWrite d v) s = .next t ∧ t.mem = s.mem ∧ (t.die d).xgctl = v &&& 0x3FF03FF0F01#64 ∧
      (t.die d).xgseq = 0 ∧ (t.die d).colls = [] ∧ ((s.die d).colls = [] → t.harts = s.harts)) ∧
    (d < 4 → let writes := fun (off : Nat) (P : State → Prop) => ∃ t, exec (.configRegisterWrite d off v) s = .next t ∧
        t.harts = s.harts ∧ t.mem = s.mem ∧ P t
      writes 0x630008 (fun t => t.cores = s.cores ∧ t.die d = { s.die d with thctl := v &&& 0x10F#64 }) ∧
      writes 0x630018 (fun t => t.cores = s.cores ∧ t.die d = { s.die d with wdctl := v &&& 0xFFFFFFFF#64 }) ∧
      writes 0x520008 (fun t => t.cores = s.cores ∧ t.die d = { s.die d with errTail := v.toNat }) ∧
      writes 0x580008 (fun t => t.cores = s.cores ∧ t.die d = { s.die d with xgtimeout := v }) ∧
      writes 0x520000 (fun t => t.dies = s.dies ∧ t.cores = s.cores) ∧
      (∀ k, k < 32 → writes (0x400000 + 32 * k + 8) fun t => t.dies = s.dies ∧
        (t.core (32 * d + k)).trace = { (s.core (32 * d + k)).trace with base := v &&& 0xFFFFFFFFFFF000#64 }) ∧
      ∀ k e, k < 32 → e < 16 → writes (0x610000 + 512 * k + 32 * e) fun t => t.dies = s.dies ∧
        ((t.core (32 * d + k)).windows[e]?.map fun w => w.launch) = some v)

/-- R277, R279 to R281, R290, R291, R293: what comes in through the host port. A notify of a mapped queue sets its TAIL and has
the queue processed, of an unmapped one its descriptor takes the tail and PENDING; a host read changes no memory and gives the
bytes at the home, a host write is performed at the home, and not in a live pack object; a snoop is answered; a bias snoop past
1,000,000 ns raises cause 6; the mailbox answers while the CXL link is up; BRING_UP starts from reset state and releases the
control cores at the entry. A notify that names no queue and a host write to a live pack object that is discarded are the model's
choices (log 28), as are what BRING_UP starts from (log 1, log 2) and how it ends (log 56). -/
def Obligations.HostSteps : Prop :=
  (∀ (s : State) (q : Nat) (v : Word), s.offered = true → q < 4096 →
    (s.queueDie q = none → s.queueDesc q = none → ∃ t, exec (.notify q v) s = .next t ∧ t.harts = s.harts ∧ t.mem = s.mem) ∧
    (∀ desc, s.queueDie q = none → s.queueDesc q = some desc → ∃ t, exec (.notify q v) s = .next t ∧ t.harts = s.harts ∧
      t.mem = ((s.hostPut (desc + 24) (leBytes 8 v.toNat)).hostPut (desc + 32) [1]).mem) ∧
    (∀ d desc, s.queueDie q = some d → (s.die d).queue q = some desc → ∃ t, exec (.notify q v) s = .next t ∧
      t = State.happen { s.agentWrite (some (.sched d)) (desc + 24) (leBytes 8 v.toNat) with
        notified := if s.notified.contains (q, d) then s.notified else s.notified ++ [(q, d)] })) ∧
  (∀ (s : State) (pa w : Nat) (v : Word), s.offered = true → 0 < w → w ≤ 8 → pa % 64 + w ≤ 64 → pa + w ≤ 509 * 2 ^ 30 →
    (s.heldStore pa w = false → ∃ t, exec (.hostMemRead pa w) s = .next t ∧ t.harts = s.harts ∧ t.mem = s.mem ∧
      t.cores = s.cores ∧ t.hostHolds pa = (s.hostHolds pa || s.hostBias pa) ∧
      t.hostRead = (s.homeBytes pa w, poisoned s.bad pa w)) ∧
    (s.inPackObject pa w = true → ∃ t, exec (.hostMemWrite pa w v) s = .next t ∧ t.harts = s.harts ∧ t.mem = s.mem) ∧
    (s.inPackObject pa w = false → s.pageHeld pa = false → s.packHolds pa w = false →
      ∃ t, exec (.hostMemWrite pa w v) s = .next t ∧ t.harts = s.harts ∧ t.hostHolds pa = (s.hostHolds pa || s.hostBias pa) ∧
      ((s.recallRange pa w).mem.wf = true → s.hostBias pa = true → t.mem.readLe pa w = v.toNat % 256 ^ w ∧
        ∀ p, p < pa ∨ pa + w ≤ p → t.mem.read p = (s.recallRange pa w).mem.read p))) ∧
  (∀ (s : State) (line : Nat) (k : SnoopKind), 2 ^ 52 ≤ 64 * line → 64 * line < 2 ^ 56 →
    ∃ t, exec (.hostSnoop line k) s = .next t ∧ t.harts = s.harts ∧
      (k = .invalidate → ∀ c, (t.core c).uline line = none ∧ ∀ w, w / 16 = line → (t.core c).l1get w = none)) ∧
  (∀ (s : State) (line : Nat) (data : Option (List Byte)), s.snooping (64 * line) = true →
    (∀ bs, data = some bs → bs.length = 64) → (∀ p ∈ s.heldPuts, p.src = .response → p.pa ≠ 64 * line) →
    ∃ t, exec (.snoopResponse line data) s = .next t ∧ t.harts = s.harts ∧ (s.heldPuts = [] →
      let ended := t.hostHolds (64 * line) = false ∧ t.snooping (64 * line) = false
      (data = none → ended ∧ t.mem = s.mem) ∧
      ∀ bs, data = some bs →
        (s.pageHeld (64 * line) = false → ended ∧ t.mem = (s.recallRange (64 * line) 64).mem.writeN (64 * line) bs) ∧
        (s.pageHeld (64 * line) = true → t.mem = s.mem ∧ t.snooping (64 * line) = true))) ∧
  (∀ (s : State) (h pa : Nat) (n : Snoop), s.flipPage h = some pa → s.flipping pa = true → n ∈ s.snoops →
    n.line / 64 = pa / 4096 → n.sent + 1000000 ≤ s.gtime → (s.hart h).pack = none →
    ∃ t, exec (.biasSnoopTimeout h) s = .next t ∧ (t.hart h).scause = 6 ∧ (t.hart h).stval = BitVec.ofNat 64 pa ∧
      (t.hart h).priv = .sup ∧ t.bias = s.bias ∧ t.flipping pa = false) ∧
  (∀ (s : State) (a : Word) (m : Bool), s.linkUp = true →
    exec (.mailboxDumpAddress a) s = .next { s with dumpAddr := some a, epoch := s.epoch + 1 } ∧
    exec .mailboxBringupStatus s = .next { s with epoch := s.epoch + 1 } ∧
    exec (.doeSpdmRequest m) s = .next { s with spdm := s.spdm + 1, spdmAnswer := s.spdmReply m, epoch := s.epoch + 1 }) ∧
  ∀ (s : State) (b : BringUp),
    let up := fun t : State => t.bringup = .up ∧ ∀ k, k < 8 → (t.hart (1024 + k)).pc = b.entry
    (s.bringup = .recovery → s.linkUp = true → b.failedPcs.length ≤ 3 → b.cxlOk = true →
      ∃ t, exec (.mailboxRecoveryImage true b) s = .next t ∧ up t) ∧
    (s.bringup = .recovery → s.linkUp = true → ∃ t, exec (.mailboxRecoveryImage false b) s = .next t ∧ t.bringup = .recovery) ∧
    ∃ t, exec (.bringUp b) s = .next t ∧ t.fatal = none ∧ t.gtime = s.gtime ∧ t.regs = [] ∧ t.packs = [] ∧ t.linkUp = b.cxlOk ∧
      (∀ h, h < 1024 → t.hart h = Hart.reset) ∧ (∀ a, a < 2 ^ 52 → t.mem.read a = 0) ∧
      (b.imageOk = false → t.bringup = .recovery) ∧
      (b.imageOk = true → 3 < b.failedPcs.length → t.bringup = .noMemory) ∧
      (b.imageOk = true → b.failedPcs.length ≤ 3 → b.cxlOk = false → t.bringup = .noLink) ∧
      (b.imageOk = true → b.failedPcs.length ≤ 3 → b.cxlOk = true → up t)

/-- R154, R162, R163, R280, R283, R285 to R287, R289: the steps of clocks, links and power. A SYNC and a SAMPLE that are due
are written in their cycle; a flit in order delivers its payload and any other is replayed; a port goes on with 4 lanes; the
throttle's request, announcement, acknowledgement and effect, from a leader of the package or of another, and its silence; a
stack's temperature band; a droop and its end; an idle core is gated and ungated. One sequence of flits over all virtual channels
and the throttle leader outside the package are the model's choices (log 58). -/
def Obligations.PowerSteps : Prop :=
  (∀ (s : State) (c : Nat), c < 128 →
    (∀ p, (s.core c).trace.sync = some p → s.cycleEnds c = true → ∃ t, exec (.sync c) s = .next t ∧ t.harts = s.harts ∧
      (t.core c).trace.sync = none ∧ (t.core c).cycle = (s.core c).cycle ∧
      t.mem = (s.tracePut c (traceWord 0 0 (p.1 + s.clockStep c) (s.core c).cycle) (BitVec.ofNat 64 p.2)).mem) ∧
    ((s.core c).trace.sample = true → (s.core c).issued.isSome = true ∨ s.cycleEnds c = true →
      ∃ t, exec (.sample c) s = .next t ∧ t.harts = s.harts ∧ (t.core c).trace.sample = false ∧
        ∀ p, (s.core c).issued = some p → t.mem = (s.writeRecord c 7 p.1 0 (s.core c).cycle p.2).mem) ∧
    ((s.core c).gated = false → (s.core c).retired = false → s.gateable c = true →
      ∃ t, exec (.corePowerGating c) s = .next t ∧ t.harts = s.harts ∧ (t.core c).gated = true ∧ (t.core c).ul1 = []) ∧
    ((s.core c).gated = true → ∃ t, exec (.corePowerUngating c) s = .next t ∧ t.harts = s.harts ∧ t.mem = s.mem ∧
      t.core c = { s.core c with gated := false })) ∧
  (∀ (s : State) (p : Nat) (f : FlitHead) (ok : Bool) (pay : List Byte),
    let x := getAt Port.reset s.ports p
    p < 18 → x.enabled = true →
    (pay.length = 240 → f.seq < x.nextSeq + 256 → ∃ t, exec (.flitReceive p f ok pay) s = .next t ∧ t.harts = s.harts ∧
      t.mem = s.mem ∧ getAt Port.reset t.ports p = if ok = true ∧ f.seq = x.nextSeq then
        { x with nextSeq := x.nextSeq + 1, taken := x.taken ++ [(f, pay)] } else { x with replays := x.replays + 1 }) ∧
    (4 < x.lanes → ∃ t, exec (.portLaneLoss p) s = .next t ∧ t.harts = s.harts ∧ t.mem = s.mem ∧
      getAt Port.reset t.ports p = { x with lanes := 4 })) ∧
  (∀ (s : State) (d : Nat) (x : ThrottleIn), d < 4 → (∀ t0, (s.thr d).evaluated = some t0 → t0 + 10000 ≤ s.gtime) →
    let floor := min (field (s.die d).thctl 0 4) 14
    ∃ t, exec (.throttleEvaluation d x) s = .next t ∧ t.harts = s.harts ∧ t.mem = s.mem ∧
      (x.power ≤ 1800 → x.hottest ≤ 1000 → (t.die d).throttle.request = floor) ∧
      floor ≤ (t.die d).throttle.request ∧ (t.die d).throttle.request ≤ 14 ∧
      (t.die d).throttle.step = if (s.thr d).member = true then (s.thr d).step else (t.die d).throttle.request) ∧
  (∀ (s : State) (d l step t0 : Nat), s.leader d = some l → d < 4 → d ≠ l → (s.thr d).member = true →
    ((s.thr l).announced = some (step, t0 + 2000) → (s.thr d).announced ≠ some (step, t0 + 2000) →
      ∃ t, exec (.throttleAnnouncement d step t0) s = .next t ∧ t.harts = s.harts ∧
        (t.thr d).announced = some (step, t0 + 2000) ∧ (t.thr d).heard = s.gtime) ∧
    (∀ at_, (s.thr l).announced = some (step, at_) → (s.thr d).announced = some (step, at_) →
      (s.thr l).acks / 2 ^ d % 2 = 0 → s.gtime + 1000 ≤ at_ →
      ∃ t, exec (.throttleAck d) s = .next t ∧ t.harts = s.harts ∧ (t.thr l).acks = (s.thr l).acks + 2 ^ d) ∧
    ((s.thr d).heard + 100000 ≤ s.gtime → ∃ t, exec (.leaderSilence d) s = .next t ∧ t.harts = s.harts ∧
      (t.thr d).member = false ∧ (t.thr d).step = (s.thr d).request)) ∧
  (∀ (s : State) (d step t0 : Nat), s.leader d = none → d < 4 → (s.thr d).member = true →
    (step ≤ 14 → t0 ≤ s.gtime → (s.thr d).announced ≠ some (step, t0 + 2000) →
      ∃ t, exec (.throttleAnnouncement d step t0) s = .next t ∧ t.harts = s.harts ∧
        (t.thr d).announced = some (step, t0 + 2000) ∧ (t.thr d).heard = s.gtime) ∧
    (∀ at_, (s.thr d).announced = some (step, at_) → at_ ≤ s.gtime → ∃ t, exec (.throttleEffect d) s = .next t ∧
      t.harts = s.harts ∧ (t.thr d).announced = none ∧ (t.thr d).step = step)) ∧
  (∀ (s : State) (d step at_ : Nat), s.leader d = some d → (s.thr d).announced = some (step, at_) → at_ ≤ s.gtime →
    ∃ t, exec (.throttleEffect d) s = .next t ∧ t.harts = s.harts ∧
      ∀ k, (k ∈ s.members d → (t.thr k).announced = none ∧
          (t.thr k).step = if s.allAcked d = true then step else (s.thr k).step) ∧
        (k ∉ s.members d → t.thr k = s.thr k)) ∧
  (∀ (s : State) (stack temp : Nat), stack < 8 →
    (temp < 115 → ∃ t b, exec (.hbmTempSample stack temp) s = .next t ∧ t.harts = s.harts ∧ t.mem = s.mem ∧
      getAt 0 t.bands stack = b ∧
      (let lowest := if temp < 85 then 0 else if temp < 95 then 1 else if temp < 105 then 2 else 3
       lowest ≤ b ∧ (getAt 0 s.bands stack ≤ lowest → b = lowest) ∧ (lowest < getAt 0 s.bands stack → b ≤ getAt 0 s.bands stack) ∧
       (lowest < b → 75 + 10 * b < temp + 3))) ∧
    (115 ≤ temp → s.fatal = none → ∃ t f, exec (.hbmTempSample stack temp) s = .next t ∧ t.fatal = some f ∧ f.cause = 5)) ∧
  ∀ (s : State) (d : Nat), d < 4 →
    ((s.die d).stretching = none → ∃ t, exec (.supplyDroop d) s = .next t ∧ t.harts = s.harts ∧ t.mem = s.mem ∧
      t.die d = { s.die d with stretching := some (s.gtime, none) }) ∧
    ((s.die d).stretching.isSome = true → ∃ t, exec (.stretchEnd d) s = .next t ∧ t.harts = s.harts ∧
      (t.die d).stretching = none)

/-! ## The whole machine -/

/-- The assigned major opcodes (R44). -/
def Sys2Proof.Claims.assignedOpcodes : List Nat :=
  (List.range 0x15).drop 1 ++ (List.range 0x1F).drop 0x18 ++ (List.range 0x35).drop 0x20 ++ (List.range 0x45).drop 0x38 ++
  (List.range 0x69).drop 0x48 ++ (List.range 0x77).drop 0x70 ++ (List.range 0x7E).drop 0x78 ++ (List.range 0x84).drop 0x80 ++
  (List.range 0x8C).drop 0x88 ++ (List.range 0x93).drop 0x90 ++ (List.range 0x9E).drop 0x98 ++ (List.range 0xA5).drop 0xA0 ++
  [0xA8] ++ (List.range 0xCB).drop 0xC0

/-- R47, R44, R55, R313: what stands at the PC is checked in this order, and the first condition that applies is reported: the
address,
the fetch of the first word, its form and opcode, the privilege of its opcode, its fields, with the number and the privilege of
the register that a CSRR or CSRW names, the fetch of an extension word. -/
def Obligations.FetchChecks : Prop :=
  ∀ (s : State) (h : Nat),
    let pc := (s.hart h).pc
    (pc.toNat % 8 ≠ 0 → s.fetchItem h = (s, .trap 3 pc 0)) ∧
    (∀ u c, pc.toNat % 8 = 0 → s.fetchWord h pc = (u, .error c) →
      s.fetchItem h = (u, .trap c pc 0) ∧ (c = 4 ∨ c = 5 ∨ c = 6)) ∧
    ∀ u w, pc.toNat % 8 = 0 → s.fetchWord h pc = (u, .ok w) →
      let form := w.toNat / 2 ^ 62
      let opc := w.toNat / 2 ^ 54 % 256
      let row2 := form = 3 ∨ (form ≠ 1 ∧ opc ∉ Claims.assignedOpcodes) ∨ (form = 2 ∧ opc ≠ 0x1E ∧ opc ≠ 0x39 ∧ opc ≠ 0x3A)
      let row3 := form = 0 ∧ 0xC3 ≤ opc ∧ opc ≤ 0xCA ∧ (s.hart h).priv = .user
      (row2 → s.fetchItem h = (u, .trap 1 w w)) ∧
      (row3 → s.fetchItem h = (u, .trap 2 w w)) ∧
      (¬ row2 → ¬ row3 →
        (∀ r, decodeWord w = .reject r → s.fetchItem h = (u, .trap 1 w w)) ∧
        (∀ i, decodeWord w = .one i →
          let names := fun k : Nat => (∃ d n, i = .csrr d n ∧ n.toNat = k) ∨ ∃ n a, i = .csrw n a ∧ n.toNat = k
          let noReg := ∃ k, names k ∧ Claims.unassignedCsr k
          let noRight := (s.hart h).priv = .user ∧ ((∃ k, names k ∧ Claims.supervisorCsr k) ∨
            ∃ n a, i = .csrw n a ∧ 0x040 ≤ n.toNat ∧ n.toNat ≤ 0x045)
          (noReg → s.fetchItem h = (u, .trap 1 w w)) ∧ (noRight → s.fetchItem h = (u, .trap 2 w w)) ∧
          (¬ noReg → ¬ noRight → s.fetchItem h = (u, .item (.instr i 8) w))) ∧
        (∀ a b, decodeWord w = .pair a b → s.fetchItem h = (u, .item (.pair a b) w)) ∧
        (∀ mj r, decodeWord w = .needExt mj r →
          (∀ v c, u.fetchWord h (pc + 8) = (v, .error c) → s.fetchItem h = (v, .trap c (pc + 8) w)) ∧
          ∀ v x, u.fetchWord h (pc + 8) = (v, .ok x) → s.fetchItem h = (v, .item (.instr (extended mj r x) 16) w)))

/-- R35, R36, R47, R98: a step runs the decoded instruction. Where the word at the PC of a hart decodes to an instruction
that the hart may run and nothing holds it, the hart's issue is exec of that instruction at the state in which it has begun;
what follows touches the hart's counters, its core's history and nothing else. Where an access of it must wait, the hart
waits with it and nothing of the instruction has happened (log 66). A move of the agenda that issues a hart which its core
selects is that issue; so is the turn of a core that selects the hart, where no core before it has a move. The order of the
moves is the model's (log 3). -/
def Obligations.StepRunsDecoded : Prop :=
  (∀ (s u : State) (h : Nat) (w : Word) (i : Instr), (s.hart h).pc.toNat % 8 = 0 →
    s.fetchWord h (s.hart h).pc = (u, .ok w) → ((s.hart h).priv = .user → privilegedWord w = false) →
    ((decode (bytesOfWord w)).1 = .instr i 8 → fieldCause (s.hart h).priv (.one i) = none →
      s.fetchItem h = (u, .item (.instr i 8) w)) ∧
    (∀ j, (decode (bytesOfWord w)).1 = .pair i j → s.fetchItem h = (u, .item (.pair i j) w)) ∧
    (∀ v x, u.fetchWord h ((s.hart h).pc + 8) = (v, .ok x) →
      (decode (bytesOfWord w ++ bytesOfWord x)).1 = .instr i 16 → s.fetchItem h = (v, .item (.instr i 16) w))) ∧
  (∀ (s u : State) (h n : Nat) (w : Word) (i : Instr),
    let s0 : State := { s with cur := h }
    s0.fetchItem h = (u, .item (.instr i n) w) → u.queueFirst h (.instr i n) = false →
    u.watching h (u.hart h).pc false = [] → (u.hart h).readsError (.instr i n) = false →
    ∀ t, exec i (u.begin h (.instr i n) w) = .next t →
      (t.want = none → s.issue h = .next (s0.hasIssued t h)) ∧
      (∀ pa k write, t.want = some (pa, k, write) → s.issue h = .next (s0.block h pa k write))) ∧
  (∀ (s t : State) (h : Nat),
    let r := s.hasIssued t h
    r.mem = t.mem ∧ r.dies = t.dies ∧ (∀ k, k ≠ h → r.hart k = t.hart k) ∧ (∀ k, k ≠ coreOf h → r.core k = t.core k) ∧
    (∃ b p, r.hart h = { t.hart h with gto := 0, progress := s.gtime, reported := false, passed := p, busy := b }) ∧
    ∃ hist, r.core (coreOf h) = { t.core (coreOf h) with issued := some (localHart h, (s.hart h).pc), hist := hist }) ∧
  (∀ (s : State) (h : Nat) (rest : List Move), s.fatal = none → s.agenda = .issue h :: rest →
    let s1 : State := { s with agenda := rest }
    s1.boundary h = none → (s1.hart h).wait = none → (s1.core (coreOf h)).issued = none → s1.scoreboard h = false →
    s1.select (coreOf h) = some h → step s = s1.issue h) ∧
  ∀ (s : State) (k h : Nat), s.fatal = none → s.agenda = [] → s.gtime % 8 ≠ 7 → k < 136 →
    (∀ j, j < k → s.coreMove ((coreOf s.cur + j) % 136) = none) →
    let c := (coreOf s.cur + k) % 136
    (∀ q ∈ hartsOf c, s.hartMove q = none) → (s.core c).issued = none → s.select c = some h →
    (∀ t, s.issue h = .next t → step s = .next { t with cur := nextCoreHart c })

/-- R38, R40 to R43, and the example words of the spec: decoding is right on words written out from the encodings. -/
def Obligations.ExampleWords : Prop :=
  let reads := fun (w : Word) (i : Instr) => (decode (bytesOfWord w)).1 = .instr i 8
  reads 0x004C34E000000000 (.add 12 13 14) ∧ reads 0x060C300000000200 (.addi 12 12 512) ∧
  reads 0x07A2000000000004 (.li 34 4) ∧ reads 0x080C34E004800000 (.fadd .f32 .rne 12 13 14) ∧
  reads 0x0A175800A00007FE (.ld .hu .dflt 23 22 2046) ∧ reads 0x0A4C340060000000 (.st .d .dflt 12 13 0) ∧
  reads 0x1040000000000002 (.setmt 2) ∧ reads 0x1D4C0C0000000000 (.mpopc 12 3 0) ∧
  reads 0x0F40000000000000 .tend ∧ reads 0x2400440000000009 (.loopmarkWait 17 9) ∧
  reads 0x2451003FFFFFFFF7 (.loopbr 17 (BitVec.ofInt 38 (-9))) ∧ reads 0x26C0000000000005 (.pkabort 5)

/-- R35 to R43: decoding what the encoder writes gives back the instruction, with every operand at every value its encoding
admits, and leaves no byte over. A half of a pair stands beside a NOP. -/
def Obligations.EncodeThenDecode : Prop :=
  ∀ i : Instr, i.wf = true → encode i ≠ [] → ∃ it, decode ((encode i).flatMap bytesOfWord) = (it, []) ∧
    match it with
    | .instr j _ => j = i
    | .pair a b => theHalf a b = some i
    | _ => False

/-- R46, R167: no instruction ends the run. Whatever the operands and the state, an instruction answers a next state: its
effect, a trap, or a wait. -/
def Obligations.InstructionsGoOn : Prop :=
  ∀ (i : Instr) (s : State), encode i ≠ [] → ∃ t, exec i s = .next t

/-- R3, R166: multi-byte data and instruction words are little-endian. What is written reads back, lowest byte first; every
other byte reads as before; the canonical form is kept; and two memories in it that read alike are the same. -/
def Obligations.MemoryLaws : Prop :=
  (∀ (m : Memory) (a n x p : Nat), m.wf = true → (m.writeLe a n x).wf = true ∧
    (m.writeLe a n x).readLe a n = x % 256 ^ n ∧ (p < a ∨ a + n ≤ p → (m.writeLe a n x).read p = m.read p) ∧
    (∀ i, i < n → (m.writeLe a n x).read (a + i) = BitVec.ofNat 8 (x / 256 ^ i))) ∧
  (∀ m k : Memory, m.wf = true → k.wf = true → (∀ a, m.read a = k.read a) → m = k) ∧
  ∀ w : Word, wordOfBytes (bytesOfWord w) = w ∧ (bytesOfWord w).length = 8 ∧
    ∀ i, i < 8 → getAt 0 (bytesOfWord w) i = BitVec.ofNat 8 (w.toNat / 256 ^ i)

/-- The model's own invariant (log 2): every step keeps memory in its canonical form. -/
def Obligations.MemoryStaysCanonical : Prop :=
  ∀ s t : State, s.mem.wf = true → step s = .next t → t.mem.wf = true

/-- R52, R54, R155, R290, R10: the state after reset. Where a value here has no reset value in the spec (general and control
registers, the contents of memory) it is the model's choice (log 1, log 2), and so is one hart for each of the 8 control cores,
1,032 harts in all (log 31). The memory is canonical. -/
def Obligations.ResetState : Prop :=
  let s := State.reset
  s.mem.wf = true ∧ s.gtime = 0 ∧ s.fatal = none ∧ s.bringup = .off ∧ s.packs = [] ∧ s.regs = [] ∧ s.bias = [] ∧
  s.harts.length = 1032 ∧ s.cores.length = 136 ∧ s.dies.length = 4 ∧
  (∀ h, h < 1024 → (s.hart h).priv = .user ∧ (s.hart h).task = none ∧ (s.hart h).lease = 0 ∧ (s.hart h).vl = 0) ∧
  (∀ h, 1024 ≤ h → h < 1032 → (s.hart h).priv = .sup) ∧
  (∀ h, ∀ r, (s.hart h).rd r = 0) ∧ ∀ c, (s.core c).lanedis = 0 ∧ (s.core c).cycle = 0 ∧ (s.core c).gated = false
end

