-- ==== Sys2Proof/Laws/State.lean ====
section
/-! SUPPORT. What each update of the state and of a hart leaves as it was: one lemma for each field of each update. -/

-- One proof after another: the proofs of this file share equation lemmas, and threads that wait for these hold stack.
set_option Elab.async false

namespace Sys2Proof.Machine

/-! ## State.setHart -/

@[simp] theorem State.setHart_cores (s : State) (h : Nat) (x : Hart) : (s.setHart h x).cores = s.cores := rfl
@[simp] theorem State.setHart_dies (s : State) (h : Nat) (x : Hart) : (s.setHart h x).dies = s.dies := rfl
@[simp] theorem State.setHart_mem (s : State) (h : Nat) (x : Hart) : (s.setHart h x).mem = s.mem := rfl
@[simp] theorem State.setHart_bad (s : State) (h : Nat) (x : Hart) : (s.setHart h x).bad = s.bad := rfl
@[simp] theorem State.setHart_tables (s : State) (h : Nat) (x : Hart) : (s.setHart h x).tables = s.tables := rfl
@[simp] theorem State.setHart_regs (s : State) (h : Nat) (x : Hart) : (s.setHart h x).regs = s.regs := rfl
@[simp] theorem State.setHart_atoms (s : State) (h : Nat) (x : Hart) : (s.setHart h x).atoms = s.atoms := rfl
@[simp] theorem State.setHart_ras (s : State) (h : Nat) (x : Hart) : (s.setHart h x).ras = s.ras := rfl
@[simp] theorem State.setHart_sends (s : State) (h : Nat) (x : Hart) : (s.setHart h x).sends = s.sends := rfl
@[simp] theorem State.setHart_bias (s : State) (h : Nat) (x : Hart) : (s.setHart h x).bias = s.bias := rfl
@[simp] theorem State.setHart_hostLines (s : State) (h : Nat) (x : Hart) : (s.setHart h x).hostLines = s.hostLines := rfl
@[simp] theorem State.setHart_snoops (s : State) (h : Nat) (x : Hart) : (s.setHart h x).snoops = s.snoops := rfl
@[simp] theorem State.setHart_hostRead (s : State) (h : Nat) (x : Hart) : (s.setHart h x).hostRead = s.hostRead := rfl
@[simp] theorem State.setHart_packs (s : State) (h : Nat) (x : Hart) : (s.setHart h x).packs = s.packs := rfl
@[simp] theorem State.setHart_packWaits (s : State) (h : Nat) (x : Hart) : (s.setHart h x).packWaits = s.packWaits := rfl
@[simp] theorem State.setHart_holds (s : State) (h : Nat) (x : Hart) : (s.setHart h x).holds = s.holds := rfl
@[simp] theorem State.setHart_heldPuts (s : State) (h : Nat) (x : Hart) : (s.setHart h x).heldPuts = s.heldPuts := rfl
@[simp] theorem State.setHart_filters (s : State) (h : Nat) (x : Hart) : (s.setHart h x).filters = s.filters := rfl
@[simp] theorem State.setHart_gtime (s : State) (h : Nat) (x : Hart) : (s.setHart h x).gtime = s.gtime := rfl
@[simp] theorem State.setHart_repair (s : State) (h : Nat) (x : Hart) : (s.setHart h x).repair = s.repair := rfl
@[simp] theorem State.setHart_bringup (s : State) (h : Nat) (x : Hart) : (s.setHart h x).bringup = s.bringup := rfl
@[simp] theorem State.setHart_dumpAddr (s : State) (h : Nat) (x : Hart) : (s.setHart h x).dumpAddr = s.dumpAddr := rfl
@[simp] theorem State.setHart_linkUp (s : State) (h : Nat) (x : Hart) : (s.setHart h x).linkUp = s.linkUp := rfl
@[simp] theorem State.setHart_image (s : State) (h : Nat) (x : Hart) : (s.setHart h x).image = s.image := rfl
@[simp] theorem State.setHart_spdm (s : State) (h : Nat) (x : Hart) : (s.setHart h x).spdm = s.spdm := rfl
@[simp] theorem State.setHart_spdmAnswer (s : State) (h : Nat) (x : Hart) : (s.setHart h x).spdmAnswer = s.spdmAnswer := rfl
@[simp] theorem State.setHart_ports (s : State) (h : Nat) (x : Hart) : (s.setHart h x).ports = s.ports := rfl
@[simp] theorem State.setHart_bands (s : State) (h : Nat) (x : Hart) : (s.setHart h x).bands = s.bands := rfl
@[simp] theorem State.setHart_fatal (s : State) (h : Nat) (x : Hart) : (s.setHart h x).fatal = s.fatal := rfl
@[simp] theorem State.setHart_flips (s : State) (h : Nat) (x : Hart) : (s.setHart h x).flips = s.flips := rfl
@[simp] theorem State.setHart_descs (s : State) (h : Nat) (x : Hart) : (s.setHart h x).descs = s.descs := rfl
@[simp] theorem State.setHart_drainBad (s : State) (h : Nat) (x : Hart) : (s.setHart h x).drainBad = s.drainBad := rfl
@[simp] theorem State.setHart_notified (s : State) (h : Nat) (x : Hart) : (s.setHart h x).notified = s.notified := rfl
@[simp] theorem State.setHart_parked (s : State) (h : Nat) (x : Hart) : (s.setHart h x).parked = s.parked := rfl
@[simp] theorem State.setHart_tasks (s : State) (h : Nat) (x : Hart) : (s.setHart h x).tasks = s.tasks := rfl
@[simp] theorem State.setHart_ids (s : State) (h : Nat) (x : Hart) : (s.setHart h x).ids = s.ids := rfl
@[simp] theorem State.setHart_cur (s : State) (h : Nat) (x : Hart) : (s.setHart h x).cur = s.cur := rfl
@[simp] theorem State.setHart_agenda (s : State) (h : Nat) (x : Hart) : (s.setHart h x).agenda = s.agenda := rfl
@[simp] theorem State.setHart_fresh (s : State) (h : Nat) (x : Hart) : (s.setHart h x).fresh = s.fresh := rfl
@[simp] theorem State.setHart_epoch (s : State) (h : Nat) (x : Hart) : (s.setHart h x).epoch = s.epoch := rfl
@[simp] theorem State.setHart_want (s : State) (h : Nat) (x : Hart) : (s.setHart h x).want = s.want := rfl

/-! ## State.setCore -/

@[simp] theorem State.setCore_harts (s : State) (c : Nat) (x : Core) : (s.setCore c x).harts = s.harts := rfl
@[simp] theorem State.setCore_dies (s : State) (c : Nat) (x : Core) : (s.setCore c x).dies = s.dies := rfl
@[simp] theorem State.setCore_mem (s : State) (c : Nat) (x : Core) : (s.setCore c x).mem = s.mem := rfl
@[simp] theorem State.setCore_bad (s : State) (c : Nat) (x : Core) : (s.setCore c x).bad = s.bad := rfl
@[simp] theorem State.setCore_tables (s : State) (c : Nat) (x : Core) : (s.setCore c x).tables = s.tables := rfl
@[simp] theorem State.setCore_regs (s : State) (c : Nat) (x : Core) : (s.setCore c x).regs = s.regs := rfl
@[simp] theorem State.setCore_atoms (s : State) (c : Nat) (x : Core) : (s.setCore c x).atoms = s.atoms := rfl
@[simp] theorem State.setCore_ras (s : State) (c : Nat) (x : Core) : (s.setCore c x).ras = s.ras := rfl
@[simp] theorem State.setCore_sends (s : State) (c : Nat) (x : Core) : (s.setCore c x).sends = s.sends := rfl
@[simp] theorem State.setCore_bias (s : State) (c : Nat) (x : Core) : (s.setCore c x).bias = s.bias := rfl
@[simp] theorem State.setCore_hostLines (s : State) (c : Nat) (x : Core) : (s.setCore c x).hostLines = s.hostLines := rfl
@[simp] theorem State.setCore_snoops (s : State) (c : Nat) (x : Core) : (s.setCore c x).snoops = s.snoops := rfl
@[simp] theorem State.setCore_hostRead (s : State) (c : Nat) (x : Core) : (s.setCore c x).hostRead = s.hostRead := rfl
@[simp] theorem State.setCore_packs (s : State) (c : Nat) (x : Core) : (s.setCore c x).packs = s.packs := rfl
@[simp] theorem State.setCore_packWaits (s : State) (c : Nat) (x : Core) : (s.setCore c x).packWaits = s.packWaits := rfl
@[simp] theorem State.setCore_holds (s : State) (c : Nat) (x : Core) : (s.setCore c x).holds = s.holds := rfl
@[simp] theorem State.setCore_heldPuts (s : State) (c : Nat) (x : Core) : (s.setCore c x).heldPuts = s.heldPuts := rfl
@[simp] theorem State.setCore_filters (s : State) (c : Nat) (x : Core) : (s.setCore c x).filters = s.filters := rfl
@[simp] theorem State.setCore_gtime (s : State) (c : Nat) (x : Core) : (s.setCore c x).gtime = s.gtime := rfl
@[simp] theorem State.setCore_repair (s : State) (c : Nat) (x : Core) : (s.setCore c x).repair = s.repair := rfl
@[simp] theorem State.setCore_bringup (s : State) (c : Nat) (x : Core) : (s.setCore c x).bringup = s.bringup := rfl
@[simp] theorem State.setCore_dumpAddr (s : State) (c : Nat) (x : Core) : (s.setCore c x).dumpAddr = s.dumpAddr := rfl
@[simp] theorem State.setCore_linkUp (s : State) (c : Nat) (x : Core) : (s.setCore c x).linkUp = s.linkUp := rfl
@[simp] theorem State.setCore_image (s : State) (c : Nat) (x : Core) : (s.setCore c x).image = s.image := rfl
@[simp] theorem State.setCore_spdm (s : State) (c : Nat) (x : Core) : (s.setCore c x).spdm = s.spdm := rfl
@[simp] theorem State.setCore_spdmAnswer (s : State) (c : Nat) (x : Core) : (s.setCore c x).spdmAnswer = s.spdmAnswer := rfl
@[simp] theorem State.setCore_ports (s : State) (c : Nat) (x : Core) : (s.setCore c x).ports = s.ports := rfl
@[simp] theorem State.setCore_bands (s : State) (c : Nat) (x : Core) : (s.setCore c x).bands = s.bands := rfl
@[simp] theorem State.setCore_fatal (s : State) (c : Nat) (x : Core) : (s.setCore c x).fatal = s.fatal := rfl
@[simp] theorem State.setCore_flips (s : State) (c : Nat) (x : Core) : (s.setCore c x).flips = s.flips := rfl
@[simp] theorem State.setCore_descs (s : State) (c : Nat) (x : Core) : (s.setCore c x).descs = s.descs := rfl
@[simp] theorem State.setCore_drainBad (s : State) (c : Nat) (x : Core) : (s.setCore c x).drainBad = s.drainBad := rfl
@[simp] theorem State.setCore_notified (s : State) (c : Nat) (x : Core) : (s.setCore c x).notified = s.notified := rfl
@[simp] theorem State.setCore_parked (s : State) (c : Nat) (x : Core) : (s.setCore c x).parked = s.parked := rfl
@[simp] theorem State.setCore_tasks (s : State) (c : Nat) (x : Core) : (s.setCore c x).tasks = s.tasks := rfl
@[simp] theorem State.setCore_ids (s : State) (c : Nat) (x : Core) : (s.setCore c x).ids = s.ids := rfl
@[simp] theorem State.setCore_cur (s : State) (c : Nat) (x : Core) : (s.setCore c x).cur = s.cur := rfl
@[simp] theorem State.setCore_agenda (s : State) (c : Nat) (x : Core) : (s.setCore c x).agenda = s.agenda := rfl
@[simp] theorem State.setCore_fresh (s : State) (c : Nat) (x : Core) : (s.setCore c x).fresh = s.fresh := rfl
@[simp] theorem State.setCore_epoch (s : State) (c : Nat) (x : Core) : (s.setCore c x).epoch = s.epoch := rfl
@[simp] theorem State.setCore_want (s : State) (c : Nat) (x : Core) : (s.setCore c x).want = s.want := rfl

/-! ## State.setDie -/

@[simp] theorem State.setDie_harts (s : State) (d : Nat) (x : Die) : (s.setDie d x).harts = s.harts := rfl
@[simp] theorem State.setDie_cores (s : State) (d : Nat) (x : Die) : (s.setDie d x).cores = s.cores := rfl
@[simp] theorem State.setDie_mem (s : State) (d : Nat) (x : Die) : (s.setDie d x).mem = s.mem := rfl
@[simp] theorem State.setDie_bad (s : State) (d : Nat) (x : Die) : (s.setDie d x).bad = s.bad := rfl
@[simp] theorem State.setDie_tables (s : State) (d : Nat) (x : Die) : (s.setDie d x).tables = s.tables := rfl
@[simp] theorem State.setDie_regs (s : State) (d : Nat) (x : Die) : (s.setDie d x).regs = s.regs := rfl
@[simp] theorem State.setDie_atoms (s : State) (d : Nat) (x : Die) : (s.setDie d x).atoms = s.atoms := rfl
@[simp] theorem State.setDie_ras (s : State) (d : Nat) (x : Die) : (s.setDie d x).ras = s.ras := rfl
@[simp] theorem State.setDie_sends (s : State) (d : Nat) (x : Die) : (s.setDie d x).sends = s.sends := rfl
@[simp] theorem State.setDie_bias (s : State) (d : Nat) (x : Die) : (s.setDie d x).bias = s.bias := rfl
@[simp] theorem State.setDie_hostLines (s : State) (d : Nat) (x : Die) : (s.setDie d x).hostLines = s.hostLines := rfl
@[simp] theorem State.setDie_snoops (s : State) (d : Nat) (x : Die) : (s.setDie d x).snoops = s.snoops := rfl
@[simp] theorem State.setDie_hostRead (s : State) (d : Nat) (x : Die) : (s.setDie d x).hostRead = s.hostRead := rfl
@[simp] theorem State.setDie_packs (s : State) (d : Nat) (x : Die) : (s.setDie d x).packs = s.packs := rfl
@[simp] theorem State.setDie_packWaits (s : State) (d : Nat) (x : Die) : (s.setDie d x).packWaits = s.packWaits := rfl
@[simp] theorem State.setDie_holds (s : State) (d : Nat) (x : Die) : (s.setDie d x).holds = s.holds := rfl
@[simp] theorem State.setDie_heldPuts (s : State) (d : Nat) (x : Die) : (s.setDie d x).heldPuts = s.heldPuts := rfl
@[simp] theorem State.setDie_filters (s : State) (d : Nat) (x : Die) : (s.setDie d x).filters = s.filters := rfl
@[simp] theorem State.setDie_gtime (s : State) (d : Nat) (x : Die) : (s.setDie d x).gtime = s.gtime := rfl
@[simp] theorem State.setDie_repair (s : State) (d : Nat) (x : Die) : (s.setDie d x).repair = s.repair := rfl
@[simp] theorem State.setDie_bringup (s : State) (d : Nat) (x : Die) : (s.setDie d x).bringup = s.bringup := rfl
@[simp] theorem State.setDie_dumpAddr (s : State) (d : Nat) (x : Die) : (s.setDie d x).dumpAddr = s.dumpAddr := rfl
@[simp] theorem State.setDie_linkUp (s : State) (d : Nat) (x : Die) : (s.setDie d x).linkUp = s.linkUp := rfl
@[simp] theorem State.setDie_image (s : State) (d : Nat) (x : Die) : (s.setDie d x).image = s.image := rfl
@[simp] theorem State.setDie_spdm (s : State) (d : Nat) (x : Die) : (s.setDie d x).spdm = s.spdm := rfl
@[simp] theorem State.setDie_spdmAnswer (s : State) (d : Nat) (x : Die) : (s.setDie d x).spdmAnswer = s.spdmAnswer := rfl
@[simp] theorem State.setDie_ports (s : State) (d : Nat) (x : Die) : (s.setDie d x).ports = s.ports := rfl
@[simp] theorem State.setDie_bands (s : State) (d : Nat) (x : Die) : (s.setDie d x).bands = s.bands := rfl
@[simp] theorem State.setDie_fatal (s : State) (d : Nat) (x : Die) : (s.setDie d x).fatal = s.fatal := rfl
@[simp] theorem State.setDie_flips (s : State) (d : Nat) (x : Die) : (s.setDie d x).flips = s.flips := rfl
@[simp] theorem State.setDie_descs (s : State) (d : Nat) (x : Die) : (s.setDie d x).descs = s.descs := rfl
@[simp] theorem State.setDie_drainBad (s : State) (d : Nat) (x : Die) : (s.setDie d x).drainBad = s.drainBad := rfl
@[simp] theorem State.setDie_notified (s : State) (d : Nat) (x : Die) : (s.setDie d x).notified = s.notified := rfl
@[simp] theorem State.setDie_parked (s : State) (d : Nat) (x : Die) : (s.setDie d x).parked = s.parked := rfl
@[simp] theorem State.setDie_tasks (s : State) (d : Nat) (x : Die) : (s.setDie d x).tasks = s.tasks := rfl
@[simp] theorem State.setDie_ids (s : State) (d : Nat) (x : Die) : (s.setDie d x).ids = s.ids := rfl
@[simp] theorem State.setDie_cur (s : State) (d : Nat) (x : Die) : (s.setDie d x).cur = s.cur := rfl
@[simp] theorem State.setDie_agenda (s : State) (d : Nat) (x : Die) : (s.setDie d x).agenda = s.agenda := rfl
@[simp] theorem State.setDie_fresh (s : State) (d : Nat) (x : Die) : (s.setDie d x).fresh = s.fresh := rfl
@[simp] theorem State.setDie_epoch (s : State) (d : Nat) (x : Die) : (s.setDie d x).epoch = s.epoch := rfl
@[simp] theorem State.setDie_want (s : State) (d : Nat) (x : Die) : (s.setDie d x).want = s.want := rfl

/-! ## State.happen -/

@[simp] theorem State.happen_harts (s : State)  : (s.happen).harts = s.harts := rfl
@[simp] theorem State.happen_cores (s : State)  : (s.happen).cores = s.cores := rfl
@[simp] theorem State.happen_dies (s : State)  : (s.happen).dies = s.dies := rfl
@[simp] theorem State.happen_mem (s : State)  : (s.happen).mem = s.mem := rfl
@[simp] theorem State.happen_bad (s : State)  : (s.happen).bad = s.bad := rfl
@[simp] theorem State.happen_tables (s : State)  : (s.happen).tables = s.tables := rfl
@[simp] theorem State.happen_regs (s : State)  : (s.happen).regs = s.regs := rfl
@[simp] theorem State.happen_atoms (s : State)  : (s.happen).atoms = s.atoms := rfl
@[simp] theorem State.happen_ras (s : State)  : (s.happen).ras = s.ras := rfl
@[simp] theorem State.happen_sends (s : State)  : (s.happen).sends = s.sends := rfl
@[simp] theorem State.happen_bias (s : State)  : (s.happen).bias = s.bias := rfl
@[simp] theorem State.happen_hostLines (s : State)  : (s.happen).hostLines = s.hostLines := rfl
@[simp] theorem State.happen_snoops (s : State)  : (s.happen).snoops = s.snoops := rfl
@[simp] theorem State.happen_hostRead (s : State)  : (s.happen).hostRead = s.hostRead := rfl
@[simp] theorem State.happen_packs (s : State)  : (s.happen).packs = s.packs := rfl
@[simp] theorem State.happen_packWaits (s : State)  : (s.happen).packWaits = s.packWaits := rfl
@[simp] theorem State.happen_holds (s : State)  : (s.happen).holds = s.holds := rfl
@[simp] theorem State.happen_heldPuts (s : State)  : (s.happen).heldPuts = s.heldPuts := rfl
@[simp] theorem State.happen_filters (s : State)  : (s.happen).filters = s.filters := rfl
@[simp] theorem State.happen_gtime (s : State)  : (s.happen).gtime = s.gtime := rfl
@[simp] theorem State.happen_repair (s : State)  : (s.happen).repair = s.repair := rfl
@[simp] theorem State.happen_bringup (s : State)  : (s.happen).bringup = s.bringup := rfl
@[simp] theorem State.happen_dumpAddr (s : State)  : (s.happen).dumpAddr = s.dumpAddr := rfl
@[simp] theorem State.happen_linkUp (s : State)  : (s.happen).linkUp = s.linkUp := rfl
@[simp] theorem State.happen_image (s : State)  : (s.happen).image = s.image := rfl
@[simp] theorem State.happen_spdm (s : State)  : (s.happen).spdm = s.spdm := rfl
@[simp] theorem State.happen_spdmAnswer (s : State)  : (s.happen).spdmAnswer = s.spdmAnswer := rfl
@[simp] theorem State.happen_ports (s : State)  : (s.happen).ports = s.ports := rfl
@[simp] theorem State.happen_bands (s : State)  : (s.happen).bands = s.bands := rfl
@[simp] theorem State.happen_fatal (s : State)  : (s.happen).fatal = s.fatal := rfl
@[simp] theorem State.happen_flips (s : State)  : (s.happen).flips = s.flips := rfl
@[simp] theorem State.happen_descs (s : State)  : (s.happen).descs = s.descs := rfl
@[simp] theorem State.happen_drainBad (s : State)  : (s.happen).drainBad = s.drainBad := rfl
@[simp] theorem State.happen_notified (s : State)  : (s.happen).notified = s.notified := rfl
@[simp] theorem State.happen_parked (s : State)  : (s.happen).parked = s.parked := rfl
@[simp] theorem State.happen_tasks (s : State)  : (s.happen).tasks = s.tasks := rfl
@[simp] theorem State.happen_ids (s : State)  : (s.happen).ids = s.ids := rfl
@[simp] theorem State.happen_cur (s : State)  : (s.happen).cur = s.cur := rfl
@[simp] theorem State.happen_agenda (s : State)  : (s.happen).agenda = s.agenda := rfl
@[simp] theorem State.happen_fresh (s : State)  : (s.happen).fresh = s.fresh := rfl
@[simp] theorem State.happen_want (s : State)  : (s.happen).want = s.want := rfl

/-! ## State.memPut -/

@[simp] theorem State.memPut_harts (s : State) (a : Nat) (bs : List Byte) : (s.memPut a bs).harts = s.harts := rfl
@[simp] theorem State.memPut_cores (s : State) (a : Nat) (bs : List Byte) : (s.memPut a bs).cores = s.cores := rfl
@[simp] theorem State.memPut_dies (s : State) (a : Nat) (bs : List Byte) : (s.memPut a bs).dies = s.dies := rfl
@[simp] theorem State.memPut_tables (s : State) (a : Nat) (bs : List Byte) : (s.memPut a bs).tables = s.tables := rfl
@[simp] theorem State.memPut_regs (s : State) (a : Nat) (bs : List Byte) : (s.memPut a bs).regs = s.regs := rfl
@[simp] theorem State.memPut_atoms (s : State) (a : Nat) (bs : List Byte) : (s.memPut a bs).atoms = s.atoms := rfl
@[simp] theorem State.memPut_ras (s : State) (a : Nat) (bs : List Byte) : (s.memPut a bs).ras = s.ras := rfl
@[simp] theorem State.memPut_sends (s : State) (a : Nat) (bs : List Byte) : (s.memPut a bs).sends = s.sends := rfl
@[simp] theorem State.memPut_bias (s : State) (a : Nat) (bs : List Byte) : (s.memPut a bs).bias = s.bias := rfl
@[simp] theorem State.memPut_hostLines (s : State) (a : Nat) (bs : List Byte) : (s.memPut a bs).hostLines = s.hostLines := rfl
@[simp] theorem State.memPut_snoops (s : State) (a : Nat) (bs : List Byte) : (s.memPut a bs).snoops = s.snoops := rfl
@[simp] theorem State.memPut_hostRead (s : State) (a : Nat) (bs : List Byte) : (s.memPut a bs).hostRead = s.hostRead := rfl
@[simp] theorem State.memPut_packs (s : State) (a : Nat) (bs : List Byte) : (s.memPut a bs).packs = s.packs := rfl
@[simp] theorem State.memPut_packWaits (s : State) (a : Nat) (bs : List Byte) : (s.memPut a bs).packWaits = s.packWaits := rfl
@[simp] theorem State.memPut_holds (s : State) (a : Nat) (bs : List Byte) : (s.memPut a bs).holds = s.holds := rfl
@[simp] theorem State.memPut_heldPuts (s : State) (a : Nat) (bs : List Byte) : (s.memPut a bs).heldPuts = s.heldPuts := rfl
@[simp] theorem State.memPut_filters (s : State) (a : Nat) (bs : List Byte) : (s.memPut a bs).filters = s.filters := rfl
@[simp] theorem State.memPut_gtime (s : State) (a : Nat) (bs : List Byte) : (s.memPut a bs).gtime = s.gtime := rfl
@[simp] theorem State.memPut_repair (s : State) (a : Nat) (bs : List Byte) : (s.memPut a bs).repair = s.repair := rfl
@[simp] theorem State.memPut_bringup (s : State) (a : Nat) (bs : List Byte) : (s.memPut a bs).bringup = s.bringup := rfl
@[simp] theorem State.memPut_dumpAddr (s : State) (a : Nat) (bs : List Byte) : (s.memPut a bs).dumpAddr = s.dumpAddr := rfl
@[simp] theorem State.memPut_linkUp (s : State) (a : Nat) (bs : List Byte) : (s.memPut a bs).linkUp = s.linkUp := rfl
@[simp] theorem State.memPut_image (s : State) (a : Nat) (bs : List Byte) : (s.memPut a bs).image = s.image := rfl
@[simp] theorem State.memPut_spdm (s : State) (a : Nat) (bs : List Byte) : (s.memPut a bs).spdm = s.spdm := rfl
@[simp] theorem State.memPut_spdmAnswer (s : State) (a : Nat) (bs : List Byte) : (s.memPut a bs).spdmAnswer = s.spdmAnswer := rfl
@[simp] theorem State.memPut_ports (s : State) (a : Nat) (bs : List Byte) : (s.memPut a bs).ports = s.ports := rfl
@[simp] theorem State.memPut_bands (s : State) (a : Nat) (bs : List Byte) : (s.memPut a bs).bands = s.bands := rfl
@[simp] theorem State.memPut_fatal (s : State) (a : Nat) (bs : List Byte) : (s.memPut a bs).fatal = s.fatal := rfl
@[simp] theorem State.memPut_flips (s : State) (a : Nat) (bs : List Byte) : (s.memPut a bs).flips = s.flips := rfl
@[simp] theorem State.memPut_descs (s : State) (a : Nat) (bs : List Byte) : (s.memPut a bs).descs = s.descs := rfl
@[simp] theorem State.memPut_drainBad (s : State) (a : Nat) (bs : List Byte) : (s.memPut a bs).drainBad = s.drainBad := rfl
@[simp] theorem State.memPut_notified (s : State) (a : Nat) (bs : List Byte) : (s.memPut a bs).notified = s.notified := rfl
@[simp] theorem State.memPut_parked (s : State) (a : Nat) (bs : List Byte) : (s.memPut a bs).parked = s.parked := rfl
@[simp] theorem State.memPut_tasks (s : State) (a : Nat) (bs : List Byte) : (s.memPut a bs).tasks = s.tasks := rfl
@[simp] theorem State.memPut_ids (s : State) (a : Nat) (bs : List Byte) : (s.memPut a bs).ids = s.ids := rfl
@[simp] theorem State.memPut_cur (s : State) (a : Nat) (bs : List Byte) : (s.memPut a bs).cur = s.cur := rfl
@[simp] theorem State.memPut_agenda (s : State) (a : Nat) (bs : List Byte) : (s.memPut a bs).agenda = s.agenda := rfl
@[simp] theorem State.memPut_fresh (s : State) (a : Nat) (bs : List Byte) : (s.memPut a bs).fresh = s.fresh := rfl
@[simp] theorem State.memPut_epoch (s : State) (a : Nat) (bs : List Byte) : (s.memPut a bs).epoch = s.epoch := rfl
@[simp] theorem State.memPut_want (s : State) (a : Nat) (bs : List Byte) : (s.memPut a bs).want = s.want := rfl

/-! ## The updates through a function -/

@[simp] theorem State.modHart_eq (s : State) (h : Nat) (f : Hart → Hart) : s.modHart h f = s.setHart h (f (s.hart h)) := rfl
@[simp] theorem State.modCore_eq (s : State) (c : Nat) (f : Core → Core) : s.modCore c f = s.setCore c (f (s.core c)) := rfl
@[simp] theorem State.modDie_eq (s : State) (d : Nat) (f : Die → Die) : s.modDie d f = s.setDie d (f (s.die d)) := rfl

/-! ## Components that another component's update leaves as they were -/

@[simp] theorem State.setHart_core (s : State) (h : Nat) (x : Hart) (k : Nat) : (s.setHart h x).core k = s.core k := rfl
@[simp] theorem State.setHart_die (s : State) (h : Nat) (x : Hart) (k : Nat) : (s.setHart h x).die k = s.die k := rfl
@[simp] theorem State.setCore_hart (s : State) (c : Nat) (x : Core) (k : Nat) : (s.setCore c x).hart k = s.hart k := rfl
@[simp] theorem State.setCore_die (s : State) (c : Nat) (x : Core) (k : Nat) : (s.setCore c x).die k = s.die k := rfl
@[simp] theorem State.setDie_hart (s : State) (d : Nat) (x : Die) (k : Nat) : (s.setDie d x).hart k = s.hart k := rfl
@[simp] theorem State.setDie_core (s : State) (d : Nat) (x : Die) (k : Nat) : (s.setDie d x).core k = s.core k := rfl
@[simp] theorem State.happen_hart (s : State)  (k : Nat) : (s.happen).hart k = s.hart k := rfl
@[simp] theorem State.happen_core (s : State)  (k : Nat) : (s.happen).core k = s.core k := rfl
@[simp] theorem State.happen_die (s : State)  (k : Nat) : (s.happen).die k = s.die k := rfl
@[simp] theorem State.memPut_hart (s : State) (a : Nat) (bs : List Byte) (k : Nat) : (s.memPut a bs).hart k = s.hart k := rfl
@[simp] theorem State.memPut_core (s : State) (a : Nat) (bs : List Byte) (k : Nat) : (s.memPut a bs).core k = s.core k := rfl
@[simp] theorem State.memPut_die (s : State) (a : Nat) (bs : List Byte) (k : Nat) : (s.memPut a bs).die k = s.die k := rfl

/-! ## Hart.orFlags -/

@[simp] theorem Hart.orFlags_s (s : Hart) (f : BitVec 7) : (s.orFlags f).s = s.s := rfl
@[simp] theorem Hart.orFlags_shadow (s : Hart) (f : BitVec 7) : (s.orFlags f).shadow = s.shadow := rfl
@[simp] theorem Hart.orFlags_swapped (s : Hart) (f : BitVec 7) : (s.orFlags f).swapped = s.swapped := rfl
@[simp] theorem Hart.orFlags_sbad (s : Hart) (f : BitVec 7) : (s.orFlags f).sbad = s.sbad := rfl
@[simp] theorem Hart.orFlags_shbad (s : Hart) (f : BitVec 7) : (s.orFlags f).shbad = s.shbad := rfl
@[simp] theorem Hart.orFlags_pc (s : Hart) (f : BitVec 7) : (s.orFlags f).pc = s.pc := rfl
@[simp] theorem Hart.orFlags_priv (s : Hart) (f : BitVec 7) : (s.orFlags f).priv = s.priv := rfl
@[simp] theorem Hart.orFlags_task (s : Hart) (f : BitVec 7) : (s.orFlags f).task = s.task := rfl
@[simp] theorem Hart.orFlags_started (s : Hart) (f : BitVec 7) : (s.orFlags f).started = s.started := rfl
@[simp] theorem Hart.orFlags_v (s : Hart) (f : BitVec 7) : (s.orFlags f).v = s.v := rfl
@[simp] theorem Hart.orFlags_vbad (s : Hart) (f : BitVec 7) : (s.orFlags f).vbad = s.vbad := rfl
@[simp] theorem Hart.orFlags_dirty (s : Hart) (f : BitVec 7) : (s.orFlags f).dirty = s.dirty := rfl
@[simp] theorem Hart.orFlags_restored (s : Hart) (f : BitVec 7) : (s.orFlags f).restored = s.restored := rfl
@[simp] theorem Hart.orFlags_m (s : Hart) (f : BitVec 7) : (s.orFlags f).m = s.m := rfl
@[simp] theorem Hart.orFlags_w (s : Hart) (f : BitVec 7) : (s.orFlags f).w = s.w := rfl
@[simp] theorem Hart.orFlags_tl (s : Hart) (f : BitVec 7) : (s.orFlags f).tl = s.tl := rfl
@[simp] theorem Hart.orFlags_vl (s : Hart) (f : BitVec 7) : (s.orFlags f).vl = s.vl := rfl
@[simp] theorem Hart.orFlags_vew (s : Hart) (f : BitVec 7) : (s.orFlags f).vew = s.vew := rfl
@[simp] theorem Hart.orFlags_nvreg (s : Hart) (f : BitVec 7) : (s.orFlags f).nvreg = s.nvreg := rfl
@[simp] theorem Hart.orFlags_mt (s : Hart) (f : BitVec 7) : (s.orFlags f).mt = s.mt := rfl
@[simp] theorem Hart.orFlags_sb (s : Hart) (f : BitVec 7) : (s.orFlags f).sb = s.sb := rfl
@[simp] theorem Hart.orFlags_seed (s : Hart) (f : BitVec 7) : (s.orFlags f).seed = s.seed := rfl
@[simp] theorem Hart.orFlags_vstart (s : Hart) (f : BitVec 7) : (s.orFlags f).vstart = s.vstart := rfl
@[simp] theorem Hart.orFlags_frm (s : Hart) (f : BitVec 7) : (s.orFlags f).frm = s.frm := rfl
@[simp] theorem Hart.orFlags_atflags (s : Hart) (f : BitVec 7) : (s.orFlags f).atflags = s.atflags := rfl
@[simp] theorem Hart.orFlags_fenced (s : Hart) (f : BitVec 7) : (s.orFlags f).fenced = s.fenced := rfl
@[simp] theorem Hart.orFlags_mleash (s : Hart) (f : BitVec 7) : (s.orFlags f).mleash = s.mleash := rfl
@[simp] theorem Hart.orFlags_lease (s : Hart) (f : BitVec 7) : (s.orFlags f).lease = s.lease := rfl
@[simp] theorem Hart.orFlags_prio (s : Hart) (f : BitVec 7) : (s.orFlags f).prio = s.prio := rfl
@[simp] theorem Hart.orFlags_lcr (s : Hart) (f : BitVec 7) : (s.orFlags f).lcr = s.lcr := rfl
@[simp] theorem Hart.orFlags_stvec (s : Hart) (f : BitVec 7) : (s.orFlags f).stvec = s.stvec := rfl
@[simp] theorem Hart.orFlags_sepc (s : Hart) (f : BitVec 7) : (s.orFlags f).sepc = s.sepc := rfl
@[simp] theorem Hart.orFlags_scause (s : Hart) (f : BitVec 7) : (s.orFlags f).scause = s.scause := rfl
@[simp] theorem Hart.orFlags_stval (s : Hart) (f : BitVec 7) : (s.orFlags f).stval = s.stval := rfl
@[simp] theorem Hart.orFlags_sstatus (s : Hart) (f : BitVec 7) : (s.orFlags f).sstatus = s.sstatus := rfl
@[simp] theorem Hart.orFlags_satp (s : Hart) (f : BitVec 7) : (s.orFlags f).satp = s.satp := rfl
@[simp] theorem Hart.orFlags_sstart (s : Hart) (f : BitVec 7) : (s.orFlags f).sstart = s.sstart := rfl
@[simp] theorem Hart.orFlags_trapStatus (s : Hart) (f : BitVec 7) : (s.orFlags f).trapStatus = s.trapStatus := rfl
@[simp] theorem Hart.orFlags_trapWord (s : Hart) (f : BitVec 7) : (s.orFlags f).trapWord = s.trapWord := rfl
@[simp] theorem Hart.orFlags_trapTime (s : Hart) (f : BitVec 7) : (s.orFlags f).trapTime = s.trapTime := rfl
@[simp] theorem Hart.orFlags_trapDest (s : Hart) (f : BitVec 7) : (s.orFlags f).trapDest = s.trapDest := rfl
@[simp] theorem Hart.orFlags_pend (s : Hart) (f : BitVec 7) : (s.orFlags f).pend = s.pend := rfl
@[simp] theorem Hart.orFlags_asyncs (s : Hart) (f : BitVec 7) : (s.orFlags f).asyncs = s.asyncs := rfl
@[simp] theorem Hart.orFlags_stop (s : Hart) (f : BitVec 7) : (s.orFlags f).stop = s.stop := rfl
@[simp] theorem Hart.orFlags_chain (s : Hart) (f : BitVec 7) : (s.orFlags f).chain = s.chain := rfl
@[simp] theorem Hart.orFlags_sbuf (s : Hart) (f : BitVec 7) : (s.orFlags f).sbuf = s.sbuf := rfl
@[simp] theorem Hart.orFlags_vq (s : Hart) (f : BitVec 7) : (s.orFlags f).vq = s.vq := rfl
@[simp] theorem Hart.orFlags_run (s : Hart) (f : BitVec 7) : (s.orFlags f).run = s.run := rfl
@[simp] theorem Hart.orFlags_early (s : Hart) (f : BitVec 7) : (s.orFlags f).early = s.early := rfl
@[simp] theorem Hart.orFlags_linked (s : Hart) (f : BitVec 7) : (s.orFlags f).linked = s.linked := rfl
@[simp] theorem Hart.orFlags_elems (s : Hart) (f : BitVec 7) : (s.orFlags f).elems = s.elems := rfl
@[simp] theorem Hart.orFlags_tents (s : Hart) (f : BitVec 7) : (s.orFlags f).tents = s.tents := rfl
@[simp] theorem Hart.orFlags_streams (s : Hart) (f : BitVec 7) : (s.orFlags f).streams = s.streams := rfl
@[simp] theorem Hart.orFlags_landing (s : Hart) (f : BitVec 7) : (s.orFlags f).landing = s.landing := rfl
@[simp] theorem Hart.orFlags_mark (s : Hart) (f : BitVec 7) : (s.orFlags f).mark = s.mark := rfl
@[simp] theorem Hart.orFlags_aheads (s : Hart) (f : BitVec 7) : (s.orFlags f).aheads = s.aheads := rfl
@[simp] theorem Hart.orFlags_pack (s : Hart) (f : BitVec 7) : (s.orFlags f).pack = s.pack := rfl
@[simp] theorem Hart.orFlags_ctxArea (s : Hart) (f : BitVec 7) : (s.orFlags f).ctxArea = s.ctxArea := rfl
@[simp] theorem Hart.orFlags_saved (s : Hart) (f : BitVec 7) : (s.orFlags f).saved = s.saved := rfl
@[simp] theorem Hart.orFlags_loading (s : Hart) (f : BitVec 7) : (s.orFlags f).loading = s.loading := rfl
@[simp] theorem Hart.orFlags_wait (s : Hart) (f : BitVec 7) : (s.orFlags f).wait = s.wait := rfl
@[simp] theorem Hart.orFlags_item (s : Hart) (f : BitVec 7) : (s.orFlags f).item = s.item := rfl
@[simp] theorem Hart.orFlags_iword (s : Hart) (f : BitVec 7) : (s.orFlags f).iword = s.iword := rfl
@[simp] theorem Hart.orFlags_gto (s : Hart) (f : BitVec 7) : (s.orFlags f).gto = s.gto := rfl
@[simp] theorem Hart.orFlags_busy (s : Hart) (f : BitVec 7) : (s.orFlags f).busy = s.busy := rfl
@[simp] theorem Hart.orFlags_vdue (s : Hart) (f : BitVec 7) : (s.orFlags f).vdue = s.vdue := rfl
@[simp] theorem Hart.orFlags_passed (s : Hart) (f : BitVec 7) : (s.orFlags f).passed = s.passed := rfl
@[simp] theorem Hart.orFlags_progress (s : Hart) (f : BitVec 7) : (s.orFlags f).progress = s.progress := rfl
@[simp] theorem Hart.orFlags_reported (s : Hart) (f : BitVec 7) : (s.orFlags f).reported = s.reported := rfl
@[simp] theorem Hart.orFlags_brkAfter (s : Hart) (f : BitVec 7) : (s.orFlags f).brkAfter = s.brkAfter := rfl

/-! ## Hart.setTline -/

@[simp] theorem Hart.setTline_s (s : Hart) (k : Nat) (t : Timeline) : (s.setTline k t).s = s.s := rfl
@[simp] theorem Hart.setTline_shadow (s : Hart) (k : Nat) (t : Timeline) : (s.setTline k t).shadow = s.shadow := rfl
@[simp] theorem Hart.setTline_swapped (s : Hart) (k : Nat) (t : Timeline) : (s.setTline k t).swapped = s.swapped := rfl
@[simp] theorem Hart.setTline_sbad (s : Hart) (k : Nat) (t : Timeline) : (s.setTline k t).sbad = s.sbad := rfl
@[simp] theorem Hart.setTline_shbad (s : Hart) (k : Nat) (t : Timeline) : (s.setTline k t).shbad = s.shbad := rfl
@[simp] theorem Hart.setTline_pc (s : Hart) (k : Nat) (t : Timeline) : (s.setTline k t).pc = s.pc := rfl
@[simp] theorem Hart.setTline_priv (s : Hart) (k : Nat) (t : Timeline) : (s.setTline k t).priv = s.priv := rfl
@[simp] theorem Hart.setTline_task (s : Hart) (k : Nat) (t : Timeline) : (s.setTline k t).task = s.task := rfl
@[simp] theorem Hart.setTline_started (s : Hart) (k : Nat) (t : Timeline) : (s.setTline k t).started = s.started := rfl
@[simp] theorem Hart.setTline_v (s : Hart) (k : Nat) (t : Timeline) : (s.setTline k t).v = s.v := rfl
@[simp] theorem Hart.setTline_vbad (s : Hart) (k : Nat) (t : Timeline) : (s.setTline k t).vbad = s.vbad := rfl
@[simp] theorem Hart.setTline_dirty (s : Hart) (k : Nat) (t : Timeline) : (s.setTline k t).dirty = s.dirty := rfl
@[simp] theorem Hart.setTline_restored (s : Hart) (k : Nat) (t : Timeline) : (s.setTline k t).restored = s.restored := rfl
@[simp] theorem Hart.setTline_m (s : Hart) (k : Nat) (t : Timeline) : (s.setTline k t).m = s.m := rfl
@[simp] theorem Hart.setTline_w (s : Hart) (k : Nat) (t : Timeline) : (s.setTline k t).w = s.w := rfl
@[simp] theorem Hart.setTline_vl (s : Hart) (k : Nat) (t : Timeline) : (s.setTline k t).vl = s.vl := rfl
@[simp] theorem Hart.setTline_vew (s : Hart) (k : Nat) (t : Timeline) : (s.setTline k t).vew = s.vew := rfl
@[simp] theorem Hart.setTline_nvreg (s : Hart) (k : Nat) (t : Timeline) : (s.setTline k t).nvreg = s.nvreg := rfl
@[simp] theorem Hart.setTline_mt (s : Hart) (k : Nat) (t : Timeline) : (s.setTline k t).mt = s.mt := rfl
@[simp] theorem Hart.setTline_sb (s : Hart) (k : Nat) (t : Timeline) : (s.setTline k t).sb = s.sb := rfl
@[simp] theorem Hart.setTline_seed (s : Hart) (k : Nat) (t : Timeline) : (s.setTline k t).seed = s.seed := rfl
@[simp] theorem Hart.setTline_vstart (s : Hart) (k : Nat) (t : Timeline) : (s.setTline k t).vstart = s.vstart := rfl
@[simp] theorem Hart.setTline_fflags (s : Hart) (k : Nat) (t : Timeline) : (s.setTline k t).fflags = s.fflags := rfl
@[simp] theorem Hart.setTline_frm (s : Hart) (k : Nat) (t : Timeline) : (s.setTline k t).frm = s.frm := rfl
@[simp] theorem Hart.setTline_atflags (s : Hart) (k : Nat) (t : Timeline) : (s.setTline k t).atflags = s.atflags := rfl
@[simp] theorem Hart.setTline_fenced (s : Hart) (k : Nat) (t : Timeline) : (s.setTline k t).fenced = s.fenced := rfl
@[simp] theorem Hart.setTline_mleash (s : Hart) (k : Nat) (t : Timeline) : (s.setTline k t).mleash = s.mleash := rfl
@[simp] theorem Hart.setTline_lease (s : Hart) (k : Nat) (t : Timeline) : (s.setTline k t).lease = s.lease := rfl
@[simp] theorem Hart.setTline_prio (s : Hart) (k : Nat) (t : Timeline) : (s.setTline k t).prio = s.prio := rfl
@[simp] theorem Hart.setTline_lcr (s : Hart) (k : Nat) (t : Timeline) : (s.setTline k t).lcr = s.lcr := rfl
@[simp] theorem Hart.setTline_stvec (s : Hart) (k : Nat) (t : Timeline) : (s.setTline k t).stvec = s.stvec := rfl
@[simp] theorem Hart.setTline_sepc (s : Hart) (k : Nat) (t : Timeline) : (s.setTline k t).sepc = s.sepc := rfl
@[simp] theorem Hart.setTline_scause (s : Hart) (k : Nat) (t : Timeline) : (s.setTline k t).scause = s.scause := rfl
@[simp] theorem Hart.setTline_stval (s : Hart) (k : Nat) (t : Timeline) : (s.setTline k t).stval = s.stval := rfl
@[simp] theorem Hart.setTline_sstatus (s : Hart) (k : Nat) (t : Timeline) : (s.setTline k t).sstatus = s.sstatus := rfl
@[simp] theorem Hart.setTline_satp (s : Hart) (k : Nat) (t : Timeline) : (s.setTline k t).satp = s.satp := rfl
@[simp] theorem Hart.setTline_sstart (s : Hart) (k : Nat) (t : Timeline) : (s.setTline k t).sstart = s.sstart := rfl
@[simp] theorem Hart.setTline_trapStatus (s : Hart) (k : Nat) (t : Timeline) : (s.setTline k t).trapStatus = s.trapStatus := rfl
@[simp] theorem Hart.setTline_trapWord (s : Hart) (k : Nat) (t : Timeline) : (s.setTline k t).trapWord = s.trapWord := rfl
@[simp] theorem Hart.setTline_trapTime (s : Hart) (k : Nat) (t : Timeline) : (s.setTline k t).trapTime = s.trapTime := rfl
@[simp] theorem Hart.setTline_trapDest (s : Hart) (k : Nat) (t : Timeline) : (s.setTline k t).trapDest = s.trapDest := rfl
@[simp] theorem Hart.setTline_pend (s : Hart) (k : Nat) (t : Timeline) : (s.setTline k t).pend = s.pend := rfl
@[simp] theorem Hart.setTline_asyncs (s : Hart) (k : Nat) (t : Timeline) : (s.setTline k t).asyncs = s.asyncs := rfl
@[simp] theorem Hart.setTline_stop (s : Hart) (k : Nat) (t : Timeline) : (s.setTline k t).stop = s.stop := rfl
@[simp] theorem Hart.setTline_chain (s : Hart) (k : Nat) (t : Timeline) : (s.setTline k t).chain = s.chain := rfl
@[simp] theorem Hart.setTline_sbuf (s : Hart) (k : Nat) (t : Timeline) : (s.setTline k t).sbuf = s.sbuf := rfl
@[simp] theorem Hart.setTline_vq (s : Hart) (k : Nat) (t : Timeline) : (s.setTline k t).vq = s.vq := rfl
@[simp] theorem Hart.setTline_run (s : Hart) (k : Nat) (t : Timeline) : (s.setTline k t).run = s.run := rfl
@[simp] theorem Hart.setTline_early (s : Hart) (k : Nat) (t : Timeline) : (s.setTline k t).early = s.early := rfl
@[simp] theorem Hart.setTline_linked (s : Hart) (k : Nat) (t : Timeline) : (s.setTline k t).linked = s.linked := rfl
@[simp] theorem Hart.setTline_elems (s : Hart) (k : Nat) (t : Timeline) : (s.setTline k t).elems = s.elems := rfl
@[simp] theorem Hart.setTline_tents (s : Hart) (k : Nat) (t : Timeline) : (s.setTline k t).tents = s.tents := rfl
@[simp] theorem Hart.setTline_streams (s : Hart) (k : Nat) (t : Timeline) : (s.setTline k t).streams = s.streams := rfl
@[simp] theorem Hart.setTline_landing (s : Hart) (k : Nat) (t : Timeline) : (s.setTline k t).landing = s.landing := rfl
@[simp] theorem Hart.setTline_mark (s : Hart) (k : Nat) (t : Timeline) : (s.setTline k t).mark = s.mark := rfl
@[simp] theorem Hart.setTline_aheads (s : Hart) (k : Nat) (t : Timeline) : (s.setTline k t).aheads = s.aheads := rfl
@[simp] theorem Hart.setTline_pack (s : Hart) (k : Nat) (t : Timeline) : (s.setTline k t).pack = s.pack := rfl
@[simp] theorem Hart.setTline_ctxArea (s : Hart) (k : Nat) (t : Timeline) : (s.setTline k t).ctxArea = s.ctxArea := rfl
@[simp] theorem Hart.setTline_saved (s : Hart) (k : Nat) (t : Timeline) : (s.setTline k t).saved = s.saved := rfl
@[simp] theorem Hart.setTline_loading (s : Hart) (k : Nat) (t : Timeline) : (s.setTline k t).loading = s.loading := rfl
@[simp] theorem Hart.setTline_wait (s : Hart) (k : Nat) (t : Timeline) : (s.setTline k t).wait = s.wait := rfl
@[simp] theorem Hart.setTline_item (s : Hart) (k : Nat) (t : Timeline) : (s.setTline k t).item = s.item := rfl
@[simp] theorem Hart.setTline_iword (s : Hart) (k : Nat) (t : Timeline) : (s.setTline k t).iword = s.iword := rfl
@[simp] theorem Hart.setTline_gto (s : Hart) (k : Nat) (t : Timeline) : (s.setTline k t).gto = s.gto := rfl
@[simp] theorem Hart.setTline_busy (s : Hart) (k : Nat) (t : Timeline) : (s.setTline k t).busy = s.busy := rfl
@[simp] theorem Hart.setTline_vdue (s : Hart) (k : Nat) (t : Timeline) : (s.setTline k t).vdue = s.vdue := rfl
@[simp] theorem Hart.setTline_passed (s : Hart) (k : Nat) (t : Timeline) : (s.setTline k t).passed = s.passed := rfl
@[simp] theorem Hart.setTline_progress (s : Hart) (k : Nat) (t : Timeline) : (s.setTline k t).progress = s.progress := rfl
@[simp] theorem Hart.setTline_reported (s : Hart) (k : Nat) (t : Timeline) : (s.setTline k t).reported = s.reported := rfl
@[simp] theorem Hart.setTline_brkAfter (s : Hart) (k : Nat) (t : Timeline) : (s.setTline k t).brkAfter = s.brkAfter := rfl

/-! ## Hart.wr -/

@[simp] theorem Hart.wr_shadow (s : Hart) (r : Reg) (v : Word) : (s.wr r v).shadow = s.shadow := by unfold Hart.wr; split <;> rfl
@[simp] theorem Hart.wr_swapped (s : Hart) (r : Reg) (v : Word) : (s.wr r v).swapped = s.swapped := by unfold Hart.wr; split <;> rfl
@[simp] theorem Hart.wr_shbad (s : Hart) (r : Reg) (v : Word) : (s.wr r v).shbad = s.shbad := by unfold Hart.wr; split <;> rfl
@[simp] theorem Hart.wr_pc (s : Hart) (r : Reg) (v : Word) : (s.wr r v).pc = s.pc := by unfold Hart.wr; split <;> rfl
@[simp] theorem Hart.wr_priv (s : Hart) (r : Reg) (v : Word) : (s.wr r v).priv = s.priv := by unfold Hart.wr; split <;> rfl
@[simp] theorem Hart.wr_task (s : Hart) (r : Reg) (v : Word) : (s.wr r v).task = s.task := by unfold Hart.wr; split <;> rfl
@[simp] theorem Hart.wr_started (s : Hart) (r : Reg) (v : Word) : (s.wr r v).started = s.started := by unfold Hart.wr; split <;> rfl
@[simp] theorem Hart.wr_v (s : Hart) (r : Reg) (v : Word) : (s.wr r v).v = s.v := by unfold Hart.wr; split <;> rfl
@[simp] theorem Hart.wr_vbad (s : Hart) (r : Reg) (v : Word) : (s.wr r v).vbad = s.vbad := by unfold Hart.wr; split <;> rfl
@[simp] theorem Hart.wr_dirty (s : Hart) (r : Reg) (v : Word) : (s.wr r v).dirty = s.dirty := by unfold Hart.wr; split <;> rfl
@[simp] theorem Hart.wr_restored (s : Hart) (r : Reg) (v : Word) : (s.wr r v).restored = s.restored := by unfold Hart.wr; split <;> rfl
@[simp] theorem Hart.wr_m (s : Hart) (r : Reg) (v : Word) : (s.wr r v).m = s.m := by unfold Hart.wr; split <;> rfl
@[simp] theorem Hart.wr_w (s : Hart) (r : Reg) (v : Word) : (s.wr r v).w = s.w := by unfold Hart.wr; split <;> rfl
@[simp] theorem Hart.wr_tl (s : Hart) (r : Reg) (v : Word) : (s.wr r v).tl = s.tl := by unfold Hart.wr; split <;> rfl
@[simp] theorem Hart.wr_vl (s : Hart) (r : Reg) (v : Word) : (s.wr r v).vl = s.vl := by unfold Hart.wr; split <;> rfl
@[simp] theorem Hart.wr_vew (s : Hart) (r : Reg) (v : Word) : (s.wr r v).vew = s.vew := by unfold Hart.wr; split <;> rfl
@[simp] theorem Hart.wr_nvreg (s : Hart) (r : Reg) (v : Word) : (s.wr r v).nvreg = s.nvreg := by unfold Hart.wr; split <;> rfl
@[simp] theorem Hart.wr_mt (s : Hart) (r : Reg) (v : Word) : (s.wr r v).mt = s.mt := by unfold Hart.wr; split <;> rfl
@[simp] theorem Hart.wr_sb (s : Hart) (r : Reg) (v : Word) : (s.wr r v).sb = s.sb := by unfold Hart.wr; split <;> rfl
@[simp] theorem Hart.wr_seed (s : Hart) (r : Reg) (v : Word) : (s.wr r v).seed = s.seed := by unfold Hart.wr; split <;> rfl
@[simp] theorem Hart.wr_vstart (s : Hart) (r : Reg) (v : Word) : (s.wr r v).vstart = s.vstart := by unfold Hart.wr; split <;> rfl
@[simp] theorem Hart.wr_fflags (s : Hart) (r : Reg) (v : Word) : (s.wr r v).fflags = s.fflags := by unfold Hart.wr; split <;> rfl
@[simp] theorem Hart.wr_frm (s : Hart) (r : Reg) (v : Word) : (s.wr r v).frm = s.frm := by unfold Hart.wr; split <;> rfl
@[simp] theorem Hart.wr_atflags (s : Hart) (r : Reg) (v : Word) : (s.wr r v).atflags = s.atflags := by unfold Hart.wr; split <;> rfl
@[simp] theorem Hart.wr_fenced (s : Hart) (r : Reg) (v : Word) : (s.wr r v).fenced = s.fenced := by unfold Hart.wr; split <;> rfl
@[simp] theorem Hart.wr_mleash (s : Hart) (r : Reg) (v : Word) : (s.wr r v).mleash = s.mleash := by unfold Hart.wr; split <;> rfl
@[simp] theorem Hart.wr_lease (s : Hart) (r : Reg) (v : Word) : (s.wr r v).lease = s.lease := by unfold Hart.wr; split <;> rfl
@[simp] theorem Hart.wr_prio (s : Hart) (r : Reg) (v : Word) : (s.wr r v).prio = s.prio := by unfold Hart.wr; split <;> rfl
@[simp] theorem Hart.wr_lcr (s : Hart) (r : Reg) (v : Word) : (s.wr r v).lcr = s.lcr := by unfold Hart.wr; split <;> rfl
@[simp] theorem Hart.wr_stvec (s : Hart) (r : Reg) (v : Word) : (s.wr r v).stvec = s.stvec := by unfold Hart.wr; split <;> rfl
@[simp] theorem Hart.wr_sepc (s : Hart) (r : Reg) (v : Word) : (s.wr r v).sepc = s.sepc := by unfold Hart.wr; split <;> rfl
@[simp] theorem Hart.wr_scause (s : Hart) (r : Reg) (v : Word) : (s.wr r v).scause = s.scause := by unfold Hart.wr; split <;> rfl
@[simp] theorem Hart.wr_stval (s : Hart) (r : Reg) (v : Word) : (s.wr r v).stval = s.stval := by unfold Hart.wr; split <;> rfl
@[simp] theorem Hart.wr_sstatus (s : Hart) (r : Reg) (v : Word) : (s.wr r v).sstatus = s.sstatus := by unfold Hart.wr; split <;> rfl
@[simp] theorem Hart.wr_satp (s : Hart) (r : Reg) (v : Word) : (s.wr r v).satp = s.satp := by unfold Hart.wr; split <;> rfl
@[simp] theorem Hart.wr_sstart (s : Hart) (r : Reg) (v : Word) : (s.wr r v).sstart = s.sstart := by unfold Hart.wr; split <;> rfl
@[simp] theorem Hart.wr_trapStatus (s : Hart) (r : Reg) (v : Word) : (s.wr r v).trapStatus = s.trapStatus := by unfold Hart.wr; split <;> rfl
@[simp] theorem Hart.wr_trapWord (s : Hart) (r : Reg) (v : Word) : (s.wr r v).trapWord = s.trapWord := by unfold Hart.wr; split <;> rfl
@[simp] theorem Hart.wr_trapTime (s : Hart) (r : Reg) (v : Word) : (s.wr r v).trapTime = s.trapTime := by unfold Hart.wr; split <;> rfl
@[simp] theorem Hart.wr_trapDest (s : Hart) (r : Reg) (v : Word) : (s.wr r v).trapDest = s.trapDest := by unfold Hart.wr; split <;> rfl
@[simp] theorem Hart.wr_pend (s : Hart) (r : Reg) (v : Word) : (s.wr r v).pend = s.pend := by unfold Hart.wr; split <;> rfl
@[simp] theorem Hart.wr_asyncs (s : Hart) (r : Reg) (v : Word) : (s.wr r v).asyncs = s.asyncs := by unfold Hart.wr; split <;> rfl
@[simp] theorem Hart.wr_stop (s : Hart) (r : Reg) (v : Word) : (s.wr r v).stop = s.stop := by unfold Hart.wr; split <;> rfl
@[simp] theorem Hart.wr_chain (s : Hart) (r : Reg) (v : Word) : (s.wr r v).chain = s.chain := by unfold Hart.wr; split <;> rfl
@[simp] theorem Hart.wr_sbuf (s : Hart) (r : Reg) (v : Word) : (s.wr r v).sbuf = s.sbuf := by unfold Hart.wr; split <;> rfl
@[simp] theorem Hart.wr_vq (s : Hart) (r : Reg) (v : Word) : (s.wr r v).vq = s.vq := by unfold Hart.wr; split <;> rfl
@[simp] theorem Hart.wr_run (s : Hart) (r : Reg) (v : Word) : (s.wr r v).run = s.run := by unfold Hart.wr; split <;> rfl
@[simp] theorem Hart.wr_early (s : Hart) (r : Reg) (v : Word) : (s.wr r v).early = s.early := by unfold Hart.wr; split <;> rfl
@[simp] theorem Hart.wr_linked (s : Hart) (r : Reg) (v : Word) : (s.wr r v).linked = s.linked := by unfold Hart.wr; split <;> rfl
@[simp] theorem Hart.wr_elems (s : Hart) (r : Reg) (v : Word) : (s.wr r v).elems = s.elems := by unfold Hart.wr; split <;> rfl
@[simp] theorem Hart.wr_tents (s : Hart) (r : Reg) (v : Word) : (s.wr r v).tents = s.tents := by unfold Hart.wr; split <;> rfl
@[simp] theorem Hart.wr_streams (s : Hart) (r : Reg) (v : Word) : (s.wr r v).streams = s.streams := by unfold Hart.wr; split <;> rfl
@[simp] theorem Hart.wr_landing (s : Hart) (r : Reg) (v : Word) : (s.wr r v).landing = s.landing := by unfold Hart.wr; split <;> rfl
@[simp] theorem Hart.wr_mark (s : Hart) (r : Reg) (v : Word) : (s.wr r v).mark = s.mark := by unfold Hart.wr; split <;> rfl
@[simp] theorem Hart.wr_aheads (s : Hart) (r : Reg) (v : Word) : (s.wr r v).aheads = s.aheads := by unfold Hart.wr; split <;> rfl
@[simp] theorem Hart.wr_pack (s : Hart) (r : Reg) (v : Word) : (s.wr r v).pack = s.pack := by unfold Hart.wr; split <;> rfl
@[simp] theorem Hart.wr_ctxArea (s : Hart) (r : Reg) (v : Word) : (s.wr r v).ctxArea = s.ctxArea := by unfold Hart.wr; split <;> rfl
@[simp] theorem Hart.wr_saved (s : Hart) (r : Reg) (v : Word) : (s.wr r v).saved = s.saved := by unfold Hart.wr; split <;> rfl
@[simp] theorem Hart.wr_loading (s : Hart) (r : Reg) (v : Word) : (s.wr r v).loading = s.loading := by unfold Hart.wr; split <;> rfl
@[simp] theorem Hart.wr_wait (s : Hart) (r : Reg) (v : Word) : (s.wr r v).wait = s.wait := by unfold Hart.wr; split <;> rfl
@[simp] theorem Hart.wr_item (s : Hart) (r : Reg) (v : Word) : (s.wr r v).item = s.item := by unfold Hart.wr; split <;> rfl
@[simp] theorem Hart.wr_iword (s : Hart) (r : Reg) (v : Word) : (s.wr r v).iword = s.iword := by unfold Hart.wr; split <;> rfl
@[simp] theorem Hart.wr_gto (s : Hart) (r : Reg) (v : Word) : (s.wr r v).gto = s.gto := by unfold Hart.wr; split <;> rfl
@[simp] theorem Hart.wr_busy (s : Hart) (r : Reg) (v : Word) : (s.wr r v).busy = s.busy := by unfold Hart.wr; split <;> rfl
@[simp] theorem Hart.wr_vdue (s : Hart) (r : Reg) (v : Word) : (s.wr r v).vdue = s.vdue := by unfold Hart.wr; split <;> rfl
@[simp] theorem Hart.wr_passed (s : Hart) (r : Reg) (v : Word) : (s.wr r v).passed = s.passed := by unfold Hart.wr; split <;> rfl
@[simp] theorem Hart.wr_progress (s : Hart) (r : Reg) (v : Word) : (s.wr r v).progress = s.progress := by unfold Hart.wr; split <;> rfl
@[simp] theorem Hart.wr_reported (s : Hart) (r : Reg) (v : Word) : (s.wr r v).reported = s.reported := by unfold Hart.wr; split <;> rfl
@[simp] theorem Hart.wr_brkAfter (s : Hart) (r : Reg) (v : Word) : (s.wr r v).brkAfter = s.brkAfter := by unfold Hart.wr; split <;> rfl

/-! ## Hart.setMask -/

@[simp] theorem Hart.setMask_s (s : Hart) (n : Nat) (v : MaskReg) : (s.setMask n v).s = s.s := by unfold Hart.setMask; split <;> rfl
@[simp] theorem Hart.setMask_shadow (s : Hart) (n : Nat) (v : MaskReg) : (s.setMask n v).shadow = s.shadow := by unfold Hart.setMask; split <;> rfl
@[simp] theorem Hart.setMask_swapped (s : Hart) (n : Nat) (v : MaskReg) : (s.setMask n v).swapped = s.swapped := by unfold Hart.setMask; split <;> rfl
@[simp] theorem Hart.setMask_sbad (s : Hart) (n : Nat) (v : MaskReg) : (s.setMask n v).sbad = s.sbad := by unfold Hart.setMask; split <;> rfl
@[simp] theorem Hart.setMask_shbad (s : Hart) (n : Nat) (v : MaskReg) : (s.setMask n v).shbad = s.shbad := by unfold Hart.setMask; split <;> rfl
@[simp] theorem Hart.setMask_pc (s : Hart) (n : Nat) (v : MaskReg) : (s.setMask n v).pc = s.pc := by unfold Hart.setMask; split <;> rfl
@[simp] theorem Hart.setMask_priv (s : Hart) (n : Nat) (v : MaskReg) : (s.setMask n v).priv = s.priv := by unfold Hart.setMask; split <;> rfl
@[simp] theorem Hart.setMask_task (s : Hart) (n : Nat) (v : MaskReg) : (s.setMask n v).task = s.task := by unfold Hart.setMask; split <;> rfl
@[simp] theorem Hart.setMask_started (s : Hart) (n : Nat) (v : MaskReg) : (s.setMask n v).started = s.started := by unfold Hart.setMask; split <;> rfl
@[simp] theorem Hart.setMask_v (s : Hart) (n : Nat) (v : MaskReg) : (s.setMask n v).v = s.v := by unfold Hart.setMask; split <;> rfl
@[simp] theorem Hart.setMask_vbad (s : Hart) (n : Nat) (v : MaskReg) : (s.setMask n v).vbad = s.vbad := by unfold Hart.setMask; split <;> rfl
@[simp] theorem Hart.setMask_dirty (s : Hart) (n : Nat) (v : MaskReg) : (s.setMask n v).dirty = s.dirty := by unfold Hart.setMask; split <;> rfl
@[simp] theorem Hart.setMask_restored (s : Hart) (n : Nat) (v : MaskReg) : (s.setMask n v).restored = s.restored := by unfold Hart.setMask; split <;> rfl
@[simp] theorem Hart.setMask_w (s : Hart) (n : Nat) (v : MaskReg) : (s.setMask n v).w = s.w := by unfold Hart.setMask; split <;> rfl
@[simp] theorem Hart.setMask_tl (s : Hart) (n : Nat) (v : MaskReg) : (s.setMask n v).tl = s.tl := by unfold Hart.setMask; split <;> rfl
@[simp] theorem Hart.setMask_vl (s : Hart) (n : Nat) (v : MaskReg) : (s.setMask n v).vl = s.vl := by unfold Hart.setMask; split <;> rfl
@[simp] theorem Hart.setMask_vew (s : Hart) (n : Nat) (v : MaskReg) : (s.setMask n v).vew = s.vew := by unfold Hart.setMask; split <;> rfl
@[simp] theorem Hart.setMask_nvreg (s : Hart) (n : Nat) (v : MaskReg) : (s.setMask n v).nvreg = s.nvreg := by unfold Hart.setMask; split <;> rfl
@[simp] theorem Hart.setMask_mt (s : Hart) (n : Nat) (v : MaskReg) : (s.setMask n v).mt = s.mt := by unfold Hart.setMask; split <;> rfl
@[simp] theorem Hart.setMask_sb (s : Hart) (n : Nat) (v : MaskReg) : (s.setMask n v).sb = s.sb := by unfold Hart.setMask; split <;> rfl
@[simp] theorem Hart.setMask_seed (s : Hart) (n : Nat) (v : MaskReg) : (s.setMask n v).seed = s.seed := by unfold Hart.setMask; split <;> rfl
@[simp] theorem Hart.setMask_vstart (s : Hart) (n : Nat) (v : MaskReg) : (s.setMask n v).vstart = s.vstart := by unfold Hart.setMask; split <;> rfl
@[simp] theorem Hart.setMask_fflags (s : Hart) (n : Nat) (v : MaskReg) : (s.setMask n v).fflags = s.fflags := by unfold Hart.setMask; split <;> rfl
@[simp] theorem Hart.setMask_frm (s : Hart) (n : Nat) (v : MaskReg) : (s.setMask n v).frm = s.frm := by unfold Hart.setMask; split <;> rfl
@[simp] theorem Hart.setMask_atflags (s : Hart) (n : Nat) (v : MaskReg) : (s.setMask n v).atflags = s.atflags := by unfold Hart.setMask; split <;> rfl
@[simp] theorem Hart.setMask_fenced (s : Hart) (n : Nat) (v : MaskReg) : (s.setMask n v).fenced = s.fenced := by unfold Hart.setMask; split <;> rfl
@[simp] theorem Hart.setMask_mleash (s : Hart) (n : Nat) (v : MaskReg) : (s.setMask n v).mleash = s.mleash := by unfold Hart.setMask; split <;> rfl
@[simp] theorem Hart.setMask_lease (s : Hart) (n : Nat) (v : MaskReg) : (s.setMask n v).lease = s.lease := by unfold Hart.setMask; split <;> rfl
@[simp] theorem Hart.setMask_prio (s : Hart) (n : Nat) (v : MaskReg) : (s.setMask n v).prio = s.prio := by unfold Hart.setMask; split <;> rfl
@[simp] theorem Hart.setMask_lcr (s : Hart) (n : Nat) (v : MaskReg) : (s.setMask n v).lcr = s.lcr := by unfold Hart.setMask; split <;> rfl
@[simp] theorem Hart.setMask_stvec (s : Hart) (n : Nat) (v : MaskReg) : (s.setMask n v).stvec = s.stvec := by unfold Hart.setMask; split <;> rfl
@[simp] theorem Hart.setMask_sepc (s : Hart) (n : Nat) (v : MaskReg) : (s.setMask n v).sepc = s.sepc := by unfold Hart.setMask; split <;> rfl
@[simp] theorem Hart.setMask_scause (s : Hart) (n : Nat) (v : MaskReg) : (s.setMask n v).scause = s.scause := by unfold Hart.setMask; split <;> rfl
@[simp] theorem Hart.setMask_stval (s : Hart) (n : Nat) (v : MaskReg) : (s.setMask n v).stval = s.stval := by unfold Hart.setMask; split <;> rfl
@[simp] theorem Hart.setMask_sstatus (s : Hart) (n : Nat) (v : MaskReg) : (s.setMask n v).sstatus = s.sstatus := by unfold Hart.setMask; split <;> rfl
@[simp] theorem Hart.setMask_satp (s : Hart) (n : Nat) (v : MaskReg) : (s.setMask n v).satp = s.satp := by unfold Hart.setMask; split <;> rfl
@[simp] theorem Hart.setMask_sstart (s : Hart) (n : Nat) (v : MaskReg) : (s.setMask n v).sstart = s.sstart := by unfold Hart.setMask; split <;> rfl
@[simp] theorem Hart.setMask_trapStatus (s : Hart) (n : Nat) (v : MaskReg) : (s.setMask n v).trapStatus = s.trapStatus := by unfold Hart.setMask; split <;> rfl
@[simp] theorem Hart.setMask_trapWord (s : Hart) (n : Nat) (v : MaskReg) : (s.setMask n v).trapWord = s.trapWord := by unfold Hart.setMask; split <;> rfl
@[simp] theorem Hart.setMask_trapTime (s : Hart) (n : Nat) (v : MaskReg) : (s.setMask n v).trapTime = s.trapTime := by unfold Hart.setMask; split <;> rfl
@[simp] theorem Hart.setMask_trapDest (s : Hart) (n : Nat) (v : MaskReg) : (s.setMask n v).trapDest = s.trapDest := by unfold Hart.setMask; split <;> rfl
@[simp] theorem Hart.setMask_pend (s : Hart) (n : Nat) (v : MaskReg) : (s.setMask n v).pend = s.pend := by unfold Hart.setMask; split <;> rfl
@[simp] theorem Hart.setMask_asyncs (s : Hart) (n : Nat) (v : MaskReg) : (s.setMask n v).asyncs = s.asyncs := by unfold Hart.setMask; split <;> rfl
@[simp] theorem Hart.setMask_stop (s : Hart) (n : Nat) (v : MaskReg) : (s.setMask n v).stop = s.stop := by unfold Hart.setMask; split <;> rfl
@[simp] theorem Hart.setMask_chain (s : Hart) (n : Nat) (v : MaskReg) : (s.setMask n v).chain = s.chain := by unfold Hart.setMask; split <;> rfl
@[simp] theorem Hart.setMask_sbuf (s : Hart) (n : Nat) (v : MaskReg) : (s.setMask n v).sbuf = s.sbuf := by unfold Hart.setMask; split <;> rfl
@[simp] theorem Hart.setMask_vq (s : Hart) (n : Nat) (v : MaskReg) : (s.setMask n v).vq = s.vq := by unfold Hart.setMask; split <;> rfl
@[simp] theorem Hart.setMask_run (s : Hart) (n : Nat) (v : MaskReg) : (s.setMask n v).run = s.run := by unfold Hart.setMask; split <;> rfl
@[simp] theorem Hart.setMask_early (s : Hart) (n : Nat) (v : MaskReg) : (s.setMask n v).early = s.early := by unfold Hart.setMask; split <;> rfl
@[simp] theorem Hart.setMask_linked (s : Hart) (n : Nat) (v : MaskReg) : (s.setMask n v).linked = s.linked := by unfold Hart.setMask; split <;> rfl
@[simp] theorem Hart.setMask_elems (s : Hart) (n : Nat) (v : MaskReg) : (s.setMask n v).elems = s.elems := by unfold Hart.setMask; split <;> rfl
@[simp] theorem Hart.setMask_tents (s : Hart) (n : Nat) (v : MaskReg) : (s.setMask n v).tents = s.tents := by unfold Hart.setMask; split <;> rfl
@[simp] theorem Hart.setMask_streams (s : Hart) (n : Nat) (v : MaskReg) : (s.setMask n v).streams = s.streams := by unfold Hart.setMask; split <;> rfl
@[simp] theorem Hart.setMask_landing (s : Hart) (n : Nat) (v : MaskReg) : (s.setMask n v).landing = s.landing := by unfold Hart.setMask; split <;> rfl
@[simp] theorem Hart.setMask_mark (s : Hart) (n : Nat) (v : MaskReg) : (s.setMask n v).mark = s.mark := by unfold Hart.setMask; split <;> rfl
@[simp] theorem Hart.setMask_aheads (s : Hart) (n : Nat) (v : MaskReg) : (s.setMask n v).aheads = s.aheads := by unfold Hart.setMask; split <;> rfl
@[simp] theorem Hart.setMask_pack (s : Hart) (n : Nat) (v : MaskReg) : (s.setMask n v).pack = s.pack := by unfold Hart.setMask; split <;> rfl
@[simp] theorem Hart.setMask_ctxArea (s : Hart) (n : Nat) (v : MaskReg) : (s.setMask n v).ctxArea = s.ctxArea := by unfold Hart.setMask; split <;> rfl
@[simp] theorem Hart.setMask_saved (s : Hart) (n : Nat) (v : MaskReg) : (s.setMask n v).saved = s.saved := by unfold Hart.setMask; split <;> rfl
@[simp] theorem Hart.setMask_loading (s : Hart) (n : Nat) (v : MaskReg) : (s.setMask n v).loading = s.loading := by unfold Hart.setMask; split <;> rfl
@[simp] theorem Hart.setMask_wait (s : Hart) (n : Nat) (v : MaskReg) : (s.setMask n v).wait = s.wait := by unfold Hart.setMask; split <;> rfl
@[simp] theorem Hart.setMask_item (s : Hart) (n : Nat) (v : MaskReg) : (s.setMask n v).item = s.item := by unfold Hart.setMask; split <;> rfl
@[simp] theorem Hart.setMask_iword (s : Hart) (n : Nat) (v : MaskReg) : (s.setMask n v).iword = s.iword := by unfold Hart.setMask; split <;> rfl
@[simp] theorem Hart.setMask_gto (s : Hart) (n : Nat) (v : MaskReg) : (s.setMask n v).gto = s.gto := by unfold Hart.setMask; split <;> rfl
@[simp] theorem Hart.setMask_busy (s : Hart) (n : Nat) (v : MaskReg) : (s.setMask n v).busy = s.busy := by unfold Hart.setMask; split <;> rfl
@[simp] theorem Hart.setMask_vdue (s : Hart) (n : Nat) (v : MaskReg) : (s.setMask n v).vdue = s.vdue := by unfold Hart.setMask; split <;> rfl
@[simp] theorem Hart.setMask_passed (s : Hart) (n : Nat) (v : MaskReg) : (s.setMask n v).passed = s.passed := by unfold Hart.setMask; split <;> rfl
@[simp] theorem Hart.setMask_progress (s : Hart) (n : Nat) (v : MaskReg) : (s.setMask n v).progress = s.progress := by unfold Hart.setMask; split <;> rfl
@[simp] theorem Hart.setMask_reported (s : Hart) (n : Nat) (v : MaskReg) : (s.setMask n v).reported = s.reported := by unfold Hart.setMask; split <;> rfl
@[simp] theorem Hart.setMask_brkAfter (s : Hart) (n : Nat) (v : MaskReg) : (s.setMask n v).brkAfter = s.brkAfter := by unfold Hart.setMask; split <;> rfl

end Sys2Proof.Machine
end

