-- ==== Sys2Proof/Laws/Ops.lean ====
section
/-! SUPPORT. What the named operations do: registers, components, memory, the end of a meaning. -/

-- One proof after another: the proofs of this file share equation lemmas, and threads that wait for these hold stack.
set_option Elab.async false

namespace Sys2Proof.Machine

/-! ## Lists with a default -/

@[simp] theorem getAt_putAt_self {α : Type} (d : α) (l : List α) (i : Nat) (v : α) : getAt d (putAt d l i v) i = v := by
  induction i generalizing l with
  | zero => cases l <;> rfl
  | succ n ih => cases l <;> exact ih _

theorem getAt_nil {α : Type} (d : α) (i : Nat) : getAt d [] i = d := by cases i <;> rfl

theorem getAt_putAt_ne {α : Type} (d : α) (l : List α) (i j : Nat) (v : α) (h : i ≠ j) :
    getAt d (putAt d l i v) j = getAt d l j := by
  induction i generalizing l j with
  | zero =>
    cases j with
    | zero => exact absurd rfl h
    | succ n => cases l <;> simp [putAt, getAt]
  | succ n ih =>
    cases j with
    | zero => cases l <;> rfl
    | succ k =>
      have hk : n ≠ k := fun e => h (by rw [e])
      cases l with
      | nil => simpa [putAt, getAt, getAt_nil] using ih [] k hk
      | cons y ys => exact ih ys k hk

@[simp] theorem putAt_putAt {α : Type} (d : α) (l : List α) (i : Nat) (v w : α) :
    putAt d (putAt d l i v) i w = putAt d l i w := by
  induction i generalizing l with
  | zero => cases l <;> rfl
  | succ n ih => cases l <;> simp [putAt, ih]

/-! ## Components -/

@[simp] theorem State.hart_setHart (s : State) (h : Nat) (x : Hart) : (s.setHart h x).hart h = x :=
  getAt_putAt_self _ _ _ _
@[simp] theorem State.core_setCore (s : State) (c : Nat) (x : Core) : (s.setCore c x).core c = x :=
  getAt_putAt_self _ _ _ _
@[simp] theorem State.die_setDie (s : State) (d : Nat) (x : Die) : (s.setDie d x).die d = x :=
  getAt_putAt_self _ _ _ _

theorem State.hart_setHart_ne (s : State) (h k : Nat) (x : Hart) (n : h ≠ k) : (s.setHart h x).hart k = s.hart k :=
  getAt_putAt_ne _ _ _ _ _ n
theorem State.core_setCore_ne (s : State) (c k : Nat) (x : Core) (n : c ≠ k) : (s.setCore c x).core k = s.core k :=
  getAt_putAt_ne _ _ _ _ _ n
theorem State.die_setDie_ne (s : State) (d k : Nat) (x : Die) (n : d ≠ k) : (s.setDie d x).die k = s.die k :=
  getAt_putAt_ne _ _ _ _ _ n

@[simp] theorem State.setHart_setHart (s : State) (h : Nat) (x y : Hart) :
    (s.setHart h x).setHart h y = s.setHart h y := by
  simp [State.setHart]
@[simp] theorem State.setCore_setCore (s : State) (c : Nat) (x y : Core) :
    (s.setCore c x).setCore c y = s.setCore c y := by
  simp [State.setCore]

/-- The hart of a state with one hart changed, read anywhere. -/
theorem State.hart_setHart_any (s : State) (h k : Nat) (x : Hart) :
    (s.setHart h x).hart k = if h = k then x else s.hart k := by
  by_cases e : h = k
  · subst e; simp
  · simp [e, State.hart_setHart_ne]

/-! ## Scalar registers (R50) -/

@[simp] theorem Hart.rd_zero (x : Hart) : x.rd 0 = 0 := rfl
@[simp] theorem Hart.wr_zero (x : Hart) (v : Word) : x.wr 0 v = x := rfl

theorem Hart.rd_wr_self (x : Hart) (r : Reg) (v : Word) (h : r ≠ 0) : (x.wr r v).rd r = v := by
  unfold Hart.rd Hart.wr
  rw [if_neg h, if_neg h]
  exact getAt_putAt_self _ _ _ _

theorem Hart.rd_wr_ne (x : Hart) (r q : Reg) (v : Word) (h : r ≠ q) : (x.wr r v).rd q = x.rd q := by
  have hn : r.toNat ≠ q.toNat := fun e => h (BitVec.eq_of_toNat_eq e)
  unfold Hart.rd Hart.wr
  by_cases z : r = 0
  · rw [if_pos z]
  · rw [if_neg z, getAt_putAt_ne _ _ _ _ _ hn]

/-- A write of r read at q: the value where r is q and is not s0. -/
theorem Hart.rd_wr (x : Hart) (r q : Reg) (v : Word) :
    (x.wr r v).rd q = if r = q ∧ r ≠ 0 then v else x.rd q := by
  by_cases e : r = q
  · subst e
    by_cases z : r = 0
    · subst z; rfl
    · rw [if_pos ⟨rfl, z⟩, Hart.rd_wr_self _ _ _ z]
  · rw [if_neg fun g => e g.1, Hart.rd_wr_ne _ _ _ _ e]

/-! ## Masks (R50) -/

@[simp] theorem Hart.mask_zero (x : Hart) : x.mask 0 = BitVec.allOnes _ := rfl

theorem Hart.mask_setMask (x : Hart) (n k : Nat) (v : MaskReg) :
    (x.setMask n v).mask k = if n = k ∧ n ≠ 0 then v else x.mask k := by
  unfold Hart.mask Hart.setMask
  by_cases z : n = 0
  · simp [z]
  · by_cases k0 : k = 0
    · simp [k0, z]
    · by_cases e : n = k
      · subst e; simp [z]
      · have : n - 1 ≠ k - 1 := by omega
        simp [z, k0, e, getAt_putAt_ne _ _ _ _ _ this]

/-! ## Timelines (R65) -/

@[simp] theorem Hart.tline_setTline (x : Hart) (k : Nat) (t : Timeline) : (x.setTline k t).tline k = t :=
  getAt_putAt_self _ _ _ _

theorem Hart.tline_setTline_ne (x : Hart) (k j : Nat) (t : Timeline) (h : k ≠ j) :
    (x.setTline k t).tline j = x.tline j :=
  getAt_putAt_ne _ _ _ _ _ h

/-! ## Memory (R166) -/

/-- A byte above every listed address below `lo` reads as 0. -/
theorem Memory.read_wfFrom {m : Memory} {lo a : Nat} (h : Memory.wfFrom lo m = true) (ha : a < lo) : m.read a = 0 := by
  induction m generalizing lo with
  | nil => rfl
  | cons c rest ih =>
    simp only [Memory.wfFrom, Bool.and_eq_true, decide_eq_true_eq] at h
    have h1 : a ≠ c.1 := by omega
    simp only [Memory.read, h1, if_false]
    exact ih h.2 (by omega)

theorem Memory.wfFrom_mono {m : Memory} {lo hi : Nat} (h : Memory.wfFrom hi m = true) (hl : lo ≤ hi) :
    Memory.wfFrom lo m = true := by
  cases m with
  | nil => rfl
  | cons c rest =>
    simp only [Memory.wfFrom, Bool.and_eq_true, decide_eq_true_eq] at h ⊢
    exact ⟨⟨by omega, h.1.2⟩, h.2⟩

theorem Memory.read_write {m : Memory} {lo : Nat} (h : Memory.wfFrom lo m = true) (a b : Nat) (v : Byte) :
    (m.write a v).read b = if b = a then v else m.read b := by
  induction m generalizing lo with
  | nil =>
    unfold Memory.write
    by_cases hv : v = 0
    · rw [if_pos hv, hv]; simp [Memory.read]
    · rw [if_neg hv]; rfl
  | cons c rest ih =>
    simp only [Memory.wfFrom, Bool.and_eq_true, decide_eq_true_eq] at h
    unfold Memory.write
    by_cases h1 : a < c.1
    · rw [if_pos h1]
      by_cases hv : v = 0
      · have hr : Memory.read (c :: rest) a = 0 := by
          have n : a ≠ c.1 := by omega
          simp only [Memory.read, n, if_false]
          exact Memory.read_wfFrom h.2 (by omega)
        rw [if_pos hv, hv]
        by_cases hb : b = a
        · rw [if_pos hb, hb, hr]
        · rw [if_neg hb]
      · rw [if_neg hv]; rfl
    · rw [if_neg h1]
      by_cases h2 : a = c.1
      · rw [if_pos h2]
        by_cases hv : v = 0
        · rw [if_pos hv, hv]
          by_cases hb : b = a
          · rw [if_pos hb, hb]
            exact Memory.read_wfFrom h.2 (by omega)
          · have n : b ≠ c.1 := by omega
            rw [if_neg hb]
            simp only [Memory.read, n, if_false]
        · rw [if_neg hv]
          simp only [Memory.read, h2]
          split <;> rfl
      · rw [if_neg h2]
        simp only [Memory.read, ih h.2]
        by_cases hb : b = c.1
        · have n : b ≠ a := by omega
          simp only [hb, if_true]
          rw [if_neg (by omega)]
        · simp only [hb, if_false]

/-- A write keeps the canonical form. -/
theorem Memory.wfFrom_write {m : Memory} {lo : Nat} (h : Memory.wfFrom lo m = true) (a : Nat) (v : Byte)
    (ha : lo ≤ a) : Memory.wfFrom lo (m.write a v) = true := by
  induction m generalizing lo with
  | nil =>
    unfold Memory.write
    by_cases hv : v = 0
    · rw [if_pos hv]; rfl
    · rw [if_neg hv]
      simp only [Memory.wfFrom, Bool.and_eq_true, decide_eq_true_eq, bne_iff_ne, and_true]
      exact ⟨ha, hv⟩
  | cons c rest ih =>
    have h' := h
    simp only [Memory.wfFrom, Bool.and_eq_true, decide_eq_true_eq, bne_iff_ne] at h
    unfold Memory.write
    by_cases h1 : a < c.1
    · rw [if_pos h1]
      by_cases hv : v = 0
      · rw [if_pos hv]; exact h'
      · rw [if_neg hv]
        simp only [Memory.wfFrom, Bool.and_eq_true, decide_eq_true_eq, bne_iff_ne]
        exact ⟨⟨ha, hv⟩, ⟨by omega, h.1.2⟩, h.2⟩
    · rw [if_neg h1]
      by_cases h2 : a = c.1
      · rw [if_pos h2]
        by_cases hv : v = 0
        · rw [if_pos hv]; exact Memory.wfFrom_mono h.2 (by omega)
        · rw [if_neg hv]
          simp only [Memory.wfFrom, Bool.and_eq_true, decide_eq_true_eq, bne_iff_ne]
          exact ⟨⟨ha, hv⟩, Memory.wfFrom_mono h.2 (by omega)⟩
      · rw [if_neg h2]
        simp only [Memory.wfFrom, Bool.and_eq_true, decide_eq_true_eq, bne_iff_ne]
        exact ⟨h.1, ih h.2 (by omega)⟩

theorem Memory.wf_write {m : Memory} (h : m.wf = true) (a : Nat) (v : Byte) : (m.write a v).wf = true :=
  Memory.wfFrom_write h a v (Nat.zero_le _)

/-- Writing bytes keeps the canonical form. -/
theorem Memory.wf_writeN {m : Memory} (h : m.wf = true) (a : Nat) (bs : List Byte) : (m.writeN a bs).wf = true := by
  induction bs generalizing m a with
  | nil => exact h
  | cons b bs ih => exact ih (Memory.wf_write h a b) (a + 1)

theorem Memory.wf_writeLe {m : Memory} (h : m.wf = true) (a n x : Nat) : (m.writeLe a n x).wf = true :=
  Memory.wf_writeN h a _

/-- Clearing a range keeps the canonical form. -/
theorem Memory.wfFrom_clear {m : Memory} {k : Nat} (h : Memory.wfFrom k m = true) (lo hi : Nat) :
    Memory.wfFrom k (m.clear lo hi) = true := by
  induction m generalizing k with
  | nil => rfl
  | cons c rest ih =>
    simp only [Memory.wfFrom, Bool.and_eq_true, decide_eq_true_eq] at h
    have hr : Memory.wfFrom (c.1 + 1) (Memory.clear rest lo hi) = true := ih h.2
    unfold Memory.clear at hr ⊢
    rw [List.filter_cons]
    split
    · simp only [Memory.wfFrom, Bool.and_eq_true, decide_eq_true_eq]
      exact ⟨h.1, hr⟩
    · exact Memory.wfFrom_mono hr (by omega)

theorem Memory.wf_clear {m : Memory} (h : m.wf = true) (lo hi : Nat) : (m.clear lo hi).wf = true :=
  Memory.wfFrom_clear h lo hi

/-- Bytes written at `a` read back; every other byte reads as before. -/
theorem Memory.read_writeN {m : Memory} (h : m.wf = true) (a b : Nat) (bs : List Byte) :
    (m.writeN a bs).read b = if a ≤ b ∧ b < a + bs.length then bs.getD (b - a) 0 else m.read b := by
  induction bs generalizing m a with
  | nil =>
    have n : ¬(a ≤ b ∧ b < a + ([] : List Byte).length) := by simp
    rw [if_neg n]; rfl
  | cons v bs ih =>
    rw [Memory.writeN, ih (Memory.wf_write h a v), Memory.read_write h]
    by_cases e : b = a
    · subst e; simp
    · by_cases r : a + 1 ≤ b ∧ b < a + 1 + bs.length
      · have r' : a ≤ b ∧ b < a + (v :: bs).length := by simp only [List.length_cons]; omega
        obtain ⟨k, hk⟩ : ∃ k, b = a + 1 + k := ⟨b - (a + 1), by omega⟩
        subst hk
        rw [if_pos r, if_pos r']
        have e1 : a + 1 + k - (a + 1) = k := by omega
        have e2 : a + 1 + k - a = k + 1 := by omega
        rw [e1, e2]; rfl
      · have r' : ¬(a ≤ b ∧ b < a + (v :: bs).length) := by simp only [List.length_cons]; omega
        rw [if_neg r, if_neg e, if_neg r']

@[simp] theorem leBytes_length (n x : Nat) : (leBytes n x).length = n := by
  induction n generalizing x with
  | zero => rfl
  | succ n ih => simp [leBytes, ih]

/-- Reading little-endian what was laid out little-endian. -/
theorem leNat_leBytes (n x : Nat) : leNat (leBytes n x) = x % 256 ^ n := by
  induction n generalizing x with
  | zero => simp [leBytes, leNat, Nat.mod_one]
  | succ n ih =>
    simp only [leBytes, leNat, ih, BitVec.toNat_ofNat]
    have e : (256 : Nat) ^ (n + 1) = 256 * 256 ^ n := by rw [Nat.pow_succ, Nat.mul_comm]
    rw [e, Nat.mod_mul]

theorem State.mem_memPut (s : State) (a : Nat) (bs : List Byte) : (s.memPut a bs).mem = s.mem.writeN a bs := rfl

/-! ## How a meaning ends -/

/-- The fields of a hart that completing an instruction sets. -/
theorem State.retire_hart (s : State) (h : Nat) (pc : Word) :
    (s.retire h pc).hart h = { s.hart h with pc := pc, wait := none } := by
  simp [State.retire]

theorem State.retire_hart_ne (s : State) (h k : Nat) (pc : Word) (n : h ≠ k) : (s.retire h pc).hart k = s.hart k := by
  simp [State.retire, State.hart_setHart_ne _ _ _ _ n]

@[simp] theorem State.retire_mem (s : State) (h : Nat) (pc : Word) : (s.retire h pc).mem = s.mem := rfl
@[simp] theorem State.retire_cores (s : State) (h : Nat) (pc : Word) : (s.retire h pc).cores = s.cores := rfl
@[simp] theorem State.retire_dies (s : State) (h : Nat) (pc : Word) : (s.retire h pc).dies = s.dies := rfl
@[simp] theorem State.markWait_mem (s : State) (h : Nat) : (s.markWait h).mem = s.mem := rfl
@[simp] theorem State.stallAt_eq_stall (s : State) (a b : Nat) : ∃ t, s.stallAt a b = .stall t := ⟨_, rfl⟩

/-- A one-word instruction that completes. -/
theorem finish_ok (s t : State) : finish s (.ok t) = .next (t.retire s.cur ((t.hart s.cur).pc + 8)) := rfl

/-- An instruction that jumps. -/
theorem finish_jump (s t : State) (pc : Word) : finish s (.jump t pc) = .next (t.retire s.cur pc) := rfl

/-- An instruction that waits. -/
theorem finish_stall (s t : State) : finish s (.stall t) = .next (t.markWait s.cur) := rfl

/-- An instruction that traps with the vector queue idle takes the trap (R259). -/
theorem finish_trap (s t : State) (cause : Nat) (v : Word) (q : (t.hart s.cur).queueIdle = true) :
    finish s (.trap t cause v) =
      .next ((t.takeTrap s.cur false cause (t.hart s.cur).pc v (t.hart s.cur).iword).noteDest s.cur cause
        (destOfItem (t.hart s.cur).item)) := by
  simp [finish, finishAt, q]

/-- Every end of a meaning is a next state. -/
theorem finishAt_next (h len : Nat) (r : Res) : ∃ t, finishAt h len r = .next t := by
  cases r with
  | ok t => exact ⟨_, rfl⟩
  | jump t pc => exact ⟨_, rfl⟩
  | trap t c v =>
    simp only [finishAt]
    split <;> exact ⟨_, rfl⟩
  | stall t => exact ⟨_, rfl⟩

theorem finish_next (s : State) (r : Res) : ∃ t, finish s r = .next t := finishAt_next _ _ _

/-- An instruction that works on the issuing hart alone. -/
theorem State.onHart_eq (s : State) (f : Hart → Hart) :
    s.onHart f = .next ((s.setHart s.cur (f s.me)).retire s.cur ((f s.me).pc + 8)) := by
  simp [State.onHart, finish_ok, State.me]

/-! ## Traps (R259) -/

/-- The error bits of the bank move with it. -/
theorem swapBits (a : BitVec 64) (b : BitVec 8) :
    (a.extractLsb' 56 8 : BitVec 8) ++ ((b ++ a.extractLsb' 0 56 : BitVec 64).extractLsb' 0 56 : BitVec 56) = a ∧
      (b ++ a.extractLsb' 0 56 : BitVec 64).extractLsb' 56 8 = b := by
  constructor <;> apply BitVec.eq_of_getLsbD_eq <;> intro i hi <;>
    simp only [BitVec.getLsbD_append, BitVec.getLsbD_extractLsb']
  · by_cases h : i < 56
    · simp [h]
    · have h8 : i - 56 < 8 := by omega
      have e : 56 + (i - 56) = i := by omega
      simp [h, h8, e]
  · simp [hi]

theorem Hart.swapBank_swapBank (x : Hart) (h : x.s.length = 64) (g : x.shadow.length = 8) :
    x.swapBank.swapBank = x := by
  have h1 : (List.take 56 x.s).length = 56 := by simp [h]
  have h2 := swapBits x.sbad x.shbad
  cases x
  simp only [Hart.swapBank, Bool.not_not, Hart.mk.injEq, and_true, true_and] at *
  refine ⟨?_, ?_, h2⟩
  · rw [List.take_append_of_le_length (by omega), List.take_of_length_le (by omega), List.take_append_drop]
  · rw [List.drop_append_of_le_length (by omega), List.drop_of_length_le (by omega), List.nil_append]

/-- What entering a trap sets. -/
theorem Hart.enterTrap_csrs (x : Hart) (int : Bool) (cause : Nat) (sepc v : Word) :
    (x.enterTrap int cause sepc v).sepc = sepc &&& ~~~7#64 ∧ (x.enterTrap int cause sepc v).stval = v ∧
      (x.enterTrap int cause sepc v).priv = .sup ∧ (x.enterTrap int cause sepc v).pc = x.stvec ∧
      (x.enterTrap int cause sepc v).scause = BitVec.ofNat 64 (b2n int * 2 ^ 63 + cause) := by
  unfold Hart.enterTrap
  split <;> simp

end Sys2Proof.Machine
end

