-- ==== Sys2Proof/Laws/Codec.lean ====
section
/-! SUPPORT. The layouts of R38 read back what they lay out, and the fields what they encode. -/

-- One proof after another: the proofs of this file share equation lemmas, and threads that wait for these hold stack.
set_option Elab.async false

namespace Sys2Proof

/-! ## Words and layouts -/

theorem toNat_app {n m : Nat} (x : BitVec n) (y : BitVec m) : (x ++ y).toNat = x.toNat * 2 ^ m + y.toNat := by
  rw [BitVec.toNat_append, Nat.shiftLeft_eq, Nat.mul_comm, ← Nat.two_pow_add_eq_or_of_lt y.isLt, Nat.mul_comm]

theorem bits_toNat (w : Word) (lo n : Nat) : (bits w lo n).toNat = w.toNat / 2 ^ lo % 2 ^ n := by
  simp [bits, Nat.shiftRight_eq_div_pow]


/-- The number of a word of layout LR. -/
theorem LR.toNat_toWord (l : LR) : l.toWord.toNat =
    (((((((((((((0) * 2 ^ 8 + l.opc.toNat) * 2 ^ 6 + l.d.toNat) * 2 ^ 6 + l.a.toNat) * 2 ^ 6 + l.b.toNat) * 2 ^ 6 + l.c.toNat) * 2 ^ 3 + l.m.toNat) * 2 ^ 4 + l.t.toNat) * 2 ^ 3 + l.rm.toNat) * 2 ^ 1 + l.x.toNat) * 2 ^ 3 + l.xm.toNat) * 2 ^ 1 + l.s.toNat) * 2 ^ 7 + l.fn.toNat) * 2 ^ 8 + l.z.toNat := by
  unfold LR.toWord
  refine (toNat_app (n := 56) _ _).trans (congrArg (· * 2 ^ 8 + l.z.toNat) ?_)
  refine (toNat_app (n := 49) _ _).trans (congrArg (· * 2 ^ 7 + l.fn.toNat) ?_)
  refine (toNat_app (n := 48) _ _).trans (congrArg (· * 2 ^ 1 + l.s.toNat) ?_)
  refine (toNat_app (n := 45) _ _).trans (congrArg (· * 2 ^ 3 + l.xm.toNat) ?_)
  refine (toNat_app (n := 44) _ _).trans (congrArg (· * 2 ^ 1 + l.x.toNat) ?_)
  refine (toNat_app (n := 41) _ _).trans (congrArg (· * 2 ^ 3 + l.rm.toNat) ?_)
  refine (toNat_app (n := 37) _ _).trans (congrArg (· * 2 ^ 4 + l.t.toNat) ?_)
  refine (toNat_app (n := 34) _ _).trans (congrArg (· * 2 ^ 3 + l.m.toNat) ?_)
  refine (toNat_app (n := 28) _ _).trans (congrArg (· * 2 ^ 6 + l.c.toNat) ?_)
  refine (toNat_app (n := 22) _ _).trans (congrArg (· * 2 ^ 6 + l.b.toNat) ?_)
  refine (toNat_app (n := 16) _ _).trans (congrArg (· * 2 ^ 6 + l.a.toNat) ?_)
  refine (toNat_app (n := 10) _ _).trans (congrArg (· * 2 ^ 6 + l.d.toNat) ?_)
  refine (toNat_app (n := 2) _ _).trans (congrArg (· * 2 ^ 8 + l.opc.toNat) ?_)
  rfl

/-- Reading the layout back. -/
theorem LR.ofWord_toWord (l : LR) : LR.ofWord l.toWord = l := by
  have h := l.toNat_toWord
  cases l with | mk opc d a b c m t rm x xm s fn z =>
  simp only at h
  simp only [LR.ofWord, LR.mk.injEq]
  have := opc.isLt
  have := d.isLt
  have := a.isLt
  have := b.isLt
  have := c.isLt
  have := m.isLt
  have := t.isLt
  have := rm.isLt
  have := x.isLt
  have := xm.isLt
  have := s.isLt
  have := fn.isLt
  have := z.isLt
  refine ⟨?_, ?_, ?_, ?_, ?_, ?_, ?_, ?_, ?_, ?_, ?_, ?_, ?_⟩ <;>
  · apply BitVec.eq_of_toNat_eq
    rw [bits_toNat, h]
    omega

/-- The opcode and the form of such a word. -/
theorem LR.code_toWord (l : LR) : bits l.toWord 54 8 = l.opc := congrArg LR.opc l.ofWord_toWord

theorem LR.form_toWord (l : LR) : (formOf l.toWord).toNat = 0 := by
  have h := l.toNat_toWord
  have := l.opc.isLt
  have := l.d.isLt
  have := l.a.isLt
  have := l.b.isLt
  have := l.c.isLt
  have := l.m.isLt
  have := l.t.isLt
  have := l.rm.isLt
  have := l.x.isLt
  have := l.xm.isLt
  have := l.s.isLt
  have := l.fn.isLt
  have := l.z.isLt
  unfold formOf
  rw [bits_toNat, h]
  omega

/-- The number of a word of layout LI. -/
theorem LI.toNat_toWord (l : LI) : l.toWord.toNat =
    (((((0) * 2 ^ 8 + l.opc.toNat) * 2 ^ 6 + l.d.toNat) * 2 ^ 6 + l.a.toNat) * 2 ^ 6 + l.fn.toNat) * 2 ^ 36 + l.imm.toNat := by
  unfold LI.toWord
  refine (toNat_app (n := 28) _ _).trans (congrArg (· * 2 ^ 36 + l.imm.toNat) ?_)
  refine (toNat_app (n := 22) _ _).trans (congrArg (· * 2 ^ 6 + l.fn.toNat) ?_)
  refine (toNat_app (n := 16) _ _).trans (congrArg (· * 2 ^ 6 + l.a.toNat) ?_)
  refine (toNat_app (n := 10) _ _).trans (congrArg (· * 2 ^ 6 + l.d.toNat) ?_)
  refine (toNat_app (n := 2) _ _).trans (congrArg (· * 2 ^ 8 + l.opc.toNat) ?_)
  rfl

/-- Reading the layout back. -/
theorem LI.ofWord_toWord (l : LI) : LI.ofWord l.toWord = l := by
  have h := l.toNat_toWord
  cases l with | mk opc d a fn imm =>
  simp only at h
  simp only [LI.ofWord, LI.mk.injEq]
  have := opc.isLt
  have := d.isLt
  have := a.isLt
  have := fn.isLt
  have := imm.isLt
  refine ⟨?_, ?_, ?_, ?_, ?_⟩ <;>
  · apply BitVec.eq_of_toNat_eq
    rw [bits_toNat, h]
    omega

/-- The opcode and the form of such a word. -/
theorem LI.code_toWord (l : LI) : bits l.toWord 54 8 = l.opc := congrArg LI.opc l.ofWord_toWord

theorem LI.form_toWord (l : LI) : (formOf l.toWord).toNat = 0 := by
  have h := l.toNat_toWord
  have := l.opc.isLt
  have := l.d.isLt
  have := l.a.isLt
  have := l.fn.isLt
  have := l.imm.isLt
  unfold formOf
  rw [bits_toNat, h]
  omega

/-- The number of a word of layout LM. -/
theorem LM.toNat_toWord (l : LM) : l.toWord.toNat =
    (((((((((0) * 2 ^ 8 + l.opc.toNat) * 2 ^ 6 + l.d.toNat) * 2 ^ 6 + l.a.toNat) * 2 ^ 6 + l.b.toNat) * 2 ^ 3 + l.sp.toNat) * 2 ^ 4 + l.t.toNat) * 2 ^ 3 + l.m.toNat) * 2 ^ 2 + l.k.toNat) * 2 ^ 24 + l.off.toNat := by
  unfold LM.toWord
  refine (toNat_app (n := 40) _ _).trans (congrArg (· * 2 ^ 24 + l.off.toNat) ?_)
  refine (toNat_app (n := 38) _ _).trans (congrArg (· * 2 ^ 2 + l.k.toNat) ?_)
  refine (toNat_app (n := 35) _ _).trans (congrArg (· * 2 ^ 3 + l.m.toNat) ?_)
  refine (toNat_app (n := 31) _ _).trans (congrArg (· * 2 ^ 4 + l.t.toNat) ?_)
  refine (toNat_app (n := 28) _ _).trans (congrArg (· * 2 ^ 3 + l.sp.toNat) ?_)
  refine (toNat_app (n := 22) _ _).trans (congrArg (· * 2 ^ 6 + l.b.toNat) ?_)
  refine (toNat_app (n := 16) _ _).trans (congrArg (· * 2 ^ 6 + l.a.toNat) ?_)
  refine (toNat_app (n := 10) _ _).trans (congrArg (· * 2 ^ 6 + l.d.toNat) ?_)
  refine (toNat_app (n := 2) _ _).trans (congrArg (· * 2 ^ 8 + l.opc.toNat) ?_)
  rfl

/-- Reading the layout back. -/
theorem LM.ofWord_toWord (l : LM) : LM.ofWord l.toWord = l := by
  have h := l.toNat_toWord
  cases l with | mk opc d a b sp t m k off =>
  simp only at h
  simp only [LM.ofWord, LM.mk.injEq]
  have := opc.isLt
  have := d.isLt
  have := a.isLt
  have := b.isLt
  have := sp.isLt
  have := t.isLt
  have := m.isLt
  have := k.isLt
  have := off.isLt
  refine ⟨?_, ?_, ?_, ?_, ?_, ?_, ?_, ?_, ?_⟩ <;>
  · apply BitVec.eq_of_toNat_eq
    rw [bits_toNat, h]
    omega

/-- The opcode and the form of such a word. -/
theorem LM.code_toWord (l : LM) : bits l.toWord 54 8 = l.opc := congrArg LM.opc l.ofWord_toWord

theorem LM.form_toWord (l : LM) : (formOf l.toWord).toNat = 0 := by
  have h := l.toNat_toWord
  have := l.opc.isLt
  have := l.d.isLt
  have := l.a.isLt
  have := l.b.isLt
  have := l.sp.isLt
  have := l.t.isLt
  have := l.m.isLt
  have := l.k.isLt
  have := l.off.isLt
  unfold formOf
  rw [bits_toNat, h]
  omega

/-- The number of a word of layout LB. -/
theorem LB.toNat_toWord (l : LB) : l.toWord.toNat =
    (((((0) * 2 ^ 8 + l.opc.toNat) * 2 ^ 6 + l.a.toNat) * 2 ^ 6 + l.b.toNat) * 2 ^ 4 + l.cc.toNat) * 2 ^ 38 + l.disp.toNat := by
  unfold LB.toWord
  refine (toNat_app (n := 26) _ _).trans (congrArg (· * 2 ^ 38 + l.disp.toNat) ?_)
  refine (toNat_app (n := 22) _ _).trans (congrArg (· * 2 ^ 4 + l.cc.toNat) ?_)
  refine (toNat_app (n := 16) _ _).trans (congrArg (· * 2 ^ 6 + l.b.toNat) ?_)
  refine (toNat_app (n := 10) _ _).trans (congrArg (· * 2 ^ 6 + l.a.toNat) ?_)
  refine (toNat_app (n := 2) _ _).trans (congrArg (· * 2 ^ 8 + l.opc.toNat) ?_)
  rfl

/-- Reading the layout back. -/
theorem LB.ofWord_toWord (l : LB) : LB.ofWord l.toWord = l := by
  have h := l.toNat_toWord
  cases l with | mk opc a b cc disp =>
  simp only at h
  simp only [LB.ofWord, LB.mk.injEq]
  have := opc.isLt
  have := a.isLt
  have := b.isLt
  have := cc.isLt
  have := disp.isLt
  refine ⟨?_, ?_, ?_, ?_, ?_⟩ <;>
  · apply BitVec.eq_of_toNat_eq
    rw [bits_toNat, h]
    omega

/-- The opcode and the form of such a word. -/
theorem LB.code_toWord (l : LB) : bits l.toWord 54 8 = l.opc := congrArg LB.opc l.ofWord_toWord

theorem LB.form_toWord (l : LB) : (formOf l.toWord).toNat = 0 := by
  have h := l.toNat_toWord
  have := l.opc.isLt
  have := l.a.isLt
  have := l.b.isLt
  have := l.cc.isLt
  have := l.disp.isLt
  unfold formOf
  rw [bits_toNat, h]
  omega

/-- The number of a word of layout LE. -/
theorem LE.toNat_toWord (l : LE) : l.toWord.toNat =
    (((((((0) * 2 ^ 8 + l.opc.toNat) * 2 ^ 6 + l.d.toNat) * 2 ^ 6 + l.a.toNat) * 2 ^ 6 + l.b.toNat) * 2 ^ 6 + l.c.toNat) * 2 ^ 6 + l.fn.toNat) * 2 ^ 24 + l.imm.toNat := by
  unfold LE.toWord
  refine (toNat_app (n := 40) _ _).trans (congrArg (· * 2 ^ 24 + l.imm.toNat) ?_)
  refine (toNat_app (n := 34) _ _).trans (congrArg (· * 2 ^ 6 + l.fn.toNat) ?_)
  refine (toNat_app (n := 28) _ _).trans (congrArg (· * 2 ^ 6 + l.c.toNat) ?_)
  refine (toNat_app (n := 22) _ _).trans (congrArg (· * 2 ^ 6 + l.b.toNat) ?_)
  refine (toNat_app (n := 16) _ _).trans (congrArg (· * 2 ^ 6 + l.a.toNat) ?_)
  refine (toNat_app (n := 10) _ _).trans (congrArg (· * 2 ^ 6 + l.d.toNat) ?_)
  refine (toNat_app (n := 2) _ _).trans (congrArg (· * 2 ^ 8 + l.opc.toNat) ?_)
  rfl

/-- Reading the layout back. -/
theorem LE.ofWord_toWord (l : LE) : LE.ofWord l.toWord = l := by
  have h := l.toNat_toWord
  cases l with | mk opc d a b c fn imm =>
  simp only at h
  simp only [LE.ofWord, LE.mk.injEq]
  have := opc.isLt
  have := d.isLt
  have := a.isLt
  have := b.isLt
  have := c.isLt
  have := fn.isLt
  have := imm.isLt
  refine ⟨?_, ?_, ?_, ?_, ?_, ?_, ?_⟩ <;>
  · apply BitVec.eq_of_toNat_eq
    rw [bits_toNat, h]
    omega

/-- The opcode and the form of such a word. -/
theorem LE.code_toWord (l : LE) : bits l.toWord 54 8 = l.opc := congrArg LE.opc l.ofWord_toWord

theorem LE.form_toWord (l : LE) : (formOf l.toWord).toNat = 0 := by
  have h := l.toNat_toWord
  have := l.opc.isLt
  have := l.d.isLt
  have := l.a.isLt
  have := l.b.isLt
  have := l.c.isLt
  have := l.fn.isLt
  have := l.imm.isLt
  unfold formOf
  rw [bits_toNat, h]
  omega

/-! ## Field values -/

@[simp] theorem Ty.ofBits_toBits (x : Ty) : Ty.ofBits x.toBits = some x := by cases x <;> rfl
@[simp] theorem FTy.ofBits_toBits (x : FTy) : FTy.ofBits x.toBits = some x := by cases x <;> rfl
@[simp] theorem Rm.ofBits_toBits (x : Rm) : Rm.ofBits x.toBits = some x := by cases x <;> rfl
@[simp] theorem Space.ofBits_toBits (x : Space) : Space.ofBits x.toBits = some x := by cases x <;> rfl
@[simp] theorem CC.ofBits_toBits (x : CC) : CC.ofBits x.toBits = some x := by cases x <;> rfl
@[simp] theorem LdW.ofBits_toBits (x : LdW) : LdW.ofBits x.toBits = some x := by cases x <;> rfl
@[simp] theorem StW.ofBits_toBits (x : StW) : StW.ofBits x.toBits = some x := by cases x <;> rfl
@[simp] theorem AmoOp.ofBits_toBits (x : AmoOp) : AmoOp.ofBits x.toBits = some x := by cases x <;> rfl
@[simp] theorem VAmoOp.ofBits_toBits (x : VAmoOp) : VAmoOp.ofBits x.toBits = some x := by cases x <;> rfl
@[simp] theorem VRel.ofBits_toBits (x : VRel) : VRel.ofBits x.toBits = some x := by cases x <;> rfl
@[simp] theorem RedOp.ofBits_toBits (x : RedOp) : RedOp.ofBits x.toBits = some x := by cases x <;> rfl
@[simp] theorem AKind.ofBits_toBits (x : AKind) : AKind.ofBits x.toBits = some x := by cases x <;> rfl
@[simp] theorem Scope.ofBits_toBits (x : Scope) : Scope.ofBits x.toBits = x := by cases x <;> rfl
@[simp] theorem MOp.ofBits_toBits (x : MOp) : MOp.ofBits x.toBits = x := by cases x <;> rfl
@[simp] theorem FRel.ofBits_toBits (x : FRel) : FRel.ofBits x.toBits = x := by cases x <;> rfl

/-! ## The opcode map (R44) -/

theorem Major.ofCode_code (m : Major) : Major.ofCode m.code = some m := by cases m <;> rfl

/-- What a parsed instruction comes to. -/
def Decoded.ofParse : Option Instr → Decoded
  | some i => if i.accepted then .one i else .reject .fields
  | none => .reject .fields

theorem Decoded.ofParse_some (i : Instr) (h : i.wf = true) : Decoded.ofParse (some i) = .one i := by
  simp [Decoded.ofParse, Instr.accepted, h]

theorem decodeWord_LR (l : LR) (mj : Major) (hc : l.opc = mj.code) (hl : mj.layout = .r) :
    decodeWord l.toWord = Decoded.ofParse (l.parse mj) := by
  have hf := l.form_toWord
  unfold decodeWord
  rw [hf, l.code_toWord, hc, Major.ofCode_code]
  simp only [decodeFull, hl, l.ofWord_toWord, Decoded.ofParse]
  all_goals rfl

theorem decodeWord_LI (l : LI) (mj : Major) (hc : l.opc = mj.code) (hl : mj.layout = .i) :
    decodeWord l.toWord = Decoded.ofParse (l.parse mj) := by
  have hf := l.form_toWord
  unfold decodeWord
  rw [hf, l.code_toWord, hc, Major.ofCode_code]
  simp only [decodeFull, hl, l.ofWord_toWord, Decoded.ofParse]
  all_goals rfl

theorem decodeWord_LM (l : LM) (mj : Major) (hc : l.opc = mj.code) (hl : mj.layout = .m) :
    decodeWord l.toWord = Decoded.ofParse (l.parse mj) := by
  have hf := l.form_toWord
  unfold decodeWord
  rw [hf, l.code_toWord, hc, Major.ofCode_code]
  simp only [decodeFull, hl, l.ofWord_toWord, Decoded.ofParse]
  all_goals rfl

theorem decodeWord_LB (l : LB) (mj : Major) (hc : l.opc = mj.code) (hl : mj.layout = .b) :
    decodeWord l.toWord = Decoded.ofParse (l.parse mj) := by
  have hf := l.form_toWord
  unfold decodeWord
  rw [hf, l.code_toWord, hc, Major.ofCode_code]
  simp only [decodeFull, hl, l.ofWord_toWord, Decoded.ofParse]
  all_goals rfl

theorem decodeWord_LE (l : LE) (mj : Major) (hc : l.opc = mj.code) (hl : mj.layout = .e) :
    decodeWord l.toWord = Decoded.ofParse (l.parse mj) := by
  have hf := l.form_toWord
  unfold decodeWord
  rw [hf, l.code_toWord, hc, Major.ofCode_code]
  simp only [decodeFull, hl, l.ofWord_toWord, Decoded.ofParse]
  all_goals rfl

end Sys2Proof
end

