-- ==== Sys2Proof/Laws/Ends.lean ====
section
/-! SUPPORT. The ends of meanings in the terms of Safety. -/

-- One proof after another: the proofs of this file share equation lemmas, and threads that wait for these hold stack.
set_option Elab.async false

namespace Sys2Proof.Machine

/-- Completion of an instruction that changes its hart alone. -/
theorem State.retire_setHart (s : State) (y : Hart) (pc : Word) : (s.setHart s.cur y).retire s.cur pc = s.jumped y pc := by
  simp [State.retire, State.setHart, State.happen, State.jumped, State.hart]

theorem State.done_eq (s : State) (y : Hart) (n : Nat) : s.done y n = s.jumped y (s.me.pc + BitVec.ofNat 64 n) := rfl

theorem State.retire_me (s : State) (pc : Word) : s.retire s.cur pc = s.jumped s.me pc := rfl

theorem finish_setHart (s : State) (y : Hart) (h : y.pc = s.me.pc) : finish s (.ok (s.setHart s.cur y)) = .next (s.done y 8) := by
  rw [finish_ok, State.hart_setHart, h, State.retire_setHart, State.done_eq]
  rfl

theorem State.onHart_done (s : State) (f : Hart → Hart) (h : (f s.me).pc = s.me.pc) :
    s.onHart f = .next (s.done (f s.me) 8) := finish_setHart s (f s.me) h

theorem State.onHart_wr (s : State) (d : Reg) (v : Hart → Word) :
    s.onHart (fun x => x.wr d (v x)) = .next (s.done (s.me.wr d (v s.me)) 8) := s.onHart_done _ (by simp)

theorem finish_self (s : State) : finish s (.ok s) = .next (s.done s.me 8) := by
  rw [finish_ok]; rfl

theorem finish_result (s : State) (d : Reg) (v : Word) : finish s (.ok (s.result d v)) = .next (s.done (s.me.wr d v) 8) :=
  finish_setHart s (s.me.wr d v) (by simp)

theorem finish_trapped (s : State) (cause : Nat) (v : Word) (q : s.me.queueIdle = true) :
    finish s (.trap s cause v) = .next (s.trapped cause v) := finish_trap s s cause v q

/-- Completion after a change outside the harts. -/
theorem finish_next_pc (s t : State) (h : (t.hart s.cur).pc = s.me.pc) :
    finish s (.ok t) = .next (t.retire s.cur (s.me.pc + 8)) := by rw [finish_ok, h]

end Sys2Proof.Machine
end

