-- ==== Sys2Proof/Laws/Memory.lean ====
section
/-! SUPPORT. Reading back what was written to a memory. -/

-- One proof after another: the proofs of this file share equation lemmas, and threads that wait for these hold stack.
set_option Elab.async false

namespace Sys2Proof.Machine

/-- Memories that agree on a range read alike there. -/
theorem Memory.readN_congr (m n : Memory) (a k : Nat) (h : ∀ i, i < k → m.read (a + i) = n.read (a + i)) :
    m.readN a k = n.readN a k := by
  induction k generalizing a with
  | zero => rfl
  | succ k ih =>
    have h0 : m.read a = n.read a := h 0 (by omega)
    have h1 : ∀ i, i < k → m.read (a + 1 + i) = n.read (a + 1 + i) := by
      intro i hi
      have := h (i + 1) (by omega)
      rwa [show a + (i + 1) = a + 1 + i by omega] at this
    simp only [Memory.readN]
    rw [h0, ih (a + 1) h1]

@[simp] theorem Memory.readN_length (m : Memory) (a k : Nat) : (m.readN a k).length = k := by
  induction k generalizing a with
  | zero => rfl
  | succ k ih => simp [Memory.readN, ih]

/-- Bytes written at an address read back from there. -/
theorem Memory.readN_writeN_self {m : Memory} (hm : m.wf = true) (a : Nat) (bs : List Byte) :
    (m.writeN a bs).readN a bs.length = bs := by
  induction bs generalizing m a with
  | nil => rfl
  | cons b bs ih =>
    have hw := Memory.wf_write hm a b
    simp only [Memory.writeN, List.length_cons, Memory.readN]
    rw [ih hw, Memory.read_writeN hw, if_neg (by omega), Memory.read_write (lo := 0) hm, if_pos rfl]

/-- A range that the written bytes do not meet reads as before. -/
theorem Memory.readN_writeN_ne {m : Memory} (hm : m.wf = true) (a b k : Nat) (bs : List Byte)
    (h : b + k ≤ a ∨ a + bs.length ≤ b) : (m.writeN a bs).readN b k = m.readN b k := by
  apply Memory.readN_congr
  intro i hi
  rw [Memory.read_writeN hm, if_neg (by omega)]

theorem Memory.writeN_append (m : Memory) (a : Nat) (xs ys : List Byte) :
    m.writeN a (xs ++ ys) = (m.writeN a xs).writeN (a + xs.length) ys := by
  induction xs generalizing m a with
  | nil => rfl
  | cons x xs ih =>
    simp only [List.cons_append, Memory.writeN, ih, List.length_cons]
    congr 1; omega

/-- A number written at an address reads back from there. -/
theorem Memory.readLe_writeLe {m : Memory} (hm : m.wf = true) (a n x : Nat) :
    (m.writeLe a n x).readLe a n = x % 256 ^ n := by
  have := Memory.readN_writeN_self hm a (leBytes n x)
  simp only [leBytes_length] at this
  simp only [Memory.readLe, Memory.writeLe, this, leNat_leBytes]

theorem Memory.readLe_writeLe_of_lt {m : Memory} (hm : m.wf = true) (a n x : Nat) (h : x < 256 ^ n) :
    (m.writeLe a n x).readLe a n = x := by rw [Memory.readLe_writeLe hm, Nat.mod_eq_of_lt h]

/-- A byte outside a written number reads as before. -/
theorem Memory.read_writeLe_ne {m : Memory} (hm : m.wf = true) (a n x p : Nat) (h : p < a ∨ a + n ≤ p) :
    (m.writeLe a n x).read p = m.read p := by
  rw [Memory.writeLe, Memory.read_writeN hm, if_neg (by simp only [leBytes_length]; omega)]

theorem leNat_lt (bs : List Byte) : leNat bs < 256 ^ bs.length := by
  induction bs with
  | nil => simp [leNat]
  | cons b bs ih =>
    have hb : b.toNat < 256 := b.isLt
    simp only [leNat, List.length_cons, Nat.pow_succ]
    omega

theorem Memory.readLe_lt (m : Memory) (a n : Nat) : m.readLe a n < 256 ^ n := by
  have := leNat_lt (m.readN a n)
  rwa [Memory.readN_length] at this

end Sys2Proof.Machine
end

