-- ==== Sys2Proof/Laws/Frames.lean ====
section
/-! SUPPORT. What the homes and translation may change: memory, poison, cores, dies, tables, filters, writes held at homes, free
values used, what the step waits for and the count of what has happened; memory keeps its canonical form. Everything else of the package, the harts first of all, stays as it was. -/

-- One proof after another: the proofs of this file share equation lemmas, and threads that wait for these hold stack.
set_option Elab.async false

namespace Sys2Proof.Machine

/-- What every step of a fold keeps, the fold keeps. -/
theorem foldl_keeps {α β : Type} {P : β → Prop} (f : β → α → β) (h : ∀ b a, P b → P (f b a)) (l : List α) (b : β)
    (hb : P b) : P (l.foldl f b) := by
  induction l generalizing b with
  | nil => exact hb
  | cons a l ih => exact ih (f b a) (h b a hb)

/-- `t` differs from `s` at most in what the homes keep, and its memory is canonical where that of `s` is. -/
structure HomeFrame (s t : State) : Prop where
  wf : s.mem.wf = true → t.mem.wf = true
  rest : t = { s with mem := t.mem, bad := t.bad, cores := t.cores, dies := t.dies, tables := t.tables
                      heldPuts := t.heldPuts, snoops := t.snoops, filters := t.filters, fresh := t.fresh, epoch := t.epoch, want := t.want }

namespace HomeFrame

theorem refl (s : State) : HomeFrame s s := ⟨id, rfl⟩

theorem trans {s t u : State} (a : HomeFrame s t) (b : HomeFrame t u) : HomeFrame s u := by
  refine ⟨fun h => b.wf (a.wf h), ?_⟩
  have h := b.rest
  rw [a.rest] at h
  exact h

variable {s t : State} (a : HomeFrame s t)
include a

theorem harts : t.harts = s.harts := by rw [a.rest]
theorem cur : t.cur = s.cur := by rw [a.rest]
theorem gtime : t.gtime = s.gtime := by rw [a.rest]
theorem fatal : t.fatal = s.fatal := by rw [a.rest]
theorem agenda : t.agenda = s.agenda := by rw [a.rest]
theorem regs : t.regs = s.regs := by rw [a.rest]
theorem atoms : t.atoms = s.atoms := by rw [a.rest]
theorem ras : t.ras = s.ras := by rw [a.rest]
theorem packs : t.packs = s.packs := by rw [a.rest]
theorem holds : t.holds = s.holds := by rw [a.rest]
theorem bias : t.bias = s.bias := by rw [a.rest]
theorem hart (h : Nat) : t.hart h = s.hart h := congrArg (fun l => getAt Hart.reset l h) a.harts

/-- The issuing hart is the same. -/
theorem me : t.me = s.me := by
  show t.hart t.cur = s.hart s.cur
  rw [a.cur, a.hart]

end HomeFrame

theorem HomeFrame.fold {α : Type} (f : State → α → State) (h : ∀ b x, HomeFrame b (f b x)) (l : List α) (s : State) :
    HomeFrame s (l.foldl f s) :=
  foldl_keeps (P := HomeFrame s) f (fun b x hb => hb.trans (h b x)) l s (.refl s)

/-! ## The homes -/

theorem State.modCore_frame (s : State) (c : Nat) (f : Core → Core) : HomeFrame s (s.modCore c f) := ⟨id, rfl⟩
theorem State.modDie_frame (s : State) (d : Nat) (f : Die → Die) : HomeFrame s (s.modDie d f) := ⟨id, rfl⟩
theorem State.setTable_frame (s : State) (pa : Nat) (t : List RangeEntry) : HomeFrame s (s.setTable pa t) := ⟨id, rfl⟩
theorem State.happen_frame (s : State) : HomeFrame s s.happen := ⟨id, rfl⟩
theorem State.noteWrite_frame (s : State) (o : Option (Nat × Nat)) (pa n : Nat) : HomeFrame s (s.noteWrite o pa n) :=
  ⟨id, rfl⟩
theorem State.memPut_frame (s : State) (pa : Nat) (bs : List Byte) : HomeFrame s (s.memPut pa bs) :=
  ⟨fun h => Memory.wf_writeN h pa bs, rfl⟩
/-- Memory changes by a write of a number. -/
theorem State.memWrite_frame (s : State) (a n x : Nat) : HomeFrame s { s with mem := s.mem.writeLe a n x } :=
  ⟨fun h => Memory.wf_writeLe h a n x, rfl⟩

/-- The step waits, and nothing else. -/
theorem State.want_frame (s : State) (o : Option (Nat × Nat × Bool)) : HomeFrame s { s with want := o } := ⟨id, rfl⟩
theorem State.fresh_frame (s : State) (n : Nat) : HomeFrame s { s with fresh := n } := ⟨id, rfl⟩

theorem State.writeBack_frame (s : State) (w : Nat) : HomeFrame s (s.writeBack w) := by
  unfold State.writeBack
  split
  · exact (State.modCore_frame _ _ _).trans (State.memWrite_frame _ _ _ _)
  · exact .refl s

theorem State.recallEntry_frame (s : State) (pa : Nat) (e : RangeEntry) : HomeFrame s (s.recallEntry pa e) :=
  (HomeFrame.fold _ State.writeBack_frame _ s).trans (State.setTable_frame _ _ _)

theorem State.makeRoom_frame (s : State) (pa n k : Nat) : HomeFrame s (s.makeRoom pa n k) := by
  induction k generalizing s with
  | zero => exact .refl s
  | succ k ih =>
    unfold State.makeRoom
    split
    · exact .refl s
    · split
      · exact .refl s
      · exact (s.recallEntry_frame _ _).trans (ih _)

theorem State.leaveTable_frame (s : State) (w : Nat) : HomeFrame s (s.leaveTable w) :=
  (s.makeRoom_frame _ _ _).trans (State.setTable_frame _ _ _)

theorem State.recall_frame (s : State) (w : Nat) : HomeFrame s (s.recall w) := by
  unfold State.recall
  split
  · exact (s.writeBack_frame w).trans (State.leaveTable_frame _ _)
  · exact .refl s

theorem State.recallRange_frame (s : State) (pa n : Nat) : HomeFrame s (s.recallRange pa n) :=
  HomeFrame.fold _ State.recall_frame _ s

theorem State.enterRange_frame (s : State) (r : RangeEntry) : HomeFrame s (s.enterRange r) := by
  unfold State.enterRange
  split
  · exact s.setTable_frame _ _
  · exact (s.makeRoom_frame _ _ _).trans (State.setTable_frame _ _ _)

/-- A snoop may start. -/
theorem State.snoopFor_frame (s : State) (pa n : Nat) : HomeFrame s (s.snoopFor pa n) := by
  unfold State.snoopFor
  split
  · exact .refl s
  · split
    · unfold State.sendSnoop
      split
      · exact .refl s
      · exact ⟨id, rfl⟩
    · exact .refl s

/-- A write that the homes may hold. -/
theorem State.devPut_frame (s : State) (pa : Nat) (bs : List Byte) : HomeFrame s (s.devPut pa bs) := by
  unfold State.devPut
  split
  · exact (s.snoopFor_frame _ _).trans ⟨id, rfl⟩
  · exact ((s.recallRange_frame _ _).trans (State.memPut_frame _ _ _)).trans (State.noteWrite_frame _ _ _ _)

/-- A write at a home. -/
theorem State.homeWrite_frame (s : State) (o : Option Owner) (pa : Nat) (bs : List Byte) :
    HomeFrame s (s.homeWrite o pa bs) := by
  unfold State.homeWrite
  dsimp only
  refine .trans (.trans ?_ (State.noteWrite_frame _ _ _ _)) (State.happen_frame _)
  have h0 := (s.recallRange_frame pa bs.length).trans (State.memPut_frame _ pa bs)
  cases o with
  | none => exact h0
  | some o => exact h0.trans (HomeFrame.fold _ (fun b w => b.enterRange_frame (wordRange o w)) _ _)

/-- A read that may have to wait. -/
theorem State.lookAt_frame (s : State) (pa n : Nat) : HomeFrame s (s.lookAt pa n) := by
  unfold State.lookAt
  split
  · exact s.want_frame _
  · exact .refl s

/-- A write that may have to wait. -/
theorem State.agentWrite_frame (s : State) (o : Option Owner) (pa : Nat) (bs : List Byte) :
    HomeFrame s (s.agentWrite o pa bs) := by
  unfold State.agentWrite
  split
  · exact s.want_frame _
  · exact s.homeWrite_frame o pa bs

/-- An atomic step at a word's unit. -/
theorem State.atomicAt_frame (s : State) (core : Nat) (p : Place) (n : Nat) (op : AtomOp) (operand : Nat) :
    HomeFrame s (s.atomicAt core p n op operand).2.2 := by
  unfold State.atomicAt
  cases p with
  | aspace c off =>
    dsimp only
    split
    · exact ((s.modCore_frame _ _).trans (State.noteWrite_frame _ _ _ _)).trans (State.happen_frame _)
    · exact s.happen_frame
  | phys pa =>
    dsimp only
    have h0 := fun f => (s.recallRange_frame pa n).trans (State.modCore_frame _ core f)
    split
    · exact (((h0 _).trans (State.memWrite_frame _ _ _ _)).trans (State.noteWrite_frame _ _ _ _)).trans (State.happen_frame _)
    · exact (h0 _).trans (State.happen_frame _)

/-! ## Records (R162, R276) -/

theorem State.tracePut_frame (s : State) (c : Nat) (a b : Word) : HomeFrame s (s.tracePut c a b) := by
  unfold State.tracePut
  dsimp only
  split
  · exact .refl s
  · split
    · exact (s.devPut_frame _ _).trans (State.modCore_frame _ _ _)
    · exact s.modCore_frame _ _

theorem State.writeRecord_frame (s : State) (c kind hart info cyc : Nat) (w : Word) :
    HomeFrame s (s.writeRecord c kind hart info cyc w) := by
  unfold State.writeRecord
  dsimp only
  split
  · exact ((s.tracePut_frame _ _ _).trans (State.modCore_frame _ _ _)).trans (State.tracePut_frame _ _ _ _)
  · exact s.tracePut_frame _ _ _

theorem State.record_frame (s : State) (c kind hart info : Nat) (w : Word) : HomeFrame s (s.record c kind hart info w) := by
  unfold State.record
  split
  · exact s.writeRecord_frame _ _ _ _ _ _
  · exact .refl s

theorem State.logErr_frame (s : State) (d : Nat) (r : ErrRec) : HomeFrame s (s.logErr d r) := s.modDie_frame d _
theorem State.logDiscard_frame (s : State) (d level : Nat) (a : Word) : HomeFrame s (s.logDiscard d level a) := s.logErr_frame d _

/-! ## Translation (R190 to R195) -/

/-- `t` differs from `s` at most in what a translation may change: what the homes keep, and asynchronous causes that wait
(the alias report of R189). -/
structure TrFrame (s t : State) : Prop where
  wf : s.mem.wf = true → t.mem.wf = true
  rest : t = { s with harts := t.harts, mem := t.mem, bad := t.bad, cores := t.cores, dies := t.dies, tables := t.tables
                      heldPuts := t.heldPuts, snoops := t.snoops, filters := t.filters, fresh := t.fresh, epoch := t.epoch, want := t.want }
  hart : ∀ h, t.hart h = { s.hart h with asyncs := (t.hart h).asyncs }

namespace TrFrame

theorem ofHome {s t : State} (a : HomeFrame s t) : TrFrame s t := by
  refine ⟨a.wf, ?_, fun h => ?_⟩
  · have h := a.rest
    rw [h]
  · rw [a.hart]

theorem refl (s : State) : TrFrame s s := .ofHome (.refl s)

theorem trans {s t u : State} (a : TrFrame s t) (b : TrFrame t u) : TrFrame s u := by
  refine ⟨fun h => b.wf (a.wf h), ?_, fun h => ?_⟩
  · have h := b.rest
    rw [a.rest] at h
    exact h
  · have e := b.hart h
    rw [a.hart h] at e
    exact e

variable {s t : State} (a : TrFrame s t)
include a

theorem cur : t.cur = s.cur := by rw [a.rest]
theorem gtime : t.gtime = s.gtime := by rw [a.rest]
theorem fatal : t.fatal = s.fatal := by rw [a.rest]
theorem agenda : t.agenda = s.agenda := by rw [a.rest]
theorem regs : t.regs = s.regs := by rw [a.rest]
theorem atoms : t.atoms = s.atoms := by rw [a.rest]
theorem ras : t.ras = s.ras := by rw [a.rest]
theorem packs : t.packs = s.packs := by rw [a.rest]
theorem holds : t.holds = s.holds := by rw [a.rest]
theorem bias : t.bias = s.bias := by rw [a.rest]

/-- The issuing hart is the same but for causes that wait. -/
theorem me : t.me = { s.me with asyncs := t.me.asyncs } := by
  show t.hart t.cur = { s.hart s.cur with asyncs := (t.hart t.cur).asyncs }
  rw [a.cur]
  exact a.hart s.cur

theorem rd (r : Reg) : t.me.rd r = s.me.rd r := by rw [a.me]; rfl

end TrFrame

theorem State.dropFirst_frame (s : State) (d : Nat) (p : TlbEntry → Bool) : HomeFrame s (s.dropFirst d p) := by
  refine HomeFrame.fold _ (fun b c => ?_) _ s
  split
  · exact b.modCore_frame _ _
  · exact .refl b

/-- More causes wait at a hart. -/
theorem State.modAsyncs_frame (s : State) (k : Nat) (f : Hart → List (Nat × Word)) :
    TrFrame s (s.modHart k fun x => { x with asyncs := f x }) := by
  refine ⟨id, rfl, fun h => ?_⟩
  by_cases e : k = h
  · subst e
    simp [State.modHart]
  · simp [State.modHart, State.hart_setHart_ne _ _ _ _ e]

theorem State.probeAlias_frame (s : State) (d : Nat) (t : TlbEntry) : TrFrame s (s.probeAlias d t) := by
  unfold State.probeAlias
  split
  · split
    · exact s.modAsyncs_frame _ _
    · exact .refl s
  · exact .refl s

theorem State.fillL2_frame (s : State) (d : Nat) (t : TlbEntry) : TrFrame s (s.fillL2 d t) := by
  unfold State.fillL2
  dsimp only
  have h0 := fun f => (s.probeAlias_frame d t).trans (.ofHome (State.modDie_frame _ d f))
  split
  · exact h0 _
  · exact (h0 _).trans (.ofHome (State.dropFirst_frame _ _ _))

theorem State.markPte_frame (s : State) (acc : Acc) (a : Nat) (e : Word) : HomeFrame s (s.markPte acc a e).1 := by
  unfold State.markPte
  generalize (e ||| 0x40#64 ||| if acc = Acc.store then 0x80#64 else 0#64) = e'
  dsimp only
  split
  · exact .refl s
  · exact s.agentWrite_frame none a (leBytes 8 e'.toNat)

theorem State.walkFill_frame (s : State) (x : Ctx) (acc : Acc) (va : Nat) : TrFrame s (s.walkFill x acc va).1 := by
  unfold State.walkFill
  split
  · exact .refl s
  · exact .ofHome (s.lookAt_frame _ _)
  · split
    · exact .refl s
    · split
      · exact .refl s
      · rename_i a e _ _ _
        have h := s.markPte_frame acc a e
        generalize s.markPte acc a e = m at h ⊢
        exact ((TrFrame.ofHome h).trans (State.fillL2_frame _ _ _)).trans
          (.ofHome (State.modCore_frame _ x.core fun c => c.fillTlb (sliceOf va) (tlbOf x.satp va _ m.2)))

theorem State.translate_frame (s : State) (x : Ctx) (acc : Acc) (va : Word) : TrFrame s (s.translate x acc va).1 := by
  unfold State.translate
  dsimp only
  split
  · exact .refl s
  · split
    · exact .refl s
    · split
      · split
        · exact .refl s
        · exact s.walkFill_frame _ _ _
      · split
        · rename_i t _
          split
          · exact .ofHome (s.modCore_frame x.core fun c => c.fillTlb (sliceOf va.toNat) t)
          · exact s.walkFill_frame _ _ _
        · exact s.walkFill_frame _ _ _

theorem State.agentRead_frame (s : State) (x : Ctx) (va : Word) (n : Nat) : TrFrame s (s.agentRead x va n).1 := by
  unfold State.agentRead
  have := s.translate_frame x .load va
  split <;> rename_i e <;> rw [e] at this
  · split
    · exact this
    · exact this.trans (.ofHome (State.lookAt_frame _ _ _))
  · exact this

theorem State.locateG_frame (s : State) (h : Nat) (acc : Acc) (va : Word) (n : Nat) :
    TrFrame s (s.locateG h acc va n).1 := by
  unfold State.locateG
  split
  · exact .refl s
  · have := s.translate_frame (s.ctx h) acc va
    split <;> rename_i e <;> rw [e] at this <;> exact this

/-- Locating an access. -/
theorem State.locate_frame (s : State) (h : Nat) (sp : Space) (acc : Acc) (va : Word) (n : Nat) :
    TrFrame s (s.locate h sp acc va n).1 := by
  unfold State.locate
  dsimp only
  split
  · exact s.locateG_frame h acc va n
  · exact s.locateG_frame h acc va n
  · exact .refl s
  · exact .refl s
  · exact .refl s
  · split
    · exact .refl s
    · split <;> exact .refl s

theorem State.translate_cur (s : State) (x : Ctx) (acc : Acc) (va : Word) : (s.translate x acc va).1.cur = s.cur :=
  (s.translate_frame x acc va).cur
theorem State.locateG_cur (s : State) (h : Nat) (acc : Acc) (va : Word) (n : Nat) :
    (s.locateG h acc va n).1.cur = s.cur := (s.locateG_frame h acc va n).cur
theorem State.locate_cur (s : State) (h : Nat) (sp : Space) (acc : Acc) (va : Word) (n : Nat) :
    (s.locate h sp acc va n).1.cur = s.cur := (s.locate_frame h sp acc va n).cur

theorem ULine.cleanWord_frame (u : ULine) (s : State) (k : Nat) : HomeFrame s (u.cleanWord s k) := by
  unfold ULine.cleanWord
  split
  · exact s.devPut_frame _ _
  · refine HomeFrame.fold _ (fun b i => ?_) _ s
    split
    · exact b.devPut_frame _ _
    · exact .refl b

theorem State.cleanLine_frame (s : State) (c line : Nat) : HomeFrame s (s.cleanLine c line) := by
  unfold State.cleanLine
  split
  · exact .refl s
  · exact ((HomeFrame.fold _ (ULine.cleanWord_frame _) _ s).trans (State.modCore_frame _ _ _)).trans (State.happen_frame _)

theorem State.evictWord_frame (s : State) (c w : Nat) : HomeFrame s (s.evictWord c w) := by
  unfold State.evictWord
  dsimp only
  split
  · split
    · exact (s.recall_frame w).trans (State.modCore_frame _ _ _)
    · exact s.modCore_frame _ _
  · exact s.modCore_frame _ _

theorem State.evictLine_frame (s t : State) (c line : Nat) (h : s.evictLine c line = some t) : HomeFrame s t := by
  unfold State.evictLine at h
  dsimp only at h
  split at h
  · cases h
  · have h0 := HomeFrame.fold (fun (t : State) w => t.evictWord c w) (fun b w => b.evictWord_frame c w)
    split at h <;> cases h
    · exact ((h0 _ s).trans (State.cleanLine_frame _ _ _)).trans (State.modCore_frame _ _ _)
    · exact h0 _ s

theorem State.roomL1_frame (s : State) (c line : Nat) : HomeFrame s (s.roomL1 c line) := by
  unfold State.roomL1
  dsimp only
  split
  · exact .refl s
  · split
    · exact .refl s
    · split
      · rename_i l _
        cases h : s.evictLine c l with
        | none => exact .refl s
        | some t => exact s.evictLine_frame t c l h
      · exact .refl s

/-- A fill of L1 changes one core, and what leaves it for room. -/
theorem State.fill_frame (s : State) (c : Nat) (va : Word) (pa n : Nat) : HomeFrame s (s.fill c va pa n) := by
  unfold State.fill
  refine ((s.roomL1_frame c (pa / 64)).trans (State.fresh_frame _ _)).trans (HomeFrame.fold _ (fun b w => ?_) _ _)
  dsimp only
  split
  · exact .refl b
  · split
    · exact .refl b
    · exact b.modCore_frame _ _

theorem State.fill_harts (s : State) (c : Nat) (va : Word) (pa n : Nat) :
    (s.fill c va pa n).harts = s.harts ∧ (s.fill c va pa n).cur = s.cur :=
  ⟨(s.fill_frame c va pa n).harts, (s.fill_frame c va pa n).cur⟩

/-! ## The hart at a trap (R259, R334) -/

/-- What taking the youngest instructions back may change of a hart: the scalar state as the oldest queued instruction found
it. -/
theorem Hart.rollBack_shape (x : Hart) : ∃ ss sb fl, x.rollBack = { x with s := ss, sbad := sb, fflags := fl } := by
  unfold Hart.rollBack
  split <;> exact ⟨_, _, _, rfl⟩

/-- What taking an issue back may change of a hart. -/
theorem Hart.undoIssue_shape (x : Hart) (e : VEntry) :
    ∃ tl land, x.undoIssue e = { x with tl := tl, landing := land } := by
  unfold Hart.undoIssue
  split <;> exact ⟨_, _, rfl⟩

theorem Hart.undoAll_shape (l : List VEntry) (x : Hart) :
    ∃ tl land, l.foldl Hart.undoIssue x = { x with tl := tl, landing := land } := by
  induction l generalizing x with
  | nil => exact ⟨_, _, rfl⟩
  | cons e l ih =>
    obtain ⟨a, b, h⟩ := x.undoIssue_shape e
    obtain ⟨a', b', h'⟩ := ih (x.undoIssue e)
    exact ⟨a', b', by rw [List.foldl_cons, h', h]⟩

/-- What flushing the vector queue may change of a hart. -/
theorem Hart.flushQueue_shape (x : Hart) :
    ∃ ss sb fl tl land es, x.flushQueue =
      { x with s := ss, sbad := sb, fflags := fl, tl := tl, landing := land, vq := [], run := none, early := []
               linked := none, passed := false, elems := es } := by
  obtain ⟨ss, sb, fl, h⟩ := x.rollBack_shape
  obtain ⟨a, b, e⟩ := Hart.undoAll_shape x.vq x.rollBack
  exact ⟨ss, sb, fl, a, b, _, by unfold Hart.flushQueue; rw [e, h]⟩

theorem Hart.endRecording_shape (x : Hart) (r : Nat) : ∃ m, x.endRecording r = { x with mark := m } := by
  unfold Hart.endRecording
  split <;> exact ⟨_, rfl⟩

end Sys2Proof.Machine
end

