-- ==== Sys2Proof/Laws/PerInstr.lean ====
section
/-! SUPPORT. Decoding what the encoder writes gives the instruction back: one lemma for each constructor of Instr. -/

-- One proof after another: the proofs of this file share equation lemmas, and threads that wait for these hold stack.
set_option Elab.async false

namespace Sys2Proof

/-! ## Bytes and words -/

theorem wordOfBytes_bytesOfWord (w : Word) : wordOfBytes (bytesOfWord w) = w := by
  have h := w.isLt
  apply BitVec.eq_of_toNat_eq
  simp only [wordOfBytes, bytesOfWord, List.range, List.range.loop, List.map, List.foldr, BitVec.toNat_ofNat, bits_toNat]
  omega

theorem bytesOfWord_length (w : Word) : (bytesOfWord w).length = 8 := by simp [bytesOfWord]

theorem take_bytesOfWord (w : Word) (bs : List Byte) : (bytesOfWord w ++ bs).take 8 = bytesOfWord w := by
  rw [← bytesOfWord_length w, List.take_left]

theorem drop_bytesOfWord (w : Word) (bs : List Byte) : (bytesOfWord w ++ bs).drop 8 = bs := by
  rw [← bytesOfWord_length w, List.drop_left]

/-- The item a first word alone decides. -/
theorem decode_one {w : Word} {i : Instr} (h : decodeWord w = .one i) (bs : List Byte) :
    decode (bytesOfWord w ++ bs) = (.instr i 8, bs) := by
  have hl : ¬(bytesOfWord w ++ bs).length < 8 := by simp [bytesOfWord_length]
  simp only [decode, if_neg hl, take_bytesOfWord, wordOfBytes_bytesOfWord, h, drop_bytesOfWord]

theorem decode_pair {w : Word} {a b : Instr} (h : decodeWord w = .pair a b) (bs : List Byte) :
    decode (bytesOfWord w ++ bs) = (.pair a b, bs) := by
  have hl : ¬(bytesOfWord w ++ bs).length < 8 := by simp [bytesOfWord_length]
  simp only [decode, if_neg hl, take_bytesOfWord, wordOfBytes_bytesOfWord, h, drop_bytesOfWord]

theorem decode_ext {w x : Word} {mj : Major} {r : Reg} (h : decodeWord w = .needExt mj r) (bs : List Byte) :
    decode (bytesOfWord w ++ (bytesOfWord x ++ bs)) = (.instr (extended mj r x) 16, bs) := by
  have hl : ¬(bytesOfWord w ++ (bytesOfWord x ++ bs)).length < 8 := by simp [bytesOfWord_length]
  have h2 : ¬(bytesOfWord w ++ (bytesOfWord x ++ bs)).length < 16 := by simp [bytesOfWord_length]; omega
  have h3 : List.drop 16 (bytesOfWord w ++ (bytesOfWord x ++ bs)) = bs := by
    have e : (16 : Nat) = 8 + 8 := rfl
    rw [e, ← List.drop_drop, drop_bytesOfWord, drop_bytesOfWord]
  simp only [decode, if_neg hl, take_bytesOfWord, wordOfBytes_bytesOfWord, h, if_neg h2, drop_bytesOfWord, h3]

/-! ## Pair words (R41) -/

theorem pairWord_toNat (a b : LH) : (pairWord a b).toNat =
    ((((((((1) * 2 ^ 6 + a.hop.toNat) * 2 ^ 5 + a.d.toNat) * 2 ^ 5 + a.a.toNat) * 2 ^ 15 + a.imm.toNat) * 2 ^ 6
      + b.hop.toNat) * 2 ^ 5 + b.d.toNat) * 2 ^ 5 + b.a.toNat) * 2 ^ 15 + b.imm.toNat := by
  unfold pairWord
  refine (toNat_app (n := 49) _ _).trans (congrArg (· * 2 ^ 15 + b.imm.toNat) ?_)
  refine (toNat_app (n := 44) _ _).trans (congrArg (· * 2 ^ 5 + b.a.toNat) ?_)
  refine (toNat_app (n := 39) _ _).trans (congrArg (· * 2 ^ 5 + b.d.toNat) ?_)
  refine (toNat_app (n := 33) _ _).trans (congrArg (· * 2 ^ 6 + b.hop.toNat) ?_)
  refine (toNat_app (n := 18) _ _).trans (congrArg (· * 2 ^ 15 + a.imm.toNat) ?_)
  refine (toNat_app (n := 13) _ _).trans (congrArg (· * 2 ^ 5 + a.a.toNat) ?_)
  refine (toNat_app (n := 8) _ _).trans (congrArg (· * 2 ^ 5 + a.d.toNat) ?_)
  refine (toNat_app (n := 2) _ _).trans (congrArg (· * 2 ^ 6 + a.hop.toNat) ?_)
  rfl

theorem pairWord_form (a b : LH) : (formOf (pairWord a b)).toNat = 1 := by
  have h := pairWord_toNat a b
  have := a.hop.isLt; have := a.d.isLt; have := a.a.isLt; have := a.imm.isLt
  have := b.hop.isLt; have := b.d.isLt; have := b.a.isLt; have := b.imm.isLt
  unfold formOf
  rw [bits_toNat, h]
  omega

theorem pairWord_high (a b : LH) : LH.ofWord (pairWord a b) 31 = a := by
  have h := pairWord_toNat a b
  have := a.hop.isLt; have := a.d.isLt; have := a.a.isLt; have := a.imm.isLt
  have := b.hop.isLt; have := b.d.isLt; have := b.a.isLt; have := b.imm.isLt
  cases a with | mk ah ad aa ai =>
  simp only [LH.ofWord, LH.mk.injEq]
  simp only at *
  refine ⟨?_, ?_, ?_, ?_⟩ <;>
  · apply BitVec.eq_of_toNat_eq
    rw [bits_toNat, h]
    omega

theorem pairWord_low (a b : LH) : LH.ofWord (pairWord a b) 0 = b := by
  have h := pairWord_toNat a b
  have := a.hop.isLt; have := a.d.isLt; have := a.a.isLt; have := a.imm.isLt
  have := b.hop.isLt; have := b.d.isLt; have := b.a.isLt; have := b.imm.isLt
  cases b with | mk bh bd ba bi =>
  simp only [LH.ofWord, LH.mk.injEq]
  simp only at *
  refine ⟨?_, ?_, ?_, ?_⟩ <;>
  · apply BitVec.eq_of_toNat_eq
    rw [bits_toNat, h]
    omega

theorem decodeWord_pair (a b : LH) (x y : Instr) (ha : a.parse false = some x) (hb : b.parse true = some y)
    (hm : (x.isMemHalf && y.isMemHalf) = false) : decodeWord (pairWord a b) = .pair x y := by
  unfold decodeWord
  rw [pairWord_form]
  simp [decodePair, pairWord_high, pairWord_low, ha, hb, hm]

/-- A half that stands in B beside a NOP. -/
theorem decodeWord_halfB (b : LH) (y : Instr) (hb : b.parse true = some y) : decodeWord (pairWord nopHalf b) = .pair .nop y :=
  decodeWord_pair nopHalf b .nop y rfl hb rfl

/-- A half that stands in A beside a NOP. -/
theorem decodeWord_halfA (a : LH) (x : Instr) (ha : a.parse false = some x) : decodeWord (pairWord a nopHalf) = .pair x .nop :=
  decodeWord_pair a nopHalf x .nop ha rfl (by simp [Instr.isMemHalf])

/-! ## Extended words (R37) -/

theorem decodeWord_liExt (d : Reg) : decodeWord (2#2 ++ Major.li.code ++ d ++ 0#48 : BitVec 64) = .needExt .li d := by
  revert d; decide

theorem decodeWord_jalExt (a : Reg) : decodeWord (2#2 ++ Major.jal.code ++ a ++ 0#48 : BitVec 64) = .needExt .jal a := by
  revert a; decide

/-! ## Fields that a shorter field fills -/

theorem bank0_half (r : Reg) (h : r.toNat < 32) : (r.extractLsb' 0 5).setWidth 6 = r := by
  revert r; decide

theorem bank1_half (r : Reg) (h : 32 ≤ r.toNat) : (r.extractLsb' 0 5).setWidth 6 + 32 = r := by
  revert r; decide

theorem append_high {n m : Nat} (x : BitVec n) (y : BitVec m) : (x ++ y).extractLsb' m n = x := by
  rw [BitVec.extractLsb'_append_eq_of_le (Nat.le_refl m), Nat.sub_self, BitVec.extractLsb'_eq_self]

theorem append_low {n m : Nat} (x : BitVec n) (y : BitVec m) : (x ++ y).extractLsb' 0 m = y := by
  rw [BitVec.extractLsb'_append_eq_of_add_le (by omega), BitVec.extractLsb'_eq_self]

theorem field_back {n m : Nat} (x : BitVec n) (h : n ≤ m) : (x.setWidth m).extractLsb' 0 n = x := by
  have b := x.isLt
  have c : 2 ^ n ≤ 2 ^ m := Nat.pow_le_pow_right (by omega) h
  apply BitVec.eq_of_toNat_eq
  simp only [BitVec.extractLsb'_toNat, BitVec.toNat_setWidth, Nat.shiftRight_zero]
  rw [Nat.mod_eq_of_lt (show x.toNat < 2 ^ m by omega), Nat.mod_eq_of_lt b]

theorem field_lt {n m : Nat} (x : BitVec n) (k : Nat) (h : 2 ^ n ≤ k) : (x.setWidth m).toNat < k := by
  have b := x.isLt
  have c := Nat.mod_le x.toNat (2 ^ m)
  simp only [BitVec.toNat_setWidth]
  omega

namespace Laws.RoundTrip

/-! ## Vector fields -/

theorem vargs_enc (o : BitVec 8) (v : VArgs) (fn : BitVec 7) (bs cs : Bool) :
    LR.vargs { opc := o, d := v.d, a := v.a, b := v.b, c := v.c, m := v.m, t := v.t.toBits, rm := v.rm.toBits
               x := bit1 (v.xm != 0), xm := v.xm, s := bit1 v.sat, fn := fn, z := 0 } bs cs =
      some { v with bs := bs, cs := cs } := by
  have hs : (bit1 v.sat == 1) = v.sat := by cases v.sat <;> rfl
  have hx : ((bit1 (v.xm != 0) == 0 && v.xm == 0) || (bit1 (v.xm != 0) == 1 && v.xm != 0)) = true := by
    generalize v.xm = x; revert x; decide
  simp only [LR.vargs, Ty.ofBits_toBits, Rm.ofBits_toBits, hs, hx]
  rfl

theorem vec_enc (o : BitVec 8) (v : VArgs) (k : VArgs → Instr) (h : v.cs = false) :
    LR.vec { opc := o, d := v.d, a := v.a, b := v.b, c := v.c, m := v.m, t := v.t.toBits, rm := v.rm.toBits
             x := bit1 (v.xm != 0), xm := v.xm, s := bit1 v.sat, fn := fnB v, z := 0 } k = some (k v) := by
  have h1 : (fnB v).toNat < 2 := by unfold fnB; cases v.bs <;> decide
  have h2 : (fnB v).getLsbD 0 = v.bs := by unfold fnB; cases v.bs <;> rfl
  simp only [LR.vec, h1, if_true, vargs_enc, h2, Option.map]
  cases v; cases h; rfl

theorem vec3_enc (o : BitVec 8) (v : VArgs) (k : VArgs → Instr) :
    LR.vec3 { opc := o, d := v.d, a := v.a, b := v.b, c := v.c, m := v.m, t := v.t.toBits, rm := v.rm.toBits
              x := bit1 (v.xm != 0), xm := v.xm, s := bit1 v.sat, fn := fnBC v, z := 0 } k = some (k v) := by
  have h1 : (fnBC v).toNat < 4 := by unfold fnBC; cases v.bs <;> cases v.cs <;> decide
  have h2 : (fnBC v).getLsbD 0 = v.bs := by unfold fnBC; cases v.bs <;> cases v.cs <;> rfl
  have h3 : (fnBC v).getLsbD 1 = v.cs := by unfold fnBC; cases v.bs <;> cases v.cs <;> rfl
  simp only [LR.vec3, h1, if_true, vargs_enc, h2, h3, Option.map]

theorem vecSc_enc (o : BitVec 8) (v : VArgs) (k : VArgs → Instr) (h : v.cs = false) (g : v.bs = true) :
    LR.vecSc { opc := o, d := v.d, a := v.a, b := v.b, c := v.c, m := v.m, t := v.t.toBits, rm := v.rm.toBits
               x := bit1 (v.xm != 0), xm := v.xm, s := bit1 v.sat, fn := 0, z := 0 } k = some (k v) := by
  simp only [LR.vecSc, vargs_enc, Option.map]
  cases v; cases h; cases g; rfl

theorem ok_cs {f : VForm} {v : VArgs} (h : f.ok v = true) (g : f.c ≠ .vs) : v.cs = false := by
  unfold VForm.ok at h
  cases hc : f.c <;> simp_all

theorem ok_bs {f : VForm} {v : VArgs} (h : f.ok v = true) (g : f.b = .zero ∨ f.b = .vec) : v.bs = false := by
  unfold VForm.ok at h
  rcases g with g | g <;> simp_all

theorem ok_bsSc {f : VForm} {v : VArgs} (h : f.ok v = true) (g : f.b = .sc) : v.bs = true := by
  unfold VForm.ok at h
  simp_all

/-- The rows of the opcode table that are steps of the device and have no words. -/
def isEventRow : Instr → Bool
  | .vectorStart .. | .element .. | .elementGroup .. | .streamPrefetch .. | .loadDataArrival .. | .drain ..
  | .register .. | .evict .. | .atomicStep .. | .raMessageArrival .. | .pageWalk .. | .tlbinvComplete ..
  | .l2TlbEviction .. | .illegalInstruction .. | .instructionFetchFault .. | .copyTransfer ..
  | .copyFlagWrite .. | .rowCapture .. | .leash .. | .groupAge .. | .arrayTakeUp .. | .tileLoad ..
  | .rowEnter .. | .rowResult .. | .tileLatchError .. | .rowError .. | .landingComplete ..
  | .collectiveComplete .. | .xredTimeout .. | .millraceIteration .. | .replayComplete .. | .departure ..
  | .taskPop .. | .agingMove .. | .gangTimeout .. | .cancelBroadcast .. | .doneContPush .. | .heldPush ..
  | .leaseGrant .. | .gtoStarvation .. | .packCountArrival .. | .packFlip .. | .packAbort ..
  | .memberRestore .. | .tentativeStoreArrival .. | .nonmemberHoldExpiry .. | .packLifetimeExpiry ..
  | .timer .. | .watchdog .. | .waitaTimeout .. | .tlwaitTimeout .. | .registerSoftError .. | .laneRetired ..
  | .agentFailure .. | .fatalError .. | .sync .. | .sample .. | .trctlWrite .. | .preemptRequest ..
  | .partcoreWrite .. | .partitionChange .. | .qringWrite .. | .queueMap .. | .queueUnmap .. | .qsubmit ..
  | .mrreclaim .. | .xgctlWrite .. | .configRegisterWrite .. | .notify .. | .hostMemRead .. | .hostMemWrite ..
  | .hostSnoop .. | .snoopResponse .. | .biasSnoopTimeout .. | .mailboxRecoveryImage ..
  | .mailboxDumpAddress .. | .mailboxBringupStatus | .doeSpdmRequest .. | .bringUp .. | .flitReceive ..
  | .portLaneLoss .. | .throttleEvaluation .. | .throttleAnnouncement .. | .throttleAck .. | .throttleEffect ..
  | .leaderSilence .. | .hbmTempSample .. | .supplyDroop .. | .stretchEnd .. | .thermalTrip ..
  | .corePowerGating .. | .corePowerUngating .. => true
  | _ => false

/-- An item that stands for an instruction: it alone, or a pair of it and a NOP (R43). -/
def names (it : Item) (i : Instr) : Prop := match it with
  | .instr j _ => j = i
  | .pair a b => theHalf a b = some i
  | _ => False

/-- An event has no words; the words of a well-formed instruction decode to it, and no byte is left. -/
def Statement (i : Instr) : Prop :=
  if isEventRow i then encode i = []
  else i.wf = true → encode i ≠ [] ∧ ∃ it, decode ((encode i).flatMap bytesOfWord) = (it, []) ∧ names it i

theorem one {i : Instr} {w : Word} (e : isEventRow i = false) (h : encode i = [w])
    (d : i.wf = true → decodeWord w = .one i) : Statement i := by
  unfold Statement
  rw [e, h]
  intro hw
  refine ⟨by simp, .instr i 8, ?_, rfl⟩
  simpa using decode_one (d hw) []

theorem half {i a b : Instr} {w : Word} (e : isEventRow i = false) (h : encode i = [w])
    (d : i.wf = true → decodeWord w = .pair a b ∧ theHalf a b = some i) : Statement i := by
  unfold Statement
  rw [e, h]
  intro hw
  refine ⟨by simp, .pair a b, ?_, (d hw).2⟩
  simpa using decode_pair (d hw).1 []

theorem ext {i : Instr} {w x : Word} {mj : Major} {r : Reg} (e : isEventRow i = false) (h : encode i = [w, x])
    (d : decodeWord w = .needExt mj r) (g : extended mj r x = i) : Statement i := by
  unfold Statement
  rw [e, h]
  intro hw
  refine ⟨by simp, .instr i 16, ?_, rfl⟩
  have := decode_ext (x := x) d []
  rw [g] at this
  simpa using this

theorem viaR {i : Instr} (l : LR) (mj : Major) (e : isEventRow i = false) (h : encode i = [l.toWord]) (hc : l.opc = mj.code)
    (hl : mj.layout = .r) (p : i.wf = true → l.parse mj = some i) : Statement i :=
  one e h fun hw => by rw [decodeWord_LR l mj hc hl, p hw, Decoded.ofParse_some i hw]

theorem viaI {i : Instr} (l : LI) (mj : Major) (e : isEventRow i = false) (h : encode i = [l.toWord]) (hc : l.opc = mj.code)
    (hl : mj.layout = .i) (p : i.wf = true → l.parse mj = some i) : Statement i :=
  one e h fun hw => by rw [decodeWord_LI l mj hc hl, p hw, Decoded.ofParse_some i hw]

theorem viaM {i : Instr} (l : LM) (mj : Major) (e : isEventRow i = false) (h : encode i = [l.toWord]) (hc : l.opc = mj.code)
    (hl : mj.layout = .m) (p : i.wf = true → l.parse mj = some i) : Statement i :=
  one e h fun hw => by rw [decodeWord_LM l mj hc hl, p hw, Decoded.ofParse_some i hw]

theorem viaB {i : Instr} (l : LB) (mj : Major) (e : isEventRow i = false) (h : encode i = [l.toWord]) (hc : l.opc = mj.code)
    (hl : mj.layout = .b) (p : i.wf = true → l.parse mj = some i) : Statement i :=
  one e h fun hw => by rw [decodeWord_LB l mj hc hl, p hw, Decoded.ofParse_some i hw]

theorem viaE {i : Instr} (l : LE) (mj : Major) (e : isEventRow i = false) (h : encode i = [l.toWord]) (hc : l.opc = mj.code)
    (hl : mj.layout = .e) (p : i.wf = true → l.parse mj = some i) : Statement i :=
  one e h fun hw => by rw [decodeWord_LE l mj hc hl, p hw, Decoded.ofParse_some i hw]

theorem add (d : Reg) (a : Reg) (b : Reg) : Statement (.add d a b) := viaR _ .add rfl rfl rfl rfl fun hw => by
  simp [LR.parse, LR.sc, LR.scU, LR.plain, LR.fp, LR.fp0, LR.mask, LR.vec, LR.vec3, LR.vecSc, LR.vargs, LR.fn31, flag7, bit1, fnB, fnBC]
theorem addi (d : Reg) (a : Reg) (imm : BitVec 36) : Statement (.addi d a imm) := viaI _ .addi rfl rfl rfl rfl fun hw => by
  simp [LI.parse, flag6, bit1]
theorem and (d : Reg) (a : Reg) (b : Reg) : Statement (.and d a b) := viaR _ .and rfl rfl rfl rfl fun hw => by
  simp [LR.parse, LR.sc, LR.scU, LR.plain, LR.fp, LR.fp0, LR.mask, LR.vec, LR.vec3, LR.vecSc, LR.vargs, LR.fn31, flag7, bit1, fnB, fnBC]
theorem andi (d : Reg) (a : Reg) (imm : BitVec 36) : Statement (.andi d a imm) := viaI _ .andi rfl rfl rfl rfl fun hw => by
  simp [LI.parse, flag6, bit1]
theorem clz (d : Reg) (a : Reg) : Statement (.clz d a) := viaR _ .clz rfl rfl rfl rfl fun hw => by
  simp [LR.parse, LR.sc, LR.scU, LR.plain, LR.fp, LR.fp0, LR.mask, LR.vec, LR.vec3, LR.vecSc, LR.vargs, LR.fn31, flag7, bit1, fnB, fnBC]
theorem ctz (d : Reg) (a : Reg) : Statement (.ctz d a) := viaR _ .ctz rfl rfl rfl rfl fun hw => by
  simp [LR.parse, LR.sc, LR.scU, LR.plain, LR.fp, LR.fp0, LR.mask, LR.vec, LR.vec3, LR.vecSc, LR.vargs, LR.fn31, flag7, bit1, fnB, fnBC]
theorem div (u : Bool) (d : Reg) (a : Reg) (b : Reg) : Statement (.div u d a b) := viaR _ .div rfl rfl rfl rfl fun hw => by
  cases u <;> rfl
theorem lea (d : Reg) (a : Reg) (b : Reg) (sh : BitVec 3) : Statement (.lea d a b sh) := viaR _ .lea rfl rfl rfl rfl fun hw => by
  have h1 : (0#4 ++ sh : BitVec 7).toNat < 8 := by clear hw; revert sh; decide
  have h2 : (0#4 ++ sh : BitVec 7).extractLsb' 0 3 = sh := by clear hw; revert sh; decide
  simp [LR.parse, LR.plain, h1, h2]
theorem li (d : Reg) (imm : BitVec 36) : Statement (.li d imm) := viaI _ .li rfl rfl rfl rfl fun hw => by
  simp [LI.parse, flag6, bit1]
theorem liExt (d : Reg) (val : Word) : Statement (.liExt d val) := ext (mj := .li) (r := d) rfl rfl (decodeWord_liExt d) rfl
theorem max (u : Bool) (d : Reg) (a : Reg) (b : Reg) : Statement (.max u d a b) := viaR _ .max rfl rfl rfl rfl fun hw => by
  cases u <;> rfl
theorem min (u : Bool) (d : Reg) (a : Reg) (b : Reg) : Statement (.min u d a b) := viaR _ .min rfl rfl rfl rfl fun hw => by
  cases u <;> rfl
theorem mul (d : Reg) (a : Reg) (b : Reg) : Statement (.mul d a b) := viaR _ .mul rfl rfl rfl rfl fun hw => by
  simp [LR.parse, LR.sc, LR.scU, LR.plain, LR.fp, LR.fp0, LR.mask, LR.vec, LR.vec3, LR.vecSc, LR.vargs, LR.fn31, flag7, bit1, fnB, fnBC]
theorem mulh (u : Bool) (d : Reg) (a : Reg) (b : Reg) : Statement (.mulh u d a b) := viaR _ .mulh rfl rfl rfl rfl fun hw => by
  cases u <;> rfl
theorem or (d : Reg) (a : Reg) (b : Reg) : Statement (.or d a b) := viaR _ .or rfl rfl rfl rfl fun hw => by
  simp [LR.parse, LR.sc, LR.scU, LR.plain, LR.fp, LR.fp0, LR.mask, LR.vec, LR.vec3, LR.vecSc, LR.vargs, LR.fn31, flag7, bit1, fnB, fnBC]
theorem ori (d : Reg) (a : Reg) (imm : BitVec 36) : Statement (.ori d a imm) := viaI _ .ori rfl rfl rfl rfl fun hw => by
  simp [LI.parse, flag6, bit1]
theorem popc (d : Reg) (a : Reg) : Statement (.popc d a) := viaR _ .popc rfl rfl rfl rfl fun hw => by
  simp [LR.parse, LR.sc, LR.scU, LR.plain, LR.fp, LR.fp0, LR.mask, LR.vec, LR.vec3, LR.vecSc, LR.vargs, LR.fn31, flag7, bit1, fnB, fnBC]
theorem rem (u : Bool) (d : Reg) (a : Reg) (b : Reg) : Statement (.rem u d a b) := viaR _ .rem rfl rfl rfl rfl fun hw => by
  cases u <;> rfl
theorem sel (d : Reg) (a : Reg) (b : Reg) (c : Reg) : Statement (.sel d a b c) := viaR _ .sel rfl rfl rfl rfl fun hw => by
  simp [LR.parse, LR.sc, LR.scU, LR.plain, LR.fp, LR.fp0, LR.mask, LR.vec, LR.vec3, LR.vecSc, LR.vargs, LR.fn31, flag7, bit1, fnB, fnBC]
theorem shl (d : Reg) (a : Reg) (b : Reg) : Statement (.shl d a b) := viaR _ .shl rfl rfl rfl rfl fun hw => by
  simp [LR.parse, LR.sc, LR.scU, LR.plain, LR.fp, LR.fp0, LR.mask, LR.vec, LR.vec3, LR.vecSc, LR.vargs, LR.fn31, flag7, bit1, fnB, fnBC]
theorem shli (k : ShKind) (d : Reg) (a : Reg) (n : BitVec 6) : Statement (.shli k d a n) := viaI _ .shli rfl rfl rfl rfl fun hw => by
  have h1 := field_lt (m := 36) n 64 (by decide)
  have h2 := field_back n (m := 36) (by decide)
  cases k <;> simp only [LI.parse, h1, h2, if_true] <;> rfl
theorem shr (d : Reg) (a : Reg) (b : Reg) : Statement (.shr d a b) := viaR _ .shr rfl rfl rfl rfl fun hw => by
  simp [LR.parse, LR.sc, LR.scU, LR.plain, LR.fp, LR.fp0, LR.mask, LR.vec, LR.vec3, LR.vecSc, LR.vargs, LR.fn31, flag7, bit1, fnB, fnBC]
theorem slt (u : Bool) (d : Reg) (a : Reg) (b : Reg) : Statement (.slt u d a b) := viaR _ .slt rfl rfl rfl rfl fun hw => by
  cases u <;> rfl
theorem slti (u : Bool) (d : Reg) (a : Reg) (imm : BitVec 36) : Statement (.slti u d a imm) := viaI _ .slti rfl rfl rfl rfl fun hw => by
  cases u <;> rfl
theorem sra (d : Reg) (a : Reg) (b : Reg) : Statement (.sra d a b) := viaR _ .sra rfl rfl rfl rfl fun hw => by
  simp [LR.parse, LR.sc, LR.scU, LR.plain, LR.fp, LR.fp0, LR.mask, LR.vec, LR.vec3, LR.vecSc, LR.vargs, LR.fn31, flag7, bit1, fnB, fnBC]
theorem sub (d : Reg) (a : Reg) (b : Reg) : Statement (.sub d a b) := viaR _ .sub rfl rfl rfl rfl fun hw => by
  simp [LR.parse, LR.sc, LR.scU, LR.plain, LR.fp, LR.fp0, LR.mask, LR.vec, LR.vec3, LR.vecSc, LR.vargs, LR.fn31, flag7, bit1, fnB, fnBC]
theorem xor (d : Reg) (a : Reg) (b : Reg) : Statement (.xor d a b) := viaR _ .xor rfl rfl rfl rfl fun hw => by
  simp [LR.parse, LR.sc, LR.scU, LR.plain, LR.fp, LR.fp0, LR.mask, LR.vec, LR.vec3, LR.vecSc, LR.vargs, LR.fn31, flag7, bit1, fnB, fnBC]
theorem xori (d : Reg) (a : Reg) (imm : BitVec 36) : Statement (.xori d a imm) := viaI _ .xori rfl rfl rfl rfl fun hw => by
  simp [LI.parse, flag6, bit1]
theorem mov (d : Reg) (a : Reg) : Statement (.mov d a) := by
  by_cases hd : 32 ≤ d.toNat
  · refine half (a := .nop) (b := .mov d a) rfl (by simp only [encode, encH, decide_eq_true hd]; rfl) fun hw => ?_
    have ha : 32 ≤ a.toNat := by simpa [Instr.wf, isBank1, hd] using hw
    refine ⟨decodeWord_halfB _ _ ?_, by simp [theHalf]⟩
    refine Eq.trans (b := some (.mov ((d.extractLsb' 0 5).setWidth 6 + 32) ((a.extractLsb' 0 5).setWidth 6 + 32))) rfl ?_
    rw [bank1_half d hd, bank1_half a ha]
  · refine half (a := .mov d a) (b := .nop) rfl (by simp only [encode, encH, decide_eq_false hd]; rfl) fun hw => ?_
    have ha : ¬32 ≤ a.toNat := by simpa [Instr.wf, isBank1, hd] using hw
    refine ⟨decodeWord_halfA _ _ ?_, by simp [theHalf]⟩
    refine Eq.trans (b := some (.mov ((d.extractLsb' 0 5).setWidth 6) ((a.extractLsb' 0 5).setWidth 6))) rfl ?_
    rw [bank0_half d (by omega), bank0_half a (by omega)]
theorem nop : Statement (.nop) := half rfl rfl fun _ => ⟨decodeWord_halfA nopHalf .nop rfl, rfl⟩
theorem fadd (t : FTy) (rm : Rm) (d : Reg) (a : Reg) (b : Reg) : Statement (.fadd t rm d a b) := viaR _ .fadd rfl rfl rfl rfl fun hw => by
  simp [LR.parse, LR.sc, LR.scU, LR.plain, LR.fp, LR.fp0, LR.mask, LR.vec, LR.vec3, LR.vecSc, LR.vargs, LR.fn31, flag7, bit1, fnB, fnBC]
theorem fsub (t : FTy) (rm : Rm) (d : Reg) (a : Reg) (b : Reg) : Statement (.fsub t rm d a b) := viaR _ .fsub rfl rfl rfl rfl fun hw => by
  simp [LR.parse, LR.sc, LR.scU, LR.plain, LR.fp, LR.fp0, LR.mask, LR.vec, LR.vec3, LR.vecSc, LR.vargs, LR.fn31, flag7, bit1, fnB, fnBC]
theorem fmul (t : FTy) (rm : Rm) (d : Reg) (a : Reg) (b : Reg) : Statement (.fmul t rm d a b) := viaR _ .fmul rfl rfl rfl rfl fun hw => by
  simp [LR.parse, LR.sc, LR.scU, LR.plain, LR.fp, LR.fp0, LR.mask, LR.vec, LR.vec3, LR.vecSc, LR.vargs, LR.fn31, flag7, bit1, fnB, fnBC]
theorem ffma (t : FTy) (rm : Rm) (d : Reg) (a : Reg) (b : Reg) (c : Reg) : Statement (.ffma t rm d a b c) := viaR _ .ffma rfl rfl rfl rfl fun hw => by
  simp [LR.parse, LR.sc, LR.scU, LR.plain, LR.fp, LR.fp0, LR.mask, LR.vec, LR.vec3, LR.vecSc, LR.vargs, LR.fn31, flag7, bit1, fnB, fnBC]
theorem fdiv (t : FTy) (rm : Rm) (d : Reg) (a : Reg) (b : Reg) : Statement (.fdiv t rm d a b) := viaR _ .fdiv rfl rfl rfl rfl fun hw => by
  simp [LR.parse, LR.sc, LR.scU, LR.plain, LR.fp, LR.fp0, LR.mask, LR.vec, LR.vec3, LR.vecSc, LR.vargs, LR.fn31, flag7, bit1, fnB, fnBC]
theorem fmin (t : FTy) (d : Reg) (a : Reg) (b : Reg) : Statement (.fmin t d a b) := viaR _ .fmin rfl rfl rfl rfl fun hw => by
  cases t <;> rfl
theorem fmax (t : FTy) (d : Reg) (a : Reg) (b : Reg) : Statement (.fmax t d a b) := viaR _ .fmax rfl rfl rfl rfl fun hw => by
  cases t <;> rfl
theorem fcmp (t : FTy) (rel : FRel) (d : Reg) (a : Reg) (b : Reg) : Statement (.fcmp t rel d a b) := viaR _ .fcmp rfl rfl rfl rfl fun hw => by
  cases t <;> cases rel <;> rfl
theorem fcvt (dst : Ty) (src : Ty) (rm : Rm) (sat : Bool) (d : Reg) (a : Reg) : Statement (.fcvt dst src rm sat d a) := viaR _ .fcvt rfl rfl rfl rfl fun hw => by
  have h1 : (0#2 ++ src.toBits ++ 0#1 : BitVec 7).getLsbD 0 = false := by cases src <;> rfl
  have h2 : (0#2 ++ src.toBits ++ 0#1 : BitVec 7).toNat < 32 := by cases src <;> decide
  have h3 : (0#2 ++ src.toBits ++ 0#1 : BitVec 7).extractLsb' 1 4 = src.toBits := by cases src <;> rfl
  have h4 : (bit1 sat == 1) = sat := by cases sat <;> rfl
  simp only [LR.parse, h1, h2, h3, h4, Ty.ofBits_toBits, Rm.ofBits_toBits]
  rfl
theorem ld (w : LdW) (sp : Space) (d : Reg) (a : Reg) (off : BitVec 24) : Statement (.ld w sp d a off) := viaM _ .ld rfl rfl rfl rfl fun hw => by
  simp [LM.parse]
theorem st (w : StW) (sp : Space) (d : Reg) (a : Reg) (off : BitVec 24) : Statement (.st w sp d a off) := viaM _ .st rfl rfl rfl rfl fun hw => by
  simp [LM.parse]
theorem amo (op : AmoOp) (w32 : Bool) (post : Bool) (sp : Space) (d : Reg) (a : Reg) (b : Reg) : Statement (.amo op w32 post sp d a b) := viaE _ .amo rfl rfl rfl rfl fun hw => by
  have h1 := field_lt (m := 24) sp.toBits 8 (by decide)
  have h2 := field_back sp.toBits (m := 24) (by decide)
  have h3 : (bit1 post ++ bit1 w32 ++ op.toBits : BitVec 6).extractLsb' 0 4 = op.toBits := by
    cases op <;> cases w32 <;> cases post <;> rfl
  have h4 : (bit1 post ++ bit1 w32 ++ op.toBits : BitVec 6).getLsbD 4 = w32 := by
    cases op <;> cases w32 <;> cases post <;> rfl
  have h5 : (bit1 post ++ bit1 w32 ++ op.toBits : BitVec 6).getLsbD 5 = post := by
    cases op <;> cases w32 <;> cases post <;> rfl
  simp only [LE.parse, h1, h2, h3, h4, h5, AmoOp.ofBits_toBits, Space.ofBits_toBits]
  rfl
theorem cas (w32 : Bool) (sp : Space) (d : Reg) (a : Reg) (b : Reg) (c : Reg) : Statement (.cas w32 sp d a b c) := viaE _ .cas rfl rfl rfl rfl fun hw => by
  have h1 := field_lt (m := 24) sp.toBits 8 (by decide)
  have h2 := field_back sp.toBits (m := 24) (by decide)
  cases w32 <;> simp only [LE.parse, h1, h2, Space.ofBits_toBits] <;> rfl
theorem fenceAcq (sc : Scope) : Statement (.fenceAcq sc) := viaE _ .fence rfl rfl rfl rfl fun hw => by
  cases sc <;> rfl
theorem fenceRel (sc : Scope) : Statement (.fenceRel sc) := viaE _ .fence rfl rfl rfl rfl fun hw => by
  cases sc <;> rfl
theorem fenceFull (sc : Scope) : Statement (.fenceFull sc) := viaE _ .fence rfl rfl rfl rfl fun hw => by
  cases sc <;> rfl
theorem vdrain (k : DrainKind) : Statement (.vdrain k) := viaE _ .vdrain rfl rfl rfl rfl fun hw => by
  cases k <;> rfl
theorem acquire (sc : Scope) (a : Reg) : Statement (.acquire sc a) := viaE _ .acquire rfl rfl rfl rfl fun hw => by
  cases sc <;> rfl
theorem release (sc : Scope) (a : Reg) : Statement (.release sc a) := viaE _ .release rfl rfl rfl rfl fun hw => by
  cases sc <;> rfl
theorem bindr (d : Reg) (a : Reg) (b : Reg) (c : Reg) : Statement (.bindr d a b c) := viaE _ .bindr rfl rfl rfl rfl fun hw => by
  simp [LE.parse, LE.fn0, LE.zero, flag6, bit1]
theorem bindrUn (d : Reg) (c : Reg) : Statement (.bindrUn d c) := viaE _ .bindr rfl rfl rfl rfl fun hw => by
  simp [LE.parse, LE.fn0, LE.zero, flag6, bit1]
theorem tlwait (d : Reg) (tl : Reg) (b : Reg) (timeout : BitVec 24) : Statement (.tlwait d tl b timeout) := viaE _ .tlwait rfl rfl rfl rfl fun hw => by
  simp [LE.parse, LE.fn0, LE.zero, flag6, bit1]
theorem tlread (issued : Bool) (d : Reg) (tl : Reg) : Statement (.tlread issued d tl) := viaE _ .tlread rfl rfl rfl rfl fun hw => by
  cases issued <;> rfl
theorem waita (cond : WaitCond) (inA : Bool) (d : Reg) (a : Reg) (b : Reg) (timeout : BitVec 24) : Statement (.waita cond inA d a b timeout) := viaE _ .waita rfl rfl rfl rfl fun hw => by
  have h1 : (0#3 ++ bit1 inA ++ cond.toBits : BitVec 6).toNat < 8 := by cases cond <;> cases inA <;> decide
  have h2 : (0#3 ++ bit1 inA ++ cond.toBits : BitVec 6).getLsbD 2 = inA := by cases cond <;> cases inA <;> rfl
  simp only [LE.parse, h1, h2, decide_true]
  cases cond <;> cases inA <;> rfl
theorem cflush (a : Reg) (b : Reg) : Statement (.cflush a b) := viaE _ .cflush rfl rfl rfl rfl fun hw => by
  simp [LE.parse, LE.fn0, LE.zero, flag6, bit1]
theorem cflushInv (a : Reg) (b : Reg) : Statement (.cflushInv a b) := viaE _ .cflush rfl rfl rfl rfl fun hw => by
  simp [LE.parse, LE.fn0, LE.zero, flag6, bit1]
theorem cinval (a : Reg) (b : Reg) : Statement (.cinval a b) := viaE _ .cinval rfl rfl rfl rfl fun hw => by
  simp [LE.parse, LE.fn0, LE.zero, flag6, bit1]
theorem br (cc : CC) (a : Reg) (b : Reg) (disp : BitVec 38) : Statement (.br cc a b disp) := viaB _ .br rfl rfl rfl rfl fun hw => by
  simp [LB.parse]
theorem brnz (a : Reg) (imm : BitVec 15) : Statement (.brnz a imm) := half (a := .nop) (b := .brnz a imm) rfl rfl fun hw => by
  have ha : 32 ≤ a.toNat := by simpa [Instr.wf, isBank1] using hw
  refine ⟨decodeWord_halfB _ _ ?_, by simp [theHalf]⟩
  refine Eq.trans (b := some (.brnz ((a.extractLsb' 0 5).setWidth 6 + 32) imm)) rfl ?_
  rw [bank1_half a ha]
theorem brz (a : Reg) (imm : BitVec 15) : Statement (.brz a imm) := half (a := .nop) (b := .brz a imm) rfl rfl fun hw => by
  have ha : 32 ≤ a.toNat := by simpa [Instr.wf, isBank1] using hw
  refine ⟨decodeWord_halfB _ _ ?_, by simp [theHalf]⟩
  refine Eq.trans (b := some (.brz ((a.extractLsb' 0 5).setWidth 6 + 32) imm)) rfl ?_
  rw [bank1_half a ha]
theorem j (disp : BitVec 38) : Statement (.j disp) := viaB _ .j rfl rfl rfl rfl fun hw => by
  simp [LB.parse]
theorem jExt (target : Word) : Statement (.jExt target) := ext (mj := .j) (r := 0) rfl rfl rfl rfl
theorem jal (a : Reg) (disp : BitVec 38) : Statement (.jal a disp) := viaB _ .jal rfl rfl rfl rfl fun hw => by
  simp [LB.parse]
theorem jalExt (a : Reg) (target : Word) : Statement (.jalExt a target) := ext (mj := .jal) (r := a) rfl rfl (decodeWord_jalExt a) rfl
theorem jr (d : Reg) (a : Reg) (off : BitVec 24) : Statement (.jr d a off) := viaE _ .jr rfl rfl rfl rfl fun hw => by
  simp [LE.parse, LE.fn0, LE.zero, flag6, bit1]
theorem loopbr (a : Reg) (disp : BitVec 38) : Statement (.loopbr a disp) := viaB _ .loopbr rfl rfl rfl rfl fun hw => by
  simp [LB.parse]
theorem loopmarkWait (a : Reg) (len : BitVec 6) : Statement (.loopmarkWait a len) := viaE _ .loopmark rfl rfl rfl rfl fun hw => by
  have h1 := field_lt (m := 24) len 64 (by decide)
  have h2 := field_back len (m := 24) (by decide)
  simp only [LE.parse, h1, h2, if_true] <;> rfl
theorem loopmarkAhead (d : Reg) (a : Reg) (b : Reg) (c : Reg) (len : BitVec 6) : Statement (.loopmarkAhead d a b c len) := viaE _ .loopmark rfl rfl rfl rfl fun hw => by
  have h1 := field_lt (m := 24) len 64 (by decide)
  have h2 := field_back len (m := 24) (by decide)
  simp only [LE.parse, h1, h2, if_true] <;> rfl
theorem rpstat (d : Reg) : Statement (.rpstat d) := viaE _ .rpstat rfl rfl rfl rfl fun hw => by
  simp [LE.parse, LE.fn0, LE.zero, flag6, bit1]
theorem yield : Statement (.yield) := viaE _ .yield rfl rfl rfl rfl fun hw => by
  simp [LE.parse, LE.fn0, LE.zero, flag6, bit1]
theorem bkpt : Statement (.bkpt) := viaE _ .bkpt rfl rfl rfl rfl fun hw => by
  simp [LE.parse, LE.fn0, LE.zero, flag6, bit1]
theorem trmark (a : Reg) (tag : BitVec 9) : Statement (.trmark a tag) := viaE _ .trmark rfl rfl rfl rfl fun hw => by
  have h1 := field_lt (m := 24) tag 512 (by decide)
  have h2 := field_back tag (m := 24) (by decide)
  simp only [LE.parse, h1, h2, decide_true, if_true] <;> rfl
theorem spawn (d : Reg) (a : Reg) : Statement (.spawn d a) := viaE _ .spawn rfl rfl rfl rfl fun hw => by
  simp [LE.parse, LE.fn0, LE.zero, flag6, bit1]
theorem join (d : Reg) (a : Reg) (b : Reg) : Statement (.join d a b) := viaE _ .join rfl rfl rfl rfl fun hw => by
  simp [LE.parse, LE.fn0, LE.zero, flag6, bit1]
theorem joinLvl (d : Reg) (a : Reg) : Statement (.joinLvl d a) := viaE _ .join rfl rfl rfl rfl fun hw => by
  simp [LE.parse, LE.fn0, LE.zero, flag6, bit1]
theorem tcancel (k : LevelKind) (d : Reg) (a : Reg) : Statement (.tcancel k d a) := viaE _ .tcancel rfl rfl rfl rfl fun hw => by
  cases k <;> rfl
theorem gang (d : Reg) (a : Reg) (b : Reg) : Statement (.gang d a b) := viaE _ .gang rfl rfl rfl rfl fun hw => by
  simp [LE.parse, LE.fn0, LE.zero, flag6, bit1]
theorem tself (k : SelfKind) (d : Reg) : Statement (.tself k d) := viaE _ .tself rfl rfl rfl rfl fun hw => by
  cases k <;> rfl
theorem tend : Statement (.tend) := viaE _ .tend rfl rfl rfl rfl fun hw => by
  simp [LE.parse, LE.fn0, LE.zero, flag6, bit1]
theorem setmt (n : BitVec 36) : Statement (.setmt n) := viaI _ .setmt rfl rfl rfl rfl fun hw => by
  simp [LI.parse, flag6, bit1]
theorem setnv (n : BitVec 36) : Statement (.setnv n) := viaI _ .setnv rfl rfl rfl rfl fun hw => by
  simp [LI.parse, flag6, bit1]
theorem setsb (add : Bool) (a : Reg) (imm : BitVec 36) : Statement (.setsb add a imm) := viaI _ .setsb rfl rfl rfl rfl fun hw => by
  cases add <;> rfl
theorem setseed (a : Reg) (imm : BitVec 36) : Statement (.setseed a imm) := viaI _ .setseed rfl rfl rfl rfl fun hw => by
  simp [LI.parse, flag6, bit1]
theorem setvl (d : Reg) (a : Reg) (width : BitVec 36) : Statement (.setvl d a width) := viaI _ .setvl rfl rfl rfl rfl fun hw => by
  simp [LI.parse, flag6, bit1]
theorem mlogic (op : MOp) (d : Reg) (a : Reg) (b : Reg) (m : BitVec 3) : Statement (.mlogic op d a b m) := viaR _ .mlogic rfl rfl rfl rfl fun hw => by
  have h1 := field_lt (m := 7) op.toBits 8 (by decide)
  have h2 := field_back op.toBits (m := 7) (by decide)
  simp only [LR.parse, h1, h2, if_true, MOp.ofBits_toBits]
  rfl
theorem mpopc (d : Reg) (a : Reg) (m : BitVec 3) : Statement (.mpopc d a m) := viaR _ .mpopc rfl rfl rfl rfl fun hw => by
  simp [LR.parse, LR.sc, LR.scU, LR.plain, LR.fp, LR.fp0, LR.mask, LR.vec, LR.vec3, LR.vecSc, LR.vargs, LR.fn31, flag7, bit1, fnB, fnBC]
theorem mfirst (d : Reg) (a : Reg) (m : BitVec 3) : Statement (.mfirst d a m) := viaR _ .mfirst rfl rfl rfl rfl fun hw => by
  simp [LR.parse, LR.sc, LR.scU, LR.plain, LR.fp, LR.fp0, LR.mask, LR.vec, LR.vec3, LR.vecSc, LR.vargs, LR.fn31, flag7, bit1, fnB, fnBC]
theorem vadd (v : VArgs) : Statement (.vadd v) := viaR _ .vadd rfl rfl rfl rfl fun hw => by
  exact vec_enc _ v _ (ok_cs hw (by decide))
theorem vsub (v : VArgs) : Statement (.vsub v) := viaR _ .vsub rfl rfl rfl rfl fun hw => by
  exact vec_enc _ v _ (ok_cs hw (by decide))
theorem vmul (v : VArgs) : Statement (.vmul v) := viaR _ .vmul rfl rfl rfl rfl fun hw => by
  exact vec_enc _ v _ (ok_cs hw (by decide))
theorem vmulh (v : VArgs) : Statement (.vmulh v) := viaR _ .vmulh rfl rfl rfl rfl fun hw => by
  exact vec_enc _ v _ (ok_cs hw (by decide))
theorem vmulhr (v : VArgs) : Statement (.vmulhr v) := viaR _ .vmulhr rfl rfl rfl rfl fun hw => by
  exact vec_enc _ v _ (ok_cs hw (by decide))
theorem vdiv (v : VArgs) : Statement (.vdiv v) := viaR _ .vdiv rfl rfl rfl rfl fun hw => by
  exact vec_enc _ v _ (ok_cs hw (by decide))
theorem vrem (v : VArgs) : Statement (.vrem v) := viaR _ .vrem rfl rfl rfl rfl fun hw => by
  exact vec_enc _ v _ (ok_cs hw (by decide))
theorem vmin (v : VArgs) : Statement (.vmin v) := viaR _ .vmin rfl rfl rfl rfl fun hw => by
  exact vec_enc _ v _ (ok_cs hw (by decide))
theorem vmax (v : VArgs) : Statement (.vmax v) := viaR _ .vmax rfl rfl rfl rfl fun hw => by
  exact vec_enc _ v _ (ok_cs hw (by decide))
theorem vand (v : VArgs) : Statement (.vand v) := viaR _ .vand rfl rfl rfl rfl fun hw => by
  exact vec_enc _ v _ (ok_cs hw (by decide))
theorem vor (v : VArgs) : Statement (.vor v) := viaR _ .vor rfl rfl rfl rfl fun hw => by
  exact vec_enc _ v _ (ok_cs hw (by decide))
theorem vxor (v : VArgs) : Statement (.vxor v) := viaR _ .vxor rfl rfl rfl rfl fun hw => by
  exact vec_enc _ v _ (ok_cs hw (by decide))
theorem vshl (v : VArgs) : Statement (.vshl v) := viaR _ .vshl rfl rfl rfl rfl fun hw => by
  exact vec_enc _ v _ (ok_cs hw (by decide))
theorem vshr (v : VArgs) : Statement (.vshr v) := viaR _ .vshr rfl rfl rfl rfl fun hw => by
  exact vec_enc _ v _ (ok_cs hw (by decide))
theorem vsra (v : VArgs) : Statement (.vsra v) := viaR _ .vsra rfl rfl rfl rfl fun hw => by
  exact vec_enc _ v _ (ok_cs hw (by decide))
theorem vrshr (v : VArgs) : Statement (.vrshr v) := viaR _ .vrshr rfl rfl rfl rfl fun hw => by
  exact vec_enc _ v _ (ok_cs hw (by decide))
theorem vabs (v : VArgs) : Statement (.vabs v) := viaR _ .vabs rfl rfl rfl rfl fun hw => by
  exact vec_enc _ v _ (ok_cs hw (by decide))
theorem vneg (v : VArgs) : Statement (.vneg v) := viaR _ .vneg rfl rfl rfl rfl fun hw => by
  exact vec_enc _ v _ (ok_cs hw (by decide))
theorem vsqrt (v : VArgs) : Statement (.vsqrt v) := viaR _ .vsqrt rfl rfl rfl rfl fun hw => by
  exact vec_enc _ v _ (ok_cs hw (by decide))
theorem vrsqrt (v : VArgs) : Statement (.vrsqrt v) := viaR _ .vrsqrt rfl rfl rfl rfl fun hw => by
  exact vec_enc _ v _ (ok_cs hw (by decide))
theorem vexp2 (v : VArgs) : Statement (.vexp2 v) := viaR _ .vexp2 rfl rfl rfl rfl fun hw => by
  exact vec_enc _ v _ (ok_cs hw (by decide))
theorem vfma (v : VArgs) : Statement (.vfma v) := viaR _ .vfma rfl rfl rfl rfl fun hw => by
  exact vec3_enc _ v _
theorem vsel (v : VArgs) : Statement (.vsel v) := viaR _ .vsel rfl rfl rfl rfl fun hw => by
  exact vec_enc _ v _ (ok_cs hw (by decide))
theorem vclamp (v : VArgs) : Statement (.vclamp v) := viaR _ .vclamp rfl rfl rfl rfl fun hw => by
  exact vec3_enc _ v _
theorem vcmp (rel : VRel) (v : VArgs) : Statement (.vcmp rel v) := viaR _ .vcmp rfl rfl rfl rfl fun hw => by
  have hw' : VForm.cmp.ok v = true := by simp only [Instr.wf, Bool.and_eq_true] at hw; exact hw.1.1.1
  have h1 : (0#3 ++ rel.toBits ++ bit1 v.bs : BitVec 7).getLsbD 0 = v.bs := by cases v.bs <;> cases rel <;> rfl
  have h2 : (0#3 ++ rel.toBits ++ bit1 v.bs : BitVec 7).toNat < 16 := by cases v.bs <;> cases rel <;> decide
  have h3 : (0#3 ++ rel.toBits ++ bit1 v.bs : BitVec 7).extractLsb' 1 3 = rel.toBits := by
    cases v.bs <;> cases rel <;> rfl
  have hc := ok_cs hw' (by decide)
  simp only [LR.parse, LR.fn31, h1, h2, h3, vargs_enc, VRel.ofBits_toBits, if_true]
  cases v; cases hc; rfl
theorem vcvt (src : Ty) (v : VArgs) : Statement (.vcvt src v) := viaR _ .vcvt rfl rfl rfl rfl fun hw => by
  have hw' : (VForm.cvt src).ok v = true := by simp only [Instr.wf, Bool.and_eq_true] at hw; exact hw.1
  have h1 : (0#2 ++ src.toBits ++ 0#1 : BitVec 7).getLsbD 0 = false := by cases src <;> rfl
  have h2 : (0#2 ++ src.toBits ++ 0#1 : BitVec 7).toNat < 32 := by cases src <;> decide
  have h3 : (0#2 ++ src.toBits ++ 0#1 : BitVec 7).extractLsb' 1 4 = src.toBits := by cases src <;> rfl
  have hc := ok_cs hw' (by simp [VForm.cvt])
  have hb := ok_bs hw' (by simp [VForm.cvt])
  simp only [LR.parse, h1, h2, h3, Ty.ofBits_toBits, vargs_enc, decide_true]
  cases v; cases hc; cases hb; rfl
theorem vbscale (v : VArgs) : Statement (.vbscale v) := viaR _ .vbscale rfl rfl rfl rfl fun hw => by
  exact vec_enc _ v _ (ok_cs hw (by decide))
theorem vpackni (v : VArgs) : Statement (.vpackni v) := viaR _ .vpackni rfl rfl rfl rfl fun hw => by
  exact vec_enc _ v _ (ok_cs hw (by decide))
theorem vunpkni (k : BitVec 4) (v : VArgs) : Statement (.vunpkni k v) := viaR _ .vunpkni rfl rfl rfl rfl fun hw => by
  have hw' : VForm.pack.ok v = true := by simp only [Instr.wf, Bool.and_eq_true] at hw; exact hw.1.1
  have h1 : (0#2 ++ k ++ 0#1 : BitVec 7).getLsbD 0 = false := by clear hw; revert k; decide
  have h2 : (0#2 ++ k ++ 0#1 : BitVec 7).toNat < 32 := by clear hw; revert k; decide
  have h3 : (0#2 ++ k ++ 0#1 : BitVec 7).extractLsb' 1 4 = k := by clear hw h1 h2; revert k; decide
  have hc := ok_cs hw' (by simp [VForm.pack])
  have hb := ok_bs hw' (by simp [VForm.pack])
  simp only [LR.parse, h1, h2, h3, vargs_enc, decide_true]
  cases v; cases hc; cases hb; rfl
theorem vmov (byVew : Bool) (v : VArgs) : Statement (.vmov byVew v) := by
  cases byVew with
  | false =>
    refine viaR _ .vmov rfl rfl rfl rfl fun hw => ?_
    have hw' : VForm.mov.ok v = true := by
      simp only [Instr.wf, if_neg Bool.false_ne_true, Bool.and_eq_true] at hw; exact hw.1
    exact vec_enc _ v _ (ok_cs hw' (by decide))
  | true =>
    refine half (a := .nop) (b := .vmov true v) rfl rfl fun hw => ?_
    simp only [Instr.wf, isBank1, if_true, Bool.and_eq_true, Bool.not_eq_true', decide_eq_false_iff_not, beq_iff_eq] at hw
    refine ⟨decodeWord_halfB _ _ ?_, by simp [theHalf]⟩
    simp only [LH.parse]
    rw [bank0_half v.d (by omega), bank0_half v.a (by omega)]
    exact congrArg (fun u => some (Instr.vmov true u)) hw.2.symm
theorem vid (v : VArgs) : Statement (.vid v) := viaR _ .vid rfl rfl rfl rfl fun hw => by
  have hw' : VForm.id.ok v = true := by simp only [Instr.wf, Bool.and_eq_true] at hw; exact hw.1
  exact vec_enc _ v _ (ok_cs hw' (by decide))
theorem vext (v : VArgs) : Statement (.vext v) := viaR _ .vext rfl rfl rfl rfl fun hw => by
  exact vecSc_enc _ v _ (ok_cs hw (by decide)) (ok_bsSc hw rfl)
theorem vins (v : VArgs) : Statement (.vins v) := viaR _ .vins rfl rfl rfl rfl fun hw => by
  exact vecSc_enc _ v _ (ok_cs hw (by decide)) (ok_bsSc hw rfl)
theorem vslide (up : Bool) (v : VArgs) : Statement (.vslide up v) := viaR _ .vslide rfl rfl rfl rfl fun hw => by
  have h1 : (0#5 ++ bit1 up ++ 0#1 : BitVec 7).getLsbD 0 = false := by cases up <;> rfl
  have h2 : (0#5 ++ bit1 up ++ 0#1 : BitVec 7).toNat < 4 := by cases up <;> decide
  have h3 : (0#5 ++ bit1 up ++ 0#1 : BitVec 7).getLsbD 1 = up := by cases up <;> rfl
  have hc := ok_cs hw (by decide)
  have hb := ok_bsSc hw rfl
  simp only [LR.parse, h1, h2, h3, vargs_enc, decide_true]
  cases v; cases hc; cases hb; rfl
theorem vperm (v : VArgs) : Statement (.vperm v) := viaR _ .vperm rfl rfl rfl rfl fun hw => by
  exact vec_enc _ v _ (ok_cs hw (by decide))
theorem vcompress (v : VArgs) : Statement (.vcompress v) := viaR _ .vcompress rfl rfl rfl rfl fun hw => by
  exact vec_enc _ v _ (ok_cs hw (by decide))
theorem vred (op : RedOp) (v : VArgs) : Statement (.vred op v) := viaR _ .vred rfl rfl rfl rfl fun hw => by
  have hw' : (VForm.red op).ok v = true := hw
  have h1 : (0#3 ++ op.toBits ++ 0#1 : BitVec 7).getLsbD 0 = false := by cases op <;> rfl
  have h2 : (0#3 ++ op.toBits ++ 0#1 : BitVec 7).toNat < 16 := by cases op <;> decide
  have h3 : (0#3 ++ op.toBits ++ 0#1 : BitVec 7).extractLsb' 1 3 = op.toBits := by cases op <;> rfl
  have hc := ok_cs hw' (by cases op <;> simp [VForm.red])
  have hb := ok_bs hw' (by cases op <;> simp [VForm.red])
  simp only [LR.parse, LR.fn31, h1, h2, h3, vargs_enc, decide_true, RedOp.ofBits_toBits]
  cases v; cases hc; cases hb; rfl
theorem vadds (d : Reg) (a : Reg) (b : Reg) : Statement (.vadds d a b) := half (a := .nop) (b := .vadds d a b) rfl rfl fun hw => by
  simp only [Instr.wf, isBank1, Bool.and_eq_true, Bool.not_eq_true', decide_eq_false_iff_not, decide_eq_true_eq] at hw
  have h1 : (b.extractLsb' 0 5 ++ 0#10 : BitVec 15).extractLsb' 10 5 = b.extractLsb' 0 5 := append_high ..
  have h2 : (b.extractLsb' 0 5 ++ 0#10 : BitVec 15).extractLsb' 0 10 = 0#10 := append_low ..
  refine ⟨decodeWord_halfB _ _ ?_, by simp [theHalf]⟩
  refine Eq.trans (b := some (.vadds ((d.extractLsb' 0 5).setWidth 6) ((a.extractLsb' 0 5).setWidth 6)
    ((b.extractLsb' 0 5).setWidth 6 + 32))) ?_ ?_
  · simp only [LH.parse, h1, h2]
    rfl
  · rw [bank1_half b hw.2, bank0_half d (by omega), bank0_half a (by omega)]
theorem vld (v : VMem) : Statement (.vld v) := viaM _ .vld rfl rfl rfl rfl fun hw => by
  simp [LM.parse]
theorem vst (v : VMem) : Statement (.vst v) := viaM _ .vst rfl rfl rfl rfl fun hw => by
  simp [LM.parse]
theorem vamo (op : VAmoOp) (v : VMem) : Statement (.vamo op v) := viaM _ .vamo rfl rfl rfl rfl fun hw => by
  have hw' : off20Ok v.off = true := by simp only [Instr.wf, Bool.and_eq_true] at hw; exact hw.2
  have h1 : (op.toBits ++ v.off.extractLsb' 0 20 : BitVec 24).extractLsb' 20 4 = op.toBits := append_high ..
  have h2 : (op.toBits ++ v.off.extractLsb' 0 20 : BitVec 24).extractLsb' 0 20 = v.off.extractLsb' 0 20 := append_low ..
  have h3 : (v.off.extractLsb' 0 20).signExtend 24 = v.off := by simpa [off20Ok] using hw'
  simp only [LM.parse, Ty.ofBits_toBits, Space.ofBits_toBits, AKind.ofBits_toBits, h1, h2, h3, VAmoOp.ofBits_toBits]
theorem vbind (d : Reg) (a : Reg) : Statement (.vbind d a) := viaE _ .vbind rfl rfl rfl rfl fun hw => by
  simp [LE.parse, LE.fn0, LE.zero, flag6, bit1]
theorem vunbind (d : Reg) : Statement (.vunbind d) := viaE _ .vunbind rfl rfl rfl rfl fun hw => by
  simp [LE.parse, LE.fn0, LE.zero, flag6, bit1]
theorem vcommit (tag : BitVec 4) : Statement (.vcommit tag) := viaE _ .vcommit rfl rfl rfl rfl fun hw => by
  have h1 := field_lt (m := 24) tag 16 (by decide)
  have h2 := field_back tag (m := 24) (by decide)
  simp only [LE.parse, h1, h2, decide_true, if_true] <;> rfl
theorem wset (fmt : BitVec 4) (d : Reg) (a : Reg) : Statement (.wset fmt d a) := viaE _ .wset rfl rfl rfl rfl fun hw => by
  have h1 := field_lt (m := 6) fmt 16 (by decide)
  have h2 := field_back fmt (m := 6) (by decide)
  simp only [LE.parse, h1, h2, decide_true]
  rfl
theorem mrow (f : AFmt) (z : Bool) (d : Reg) (a : Reg) (b : Reg) (c : Reg) : Statement (.mrow f z d a b c) := viaE _ .mrow rfl rfl rfl rfl fun hw => by
  have h1 : (0#3 ++ bit1 z ++ f.toBits : BitVec 6).toNat < 8 := by cases f <;> cases z <;> decide
  have h2 : (0#3 ++ bit1 z ++ f.toBits : BitVec 6).getLsbD 2 = z := by cases f <;> cases z <;> rfl
  simp only [LE.parse, h1, h2, decide_true]
  cases f <;> cases z <;> rfl
theorem mrowv (f : AFmt) (d : Reg) (a : Reg) (b : Reg) (c : Reg) (tag : BitVec 4) : Statement (.mrowv f d a b c tag) := viaE _ .mrowv rfl rfl rfl rfl fun hw => by
  have h1 := field_lt (m := 24) tag 16 (by decide)
  have h2 := field_back tag (m := 24) (by decide)
  simp only [LE.parse, h1, h2, decide_true]
  cases f <;> rfl
theorem mkick (a : Reg) : Statement (.mkick a) := viaE _ .mkick rfl rfl rfl rfl fun hw => by
  simp [LE.parse, LE.fn0, LE.zero, flag6, bit1]
theorem mkickAll : Statement (.mkickAll) := viaE _ .mkick rfl rfl rfl rfl fun hw => by
  simp [LE.parse, LE.fn0, LE.zero, flag6, bit1]
theorem cpy (src : BitVec 3) (dst : BitVec 3) (ch : BitVec 2) (d : Reg) (a : Reg) (b : Reg) (c : Reg) : Statement (.cpy src dst ch d a b c) := viaE _ .cpy rfl rfl rfl rfl fun hw => by
  have h1 := field_lt (m := 24) ch 4 (by decide)
  have h2 := field_back ch (m := 24) (by decide)
  simp only [LE.parse, h1, h2, if_true]
  rw [show (src ++ dst : BitVec 6).extractLsb' 3 3 = src by clear hw; revert src dst; decide, show (src ++ dst : BitVec 6).extractLsb' 0 3 = dst by clear hw; revert src dst; decide]
theorem cpy2d (src : BitVec 3) (dst : BitVec 3) (ch : BitVec 2) (d : Reg) (a : Reg) (b : Reg) (c : Reg) : Statement (.cpy2d src dst ch d a b c) := viaE _ .cpy2d rfl rfl rfl rfl fun hw => by
  have h1 := field_lt (m := 24) ch 4 (by decide)
  have h2 := field_back ch (m := 24) (by decide)
  simp only [LE.parse, h1, h2, if_true]
  rw [show (src ++ dst : BitVec 6).extractLsb' 3 3 = src by clear hw; revert src dst; decide, show (src ++ dst : BitVec 6).extractLsb' 0 3 = dst by clear hw; revert src dst; decide]
theorem xred (op : XOp) (t : XTy) (d : Reg) (tag : BitVec 4) : Statement (.xred op t d tag) := viaE _ .xred rfl rfl rfl rfl fun hw => by
  have h1 := field_lt (m := 24) tag 16 (by decide)
  have h2 := field_back tag (m := 24) (by decide)
  simp only [LE.parse, h1, h2, decide_true]
  cases op <;> cases t <;> rfl
theorem pkalloc (d : Reg) (a : Reg) (b : Reg) (life : BitVec 24) : Statement (.pkalloc d a b life) := viaE _ .pkalloc rfl rfl rfl rfl fun hw => by
  simp [LE.parse, LE.fn0, LE.zero, flag6, bit1]
theorem pkenter (d : Reg) (a : Reg) (b : Reg) : Statement (.pkenter d a b) := viaE _ .pkenter rfl rfl rfl rfl fun hw => by
  simp [LE.parse, LE.fn0, LE.zero, flag6, bit1]
theorem pkcommit (d : Reg) : Statement (.pkcommit d) := viaE _ .pkcommit rfl rfl rfl rfl fun hw => by
  simp [LE.parse, LE.fn0, LE.zero, flag6, bit1]
theorem pkabort (code : BitVec 24) : Statement (.pkabort code) := viaE _ .pkabort rfl rfl rfl rfl fun hw => by
  simp [LE.parse, LE.fn0, LE.zero, flag6, bit1]
theorem pkstat (code : Bool) (d : Reg) (a : Reg) : Statement (.pkstat code d a) := viaE _ .pkstat rfl rfl rfl rfl fun hw => by
  cases code <;> rfl
theorem pkfree (d : Reg) (a : Reg) : Statement (.pkfree d a) := viaE _ .pkfree rfl rfl rfl rfl fun hw => by
  simp [LE.parse, LE.fn0, LE.zero, flag6, bit1]
theorem csrr (d : Reg) (csr : BitVec 12) : Statement (.csrr d csr) := viaE _ .csrr rfl rfl rfl rfl fun hw => by
  have h1 := field_lt (m := 24) csr 4096 (by decide)
  have h2 := field_back csr (m := 24) (by decide)
  simp only [LE.parse, h1, h2, decide_true, if_true] <;> rfl
theorem csrw (csr : BitVec 12) (a : Reg) : Statement (.csrw csr a) := viaE _ .csrw rfl rfl rfl rfl fun hw => by
  have h1 := field_lt (m := 24) csr 4096 (by decide)
  have h2 := field_back csr (m := 24) (by decide)
  simp only [LE.parse, h1, h2, decide_true, if_true] <;> rfl
theorem ecall (code : BitVec 24) : Statement (.ecall code) := viaE _ .ecall rfl rfl rfl rfl fun hw => by
  simp [LE.parse, LE.fn0, LE.zero, flag6, bit1]
theorem eret : Statement (.eret) := viaE _ .eret rfl rfl rfl rfl fun hw => by
  simp [LE.parse, LE.fn0, LE.zero, flag6, bit1]
theorem eretKill (a : Reg) : Statement (.eretKill a) := viaE _ .eret rfl rfl rfl rfl fun hw => by
  simp [LE.parse, LE.fn0, LE.zero, flag6, bit1]
theorem tlbinvVa (d : Reg) (a : Reg) (b : Reg) (c : Reg) : Statement (.tlbinvVa d a b c) := viaE _ .tlbinv rfl rfl rfl rfl fun hw => by
  simp [LE.parse, LE.fn0, LE.zero, flag6, bit1]
theorem tlbinvAsid (d : Reg) (c : Reg) : Statement (.tlbinvAsid d c) := viaE _ .tlbinv rfl rfl rfl rfl fun hw => by
  simp [LE.parse, LE.fn0, LE.zero, flag6, bit1]
theorem tlbinvAll (d : Reg) : Statement (.tlbinvAll d) := viaE _ .tlbinv rfl rfl rfl rfl fun hw => by
  simp [LE.parse, LE.fn0, LE.zero, flag6, bit1]
theorem tlbinvWait (d : Reg) (b : Reg) : Statement (.tlbinvWait d b) := viaE _ .tlbinv rfl rfl rfl rfl fun hw => by
  simp [LE.parse, LE.fn0, LE.zero, flag6, bit1]
theorem asidsw (d : Reg) (a : Reg) : Statement (.asidsw d a) := viaE _ .asidsw rfl rfl rfl rfl fun hw => by
  simp [LE.parse, LE.fn0, LE.zero, flag6, bit1]
theorem ctxsave (d : Reg) (a : Reg) : Statement (.ctxsave d a) := viaE _ .ctxsave rfl rfl rfl rfl fun hw => by
  simp [LE.parse, LE.fn0, LE.zero, flag6, bit1]
theorem ctxload (d : Reg) (a : Reg) : Statement (.ctxload d a) := viaE _ .ctxload rfl rfl rfl rfl fun hw => by
  simp [LE.parse, LE.fn0, LE.zero, flag6, bit1]
theorem biassetHost (d : Reg) (a : Reg) (b : Reg) : Statement (.biassetHost d a b) := viaE _ .biasset rfl rfl rfl rfl fun hw => by
  simp [LE.parse, LE.fn0, LE.zero, flag6, bit1]
theorem biassetDev (d : Reg) (a : Reg) (b : Reg) : Statement (.biassetDev d a b) := viaE _ .biasset rfl rfl rfl rfl fun hw => by
  simp [LE.parse, LE.fn0, LE.zero, flag6, bit1]
theorem poisonclr (a : Reg) (b : Reg) : Statement (.poisonclr a b) := viaE _ .poisonclr rfl rfl rfl rfl fun hw => by
  simp [LE.parse, LE.fn0, LE.zero, flag6, bit1]
theorem pmigP4k (d : Reg) (a : Reg) (b : Reg) : Statement (.pmigP4k d a b) := viaE _ .pmig rfl rfl rfl rfl fun hw => by
  simp [LE.parse, LE.fn0, LE.zero, flag6, bit1]
theorem pmigP2m (d : Reg) (a : Reg) (b : Reg) : Statement (.pmigP2m d a b) := viaE _ .pmig rfl rfl rfl rfl fun hw => by
  simp [LE.parse, LE.fn0, LE.zero, flag6, bit1]
theorem pmigRel (d : Reg) (a : Reg) (b : Reg) : Statement (.pmigRel d a b) := viaE _ .pmig rfl rfl rfl rfl fun hw => by
  simp [LE.parse, LE.fn0, LE.zero, flag6, bit1]
theorem vectorStart (h : Nat) : Statement (.vectorStart h) := rfl
theorem element (h : Nat) (k : Nat) : Statement (.element h k) := rfl
theorem elementGroup (h : Nat) : Statement (.elementGroup h) := rfl
theorem streamPrefetch (h : Nat) (reg : Nat) : Statement (.streamPrefetch h reg) := rfl
theorem loadDataArrival (h : Nat) : Statement (.loadDataArrival h) := rfl
theorem drain (h : Nat) : Statement (.drain h) := rfl
theorem register (k : Nat) : Statement (.register k) := rfl
theorem evict (core : Nat) (line : Nat) : Statement (.evict core line) := rfl
theorem atomicStep (k : Nat) : Statement (.atomicStep k) := rfl
theorem raMessageArrival (k : Nat) : Statement (.raMessageArrival k) := rfl
theorem pageWalk (h : Nat) (va : Word) (acc : Acc) : Statement (.pageWalk h va acc) := rfl
theorem tlbinvComplete (die : Nat) : Statement (.tlbinvComplete die) := rfl
theorem l2TlbEviction (die : Nat) (k : Nat) : Statement (.l2TlbEviction die k) := rfl
theorem illegalInstruction (h : Nat) : Statement (.illegalInstruction h) := rfl
theorem instructionFetchFault (h : Nat) : Statement (.instructionFetchFault h) := rfl
theorem copyTransfer (core : Nat) (ch : Nat) : Statement (.copyTransfer core ch) := rfl
theorem copyFlagWrite (core : Nat) (ch : Nat) : Statement (.copyFlagWrite core ch) := rfl
theorem rowCapture (h : Nat) : Statement (.rowCapture h) := rfl
theorem leash (core : Nat) (slot : Nat) : Statement (.leash core slot) := rfl
theorem groupAge (core : Nat) (slot : Nat) : Statement (.groupAge core slot) := rfl
theorem arrayTakeUp (core : Nat) : Statement (.arrayTakeUp core) := rfl
theorem tileLoad (core : Nat) : Statement (.tileLoad core) := rfl
theorem rowEnter (core : Nat) : Statement (.rowEnter core) := rfl
theorem rowResult (core : Nat) : Statement (.rowResult core) := rfl
theorem tileLatchError (core : Nat) : Statement (.tileLatchError core) := rfl
theorem rowError (core : Nat) (k : Nat) (wspace : Bool) : Statement (.rowError core k wspace) := rfl
theorem landingComplete (h : Nat) (tag : Nat) : Statement (.landingComplete h tag) := rfl
theorem collectiveComplete (die : Nat) (k : Nat) (contrib : List (List Byte)) : Statement (.collectiveComplete die k contrib) := rfl
theorem xredTimeout (die : Nat) (k : Nat) : Statement (.xredTimeout die k) := rfl
theorem millraceIteration (die : Nat) (slot : Nat) : Statement (.millraceIteration die slot) := rfl
theorem replayComplete (die : Nat) (slot : Nat) : Statement (.replayComplete die slot) := rfl
theorem departure (die : Nat) (slot : Nat) : Statement (.departure die slot) := rfl
theorem taskPop (h : Nat) : Statement (.taskPop h) := rfl
theorem agingMove (die : Nat) (part : Nat) (level : Nat) : Statement (.agingMove die part level) := rfl
theorem gangTimeout (die : Nat) (k : Nat) : Statement (.gangTimeout die k) := rfl
theorem cancelBroadcast (die : Nat) : Statement (.cancelBroadcast die) := rfl
theorem doneContPush (die : Nat) : Statement (.doneContPush die) := rfl
theorem heldPush (die : Nat) : Statement (.heldPush die) := rfl
theorem leaseGrant (core : Nat) : Statement (.leaseGrant core) := rfl
theorem gtoStarvation (h : Nat) : Statement (.gtoStarvation h) := rfl
theorem packCountArrival (h : Nat) : Statement (.packCountArrival h) := rfl
theorem packFlip (handle : Nat) : Statement (.packFlip handle) := rfl
theorem packAbort (handle : Nat) (code : Nat) : Statement (.packAbort handle code) := rfl
theorem memberRestore (h : Nat) : Statement (.memberRestore h) := rfl
theorem tentativeStoreArrival (h : Nat) : Statement (.tentativeStoreArrival h) := rfl
theorem nonmemberHoldExpiry (k : Nat) : Statement (.nonmemberHoldExpiry k) := rfl
theorem packLifetimeExpiry (handle : Nat) : Statement (.packLifetimeExpiry handle) := rfl
theorem timer (h : Nat) : Statement (.timer h) := rfl
theorem watchdog (h : Nat) : Statement (.watchdog h) := rfl
theorem waitaTimeout (h : Nat) : Statement (.waitaTimeout h) := rfl
theorem tlwaitTimeout (h : Nat) : Statement (.tlwaitTimeout h) := rfl
theorem registerSoftError (h : Nat) (reg : Nat) (word : Nat) (scalar : Bool) (syndrome : Word) : Statement (.registerSoftError h reg word scalar syndrome) := rfl
theorem laneRetired (core : Nat) (lane : Nat) (elem : Nat) (syndrome : Word) : Statement (.laneRetired core lane elem syndrome) := rfl
theorem agentFailure (a : Agent) (syndrome : Word) : Statement (.agentFailure a syndrome) := rfl
theorem fatalError (c : FatalCause) (origin : Nat) (dieMask : Nat) : Statement (.fatalError c origin dieMask) := rfl
theorem sync (core : Nat) : Statement (.sync core) := rfl
theorem sample (core : Nat) : Statement (.sample core) := rfl
theorem trctlWrite (core : Nat) (v : Word) : Statement (.trctlWrite core v) := rfl
theorem preemptRequest (h : Nat) : Statement (.preemptRequest h) := rfl
theorem partcoreWrite (core : Nat) (v : Word) : Statement (.partcoreWrite core v) := rfl
theorem partitionChange (core : Nat) : Statement (.partitionChange core) := rfl
theorem qringWrite (die : Nat) (part : Nat) (level : Nat) (size : Bool) (v : Word) : Statement (.qringWrite die part level size v) := rfl
theorem queueMap (die : Nat) (q : Nat) (v : Word) : Statement (.queueMap die q v) := rfl
theorem queueUnmap (die : Nat) (q : Nat) (v : Word) : Statement (.queueUnmap die q v) := rfl
theorem qsubmit (die : Nat) (v : Word) : Statement (.qsubmit die v) := rfl
theorem mrreclaim (die : Nat) (v : Word) : Statement (.mrreclaim die v) := rfl
theorem xgctlWrite (die : Nat) (v : Word) : Statement (.xgctlWrite die v) := rfl
theorem configRegisterWrite (die : Nat) (off : Nat) (v : Word) : Statement (.configRegisterWrite die off v) := rfl
theorem notify (q : Nat) (v : Word) : Statement (.notify q v) := rfl
theorem hostMemRead (pa : Nat) (w : Nat) : Statement (.hostMemRead pa w) := rfl
theorem hostMemWrite (pa : Nat) (w : Nat) (v : Word) : Statement (.hostMemWrite pa w v) := rfl
theorem hostSnoop (line : Nat) (k : SnoopKind) : Statement (.hostSnoop line k) := rfl
theorem snoopResponse (line : Nat) (data : Option (List Byte)) : Statement (.snoopResponse line data) := rfl
theorem biasSnoopTimeout (h : Nat) : Statement (.biasSnoopTimeout h) := rfl
theorem mailboxRecoveryImage (valid : Bool) (b : BringUp) : Statement (.mailboxRecoveryImage valid b) := rfl
theorem mailboxDumpAddress (a : Word) : Statement (.mailboxDumpAddress a) := rfl
theorem mailboxBringupStatus : Statement (.mailboxBringupStatus) := rfl
theorem doeSpdmRequest (measurements : Bool) : Statement (.doeSpdmRequest measurements) := rfl
theorem bringUp (b : BringUp) : Statement (.bringUp b) := rfl
theorem flitReceive (port : Nat) (head : FlitHead) (crcOk : Bool) (payload : List Byte) : Statement (.flitReceive port head crcOk payload) := rfl
theorem portLaneLoss (port : Nat) : Statement (.portLaneLoss port) := rfl
theorem throttleEvaluation (die : Nat) (x : ThrottleIn) : Statement (.throttleEvaluation die x) := rfl
theorem throttleAnnouncement (die : Nat) (step : Nat) (t0 : Nat) : Statement (.throttleAnnouncement die step t0) := rfl
theorem throttleAck (die : Nat) : Statement (.throttleAck die) := rfl
theorem throttleEffect (die : Nat) : Statement (.throttleEffect die) := rfl
theorem leaderSilence (die : Nat) : Statement (.leaderSilence die) := rfl
theorem hbmTempSample (stack : Nat) (temp : Nat) : Statement (.hbmTempSample stack temp) := rfl
theorem supplyDroop (die : Nat) : Statement (.supplyDroop die) := rfl
theorem stretchEnd (die : Nat) : Statement (.stretchEnd die) := rfl
theorem thermalTrip (die : Nat) (byFlow : Bool) : Statement (.thermalTrip die byFlow) := rfl
theorem corePowerGating (core : Nat) : Statement (.corePowerGating core) := rfl
theorem corePowerUngating (core : Nat) : Statement (.corePowerUngating core) := rfl

end Laws.RoundTrip

end Sys2Proof
end

