-- ==== Sys2Proof/Tests/Slice0.lean ====
section
/-! SUPPORT. Tests: ill-formed terms, example words and worked examples of the spec, and a witness for what each statement
assumes. -/

-- One proof after another: the proofs of this file share equation lemmas, and threads that wait for these hold stack.
set_option Elab.async false

namespace Sys2Proof.Tests
open Sys2Proof.Machine

/-! ## Ill-formed terms (R38 to R41) -/

/-- A layout R operand list for the checks below. -/
def args : VArgs :=
  { d := 1, a := 2, b := 3, c := 0, bs := false, cs := false, m := 0, t := .f32, rm := .rne, xm := 0, sat := false }

/-- R39, R317: RM = 5 is no mode of scalar arithmetic. -/
theorem test_wf_scalar_sr : (Instr.fadd .f32 .sr 1 2 3).wf = false ∧ (Instr.ffma .f32 .sr 1 2 3 4).wf = false := by decide
/-- R319: equal types, and stochastic rounding to f32. -/
theorem test_wf_fcvt : (Instr.fcvt .f32 .f32 .rne false 1 2).wf = false ∧ (Instr.fcvt .f32 .i32 .sr false 1 2).wf = false := by
  decide
/-- R300: fadd of 8 bytes, and a posted form with a destination. -/
theorem test_wf_amo : (Instr.amo .fadd false false .g 1 2 3).wf = false ∧ (Instr.amo .add true true .g 1 2 3).wf = false := by
  decide
/-- R40: files with fewer than 64 registers. -/
theorem test_wf_files : (Instr.tlread true 1 4).wf = false ∧ (Instr.mpopc 1 8 0).wf = false ∧ (Instr.wset 1 4 2).wf = false ∧
    (Instr.mlogic .and 0 1 2 0).wf = false := by decide
/-- R41: half A names s0 to s31 and half B s32 to s63. -/
theorem test_wf_halves : (Instr.mov 1 40).wf = false ∧ (Instr.brnz 3 0).wf = false ∧ (Instr.vadds 1 2 3).wf = false := by decide
/-- R352, R356: fields that an entry does not assign. -/
theorem test_wf_vector : (Instr.vabs args).wf = false ∧ (Instr.vand args).wf = false ∧
    (Instr.vadd { args with c := 1 }).wf = false ∧ (Instr.vadd { args with rm := .sr }).wf = false ∧
    (Instr.vcmp .lt { args with d := 0 }).wf = false ∧ (Instr.vunpkni 9 args).wf = false := by decide
/-- R365, R367: a unit access with an index register, and an atomic on a narrow type. -/
theorem test_wf_vmem :
    (Instr.vld { d := 1, a := 2, b := 3, sp := .g, t := .i32, m := 0, k := .unit, off := 0 }).wf = false ∧
    (Instr.vamo .add { d := 1, a := 2, b := 0, sp := .g, t := .i8, m := 0, k := .unit, off := 0 }).wf = false := by decide
/-- R203, R334: a bad tile format, and a C operand without row scales. -/
theorem test_wf_rows : (Instr.wset 10 1 2).wf = false ∧ (Instr.mrow .bf16 false 1 2 1 5).wf = false ∧ (Instr.mkick 4).wf = false := by
  decide

/-! ## Example words of the spec -/

/-- R298, R299, R328, R329, R375. -/
theorem test_decode_integer : (decode (bytesOfWord 0x004C34E000000000)).1 = .instr (.add 12 13 14) 8 ∧
    (decode (bytesOfWord 0x0145187000000100)).1 = .instr (.div true 5 6 7) 8 ∧
    (decode (bytesOfWord 0x050C34E000000300)).1 = .instr (.lea 12 13 14 3) 8 ∧
    (decode (bytesOfWord 0x0659700000000007)).1 = .instr (.andi 25 28 7) 8 ∧
    (decode (bytesOfWord 0x04CC34E3C0000000)).1 = .instr (.sel 12 13 14 15) 8 ∧
    (decode (bytesOfWord 0x071310000000000A)).1 = .instr (.shli .shl 19 4 10) 8 ∧
    (decode (bytesOfWord 0x06CC3400000000FF)).1 = .instr (.xori 12 13 0xFF) 8 := by decide
/-- R299, R37: the second word of a form 10 LI. -/
theorem test_decode_long : (decode (bytesOfWord 0x878C000000000000 ++ bytesOfWord 0x123456789)).1 =
    .instr (.liExt 12 0x123456789) 16 := by decide
/-- R318, R319. -/
theorem test_decode_float : (decode (bytesOfWord 0x080C34E004800000)).1 = .instr (.fadd .f32 .rne 12 13 14) 8 ∧
    (decode (bytesOfWord 0x0B8C340004501200)).1 = .instr (.fcvt .bf16 .f32 .sr false 12 13) 8 := by decide
/-- R325, R346, R300, R302. -/
theorem test_decode_memory : (decode (bytesOfWord 0x0A175800A00007FE)).1 = .instr (.ld .hu .dflt 23 22 2046) 8 ∧
    (decode (bytesOfWord 0x0A59680000000000)).1 = .instr (.st .b .dflt 25 26 0) 8 ∧
    (decode (bytesOfWord 0x0A9F799001000000)).1 = .instr (.amo .add false false .dflt 31 30 25) 8 ∧
    (decode (bytesOfWord 0x0ACC34E3C0000000)).1 = .instr (.cas false .dflt 12 13 14 15) 8 := by decide
/-- R308, R309, R322. -/
theorem test_decode_branch : (decode (bytesOfWord 0x0E1150000000000D)).1 = .instr (.br .eq 17 20 13) 8 ∧
    (decode (bytesOfWord 0x4C63000430047FFE)).1 = .pair (.addi 12 12 8) (.brnz 40 (BitVec.ofInt 15 (-2))) ∧
    (decode (bytesOfWord 0x0E81000000000004)).1 = .instr (.jal 1 4) 8 ∧
    (decode (bytesOfWord 0x0EC0040000000000)).1 = .instr (.jr 0 1 0) 8 := by decide
/-- R320, R339, R306, R374, R351. -/
theorem test_decode_order : (decode (bytesOfWord 0x0B00000006000000)).1 = .instr (.fenceAcq .pkg) 8 ∧
    (decode (bytesOfWord 0x0C40500002000000)).1 = .instr (.release .pkg 20) 8 ∧
    (decode (bytesOfWord 0x0C9630D500000000)).1 = .instr (.bindr 22 12 13 20) 8 ∧
    (decode (bytesOfWord 0x0FC0300000000005)).1 = .instr (.trmark 12 5) 8 := by decide
/-- R321, R324, R348. -/
theorem test_decode_task : (decode (bytesOfWord 0x28D8557000000000)).1 = .instr (.gang 24 21 23) 8 ∧
    (decode (bytesOfWord 0x2856515000000000)).1 = .instr (.join 22 20 21) 8 ∧
    (decode (bytesOfWord 0x2858680001000000)).1 = .instr (.joinLvl 24 26) 8 ∧
    (decode (bytesOfWord 0x2896500001000000)).1 = .instr (.tcancel .launch 22 20) 8 ∧
    (decode (bytesOfWord 0x290C000003000000)).1 = .instr (.tself .die 12) 8 := by decide
/-- R330, R341. -/
theorem test_decode_masks : (decode (bytesOfWord 0x1D03042000000000)).1 = .instr (.mlogic .and 3 1 2 0) 8 ∧
    (decode (bytesOfWord 0x1D8E0C0020000000)).1 = .instr (.mfirst 14 3 4) 8 ∧
    (decode (bytesOfWord 0x1012440000000020)).1 = .instr (.setvl 18 17 32) 8 := by decide
/-- R374, R377. -/
theorem test_decode_engines : (decode (bytesOfWord 0x2000000008000000)).1 = .instr (.wset 8 0 0) 8 ∧
    (decode (bytesOfWord 0x2001300009000000)).1 = .instr (.wset 9 1 12) 8 ∧
    (decode (bytesOfWord 0x2A06000018000003)).1 = .instr (.xred .sum .f32 6 3) 8 := by decide
/-- R340, the loops and packs. -/
theorem test_decode_regions : (decode (bytesOfWord 0x2495000000000000)).1 = .instr (.rpstat 21) 8 ∧
    (decode (bytesOfWord 0x2400440000000009)).1 = .instr (.loopmarkWait 17 9) 8 ∧
    (decode (bytesOfWord 0x2616515000000000)).1 = .instr (.pkalloc 22 20 21 0) 8 ∧
    (decode (bytesOfWord 0x2716500001000000)).1 = .instr (.pkstat true 22 20) 8 := by decide
/-- R316, R197, R304, R278. -/
theorem test_decode_system : (decode (bytesOfWord 0x3080000000000005)).1 = .instr (.ecall 5) 8 ∧
    (decode (bytesOfWord 0x30C0300001000000)).1 = .instr (.eretKill 12) 8 ∧
    (decode (bytesOfWord 0x311530D380000000)).1 = .instr (.tlbinvVa 21 12 13 14) 8 ∧
    (decode (bytesOfWord 0x3155300000000000)).1 = .instr (.asidsw 21 12) 8 ∧
    (decode (bytesOfWord 0x321530D001000000)).1 = .instr (.biassetDev 21 12 13) 8 := by decide
/-- R352 to R364. -/
theorem test_decode_vector : (decode (bytesOfWord 0x1201083004800000)).1 = .instr (.vadd args) 8 ∧
    (decode (bytesOfWord 0x120104E004800100)).1 = .instr (.vadd { args with a := 1, b := 14, bs := true }) 8 ∧
    (decode (bytesOfWord 0x1601083104800000)).1 = .instr (.vfma { args with c := 4 }) 8 ∧
    (decode (bytesOfWord 0x1781083004800400)).1 = .instr (.vcmp .lt args) 8 ∧
    (decode (bytesOfWord 0x1842040004501200)).1 =
      .instr (.vcvt .f32 { args with d := 2, a := 1, b := 0, t := .bf16, rm := .sr }) 8 ∧
    (decode (bytesOfWord 0x18C7185004000800)).1 = .instr (.vunpkni 4 { args with d := 7, a := 6, b := 5, t := .bf16 }) 8 ∧
    (decode (bytesOfWord 0x1CC1080001000400)).1 = .instr (.vred .max { args with b := 0, t := .i32 }) 8 := by decide
/-- R334, R369, R370, R311, R337, R312. -/
theorem test_decode_units : (decode (bytesOfWord 0x2053100005000000)).1 = .instr (.mrow .int8 true 19 4 0 0) 8 ∧
    (decode (bytesOfWord 0x20850C1000000002)).1 = .instr (.mrowv .bf16 5 3 1 0 2) 8 ∧
    (decode (bytesOfWord 0x1EC1600000000000)).1 = .instr (.vbind 1 24) 8 ∧
    (decode (bytesOfWord 0x1F40000000000002)).1 = .instr (.vcommit 2) 8 ∧
    (decode (bytesOfWord 0x220E3D048C000000)).1 = .instr (.cpy 1 4 0 14 15 16 18) 8 ∧
    (decode (bytesOfWord 0x329530D000000000)).1 = .instr (.pmigP4k 21 12 13) 8 ∧
    (decode (bytesOfWord 0x3040600000000003)).1 = .instr (.csrw 3 24) 8 := by decide
/-- R46: the all-zero and the all-ones word. -/
theorem test_decode_refuses : (decode (bytesOfWord 0)).1 = .reject .unassigned ∧
    (decode (bytesOfWord (BitVec.allOnes 64))).1 = .reject .form11 := by decide

/-! ## Small states -/

/-- A hart at supervisor privilege at 0x1000 whose s1 holds `v1` and s2 holds `v2`; SATP bare. -/
def hart (v1 v2 : Word) : Hart :=
  { Hart.reset with s := [0, v1, v2] ++ List.replicate 61 0, priv := .sup, pc := 0x1000 }

/-- Windows over the whole of A- and C-space (R133). -/
def openCore : Core := { Core.reset with windows := [{ launch := 0, ext := 0x0010000000400000, valid := true }] }

/-- Hart `x` is hart 0 and issues; core 0 has its window open. -/
def one (x : Hart) : State := { State.reset with harts := [x], cores := [openCore] }

/-- A first-level entry that maps page 5 of any address space to itself, as tracked, untracked or uncached memory. -/
def entry (pbmt : BitVec 2) : TlbEntry :=
  { asid := 0, vpn := 5, lvl := 0, ppn := 5, pbmt := pbmt, g := true, u := true, x := true, w := true, r := true, d := true }

/-- `one` with translation on. -/
def mapped (pbmt : BitVec 2) (x : Hart) : State :=
  { State.reset with harts := [{ x with satp := 0xA000000000000000 }], cores := [{ openCore with tlb := [(5, entry pbmt)] }] }

/-- The hart has been answered by a home: its access was switched out and the data are there. -/
def answered (x : Hart) : Hart :=
  { x with wait := some { kind := .load, epoch := 0, deadline := none, expired := true, stage := 0, arg := 0 } }

/-- What a pair is, from what its second half is. -/
theorem pair_eq {α β : Type} {p : α × β} {b : β} (h : p.2 = b) : p = (p.1, b) := by subst h; rfl

/-! ## Witnesses: what each statement assumes can hold -/

/-- RegisterOnlyFrame. -/
theorem witness_register_only : Claims.registerOnly (.add 1 2 3) = some 1 ∧
    ∃ t, exec (.add 1 2 3) (one (hart 1 2)) = .next t := ⟨rfl, _, rfl⟩
/-- FloatResults: a mode in force for FADD and for FCVT. -/
theorem witness_float : rmode .rne 0 false 0 = some .rne ∧ rmode .dyn 4 false 0 = some .rmm ∧
    rmode .sr 0 true 7 = some (.sr 7) := by decide
/-- NanResults: a NaN operand, and 0 × ∞. -/
theorem witness_nan : (fdec .f32 0x7FC00001).isNan = true ∧ (fdec .bf16 0x7F81).isSig = true ∧
    (match fdec .f32 0, fdec .f32 0x7F800000 with
      | .fin _ 0 _, .inf _ => true
      | _, _ => false) = true := by decide
/-- RoundingModes: no mode in force. -/
theorem witness_no_mode : (one (hart 1 2)).me.queueIdle = true ∧ rmode .dyn 6 false 0 = none ∧ rmode .dyn 5 false 0 = none := by
  decide
/-- ControlTransfers: aligned and misaligned targets, a LOOPBR that goes round and one that ends. -/
theorem witness_transfers :
    let s := one (hart 0x2000 1)
    (0x2000#64).toNat % 8 = 0 ∧ (s.me.rd 1 + (8#24).signExtend 64).toNat % 8 = 0 ∧ s.me.queueIdle = true ∧
    (s.me.rd 1 + (4#24).signExtend 64).toNat % 8 ≠ 0 ∧ s.me.recording = false ∧ s.me.rd 1 - 1 ≠ 0 ∧ s.me.rd 2 - 1 = 0 := by decide
/-- ControlWords: a MARK record is enabled and fits a ring of 16 bytes exactly; it fits no full ring, and with WRAP it goes to
the base. -/
theorem witness_mark :
    let tr : Trace := { Core.reset.trace with ctl := 0x100001, base := 0x1000, size := 16 }
    let full : Trace := { tr with head := 16 }
    let wrap : Trace := { full with ctl := 0x100003 }
    let s := one (hart 0 0)
    tr.enabled 4 = true ∧ tr.lost = 0 ∧ tr.room = true ∧ tr.place = 0 ∧ tr.enabled 6 = false ∧ full.room = false ∧
    wrap.room = true ∧ wrap.place = 0 ∧ s.pageHeld 0x1000 = false ∧ s.packHolds 0x1000 16 = false ∧ s.hostWaits 0x1000 16 = false ∧
    (s.recallRange 0x1000 16).mem.wf = true ∧ Core.reset.trace.enabled 4 = false := by decide
/-- LocalLoadStore and AtomicOperations: the first and the last bytes of A-space. -/
theorem witness_local :
    let s := one (hart 0 0)
    (s.okA 0 s.me.launch 0 8 && s.okA 0 s.me.launch 4194296 8 && s.okA 0 s.me.launch 4194303 1) = true ∧
    s.okA 0 s.me.launch 4194304 1 = false ∧ s.me.sbuf = [] ∧ (s.core 0).a.wf = true := by decide

/-- GlobalAccess: a tracked page, read from the home and from the store buffer. -/
theorem witness_global_tracked :
    let s := mapped 0 (hart 0x5000 7)
    let r := s.locate s.cur .g .load 0x5000 8
    r.2 = .at_ (.g 0x5000 0) ∧ inCtrl 0x5000 = false ∧ r.1.me.member = none ∧
    r.1.l1Bad 0 0x5000 8 = false ∧
    (r.1.flipping 0x5000 || r.1.heldStore 0x5000 8 || r.1.postedTo s.cur 0x5000 8) = false ∧ bypasses r.1 0x5000 0 = false ∧
    forward r.1.me.sbuf 0x5000 8 = .none ∧ (r.1.core 0).l1has 0x5000 8 = false ∧ r.1.inFlight 0 0x5000 8 = false ∧
    poisoned r.1.bad 0x5000 8 = false ∧
    forward [{ va := 0x5000, pa := 0x5000, pbmt := 0, data := [1, 2, 3, 4], iword := 0 }] 0x5000 4 = .all [1, 2, 3, 4] := by decide
/-- GlobalAccess: an untracked page and an uncached one, host bias, and a store. -/
theorem witness_global_other :
    let s := mapped 1 (hart 0x5000 7)
    let r := s.locate s.cur .g .load 0x5000 8
    let q := (mapped 2 (hart 0x5000 7)).locate s.cur .g .store 0x5000 8
    r.2 = .at_ (.g 0x5000 1) ∧ bypasses r.1 0x5000 1 = false ∧ (r.1.core 0).uline (0x5000 / 64) = none ∧
    q.2 = .at_ (.g 0x5000 2) ∧ bypasses q.1 0x5000 2 = true ∧ q.1.me.sbuf = [] ∧ q.1.atomUncached 0 = false ∧
    q.1.me.elemUncached = false ∧ poisoned q.1.bad 0x5000 8 = false ∧
    (q.1.hostBias 0x5000 && q.1.hostHolds 0x5000) = false ∧ q.1.inPackObject 0x5000 8 = false := by decide
/-- GlobalAccess: the data of a miss have come; the words or the line of L1 hold the bytes. -/
theorem witness_global_arrived :
    let x : Hart := answered (hart 0x5000 7)
    let wd : L1Word := { w := 0x1400, vline := 0x140, slot := 0, owned := false, val := 1, fwd := 1 }
    let l : ULine := { line := 0x140, data := List.replicate 64 0, dirty := 0, bad := 0, whole := 0 }
    x.arrived = true ∧ ({ openCore with l1 := [wd, { wd with w := 0x1401 }] } : Core).l1has 0x5000 8 = true ∧
    ({ openCore with ul1 := [l] } : Core).uline 0x140 = some l ∧ l.poisoned 0x5000 8 = false := by decide
/-- RemoteAccess: another core's A-space, and a message on its way. -/
theorem witness_remote :
    let va : Word := 0x400000
    let s : State := { one (hart va 7) with cores := [openCore, { openCore with assigned := true }] }
    let m : RaMsg := { seq := 0, hart := 0, core := 1, off := 0, load := none, data := [1] }
    let l : RaMsg := { m with seq := 1, load := some (.d, 3) }
    let t : State := { s with ras := [{ m with off := 8 }, l] }
    (s.locate s.cur .ra .store va 8 = (s, .at_ (.a 1 0)) ∧ s.locate s.cur .ra .load va 8 = (s, .at_ (.a 1 0))) ∧
    (1 : Nat) ≠ coreOf s.cur ∧ s.requestFree s.cur = true ∧ t.sentFirst 0 0 (.aspace 1 8) 8 false = true ∧
    t.sentFirst l.seq l.hart (.aspace l.core l.off) 8 false = true :=
  ⟨⟨rfl, rfl⟩, by decide⟩
/-- AccessFaults. -/
theorem witness_access_faults :
    let s := one (hart 0x1001 0x1000)
    s.me.queueIdle = true ∧ s.me.sbuf = [] ∧ s.outstanding 0 < Config.maxRequests ∧
    (s.me.rd 1 + (0#24).signExtend 64).toNat % 2 ≠ 0 ∧ (s.me.rd 1).toNat % 8 ≠ 0 ∧
    (s.me.rd 2).toNat % 8 = 0 := by decide
/-- AtomicOperations: an atomic that its unit may perform. -/
theorem witness_atomic :
    let s := mapped 0 (hart 0x5000 7)
    let r := s.locate s.cur .g .store 0x5000 8
    let m : Atomic := { seq := 0, hart := 0, op := .amo .add, bytes := 8, sgn := true, place := .phys 0x5000, pbmt := 0, va := 0x5000
                        operand := 7, posted := false, d := 3, arrived := none }
    let t : State := { s with atoms := [m] }
    r.2 = .at_ (.g 0x5000 0) ∧ inCtrl 0x5000 = false ∧ r.1.inPackObject 0x5000 8 = false ∧ s.me.member = none ∧
    s.outstanding 0 < Config.maxRequests ∧ s.me.elemUncached = false ∧ t.sentFirst m.seq m.hart m.place m.bytes (m.pbmt == 2) = true ∧
    (t.atomSnoop m.place).isNone = true ∧ t.atomReady 0 m.place 8 = true ∧ t.atomPoison m = false := by
  decide

/-- A registration of one word of core 0. -/
def someReg : Registration :=
  { core := 0, hart := 0, vec := false, w := 0x1400, stride := 1, width := 1, vline := 0x140, vals := [7], mask := 15, iword := 0, last := 0
    arrived := none }
/-- A wait with deadline 5. -/
def someWait : Wait := { kind := .retry, epoch := 0, deadline := some 5, expired := false, stage := 0, arg := 0 }

/-- DrainStep: a buffered store of a tracked, an untracked and an uncached page. -/
theorem witness_drain :
    let e : SbEntry := { va := 0x5000, pa := 0x5000, pbmt := 0, data := [1, 2, 3, 4], iword := 0 }
    let s := one { hart 0 0 with sbuf := [e] }
    let t := one { hart 0 0 with sbuf := [{ e with data := [1, 2] }] }
    (∀ m, m < 3 → s.storeReady 0 e.pa e.data.length (BitVec.ofNat 2 m) = true) ∧ t.storeReady 0 e.pa 2 0 = true ∧
    s.postedTo 0 e.pa e.data.length = false ∧ s.atomUncached 0 = false ∧
    (s.core 0).l1.length + (s.core 0).ul1.length < Config.l1Lines ∧ e.pa % 64 + e.data.length ≤ 64 ∧ s.hostBias e.pa = false ∧
    (s.hostBias e.pa && s.hostHolds e.pa) = false ∧
    s.drainFails e.pa 4 = false ∧ ({ s with drainBad := [0x1400] } : State).drainFails e.pa 4 = true ∧ s.mem.wf = true := by decide
/-- OwnershipSteps. -/
theorem witness_ownership :
    let s : State := { one (hart 0 0) with regs := [someReg] }
    let c : Core := { openCore with l1 := [{ w := 0x1400, vline := 0x140, slot := 0, owned := true, val := 1, fwd := 1 }] }
    let t : State := { State.reset with cores := [c] }
    regFirst s.regs 0 someReg = true ∧ s.regHeld someReg = false ∧ s.table (4 * someReg.w) = [] ∧
    s.hostBias (4 * someReg.w) = false ∧ 0 < someReg.width ∧ someReg.width ≤ someReg.stride ∧
    someReg.vals.length % someReg.width = 0 ∧
    (∀ i, i < someReg.vals.length → someReg.word i / 16 = someReg.w / 16) ∧
    ((t.core 0).l1.any (fun y => y.w / 16 == 0x140 && !t.inFlight 0 (4 * y.w) 4) || ((t.core 0).uline 0x140).isSome) = true := by
  decide
/-- Fences: a hart with nothing to release, and one with a registration on its way. -/
theorem witness_fences :
    let s := one (hart 0 0)
    let t : State := { s with regs := [someReg] }
    s.released s.cur .core = true ∧ s.released s.cur .pkg = true ∧ t.released t.cur .pkg = false ∧
    s.vdrained s.cur .a = true ∧
    (one { hart 0 0 with elems := [{ seq := 0, kind := .store, idx := 0, bytes := 4, va := 0, place := .a 0 0, data := 0, iword := 0
                                     pack := none }] }).vdrained 0 .a = false := by decide
/-- Bindings: the empty, the overlapping and the full table. -/
theorem witness_bindings :
    let s := one { hart 0x5000 64 with s := [0, 0x5000, 64, 9] ++ List.replicate 60 0 }
    let full : Core := { openCore with binds := (List.range 63).map fun k => { slot := k + 1, obj := 1, base := 64 * k, len := 64 } }
    s.me.queueIdle = true ∧ (s.me.rd 1).toNat % 64 = 0 ∧ (s.me.rd 2).toNat % 64 = 0 ∧ (s.me.rd 3).toNat % 64 ≠ 0 ∧
    s.me.rd 3 ≠ 0 ∧ (s.me.rd 2).toNat ≤ 2 ^ 40 ∧ (s.core 0).binds = [] ∧
    (∀ k, 1 ≤ k → k < 64 → (full.binds.any fun t => t.slot == k) = true) ∧
    (full.binds.any fun t => decide (t.base < 0x5000 + 64) && decide (0x5000 < t.base + t.len)) = false ∧
    (full.binds.any fun t => decide (t.base < 64 + 64) && decide (64 < t.base + t.len)) = true := by decide
/-- TimedWaits: numbers not issued, reached and not reached, and an ended timeout. -/
theorem witness_timeline :
    let x : Hart := { hart 5 7 with tl := [{ issued := 6, done := 5, above := [] }] }
    (x.tline 0).issued < 7 ∧ 5 ≤ (x.tline 0).done ∧ 6 ≤ (x.tline 0).issued ∧ (x.tline 0).done < 6 ∧ x.wait = none ∧
    ({ x with wait := some { someWait with expired := true } } : Hart).expired = true := by decide
/-- TimedWaits: a word that WAITA reads, with a condition that holds and one that does not. -/
theorem witness_waita : ∃ u bs, (one (hart 64 0)).locate 0 .a .load 64 8 = (u, .at_ (.a 0 64)) ∧
    u.waitaWord 0 (.a 0 64) = .val u bs ∧ BitVec.ofNat 64 (leNat bs) = u.me.rd 2 ∧ u.me.wait = none :=
  ⟨_, _, rfl, rfl, by decide, rfl⟩
/-- TimedWaits: waits whose time has come, of WAITA on a word that reads and of TLWAIT. -/
theorem witness_timeouts : ∃ v r bs,
    let x : Hart := { hart 64 0 with wait := some someWait, item := .instr (.waita .eq true 3 1 2 1) 8 }
    let s : State := { one x with gtime := 5 }
    let y : Hart := { hart 64 0 with wait := some someWait, item := .instr (.tlwait 3 0 1 1) 8 }
    (s.hart 0).wait = some someWait ∧ someWait.deadline = some 5 ∧ 5 ≤ s.gtime ∧ someWait.expired = false ∧
    (s.hart 0).item = .instr (.waita .eq true 3 1 2 1) 8 ∧ ((s.hart 0).rd 1).toNat % 8 = 0 ∧
    State.locate { s.expire 0 with cur := 0 } 0 .a .load ((s.hart 0).rd 1) 8 = (v, .at_ (.a 0 64)) ∧
    v.waitaWord 0 (.a 0 64) = .val r bs ∧ y.item = .instr (.tlwait 3 0 1 1) 8 :=
  ⟨_, _, _, rfl, rfl, by decide, rfl, rfl, by decide, rfl, rfl, rfl⟩
/-- CacheLines: no line, one line, and lengths that are refused. -/
theorem witness_cache_lines :
    let s := one (hart 0x5000 64)
    s.me.sbuf = [] ∧ s.me.queueIdle = true ∧ (s.me.rd 1).toNat % 64 = 0 ∧ (s.me.rd 2) = 64 ∧ s.me.rd 0 = 0 ∧
    (s.locateG s.cur .load 0x5000 64).2 = .at_ (.g 0x5000 0) ∧ s.me.stage ≠ 1 ∧ s.heldPuts = [] ∧ s.holds = [] ∧
    (s.packHolds 0x5000 64 || s.hostWaits 0x5000 64) = false ∧ 2 ^ 40 < (2 ^ 40 + 64#64).toNat ∧ (2 ^ 40 + 1#64).toNat % 64 ≠ 0 := by
  decide

/-! ## Witnesses: tasks -/

/-- A record without a launch for level 2. -/
def someRec : TaskRec := TaskRec.ofBytes (leBytes 64 (0x5000 + 2 ^ 256 * (1 + 2 ^ 8 * 1 + 2 ^ 16 * 2)))
/-- A record that joined a level at time 0. -/
def queuedRec : QRec := { rc := someRec, handle := 0x6000, since := 0, handler := none, gang := none }
/-- A level that holds one record. -/
def someLevel : Level := { recs := [queuedRec], base := 0, log := 0, first := 0 }
/-- A level record at 0x5000 of KIND `kind` and state `st` that belongs to no partition. -/
def levelBytes (kind st : Nat) : List Byte := leBytes 64 (kind * 2 ^ 80 + st * 2 ^ 64)

/-- Names, of a record and of a level record. -/
theorem witness_names : Claims.Names (one (hart 0x5000 3)) ((one (hart 0x5000 3)).locateG 0 .load 0x5000 64).1 .load 0x5000 0x5000 0 ∧
    Claims.Names (one (hart 0x5000 3)) ((one (hart 0x5000 3)).locateG 0 .store 0x5000 64).1 .store 0x5000 0x5000 0 ∧
    (one (hart 0x5000 3)).me.inRegion = false :=
  ⟨⟨by decide, pair_eq (by decide), by decide, by decide, by decide, by decide⟩,
    ⟨by decide, pair_eq (by decide), by decide, by decide, by decide, by decide⟩, by decide⟩
/-- TaskPushes: a record that is well formed, one that is not, and a full level. -/
theorem witness_pushes :
    let s := one (hart 0x5000 3)
    let full : Level := { recs := List.replicate 256 queuedRec, base := 0, log := 0, first := 0 }
    let d : Die := { Die.reset with levels := List.replicate 128 full }
    someRec.fieldsOk = true ∧ someRec.launch = 0 ∧ (TaskRec.ofBytes (leBytes 64 0)).fieldsOk = false ∧
    (s.checkRec (s.ctx 0) someRec 0).2 = .ok ∧ (s.checkRec (s.ctx 0) (TaskRec.ofBytes (leBytes 64 0)) 0).2 = .invalid ∧
    s.me.arrived = false ∧ s.requestFree 0 = true ∧ (answered (hart 0x5000 3)).arrived = true ∧
    s.levelFull 0 0 someRec = false ∧ ({ s with dies := [d] } : State).levelFull 0 0 someRec = true := by decide +kernel

/-- Join: a counter at 2 and a record that cannot be pushed. -/
theorem witness_join :
    let s : State := { one (hart 0x5000 0x6000) with mem := [(0x5000, 2)] }
    let u := (s.locateG 0 .store 0x5000 8).1
    let v := (u.locateG 0 .load 0x6000 64).1
    (s.locateG 0 .store 0x5000 8).2 = .at_ (.g 0x5000 0) ∧ (u.locateG 0 .load 0x6000 64).2 = .at_ (.g 0x6000 0) ∧
    s.me.inRegion = false ∧ inCtrl 0x5000 = false ∧ inCtrl 0x6000 = false ∧ u.inPackObject 0x5000 8 = false ∧ v.quiet 0 = true ∧
    v.inFlight 0 0x5000 8 = false ∧ v.writeHeld 0x5000 8 = false ∧ poisoned v.bad 0x5000 8 = false ∧
    leNat (v.homeBytes 0x5000 8) = 2 ∧ (v.recallRange 0x5000 8).mem.wf = true := by decide
/-- Join: a counter at 1, with a record to push and with none. -/
theorem witness_join_last :
    let s : State := { one (hart 0x5000 0x6000) with mem := [(0x5000, 1)] }
    leNat (s.homeBytes 0x5000 8) = 1 ∧ poisoned s.bad 0x6000 64 = false ∧ s.readHeld 0x6000 64 = false ∧
    (s.checkRec (s.ctx 0) (TaskRec.ofBytes (s.homeBytes 0x6000 64)) 0).2 ≠ .ok ∧ (s.checkRec (s.ctx 0) someRec 0).2 = .ok ∧
    s.levelFull 0 0 someRec = false := by decide
/-- LevelRecords: a record of the KIND asked for that runs, one that has stopped, one of another KIND, one of no level's KIND and
one of another partition. -/
theorem witness_levels :
    let l := fun k st => LevelRec.ofBytes 0x5000 (levelBytes k st)
    (l 1 0).kind = 1 ∧ (l 1 0).st = 0 ∧ (l 1 0).set = false ∧ (l 2 1).kind = 2 ∧ (l 2 1).st ≠ 0 ∧ (l 0 0).kind = 0 ∧
    (LevelRec.ofBytes 0x5000 (leBytes 64 (2 ^ 80 + 2 ^ 88 * 129))).set = true ∧
    (LevelRec.ofBytes 0x5000 (leBytes 64 (2 ^ 80 + 2 ^ 88 * 129))).part ≠ 0 := by decide
/-- LevelRecords: the state in which the two instructions meet a running launch record whose OUTSTANDING is 1, and what they
answer. -/
theorem witness_level_records :
    let s : State := { one (hart 0x5000 3) with mem := [(0x5000, 1), (0x500A, 1)] }
    let u := (s.locateG 0 .store 0x5000 64).1
    (u.locateG 0 .store 0x5000 64).2 = .at_ (.g 0x5000 0) ∧ u.inPackObject 0x5000 64 = false ∧ s.me.inRegion = false ∧
    u.quiet 0 = true ∧ u.readHeld 0x5000 64 = false ∧ ∃ o,
    ((u.stampNamed (LevelRec.ofBytes 0x5000 (u.modeBytes 0 0x5000 64)) 0).levelAt (u.ctx 0) .store 0x5000).2 = some o ∧
      o.outstanding = 1 := by decide
/-- TaskPushes: GANG with a mask of two dies and a record with a launch that runs, on levels with room. -/
theorem witness_gang :
    let r : TaskRec := { someRec with launch := 0x7000 }
    let s : State := { one (hart 0x5000 3) with mem := [(0x700A, 1)] }
    let t : State := { one (hart 0x5000 3) with mem := [(0x7008, 1), (0x700A, 1)] }
    r.launch ≠ 0 ∧ (s.checkRec (s.ctx 0) r 0).2 = .ok ∧ (t.checkRec (t.ctx 0) r 0).2 = .closed ∧
    (∀ k, k < 4 → s.levelFull k 0 r = false) := by decide
/-- TaskSelfAndEnd: a task that may end, a hart without a task, and a hart in a pack region. -/
theorem witness_task :
    let k : Task := { rc := someRec, handle := 0x6000, handler := none }
    let s := one { hart 0 0 with task := some k }
    let m : Member := { handle := 0x8000, obj := 0x8000, epoch := 0, handler := 0, ckpt := [], count := 0, restore := false, trapped := false
                        nested := 0, sup := false }
    s.me.task = some k ∧ s.joinFaults 0 = false ∧ s.me.pack = none ∧ (∀ t ∈ s.me.tl, t.done = t.issued) ∧ s.quiet 0 = true ∧
    (one (hart 0 0)).me.task = none ∧ ({ hart 0 0 with pack := some m } : Hart).inRegion = true ∧
    ({ hart 0 0 with pack := some { m with trapped := true } } : Hart).pack.isSome = true := by decide
/-- TaskStart: an idle hart, and a record on the highest level. -/
theorem witness_start :
    let d : Die := { Die.reset with levels := [Level.empty, Level.empty, someLevel] }
    let s : State := { State.reset with cores := [{ openCore with assigned := true }], dies := [d] }
    s.idle 0 = true ∧ (s.die (dieOf 0)).highest (s.partOf 0) 8 = some 2 ∧
    ((s.die (dieOf 0)).level (s.partOf 0) 2).recs = [queuedRec] ∧
    queuedRec.rc.launch = 0 ∧ queuedRec.gang = none ∧ s.nextIdle (dieOf 0) (s.partOf 0) = some 0 ∧
    (∀ k, k < 7 → (s.die (dieOf 0)).moveDue (s.partOf 0) k = none) ∧
    (match exec (.taskPop 0) s with
      | .next t => (t.hart 0).task.isSome
      | _ => false) = true := by decide
/-- The steps that move the records of the scheduler: each of them answers on a small state. -/
def goesOn (i : Instr) (s : State) : Bool := match exec i s with
  | .next _ => true
  | _ => false
/-- SchedulerSteps: a record that has aged behind a younger one; gangs that have run out of time, with every die's
acknowledgement and without one. -/
theorem witness_scheduler_queues :
    let c := 2 * (2 ^ 20 * Config.clockUnit)
    let d : Die := { Die.reset with clock := c, levels := [{ someLevel with recs := [{ queuedRec with since := c }, queuedRec] }] }
    let g : Gang := { id := 0, launch := 0x5000, handle := 0x6000, part := 0, start := 0, mask := 1, acked := 1 }
    let s : State := { State.reset with dies := [{ d with gangs := [g, { g with acked := 0 }] }], gtime := 200000, mem := [(0x500A, 1)] }
    ({ queuedRec with since := c } : QRec).aged c = false ∧ queuedRec.aged c = true ∧
    ((s.die 0).level 0 0).recs = [{ queuedRec with since := c }] ++ queuedRec :: [] ∧
    ((s.die 0).level 0 1).recs.length < Config.fifoRecords ∧ goesOn (.agingMove 0 0 0) s = true ∧
    g.start + 20000 < s.gtime ∧ g.mask &&& ~~~g.acked = 0 ∧ goesOn (.gangTimeout 0 0) s = true ∧
    goesOn (.gangTimeout 0 1) s = true := by
  decide
/-- SchedulerSteps: the launch of a gang whose die has not acknowledged, a cancellation that finds the task of its chain, held
pushes of both kinds. -/
theorem witness_scheduler_levels :
    let k : Task := { rc := { someRec with launch := 0x5000 }, handle := 0x6000, handler := none }
    let c : Cancel := { handle := 0x5000, part := 0, gang := none }
    let p : HeldPush := { rc := someRec, handle := 0x6000, part := 0, donecont := true, handler := none, after := .nothing }
    let s : State := { one { hart 0 0 with task := some k } with
      dies := [{ Die.reset with cancels := [c], held := [p] }], mem := [(0x500A, 1)] }
    let t : State := { s with dies := [{ Die.reset with held := [{ p with donecont := false }] }] }
    (s.levelAt (s.partCtx 0) .store 0x5000).2.map (fun l => l.st) = some 0 ∧ c.part = s.partOf 0 ∧ 0 / 256 = 0 ∧
    (s.chainHolds (s.partCtx 0) 0x5000 0x5000 (c.spares k)).2 = true ∧ goesOn (.cancelBroadcast 0) s = true ∧
    s.levelFull 0 p.part p.rc = false ∧ goesOn (.doneContPush 0) s = true ∧ goesOn (.heldPush 0) t = true := by decide
/-- SchedulerSteps: a request that can be granted, and a hart that has waited 2,048 cycles. -/
theorem witness_scheduler_lanes :
    let r : LeaseReq := { hart := 0, mincl := 1, prefcl := 4 }
    let s : State := { one (hart 0 0) with cores := [{ openCore with leaseq := [r] }] }
    let t : State := { one { hart 0 0 with gto := 2048 } with bringup := .up }
    r.mincl ≤ min r.prefcl (popcount (s.freeClusters 0 ||| ((s.hart r.hart).lease &&& ~~~(s.core 0).lanedis))) ∧
    goesOn (.leaseGrant 0) s = true ∧ (t.core (coreOf 0)).rr = false ∧ 2048 ≤ (t.hart 0).gto ∧ (t.hart 0).priv = .sup ∧
    (t.hart 0).wait = none ∧ goesOn (.gtoStarvation 0) t = true ∧ t.ready 0 = true ∧ t.stuck 0 = false := by decide

/-! ## Witnesses: the vector unit and the engines -/

/-- A queued instruction. -/
def queuedAs (i : Instr) : VEntry :=
  { instr := i, pc := 0x1000, iword := 0, sa := 0, sb := 0, sc := 0, sd := 0, num := 0, prio := 0, desc := [], seq := 0
    save := { s := List.replicate 64 0, sbad := 0, fflags := 0 } }
/-- A hart with one cluster and VL 4 of 32-bit elements. -/
def vhart : Hart := { hart 4 0 with lease := 1, vl := 4 }
/-- A run of `i` on it. -/
def runOf (i : Instr) : VRun := vhart.newRun (queuedAs i)
/-- VADD.i32 v1, v2, v3. -/
def vaddInt : VArgs := { args with t := .i32 }

/-- Configuration: with a lease, without one, with and without room for MINCL, and bound. -/
theorem witness_configuration :
    let s := one vhart
    let none_ := one (hart 4 0)
    let left : Core := { openCore with lanedis := 0xFFFF }
    let st : VStream := { reg := 1, base := 0, stride0 := 4, stride1 := 0, count0 := 4, count1 := 1, space := 2, ty := .i32, store := false
                          pos := 0, strips := [] }
    s.me.queueIdle = true ∧ s.me.lease ≠ 0 ∧ s.me.rd 1 ≠ 0 ∧ none_.me.lease = 0 ∧ none_.me.rd 0 = 0 ∧ none_.me.bound = false ∧
    s.storesDone 0 = true ∧ none_.me.leaseWish.1 ≤ none_.clustersLeft 0 ∧
    ({ none_ with cores := [left] } : State).clustersLeft 0 < none_.me.leaseWish.1 ∧ (none_.core 0).leaseq = [] ∧
    ({ vhart with streams := [st] } : Hart).bound = true ∧ (32#36).toNat = 32 ∧ (33#36).toNat ≠ 32 := by decide
/-- VectorQueue: room and a good instruction, a bad one (beyond VL × e), a full queue. -/
theorem witness_vector_queue :
    let x := vhart
    let full : Hart := { x with vq := List.replicate 8 (queuedAs (.vadd vaddInt)) }
    Claims.queued (.vadd vaddInt) = true ∧ x.vq.length < 8 ∧ x.vectorOk (.vadd vaddInt) = true ∧
    ({ x with vl := 2048 } : Hart).vectorOk (.vadd vaddInt) = false ∧ x.queueIdle = true ∧ ¬ full.vq.length < 8 ∧
    ({ x with vl := 2048, vq := [queuedAs (.vadd vaddInt)] } : Hart).queueIdle = false ∧ x.run = none ∧ x.linked = none ∧
    x.streams = [] ∧
    vmemOf (.vadd vaddInt) = none ∧ x.resultDue (.vadd vaddInt) 0 = false := by decide
/-- VectorQueue: no element reads a poisoned word. -/
theorem witness_vector_start : ∀ j, vhart.vstart ≤ j → j < vhart.vl →
    vhart.maskBit (vmaskOf (.vadd vaddInt)) j = true → (runOf (.vadd vaddInt)).readsBad vhart j = false := by decide
/-- LanewiseGroup: a run whose group holds all four elements. -/
theorem witness_lanewise :
    let ru := runOf (.vadd vaddInt)
    Claims.lanewise ru.e.instr = some vaddInt ∧ (one vhart).groupReady 0 ru = true ∧ ru.strips = [] ∧ vhart.streams = [] ∧
    ru.fault = none ∧ vaddInt.xm = 0 ∧
    ru.cycles vhart (ru.groupEnd 1) ≤ ru.spent + 1 ∧
    (let q := runOf (.vdiv vaddInt); Claims.lanewise q.e.instr = some vaddInt ∧ q.spent + 1 < q.cycles vhart (q.groupEnd 1)) ∧
    ru.next ≤ ru.groupEnd 1 ∧ ru.groupEnd 1 * 4 ≤ 2 ^ 20 ∧ vhart.v.wf = true ∧ ru.limit ≤ ru.groupEnd 1 ∧
    ({ ru with limit := 1000 } : VRun).groupEnd 1 < 1000 := by decide
/-- IntegerElements. -/
theorem witness_integer_elements : vaddInt.t.isFp = false ∧ vaddInt.sat = false ∧
    (0x80000000 : Nat) < 2 ^ tyBits vaddInt.t := by decide
/-- MaskOperations. -/
theorem witness_masks :
    let ru := runOf (.mlogic .and 3 1 2 0)
    let p := { runOf (.mpopc 3 1 0) with spent := 50 }
    p.cycles vhart (p.groupEnd 1) ≤ p.spent + 1 ∧ (one vhart).groupReady 0 p = true ∧
    ru.cycles vhart (ru.groupEnd 1) ≤ ru.spent + 1 ∧ ru.fault = none ∧ (one vhart).groupReady 0 ru = true ∧ vhart.streams = [] ∧
    (3 : Reg).toNat ≠ 0 ∧ (3 : Reg).toNat < 8 ∧ ru.next ≤ ru.groupEnd vhart.c ∧
    ru.groupEnd vhart.c ≤ 131072 := by decide
/-- ElementStep: the head of the element queue, a store and a load with another load behind it. -/
theorem witness_element :
    let e : Elem := { seq := 0, kind := .store, idx := 0, bytes := 4, va := 0, place := .a 0 0, data := 5, iword := 0, pack := none }
    let l : Elem := { e with kind := .load, place := .w 0 }
    let x : Hart := { vhart with elems := [l, l], run := some (runOf (.vadd vaddInt)) }
    (openCore.a.wf && openCore.c.wf) = true ∧ x.elems = l :: [l] ∧ x.run = some (runOf (.vadd vaddInt)) ∧
    (∃ f ∈ [l], f.kind = .load) ∧
    x.vq.length ≤ 1 ∧ x.wait = none ∧ x.linked = none ∧ e.kind = .store ∧ e.place = .a 0 0 ∧ l.place = .w 0 ∧
    (one x).sentBefore 0 e = false := by decide
/-- Streams: a descriptor in memory of four words of A-space, and its refusals. -/
theorem witness_vbind : ∃ u v bs st,
    let s : State := { one (hart 0x5000 0x5001) with mem := [(0x5018, 4), (0x501C, 1), (0x5020, 2), (0x5021, 2)] }
    s.locateG 0 .load 0x5000 64 = (u, .at_ (.g 0x5000 0)) ∧ u.readDesc 0 0x5000 0 = .val v bs ∧ v.cur = s.cur ∧
    streamOf 1 bs = some st ∧ s.me.queueIdle = true ∧ s.me.sbuf = [] ∧ (s.me.stream 1).isSome = false ∧ s.me.streams.length < 8 ∧
    ¬ (64 ≤ s.me.nvreg) := ⟨_, _, _, _, rfl, rfl, rfl, rfl, by decide⟩
/-- Streams: a bound load stream of A-space whose strip is there to take. -/
theorem witness_prefetch :
    let st : VStream := { reg := 1, base := 0, stride0 := 4, stride1 := 0, count0 := 4, count1 := 1, space := 2, ty := .i32, store := false
                          pos := 0, strips := [] }
    let x : Hart := { vhart with streams := [st] }
    x.stream 1 = some st ∧ x.vl ≠ 0 ∧ x.queueIdle = true ∧ x.elems = [] ∧ x.member = none ∧ st.ty.bytes * x.vl ≤ x.vbytes ∧
    st.strips.length < 4 ∧ st.inside 0 = true ∧ (one x).stripUncached 0 st 0 4 = false ∧ ((one x).readStrip 0 st 0 4).isOk = true ∧
    x.stream 2 = none ∧ (one x).storesDone 0 = true := by decide
/-- A landing tag whose data have come. -/
def someTag : LandTag :=
  { num := 1, reg := 1, vl := 2, bytes := 8, mask := 0, data := [1, 2, 3, 4, 5, 6, 7, 8], came := true, done := false, err := false
    row := false, discard := false }
/-- LandingTags. -/
theorem witness_landing :
    let u : VStream := { reg := 1, base := 0, stride0 := 4, stride1 := 0, count0 := 4, count1 := 1, space := 2, ty := .i32, store := false
                         pos := 0, strips := [] }
    let x : Hart := { vhart with landing := [some someTag, some { someTag with done := true }, some { someTag with done := true, err := true }] }
    getAt none x.landing 0 = some someTag ∧ someTag.came = true ∧ someTag.done = false ∧
    getAt none x.landing 1 = some { someTag with done := true } ∧ getAt none x.landing 3 = none ∧ x.queueIdle = true ∧ x.pack = none ∧
    x.stream someTag.reg = none ∧ ({ x with streams := [u] } : Hart).stream someTag.reg = some u ∧ u.store = false := by
  decide
/-- TileAndRowOps: the last tile that fits W-space, and one that does not. -/
theorem witness_tiles :
    let x := hart 0 0
    x.queueIdle = true ∧ (8 * 2 ^ 20 - 32768) % 64 = 0 ∧ 8 * 2 ^ 20 - 32768 + 32768 ≤ 8 * 2 ^ 20 ∧
    8 * 2 ^ 20 < 8 * 2 ^ 20 - 32768 + 64 + 32768 ∧ x.vq.length < 8 ∧ getAt none x.landing 2 = none ∧ x.landingUse + 1024 ≤ 262144 ∧
    descValid (x.tile 0) = false ∧ descValid (0x8000000000000000 : Word) = true ∧
    ({ x with landing := [some { someTag with bytes := 262144 }] } : Hart).canLand 1 1024 = false := by decide

/-- MROW.bf16 s3, v1, w0 and the tile of 64 rows at 0 that it names. -/
def someRowOp : Instr := .mrow .bf16 false 3 1 0 0
/-- A hart whose w0 holds that tile, with the row op queued. -/
def rowHart : Hart := { vhart with w := [0x8000009040000000], vl := 64, vq := [queuedAs someRowOp] }
/-- What the row op captures there. -/
def someRow : Row := (one rowHart).rowOf 0 (queuedAs someRowOp)
  { f := .bf16, z := false, d := 3, a := 1, b := 0, c := 0, tag := none } { rowHart.newRun (queuedAs someRowOp) with lo := 0 }
/-- A group that waits with it. -/
def someGroup : PondGroup :=
  { addr := 0, fmt := 9, part := 0, state := .waiting, rows := [someRow], readyAt := 0, aged := false, formed := 0, entered := [] }
/-- The latch that holds its tile. -/
def someLatch : Latch := { addr := 0, fmt := 9, part := 0, tile := [], stale := false }

/-- RowSteps: a row op that may be captured, one of another VL, and one with an unaligned C row. -/
theorem witness_row_capture :
    let o : RowOp := { f := .bf16, z := false, d := 3, a := 1, b := 0, c := 0, tag := none }
    let ru : VRun := { rowHart.newRun (queuedAs someRowOp) with lo := 0 }
    rowOp someRowOp = some o ∧ rowHart.run = none ∧ rowHart.pack = none ∧ rowHart.rowOk someRowOp o = true ∧
    ({ rowHart with vl := 63 } : Hart).rowOk someRowOp o = false ∧ o.tag = none ∧ (1#64).toNat % 64 ≠ 0 ∧
    rowHart.resultDue someRowOp 0 = false ∧ (one rowHart).rowDestFault 0 (queuedAs someRowOp) o = none ∧ rowHart.streams = [] ∧
    ru.rowBad rowHart o (descFmt (rowHart.tile 0)) = false ∧
    ((one rowHart).placeRow 0 0 someRow).isSome = true := by decide
/-- RowSteps: a row that has been in the array for 288 cycles. -/
theorem witness_row_result :
    let f : RowFlight := { row := someRow, latch := someLatch, base := List.replicate 256 0, result := List.replicate 256 0, at_ := 288 }
    let c : Core := { openCore with cycle := 288, arr := { openCore.arr with flight := [f] } }
    c.arr.flight = [f] ∧ f.at_ ≤ c.cycle ∧ c.pondRows = [] ∧ f.row.dest = .c 0 ∧ f.result.length = 256 ∧ c.c.wf = true ∧
    f.row.task = rowHart.task ∧ ∀ r ∈ c.pondRows, r.same f.row = false := by decide +kernel
/-- ArraySteps: the clauses in turn. -/
theorem witness_array :
    let g := someGroup
    let r : PondGroup := { g with state := .ready }
    let x : Core := { openCore with cycle := 5000, pond := [some g] }
    let y : Core := { openCore with cycle := 5000, pond := [some r] }
    let z : Core := { openCore with cycle := 5000, pond := [some { g with state := .streaming }]
                                    arr := { openCore.arr with active := some someLatch, streaming := some 0 } }
    g.rows = someRow :: [] ∧ x.group 0 = some g ∧ g.state = .waiting ∧ g.deadline ≤ x.cycle ∧ y.group 0 = some r ∧ r.aged = false ∧
    r.readyAt + 4096 ≤ y.cycle ∧
    y.next = some (0, r) ∧ latchServes y.arr.active r = false ∧ latchServes y.arr.shadow r = false ∧ y.arr.streaming = none ∧
    latchServes (some someLatch) r = true ∧ z.arr.streaming = some 0 ∧ z.arr.active = some someLatch ∧ z.arr.nextEntry ≤ z.cycle ∧
    z.arr.flight = [] := by decide
/-- CopyCommands: a copy within A-space, and operands that are refused. -/
theorem witness_copy :
    let s := one { hart 0x1000 64 with s := [0, 0x1000, 64, 0x2000] ++ List.replicate 60 0 }
    let z := shape1 (s.me.rd 2)
    copyCodesOk 2 2 = true ∧ copyCodesOk 4 2 = false ∧ s.me.inRegion = false ∧ z.rowBytes * z.rows ≤ 2 ^ 40 ∧
    misalignedCopy 2 (s.me.rd 1) z 0 = none ∧ s.ras = [] ∧ (0#64).toNat % 8 = 0 ∧ (1#64).toNat % 8 ≠ 0 ∧
    s.badRow 0 2 (s.me.rd 1) z.dpitch z.rowBytes 0 z.rows = none ∧ s.badRow 0 2 (s.me.rd 3) z.spitch z.rowBytes 0 z.rows = none ∧
    (s.flagOk 0 0).2 = none ∧ s.storesDone 0 = true ∧ s.released 0 .pkg = true ∧ ((s.core 0).chan 0).length < 16 := by decide
/-- A queued copy of 64 bytes of A-space. -/
def someCopy : CopyCmd :=
  { hart := 0, num := 1, src := 2, dst := 2, daddr := 0x1000, saddr := 0x2000, rowBytes := 64, rows := 1, spitch := 0, dpitch := 0
    flag := 0, flagVal := 0, satp := 0, priv := .user, task := none, part := 0, moved := false, faulted := none, retry := 0 }
/-- CopyCommands: the steps of a command. -/
theorem witness_copy_steps :
    let c : Core := { openCore with chans := [[someCopy]] }
    c.chan 0 = [someCopy] ∧ coreOf someCopy.hart = 0 ∧ someCopy.retry ≤ (one (hart 0 0)).gtime ∧
    someCopy.saddr.toNat + 64 ≤ 4 * 2 ^ 20 ∧ c.a.wf = true ∧
    ({ someCopy with moved := true } : CopyCmd).flag = 0 := by decide
/-- Collectives: a die with a group of the partition. -/
theorem witness_collectives :
    let d : Die := { Die.reset with xgctl := 0x0000000000010001 }
    let s : State := { one vhart with dies := [d] }
    let c : Collective := { k := 0, hart := 0, num := 1, tag := 0, op := .sum, ty := .f32, vl := 4, data := [0, 0, 0, 0], start := 0 }
    let l : LandTag := { someTag with came := false }
    let m : Member := { handle := 0, obj := 0, epoch := 0, handler := 0, ckpt := [], count := 0, restore := false, trapped := false
                        nested := 0, sup := false }
    let e : Die := { d with xgseq := 1, colls := [c] }
    let f : Die := { Die.reset with xgctl := 0x0000000100010001, xgseq := 1, colls := [{ c with hart := 256, vl := 2, data := [0, 0] }] }
    let u : State := { s with dies := [e, Die.reset, Die.reset, Die.reset] }
    let w : State := { s with dies := [e, f, Die.reset, Die.reset] }
    (u.die 0).coll 0 = some c ∧ u.inGroup 0 = [0] ∧ w.inGroup 0 = [0, 1] ∧ (∀ k ∈ w.inGroup 0, 0 < (w.die k).xgseq) ∧
    u.contributions 0 0 [[]] = [[0, 0, 0, 0]] ∧ w.contributions 0 0 [[], []] = [[0, 0, 0, 0], [0, 0]] ∧
    wbit (s.die 0).xgctl 0 = true ∧ field (s.die 0).xgctl 8 4 = s.partOf 0 ∧ wbit Die.reset.xgctl 0 = false ∧ s.me.queueIdle = true ∧
    s.me.inRegion = false ∧ s.me.vq = [] ∧ ({ hart 0 0 with pack := some m } : Hart).inRegion = true ∧ (1 : Reg).toNat < s.me.nvreg ∧
    s.me.stream 1 = none ∧ 16 ≤ s.me.vbytes ∧
    getAt none s.me.landing 0 = none ∧ s.me.landingUse + 16 ≤ 262144 ∧ field d.xgctl 16 10 = 1 ∧ field d.xgctl 32 10 < 1 ∧
    l.num = c.num ∧ c.start + xgLimit d.xgtimeout ≤ 10 ^ 15 := by decide +kernel

/-! ## Witnesses: packs, loops and the supervisor -/

/-- An open pack at 0x8000 whose one member is hart 0, with a tentative byte and a read word. -/
def somePack : Pack :=
  { handle := 0x8000, pa := 0x8000, die := 0, expected := 2, entered := 1, committed := 1, state := .opened, code := 0, epoch := 0
    lifetime := 1000, part := 0, start := 0, members := [0], tent := [(0x5000, 9)], reads := [0x1800], freeWait := []
    aborted := 0 }
/-- Membership of it. -/
def someMember : Member :=
  { handle := 0x8000, obj := 0x8000, epoch := 0, handler := 0x2000, ckpt := List.replicate 64 0, count := 1, restore := false, trapped := false
    nested := 0, sup := false }
/-- Hart 0 in the region of the pack. -/
def packed (m : Member) (p : Pack) : State := { one { hart 0x8000 8 with pack := some m } with packs := [p] }

/-- PackCalls: no region, with no pack, an open one, a full one and one that aborts. -/
theorem witness_pack_calls :
    let s := one (hart 0x8000 8)
    let t := fun p : Pack => ({ s with packs := [p] } : State)
    let mine := fun p : Pack => (t p).packs.find? (fun q => q.handle == (t p).me.rd 1) = some p ∧ p.part = (t p).partOf 0
    s.me.queueIdle = true ∧ s.me.pack = none ∧ s.me.inRegion = false ∧ s.me.wait = none ∧ s.quiet 0 = true ∧ s.packs = [] ∧
    (s.translate (s.ctx 0) .store 0x8000).2 = .ok 0x8000 0 ∧ s.inPackObject 0x8000 64 = false ∧
    s.storesTo 0 0x8000 64 = false ∧ s.writeHeld 0x8000 64 = false ∧ (s.recallRange 0x8000 64).mem.wf = true ∧
    (0 : Nat) ∉ somePack.freeWait ∧
    (t somePack).inPackObject 0x8000 64 = true ∧ mine somePack ∧ somePack.state = .opened ∧
    somePack.entered ≠ somePack.expected ∧ mine { somePack with entered := 2 } ∧ mine { somePack with state := .aborting } ∧
    mine { somePack with entered := 0, members := [] } ∧ mine { somePack with freeWait := [0] } := by decide
/-- PackCalls: a call that has not gone to its home, one that has been answered, and a PKFREE that waits for a pack to go. -/
theorem witness_pack_requests :
    let s := one (hart 0x8000 8)
    let t := one (answered (hart 0x8000 8))
    let w : Wait := { kind := .retry, epoch := 0, deadline := none, expired := false, stage := 1, arg := 0 }
    let x : Hart := { hart 0x8000 8 with wait := some w }
    s.me.arrived = false ∧ s.requestFree 0 = true ∧ s.me.stage ≠ 1 ∧ t.me.arrived = true ∧ t.me.stage ≠ 1 ∧ t.me.inRegion = false ∧
    t.me.pack = none ∧ t.quiet 0 = true ∧ x.stage = 1 ∧ x.arrived = false ∧ x.inRegion = false ∧
    (packed someMember { somePack with state := .committing }).packCauses { somePack with state := .committing } = [] := by decide
/-- PackCalls: in the region, before and after the count, and after the commit instant. -/
theorem witness_pack_region :
    let s := packed { someMember with count := 0 } somePack
    s.me.pack = some { someMember with count := 0 } ∧ someMember.trapped = false ∧ s.commitReady 0 = true ∧ s.me.inRegion = true ∧
    s.me.member = some 0x8000 ∧ s.pack? 0x8000 = some somePack ∧ somePack.members ≠ [] ∧ s.packCauses somePack = [] ∧
    (packed someMember somePack).me.pack = some someMember ∧
    ({ s with harts := [{ s.me with tents := [{ va := 0x5000, pa := 0x5000, data := [1], vec := false }] }] } : State).commitReady 0 = false := by
  decide
/-- PackSteps: a count on its way in time and too late, and a pack that has committed. -/
theorem witness_pack_steps :
    let s := packed someMember somePack
    let late : State := { s with gtime := 1000001 }
    let c : Pack := { somePack with state := .committing }
    let t := packed { someMember with count := 2 } c
    s.me.pack = some someMember ∧ someMember.count = 1 ∧ s.pack? someMember.obj = some somePack ∧
    someMember.restore = false ∧ late.packCauses somePack = [(1000001, 6)] ∧ s.packCauses somePack = [] ∧ s.heldPuts = [] ∧
    s.mem.wf = true ∧ s.regs = [] ∧
    somePack.tent.all (fun c => !s.pageHeld c.1 && !s.flipping c.1 && (s.hostLine c.1 1).isNone) = true ∧
    s.gtime ≤ somePack.start + 1000 * somePack.lifetime ∧ somePack.start + 1000 * somePack.lifetime < late.gtime ∧
    0 < somePack.entered ∧
    t.pack? 0x8000 = some c ∧ (∃ h ∈ c.members, ∃ m, (t.hart h).pack = some m ∧ m.count ≠ 3) ∧
    ({ s with dies := [{ Die.reset with lost := true }] } : State).die (somePack.die % 4) = { Die.reset with lost := true } :=
  ⟨rfl, rfl, rfl, rfl, by decide, by decide, rfl, rfl, rfl, by decide, by decide, by decide, by decide, rfl,
  ⟨0, by decide, _, rfl, by decide⟩, rfl⟩
/-- PackSteps: an aborted member, its store and a store of a live one, and a held write of a non-member. -/
theorem witness_pack_members :
    let e : TentStore := { va := 0x5000, pa := 0x5000, data := [1], vec := false }
    let m : Member := { someMember with restore := true }
    let load : VRun := runOf (.vld { d := 1, a := 2, b := 0, sp := .g, t := .i32, m := 0, k := .unit, off := 0 })
    let x : Hart := { hart 0 0 with pack := some m, tents := [e] }
    let y : Hart := { x with run := some load }
    let s := packed someMember somePack
    let q := (List.range e.data.length).foldl (fun (q : Pack) i => q.putTent (e.pa + i) (getAt 0 e.data i)) somePack
    let w : State := { s with packWaits := [(0x5000, 4, 0)], gtime := 2000 }
    x.pack = some m ∧ m.restore = true ∧ m.trapped = false ∧ x.awaitsValue = false ∧ x.runsPair = false ∧ x.groupBoundary = true ∧
    x.run = none ∧
    y.runsPair = false ∧ y.groupBoundary = true ∧ x.tents = [e] ∧ s.pack? someMember.obj = some somePack ∧ s.packs = [somePack] ∧
    (s.pageHeld e.pa || s.flipping e.pa || s.hostBias e.pa) = false ∧ s.packRivals somePack true e.pa 1 = [] ∧
    q.lines.length ≤ 32768 ∧ ({ s with packs := [q] } : State).directoryUse (s.homeDie e.pa) ≤ 65536 ∧
    w.heldWrites[0]? = some ([(0x5000, 4)], some 0) ∧ 0 + 2000 ≤ w.gtime ∧ somePack.holds 0x5000 4 = true ∧ w.packs = [somePack] ∧
    somePack.members ≠ [] ∧ w.pack? somePack.pa = some somePack ∧ w.packCauses somePack = [(2000, 2)] := by decide +kernel
/-- The word of LOOPBR s1, one word back. -/
def loopWord : Word := 0x2441003FFFFFFFFF
/-- MarkedLoops: a body of one word, with its LOOPBR behind it. -/
theorem witness_loopmark :
    let m := Memory.writeLe [] 0x1010 8 loopWord.toNat
    let s : State := { one (hart 5 0) with mem := m }
    let f := s.fetchWord 0 0x1010
    f.2.toOption = some loopWord ∧ instrsOf loopWord = [.loopbr 1 (BitVec.ofInt 38 (-1))] ∧ (BitVec.ofInt 38 (-1)).toInt = -1 ∧
    s.me.rd 1 ≠ 0 ∧
    s.me.rd 2 = 0 ∧ s.me.recording = false ∧ s.me.inRegion = false ∧ f.1.flumes 0 < 2 ∧ s.me.queueIdle = true ∧
    (f.1.translate (f.1.ctx 0) .store 0).2 = .ok 0 0 := by decide +kernel
/-- MarkedLoops: a slot with an iteration to do, and one behind its last. -/
theorem witness_slot :
    let k : Mark := { Mark.reset with state := .replay, count := 3, creg := 1 }
    let t : Slot := { core := 0, hart := 0, mark := k, part := 0, base := hart 3 0, now := hart 3 0, k := 0, carried := [], carriedV := []
                      writesS := [], writesV := [], writes := [], reclaim := false, cancelled := false }
    let s : State := { one (hart 3 0) with dies := [{ Die.reset with slots := [some t] }] }
    (s.die 0).slot 0 = some t ∧ t.k < t.mark.count.toNat ∧
    (match s.iterate t with
      | .ok u it => (it.stores.all fun _ => false) && decide ((u.die 0).slot 0 = some t)
      | _ => false) = true ∧
    (match s.iterate { t with mark := { k with iters := List.replicate 3 { Iteration.empty with words := encode (.br .eq 0 0 2) } } } with
      | .depart _ _ => true
      | _ => false) = true ∧
    ({ t with k := 3 } : Slot).mark.count.toNat ≤ 3 := by decide +kernel

/-- Hart 0 with a task, at user privilege. -/
def someTask : Task := { rc := someRec, handle := 0x6000, handler := none }
/-- The same hart after a trap from the task. -/
def trapHart : Hart := { hart 0x5000 8 with task := some someTask, swapped := true }

/-- TrapEntry and TrapReturn: traps from both levels, and what ERET finds. -/
theorem witness_traps :
    let s := one trapHart
    let sup : Hart := { hart 0 0 with sstatus := 0x100 }
    let ended : Hart := { hart 0 0 with sstatus := 0x200 }
    (s.hart 0).pack = none ∧ (9 : Nat) < 32 ∧ s.me.priv = .sup ∧ (one Hart.reset).me.priv = .user ∧ s.me.queueIdle = true ∧
    wbit ended.sstatus 9 = true ∧ wbit sup.sstatus 9 = false ∧ wbit sup.sstatus 8 = true ∧ wbit s.me.sstatus 8 = false ∧
    ({ trapHart with vq := [queuedAs (.vadd vaddInt)] } : Hart).vq ≠ [] ∧ s.me.pack = none ∧
    s.me.task ≠ none ∧ s.me.stop ≠ .cancelled ∧ s.me.chain = false ∧ sup.task = none ∧ (0x5001#64).toNat % 64 ≠ 0 := by decide
/-- TrapReturn: ERET.kill with a record that translates. -/
theorem witness_kill :
    let s := one trapHart
    s.me.task = some someTask ∧ (s.me.rd 1).toNat % 64 = 0 ∧
    (s.translate (s.ctx 0) .store 0x5000).2 = .ok 0x5000 0 ∧
    s.inPackObject 0x5000 64 = false ∧ s.writeHeld 0x5000 64 = false := by decide
/-- ControlRegisters: both privileges, an idle and a busy queue, values that fit and reserved ones. -/
theorem witness_control :
    let s := one (hart 8 5)
    s.me.priv = .sup ∧ s.me.queueIdle = true ∧ s.me.bound = false ∧ s.storesDone 0 = true ∧ (s.me.rd 1).toNat = 8 ∧
    4 < (s.me.rd 2).toNat ∧
    s.me.rd 1 = (8#36).setWidth 64 ∧ (0x040#12).toNat = 0x040 ∧ bkctlOk 1 = true ∧ bkctlOk 8 = false ∧
    ({ hart 0 0 with vq := [queuedAs (.vadd vaddInt)] } : Hart).queueIdle = false ∧ s.flagsDue 0 = false ∧
    (let a : Atomic := { seq := 0, hart := 0, op := .amo .add, bytes := 8, sgn := true, place := .phys 0x5000, pbmt := 0, va := 0x5000
                         operand := 1, posted := true, d := 0, arrived := none }
     let t : State := { one { hart 8 5 with fenced := 1 } with atoms := [a] }
     t.flagsDue 0 = true) := by decide
/-- ControlRegisters: the first and the last numbers of a gap. -/
theorem witness_unassigned : Claims.unassignedCsr 0x009 ∧ Claims.unassignedCsr 0x00F ∧ Claims.unassignedCsr 0xFFF := by
  unfold Claims.unassignedCsr; decide
/-- PrivilegedInstructions: a word of a privileged opcode, CSRR of a supervisor's register and CSRW of a lane counter. -/
theorem witness_privileged : (one Hart.reset).me.priv = .user ∧ (one Hart.reset).me.queueIdle = true ∧
    wordCheck .user 0x30C0000000000000 = .error 2 ∧ decodeWord 0x3003000000000100 = .one (.csrr 3 0x100) ∧
    decodeWord 0x3040600000000040 = .one (.csrw 0x040 24) ∧ Claims.supervisorCsr 0x100 := by
  refine ⟨by decide, by decide, by decide, by decide, by decide, ?_⟩
  unfold Claims.supervisorCsr; decide
/-- A store on its way to memory. -/
def heldStore : Elem := { seq := 0, kind := .store, idx := 0, bytes := 4, va := 0x5000, place := .g 0x5000 0, data := 5, iword := 0, pack := none }
/-- TranslationControl: numbers, operands and an invalidation that nothing on its way waits for. -/
theorem witness_translation :
    let s := one (hart 0xA000000000000000 4096)
    let v : Inval := { num := 1, base := 0, len := 0, asid := none, all := true }
    let d : Die := { Die.reset with invIssued := 2, invDone := 1, invals := [v] }
    s.me.priv = .sup ∧ (4096#64).toNat % 4096 = 0 ∧ (65535#64).toNat < 65536 ∧ 65536 ≤ (65536#64).toNat ∧ s.me.queueIdle = true ∧
    d.invIssued < 3 ∧ (1 ≤ d.invIssued ∧ 1 ≤ d.invDone) ∧ (2 ≤ d.invIssued ∧ d.invDone < 2) ∧ s.me.streams = [] ∧ s.quiet 0 = true ∧
    field (s.me.rd 1) 60 4 = 10 ∧ ¬ (field (0x9000000000000000 : Word) 60 4 = 10) ∧
    (∀ p ∈ ({ s with dies := [d] } : State).onTheWay, v.touches (({ s with dies := [d] } : State).dropped v) p.1 = true →
    s.pageHeld p.2 = true) ∧
    ({ hart 1 0 with elems := [heldStore] } : Hart).elems ≠ [] ∧
    (∀ p ∈ ({ one { hart 1 0 with elems := [heldStore] } with dies := [d], holds := [{ src := 0x5000, dst := 0x6000, bytes := 4096 }] } : State).onTheWay,
      ({ s with holds := [{ src := 0x5000, dst := 0x6000, bytes := 4096 }] } : State).pageHeld p.2 = true) := by decide
/-- PageOperations: the last page of device memory, both biases, a range to clear, and a move that may begin or end. -/
theorem witness_pages :
    let s := one (hart 0x5000 4096)
    let w : Wait := { kind := .retry, epoch := 0, deadline := none, expired := false, stage := 1, arg := 0 }
    let t := one { hart 0x5000 4096 with wait := some w }
    (509 * 2 ^ 30 - 4096) % 4096 = 0 ∧ s.me.wait = none ∧ s.packHolds 0x5000 4096 = false ∧ s.hostBias 0x5000 = false ∧
    ({ s with bias := [5] } : State).hostBias 0x5000 = true ∧ ({ s with bias := [5] } : State).pageHostLines 0x5000 = [] ∧
    0x5000 % 4096 + 4096 ≤ 4096 ∧ s.released 0 .pkg = true ∧ (s.translate (s.ctx 0) .store 0x5000).2 = .ok 0x5000 0 ∧
    s.inPackObject 0x5000 4096 = false ∧ s.writeHeld 0x5000 4096 = false ∧ (s.recallRange 0x5FFC 4).mem.wf = true ∧
    0x5FFC % 4096 + 4 ≤ 4096 ∧ frameOk 0x5000 4096 = true ∧ frameOk (509 * 2 ^ 30) 4096 = false ∧
    0x5000 % 4096 + 4096 ≤ 4096 ∧ 4096 < 0x5000 % 4096 + 8192 ∧ s.me.stage ≠ 1 ∧
    s.holds.length < 16 ∧ s.me.stage = 0 ∧ t.me.stage ≠ 0 ∧ t.writeHeld 0x6000 4096 = false ∧ t.filters = [] := by
  decide +kernel
/-- ContextSwitch: a hart whose task can be saved. -/
theorem witness_save :
    let s := one trapHart
    let v := (s.beginSave 0).settleAheads 0 []
    s.me.priv = .sup ∧ s.me.task = some someTask ∧ s.me.swapped = true ∧ (s.me.rd 1).toNat % 4096 = 0 ∧ wbit s.me.sstatus 8 = false ∧
    v.me.saveReady = true ∧ v.quiet 0 = true ∧ s.me.pack = none ∧ s.me.s.length = 64 ∧ s.me.shadow.length = 8 ∧ s.me.ctxArea = none ∧
    s.me.savesError = false ∧
    s.me.stage = 0 ∧ ({ trapHart with sbad := 2 } : Hart).sbad.getLsbD 1 = true ∧ trapHart.task ≠ none := by
  decide +kernel
/-- ContextSwitch: its area can be written. -/
theorem witness_save_area :
    let v := ((one trapHart).beginSave 0).settleAheads 0 []
    let w := v.modHart 0 Hart.dropStrips
    (match w.oldMap 0 0x5000 with
      | (_, .ok old) => old.isEmpty
      | _ => false) = true ∧
    (match w.placePieces (w.ctx 0) .store 0x5000 (((w.passedCommit 0).areaImage 0 someTask false 0).flatMap fun p => pagePieces p.1 p.2) with
      | (z, .ok l) => l.all fun p => !z.writeHeld p.pa p.bytes.length
      | _ => false) = true := by decide +kernel

/-- The pieces of `bs` begin inside the bytes. -/
theorem cutPages_le {p : Nat × List Byte} : ∀ (k off : Nat) (bs : List Byte), p ∈ cutPages k off bs → p.1 ≤ off + bs.length
  | 0, _, _, h => by simp [cutPages] at h
  | k + 1, off, bs, h => by
    unfold cutPages at h
    dsimp only at h
    split at h
    · simp at h
    · rcases List.mem_cons.1 h with rfl | h
      · simp
      · have := cutPages_le k _ _ h
        rw [List.length_drop] at this
        by_cases hn : bs.length ≤ 4096 - off % 4096
        · rw [List.drop_eq_nil_of_le hn] at h
          cases k <;> simp [cutPages] at h
        · omega
/-- In bare mode every piece in memory has its place. -/
theorem bare_places (s : State) (x : Ctx) (va : Word) (hx : satpMode x.satp = 0) :
    ∀ ps : List (Nat × List Byte), (∀ p ∈ ps, va.toNat + p.1 < 2 ^ 38) → ∃ l, s.placePieces x .load va ps = (s, .ok l)
  | [], _ => ⟨[], rfl⟩
  | p :: ps, h => by
    obtain ⟨l, hl⟩ := bare_places s x va hx ps fun q hq => h q (List.mem_cons_of_mem _ hq)
    have hp := h p List.mem_cons_self
    have e : (va + BitVec.ofNat 64 p.1).toNat = va.toNat + p.1 := by
      rw [BitVec.toNat_add, BitVec.toNat_ofNat, Nat.mod_eq_of_lt (by omega : p.1 < 2 ^ 64), Nat.mod_eq_of_lt (by omega)]
    have t : s.translate x .load (va + BitVec.ofNat 64 p.1) = (s, .ok (va.toNat + p.1) 0) := by
      have v : paValid (va.toNat + p.1) = true := by
        have : va.toNat + p.1 < Config.deviceBytes := Nat.lt_trans hp (by decide)
        simp [paValid, this]
      rw [State.translate, if_pos hx, e, trAt, if_pos v]
    exact ⟨{ pa := va.toNat + p.1, pbmt := 0, bytes := p.2 } :: l, by simp only [State.placePieces, t, hl, reduceCtorEq, if_false]⟩
/-- In bare mode a part of an area without poison can be read. -/
theorem bare_area (s : State) (x : Ctx) (va : Word) (hx : satpMode x.satp = 0) (hb : s.bad = []) (off n : Nat) (tol : Bool)
    (h : va.toNat + off + n < 2 ^ 38) : ∃ u r, s.areaRead x va off n tol = (u, .ok r) := by
  obtain ⟨l, hl⟩ := bare_places s x va hx (pagePieces off (List.replicate n 0)) fun p hp => by
    have := cutPages_le _ _ _ hp
    simp only [List.length_replicate] at this
    omega
  have e : (!tol && l.any fun p => poisoned s.bad p.pa p.bytes.length) = false := by simp [hb, poisoned]
  simp only [State.areaRead, hl, e]
  exact ⟨_, _, rfl⟩
/-- The hart of `one` translates nothing. -/
theorem bare_ctx (v : Word) : satpMode ((one (hart v 0)).ctx 0).satp = 0 := by
  have : ((one (hart v 0)).ctx 0).satp = 0 := rfl
  rw [this]; decide
/-- ContextSwitch: an area that another format fills, and the parts behind an empty head. -/
theorem witness_load (v : Word) :
    let s := one (hart v 0)
    s.me.wait = none ∧ s.me.task = none ∧ s.bad = [] ∧ satpMode (s.ctx 0).satp = 0 ∧ s.released 0 .pkg = true ∧
    (∀ off n, v.toNat + off + n < 2 ^ 38 → ∃ u r, s.areaRead (s.ctx 0) v off n false = (u, .ok r)) :=
  ⟨rfl, rfl, rfl, bare_ctx v, rfl, fun _ _ h => bare_area _ _ _ (bare_ctx v) rfl _ _ _ h⟩
/-- ContextSwitch: heads of areas of FORMAT 1, with no cluster and with one. -/
theorem witness_load_format :
    let reads := fun (m : Memory) (c : Nat) =>
      let s : State := { one (hart 0x5000 0) with mem := m }
      match s.areaRead (s.ctx 0) 0x5000 0 4096 false with
        | (u, .ok (bs, _)) => decide (le bs 0 8 = 1) && decide (le bs 1648 8 = 0) && decide (le bs 632 1 % 32 = c) &&
          decide (le bs 1632 8 = 0) && decide (c ≤ u.clustersLeft 0)
        | _ => false
    reads [(0x5000, 1)] 0 = true ∧ reads [(0x5000, 1), (0x5000 + 632, 1)] 1 = true := by decide +kernel

/-! ## Witnesses: steps around the harts and the whole machine -/

/-- The package with the word of an instruction placed for hart 0. -/
def placed (w : Nat) : State := State.reset.withFetchWord 64 w
/-- The placed word is fetched as an instruction or as a trap. -/
def fetched (w : Nat) : Fetched := ((placed w).fetchItem 0).2

/-- BoundarySteps: a hart whose word is illegal, one whose PC translates to nothing, and a load whose data come. -/
theorem witness_fetch :
    let s := placed 0
    let bad : State := { State.reset with harts := [{ Hart.reset with priv := .sup, pc := 0xFFFFFFFFFFFFF000 }] }
    s.meetsFetch 0 = true ∧ (s.hart 0).pack = none ∧ fetched 0 = .trap 1 0 0 ∧ bad.meetsFetch 0 = true ∧ (bad.hart 0).pack = none ∧
    (bad.fetchItem 0).2 = .trap 5 0xFFFFFFFFFFFFF000 0 := by decide +kernel
/-- BoundarySteps: a load that waits for the data of its miss. -/
theorem witness_load_data :
    let w : Wait := { kind := .load, epoch := 0, deadline := none, expired := false, stage := 0, arg := 0 }
    let s := mapped 0 { hart 0x5000 7 with wait := some w, item := .instr (.ld .d .g 3 1 0) 8 }
    let t : State := { s.modHart 0 fun x => { x with wait := some { w with expired := true } } with cur := 0 }
    (s.hart 0).wait = some w ∧ w.kind = .load ∧ w.expired = false ∧ (s.hart 0).item = .instr (.ld .d .g 3 1 0) 8 ∧
    (let u := (t.locate 0 .g .load 0x5000 8).1
     (t.locate 0 .g .load 0x5000 8).2 = .at_ (.g 0x5000 0) ∧ u.me.member = none ∧
     (u.flipping 0x5000 || u.heldStore 0x5000 8 || u.postedTo 0 0x5000 8) = false ∧ bypasses u 0x5000 0 = false ∧
     forward u.me.sbuf 0x5000 8 = .none ∧ (u.core 0).l1has 0x5000 8 = false ∧ u.inFlight 0 0x5000 8 = false ∧
     u.l1Bad 0 0x5000 8 = false) := by decide
/-- BoundarySteps: an address that the hart asks for, an L2 entry, the timer, the watchdog. -/
theorem witness_boundary :
    let x : Hart := { hart 0x5000 7 with satp := 0xA000000000000000 }
    let s : State := { mapped 0 x with dies := [{ Die.reset with l2tlb := [entry 0] }] }
    let due : Hart := { hart 0 0 with sstart := 5, sstatus := 2 }
    let slow : Hart := { Hart.reset with task := some someTask }
    let t : State := { one slow with gtime := 100000000 }
    satpMode (s.hart 0).satp ≠ 0 ∧ canonical 0x1000 = true ∧ s.asksFor 0 0x1000 .fetch = true ∧ (s.die 0).l2tlb[0]? = some (entry 0) ∧
    due.asyncs = [] ∧ due.sstart ≠ 0 ∧ wbit due.sstatus 1 = true ∧ (one due).interruptible 0 15 = true ∧ due.inReplay = false ∧
    ((one due).syncBoundary 0).isNone = true ∧ due.pack = none ∧
    field (t.die 0).wdctl 0 32 = 100000 ∧ slow.task ≠ none ∧ slow.priv = .user ∧ t.fatal = none ∧
    slow.progress + 1000 * 100000 ≤ t.gtime ∧ slow.reported = false := by
  decide +kernel
/-- ErrorSteps: the last register, the last word of a leased register, the last core, lane and element. -/
theorem witness_errors :
    let s := one vhart
    (63 : Nat) < 64 ∧ (31 : Nat) < (s.hart 0).nvreg ∧ 4 * 511 + 4 ≤ (s.hart 0).vbytes ∧
    (s.core 127).lanedis.getLsbD (255 / 16) = false ∧
    (s.core 135).retired = false ∧ s.fatal = none ∧ FatalCause.controlState ≠ .thermal ∧
    ({ s with fatal := some { cause := 1, time := 0, origin := 0, dies := 1 } } : State).fatal.isSome = true ∧
    staysUp (.hostMemRead 0 8) = true ∧ staysUp (.sync 0) = false := by decide
/-- RegisterWrites, TRCTL to QRING: an idle core with a pending partition, the last core, partition and level, a level that holds a
record and one that holds none, sizes at both ends and one outside them. -/
theorem witness_core_registers :
    let s : State := { State.reset with bringup := .up, cores := [{ openCore with partPending := some 0x101 }] }
    let on : Trace := { Core.reset.trace with ctl := 1, sync := some (0, 0) }
    let t : State := { s with dies := [{ Die.reset with levels := [someLevel] }] }
    let ok := fun v : Word => decide (field v 0 5 = 0 ∨ (10 ≤ field v 0 5 ∧ field v 0 5 ≤ 24))
    s.offered = true ∧ wbit 0xFFFFFE 0 = false ∧ wbit on.ctl 0 = true ∧ on.sync ≠ none ∧ wbit (Core.reset.trace).ctl 0 = false ∧
    (s.core 0).partPending = some 0x101 ∧ s.coreIdle 0 = true ∧ goesOn (.trctlWrite 127 0xFFFFFF) s = true ∧
    goesOn (.partcoreWrite 127 0x10F) s = true ∧ goesOn (.partitionChange 0) s = true ∧ (Die.reset.level 15 7).recs = [] ∧
    ((t.die 0).level 0 0).recs ≠ [] ∧ ok 0 = true ∧ ok 10 = true ∧ ok 24 = true ∧ ok 9 = false ∧ ok 25 = false ∧
    goesOn (.qringWrite 3 15 7 true 24) s = true := by decide +kernel
/-- RegisterWrites, QMAP: the last queue mapped with an empty descriptor, and unmapped. -/
theorem witness_queue_registers :
    let s : State := { State.reset with bringup := .up }
    let v : Word := 0x5001
    let desc := 64 * field v 6 50
    let u := State.agentWrite { s.modDie 3 fun x => { x with qmap := (4095, v &&& 0xFFFFFFFFFFFFC1#64) :: x.qmap.filter fun e => e.1 != 4095 } with
      descs := (4095, desc) :: s.descs.filter fun e => e.1 != 4095 } (some (.sched 3)) (desc + 32) [0]
    let told : State := { s with notified := [(4095, 3)], descs := [(4095, 0x5000)] }
    wbit v 0 = true ∧ desc = 0x5000 ∧ leNat (u.homeBytes (desc + 24) 8) = leNat (u.homeBytes (desc + 16) 8) ∧
    s.notified.contains (4095, 3) = false ∧ told.notified.contains (4095, 3) = true ∧ told.queueDesc 4095 = some 0x5000 ∧
    goesOn (.queueUnmap 3 4095 0x5000) told = true ∧ goesOn (.queueMap 3 4095 v) s = true ∧ wbit 0x5000 0 = false ∧
    goesOn (.queueUnmap 3 4095 0x5000) s = true := by decide +kernel
/-- RegisterWrites, QSUBMIT: an address outside memory, a poisoned record, one of bad fields, and a good one with room for it and
without. -/
theorem witness_submit :
    let v : Word := 0x5000
    let rec_ : List Nat := [0x20, 0x21]
    let s : State := { State.reset with bringup := .up, mem := rec_.map fun a => (0x5000 + a, 1) }
    let t : State := { s with dies := [{ Die.reset with levels := [{ someLevel with recs := List.replicate 256 queuedRec }] }] }
    let r := TaskRec.ofBytes (s.homeBytes 0x5000 64)
    paValid (64 * field (0x8000000000000 : Word) 6 50) = false ∧ 64 * field v 6 50 = 0x5000 ∧ paValid 0x5000 = true ∧
    poisoned [0x1400] 0x5000 64 = true ∧ poisoned s.bad 0x5000 64 = false ∧
    (TaskRec.ofBytes (State.reset.homeBytes 0x5000 64)).fieldsOk = false ∧ r.fieldsOk = true ∧ r.launch = 0 ∧
    s.levelFull 0 (field v 0 4) r = false ∧ t.levelFull 0 (field v 0 4) r = true ∧ goesOn (.qsubmit 0 v) s = true := by decide +kernel
/-- RegisterWrites, MRRECLAIM to the window table: slots named and not named, a die without collectives, the last core and window. -/
theorem witness_die_registers :
    let s : State := { State.reset with bringup := .up }
    (s.die 3).slot 0 = none ∧ field (0x80 : Word) 0 8 / 2 ^ 7 % 2 = 1 ∧ field (0x80 : Word) 0 8 / 2 ^ 6 % 2 = 0 ∧
    (s.die 3).colls = [] ∧
    goesOn (.mrreclaim 3 0x80) s = true ∧ goesOn (.xgctlWrite 3 0xFFFFFFFFFFFFFFFF) s = true ∧
    goesOn (.configRegisterWrite 3 (0x610000 + 512 * 31 + 32 * 15) 1) s = true ∧
    goesOn (.configRegisterWrite 3 (0x400000 + 32 * 31 + 8) 1) s = true := by decide +kernel
/-- HostSteps: queues without a descriptor, unmapped and mapped, the last bytes of device memory, a line that is snooped. -/
theorem witness_host :
    let s : State := { State.reset with bringup := .up }
    let named : State := { s with descs := [(4095, 0x5000)] }
    let live : State := { s with dies := [{ Die.reset with qmap := [(4095, 0x5001)] }], descs := [(4095, 0x5000)] }
    let n : Snoop := { line := 0x140, sent := 0 }
    let x : Hart := { hart 0x5000 4096 with item := .instr (.biassetDev 3 1 2) 8, wait := some someWait }
    let t : State := { one x with bias := [5], flips := [5], snoops := [n], gtime := 1000000 }
    s.offered = true ∧ (∀ p ∈ t.heldPuts, p.src = .response → p.pa ≠ 64 * 0x140) ∧ t.heldPuts = [] ∧ t.pageHeld (64 * 0x140) = false ∧
    ({ t with holds := [{ src := 0x5000, dst := 0x6000, bytes := 4096 }] } : State).pageHeld (64 * 0x140) = true ∧
    s.queueDie 4095 = none ∧ s.queueDesc 4095 = none ∧ named.queueDie 4095 = none ∧ (named.queueDesc 4095).isSome = true ∧
    live.queueDie 4095 = some 0 ∧ ((live.die 0).queue 4095).isSome = true ∧ 509 * 2 ^ 30 - 8 + 8 ≤ 509 * 2 ^ 30 ∧
    (509 * 2 ^ 30 - 8) % 64 + 8 ≤ 64 ∧ s.pageHeld 0 = false ∧ s.packHolds 0 8 = false ∧
    s.heldStore 0 8 = false ∧ s.inPackObject 0 8 = false ∧ ({ s with packs := [somePack] } : State).inPackObject 0x8038 8 = true ∧
    (s.recallRange 0 8).mem.wf = true ∧ ({ s with bias := [0] } : State).hostBias 0 = true ∧ s.pageHeld (64 * 0x140) = false ∧
    s.packHolds (64 * 0x140) 64 = false ∧ ({ s with linkUp := true, bringup := .recovery } : State).linkUp = true ∧
    2 ^ 52 ≤ 64 * 2 ^ 46 ∧ 64 * 2 ^ 46 < 2 ^ 56 ∧
    t.snooping (64 * 0x140) = true ∧ t.flipPage 0 = some 0x5000 ∧ t.flipping 0x5000 = true ∧ n.line / 64 = 0x5000 / 4096 ∧
    n.sent + 1000000 ≤ t.gtime ∧ (t.hart 0).pack = none ∧ Bringup.up ≠ .off ∧ Bringup.up ≠ .noLink := by decide +kernel
/-- PowerSteps: the clauses in turn. -/
theorem witness_power :
    let c : Core := { Core.reset with cycle := 65536, trace := { Core.reset.trace with ctl := 0x801001, sync := some (128, 5), sample := true } }
    let p : Port := { Port.reset with enabled := true }
    let lead : Die := { Die.reset with thctl := 0x100, throttle := { Die.reset.throttle with announced := some (3, 2000), acks := 1 } }
    let d : Die := { Die.reset with throttle := { Die.reset.throttle with announced := some (3, 2000) } }
    let s : State := { State.reset with dies := [lead, d, d, d] }
    let t : State := { State.reset with cores := [c], dies := [{ Die.reset with clock := Config.clockUnit - 1 }, Die.reset, Die.reset, Die.reset] }
    c.trace.sync = some (128, 5) ∧ c.trace.sample = true ∧ t.cycleEnds 0 = true ∧ State.reset.gateable 0 = true ∧
    Core.reset.gated = false ∧
    State.reset.leader 0 = none ∧ s.leader 0 = some 0 ∧ (0 : Nat) ∈ s.members 0 ∧ s.allAcked 0 = false ∧
    p.enabled = true ∧ 4 < p.lanes ∧ (List.replicate 240 (0 : Byte)).length = 240 ∧ (s.thr 1).member = true ∧
    (s.thr 0).acks / 2 ^ 1 % 2 = 0 ∧
    s.gtime + 1000 ≤ 2000 ∧ (0 : Nat) < 0 + 256 ∧ (s.thr 0).announced = some (3, 2000) ∧
    Die.reset.throttle.announced ≠ some (3, 2000) ∧
    (s.thr 1).heard + 100000 ≤ 100000 ∧ Die.reset.throttle.evaluated = none ∧
    ({ Die.reset with stretching := some (0, none) } : Die).stretching.isSome = true ∧
    Die.reset.stretching = none := by decide +kernel
/-- FetchChecks: each row of R47. -/
theorem witness_checks :
    let u : State := { State.reset with harts := [{ Hart.reset with task := some someTask }] }
    (0x1001#64).toNat % 8 ≠ 0 ∧ (u.fetchWord 0 0xFFFFFFFFFFFFF000).2.toBool = false ∧ (u.fetchWord 0 0).2.toOption = some 0 ∧
    (0x30C0000000000000 : Nat) / 2 ^ 54 % 256 = 0xC3 ∧ decodeWord 0x004C34E000000001 = .reject .fields ∧
    decodeWord 0x878C000000000000 = .needExt .li 12 ∧ decodeWord 0x004C34E000000000 = .one (.add 12 13 14) ∧
    wordCheck .user 0x3003000000000100 = .error 2 ∧ wordCheck .sup 0x3003000000000100 = .ok (.one (.csrr 3 0x100)) ∧
    wordCheck .sup 0x3003000000000009 = .error 1 ∧ wordCheck .user 0x3040600000000040 = .error 2 := by decide
/-- StepRunsDecoded: an instruction that the hart may run, by the agenda and by the turn of its core. -/
theorem witness_step :
    let s := placed 0x004C34E000000000
    let t : State := { s with agenda := [.issue 0] }
    s.fatal = none ∧ s.agenda = [] ∧ s.gtime % 8 ≠ 7 ∧
    fetched 0x004C34E000000000 = .item (.instr (.add 12 13 14) 8) 0x004C34E000000000 ∧
    (s.hart 0).wait = none ∧ s.queueFirst 0 (.instr (.add 12 13 14) 8) = false ∧
    fieldCause (s.hart 0).priv (.one (.add 12 13 14)) = none ∧ s.watching 0 (s.hart 0).pc false = [] ∧
    (s.hart 0).readsError (.instr (.add 12 13 14) 8) = false ∧ privilegedWord 0x004C34E000000000 = false ∧
    (match exec (.add 12 13 14) (s.begin 0 (.instr (.add 12 13 14) 8) 0x004C34E000000000) with
      | .next u => u.want.isNone
      | _ => false) = true ∧ (s.hartMove 0).isNone = true ∧
    (s.core 0).issued = none ∧ s.scoreboard 0 = false ∧
    ((hartsOf 0).all fun q => (s.boundary q).isNone && (s.hartMove q).isNone) = true ∧
    s.select 0 = some 0 ∧ t.select 0 = some 0 := by decide +kernel
/-- EncodeThenDecode, InstructionsGoOn, MemoryLaws and MemoryStaysCanonical. -/
theorem witness_whole : (Instr.add 63 0 1).wf = true ∧ encode (.add 63 0 1) ≠ [] ∧ State.reset.mem.wf = true ∧
    isNext (step (placed 0x004C34E000000000)) = true := by decide +kernel

/-! ## Worked examples of the spec -/

/-- The destination of a scalar instruction whose s1 and s2 hold `a` and `b`. -/
def result (i : Instr) (a b : Word) : Option (Word × BitVec 7) := match exec i (one (hart a b)) with
  | .next t => some ((t.hart 0).rd 3, (t.hart 0).fflags)
  | _ => none

/-- R298: the table of DIV and REM. -/
theorem test_div : result (.div false 3 1 2) 7 (-2) = some (-3, 0) ∧ result (.rem false 3 1 2) (-7) 2 = some (-1, 0) ∧
    result (.div false 3 1 2) 5 0 = some (0, 0x40) ∧ result (.rem false 3 1 2) 5 0 = some (5, 0x40) ∧
    result (.div false 3 1 2) 0x8000000000000000 (-1) = some (0x8000000000000000, 0) ∧
    result (.rem false 3 1 2) 0x8000000000000000 (-1) = some (0, 0) := by decide
/-- R328: the table of the signed and unsigned forms. -/
theorem test_signs : result (.mulh false 3 1 2) (-1) 3 = some (-1, 0) ∧ result (.mulh true 3 1 2) (-1) 3 = some (2, 0) ∧
    result (.slt false 3 1 2) (-1) 3 = some (1, 0) ∧ result (.slt true 3 1 2) (-1) 3 = some (0, 0) ∧
    result (.min false 3 1 2) (-1) 3 = some (-1, 0) ∧ result (.min true 3 1 2) (-1) 3 = some (3, 0) ∧
    result (.mulh false 3 1 2) 0x8000000000000000 0x8000000000000000 = some (0x4000000000000000, 0) := by decide
/-- R297: a write to s0 is discarded, and shift counts are taken modulo 64. -/
theorem test_zero_and_shift : (match exec (.add 0 1 2) (one (hart 3 4)) with
      | .next t => (t.hart 0).rd 0
      | _ => 1) = 0 ∧ result (.shl 3 1 2) 1 65 = some (2, 0) ∧ result (.sra 3 1 2) (-8) 1 = some (-4, 0) := by decide
/-- R319: FCVT.bf16.fromf32.sr of 0x3F80_4000 with SB = 1 and SEED = 0 writes 0x3F80 and sets NX. -/
theorem test_fcvt_sr : (match exec (.fcvt .bf16 .f32 .sr false 3 1) (one { hart 0x3F804000 0 with sb := 1 }) with
      | .next t => some ((t.hart 0).rd 3, (t.hart 0).fflags)
      | _ => none) = some (0x3F80, 1) := by decide +kernel
/-- R301: a posted fadd of −∞ to a word that holds +∞ leaves the canonical NaN, NV in ATFLAGS and FFLAGS alone. -/
theorem test_amo_fadd :
    let s : State := { one (hart 64 0xFF800000) with cores := [{ openCore with a := Memory.writeLe [] 64 4 0x7F800000 }] }
    (match exec (.amo .fadd true true .a 0 1 2) s with
      | .next t => some ((t.core 0).a.readLe 64 4, (t.hart 0).fflags, (t.hart 0).atflags)
      | _ => none) = some (0x7FC00000, 0, 0x10) := by decide +kernel
/-- R331: MPOPC and MFIRST of bits 4, 7 and 8 among ten elements. -/
theorem test_masks :
    let x : Hart := { vhart with vl := 10, m := [0, 0, 0x190, 0x26B, 0, 0, 0] }
    let out := fun i : Instr => match exec (.elementGroup 0) (one { x with vq := [queuedAs i], run := some (x.newRun (queuedAs i)) }) with
      | .next t => some ((t.hart 0).rd 12)
      | _ => none
    out (.mpopc 12 3 0) = some 3 ∧ out (.mfirst 12 3 0) = some 4 ∧
    out (.mfirst 12 3 4) = some (BitVec.allOnes 64) := by decide +kernel
/-- R309: a taken BRNZ branches from the pair's own address and the ADDI takes effect. -/
theorem test_pair : (match execPair (.addi 1 1 8) (.brnz 40 (BitVec.ofInt 15 (-2)))
        (one { hart 5 0 with s := [0, 5] ++ List.replicate 38 0 ++ [1] ++ List.replicate 23 0 }) with
      | .next t => some ((t.hart 0).rd 1, (t.hart 0).pc)
      | _ => none) = some (13, 0xFF0) := by decide +kernel
/-- R257: ECALL saves the address behind itself and its IMM; BKPT saves its own address. -/
theorem test_traps : (match exec (.ecall 5) (one { hart 0 0 with stvec := 0x4000 }) with
      | .next t => some ((t.hart 0).sepc, (t.hart 0).scause, (t.hart 0).stval, (t.hart 0).pc)
      | _ => none) = some (0x1008, 9, 5, 0x4000) ∧
    (match exec .bkpt (one (hart 0 0)) with
      | .next t => some ((t.hart 0).sepc, (t.hart 0).scause, (t.hart 0).stval)
      | _ => none) = some (0x1000, 8, 0) := by decide +kernel

end Sys2Proof.Tests
end

/-! PROOF of MemoryLaws: where each byte of a written number and of an instruction word lies, and why the canonical form of
a memory is determined by what the memory reads as. -/

namespace Sys2Proof.Machine

/-! ## The bytes of numbers and of instruction words (R3) -/

/-- Ties the model's accessor to the library's. -/
theorem getAt_eq_getD {α : Type} (d : α) (l : List α) (i : Nat) : getAt d l i = l.getD i d := by
  induction l generalizing i with
  | nil => simp [getAt_nil]
  | cons x xs ih =>
    cases i with
    | zero => rfl
    | succ i => simpa [getAt] using ih i

theorem leBytes_getD (n x i : Nat) (h : i < n) : (leBytes n x).getD i 0 = BitVec.ofNat 8 (x / 256 ^ i) := by
  induction n generalizing x i with
  | zero => omega
  | succ n ih =>
    cases i with
    | zero => simp [leBytes]
    | succ i =>
      calc (leBytes (n + 1) x).getD (i + 1) 0 = (leBytes n (x / 256)).getD i 0 := rfl
        _ = BitVec.ofNat 8 (x / 256 / 256 ^ i) := ih (x / 256) i (by omega)
        _ = BitVec.ofNat 8 (x / 256 ^ (i + 1)) := by rw [Nat.div_div_eq_div_mul, Nat.pow_succ']

theorem Memory.read_writeLe {m : Memory} (hm : m.wf = true) (a n x i : Nat) (h : i < n) :
    (m.writeLe a n x).read (a + i) = BitVec.ofNat 8 (x / 256 ^ i) := by
  have inside : a ≤ a + i ∧ a + i < a + (leBytes n x).length := by rw [leBytes_length]; omega
  rw [Memory.writeLe, Memory.read_writeN hm, if_pos inside, Nat.add_sub_cancel_left, leBytes_getD n x i h]

theorem bits_eight_eq (w : Word) (i : Nat) : bits w (8 * i) 8 = BitVec.ofNat 8 (w.toNat / 256 ^ i) := by
  apply BitVec.eq_of_toNat_eq
  rw [bits_toNat, BitVec.toNat_ofNat, Nat.pow_mul]

theorem getAt_bytesOfWord (w : Word) (i : Nat) (h : i < 8) :
    getAt 0 (bytesOfWord w) i = BitVec.ofNat 8 (w.toNat / 256 ^ i) := by
  rw [getAt_eq_getD, ← bits_eight_eq]
  simp [bytesOfWord, h]

/-! ## The canonical form is determined by its reads (log 2) -/

theorem Memory.wfFrom_cons {lo : Nat} {c : Host.Cell} {m : Memory} :
    Memory.wfFrom lo (c :: m) = true ↔ lo ≤ c.1 ∧ c.2 ≠ 0 ∧ Memory.wfFrom (c.1 + 1) m = true := by
  simp [Memory.wfFrom, and_assoc]

@[simp] theorem Memory.read_cons_self (c : Host.Cell) (m : Memory) : Memory.read (c :: m) c.1 = c.2 := by
  simp [Memory.read]

theorem Memory.read_cons_ne {c : Host.Cell} {a : Nat} (m : Memory) (h : a ≠ c.1) : Memory.read (c :: m) a = m.read a := by
  simp [Memory.read, h]

/-- A canonical memory reads as 0 below its first address and as another byte at it. Used once in each direction, this
makes the first addresses of memories that read alike the same. -/
theorem Memory.head_le_of_read_eq {lo hi : Nat} {c d : Host.Cell} {m k : Memory} (hm : Memory.wfFrom lo (c :: m) = true)
    (hk : Memory.wfFrom hi (d :: k) = true) (same : ∀ a, Memory.read (c :: m) a = Memory.read (d :: k) a) : d.1 ≤ c.1 := by
  obtain ⟨-, nonzero, -⟩ := Memory.wfFrom_cons.mp hm
  obtain ⟨-, hd, tail⟩ := Memory.wfFrom_cons.mp hk
  by_contra below
  have zero : Memory.read (d :: k) c.1 = 0 :=
    Memory.read_wfFrom (Memory.wfFrom_cons.mpr ⟨le_rfl, hd, tail⟩) (Nat.lt_of_not_le below)
  exact nonzero (by rw [← zero, ← same, Memory.read_cons_self])

/-- Canonical memories with the same first entry that read alike have tails that read alike. -/
theorem Memory.read_tail_eq {c : Host.Cell} {m k : Memory} (hm : Memory.wfFrom (c.1 + 1) m = true)
    (hk : Memory.wfFrom (c.1 + 1) k = true) (same : ∀ a, Memory.read (c :: m) a = Memory.read (c :: k) a) (a : Nat) :
    m.read a = k.read a := by
  by_cases at_head : a = c.1
  · have above : a < c.1 + 1 := by omega
    rw [Memory.read_wfFrom hm above, Memory.read_wfFrom hk above]
  · rw [← Memory.read_cons_ne m at_head, same, Memory.read_cons_ne k at_head]

theorem Memory.eq_of_read_eq {lo hi : Nat} {m k : Memory} (hm : Memory.wfFrom lo m = true) (hk : Memory.wfFrom hi k = true)
    (same : ∀ a, m.read a = k.read a) : m = k := by
  induction m generalizing lo hi k with
  | nil =>
    cases k with
    | nil => rfl
    | cons d k =>
      obtain ⟨-, nonzero, -⟩ := Memory.wfFrom_cons.mp hk
      exact absurd (by rw [← Memory.read_cons_self d k, ← same]; rfl) nonzero
  | cons c m ih =>
    obtain ⟨-, nonzero, tail⟩ := Memory.wfFrom_cons.mp hm
    cases k with
    | nil => exact absurd (by rw [← Memory.read_cons_self c m, same]; rfl) nonzero
    | cons d k =>
      obtain ⟨-, -, tail'⟩ := Memory.wfFrom_cons.mp hk
      have address : c.1 = d.1 :=
        le_antisymm (Memory.head_le_of_read_eq hk hm fun a => (same a).symm) (Memory.head_le_of_read_eq hm hk same)
      have byte : c.2 = d.2 := by rw [← Memory.read_cons_self c m, same, address, Memory.read_cons_self]
      obtain rfl : c = d := Prod.ext address byte
      rw [ih tail tail' (Memory.read_tail_eq tail tail' same)]

/-- Settles O58: the laws of a written number are those of its bytes, canonical memories are equal by induction on their
entries, and the bytes of an instruction word are its 8-bit fields from the lowest up. -/
theorem memoryLaws : Obligations.MemoryLaws := by
  unfold Obligations.MemoryLaws
  refine ⟨fun m a n x p hm => ⟨?canonical, ?readsBack, ?others, ?lowestFirst⟩, ?determined, fun w => ?words⟩
  case canonical => exact Memory.wf_writeLe hm a n x
  case readsBack => exact Memory.readLe_writeLe hm a n x
  case others => exact Memory.read_writeLe_ne hm a n x p
  case lowestFirst => exact Memory.read_writeLe hm a n x
  case determined => exact fun m k hm hk => Memory.eq_of_read_eq hm hk
  case words => exact ⟨wordOfBytes_bytesOfWord w, bytesOfWord_length w, getAt_bytesOfWord w⟩

end Sys2Proof.Machine

/-! PROOF of FetchChecks: which causes a failed fetch can have, which words each row of R47 speaks of, and what a fetch
answers for each of them. -/

namespace Sys2Proof.Machine

/-! ## The causes of a failed fetch (R47, R191 to R193, R199) -/

/-- The causes that R47 gives a failed fetch of a word. -/
def IsFetchCause (c : Nat) : Prop := c = 4 ∨ c = 5 ∨ c = 6

theorem IsFetchCause.four : IsFetchCause 4 := .inl rfl
theorem IsFetchCause.five : IsFetchCause 5 := .inr (.inl rfl)
theorem IsFetchCause.six : IsFetchCause 6 := .inr (.inr rfl)

theorem State.walk_fetch_fault {s : State} {va n tbl c : Nat} (h : s.walk .fetch va n tbl = .fault c) : IsFetchCause c := by
  induction n generalizing tbl with
  | zero => cases h; exact .four
  | succ n ih =>
    dsimp only [State.walk] at h
    split at h
    case isTrue => cases h; exact .five
    split at h
    case isTrue => cases h
    split at h
    case isTrue poison => cases h; exact .six
    split at h
    case isTrue malformed => cases h; exact .four
    split at h
    case isTrue pointer =>
      split at h
      · cases h; exact .four
      · exact ih h
    case isFalse leaf =>
      split at h <;> cases h
      exact .four

theorem trAt_fault {pa c : Nat} {m : BitVec 2} (h : trAt pa m = .fault c) : IsFetchCause c := by
  unfold trAt at h
  split at h <;> cases h
  exact .five

theorem State.walkFill_fetch_fault {s u : State} {x : Ctx} {va c : Nat} (h : s.walkFill x .fetch va = (u, .fault c)) :
    IsFetchCause c := by
  unfold State.walkFill at h
  split at h
  case h_1 walked => cases h; exact State.walk_fetch_fault walked
  case h_2 => cases h; exact .five
  case h_3 leaf =>
    split at h
    · cases h; exact .five
    · split at h <;> cases h
      exact .five

theorem State.translate_fetch_fault {s u : State} {x : Ctx} {va : Word} {c : Nat}
    (h : s.translate x .fetch va = (u, .fault c)) : IsFetchCause c := by
  unfold State.translate at h
  dsimp only at h
  split at h
  case isTrue bare => exact trAt_fault (congrArg Prod.snd h)
  split at h
  case isTrue => cases h; exact .five
  split at h
  case h_1 firstLevel =>
    split at h
    · exact trAt_fault (congrArg Prod.snd h)
    · exact State.walkFill_fetch_fault h
  case h_2 =>
    split at h
    · split at h
      · exact trAt_fault (congrArg Prod.snd h)
      · exact State.walkFill_fetch_fault h
    · exact State.walkFill_fetch_fault h

theorem State.locateG_fetch_fault {s u : State} {h n c : Nat} {va : Word}
    (e : s.locateG h .fetch va n = (u, .fault c)) : IsFetchCause c := by
  unfold State.locateG at e
  split at e
  case isTrue window =>
    obtain ⟨-, rfl⟩ : s = u ∧ 5 = c := by simpa [Loc.if_] using e
    exact .five
  case isFalse =>
    split at e <;> cases e
    exact State.translate_fetch_fault ‹_›

theorem State.fetchWord_error {s u : State} {h c : Nat} {va : Word} (e : s.fetchWord h va = (u, .error c)) :
    IsFetchCause c := by
  unfold State.fetchWord at e
  split at e
  case h_1 located => cases e; exact State.locateG_fetch_fault located
  case h_2 =>
    split at e <;> cases e
    exact .six
  case h_3 => cases e; exact .five

/-- A fetch changes what a translation may change. -/
theorem State.fetchWord_frame (s : State) (h : Nat) (va : Word) : TrFrame s (s.fetchWord h va).1 := by
  have located := s.locateG_frame h .fetch va 8
  unfold State.fetchWord
  split <;> rename_i e <;> rw [e] at located
  · exact located
  · split
    · exact located
    · exact located.trans (.ofHome (State.lookAt_frame _ _ _))
  · exact located

theorem State.fetchWord_priv {s u : State} {h : Nat} {va : Word} {r : Except Nat Word} (e : s.fetchWord h va = (u, r)) :
    (u.hart h).priv = (s.hart h).priv := by
  have frame := (s.fetchWord_frame h va).hart h
  rw [e] at frame
  rw [frame]

end Sys2Proof.Machine

namespace Sys2Proof

/-! ## Row 2 of R47: the form and the opcode -/

/-- Row 2 of R47: form 11, an unassigned opcode, or form 10 on another opcode than LI, J and JAL. -/
def UndefinedWord (w : Word) : Prop :=
  w.toNat / 2 ^ 62 = 3 ∨ (w.toNat / 2 ^ 62 ≠ 1 ∧ w.toNat / 2 ^ 54 % 256 ∉ Claims.assignedOpcodes) ∨
    (w.toNat / 2 ^ 62 = 2 ∧ w.toNat / 2 ^ 54 % 256 ≠ 0x1E ∧ w.toNat / 2 ^ 54 % 256 ≠ 0x39 ∧ w.toNat / 2 ^ 54 % 256 ≠ 0x3A)

theorem formOf_toNat (w : Word) : (formOf w).toNat = w.toNat / 2 ^ 62 := by
  rw [formOf, bits_toNat]
  have := w.isLt
  omega

theorem opcode_toNat (w : Word) : (bits w 54 8).toNat = w.toNat / 2 ^ 54 % 256 := bits_toNat w 54 8

/-- The opcodes of the model's map are those of R44, in the same order. -/
theorem Major.all_codes : Major.all.map (fun m => m.code.toNat) = Claims.assignedOpcodes := by decide +kernel

theorem Major.ofCode_eq_none {c : BitVec 8} : Major.ofCode c = none ↔ c.toNat ∉ Claims.assignedOpcodes := by
  simp [Major.ofCode, ← Major.all_codes, BitVec.toNat_inj]

theorem Major.code_of_ofCode {c : BitVec 8} {m : Major} (h : Major.ofCode c = some m) : m.code = c := by
  simpa using List.find?_some h

/-- The opcode of a word, as the map reads it. -/
theorem Major.ofWord_cases (w : Word) :
    (Major.ofCode (bits w 54 8) = none ∧ w.toNat / 2 ^ 54 % 256 ∉ Claims.assignedOpcodes) ∨
    ∃ m, Major.ofCode (bits w 54 8) = some m ∧ m.code.toNat = w.toNat / 2 ^ 54 % 256 := by
  cases e : Major.ofCode (bits w 54 8) with
  | none => exact .inl ⟨rfl, opcode_toNat w ▸ Major.ofCode_eq_none.mp e⟩
  | some m => exact .inr ⟨m, rfl, by rw [Major.code_of_ofCode e, opcode_toNat]⟩

section
variable {w : Word} {m : Major}

theorem decodeWord_form11 (form : w.toNat / 2 ^ 62 = 3) : decodeWord w = .reject .form11 := by
  simp only [decodeWord, formOf_toNat, form]

theorem decodeWord_unassigned (form : w.toNat / 2 ^ 62 = 0 ∨ w.toNat / 2 ^ 62 = 2)
    (opcode : Major.ofCode (bits w 54 8) = none) : decodeWord w = .reject .unassigned := by
  rcases form with form | form <;> simp only [decodeWord, formOf_toNat, form, opcode]

theorem decodeWord_form00 (form : w.toNat / 2 ^ 62 = 0) (opcode : Major.ofCode (bits w 54 8) = some m) :
    decodeWord w = decodeFull m w := by
  simp only [decodeWord, formOf_toNat, form, opcode]

theorem decodeWord_form10 (form : w.toNat / 2 ^ 62 = 2) (opcode : Major.ofCode (bits w 54 8) = some m) :
    decodeWord w = decodeExt m w := by
  simp only [decodeWord, formOf_toNat, form, opcode]

end

theorem decodeExt_form10 {m : Major} (w : Word) (li : m ≠ .li) (j : m ≠ .j) (jal : m ≠ .jal) :
    decodeExt m w = .reject .form10 := by
  unfold decodeExt
  split
  · exact absurd rfl li
  · exact absurd rfl j
  · exact absurd rfl jal
  · rfl

/-- Only a field can make a form 00 word with an assigned opcode illegal. -/
theorem decodeFull_reject {m : Major} {w : Word} {r : Reject} (h : decodeFull m w = .reject r) : r = .fields := by
  unfold decodeFull at h
  dsimp only at h
  split at h
  · split at h <;> cases h
    rfl
  · cases h
    rfl

theorem decodeWord_undefined {w : Word} (h : UndefinedWord w) : ∃ r, decodeWord w = .reject r ∧ r ≠ .fields := by
  have four : w.toNat / 2 ^ 62 < 4 := by have := w.isLt; omega
  by_cases form11 : w.toNat / 2 ^ 62 = 3
  · exact ⟨_, decodeWord_form11 form11, nofun⟩
  have form : w.toNat / 2 ^ 62 = 0 ∨ w.toNat / 2 ^ 62 = 2 := by
    rcases h with h | ⟨h, -⟩ | ⟨h, -⟩ <;> omega
  obtain ⟨opcode, -⟩ | ⟨m, opcode, code⟩ := Major.ofWord_cases w
  · exact ⟨_, decodeWord_unassigned form opcode, nofun⟩
  · have assigned : w.toNat / 2 ^ 54 % 256 ∈ Claims.assignedOpcodes := by
      rw [← code, ← Major.all_codes]
      exact List.mem_map_of_mem (List.mem_of_find?_eq_some m.ofCode_code)
    obtain h | ⟨-, h⟩ | ⟨form10, li, j, jal⟩ := h
    · exact absurd h form11
    · exact absurd assigned h
    · refine ⟨.form10, (decodeWord_form10 form10 opcode).trans (decodeExt_form10 w ?_ ?_ ?_), nofun⟩ <;> rintro rfl
      · exact li code.symm
      · exact j code.symm
      · exact jal code.symm

end Sys2Proof

namespace Sys2Proof.Machine

/-! ## Row 3 of R47: privileged opcodes -/

/-- Row 3 of R47: a privileged opcode at user privilege. -/
def ForbiddenWord (p : Priv) (w : Word) : Prop :=
  w.toNat / 2 ^ 62 = 0 ∧ 0xC3 ≤ w.toNat / 2 ^ 54 % 256 ∧ w.toNat / 2 ^ 54 % 256 ≤ 0xCA ∧ p = .user

theorem forbiddenWord_iff (p : Priv) (w : Word) : (p = .user && privilegedWord w) = true ↔ ForbiddenWord p w := by
  have form : formOf w = 0 ↔ w.toNat / 2 ^ 62 = 0 := by rw [← formOf_toNat, ← BitVec.toNat_inj]; rfl
  simp only [ForbiddenWord, privilegedWord, Bool.and_eq_true, decide_eq_true_eq, beq_iff_eq, form, opcode_toNat]
  tauto

theorem privilegedOpcode_assigned {k : Nat} (low : 0xC3 ≤ k) (high : k ≤ 0xCA) : k ∈ Claims.assignedOpcodes := by
  interval_cases k <;> decide

theorem ForbiddenWord.reject_fields {p : Priv} {w : Word} {r : Reject} (h : ForbiddenWord p w)
    (e : decodeWord w = .reject r) : r = .fields := by
  obtain ⟨form, low, high, -⟩ := h
  obtain ⟨-, unassigned⟩ | ⟨m, opcode, -⟩ := Major.ofWord_cases w
  · exact absurd (privilegedOpcode_assigned low high) unassigned
  · exact decodeFull_reject (decodeWord_form00 form opcode ▸ e)

/-! ## What the checks of a first word answer (R47 rows 2 to 4) -/

theorem wordCheck_undefined {w : Word} (p : Priv) (h : UndefinedWord w) : wordCheck p w = .error 1 := by
  obtain ⟨r, e, noField⟩ := decodeWord_undefined h
  cases r with
  | fields => exact absurd rfl noField
  | _ => simp only [wordCheck, e]

theorem wordCheck_forbidden {p : Priv} {w : Word} (h : ForbiddenWord p w) : wordCheck p w = .error 2 := by
  have test := (forbiddenWord_iff p w).mpr h
  cases e : decodeWord w with
  | reject r =>
    cases h.reject_fields e
    simp only [wordCheck, e, test, if_true]
  | _ => simp only [wordCheck, e, test, if_true]

section
variable {p : Priv} {w : Word} (allowed : ¬ ForbiddenWord p w)
include allowed

theorem wordCheck_reject {r : Reject} (e : decodeWord w = .reject r) : wordCheck p w = .error 1 := by
  rw [← forbiddenWord_iff] at allowed
  cases r <;> simp only [wordCheck, e, if_neg allowed]

theorem wordCheck_fieldCause {d : Decoded} {c : Nat} (e : decodeWord w = d) (legal : ∀ r, d ≠ .reject r)
    (bad : fieldCause p d = some c) : wordCheck p w = .error c := by
  rw [← forbiddenWord_iff] at allowed
  subst e
  unfold wordCheck
  split
  · exact absurd ‹_› (legal _)
  · exact absurd ‹_› (legal _)
  · rw [if_neg allowed, bad]

theorem wordCheck_ok {d : Decoded} (e : decodeWord w = d) (legal : ∀ r, d ≠ .reject r)
    (good : fieldCause p d = none) : wordCheck p w = .ok d := by
  rw [← forbiddenWord_iff] at allowed
  subst e
  unfold wordCheck
  split
  · exact absurd ‹_› (legal _)
  · exact absurd ‹_› (legal _)
  · rw [if_neg allowed, good]

end

/-! ## The register that a CSRR or CSRW names (R54, R55, R313) -/

/-- A counter of the lane-cycle record, which only the supervisor writes (R55). -/
def Csr.isLcr : Csr → Bool
  | .lcr _ => true
  | _ => false

/-- What R54 says of a number and the register that it names. -/
def CsrAt (k : Nat) : Option Csr → Prop
  | none => Claims.unassignedCsr k
  | some r => ¬ Claims.unassignedCsr k ∧ (r.supervisor = true ↔ Claims.supervisorCsr k) ∧
      (r.isLcr = true ↔ 0x040 ≤ k ∧ k ≤ 0x045)

theorem csrOf_csrAt (n : BitVec 12) : CsrAt n.toNat (csrOf n) := by
  unfold csrOf
  split
  case h_26 =>
    simp only [imp_false] at *
    split_ifs <;> simp only [CsrAt, Csr.supervisor, Csr.isLcr, Claims.unassignedCsr, Claims.supervisorCsr,
      Bool.false_eq_true, false_iff, true_iff] <;> omega
  all_goals simp [CsrAt, Csr.supervisor, Csr.isLcr, Claims.unassignedCsr, Claims.supervisorCsr, *]

/-- The registers that a hart at user privilege may not read, or may not write (R55, R313). -/
def ForbiddenCsr (write : Bool) (k : Nat) : Prop :=
  Claims.supervisorCsr k ∨ (write = true ∧ 0x040 ≤ k ∧ k ≤ 0x045)

theorem ForbiddenCsr.assigned {write : Bool} {k : Nat} (h : ForbiddenCsr write k) : ¬ Claims.unassignedCsr k := by
  unfold ForbiddenCsr Claims.supervisorCsr at h
  unfold Claims.unassignedCsr
  omega

section
variable (p : Priv) {n : BitVec 12} (write : Bool)

theorem csrCheck_unassigned (h : Claims.unassignedCsr n.toNat) : csrCheck p n write = some 1 := by
  have named := csrOf_csrAt n
  cases e : csrOf n with
  | none => simp only [csrCheck, e]
  | some r => rw [e] at named; exact absurd h named.1

theorem csrCheck_assigned (h : ¬ Claims.unassignedCsr n.toNat) :
    ∃ forbidden : Bool, csrCheck p n write = (if forbidden then some 2 else none) ∧
      (forbidden = true ↔ p = .user ∧ ForbiddenCsr write n.toNat) := by
  have named := csrOf_csrAt n
  cases e : csrOf n with
  | none => rw [e] at named; exact absurd named h
  | some r =>
    rw [e] at named
    obtain ⟨-, supervisor, counter⟩ := named
    refine ⟨p = .user && (r.supervisor || (write && r.isLcr)), by simp only [csrCheck, e]; rfl, ?_⟩
    simp only [ForbiddenCsr, Bool.and_eq_true, Bool.or_eq_true, decide_eq_true_eq, supervisor, counter]

variable {p write}

theorem csrCheck_forbidden (user : p = .user) (h : ForbiddenCsr write n.toNat) : csrCheck p n write = some 2 := by
  obtain ⟨forbidden, check, test⟩ := csrCheck_assigned p write h.assigned
  rw [check, if_pos (test.mpr ⟨user, h⟩)]

theorem csrCheck_allowed (assigned : ¬ Claims.unassignedCsr n.toNat) (h : ¬ (p = .user ∧ ForbiddenCsr write n.toNat)) :
    csrCheck p n write = none := by
  obtain ⟨forbidden, check, test⟩ := csrCheck_assigned p write assigned
  rw [check, if_neg (mt test.mp h)]

end

/-- The instruction is a CSRR or a CSRW of register number `k`. -/
def NamesCsr (i : Instr) (k : Nat) : Prop :=
  (∃ d n, i = .csrr d n ∧ n.toNat = k) ∨ ∃ n a, i = .csrw n a ∧ n.toNat = k

/-- The instruction names a register number that R54 does not assign. -/
def NamesUnassigned (i : Instr) : Prop := ∃ k, NamesCsr i k ∧ Claims.unassignedCsr k

/-- At user privilege, the instruction names a register of the supervisor, or writes one that only the supervisor writes. -/
def NamesForbidden (p : Priv) (i : Instr) : Prop :=
  p = .user ∧ ((∃ k, NamesCsr i k ∧ Claims.supervisorCsr k) ∨ ∃ n a, i = .csrw n a ∧ 0x040 ≤ n.toNat ∧ n.toNat ≤ 0x045)

theorem fieldCause_unassigned (p : Priv) {i : Instr} (h : NamesUnassigned i) : fieldCause p (.one i) = some 1 := by
  obtain ⟨_, ⟨d, n, rfl, rfl⟩ | ⟨n, a, rfl, rfl⟩, unassigned⟩ := h
  · exact csrCheck_unassigned p false unassigned
  · exact csrCheck_unassigned p true unassigned

theorem fieldCause_forbidden {p : Priv} {i : Instr} (h : NamesForbidden p i) : fieldCause p (.one i) = some 2 := by
  obtain ⟨user, ⟨_, ⟨d, n, rfl, rfl⟩ | ⟨n, a, rfl, rfl⟩, supervisor⟩ | ⟨n, a, rfl, counter⟩⟩ := h
  · exact csrCheck_forbidden user (.inl supervisor)
  · exact csrCheck_forbidden user (.inl supervisor)
  · exact csrCheck_forbidden user (.inr ⟨rfl, counter⟩)

theorem fieldCause_allowed {p : Priv} {i : Instr} (assigned : ¬ NamesUnassigned i) (allowed : ¬ NamesForbidden p i) :
    fieldCause p (.one i) = none := by
  unfold fieldCause
  split
  case h_1 d n e =>
    cases e
    have named : NamesCsr (.csrr d n) n.toNat := .inl ⟨d, n, rfl, rfl⟩
    refine csrCheck_allowed (fun h => assigned ⟨_, named, h⟩) fun ⟨user, h⟩ => allowed ⟨user, .inl ⟨_, named, ?_⟩⟩
    simpa [ForbiddenCsr] using h
  case h_2 n a e =>
    cases e
    have named : NamesCsr (.csrw n a) n.toNat := .inr ⟨n, a, rfl, rfl⟩
    refine csrCheck_allowed (fun h => assigned ⟨_, named, h⟩) fun ⟨user, h⟩ => allowed ⟨user, ?_⟩
    obtain supervisor | ⟨-, counter⟩ := h
    · exact .inl ⟨_, named, supervisor⟩
    · exact .inr ⟨n, a, rfl, counter⟩
  case h_3 => rfl

/-! ## What a fetch answers (R47) -/

section
variable {s u : State} {h c : Nat}

theorem State.fetchItem_misaligned (misaligned : (s.hart h).pc.toNat % 8 ≠ 0) :
    s.fetchItem h = (s, .trap 3 (s.hart h).pc 0) := by
  simp only [State.fetchItem, if_pos misaligned]

variable (aligned : (s.hart h).pc.toNat % 8 = 0)
include aligned

theorem State.fetchItem_fetchFault (failed : s.fetchWord h (s.hart h).pc = (u, .error c)) :
    s.fetchItem h = (u, .trap c (s.hart h).pc 0) := by
  simp only [State.fetchItem, if_neg (not_not.mpr aligned), failed]

variable {w : Word} (fetched : s.fetchWord h (s.hart h).pc = (u, .ok w))
include fetched

theorem State.fetchItem_illegal (check : wordCheck (s.hart h).priv w = .error c) :
    s.fetchItem h = (u, .trap c w w) := by
  rw [← State.fetchWord_priv fetched] at check
  simp only [State.fetchItem, if_neg (not_not.mpr aligned), fetched, check]

theorem State.fetchItem_one {i : Instr} (check : wordCheck (s.hart h).priv w = .ok (.one i)) :
    s.fetchItem h = (u, .item (.instr i 8) w) := by
  rw [← State.fetchWord_priv fetched] at check
  simp only [State.fetchItem, if_neg (not_not.mpr aligned), fetched, check]

theorem State.fetchItem_pair {a b : Instr} (check : wordCheck (s.hart h).priv w = .ok (.pair a b)) :
    s.fetchItem h = (u, .item (.pair a b) w) := by
  rw [← State.fetchWord_priv fetched] at check
  simp only [State.fetchItem, if_neg (not_not.mpr aligned), fetched, check]

variable {mj : Major} {r : Reg} (check : wordCheck (s.hart h).priv w = .ok (.needExt mj r)) {v : State}
include check

theorem State.fetchItem_extFault (failed : u.fetchWord h ((s.hart h).pc + 8) = (v, .error c)) :
    s.fetchItem h = (v, .trap c ((s.hart h).pc + 8) w) := by
  rw [← State.fetchWord_priv fetched] at check
  simp only [State.fetchItem, if_neg (not_not.mpr aligned), fetched, check, failed]

theorem State.fetchItem_ext {x : Word} (extension : u.fetchWord h ((s.hart h).pc + 8) = (v, .ok x)) :
    s.fetchItem h = (v, .item (.instr (extended mj r x) 16) w) := by
  rw [← State.fetchWord_priv fetched] at check
  simp only [State.fetchItem, if_neg (not_not.mpr aligned), fetched, check, extension]

end

/-- Settles O53: the rows of R47 in turn, each by what the checks of the first word answer for it. -/
theorem fetchChecks : Obligations.FetchChecks := by
  unfold Obligations.FetchChecks
  intro s h
  refine ⟨State.fetchItem_misaligned,
    fun u c aligned failed => ⟨State.fetchItem_fetchFault aligned failed, State.fetchWord_error failed⟩,
    fun u w aligned fetched => ⟨fun row2 => ?undefined, fun row3 => ?privileged, fun _ allowed =>
      ⟨fun r e => ?fields, fun i e => ⟨fun noReg => ?noReg, fun noRight => ?noRight, fun hasReg hasRight => ?stands⟩,
        fun a b e => ?pair, fun mj r e => ?extension⟩⟩⟩
  case undefined => exact State.fetchItem_illegal aligned fetched (wordCheck_undefined _ row2)
  case privileged => exact State.fetchItem_illegal aligned fetched (wordCheck_forbidden row3)
  case fields => exact State.fetchItem_illegal aligned fetched (wordCheck_reject allowed e)
  case noReg =>
    exact State.fetchItem_illegal aligned fetched (wordCheck_fieldCause allowed e nofun (fieldCause_unassigned _ noReg))
  case noRight =>
    exact State.fetchItem_illegal aligned fetched (wordCheck_fieldCause allowed e nofun (fieldCause_forbidden noRight))
  case stands =>
    exact State.fetchItem_one aligned fetched (wordCheck_ok allowed e nofun (fieldCause_allowed hasReg hasRight))
  case pair => exact State.fetchItem_pair aligned fetched (wordCheck_ok allowed e nofun rfl)
  case extension =>
    have check := wordCheck_ok allowed e nofun rfl
    exact ⟨fun v c => State.fetchItem_extFault aligned fetched check, fun v x => State.fetchItem_ext aligned fetched check⟩

end Sys2Proof.Machine

/-! PROOF of TaskStart: what a pop leaves of the level it takes from, what it may change before the hart starts, and what the
hart holds then. -/

namespace Sys2Proof.Machine

/-! ## Writes at the homes leave the queued records (R77) -/

/-- The records queued on the dies are the same. -/
def KeepsLevels (s t : State) : Prop := ∀ d, (t.die d).levels = (s.die d).levels

namespace KeepsLevels

theorem of_dies {s t : State} (e : t.dies = s.dies) : KeepsLevels s t := fun d =>
  congrArg (fun l => (getAt Die.reset l d).levels) e

theorem refl (s : State) : KeepsLevels s s := fun _ => rfl

theorem trans {s t u : State} (a : KeepsLevels s t) (b : KeepsLevels t u) : KeepsLevels s u := fun d => (b d).trans (a d)

theorem fold {α : Type} (f : State → α → State) (h : ∀ b x, KeepsLevels b (f b x)) (l : List α) (s : State) :
    KeepsLevels s (l.foldl f s) :=
  foldl_keeps (P := KeepsLevels s) f (fun b x hb => hb.trans (h b x)) l s (.refl s)

theorem level {s t : State} (a : KeepsLevels s t) (d part lv : Nat) : (t.die d).level part lv = (s.die d).level part lv :=
  congrArg (fun l => getAt Level.empty l (levelIx part lv)) (a d)

end KeepsLevels

theorem noteDies_levels (self : Option (Nat × Nat)) (pa n k d : Nat) (l : List Die) :
    (getAt Die.reset (noteDies self pa n k l) d).levels = (getAt Die.reset l d).levels := by
  induction l generalizing k d with
  | nil => rfl
  | cons x xs ih =>
    cases d with
    | zero => rfl
    | succ d => exact ih (k + 1) d

theorem State.noteWrite_levels (s : State) (o : Option (Nat × Nat)) (pa n : Nat) : KeepsLevels s (s.noteWrite o pa n) :=
  fun d => noteDies_levels o pa n 0 d s.dies

theorem State.writeBack_levels (s : State) (w : Nat) : KeepsLevels s (s.writeBack w) := by
  unfold State.writeBack
  split
  · exact .of_dies rfl
  · exact .refl s

theorem State.recallEntry_levels (s : State) (pa : Nat) (e : RangeEntry) : KeepsLevels s (s.recallEntry pa e) :=
  (KeepsLevels.fold _ State.writeBack_levels _ s).trans (.of_dies rfl)

theorem State.makeRoom_levels (s : State) (pa n k : Nat) : KeepsLevels s (s.makeRoom pa n k) := by
  induction k generalizing s with
  | zero => exact .refl s
  | succ k ih =>
    unfold State.makeRoom
    split
    · exact .refl s
    · split
      · exact .refl s
      · exact (s.recallEntry_levels _ _).trans (ih _)

theorem State.recall_levels (s : State) (w : Nat) : KeepsLevels s (s.recall w) := by
  unfold State.recall
  split
  · exact ((s.writeBack_levels w).trans (State.makeRoom_levels _ _ _ _)).trans (.of_dies rfl)
  · exact .refl s

theorem State.snoopFor_levels (s : State) (pa n : Nat) : KeepsLevels s (s.snoopFor pa n) := by
  unfold State.snoopFor State.sendSnoop
  split
  · exact .refl s
  · split
    · split
      · exact .refl s
      · exact .of_dies rfl
    · exact .refl s

theorem State.devPut_levels (s : State) (pa : Nat) (bs : List Byte) : KeepsLevels s (s.devPut pa bs) := by
  unfold State.devPut
  split
  · exact (s.snoopFor_levels _ _).trans (State.noteWrite_levels _ _ _ _)
  · exact ((KeepsLevels.fold _ State.recall_levels _ s).trans (.of_dies rfl)).trans (State.noteWrite_levels _ _ _ _)

theorem State.tracePut_levels (s : State) (c : Nat) (a b : Word) : KeepsLevels s (s.tracePut c a b) := by
  unfold State.tracePut
  dsimp only
  split
  · exact .refl s
  · split
    · exact (s.devPut_levels _ _).trans (.of_dies rfl)
    · exact .of_dies rfl

theorem State.record_levels (s : State) (c kind hart info : Nat) (w : Word) : KeepsLevels s (s.record c kind hart info w) := by
  unfold State.record State.writeRecord
  dsimp only
  split
  · split
    · exact ((s.tracePut_levels _ _ _).trans (.of_dies rfl)).trans (State.tracePut_levels _ _ _ _)
    · exact s.tracePut_levels _ _ _
  · exact .refl s

/-! ## A record leaves its level (R77) -/

theorem State.spill_frame (s : State) (l : Level) (i : Nat) (r : TaskRec) : HomeFrame s (s.spill l i r) := by
  unfold State.spill
  split
  · exact s.devPut_frame _ _
  · exact .refl s

theorem State.lookRing_frame (s : State) (l : Level) (i : Nat) : HomeFrame s (s.lookRing l i) := by
  unfold State.lookRing
  split
  · split
    · exact s.want_frame _
    · exact s.lookAt_frame _ _
  · exact .refl s

theorem State.takeAt_frame (s : State) (d part lv i : Nat) : HomeFrame s (s.takeAt d part lv i) := by
  unfold State.takeAt
  dsimp only
  split
  · exact s.modDie_frame _ _
  · split
    · exact (s.lookRing_frame _ _).trans (State.modDie_frame _ _ _)
    · refine (HomeFrame.fold _ (fun b k => ?_) _ s).trans (State.modDie_frame _ _ _)
      split
      · exact b.spill_frame _ _ _
      · exact .refl b

@[simp] theorem Die.level_setLevel (x : Die) (part lv : Nat) (l : Level) : (x.setLevel part lv l).level part lv = l :=
  getAt_putAt_self _ _ _ _

@[simp] theorem State.die_modDie (s : State) (d : Nat) (f : Die → Die) : (s.modDie d f).die d = f (s.die d) :=
  s.die_setDie d _

@[simp] theorem setAt_length {α : Type} (l : List α) (i : Nat) (f : α → α) : (setAt l i f).length = l.length := by
  unfold setAt
  split
  · exact List.length_set
  · rfl

/-- The records that stay when the oldest one leaves: as many as stood behind it, and the same ones where no ring refills the
FIFO. -/
theorem State.takeAt_oldest {s : State} {d part lv : Nat} {q : QRec} {rest : List QRec}
    (queued : ((s.die d).level part lv).recs = q :: rest) :
    (((s.takeAt d part lv 0).die d).level part lv).recs.length = rest.length ∧
      (rest.length < Config.fifoRecords → (((s.takeAt d part lv 0).die d).level part lv).recs = rest) := by
  unfold State.takeAt
  dsimp only
  by_cases noRing : (q :: rest).length ≤ Config.fifoRecords
  · rw [queued, if_pos noRing]
    simp
  · have first : 0 < Config.fifoRecords := by decide
    have long : ¬ rest.length < Config.fifoRecords := noRing
    rw [queued, if_neg noRing, if_pos first]
    simp [long]

/-! ## The level rule of a pop whose launch is cancelled (R80, R90) -/

theorem State.levelAt_frame (s : State) (x : Ctx) (acc : Acc) (va : Word) : TrFrame s (s.levelAt x acc va).1 := by
  unfold State.levelAt
  have translated := s.translate_frame x acc va
  split
  · exact .refl s
  · split <;> rename_i e <;> rw [e] at translated
    · split
      · exact translated
      · exact translated.trans (.ofHome (State.lookAt_frame _ _ _))
    · exact translated

theorem State.levelPut_frame (s : State) (l : LevelRec) (off n v : Nat) : TrFrame s (s.levelPut l off n v) :=
  .ofHome (s.agentWrite_frame _ _ _)

theorem State.stamp_frame (s : State) (l : LevelRec) (part : Nat) : TrFrame s (s.stamp l part) := by
  unfold State.stamp
  split
  · exact .refl s
  · exact s.levelPut_frame _ _ _ _

theorem State.chainFrom_frame (s : State) (x : Ctx) (n : Nat) (va : Word) : TrFrame s (s.chainFrom x n va).1 := by
  induction n generalizing s va with
  | zero => exact .refl s
  | succ n ih =>
    unfold State.chainFrom
    have read := s.levelAt_frame x .load va
    split
    · exact .refl s
    · split <;> rename_i e <;> rw [e] at read
      · exact read.trans (ih _ _)
      · exact read

theorem State.chainCancelled_frame (s : State) (x : Ctx) (launch : Word) (exempt : Bool) :
    TrFrame s (s.chainCancelled x launch exempt).1 := s.chainFrom_frame x 4 launch

theorem State.checkRec_frame (s : State) (x : Ctx) (r : TaskRec) (part : Nat) : TrFrame s (s.checkRec x r part).1 := by
  unfold State.checkRec
  have chain := s.chainFrom_frame x 4 r.launch
  split
  · exact .refl s
  · split
    · exact .refl s
    · split <;> rename_i e <;> rw [e] at chain
      · split <;> exact chain
      · exact chain

theorem State.levelAdd_frame (s : State) (x : Ctx) (va : Word) (k : Nat) : TrFrame s (s.levelAdd x va k) := by
  unfold State.levelAdd
  have read := s.levelAt_frame x .store va
  split <;> rename_i e <;> rw [e] at read
  · exact read.trans (State.levelPut_frame _ _ _ _ _)
  · exact read

theorem State.push_frame (s : State) (d part : Nat) (q : QRec) : HomeFrame s (s.push d part q) :=
  ((s.spill_frame _ _ _).trans (State.modDie_frame _ _ _)).trans (State.happen_frame _)

theorem State.pushOrHold_frame (s : State) (d : Nat) (p : HeldPush) (alone : p.after = .nothing) :
    HomeFrame s (s.pushOrHold d p) := by
  unfold State.pushOrHold
  split
  · exact s.modDie_frame _ _
  · rw [alone]
    exact s.push_frame _ _ _

theorem State.pushDonecont_frame (s : State) (x : Ctx) (l : LevelRec) : TrFrame s (s.pushDonecont x l) := by
  unfold State.pushDonecont
  dsimp only
  have discard := fun (t : State) (lv : Nat) => TrFrame.ofHome (t.logDiscard_frame (s.homeDie l.pa) lv l.donecont)
  have read := s.agentRead_frame x l.donecont 64
  split
  · exact .refl s
  split
  · exact discard s 0
  split <;> rename_i e <;> rw [e] at read
  · exact read.trans (discard _ _)
  rename_i u bs
  split
  · exact read.trans (discard _ _)
  have check := read.trans (u.checkRec_frame x (TaskRec.ofBytes bs) l.part)
  split <;> rename_i e <;> rw [e] at check
  · refine .trans (check.trans ?_) (.ofHome (State.pushOrHold_frame _ _ _ rfl))
    split
    · exact .refl _
    · exact State.levelAdd_frame _ _ _ _
  · exact check.trans (discard _ _)

theorem State.levelDec_frame (s : State) (x : Ctx) (child : Bool) (part n : Nat) (va : Word) :
    TrFrame s (s.levelDec x child part n va).1 := by
  induction n generalizing s child part va with
  | zero => exact .refl s
  | succ n ih =>
    unfold State.levelDec
    have read := s.levelAt_frame x .store va
    split <;> rename_i e <;> rw [e] at read
    · exact read.trans (.ofHome (State.logDiscard_frame _ _ _ _))
    rename_i u l
    have counted : TrFrame u ((if child then u.stamp l part else u).levelPut l 0 8 (l.outstanding - 1).toNat) := by
      refine .trans ?_ (State.levelPut_frame _ _ _ _ _)
      split
      · exact u.stamp_frame _ _
      · exact .refl u
    have atZero (v : State) (l : LevelRec) : TrFrame v
        (if l.running then ((v.levelPut l 8 1 1).levelPut l 48 8 v.gtime).pushDonecont x l else v) := by
      split
      · exact ((v.levelPut_frame _ _ _ _).trans (State.levelPut_frame _ _ _ _ _)).trans (State.pushDonecont_frame _ _ _)
      · exact .refl v
    refine read.trans (counted.trans ?_)
    dsimp only
    generalize (if child then u.stamp l part else u).levelPut l 0 8 (l.outstanding - 1).toNat = v
    generalize (if l.set || !child then l else { l with partByte := 128 + part % 16 }) = l'
    have ended := atZero v l'
    generalize (if l'.running then ((v.levelPut l' 8 1 1).levelPut l' 48 8 v.gtime).pushDonecont x l' else v) = w at ended
    split
    · refine ended.trans ?_
      dsimp only
      split
      · exact .refl w
      · exact ih _ _ _ _
    · exact .refl v

/-! ## A pop starts a task, or does not (R80, R94) -/

/-- The hart as a pop at time `now` leaves it. -/
def Hart.starting (x : Hart) (q : QRec) (level number now : Nat) : Hart :=
  { x.startTask q level number with progress := now }

/-- The core acquires, and the hart takes the values of R52. -/
def State.withTask (s : State) (h : Nat) (q : QRec) (level : Nat) : State :=
  ({ s.acquireAll (coreOf h) with tasks := s.tasks + 1 } : State).modHart h fun x =>
    x.starting q level (s.tasks + 1) s.gtime

/-- A pop starts the task, and the trace notes it. -/
def State.handTo (s : State) (h : Nat) (q : QRec) (level : Nat) : State :=
  (s.withTask h q level).record (coreOf h) 1 (localHart h) 0 q.handle

theorem State.withTask_hart (s : State) (h : Nat) (q : QRec) (level : Nat) :
    (s.withTask h q level).hart h = (s.hart h).starting q level (s.tasks + 1) s.gtime :=
  State.hart_setHart _ _ _

theorem State.withTask_hart_ne (s : State) {h k : Nat} (q : QRec) (level : Nat) (other : k ≠ h) :
    (s.withTask h q level).hart k = s.hart k := State.hart_setHart_ne _ _ _ _ other.symm

theorem State.withTask_levels (s : State) (h : Nat) (q : QRec) (level : Nat) : KeepsLevels s (s.withTask h q level) :=
  .of_dies rfl

theorem State.handTo_hart (s : State) (h k : Nat) (q : QRec) (level : Nat) :
    (s.handTo h q level).hart k = (s.withTask h q level).hart k := (State.record_frame _ _ _ _ _ _).hart k

theorem State.handTo_levels (s : State) (h : Nat) (q : QRec) (level : Nat) : KeepsLevels s (s.handTo h q level) :=
  (s.withTask_levels h q level).trans (State.record_levels _ _ _ _ _ _)

/-- The copies of a gang note the pop. -/
def State.gangNoted (s : State) (d : Nat) : Option Nat → State
  | some g => s.ackGangs d g
  | none => s

theorem State.gangNoted_frame (s : State) (d : Nat) (g : Option Nat) : TrFrame s (s.gangNoted d g) := by
  cases g with
  | none => exact .refl s
  | some g => exact .ofHome ⟨id, rfl⟩

/-- What a pop reads of the chain of a record's launch before the hart may start. -/
def State.chainRead (s : State) (h : Nat) (q : QRec) : State × Bool :=
  (s.gangNoted (dieOf h) q.gang).chainCancelled ((s.gangNoted (dieOf h) q.gang).partCtx (s.partOf h)) q.rc.launch
    q.handler.isSome

theorem State.chainRead_frame (s : State) (h : Nat) (q : QRec) : TrFrame s (s.chainRead h q).1 :=
  (s.gangNoted_frame _ _).trans (State.chainCancelled_frame _ _ _ _)

section
variable {s u : State} {h : Nat} {q : QRec} (level : Nat)

theorem State.startOn_cancelled (read : s.chainRead h q = (u, true)) :
    s.startOn h q level = (u.levelDec (u.partCtx (s.partOf h)) false (s.partOf h) levelFuel q.rc.launch).1.happen := by
  obtain ⟨rc, handle, since, handler, gang⟩ := q
  cases gang <;> simp only [State.chainRead, State.gangNoted] at read <;> simp only [State.startOn, read]

theorem State.startOn_runs (read : s.chainRead h q = (u, false)) : s.startOn h q level = u.handTo h q level := by
  obtain ⟨rc, handle, since, handler, gang⟩ := q
  cases gang <;> simp only [State.chainRead, State.gangNoted] at read <;> simp only [State.startOn, read] <;> rfl

end

/-- What a pop can come to: the hart starts the task, or a level of the launch's chain is cancelled and the record is used up. -/
theorem State.startOn_cases (s : State) (h : Nat) (q : QRec) (level : Nat) :
    (∃ u, TrFrame s u ∧ s.startOn h q level = u.handTo h q level) ∨ TrFrame s (s.startOn h q level) := by
  have frame := s.chainRead_frame h q
  rcases read : s.chainRead h q with ⟨u, cancelled⟩
  rw [read] at frame
  cases cancelled with
  | true =>
    rw [State.startOn_cancelled level read]
    exact .inr ((frame.trans (State.levelDec_frame _ _ _ _ _ _)).trans (.ofHome (State.happen_frame _)))
  | false => exact .inl ⟨u, frame, State.startOn_runs level read⟩

/-- A record without a launch and outside a gang starts its task. -/
theorem State.startOn_eq_handTo (s : State) (h : Nat) {q : QRec} (level : Nat) (noLaunch : q.rc.launch = 0)
    (noGang : q.gang = none) : s.startOn h q level = s.handTo h q level := by
  refine State.startOn_runs level ?_
  rw [State.chainRead, noGang, State.chainCancelled, State.chainFrom, if_pos noLaunch]
  simp [State.gangNoted]

/-! ## The pop (R78) -/

/-- The oldest record of a level has left it for hart `h`, which has had its turn. -/
def State.popped (s : State) (h lv : Nat) : State :=
  (s.takeAt (dieOf h) (s.partOf h) lv 0).modDie (dieOf h) fun x =>
    { x with popRr := putAt 0 x.popRr (s.partOf h) ((h + 1) % 256) }

theorem State.popped_frame (s : State) (h lv : Nat) : HomeFrame s (s.popped h lv) :=
  (s.takeAt_frame _ _ _ _).trans (State.modDie_frame _ _ _)

theorem State.popped_level (s : State) (h lv : Nat) :
    ((s.popped h lv).die (dieOf h)).level (s.partOf h) lv =
      ((s.takeAt (dieOf h) (s.partOf h) lv 0).die (dieOf h)).level (s.partOf h) lv := by
  rw [State.popped, State.die_modDie]
  rfl

/-- Where the conditions of R78 hold, the oldest record of the level goes to the hart. -/
theorem State.pop_eq {s : State} {h lv : Nat} {q : QRec} {rest : List QRec} (idle : s.idle h = true)
    (highest : (s.die (dieOf h)).highest (s.partOf h) 8 = some lv)
    (queued : ((s.die (dieOf h)).level (s.partOf h) lv).recs = q :: rest)
    (settled : ∀ k, k < 7 → (s.die (dieOf h)).moveDue (s.partOf h) k = none)
    (turn : s.nextIdle (dieOf h) (s.partOf h) = some h) : s.pop h = some ((s.popped h lv).startOn h q lv) := by
  have noneDue : ((List.range 7).any fun k => ((s.die (dieOf h)).moveDue (s.partOf h) k).isSome) = false := by
    simpa [List.any_eq_false] using settled
  simp [State.pop, idle, highest, queued, noneDue, turn, State.popped]

theorem exec_taskPop_next {s t : State} {h : Nat} :
    exec (.taskPop h) s = .next t ↔ ∃ u, s.pop h = some u ∧ u.happen = t := by
  change execTaskPop h s = .next t ↔ _
  unfold execTaskPop event notEnabled
  split <;> simp_all

/-- A pop that takes place hands a record to an idle hart. -/
theorem State.of_pop {s t : State} {h : Nat} (e : s.pop h = some t) :
    s.idle h = true ∧ ∃ q lv, t = (s.popped h lv).startOn h q lv := by
  unfold State.pop at e
  dsimp only at e
  split at e
  case isTrue => cases e
  case isFalse idle =>
    split at e
    case h_1 => cases e
    split at e
    case isTrue => cases e
    split at e
    case h_1 => cases e
    cases e
    exact ⟨by simpa using idle, _, _, rfl⟩

theorem State.no_task_of_idle {s : State} {h : Nat} (idle : s.idle h = true) : (s.hart h).task = none := by
  simp only [State.idle, Bool.and_eq_true, Option.isNone_iff_eq_none] at idle
  obtain ⟨⟨⟨⟨⟨⟨-, noTask⟩, -⟩, -⟩, -⟩, -⟩, -⟩ := idle
  exact noTask

/-! ## The values of R52 -/

theorem getAt_replicate {α : Type} (d : α) (n i : Nat) : getAt d (List.replicate n d) i = d := by
  rw [getAt_eq_getD, List.getD_eq_getElem?_getD, List.getElem?_getD_replicate_default_eq]

section
variable {x : Hart} {q : QRec} {level number now : Nat}

/-- Every register but s3 to s6 reads zero. -/
theorem Hart.starting_rd {r : Reg} (other : r.toNat < 3 ∨ 6 < r.toNat) : (x.starting q level number now).rd r = 0 := by
  rw [Hart.rd, ite_eq_left_iff]
  intro _
  match r.toNat, other with
  | 0, _ | 1, _ | 2, _ => rfl
  | n + 7, _ => exact getAt_replicate 0 57 n

theorem Hart.starting_mask {n : Nat} (named : 0 < n) : (x.starting q level number now).mask n = 0 := by
  rw [Hart.mask, if_neg named.ne']
  exact getAt_replicate 0 7 (n - 1)

theorem Hart.starting_tile (r : Reg) : descValid ((x.starting q level number now).tile r) = false :=
  congrArg descValid (getAt_replicate 0 4 r.toNat)

theorem Hart.starting_landing (n : Nat) : getAt none (x.starting q level number now).landing n = none :=
  getAt_replicate none 16 n

theorem Hart.starting_mvl (k : Nat) : 65536 * (x.starting q level number now).c / k = 0 := by
  have noCluster : (x.starting q level number now).c = 0 := show popcount (0 : BitVec 16) = 0 by decide
  rw [noCluster, Nat.mul_zero, Nat.zero_div]

end

/-- Settles O23: where the conditions of R78 hold, the pop is `handTo` of the oldest record, which changes one hart and leaves
the levels as `takeAt` leaves them. A pop that starts no task leaves the hart without one, so a hart with a task after a pop
has the values of `Hart.starting`. -/
theorem taskStart : Obligations.TaskStart := by
  unfold Obligations.TaskStart
  refine ⟨fun s h lv q rest idle highest queued noLaunch noGang settled turn => ?oldest, fun s t h popped started => ?values⟩
  case oldest =>
    let u := s.popped h lv
    have pop : s.pop h = some (u.handTo h q lv) := by
      rw [State.pop_eq idle highest queued settled turn, State.startOn_eq_handTo _ _ _ noLaunch noGang]
    have level : (((u.handTo h q lv).happen).die (dieOf h)).level (s.partOf h) lv =
        ((s.takeAt (dieOf h) (s.partOf h) lv 0).die (dieOf h)).level (s.partOf h) lv :=
      ((u.handTo_levels h q lv).level _ _ _).trans (s.popped_level h lv)
    have hart (k : Nat) : ((u.handTo h q lv).happen).hart k = (u.withTask h q lv).hart k := u.handTo_hart h k q lv
    obtain ⟨fewer, same⟩ := State.takeAt_oldest queued
    refine ⟨(u.handTo h q lv).happen, exec_taskPop_next.mpr ⟨_, pop, rfl⟩, ?_, fun noRing => ?_, ?_, fun k other => ?_⟩
    · rw [level, fewer]
    · rw [level, same noRing]
    · rw [hart, State.withTask_hart]
      exact ⟨rfl, rfl, rfl, rfl, rfl, rfl, rfl, rfl, rfl⟩
    · rw [hart, State.withTask_hart_ne _ _ _ other, (s.popped_frame h lv).hart]
  case values =>
    obtain ⟨_, pop, rfl⟩ := exec_taskPop_next.mp popped
    obtain ⟨idle, q, lv, rfl⟩ := State.of_pop pop
    have taken : TrFrame s (s.popped h lv) := .ofHome (s.popped_frame h lv)
    obtain ⟨v, read, starts⟩ | usedUp := (s.popped h lv).startOn_cases h q lv
    · have timelines : (v.hart h).tl = (s.hart h).tl := by rw [(taken.trans read).hart]
      rw [starts, State.happen_hart, State.handTo_hart, State.withTask_hart]
      exact ⟨fun _ => Hart.starting_rd, rfl, rfl, Hart.starting_mvl _, rfl, rfl, rfl, rfl, rfl, rfl, rfl, rfl,
        rfl, rfl, fun n named _ => Hart.starting_mask named, fun r _ => Hart.starting_tile r, rfl,
        Hart.starting_landing, timelines⟩
    · have noTask : (((s.popped h lv).startOn h q lv).hart h).task = none := by
        rw [(taken.trans usedUp).hart]
        exact State.no_task_of_idle idle
      exact absurd noTask started

end Sys2Proof.Machine

/-! PROOF of EncodeThenDecode: the round trips of the single instructions put together. -/

namespace Sys2Proof

/-! ## Every row of the opcode table (R35 to R43) -/

namespace Laws.RoundTrip

/-- Every instruction goes through its words and back, and an event has none. -/
theorem every : ∀ i : Instr, Statement i
  | .add .. => add _ _ _ | .addi .. => addi _ _ _ | .and .. => and _ _ _ | .andi .. => andi _ _ _ | .clz .. => clz _ _
  | .ctz .. => ctz _ _ | .div .. => div _ _ _ _ | .lea .. => lea _ _ _ _ | .li .. => li _ _ | .liExt .. => liExt _ _
  | .max .. => max _ _ _ _ | .min .. => min _ _ _ _ | .mul .. => mul _ _ _ | .mulh .. => mulh _ _ _ _
  | .or .. => or _ _ _ | .ori .. => ori _ _ _ | .popc .. => popc _ _ | .rem .. => rem _ _ _ _ | .sel .. => sel _ _ _ _
  | .shl .. => shl _ _ _ | .shli .. => shli _ _ _ _ | .shr .. => shr _ _ _ | .slt .. => slt _ _ _ _
  | .slti .. => slti _ _ _ _ | .sra .. => sra _ _ _ | .sub .. => sub _ _ _ | .xor .. => xor _ _ _
  | .xori .. => xori _ _ _ | .mov .. => mov _ _ | .nop => nop | .fadd .. => fadd _ _ _ _ _
  | .fsub .. => fsub _ _ _ _ _ | .fmul .. => fmul _ _ _ _ _ | .ffma .. => ffma _ _ _ _ _ _
  | .fdiv .. => fdiv _ _ _ _ _ | .fmin .. => fmin _ _ _ _ | .fmax .. => fmax _ _ _ _ | .fcmp .. => fcmp _ _ _ _ _
  | .fcvt .. => fcvt _ _ _ _ _ _ | .ld .. => ld _ _ _ _ _ | .st .. => st _ _ _ _ _ | .amo .. => amo _ _ _ _ _ _ _
  | .cas .. => cas _ _ _ _ _ _ | .fenceAcq .. => fenceAcq _ | .fenceRel .. => fenceRel _
  | .fenceFull .. => fenceFull _ | .vdrain .. => vdrain _ | .acquire .. => acquire _ _ | .release .. => release _ _
  | .bindr .. => bindr _ _ _ _ | .bindrUn .. => bindrUn _ _ | .tlwait .. => tlwait _ _ _ _
  | .tlread .. => tlread _ _ _ | .waita .. => waita _ _ _ _ _ _ | .cflush .. => cflush _ _
  | .cflushInv .. => cflushInv _ _ | .cinval .. => cinval _ _ | .br .. => br _ _ _ _ | .brnz .. => brnz _ _
  | .brz .. => brz _ _ | .j .. => j _ | .jExt .. => jExt _ | .jal .. => jal _ _ | .jalExt .. => jalExt _ _
  | .jr .. => jr _ _ _ | .loopbr .. => loopbr _ _ | .loopmarkWait .. => loopmarkWait _ _
  | .loopmarkAhead .. => loopmarkAhead _ _ _ _ _ | .rpstat .. => rpstat _ | .yield => yield | .bkpt => bkpt
  | .trmark .. => trmark _ _ | .spawn .. => spawn _ _ | .join .. => join _ _ _ | .joinLvl .. => joinLvl _ _
  | .tcancel .. => tcancel _ _ _ | .gang .. => gang _ _ _ | .tself .. => tself _ _ | .tend => tend
  | .setmt .. => setmt _ | .setnv .. => setnv _ | .setsb .. => setsb _ _ _ | .setseed .. => setseed _ _
  | .setvl .. => setvl _ _ _ | .mlogic .. => mlogic _ _ _ _ _ | .mpopc .. => mpopc _ _ _ | .mfirst .. => mfirst _ _ _
  | .vadd .. => vadd _ | .vsub .. => vsub _ | .vmul .. => vmul _ | .vmulh .. => vmulh _ | .vmulhr .. => vmulhr _
  | .vdiv .. => vdiv _ | .vrem .. => vrem _ | .vmin .. => vmin _ | .vmax .. => vmax _ | .vand .. => vand _
  | .vor .. => vor _ | .vxor .. => vxor _ | .vshl .. => vshl _ | .vshr .. => vshr _ | .vsra .. => vsra _
  | .vrshr .. => vrshr _ | .vabs .. => vabs _ | .vneg .. => vneg _ | .vsqrt .. => vsqrt _ | .vrsqrt .. => vrsqrt _
  | .vexp2 .. => vexp2 _ | .vfma .. => vfma _ | .vsel .. => vsel _ | .vclamp .. => vclamp _ | .vcmp .. => vcmp _ _
  | .vcvt .. => vcvt _ _ | .vbscale .. => vbscale _ | .vpackni .. => vpackni _ | .vunpkni .. => vunpkni _ _
  | .vmov .. => vmov _ _ | .vid .. => vid _ | .vext .. => vext _ | .vins .. => vins _ | .vslide .. => vslide _ _
  | .vperm .. => vperm _ | .vcompress .. => vcompress _ | .vred .. => vred _ _ | .vadds .. => vadds _ _ _
  | .vld .. => vld _ | .vst .. => vst _ | .vamo .. => vamo _ _ | .vbind .. => vbind _ _ | .vunbind .. => vunbind _
  | .vcommit .. => vcommit _ | .wset .. => wset _ _ _ | .mrow .. => mrow _ _ _ _ _ _ | .mrowv .. => mrowv _ _ _ _ _ _
  | .mkick .. => mkick _ | .mkickAll => mkickAll | .cpy .. => cpy _ _ _ _ _ _ _ | .cpy2d .. => cpy2d _ _ _ _ _ _ _
  | .xred .. => xred _ _ _ _ | .pkalloc .. => pkalloc _ _ _ _ | .pkenter .. => pkenter _ _ _
  | .pkcommit .. => pkcommit _ | .pkabort .. => pkabort _ | .pkstat .. => pkstat _ _ _ | .pkfree .. => pkfree _ _
  | .csrr .. => csrr _ _ | .csrw .. => csrw _ _ | .ecall .. => ecall _ | .eret => eret | .eretKill .. => eretKill _
  | .tlbinvVa .. => tlbinvVa _ _ _ _ | .tlbinvAsid .. => tlbinvAsid _ _ | .tlbinvAll .. => tlbinvAll _
  | .tlbinvWait .. => tlbinvWait _ _ | .asidsw .. => asidsw _ _ | .ctxsave .. => ctxsave _ _
  | .ctxload .. => ctxload _ _ | .biassetHost .. => biassetHost _ _ _ | .biassetDev .. => biassetDev _ _ _
  | .poisonclr .. => poisonclr _ _ | .pmigP4k .. => pmigP4k _ _ _ | .pmigP2m .. => pmigP2m _ _ _
  | .pmigRel .. => pmigRel _ _ _ | .vectorStart .. => vectorStart _ | .element .. => element _ _
  | .elementGroup .. => elementGroup _ | .streamPrefetch .. => streamPrefetch _ _
  | .loadDataArrival .. => loadDataArrival _ | .drain .. => drain _ | .register .. => register _
  | .evict .. => evict _ _ | .atomicStep .. => atomicStep _ | .raMessageArrival .. => raMessageArrival _
  | .pageWalk .. => pageWalk _ _ _ | .tlbinvComplete .. => tlbinvComplete _ | .l2TlbEviction .. => l2TlbEviction _ _
  | .illegalInstruction .. => illegalInstruction _ | .instructionFetchFault .. => instructionFetchFault _
  | .copyTransfer .. => copyTransfer _ _ | .copyFlagWrite .. => copyFlagWrite _ _ | .rowCapture .. => rowCapture _
  | .leash .. => leash _ _ | .groupAge .. => groupAge _ _ | .arrayTakeUp .. => arrayTakeUp _
  | .tileLoad .. => tileLoad _ | .rowEnter .. => rowEnter _ | .rowResult .. => rowResult _
  | .tileLatchError .. => tileLatchError _ | .rowError .. => rowError _ _ _
  | .landingComplete .. => landingComplete _ _ | .collectiveComplete .. => collectiveComplete _ _ _
  | .xredTimeout .. => xredTimeout _ _ | .millraceIteration .. => millraceIteration _ _
  | .replayComplete .. => replayComplete _ _ | .departure .. => departure _ _ | .taskPop .. => taskPop _
  | .agingMove .. => agingMove _ _ _ | .gangTimeout .. => gangTimeout _ _ | .cancelBroadcast .. => cancelBroadcast _
  | .doneContPush .. => doneContPush _ | .heldPush .. => heldPush _ | .leaseGrant .. => leaseGrant _
  | .gtoStarvation .. => gtoStarvation _ | .packCountArrival .. => packCountArrival _ | .packFlip .. => packFlip _
  | .packAbort .. => packAbort _ _ | .memberRestore .. => memberRestore _
  | .tentativeStoreArrival .. => tentativeStoreArrival _ | .nonmemberHoldExpiry .. => nonmemberHoldExpiry _
  | .packLifetimeExpiry .. => packLifetimeExpiry _ | .timer .. => timer _ | .watchdog .. => watchdog _
  | .waitaTimeout .. => waitaTimeout _ | .tlwaitTimeout .. => tlwaitTimeout _
  | .registerSoftError .. => registerSoftError _ _ _ _ _ | .laneRetired .. => laneRetired _ _ _ _
  | .agentFailure .. => agentFailure _ _ | .fatalError .. => fatalError _ _ _ | .sync .. => sync _
  | .sample .. => sample _ | .trctlWrite .. => trctlWrite _ _ | .preemptRequest .. => preemptRequest _
  | .partcoreWrite .. => partcoreWrite _ _ | .partitionChange .. => partitionChange _
  | .qringWrite .. => qringWrite _ _ _ _ _ | .queueMap .. => queueMap _ _ _ | .queueUnmap .. => queueUnmap _ _ _
  | .qsubmit .. => qsubmit _ _ | .mrreclaim .. => mrreclaim _ _ | .xgctlWrite .. => xgctlWrite _ _
  | .configRegisterWrite .. => configRegisterWrite _ _ _ | .notify .. => notify _ _
  | .hostMemRead .. => hostMemRead _ _ | .hostMemWrite .. => hostMemWrite _ _ _ | .hostSnoop .. => hostSnoop _ _
  | .snoopResponse .. => snoopResponse _ _ | .biasSnoopTimeout .. => biasSnoopTimeout _
  | .mailboxRecoveryImage .. => mailboxRecoveryImage _ _ | .mailboxDumpAddress .. => mailboxDumpAddress _
  | .mailboxBringupStatus => mailboxBringupStatus | .doeSpdmRequest .. => doeSpdmRequest _ | .bringUp .. => bringUp _
  | .flitReceive .. => flitReceive _ _ _ _ | .portLaneLoss .. => portLaneLoss _
  | .throttleEvaluation .. => throttleEvaluation _ _ | .throttleAnnouncement .. => throttleAnnouncement _ _ _
  | .throttleAck .. => throttleAck _ | .throttleEffect .. => throttleEffect _ | .leaderSilence .. => leaderSilence _
  | .hbmTempSample .. => hbmTempSample _ _ | .supplyDroop .. => supplyDroop _ | .stretchEnd .. => stretchEnd _
  | .thermalTrip .. => thermalTrip _ _ | .corePowerGating .. => corePowerGating _
  | .corePowerUngating .. => corePowerUngating _

end Laws.RoundTrip

/-- Settles O56: an instruction with an encoding is no event row, and for the others the round trip of each constructor is a
lemma of the codec. -/
theorem encodeThenDecode : Obligations.EncodeThenDecode := by
  unfold Obligations.EncodeThenDecode
  intro i wellFormed hasWords
  have row := Laws.RoundTrip.every i
  unfold Laws.RoundTrip.Statement at row
  split at row
  · exact absurd row hasWords
  · obtain ⟨-, it, decoded, named⟩ := row wellFormed
    exact ⟨it, decoded, named⟩

end Sys2Proof

/-! PROOF of IntegerResults and RegisterOnlyFrame: what the word operations compute, and the common shape of the instructions
that only write registers of their hart. -/

namespace Sys2Proof.Machine

/-! ## Word operations (R106, R297, R298, R328) -/

/-- The upper half of a signed product: the product of two sign-extended words is exact in 128 bits. -/
theorem mulhVal_signed (a b : Word) : mulhVal false a b = (a.signExtend 128 * b.signExtend 128).extractLsb' 64 64 := by
  have exact : ((a.signExtend 128 * b.signExtend 128).toNat : Int) = a.toInt * b.toInt % 2 ^ 128 := by
    rw [← BitVec.ofInt_toInt (x := a.signExtend 128), ← BitVec.ofInt_toInt (x := b.signExtend 128), ← BitVec.ofInt_mul,
      BitVec.toInt_signExtend_of_le (by decide), BitVec.toInt_signExtend_of_le (by decide), BitVec.toNat_ofInt]
    omega
  apply BitVec.eq_of_toNat_eq
  simp only [mulhVal, Bool.false_eq_true, if_false, BitVec.toNat_ofInt, BitVec.extractLsb'_toNat, Nat.shiftRight_eq_div_pow]
  generalize a.toInt * b.toInt = p at exact ⊢
  omega

theorem mulhVal_unsigned (a b : Word) : mulhVal true a b = (a.setWidth 128 * b.setWidth 128).extractLsb' 64 64 := by
  have small : a.toNat * b.toNat < 2 ^ 128 := (Nat.mul_lt_mul'' a.isLt b.isLt).trans_eq (Nat.pow_add 2 64 64).symm
  have fits (x : Word) : x.toNat % 2 ^ 128 = x.toNat := Nat.mod_eq_of_lt (x.isLt.trans (by decide))
  apply BitVec.eq_of_toNat_eq
  simp only [mulhVal, if_true, BitVec.toNat_ofNat, BitVec.extractLsb'_toNat, Nat.shiftRight_eq_div_pow, BitVec.toNat_mul,
    BitVec.toNat_setWidth, fits, Nat.mod_eq_of_lt small]

theorem divVal_signed (a b : Word) :
    divVal false a b = (if b = 0 then 0 else a.sdiv b, if b = 0 then 0x40 else 0) := by
  have quotient : BitVec.ofInt 64 (a.toInt.tdiv b.toInt) = a.sdiv b :=
    BitVec.eq_of_toInt_eq (by rw [BitVec.toInt_ofInt, BitVec.toInt_sdiv])
  unfold divVal
  split
  · rfl
  · simp [quotient]

theorem divVal_unsigned (a b : Word) :
    divVal true a b = (if b = 0 then 0 else a.udiv b, if b = 0 then 0x40 else 0) := by
  unfold divVal
  split <;> rfl

theorem remVal_signed (a b : Word) :
    remVal false a b = (if b = 0 then a else a.srem b, if b = 0 then 0x40 else 0) := by
  have remainder : BitVec.ofInt 64 (a.toInt.tmod b.toInt) = a.srem b := by
    rw [← BitVec.toInt_srem, BitVec.ofInt_toInt]
  unfold remVal
  split
  · rfl
  · simp [remainder]

theorem remVal_unsigned (a b : Word) :
    remVal true a b = (if b = 0 then a else a.umod b, if b = 0 then 0x40 else 0) := by
  unfold remVal
  split <;> rfl

/-! ## Bit counts (R298, R328) -/

/-- `topBit` finds the highest set bit below `n`. -/
theorem topBit_spec (x : Word) (n : Nat) :
    topBit x n ≤ n ∧ (∀ i, topBit x n ≤ i → i < n → x.getLsbD i = false) ∧
      (0 < topBit x n → x.getLsbD (topBit x n - 1) = true) := by
  induction n with
  | zero => exact ⟨Nat.le_refl 0, fun i _ h => absurd h (Nat.not_lt_zero i), fun h => absurd h (Nat.lt_irrefl 0)⟩
  | succ n ih =>
    obtain ⟨le, above, top⟩ := ih
    unfold topBit
    split
    · rename_i set
      exact ⟨Nat.le_refl _, fun i lo hi => by omega, fun _ => set⟩
    · rename_i clear
      refine ⟨by omega, fun i lo hi => ?_, top⟩
      by_cases last : i = n
      · simpa [last] using clear
      · exact above i lo (by omega)

/-- `lowZeros` counts the zero bits from bit `i` up. -/
theorem lowZeros_spec (x : Word) (i n : Nat) :
    lowZeros x i n ≤ n ∧ (∀ k, k < lowZeros x i n → x.getLsbD (i + k) = false) ∧
      (lowZeros x i n < n → x.getLsbD (i + lowZeros x i n) = true) := by
  induction n generalizing i with
  | zero => exact ⟨Nat.le_refl 0, fun k h => absurd h (Nat.not_lt_zero k), fun h => absurd h (Nat.lt_irrefl 0)⟩
  | succ n ih =>
    obtain ⟨le, zeros, one⟩ := ih (i + 1)
    unfold lowZeros
    split
    · rename_i set
      exact ⟨Nat.zero_le _, fun k h => absurd h (Nat.not_lt_zero k), fun _ => set⟩
    · rename_i clear
      refine ⟨by omega, fun k hk => ?_, fun h => ?_⟩
      · cases k with
        | zero => simpa using clear
        | succ k => simpa [Nat.add_assoc, Nat.add_comm 1 k] using zeros k (by omega)
      · simpa [Nat.add_assoc] using one (by omega)

/-- Adding up the bits counts the set ones. -/
theorem popcount_eq_length {n : Nat} (x : BitVec n) :
    popcount x = ((List.range n).filter fun i => x.getLsbD i).length := by
  have count (l : List Nat) (k : Nat) :
      l.foldl (fun k i => k + b2n (x.getLsbD i)) k = k + (l.filter fun i => x.getLsbD i).length := by
    induction l generalizing k with
    | nil => rfl
    | cons i l ih =>
      rw [List.foldl_cons, ih, List.filter_cons]
      cases x.getLsbD i
      · rfl
      · simp only [b2n, if_true, List.length_cons]
        omega
  simpa [popcount] using count (List.range n) 0

/-! ## The results (R297 to R299, R328, R329, R375) -/

/-- Completion of an instruction of any length that changes its hart alone. -/
theorem finishAt_setHart (s : State) (n : Nat) {y : Hart} (h : y.pc = s.me.pc) :
    finishAt s.cur n (.ok (s.setHart s.cur y)) = .next (s.done y n) := by
  simp only [finishAt, State.hart_setHart, h, State.retire_setHart, State.done_eq]

theorem registerArithmetic : Claims.RegisterArithmetic := by
  intro s d a b c sh x ra rb
  refine ⟨?add, ?sub, ?and, ?or, ?xor, ?shl, ?shr, ?sra, ?slt, ?sltu, ?min, ?minu, ?max, ?maxu, ?lea, ?sel, ?mov, ?nop⟩
  case nop => exact finish_self s
  all_goals exact s.onHart_done _ (Hart.wr_pc _ _ _)

theorem immediateArithmetic : Claims.ImmediateArithmetic := by
  intro s d a imm n v x ra k
  refine ⟨?addi, ?andi, ?ori, ?xori, ?slti, ?sltiu, ?shl, ?shr, ?sra, ?li, ?liExt⟩
  case liExt => exact finishAt_setHart s 16 (Hart.wr_pc _ _ _)
  all_goals exact s.onHart_done _ (Hart.wr_pc _ _ _)

theorem exec_mulh (u : Bool) (d a b : Reg) (s : State) :
    exec (.mulh u d a b) s = .next (s.done (s.me.wr d (mulhVal u (s.me.rd a) (s.me.rd b))) 8) :=
  s.onHart_done (hMulh u d a b) (Hart.wr_pc _ _ _)

theorem exec_div (u : Bool) (d a b : Reg) (s : State) : exec (.div u d a b) s =
    .next (s.done ((s.me.wr d (divVal u (s.me.rd a) (s.me.rd b)).1).orFlags (divVal u (s.me.rd a) (s.me.rd b)).2) 8) :=
  s.onHart_done (hDiv u d a b) (Hart.wr_pc _ _ _)

theorem exec_rem (u : Bool) (d a b : Reg) (s : State) : exec (.rem u d a b) s =
    .next (s.done ((s.me.wr d (remVal u (s.me.rd a) (s.me.rd b)).1).orFlags (remVal u (s.me.rd a) (s.me.rd b)).2) 8) :=
  s.onHart_done (hRem u d a b) (Hart.wr_pc _ _ _)

theorem multiplyDivide : Claims.MultiplyDivide := by
  intro s d a b x ra rb iz
  refine ⟨s.onHart_done _ (Hart.wr_pc _ _ _), ?mulh, ?mulhu, ?div, ?divu, ?rem, ?remu⟩
  case mulh => rw [exec_mulh, mulhVal_signed]
  case mulhu => rw [exec_mulh, mulhVal_unsigned]
  case div => rw [exec_div, divVal_signed]
  case divu => rw [exec_div, divVal_unsigned]
  case rem => rw [exec_rem, remVal_signed]
  case remu => rw [exec_rem, remVal_unsigned]

theorem bitCounts : Claims.BitCounts := by
  intro s d a x ra
  obtain ⟨topLe, clearAbove, topSet⟩ := topBit_spec ra 64
  obtain ⟨lowLe, clearBelow, lowSet⟩ := lowZeros_spec ra 0 64
  simp only [Nat.zero_add] at clearBelow lowSet
  refine ⟨⟨64 - topBit ra 64, by omega, s.onHart_wr d fun x => clz (x.rd a), fun i hi => ?_, fun h => ?_⟩,
    ⟨lowZeros ra 0 64, lowLe, s.onHart_wr d fun x => ctz (x.rd a), clearBelow, lowSet⟩, ?_⟩
  · by_cases inside : i < 64
    · exact clearAbove i (by omega) inside
    · exact BitVec.getLsbD_of_ge _ _ (by omega)
  · rw [show 63 - (64 - topBit ra 64) = topBit ra 64 - 1 by omega]
    exact topSet (by omega)
  · rw [← popcount_eq_length]
    exact s.onHart_wr d fun x => BitVec.ofNat 64 (popcount (x.rd a))

/-- Settles O1: each instruction is one write of its word operation, and the word operations are those of the statement. -/
theorem integerResults : Obligations.IntegerResults :=
  ⟨registerArithmetic, immediateArithmetic, multiplyDivide, bitCounts⟩

/-! ## The common shape of the register-only instructions (R297) -/

@[simp] theorem Hart.orFlags_zero (x : Hart) : x.orFlags 0 = x := by simp [Hart.orFlags]

/-- The hart of a register-only instruction of `len` bytes: one register is written and flags are ORed, none where the
instruction has no flag. -/
def WritesOne (i : Instr) (d : Reg) (s : State) : Prop :=
  ∃ v fl len, exec i s = .next (s.done ((s.me.wr d v).orFlags fl) len) ∧ (Claims.raisesFlag i = false → fl = 0)

theorem WritesOne.ofHart {s : State} {i : Instr} {d : Reg} {v : Word} {fl : FlagBits} (f : Hart → Hart)
    (h : exec i s = s.onHart f) (g : f s.me = (s.me.wr d v).orFlags fl) (r : Claims.raisesFlag i = false → fl = 0) :
    WritesOne i d s :=
  ⟨v, fl, 8, by rw [h, State.onHart_done s f (by rw [g]; exact Hart.wr_pc _ _ _), g], r⟩

theorem WritesOne.ofWr {s : State} {i : Instr} {d : Reg} {v : Word} (f : Hart → Hart)
    (h : exec i s = s.onHart f) (g : f s.me = s.me.wr d v) : WritesOne i d s :=
  .ofHart f h (g.trans (Hart.orFlags_zero _).symm) fun _ => rfl

theorem writesOne_of_registerOnly {i : Instr} {d : Reg} (s : State) (h : Claims.registerOnly i = some d) : WritesOne i d s := by
  cases i with
  | add | addi | and | andi | clz | ctz | lea | li | max | min | mul | mulh | or | ori | popc | sel | shl | shli | shr | slt
  | slti | sra | sub | xor | xori | mov => cases h; exact .ofWr _ rfl rfl
  | div | rem | fmin | fmax | fcmp => cases h; exact .ofHart _ rfl rfl nofun
  | liExt d v =>
    cases h
    exact ⟨v, 0, 16, by rw [Hart.orFlags_zero]; exact finishAt_setHart s 16 (Hart.wr_pc _ _ _), fun _ => rfl⟩
  | nop =>
    cases h
    exact ⟨0, 0, 8, by rw [Hart.wr_zero, Hart.orFlags_zero]; exact finish_self s, fun _ => rfl⟩
  | _ => cases h

/-- A write of one register and the flags leaves the rest of its hart. -/
theorem Hart.wr_orFlags_shape (x : Hart) (d : Reg) (v : Word) (fl : FlagBits) :
    ∃ regs bad f, (x.wr d v).orFlags fl = { x with s := regs, sbad := bad, fflags := f } := by
  unfold Hart.wr
  split <;> exact ⟨_, _, _, rfl⟩

theorem State.done_hart (s : State) (y : Hart) (n : Nat) :
    (s.done y n).hart s.cur = { y with pc := s.me.pc + BitVec.ofNat 64 n, wait := none } := getAt_putAt_self _ _ _ _

theorem State.done_hart_ne (s : State) (y : Hart) (n : Nat) {k : Nat} (h : k ≠ s.cur) : (s.done y n).hart k = s.hart k :=
  getAt_putAt_ne _ _ _ _ _ h.symm

/-- Settles O2: a register-only instruction ends in `State.done` of its hart with one register written and flags ORed. -/
theorem registerOnlyFrame : Obligations.RegisterOnlyFrame := by
  intro i d s t only ends
  obtain ⟨v, fl, len, done, noFlag⟩ := writesOne_of_registerOnly s only
  obtain rfl : s.done ((s.me.wr d v).orFlags fl) len = t := Host.Outcome.next.inj (done.symm.trans ends)
  obtain ⟨regs, bad, f, shape⟩ := s.me.wr_orFlags_shape d v fl
  refine ⟨fun r other => ?_, fun raises => ?_, ⟨regs, bad, f, s.me.pc + BitVec.ofNat 64 len, ?_⟩, fun k other => State.done_hart_ne _ _ _ other,
    fun c => rfl, fun n => rfl, fun a => rfl, rfl⟩
  · rw [State.done_hart]
    exact Hart.rd_wr_ne _ _ _ _ other.symm
  · rw [State.done_hart, noFlag raises, Hart.orFlags_zero]
    exact Hart.wr_fflags _ _ _
  · rw [State.done_hart, shape]

end Sys2Proof.Machine

/-! PROOF of FloatResults, NanResults and RoundingModes: a rounded operation is one write of its result and flags, a NaN operand
decides a result before any rounding, and each mode picks one of the two neighbours of the exact value. -/

namespace Sys2Proof.Machine

/-! ## Results of the scalar floating-point instructions (R317 to R319) -/

@[simp] theorem hFval_pc (d : Reg) (v : Val) (x : Hart) : (hFval d v x).pc = x.pc := Hart.wr_pc _ _ _

/-- A rounded operation under the mode in force. -/
theorem finish_effFround {s : State} {rm : Rm} {md : RMode} (mode : rmode rm s.me.frm false 0 = some md)
    (f : RMode → Hart → Hart) (h : (f md s.me).pc = s.me.pc) :
    finish s (effFround s rm f) = .next (s.done (f md s.me) 8) := by
  simp only [effFround, mode]
  exact finish_setHart s _ h

/-- A conversion under the mode in force. -/
theorem finish_effFcvt {s : State} {dst src : Ty} {rm : Rm} {md : RMode} (sat : Bool) (d a : Reg)
    (mode : rmode rm s.me.frm (dst != .f32) (srHash s.me.sb s.me.seed 0) = some md) :
    finish s (effFcvt dst src rm sat d a s) = .next (s.done (hFcvt dst src sat d a md s.me) 8) := by
  simp only [effFcvt, mode]
  exact finish_setHart s _ (Hart.wr_pc _ _ _)

/-- The relations of FCMP by the order of the operands (R318). -/
theorem fcmpVal_eq (t : FTy) (rel : FRel) (x y : Nat) : fcmpVal t rel x y =
    { bits := match rel, fcompare t x y with
        | .eq, some .eq | .lt, some .lt | .le, some .lt | .le, some .eq | .un, none => 1
        | _, _ => 0
      fl := if (fdec t x).isSig || (fdec t y).isSig then 0x10 else 0 } := by
  unfold fcmpVal
  generalize fcompare t x y = order
  cases rel <;> rcases order with _ | ⟨_ | _ | _⟩ <;> rfl

/-- Settles O3: each instruction ends in `State.done` of its operation on the hart. -/
theorem floatResults : Obligations.FloatResults := by
  intro s t rm d a b c md x bits put
  refine ⟨fun mode => ⟨?add, ?sub, ?mul, ?div, ?fma⟩, ?min, ?max, fun rel => ?cmp, fun dst src sat mode => ?cvt⟩
  case min => exact s.onHart_done _ (hFval_pc _ _ _)
  case max => exact s.onHart_done _ (hFval_pc _ _ _)
  case cmp =>
    refine (s.onHart_done (hFcmp t rel d a b) (hFval_pc _ _ _)).trans ?_
    rw [hFcmp, fcmpVal_eq]
    rfl
  case cvt => exact finish_effFcvt sat d a mode
  all_goals exact finish_effFround mode _ (hFval_pc _ _ _)

/-! ## NaN operands (R108) -/

/-- Flipping the sign does not touch what makes a NaN. -/
theorem fdec_fflip_isNan (f : FTy) (x : Nat) : (fdec f (fflip f x)).isNan = (fdec f x).isNan := by
  have fraction : fflip f x % 2 ^ (fprec f - 1) = x % 2 ^ (fprec f - 1) := by
    cases f <;> simp only [fflip, signBit, fprec, if_true] <;> split <;> omega
  have exponent : fflip f x / 2 ^ (fprec f - 1) % 256 = x / 2 ^ (fprec f - 1) % 256 := by
    cases f <;> simp only [fflip, signBit, fprec, if_true] <;> split <;> omega
  simp only [fdec, fraction, exponent]
  split
  · split <;> rfl
  · split <;> rfl

theorem FV.isSig_of_not_nan {v : FV} (h : v.isNan = false) : v.isSig = false := by
  cases v with
  | nan _ => cases h
  | inf _ | fin _ _ _ => rfl

section
variable (f : FTy) (md : RMode) {x y z : Nat}

theorem fadd_nan (h : (fdec f x).isNan = true ∨ (fdec f y).isNan = true) :
    fadd f md x y = nanVal f ((fdec f x).isSig || (fdec f y).isSig) := by
  unfold fadd
  cases hx : fdec f x with
  | nan _ => rfl
  | inf _ | fin _ _ _ =>
    cases hy : fdec f y with
    | nan _ => simp [FV.isSig]
    | inf _ | fin _ _ _ => simp [hx, hy, FV.isNan] at h

theorem fsub_nan (h : (fdec f x).isNan = true ∨ (fdec f y).isNan = true) :
    fsub f md x y = nanVal f ((fdec f x).isSig || (fdec f y).isSig) := by
  cases hy : (fdec f y).isNan with
  | true =>
    rw [← fadd_nan f md h]
    unfold fsub
    split
    · rfl
    · rename_i other
      cases v : fdec f y with
      | nan s => exact absurd v (other s)
      | inf _ | fin _ _ _ => simp [v, FV.isNan] at hy
  | false =>
    have quiet : (fdec f (fflip f y)).isNan = false := (fdec_fflip_isNan f y).trans hy
    have hx : (fdec f x).isNan = true := h.resolve_right (by simp [hy])
    rw [FV.isSig_of_not_nan hy, ← FV.isSig_of_not_nan quiet, ← fadd_nan f md (.inl hx)]
    unfold fsub
    split
    · rename_i s v
      simp [v, FV.isNan] at hy
    · rfl

theorem fmul_nan (h : (fdec f x).isNan = true ∨ (fdec f y).isNan = true) :
    fmul f md x y = nanVal f ((fdec f x).isSig || (fdec f y).isSig) := by
  unfold fmul
  cases hx : fdec f x with
  | nan _ => rfl
  | inf _ | fin _ _ _ =>
    cases hy : fdec f y with
    | nan _ => simp [FV.isSig]
    | inf _ | fin _ _ _ => simp [hx, hy, FV.isNan] at h

theorem fdiv_nan (h : (fdec f x).isNan = true ∨ (fdec f y).isNan = true) :
    fdiv f md x y = nanVal f ((fdec f x).isSig || (fdec f y).isSig) := by
  unfold fdiv
  cases hx : fdec f x with
  | nan _ => rfl
  | inf _ | fin _ _ _ =>
    cases hy : fdec f y with
    | nan _ => simp [FV.isSig]
    | inf _ | fin _ _ _ => simp [hx, hy, FV.isNan] at h

/-- The product of the operands is 0 × ∞. -/
def zeroTimesInf (a b : FV) : Bool := match a, b with
  | .inf _, .fin _ m _ => m == 0
  | .fin _ m _, .inf _ => m == 0
  | _, _ => false

theorem zeroTimesInf_eq (a b : FV) : zeroTimesInf a b = match a, b with
    | .inf _, .fin _ 0 _ | .fin _ 0 _, .inf _ => true
    | _, _ => false := by
  rcases a with _ | _ | ⟨_, _ | _, _⟩ <;> rcases b with _ | _ | ⟨_, _ | _, _⟩ <;> rfl

theorem ffma_nan (h : (fdec f x).isNan = true ∨ (fdec f y).isNan = true ∨ (fdec f z).isNan = true ∨
      zeroTimesInf (fdec f x) (fdec f y) = true) :
    ffma f md x y z = nanVal f ((fdec f x).isSig || (fdec f y).isSig || (fdec f z).isSig ||
      zeroTimesInf (fdec f x) (fdec f y)) := by
  show (if zeroTimesInf (fdec f x) (fdec f y) then nanVal f true
    else if (fdec f x).isNan || (fdec f y).isNan || (fdec f z).isNan then
      nanVal f ((fdec f x).isSig || (fdec f y).isSig || (fdec f z).isSig)
    else _) = _
  cases zi : zeroTimesInf (fdec f x) (fdec f y) with
  | true => simp
  | false =>
    have nan : ((fdec f x).isNan || (fdec f y).isNan || (fdec f z).isNan) = true := by
      simpa [zi, or_assoc] using h
    simp [nan]

end

/-- Settles O4: a NaN operand, and 0 × ∞ of FFMA, decide the result before any rounding. -/
theorem nanResults : Obligations.NanResults := by
  intro t md x y z nan sig res
  refine ⟨rfl, rfl, fun h => ⟨fadd_nan t md h, fsub_nan t md h, fmul_nan t md h, fdiv_nan t md h⟩, ?_⟩
  intro zeroInf h
  have zero : zeroInf = zeroTimesInf (fdec t x) (fdec t y) := (zeroTimesInf_eq _ _).symm
  rw [zero] at h ⊢
  exact ffma_nan t md h

/-! ## Rounding modes (R110) -/

theorem rmode_dyn (frm : BitVec 3) (sr : Bool) (h : Nat) : rmode .dyn frm sr h =
    if frm = 6 ∨ frm = 7 then none
    else if frm = 0 then rmode .rne frm sr h else if frm = 1 then rmode .rtz frm sr h
    else if frm = 2 then rmode .rup frm sr h else if frm = 3 then rmode .rdn frm sr h
    else if frm = 4 then rmode .rmm frm sr h else if sr then some (.sr h) else none := by
  have cases8 : ∀ f : BitVec 3, f = 0 ∨ f = 1 ∨ f = 2 ∨ f = 3 ∨ f = 4 ∨ f = 5 ∨ f = 6 ∨ f = 7 := by decide
  rcases cases8 frm with rfl | rfl | rfl | rfl | rfl | rfl | rfl | rfl <;> rfl

/-- A rounded operation with no mode in force is illegal. -/
theorem finish_effFround_none {s : State} {rm : Rm} (idle : s.me.queueIdle = true) (mode : rmode rm s.me.frm false 0 = none)
    (f : RMode → Hart → Hart) : finish s (effFround s rm f) = .next (s.trapped 1 s.me.iword) := by
  simp only [effFround, mode]
  exact finish_trapped s 1 _ idle

theorem roundingModeInForce : Claims.RoundingModeInForce :=
  ⟨fun frm sr h => ⟨rfl, rfl, rfl, rfl, rfl, rmode_dyn frm sr h⟩, fun _ _ _ _ _ _ _ idle mode =>
    ⟨finish_effFround_none idle mode _, finish_effFround_none idle mode _, finish_effFround_none idle mode _,
      finish_effFround_none idle mode _, finish_effFround_none idle mode _⟩⟩

theorem roundingDirections : Claims.RoundingDirections := by
  intro neg m s v
  have parts : m / 2 ^ s * 2 ^ s + m % 2 ^ s = m := by rw [Nat.mul_comm]; exact Nat.div_add_mod m (2 ^ s)
  have less : m % 2 ^ s < 2 ^ s := Nat.mod_lt _ (Nat.two_pow_pos s)
  have up : (m / 2 ^ s + 1) * 2 ^ s = m / 2 ^ s * 2 ^ s + 2 ^ s := Nat.succ_mul _ _
  simp only [v, roundShift, Bool.or_eq_true, Bool.and_eq_true, decide_eq_true_eq, beq_iff_eq, Bool.not_eq_true']
  generalize m / 2 ^ s = q at parts up ⊢
  generalize m % 2 ^ s = r at parts less ⊢
  generalize 2 ^ s = p at parts less up ⊢
  refine ⟨by omega, by omega, ?nearest, ?even, ?away, fun positive => ?up, fun negative => ?down⟩
  case nearest => split <;> omega
  case even => split <;> omega
  case away => split <;> omega
  case up =>
    subst positive
    split <;> simp_all
    omega
  case down =>
    subst negative
    split <;> simp_all
    omega

/-- Settles O5. -/
theorem roundingModes : Obligations.RoundingModes := ⟨roundingModeInForce, roundingDirections⟩

end Sys2Proof.Machine

/-! PROOF of ControlTransfers, ControlWords, ExampleWords and ResetState: the ends of branches and jumps, the place of a trace
record, and what stands in the state after reset. -/

namespace Sys2Proof.Machine

/-! ## Branches and jumps (R37, R308, R309, R323) -/

theorem finish_branch (taken : Bool) (target : Word) (s : State) :
    finish s (effBranch taken target s) = .next (if taken then s.jumped s.me target else s.done s.me 8) := by
  cases taken
  · exact finish_self s
  · rfl

theorem finishAt_jump_link {s : State} {len : Nat} {link : Reg} {target : Word} (aligned : target.toNat % 8 = 0) (n : Nat) :
    finishAt s.cur n (effJump link len target s) = .next (s.jumped (s.me.wr link (s.me.pc + BitVec.ofNat 64 len)) target) := by
  rw [effJump, if_neg (not_not.mpr aligned)]
  exact congrArg _ (s.retire_setHart _ target)

theorem finishAt_trapped (s : State) (n cause : Nat) (v : Word) (idle : s.me.queueIdle = true) :
    finishAt s.cur n (.trap s cause v) = .next (s.trapped cause v) := finish_trapped s cause v idle

theorem finishAt_jump_misaligned {s : State} {len : Nat} {link : Reg} {target : Word} (misaligned : target.toNat % 8 ≠ 0)
    (idle : s.me.queueIdle = true) (n : Nat) : finishAt s.cur n (effJump link len target s) = .next (s.trapped 3 target) := by
  rw [effJump, if_pos misaligned]
  exact finishAt_trapped s n 3 target idle

theorem branchesAndJumps : Claims.BranchesAndJumps := by
  intro s a b d disp imm off target x ra rb far near go
  have branch : ∀ c dest, finish s (effBranch c dest s) = go c dest := fun c dest => finish_branch c dest s
  refine ⟨branch _ _, ?ne, branch _ _, branch _ _, branch _ _, branch _ _, ?nz, branch _ _, rfl, ?jal,
    fun aligned => ⟨?jExt, finishAt_jump_link aligned 16⟩, fun aligned => finishAt_jump_link aligned 8⟩
  case ne => rw [decide_not]; exact branch _ _
  case nz => rw [decide_not]; exact branch _ _
  case jal => exact congrArg _ (s.retire_setHart _ far)
  case jExt => exact finishAt_jump_link aligned 16

theorem misalignedTarget : Claims.MisalignedTarget := fun _ _ _ _ _ idle =>
  ⟨fun misaligned => ⟨finishAt_jump_misaligned misaligned idle 16, finishAt_jump_misaligned misaligned idle 16⟩,
    fun misaligned => finishAt_jump_misaligned misaligned idle 8⟩

theorem loopBranch : Claims.LoopBranch := by
  intro s a disp x n
  refine ⟨fun named closed => ?_, fun idle => finish_trapped s 1 x.iword idle⟩
  have step : exec (.loopbr a disp) s = finish s (s.loopStep (x.wr a n) a disp) := by
    show finish s (effLoopbr a disp s) = _
    simp only [effLoopbr, if_neg named]
    rw [if_pos (by simp [show s.me.recording = false from closed])]
  have left : (x.wr a n).rd a = n := Hart.rd_wr_self _ _ _ named
  rw [step]
  constructor <;> intro h
  · rw [State.loopStep, left, if_neg h]
    exact congrArg _ (s.retire_setHart _ _)
  · rw [State.loopStep, left, if_pos h]
    exact ⟨_, finish_setHart s _ (Hart.wr_pc _ _ _)⟩

/-- Settles O6. -/
theorem controlTransfers : Obligations.ControlTransfers := ⟨branchesAndJumps, misalignedTarget, loopBranch⟩

/-! ## Trace records (R162) -/

theorem State.core_modCore (s : State) (c : Nat) (f : Core → Core) : (s.modCore c f).core c = f (s.core c) :=
  State.core_setCore _ _ _

/-- A write of the device that nothing holds. -/
theorem State.devPut_free_mem {s : State} {pa n : Nat} {bs : List Byte} (length : bs.length = n) (page : s.pageHeld pa = false)
    (pack : s.packHolds pa n = false) (host : s.hostWaits pa n = false) :
    (s.devPut pa bs).mem = (s.recallRange pa n).mem.writeN pa bs := by
  subst length
  rw [State.devPut, page, pack, host]
  rfl

/-- A kind that is not enabled writes no record. -/
theorem State.record_off {s : State} {c kind : Nat} (off : (s.core c).trace.enabled kind = false) (hart info : Nat) (w : Word) :
    s.record c kind hart info w = s := by simp [State.record, off]

/-- Where no LOST record goes first, a record is one placement. -/
theorem State.record_one {s : State} {c kind : Nat} (on : (s.core c).trace.enabled kind = true)
    (alone : ¬ ((s.core c).trace.enabled 6 = true ∧ 0 < (s.core c).trace.lost ∧
      (wbit (s.core c).trace.ctl 1 = true ∨ (s.core c).trace.head + 32 ≤ (s.core c).trace.size.toNat))) (hart info : Nat) (w : Word) :
    s.record c kind hart info w = s.tracePut c (traceWord kind hart info (s.core c).cycle) w := by
  have test : ((s.core c).trace.enabled 6 && decide (0 < (s.core c).trace.lost) &&
      (wbit (s.core c).trace.ctl 1 || decide ((s.core c).trace.head + 32 ≤ (s.core c).trace.size.toNat))) = false := by
    simpa [and_assoc] using alone
  simp [State.record, State.writeRecord, on, test]

/-- A ring that has no room for one record has none for two. -/
theorem Trace.full_alone {t : Trace} (full : t.room = false) (size : 16 ≤ t.size.toNat) :
    ¬ (wbit t.ctl 1 = true ∨ t.head + 32 ≤ t.size.toNat) := by
  have beyond : t.size.toNat < t.place + 16 := by simpa [Trace.room, size] using full
  cases wrap : wbit t.ctl 1
  · have : t.place = t.head := by simp [Trace.place, wrap]
    simp only [Bool.false_eq_true, false_or]
    omega
  · have : t.place = if t.size.toNat < t.head + 16 then 0 else t.head := by simp [Trace.place, wrap]
    split at this <;> omega

section
variable {s : State} {c : Nat} (size : 16 ≤ (s.core c).trace.size.toNat) (a b : Word)
include size

theorem State.tracePut_full (full : (s.core c).trace.room = false) :
    s.tracePut c a b = s.modCore c fun x => { x with trace := { (s.core c).trace with lost := (s.core c).trace.lost + 1 } } := by
  simp [State.tracePut, Nat.not_lt.mpr size, full]

theorem State.tracePut_room (room : (s.core c).trace.room = true) :
    s.tracePut c a b =
      (s.devPut ((s.core c).trace.base.toNat + (s.core c).trace.place) (leBytes 8 a.toNat ++ leBytes 8 b.toNat)).modCore c
        fun x => { x with trace := { (s.core c).trace with
          head := if wbit (s.core c).trace.ctl 1 && decide ((s.core c).trace.size.toNat ≤ (s.core c).trace.place + 16) then 0
            else (s.core c).trace.place + 16 } } := by
  simp [State.tracePut, Nat.not_lt.mpr size, room]

end

theorem traceWord_toNat (kind hart info cyc : Nat) (k : kind < 16) (h : hart < 8) (i : info < 512) :
    (traceWord kind hart info cyc).toNat = kind * 2 ^ 60 + hart * 2 ^ 57 + info * 2 ^ 48 + cyc % 2 ^ 48 := by
  have := Nat.mod_lt cyc (Nat.two_pow_pos 48)
  rw [traceWord, BitVec.toNat_ofNat, Nat.mod_eq_of_lt h, Nat.mod_eq_of_lt i, Nat.mod_eq_of_lt (by omega)]

theorem twoWords_length (a b : Nat) : (leBytes 8 a ++ leBytes 8 b).length = 16 := by
  rw [List.length_append, leBytes_length, leBytes_length]

/-- Two words laid out one after the other read back, and nothing else changes. -/
theorem Memory.write_two_words {m : Memory} (wf : m.wf = true) (at_ : Nat) (a b : Word) :
    let n := m.writeN at_ (leBytes 8 a.toNat ++ leBytes 8 b.toNat)
    n.readLe at_ 8 = a.toNat ∧ n.readLe (at_ + 8) 8 = b.toNat ∧ ∀ p, p < at_ ∨ at_ + 16 ≤ p → n.read p = m.read p := by
  intro n
  have split : n = (m.writeLe at_ 8 a.toNat).writeLe (at_ + 8) 8 b.toNat := by
    simp only [n, Memory.writeN_append, leBytes_length, Memory.writeLe]
  have wf' := Memory.wf_writeLe wf at_ 8 a.toNat
  refine ⟨?_, ?_, fun p out => ?_⟩
  · rw [split, Memory.readLe, Memory.writeLe, Memory.readN_writeN_ne wf' _ _ _ _ (.inl (by omega))]
    exact Memory.readLe_writeLe_of_lt wf _ _ _ a.isLt
  · rw [split]
    exact Memory.readLe_writeLe_of_lt wf' _ _ _ b.isLt
  · rw [split, Memory.read_writeLe_ne wf' _ _ _ _ (by omega), Memory.read_writeLe_ne wf _ _ _ _ (by omega)]

/-! ## YIELD, BKPT, TRMARK and RPSTAT (R98, R231, R257, R351) -/

theorem localHart_lt (h : Nat) : localHart h < 8 := by
  unfold localHart
  split <;> omega

/-- Completion of a change that leaves the harts. -/
theorem finish_harts {s t : State} (harts : t.harts = s.harts) :
    finish s (.ok t) = .next (t.retire s.cur (s.me.pc + 8)) ∧ (t.retire s.cur (s.me.pc + 8)).harts = (s.done s.me 8).harts := by
  have same : ∀ k, t.hart k = s.hart k := fun k => by rw [State.hart, harts, State.hart]
  refine ⟨finish_next_pc s t (by rw [same]; rfl), ?_⟩
  show putAt _ t.harts _ { t.hart s.cur with pc := _, wait := none } = _
  rw [harts, same]
  rfl

theorem yield_ends (s : State) : ∃ t, exec .yield s = .next t ∧ t.harts = (s.done s.me 8).harts ∧ t.mem = s.mem ∧
    t.dies = s.dies ∧ (t.core (coreOf s.cur)).hist.yielded = true ∧ ∀ c, c ≠ coreOf s.cur → t.core c = s.core c := by
  obtain ⟨next, harts⟩ := finish_harts (s := s) (t := s.endRun) rfl
  refine ⟨_, next, harts, rfl, rfl, ?_, fun c other => State.core_setCore_ne _ _ _ _ other.symm⟩
  show (s.endRun.core (coreOf s.cur)).hist.yielded = true
  rw [State.endRun, State.core_modCore]

/-- Settles O7. -/
theorem controlWords : Obligations.ControlWords := by
  intro s a d tag x
  have home := s.record_frame (coreOf s.cur) 4 (localHart s.cur) tag.toNat (s.me.rd a)
  obtain ⟨next, harts⟩ := finish_harts home.harts
  refine ⟨yield_ends s, fun idle => finish_trapped s 8 0 idle, ⟨_, next, harts, fun off => ?off, ?on⟩,
    finish_result s d x.mark.word, fun fresh => ?fresh⟩
  case off =>
    rw [State.record_off off]
    rfl
  case fresh =>
    rw [fresh]
    decide
  case on =>
    intro tr at_ y on size
    refine ⟨fun full => ?full, fun room noLost => ?room⟩
    case full =>
      have put := (State.record_one on (fun h => Trace.full_alone full size h.2.2) (localHart s.cur) tag.toNat (s.me.rd a)).trans
        (State.tracePut_full size _ _ full)
      have core : y = { tr with lost := tr.lost + 1 } := by
        show ((s.record _ _ _ _ _).core _).trace = _
        rw [put, State.core_modCore]
      refine ⟨?_, by rw [core], by rw [core]⟩
      show (s.record _ _ _ _ _).mem = _
      rw [put]
      rfl
    case room =>
      have alone : ¬ (tr.enabled 6 = true ∧ 0 < tr.lost ∧ (wbit tr.ctl 1 = true ∨ tr.head + 32 ≤ tr.size.toNat)) := by
        rintro ⟨lostOn, lost, -⟩
        rcases noLost with h | h
        · omega
        · rw [h] at lostOn; cases lostOn
      have put := (State.record_one on alone (localHart s.cur) tag.toNat (s.me.rd a)).trans (State.tracePut_room size _ _ room)
      have core : y = { tr with head := if wbit tr.ctl 1 && decide (tr.size.toNat ≤ tr.place + 16) then 0 else tr.place + 16 } := by
        show ((s.record _ _ _ _ _).core _).trace = _
        rw [put, State.core_modCore]
      refine ⟨by rw [core]; simp only [Bool.and_eq_true, decide_eq_true_eq], by rw [core], fun page pack host wf => ?_⟩
      have mem : (s.record (coreOf s.cur) 4 (localHart s.cur) tag.toNat (s.me.rd a)).mem =
          (s.recallRange at_ 16).mem.writeN at_ (leBytes 8 (traceWord 4 (localHart s.cur) tag.toNat
            (s.core (coreOf s.cur)).cycle).toNat ++ leBytes 8 (s.me.rd a).toNat) := by
        rw [put]
        exact State.devPut_free_mem (twoWords_length _ _) page pack host
      have words := Memory.write_two_words wf at_ (traceWord 4 (localHart s.cur) tag.toNat (s.core (coreOf s.cur)).cycle) (s.me.rd a)
      rw [← mem, traceWord_toNat 4 _ _ _ (by omega) (localHart_lt _) tag.isLt] at words
      exact words

/-! ## Fixed words and the state after reset -/

/-- Settles O55. -/
theorem exampleWords : Obligations.ExampleWords := by
  unfold Obligations.ExampleWords
  decide

theorem State.reset_harts_length : State.reset.harts.length = 1032 := by
  rw [show State.reset.harts = List.replicate 1024 Hart.reset ++ List.replicate 8 Hart.resetControl from rfl,
    List.length_append, List.length_replicate, List.length_replicate]

theorem State.reset_hart_compute {h : Nat} (compute : h < 1024) : State.reset.hart h = Hart.reset := by
  rw [State.hart, getAt_eq_getD]
  exact (List.getD_append _ _ _ _ (by rw [List.length_replicate]; exact compute)).trans (List.getD_replicate _ compute)

theorem State.reset_hart_control {h : Nat} (control : 1024 ≤ h) (below : h < 1032) : State.reset.hart h = Hart.resetControl := by
  rw [State.hart, getAt_eq_getD]
  refine (List.getD_append_right _ _ _ _ (by rw [List.length_replicate]; exact control)).trans (List.getD_replicate _ ?_)
  rw [List.length_replicate]
  omega

theorem Hart.reset_rd (r : Reg) : Hart.reset.rd r = 0 := by
  rw [Hart.rd, show Hart.reset.s = List.replicate 64 0 from rfl, getAt_replicate]
  split <;> rfl

/-- Settles O60. -/
theorem resetState : Obligations.ResetState := by
  unfold Obligations.ResetState
  intro s
  refine ⟨rfl, rfl, rfl, rfl, rfl, rfl, rfl, State.reset_harts_length, List.length_replicate .., rfl, fun h compute => ?_, fun h control below => ?_,
    fun h r => ?_, fun c => ?_⟩
  · rw [State.reset_hart_compute compute]
    exact ⟨rfl, rfl, rfl, rfl⟩
  · rw [State.reset_hart_control control below]
    rfl
  · by_cases compute : h < 1024
    · rw [State.reset_hart_compute compute, Hart.reset_rd]
    · by_cases below : h < 1032
      · rw [State.reset_hart_control (by omega) below]
        exact Hart.reset_rd r
      · have past : s.hart h = Hart.reset := by
          rw [State.hart, getAt_eq_getD]
          exact List.getD_eq_default _ _ (by rw [State.reset_harts_length]; omega)
        rw [past, Hart.reset_rd]
  · have core : s.core c = Core.reset := getAt_replicate _ _ _
    rw [core]
    exact ⟨rfl, rfl, rfl⟩

end Sys2Proof.Machine

/-! PROOF of StepRunsDecoded: from the word at the PC through fetch, issue and the order of moves to `exec`. -/

namespace Sys2Proof.Machine

/-! ## What the decoder's items say of the first word (R35 to R37) -/

section
variable {w : Word} (bs : List Byte)

theorem decode_reject {r : Reject} (e : decodeWord w = .reject r) : (decode (bytesOfWord w ++ bs)).1 = .reject r := by
  have long : ¬(bytesOfWord w ++ bs).length < 8 := by simp [bytesOfWord_length]
  simp only [decode, if_neg long, take_bytesOfWord, wordOfBytes_bytesOfWord, e]

theorem decode_needExt {mj : Major} {r : Reg} (e : decodeWord w = .needExt mj r) :
    (decode (bytesOfWord w ++ bs)).1 = if bs.length < 8 then .short else .instr (extended mj r (wordOfBytes (bs.take 8))) 16 := by
  have long : ¬(bytesOfWord w ++ bs).length < 8 := by simp [bytesOfWord_length]
  have short : (bytesOfWord w ++ bs).length < 16 ↔ bs.length < 8 := by simp [bytesOfWord_length]; omega
  simp only [decode, if_neg long, take_bytesOfWord, wordOfBytes_bytesOfWord, e, drop_bytesOfWord, short]
  exact apply_ite Prod.fst _ _ _

variable {bs}

theorem decodeWord_of_one {i : Instr} (h : (decode (bytesOfWord w ++ bs)).1 = .instr i 8) : decodeWord w = .one i := by
  cases e : decodeWord w with
  | one j => rw [decode_one e] at h; cases h; rfl
  | pair a b => rw [decode_pair e] at h; cases h
  | reject r => rw [decode_reject bs e] at h; cases h
  | needExt mj r => rw [decode_needExt bs e] at h; split at h <;> cases h

theorem decodeWord_of_pair {i j : Instr} (h : (decode (bytesOfWord w ++ bs)).1 = .pair i j) : decodeWord w = .pair i j := by
  cases e : decodeWord w with
  | one j => rw [decode_one e] at h; cases h
  | pair a b => rw [decode_pair e] at h; cases h; rfl
  | reject r => rw [decode_reject bs e] at h; cases h
  | needExt mj r => rw [decode_needExt bs e] at h; split at h <;> cases h

theorem decodeWord_of_long {x : Word} {i : Instr} (h : (decode (bytesOfWord w ++ bytesOfWord x)).1 = .instr i 16) :
    ∃ mj r, decodeWord w = .needExt mj r ∧ extended mj r x = i := by
  cases e : decodeWord w with
  | one j => rw [decode_one e] at h; cases h
  | pair a b => rw [decode_pair e] at h; cases h
  | reject r => rw [decode_reject _ e] at h; cases h
  | needExt mj r =>
    refine ⟨mj, r, rfl, ?_⟩
    rw [decode_needExt _ e, if_neg (by simp [bytesOfWord_length]), List.take_of_length_le (by simp [bytesOfWord_length]),
      wordOfBytes_bytesOfWord] at h
    cases h
    rfl

end

theorem not_forbidden {p : Priv} {w : Word} (allowed : p = .user → privilegedWord w = false) : ¬ ForbiddenWord p w := by
  rw [← forbiddenWord_iff]
  intro bad
  simp only [Bool.and_eq_true, decide_eq_true_eq] at bad
  rw [allowed bad.1] at bad
  cases bad.2

/-- The fetch of a word that decodes to an instruction, a pair or a long form. -/
theorem fetch_of_decode {s u : State} {h : Nat} {w : Word} (aligned : (s.hart h).pc.toNat % 8 = 0)
    (fetched : s.fetchWord h (s.hart h).pc = (u, .ok w)) (allowed : (s.hart h).priv = .user → privilegedWord w = false) :
    (∀ i, (decode (bytesOfWord w)).1 = .instr i 8 → fieldCause (s.hart h).priv (.one i) = none →
      s.fetchItem h = (u, .item (.instr i 8) w)) ∧
    (∀ i j, (decode (bytesOfWord w)).1 = .pair i j → s.fetchItem h = (u, .item (.pair i j) w)) ∧
    ∀ v x i, u.fetchWord h ((s.hart h).pc + 8) = (v, .ok x) → (decode (bytesOfWord w ++ bytesOfWord x)).1 = .instr i 16 →
      s.fetchItem h = (v, .item (.instr i 16) w) := by
  have check := fun {d : Decoded} (e : decodeWord w = d) => wordCheck_ok (not_forbidden allowed) e
  refine ⟨fun i one good => ?_, fun i j pair => ?_, fun v x i extension long => ?_⟩
  · rw [← List.append_nil (bytesOfWord w)] at one
    exact State.fetchItem_one aligned fetched (check (decodeWord_of_one one) nofun good)
  · rw [← List.append_nil (bytesOfWord w)] at pair
    exact State.fetchItem_pair aligned fetched (check (decodeWord_of_pair pair) nofun rfl)
  · obtain ⟨mj, r, e, rfl⟩ := decodeWord_of_long long
    exact State.fetchItem_ext aligned fetched (check e nofun rfl) extension

/-! ## Issue (R98, R99) -/

/-- With no unit that watches the PC, no breakpoint stops the word. -/
theorem State.breakAt_unwatched {s : State} {h : Nat} {pc : Word} {after : Bool} (none : s.watching h pc after = []) (w : Word) :
    s.breakAt h pc w after = (s, false) := by
  simp [State.breakAt, State.matching, none]

theorem State.first_issues {s : State} {h : Nat} {it : Item} {w : Word} (unheld : s.queueFirst h it = false)
    (unwatched : s.watching h (s.hart h).pc false = []) (sound : (s.hart h).readsError it = false) :
    s.first h it w = .issued ((s.begin h it w).run h it) := by
  simp only [State.first, unheld, State.breakAt_unwatched unwatched, ite_self, sound, Bool.false_and, Bool.false_eq_true,
    if_false]

theorem State.issueOne_issues {s u : State} {h : Nat} {it : Item} {w : Word} (fetched : s.fetchItem h = (u, .item it w))
    (unheld : u.queueFirst h it = false) (unwatched : u.watching h (u.hart h).pc false = [])
    (sound : (u.hart h).readsError it = false) : s.issueOne h = .issued ((u.begin h it w).run h it) := by
  simp only [State.issueOne, fetched, State.first_issues unheld unwatched sound]

/-- What an issue that came to `t` makes of the hart and its core. -/
theorem State.hasIssued_frame (s t : State) (h : Nat) :
    let r := s.hasIssued t h
    r.mem = t.mem ∧ r.dies = t.dies ∧ (∀ k, k ≠ h → r.hart k = t.hart k) ∧ (∀ k, k ≠ coreOf h → r.core k = t.core k) ∧
    (∃ b p, r.hart h = { t.hart h with gto := 0, progress := s.gtime, reported := false, passed := p, busy := b }) ∧
    ∃ hist, r.core (coreOf h) = { t.core (coreOf h) with issued := some (localHart h, (s.hart h).pc), hist := hist } :=
  ⟨rfl, rfl, fun _ other => State.hart_setHart_ne _ _ _ _ other.symm, fun _ other => State.core_setCore_ne _ _ _ _ other.symm,
    ⟨_, _, State.hart_setHart _ _ _⟩, ⟨_, State.core_setCore _ _ _⟩⟩

/-! ## The order of moves (log 3) -/

theorem step_agenda {s : State} {m : Move} {rest : List Move} (going : s.fatal = none) (agenda : s.agenda = m :: rest) :
    step s = State.move { s with agenda := rest } m := by
  unfold step
  rw [going, agenda]

theorem step_auto {s : State} (going : s.fatal = none) (agenda : s.agenda = []) : step s = s.auto := by
  unfold step
  rw [going, agenda]

theorem State.oldest_mem {s : State} {l : List Nat} {h : Nat} (e : s.oldest l = some h) : h ∈ l := by
  induction l with
  | nil => cases e
  | cons k ks ih =>
    unfold State.oldest at e
    split at e
    · rename_i j older
      split at e <;> cases e
      · exact List.mem_cons_of_mem _ (ih older)
      · exact List.mem_cons_self
    · cases e
      exact List.mem_cons_self

/-- A hart that its core selects is ready. -/
theorem State.select_ready {s : State} {c h : Nat} (e : s.select c = some h) : s.ready h = true := by
  have mem : h ∈ (hartsOf c).filter fun h => s.ready h && !s.stuck h := by
    unfold State.select at e
    generalize (hartsOf c).filter (fun h => s.ready h && !s.stuck h) = ready at e ⊢
    dsimp only at e
    split at e
    · unfold afterLast at e
      split at e
      · cases e
        exact List.mem_of_find?_eq_some ‹_›
      · exact List.mem_of_mem_head? e
    · unfold State.selectGto at e
      dsimp only at e
      split at e
      · cases e
        exact List.mem_of_mem_filter (State.oldest_mem ‹_›)
      · split at e
        · cases e
          exact List.mem_of_find?_eq_some ‹_›
        · split at e
          · cases e
            exact List.mem_of_mem_filter (State.oldest_mem ‹_›)
          · exact State.oldest_mem e
  simp only [List.mem_filter, Bool.and_eq_true] at mem
  exact mem.2.1

theorem State.ready_heldBack {s : State} {h : Nat} (e : s.ready h = true) : s.heldBack h = false := by
  simp only [State.ready, Bool.and_eq_true, Bool.not_eq_true'] at e
  exact e.2

/-- The agenda's issue of a hart that its core selects. -/
theorem State.askIssue_selected {s : State} {h : Nat} (quiet : s.boundary h = none) (going : (s.hart h).wait = none)
    (fresh : (s.core (coreOf h)).issued = none) (results : s.scoreboard h = false) (selected : s.select (coreOf h) = some h) :
    s.askIssue h = s.issue h := by
  have still : s.hartMove h = none := by simp [State.hartMove, quiet, Hart.looks, going]
  have unheld := State.ready_heldBack (State.select_ready selected)
  simp [State.askIssue, still, unheld, fresh, results, selected]

/-- The first number of a range that a search answers for. -/
theorem findSome?_range_first {α : Type} {f : Nat → Option α} {n k : Nat} {b : α} (inside : k < n)
    (before : ∀ j, j < k → f j = none) (found : f k = some b) : (List.range n).findSome? f = some b := by
  obtain ⟨m, rfl⟩ : ∃ m, n = k + 1 + m := ⟨n - (k + 1), by omega⟩
  have none : (List.range k).findSome? f = none :=
    List.findSome?_eq_none_iff.mpr fun j earlier => before j (List.mem_range.mp earlier)
  rw [List.range_add, List.range_succ, List.findSome?_append, List.findSome?_append, none]
  simp [found]

/-- The turn of the first core that has something to do, which is an issue. -/
theorem State.turn_issue {s : State} {k h : Nat} (inside : k < 136)
    (before : ∀ j, j < k → s.coreMove ((coreOf s.cur + j) % 136) = none)
    (quiet : ∀ q ∈ hartsOf ((coreOf s.cur + k) % 136), s.hartMove q = none)
    (fresh : (s.core ((coreOf s.cur + k) % 136)).issued = none) (selected : s.select ((coreOf s.cur + k) % 136) = some h)
    {t : State} (issues : s.issue h = .next t) :
    s.turn = some (.next { t with cur := nextCoreHart ((coreOf s.cur + k) % 136) }) := by
  have move : s.coreMove ((coreOf s.cur + k) % 136) = some (.next t) := by
    have none : (hartsOf ((coreOf s.cur + k) % 136)).findSome? (fun h => s.hartMove h) = none := List.findSome?_eq_none_iff.mpr quiet
    simp [State.coreMove, none, fresh, selected, issues]
  refine findSome?_range_first inside (fun j earlier => ?_) ?_
  · dsimp only
    rw [before j earlier]
    rfl
  · dsimp only
    rw [move]
    rfl

/-- Settles O54. -/
theorem stepRunsDecoded : Obligations.StepRunsDecoded := by
  refine ⟨fun s u h w i aligned fetched allowed => ?fetch, ?issue, State.hasIssued_frame, ?agenda, ?turn⟩
  case fetch =>
    obtain ⟨one, pair, long⟩ := fetch_of_decode aligned fetched allowed
    exact ⟨one i, fun j => pair i j, fun v x extension => long v x i extension⟩
  case issue =>
    intro s u h n w i s0 fetched unheld unwatched sound t runs
    have issues := State.issueOne_issues fetched unheld unwatched sound
    rw [show (u.begin h (.instr i n) w).run h (.instr i n) = .next t from runs] at issues
    refine ⟨fun free => ?_, fun pa k write waits => ?_⟩
    · simp only [State.issue, s0] at issues ⊢
      rw [issues]
      simp only [free]
    · simp only [State.issue, s0] at issues ⊢
      rw [issues]
      simp only [waits]
  case agenda =>
    intro s h rest going agenda s1 quiet ready fresh results selected
    exact (step_agenda going agenda).trans (State.askIssue_selected quiet ready fresh results selected)
  case turn =>
    intro s k h going agenda time inside before c quiet fresh selected t issues
    have turn := State.turn_issue inside before quiet fresh selected issues
    rw [step_auto going agenda]
    simp only [State.auto, if_neg time, turn]
    rfl

end Sys2Proof.Machine

/-! PROOF of InstructionsGoOn. -/

namespace Sys2Proof.Machine

/-- Settles O57: an instruction ends as `finish` of what its meaning comes to, and every end is a next state; rows without an
encoding are events. -/
theorem instructionsGoOn : Obligations.InstructionsGoOn := by
  intro i s words
  cases i with
  | add | addi | and | andi | bindrUn | clz | ctz | div | fcmp | fenceAcq | fmax | fmin | j | jal | lea
  | li | liExt | max | min | mov | mul | mulh | nop | or | ori | popc | rem | rpstat | sel | shl | shli | shr | slt |
  slti | sra | sub | tlread | trmark | tself | xor | xori | yield => exact ⟨_, rfl⟩
  | acquire | amo | asidsw | biassetDev | biassetHost | bindr | br | brnz | brz | cas | cflush | cflushInv | cinval |
  cpy | cpy2d | csrr | csrw | ctxload | ctxsave | eret | eretKill | fadd | fcvt | fdiv | fenceFull | fenceRel | ffma |
  fmul | fsub | gang | join | joinLvl | jr | ld | loopbr | loopmarkAhead | loopmarkWait | mfirst | mkick | mkickAll |
  mlogic | mpopc | mrow | mrowv | pkabort | pkalloc | pkcommit | pkenter | pkfree | pkstat | pmigP2m | pmigP4k |
  pmigRel | poisonclr | release | setmt | setnv | setsb | setseed | setvl | spawn | st | tcancel | tend | tlbinvAll |
  tlbinvAsid | tlbinvVa | tlbinvWait | tlwait | vabs | vadd | vadds | vamo | vand | vbind | vbscale | vclamp | vcmp |
  vcommit | vcompress | vcvt | vdiv | vdrain | vexp2 | vext | vfma | vid | vins | vld | vmax | vmin | vmov | vmul |
  vmulh | vmulhr | vneg | vor | vpackni | vperm | vred | vrem | vrshr | vrsqrt | vsel | vshl | vshr | vslide | vsqrt |
  vsra | vst | vsub | vunbind | vunpkni | vxor | waita | wset | xred => exact finish_next _ _
  | ecall code =>
    show ∃ t, execEcall code s = .next t
    unfold execEcall
    split <;> exact ⟨_, rfl⟩
  | bkpt => exact finish_next s (.trap s 8 0)
  | jExt | jalExt => exact finishAt_next _ _ _
  | _ => exact absurd rfl words

end Sys2Proof.Machine

/-! PROOF of AccessFaults and LocalLoadStore: the tests that LD, ST, AMO, CAS and WAITA make before any access, and the accesses
of the own A-space. -/

namespace Sys2Proof.Machine

/-! ## Tests before an access (R130, R132, R326, R347) -/

/-- Spaces C and W, which scalar instructions may not name (R325). -/
theorem barred_test {sp : Space} (barred : sp = .c ∨ sp = .w) : (decide (sp = .c) || decide (sp = .w)) = true := by
  simpa using barred

section
variable {s : State} {sp : Space} {va : Word}

theorem effLoad_misaligned {wd : LdW} (misaligned : va.toNat % ldBytes wd ≠ 0) (d : Reg) : effLoad s wd sp d va = .trap s 3 va :=
  if_pos misaligned

theorem effLoad_barred {wd : LdW} (aligned : va.toNat % ldBytes wd = 0) (barred : sp = .c ∨ sp = .w) (d : Reg) :
    effLoad s wd sp d va = .trap s 5 va :=
  (if_neg (not_not.mpr aligned)).trans (if_pos (barred_test barred))

theorem effStore_misaligned {wd : StW} (misaligned : va.toNat % stBytes wd ≠ 0) (v : Word) :
    effStore s wd sp v va = .trap s 3 va := if_pos misaligned

theorem effStore_barred {wd : StW} (aligned : va.toNat % stBytes wd = 0) (barred : sp = .c ∨ sp = .w) (v : Word) :
    effStore s wd sp v va = .trap s 5 va :=
  (if_neg (not_not.mpr aligned)).trans (if_pos (barred_test barred))

/-- The store buffer is empty and the core has a request free: an atomic goes on to its checks. -/
theorem atomic_test (drained : s.me.sbuf = []) (free : s.outstanding (coreOf s.cur) < Config.maxRequests) :
    ¬ (!s.me.sbuf.isEmpty || decide (Config.maxRequests ≤ s.outstanding (coreOf s.cur))) = true := by
  simpa [drained] using free

variable {op : AtomOp} {w32 posted : Bool} {d : Reg} {operand : Word} (drained : s.me.sbuf = [])
  (free : s.outstanding (coreOf s.cur) < Config.maxRequests)
include drained free

theorem effAtomic_misaligned (misaligned : va.toNat % (if w32 then 4 else 8) ≠ 0) :
    effAtomic op w32 posted sp d va operand s = .trap s 3 va :=
  (if_neg (atomic_test drained free)).trans (if_pos misaligned)

theorem effAtomic_barred (aligned : va.toNat % (if w32 then 4 else 8) = 0) (barred : sp = .c ∨ sp = .w) :
    effAtomic op w32 posted sp d va operand s = .trap s 5 va :=
  (if_neg (atomic_test drained free)).trans ((if_neg (not_not.mpr aligned)).trans (if_pos (barred_test barred)))

end

theorem finish_traps {s : State} {r : Res} {cause : Nat} {v : Word} (idle : s.me.queueIdle = true) (e : r = .trap s cause v) :
    finish s r = .next (s.trapped cause v) := e ▸ finish_trapped s cause v idle

/-- Settles O11. -/
theorem accessFaults : Obligations.AccessFaults := by
  intro s sp d a b c off op w32 post idle x va trap free atomicTraps
  refine ⟨fun wd misaligned => finish_traps idle (effLoad_misaligned misaligned d),
    fun wd misaligned => finish_traps idle (effStore_misaligned misaligned _),
    fun drained free misaligned => ⟨finish_traps idle (effAtomic_misaligned drained free misaligned),
      finish_traps idle (effAtomic_misaligned drained free misaligned)⟩,
    fun barred => ⟨fun wd aligned => finish_traps idle (effLoad_barred aligned barred d),
      fun wd aligned => finish_traps idle (effStore_barred aligned barred _),
      fun drained free aligned => ⟨finish_traps idle (effAtomic_barred drained free aligned barred),
        finish_traps idle (effAtomic_barred drained free aligned barred)⟩⟩,
    fun cond inA timeout misaligned => finish_traps idle (if_pos misaligned)⟩

/-! ## The own A-space (R132, R133) -/

theorem State.locate_own {s : State} {va : Word} {n : Nat} (inside : s.okA (coreOf s.cur) s.me.launch va.toNat n = true) (acc : Acc) :
    s.locate s.cur .a acc va n = (s, .at_ (.a (coreOf s.cur) va.toNat)) := by
  simp only [State.locate, Loc.if_]
  rw [show (s.hart s.cur).launch = s.me.launch from rfl, inside]
  rfl

/-- A load of the own A-space reads its bank. -/
theorem effLoad_own {s : State} {wd : LdW} {va : Word} (aligned : va.toNat % ldBytes wd = 0)
    (inside : s.okA (coreOf s.cur) s.me.launch va.toNat (ldBytes wd) = true) (d : Reg) :
    effLoad s wd .a d va = .ok (s.result d (ldExtend wd ((s.core (coreOf s.cur)).a.readLe va.toNat (ldBytes wd)))) := by
  simp [effLoad, aligned, State.locate_own inside]

/-- A store to the own A-space writes its bank. -/
theorem effStore_own {s : State} {wd : StW} {va : Word} (aligned : va.toNat % stBytes wd = 0)
    (inside : s.okA (coreOf s.cur) s.me.launch va.toNat (stBytes wd) = true) (v : Word) :
    effStore s wd .a v va = .ok ((s.modCore (coreOf s.cur) fun x => { x with
      a := x.a.writeN va.toNat (leBytes (stBytes wd) v.toNat) }).noteWrite none (aKey (coreOf s.cur) va.toNat) (stBytes wd)) := by
  simp [effStore, aligned, State.locate_own inside]

/-- What a write of the own bank makes of the package. -/
theorem bank_write_ends {s : State} {off : Nat} {bs : List Byte} (wf : (s.core (coreOf s.cur)).a.wf = true) (key n : Nat) :
    ∃ t, finish s (.ok ((s.modCore (coreOf s.cur) fun x => { x with a := x.a.writeN off bs }).noteWrite none key n)) = .next t ∧
      t.harts = (s.done s.me 8).harts ∧ (t.core (coreOf s.cur)).a.readN off bs.length = bs ∧
      (∀ p, p < off ∨ off + bs.length ≤ p → (t.core (coreOf s.cur)).a.read p = (s.core (coreOf s.cur)).a.read p) ∧
      (∃ m, t.core (coreOf s.cur) = { s.core (coreOf s.cur) with a := m }) ∧
      (∀ k, k ≠ coreOf s.cur → t.core k = s.core k) ∧ t.mem = s.mem ∧ t.regs = s.regs ∧ t.atoms = s.atoms ∧ t.ras = s.ras := by
  obtain ⟨next, harts⟩ := finish_harts (s := s)
    (t := (s.modCore (coreOf s.cur) fun x => { x with a := x.a.writeN off bs }).noteWrite none key n) rfl
  have core : (((s.modCore (coreOf s.cur) fun x => { x with a := x.a.writeN off bs }).noteWrite none key n).retire s.cur
      (s.me.pc + 8)).core (coreOf s.cur) = { s.core (coreOf s.cur) with a := (s.core (coreOf s.cur)).a.writeN off bs } :=
    State.core_setCore s (coreOf s.cur) _
  refine ⟨_, next, harts, ?_, fun p out => ?_, ⟨_, core⟩, fun k other => State.core_setCore_ne _ _ _ _ other.symm,
    rfl, rfl, rfl, rfl⟩
  · rw [core]
    exact Memory.readN_writeN_self wf off bs
  · rw [core]
    exact (Memory.read_writeN wf off p bs).trans (if_neg (by omega))

/-- Settles O8. -/
theorem localLoadStore : Obligations.LocalLoadStore := by
  intro s d a off x c va bank ld st
  have loads : ∀ wd, ld wd (ldBytes wd) (ldExtend wd) := fun wd aligned inside =>
    (congrArg (finish s) (effLoad_own aligned inside d)).trans (finish_result s d _)
  have stores : ∀ wd, st wd (stBytes wd) := fun wd aligned inside wf => by
    have ends := bank_write_ends (off := va.toNat) (bs := leBytes (stBytes wd) (x.rd d).toNat) wf (aKey c va.toNat) (stBytes wd)
    rw [leBytes_length, ← effStore_own aligned inside] at ends
    exact ends
  exact ⟨loads .b, loads .bu, loads .h, loads .hu, loads .w, loads .wu, loads .d, stores .b, stores .h, stores .w, stores .d⟩

end Sys2Proof.Machine

/-! PROOF of GlobalAccess and RemoteAccess: what a located load or store of G-space comes to, and the messages to another
core's A-space with their arrival. -/

namespace Sys2Proof.Machine

/-! ## Ends of a meaning at a state that a translation has changed -/

theorem finish_of_cur {s v : State} (cur : v.cur = s.cur) (r : Res) : finish s r = finish v r := by
  rw [finish, finish, cur]

theorem finish_result_of {s v : State} (cur : v.cur = s.cur) (d : Reg) (x : Word) :
    finish s (.ok (v.result d x)) = .next (v.done (v.me.wr d x) 8) := by
  rw [finish_of_cur cur, finish_result]

theorem finish_setHart_of {s v : State} (cur : v.cur = s.cur) {y : Hart} (pc : y.pc = v.me.pc) :
    finish s (.ok (v.setHart v.cur y)) = .next (v.done y 8) := by
  rw [finish_of_cur cur, finish_setHart v y pc]

theorem State.locate_g {s : State} {sp : Space} (global : sp = .g ∨ sp = .dflt) (h : Nat) (acc : Acc) (va : Word) (n : Nat) :
    s.locate h sp acc va n = s.locate h .g acc va n := by
  rcases global with rfl | rfl <;> rfl

theorem global_test {sp : Space} (global : sp = .g ∨ sp = .dflt) : (decide (sp = .c) || decide (sp = .w)) = false := by
  rcases global with rfl | rfl <;> rfl

theorem State.fillLine_frame (s : State) (c line : Nat) : HomeFrame s (s.fillLine c line) := by
  unfold State.fillLine
  split
  · exact .refl s
  · exact (s.roomL1_frame _ _).trans (State.modCore_frame _ _ _)

/-! ## Loads of G-space (R168, R187, R277, R326) -/

section
variable {u : State} {h pa n : Nat} {m : BitVec 2} {arrived : Bool} {va : Word} (outside : (u.hart h).member = none)
  (unheld : (u.flipping pa || u.heldStore pa n || u.postedTo h pa n) = false)
include outside unheld

/-- A load outside a pack region that nothing holds goes by the page's mode. -/
theorem State.loadG_mode : u.loadG h arrived va pa n m =
    if bypasses u pa m then u.loadHome h arrived pa n m else u.loadCached h arrived va pa n m := by
  simp only [State.loadG, outside, unheld, Bool.false_eq_true, if_false]

theorem State.loadG_home (bypass : bypasses u pa m = true) (drained : (u.hart h).sbuf = [])
    (uncached : m = 2 → u.atomUncached h = false ∧ (u.hart h).elemUncached = false)
    (noCopy : (u.hostBias pa && u.hostHolds pa) = false) (here : arrived = true) (sound : poisoned u.bad pa n = false) :
    u.loadG h arrived va pa n m = .val u (u.homeBytes pa n) := by
  have order : (m == 2 && (u.atomUncached h || (u.hart h).elemUncached)) = false := by
    rw [Bool.and_eq_false_imp, beq_iff_eq]
    intro e
    rw [(uncached e).1, (uncached e).2, Bool.or_false]
  rw [State.loadG_mode outside unheld, if_pos bypass]
  simp only [State.loadHome, drained, List.isEmpty_nil, Bool.not_true, Bool.false_or, order, noCopy, here, sound, Bool.false_eq_true,
    if_false]

variable (cached : bypasses u pa m = false)
include cached

theorem State.loadG_forwarded {bs : List Byte} (covered : forward (u.hart h).sbuf pa n = .all bs) :
    u.loadG h arrived va pa n m = .val u bs := by
  rw [State.loadG_mode outside unheld, cached]
  simp [State.loadCached, covered]

variable (uncovered : forward (u.hart h).sbuf pa n = .none)
include uncovered

theorem State.loadG_line {l : ULine} (untracked : m = 1) (line : (u.core (coreOf h)).uline (pa / 64) = some l)
    (sound : l.poisoned pa n = false) : u.loadG h arrived va pa n m = .val u ((l.data.drop (pa % 64)).take n) := by
  rw [State.loadG_mode outside unheld, cached]
  simp [State.loadCached, uncovered, untracked, line, sound]

theorem State.loadG_lineMiss (untracked : m = 1) (line : (u.core (coreOf h)).uline (pa / 64) = none) (here : arrived = true)
    (sound : poisoned u.bad pa n = false) : u.loadG h arrived va pa n m =
      .val (u.fillLine (coreOf h) (pa / 64)) ((u.fillLine (coreOf h) (pa / 64)).mem.readN pa n) := by
  rw [State.loadG_mode outside unheld, cached]
  simp [State.loadCached, uncovered, untracked, line, here, sound]

theorem State.loadG_hit (tracked : m ≠ 1) (hit : (u.core (coreOf h)).l1has pa n = true)
    (sound : u.l1Bad (coreOf h) pa n = false) : u.loadG h arrived va pa n m = .val u (u.l1Bytes (coreOf h) pa n) := by
  rw [State.loadG_mode outside unheld, cached]
  simp only [State.loadCached, uncovered, if_neg tracked, hit, sound, Bool.false_eq_true, if_false, if_true]

theorem State.loadG_miss (tracked : m ≠ 1) (miss : (u.core (coreOf h)).l1has pa n = false)
    (landed : u.inFlight (coreOf h) pa n = false) (here : arrived = true) (sound : u.l1Bad (coreOf h) pa n = false) :
    u.loadG h arrived va pa n m = .val (u.fill (coreOf h) va pa n) (u.l1Bytes (coreOf h) pa n) := by
  rw [State.loadG_mode outside unheld, cached]
  simp only [State.loadCached, uncovered, if_neg tracked, miss, landed, here, sound, Bool.not_true, Bool.false_eq_true, if_false]

end

/-- A located load of G-space whose data are there. -/
theorem effLoad_g {s u v : State} {wd : LdW} {sp : Space} {va : Word} {pa : Nat} {m : BitVec 2} {bs : List Byte}
    (global : sp = .g ∨ sp = .dflt) (aligned : va.toNat % ldBytes wd = 0)
    (located : s.locate s.cur .g .load va (ldBytes wd) = (u, .at_ (.g pa m))) (memory : inCtrl pa = false)
    (value : u.loadG s.cur (u.hart s.cur).arrived va pa (ldBytes wd) m = .val v bs) (d : Reg) :
    effLoad s wd sp d va = .ok (v.result d (ldExtend wd (leNat bs))) := by
  simp [effLoad, aligned, global_test global, State.locate_g global, located, memory, value]

theorem globalLoad : Claims.GlobalLoad := by
  intro s u wd sp d a off pa m c n va loads global aligned located memory outside unheld
  have cur : u.cur = s.cur := by
    have := s.locate_cur s.cur .g .load va n
    rwa [located] at this
  have me : u.me = u.hart s.cur := by rw [State.me, cur]
  have ends : ∀ {v : State} {bs : List Byte}, v.cur = s.cur →
      u.loadG s.cur (u.hart s.cur).arrived va pa n m = .val v bs → loads v bs := fun same value =>
    (congrArg (finish s) (effLoad_g global aligned located memory value d)).trans (finish_result_of same d _)
  rw [me] at outside ⊢
  refine ⟨cur, fun bypass drained uncached noCopy here sound =>
      ends cur (State.loadG_home outside unheld bypass drained uncached noCopy here sound),
    fun cached bs covered => ends cur (State.loadG_forwarded outside unheld cached covered),
    fun cached uncovered => ⟨fun untracked => ⟨fun l line sound => ?_, fun line here sound => ?_⟩,
      fun tracked => ⟨fun hit sound => ?_, fun miss landed here sound => ?_⟩⟩⟩
  · exact ends cur (State.loadG_line outside unheld cached uncovered untracked line sound)
  · exact ends ((u.fillLine_frame c (pa / 64)).cur.trans cur)
      (State.loadG_lineMiss outside unheld cached uncovered untracked line here sound)
  · exact ends cur (State.loadG_hit outside unheld cached uncovered tracked hit sound)
  · exact ends ((u.fill_frame c va pa n).cur.trans cur)
      (State.loadG_miss outside unheld cached uncovered tracked miss landed here sound)

/-! ## Stores to G-space (R168, R347) -/

/-- A located store of G-space outside every pack joins the store buffer. -/
theorem effStore_g {s u : State} {wd : StW} {sp : Space} {va : Word} {pa : Nat} {m : BitVec 2}
    (global : sp = .g ∨ sp = .dflt) (aligned : va.toNat % stBytes wd = 0)
    (located : s.locate s.cur .g .store va (stBytes wd) = (u, .at_ (.g pa m))) (memory : inCtrl pa = false)
    (object : u.inPackObject pa (stBytes wd) = false) (outside : (u.hart s.cur).member = none)
    (uncached : m = 2 → (u.hart s.cur).elemUncached = false) (v : Word) :
    effStore s wd sp v va = .ok (u.setHart s.cur { u.hart s.cur with sbuf := (u.hart s.cur).sbuf ++
      [{ va := va, pa := pa, pbmt := m, data := leBytes (stBytes wd) v.toNat, iword := (u.hart s.cur).iword }] }) := by
  have order : (m == 2 && (u.hart s.cur).elemUncached) = false := by
    rw [Bool.and_eq_false_imp, beq_iff_eq]
    exact uncached
  simp only [effStore, aligned, not_true, ne_eq, global_test global, State.locate_g global, located, memory, object, State.storeG,
    outside, order, Bool.false_eq_true, if_false]
  rfl

theorem globalStore : Claims.GlobalStore := by
  intro s u wd sp d a off pa m n va global aligned located memory object outside uncached
  have cur : u.cur = s.cur := by
    have := s.locate_cur s.cur .g .store va n
    rwa [located] at this
  have me : u.me = u.hart s.cur := by rw [State.me, cur]
  rw [me] at outside uncached ⊢
  refine ⟨cur, (congrArg (finish s) (effStore_g global aligned located memory object outside uncached (s.me.rd d))).trans ?_⟩
  rw [← cur]
  exact finish_setHart_of cur rfl

/-- Settles O9. -/
theorem globalAccess : Obligations.GlobalAccess := ⟨globalLoad, globalStore⟩

/-! ## Another core's A-space (R134, R326, R347) -/

section
variable {s : State} {tc pos : Nat} {va : Word} (elsewhere : tc ≠ coreOf s.cur) (free : s.requestFree s.cur = true)
include elsewhere free

theorem effStore_remote {wd : StW} (aligned : va.toNat % stBytes wd = 0)
    (located : s.locate s.cur .ra .store va (stBytes wd) = (s, .at_ (.a tc pos))) (v : Word) :
    effStore s wd .ra v va =
      .ok (s.sendRa { seq := 0, hart := s.cur, core := tc, off := pos, load := none, data := leBytes (stBytes wd) v.toNat }) := by
  simp [effStore, aligned, located, elsewhere, free]

theorem effLoad_remote {wd : LdW} (aligned : va.toNat % ldBytes wd = 0)
    (located : s.locate s.cur .ra .load va (ldBytes wd) = (s, .at_ (.a tc pos))) (d : Reg) :
    effLoad s wd .ra d va =
      .stall ((s.sendRa { seq := 0, hart := s.cur, core := tc, off := pos, load := some (wd, d), data := [] }).waitRa s.cur) := by
  simp [effLoad, aligned, located, elsewhere, free]

end

/-- A message uses a bank and changes no byte of one. -/
theorem State.useBank_a (s : State) (p : Place) (j : Nat) : ((s.useBank p).core j).a = (s.core j).a := by
  cases p with
  | phys pa => rfl
  | aspace c off =>
    by_cases same : c = j
    · subst same
      have used := congrArg Core.a (s.core_modCore c fun x => { x with bankUse := .a c off :: x.bankUse })
      exact used
    · exact congrArg Core.a (State.core_setCore_ne _ _ _ _ same)

section
variable {s : State} {k : Nat} {m : RaMsg} (message : s.ras[k]? = some m)
  (first : s.sentFirst m.seq m.hart (.aspace m.core m.off) 8 false = true)
include message first

/-- A store's message writes its bytes of the bank. -/
theorem exec_raMessageArrival_store (store : m.load = none) :
    ∃ t, exec (.raMessageArrival k) s = .next t ∧ t.ras = s.ras.eraseIdx k ∧ t.mem = s.mem ∧
      (t.core m.core).a = (s.core m.core).a.writeN m.off m.data ∧ t.harts = s.harts := by
  let u := ({ s with ras := s.ras.eraseIdx k } : State).useBank (.aspace m.core m.off)
  let t := (u.modCore m.core fun x => { x with a := x.a.writeN m.off m.data }).noteWrite none (aKey m.core m.off) m.data.length
  have arrives : s.arriveRa k = some t := by
    simp only [State.arriveRa, message, first, store]
    rfl
  refine ⟨t.happen, ?_, rfl, rfl, ?_, rfl⟩
  · show execRaMessageArrival k s = _
    rw [execRaMessageArrival, arrives]
    rfl
  · have written := congrArg Core.a (u.core_modCore m.core fun x => { x with a := x.a.writeN m.off m.data })
    rw [State.useBank_a] at written
    exact written

/-- A load's message gives the value to its hart, which goes on. -/
theorem exec_raMessageArrival_load {wd : LdW} {d : Reg} (load : m.load = some (wd, d)) :
    ∃ t, exec (.raMessageArrival k) s = .next t ∧ t.ras = s.ras.eraseIdx k ∧ t.mem = s.mem ∧
      (t.hart m.hart).rd d = (if d = 0 then 0 else ldExtend wd ((s.core m.core).a.readLe m.off (ldBytes wd))) ∧
      (t.hart m.hart).pc = (s.hart m.hart).pc + 8 ∧ (t.hart m.hart).wait = none ∧ ∀ j, (t.core j).a = (s.core j).a := by
  let u := ({ s with ras := s.ras.eraseIdx k } : State).useBank (.aspace m.core m.off)
  let y := (s.hart m.hart).wr d (ldExtend wd ((u.core m.core).a.readLe m.off (ldBytes wd)))
  let t := (u.setHart m.hart y).retire m.hart (y.pc + 8)
  have arrives : s.arriveRa k = some t := by
    simp only [State.arriveRa, message, first, load, t, y, State.modHart, State.hart_setHart]
    rfl
  have hart : t.hart m.hart = { y with pc := y.pc + 8, wait := none } := by
    simp only [t, State.retire_hart, State.hart_setHart]
  refine ⟨t.happen, ?_, rfl, rfl, ?_⟩
  · show execRaMessageArrival k s = _
    rw [execRaMessageArrival, arrives]
    rfl
  · rw [show t.happen.hart m.hart = t.hart m.hart from rfl, hart]
    refine ⟨?_, congrArg (· + 8) (Hart.wr_pc _ _ _), rfl, State.useBank_a _ _⟩
    show y.rd d = _
    rw [Hart.rd_wr, State.useBank_a]
    by_cases zero : d = 0
    · rw [if_neg (fun h => h.2 zero), if_pos zero, zero]
      rfl
    · rw [if_pos ⟨rfl, zero⟩, if_neg zero]
      rfl

end

/-- A hart that waits for a message stands where it did. -/
theorem State.waitRa_markWait (s : State) (h : Nat) : ((s.waitRa h).markWait h).hart h =
    { s.hart h with
      wait := some { kind := .ra, epoch := s.epoch, deadline := none, expired := false, stage := 0, arg := 0 } } := by
  simp only [State.markWait, State.waitRa, State.modHart, State.hart_setHart]
  rfl

/-- Settles O10. -/
theorem remoteAccess : Obligations.RemoteAccess := by
  refine ⟨?store, ?load, fun s k m message first => ?arrival⟩
  case store =>
    intro s wd d a off tc pos va aligned located elsewhere free
    exact (congrArg (finish s) (effStore_remote elsewhere free aligned located (s.me.rd d))).trans rfl
  case load =>
    intro s wd d a off tc pos va aligned located elsewhere free
    have waits := State.waitRa_markWait
      (s.sendRa { seq := 0, hart := s.cur, core := tc, off := pos, load := some (wd, d), data := [] }) s.cur
    refine ⟨_, congrArg (finish s) (effLoad_remote elsewhere free aligned located d), rfl, ?_, ?_, ?_⟩
    · exact (congrArg Hart.pc waits).trans rfl
    · exact (congrArg Hart.s waits).trans rfl
    · exact (congrArg (fun x : Hart => x.wait.map fun w => w.kind) waits).trans rfl
  case arrival =>
    cases kind : m.load with
    | none => exact exec_raMessageArrival_store message first kind
    | some l => exact exec_raMessageArrival_load message first kind

end Sys2Proof.Machine

/-! PROOF of AtomicOperations: an atomic step on the own bank, its way to the unit of a word, and its arrival there. Recalls act on
what the homes keep alone, so they commute with a change of anything else. -/

namespace Sys2Proof.Machine

/-! ## Recalls act on what the homes keep (R139, R185) -/

/-- `t` with the memory, the poison, the cores, the tables and the repair map of `s`. -/
def State.overlay (s t : State) : State :=
  { t with mem := s.mem, bad := s.bad, cores := s.cores, tables := s.tables, repair := s.repair }

theorem foldl_overlay {α : Type} {f : State → α → State} (h : ∀ a s t, f (s.overlay t) a = (f s a).overlay t) (l : List α)
    (s t : State) : l.foldl f (s.overlay t) = (l.foldl f s).overlay t :=
  List.foldl_hom (fun u : State => u.overlay t) fun u a => h a u t

section
variable (s t : State)

theorem State.overlay_ownerOf (w : Nat) : (s.overlay t).ownerOf w = s.ownerOf w := rfl
theorem State.overlay_table (pa : Nat) : (s.overlay t).table pa = s.table pa := rfl

theorem State.writeBack_overlay (w : Nat) : (s.overlay t).writeBack w = (s.writeBack w).overlay t := by
  unfold State.writeBack
  rw [State.overlay_ownerOf]
  split
  · rfl
  · rfl

theorem State.recallEntry_overlay (pa : Nat) (e : RangeEntry) :
    (s.overlay t).recallEntry pa e = (s.recallEntry pa e).overlay t := by
  have back := foldl_overlay (fun w s t => State.writeBack_overlay s t w) e.words s t
  simp only [State.recallEntry, back]
  rfl

theorem State.makeRoom_overlay (pa n k : Nat) : (s.overlay t).makeRoom pa n k = (s.makeRoom pa n k).overlay t := by
  induction k generalizing s with
  | zero => rfl
  | succ k ih =>
    unfold State.makeRoom
    rw [State.overlay_table]
    split
    · rfl
    · split
      · rfl
      · rw [State.recallEntry_overlay, ih]

theorem State.leaveTable_overlay (w : Nat) : (s.overlay t).leaveTable w = (s.leaveTable w).overlay t := by
  simp only [State.leaveTable, State.overlay_table, State.makeRoom_overlay]
  rfl

theorem State.recall_overlay (w : Nat) : (s.overlay t).recall w = (s.recall w).overlay t := by
  unfold State.recall
  rw [State.overlay_ownerOf]
  split
  · rw [State.writeBack_overlay, State.leaveTable_overlay]
  · rfl

theorem State.recallRange_overlay (pa n : Nat) : (s.overlay t).recallRange pa n = (s.recallRange pa n).overlay t :=
  foldl_overlay (fun w s t => State.recall_overlay s t w) _ s t

end

/-- Recalls at a state that differs in nothing the homes keep. -/
theorem State.recallRange_of_overlay {s t : State} (same : s.overlay t = t) (pa n : Nat) :
    t.recallRange pa n = (s.recallRange pa n).overlay t := by
  rw [← State.recallRange_overlay, same]

/-! ## What an atomic writes and returns (R300, R301, R302) -/

theorem tyInt_signed {t : Ty} (signed : t.isSigned = true) (v : Nat) :
    tyInt t v = if v < 2 ^ (tyBits t - 1) then (v : Int) else v - 2 ^ tyBits t := by
  simp only [tyInt, signed, Bool.true_and, decide_eq_true_eq, ← not_lt, ite_not, Nat.cast_pow, Nat.cast_ofNat]

/-- A word of `n` bytes as the signed number that `amoResult` compares. -/
theorem tyInt_word {n : Nat} (width : n = 4 ∨ n = 8) (v : Nat) : tyInt (if n = 4 then .i32 else .i64) v =
    if v < 2 ^ (8 * n - 1) then (v : Int) else v - 2 ^ (8 * n) := by
  rcases width with rfl | rfl
  · exact tyInt_signed rfl v
  · exact tyInt_signed rfl v

theorem tyInt_unsigned (n v : Nat) : tyInt (if n = 4 then .u32 else .u64) v = v := by
  split <;> rfl

theorem ite_lt {p : Prop} [Decidable p] {a b c : Nat} (ha : a < c) (hb : b < c) : (if p then a else b) < c := by
  split <;> assumption

/-- The new value of each operation. -/
theorem amoApply_result {op : AmoOp} {n old b : Nat} (width : n = 4 ∨ n = 8) (float : op = .fadd → n = 4)
    (oldSmall : old < 2 ^ (8 * n)) (small : b < 2 ^ (8 * n)) :
    (amoApply op n old b).bits % 2 ^ (8 * n) = Claims.amoResult op n old b := by
  cases op
  case fadd => rw [float rfl]; rfl
  case swap => exact Nat.mod_eq_of_lt small
  case add => exact Nat.mod_mod _ _
  case and => exact Nat.mod_eq_of_lt (Nat.and_lt_two_pow _ small)
  case or => exact Nat.mod_eq_of_lt (Nat.or_lt_two_pow oldSmall small)
  case xor => exact Nat.mod_eq_of_lt (Nat.xor_lt_two_pow oldSmall small)
  all_goals simp only [amoApply, Claims.amoResult, Val.pure, tyInt_word width, tyInt_unsigned, Nat.cast_lt]
  case min | minu => exact Nat.mod_eq_of_lt (ite_lt oldSmall small)
  case max | maxu => exact Nat.mod_eq_of_lt (ite_lt small oldSmall)

theorem amoApply_flags (op : AmoOp) (n old b : Nat) :
    (amoApply op n old b).fl = if op = .fadd then (fadd .f32 .rne old b).fl else 0 := by
  cases op <;> rfl

/-! ## An atomic step on a bank (R139) -/

/-- What an atomic leaves in a word of `n` bytes that holds `old`. -/
def AtomOp.leaves (op : AtomOp) (n old operand : Nat) : Nat := match op.apply n old operand with
  | some v => v.bits % 2 ^ (8 * n)
  | none => old

/-- The flags an atomic raises. -/
def AtomOp.flags (op : AtomOp) (n old operand : Nat) : FlagBits := match op.apply n old operand with
  | some v => v.fl
  | none => 0

theorem AtomOp.leaves_amo {op : AmoOp} {n old b : Nat} (width : n = 4 ∨ n = 8) (float : op = .fadd → n = 4)
    (oldSmall : old < 2 ^ (8 * n)) (small : b < 2 ^ (8 * n)) :
    (AtomOp.amo op).leaves n old b = Claims.amoResult op n old b := amoApply_result width float oldSmall small

theorem AtomOp.leaves_cas {e : Word} {n old b : Nat} (small : b < 2 ^ (8 * n)) :
    (AtomOp.cas e).leaves n old b = if old = e.toNat % 2 ^ (8 * n) then b else old := by
  simp only [AtomOp.leaves, AtomOp.apply]
  split
  · rename_i v equal
    split at equal <;> cases equal
    rw [if_pos ‹_›]
    exact Nat.mod_eq_of_lt small
  · rename_i unequal
    split at unequal <;> cases unequal
    rw [if_neg ‹_›]

theorem AtomOp.flags_cas (e : Word) (n old b : Nat) : (AtomOp.cas e).flags n old b = 0 := by
  simp only [AtomOp.flags, AtomOp.apply]
  split
  · rename_i v equal
    split at equal <;> cases equal
    rfl
  · rfl

/-- `t` is `s` but for the bank of core `c`, whose `n` bytes at `off` hold `new`, and what notes a write. -/
structure BankWrite (s t : State) (c off n new : Nat) : Prop where
  harts : t.harts = s.harts
  value : (t.core c).a.readLe off n = new
  others : ∀ p, (p < off ∨ off + n ≤ p) → (t.core c).a.read p = (s.core c).a.read p
  core : ∃ m, t.core c = { s.core c with a := m }
  cores : ∀ k, k ≠ c → t.core k = s.core k
  mem : t.mem = s.mem

theorem pow256 (n : Nat) : 256 ^ n = 2 ^ (8 * n) := by rw [Nat.pow_mul]

/-- An atomic step at a bank delivers the old value and writes its new one. -/
theorem State.atomicAt_bank {s : State} {c off n : Nat} (wf : (s.core c).a.wf = true) (issuer : Nat) (op : AtomOp) (operand : Nat) :
    let old := (s.core c).a.readLe off n
    let r := s.atomicAt issuer (.aspace c off) n op operand
    r.1 = old ∧ r.2.1 = op.flags n old operand ∧ BankWrite s r.2.2 c off n (op.leaves n old operand) := by
  intro old r
  cases applied : op.apply n old operand with
  | none =>
    have step : r = (old, 0, s.happen) := by simp only [r, State.atomicAt, old, applied]
    rw [step]
    refine ⟨rfl, by simp only [AtomOp.flags, applied], ⟨rfl, ?_, fun p out => rfl, ⟨_, rfl⟩, fun k other => rfl, rfl⟩⟩
    simp only [AtomOp.leaves, applied]
    rfl
  | some v =>
    let t := s.modCore c fun x => { x with a := x.a.writeLe off n v.bits }
    have step : r = (old, v.fl, (t.noteWrite none (aKey c off) n).happen) := by
      simp only [r, State.atomicAt]; rw [applied]
    have core : t.core c = { s.core c with a := (s.core c).a.writeLe off n v.bits } := State.core_setCore _ _ _
    rw [step]
    refine ⟨rfl, by simp only [AtomOp.flags, applied],
      ⟨rfl, ?_, fun p out => ?_, ⟨_, core⟩, fun k other => State.core_setCore_ne _ _ _ _ other.symm, rfl⟩⟩
    · simp only [AtomOp.leaves, applied, ← pow256]
      show (t.core c).a.readLe off n = _
      rw [core]
      exact Memory.readLe_writeLe wf off n v.bits
    · show (t.core c).a.read p = _
      rw [core]
      exact Memory.read_writeLe_ne wf off n v.bits p out

/-- An atomic on the own bank ends with its value delivered. -/
theorem effAtomic_own {s : State} {va : Word} {w32 : Bool} (drained : s.me.sbuf = [])
    (free : s.outstanding (coreOf s.cur) < Config.maxRequests) (aligned : va.toNat % (if w32 then 4 else 8) = 0)
    (inside : s.okA (coreOf s.cur) s.me.launch va.toNat (if w32 then 4 else 8) = true) (op : AtomOp) (posted : Bool) (d : Reg)
    (operand : Word) : effAtomic op w32 posted .a d va operand s =
      let n := if w32 then 4 else 8
      let r := s.atomicAt (coreOf s.cur) (.aspace (coreOf s.cur) va.toNat) n op (operand.toNat % 2 ^ (8 * n))
      .ok (r.2.2.atomValue s.cur op n posted d r.1 r.2.1) := by
  refine (if_neg (atomic_test drained free)).trans ((if_neg (not_not.mpr aligned)).trans ((if_neg (by decide)).trans ?_))
  rw [State.locate_own inside]
  simp

/-- The hart after an atomic that delivers `old`. -/
def Hart.atomDone (x : Hart) (op : AtomOp) (n : Nat) (posted : Bool) (d : Reg) (old : Nat) (f : FlagBits) : Hart :=
  (if posted then x else x.wr d (op.result n old)).atomFlags posted f

theorem Hart.atomDone_pc (x : Hart) (op : AtomOp) (n : Nat) (posted : Bool) (d : Reg) (old : Nat) (f : FlagBits) :
    (x.atomDone op n posted d old f).pc = x.pc := by
  cases posted
  · exact Hart.wr_pc _ _ _
  · rfl

theorem Hart.atomDone_fetched (x : Hart) (op : AtomOp) (n : Nat) (d : Reg) (old : Nat) (f : FlagBits) :
    x.atomDone op n false d old f = (x.wr d (op.result n old)).orFlags f := rfl

/-- Completion of an instruction that has left the harts and then changes its own. -/
theorem finish_modHart_harts {s t : State} (harts : t.harts = s.harts) (f : Hart → Hart) (pc : (f s.me).pc = s.me.pc) :
    finish s (.ok (t.modHart s.cur f)) = .next ((t.modHart s.cur f).retire s.cur (s.me.pc + 8)) ∧
      ((t.modHart s.cur f).retire s.cur (s.me.pc + 8)).harts = (s.done (f s.me) 8).harts := by
  have hart : t.hart s.cur = s.me := by rw [State.hart, harts]; rfl
  refine ⟨finish_next_pc s _ (by rw [State.modHart, State.hart_setHart, hart, pc]), ?_⟩
  simp only [State.retire, State.modHart, State.hart_setHart, State.setHart_setHart, hart]
  show putAt _ t.harts _ _ = _
  rw [harts]
  rfl

theorem localAtomics : Claims.LocalAtomics := by
  intro s d a b e w32 x c n off bank old ext becomes drained free aligned inside wf operand
  have width : n = 4 ∨ n = 8 := by cases w32 <;> simp [n]
  have small : ∀ r, operand r < 2 ^ (8 * n) := fun r => Nat.mod_lt _ (Nat.two_pow_pos _)
  have oldSmall : old < 2 ^ (8 * n) := pow256 n ▸ Memory.readLe_lt bank off n
  have ends : ∀ (op : AtomOp) (posted : Bool) (r : Reg), ∃ t, finish s (effAtomic op w32 posted .a d (x.rd a) (x.rd r) s) = .next t ∧
      becomes t (x.atomDone op n posted d old (op.flags n old (operand r))) (op.leaves n old (operand r)) := by
    intro op posted r
    obtain ⟨value, flags, bankWrite⟩ := State.atomicAt_bank (off := off) (n := n) wf c op (operand r)
    obtain ⟨next, harts⟩ := finish_modHart_harts bankWrite.harts
      (fun y => y.atomDone op n posted d old (op.flags n old (operand r))) (Hart.atomDone_pc _ _ _ _ _ _ _)
    refine ⟨_, ?_, harts, bankWrite.value, bankWrite.others, bankWrite.core, bankWrite.cores, bankWrite.mem⟩
    refine Eq.trans ?_ next
    rw [effAtomic_own drained free aligned inside]
    show finish s (.ok (State.atomValue _ s.cur op n posted d _ _)) = _
    rw [value, flags]
    rfl
  have delivered : (if n = 4 then sext64 (BitVec.ofNat 32 old) else BitVec.ofNat 64 old) = ext := by cases w32 <;> rfl
  refine ⟨fun op float => ?_, ?_⟩
  · have float4 : op = .fadd → n = 4 := fun e => by simp only [n, float e, if_true]
    have leaves := AtomOp.leaves_amo (op := op) width float4 oldSmall (small b)
    have flags : (AtomOp.amo op).flags n old (operand b) = if op = .fadd then (fadd .f32 .rne old (operand b)).fl else 0 :=
      amoApply_flags op n old (operand b)
    have result : (AtomOp.amo op).result n old = if op = .fadd then BitVec.ofNat 64 old else ext := by
      rw [← delivered]
      cases op <;> rfl
    constructor
    · obtain ⟨t, next, done⟩ := ends (.amo op) false b
      rw [leaves, flags, Hart.atomDone_fetched, result] at done
      exact ⟨t, next, done⟩
    · obtain ⟨t, next, done⟩ := ends (.amo op) true b
      rw [leaves, flags] at done
      exact ⟨t, next, done⟩
  · obtain ⟨t, next, done⟩ := ends (.cas (x.rd b)) false e
    have result : (AtomOp.cas (x.rd b)).result n old = ext := delivered
    rw [AtomOp.flags_cas, AtomOp.leaves_cas (small e), Hart.atomDone_fetched, result, Hart.orFlags_zero] at done
    exact ⟨t, next, done⟩

/-! ## The way to a word's unit (R139, R301, R302) -/

/-- An atomic of G-space outside every pack leaves for the unit of its word. -/
theorem effAtomic_g {s u : State} {sp : Space} {w32 : Bool} {va : Word} {pa : Nat} {m : BitVec 2}
    (global : sp = .g ∨ sp = .dflt) (drained : s.me.sbuf = []) (free : s.outstanding (coreOf s.cur) < Config.maxRequests)
    (outside : s.me.member = none) (uncached : m = 2 → s.me.elemUncached = false)
    (aligned : va.toNat % (if w32 then 4 else 8) = 0)
    (located : s.locate s.cur .g .store va (if w32 then 4 else 8) = (u, .at_ (.g pa m))) (memory : inCtrl pa = false)
    (object : u.inPackObject pa (if w32 then 4 else 8) = false) (op : AtomOp) (posted : Bool) (d : Reg) (operand : Word) :
    effAtomic op w32 posted sp d va operand s =
      u.sendAtomic { seq := 0, hart := s.cur, op := op, bytes := if w32 then 4 else 8, sgn := true, place := .phys pa, pbmt := m
                     va := va, operand := BitVec.ofNat 64 (operand.toNat % 2 ^ (8 * if w32 then 4 else 8)), posted := posted
                     d := d, arrived := none } := by
  have order : (m == 2 && s.me.elemUncached) = false := by
    rw [Bool.and_eq_false_imp, beq_iff_eq]
    exact uncached
  refine (if_neg (atomic_test drained free)).trans ((if_neg (not_not.mpr aligned)).trans
    ((if_neg (by simp [global_test global])).trans ?_))
  simp only [State.locate_g global, located, memory, object, outside, order, Bool.or_self, Bool.false_eq_true, if_false]

/-! ## Its arrival there (R139, R168) -/

/-- An atomic step at a word's home delivers the old value and writes the new one. -/
theorem State.atomicAt_phys (s : State) (issuer pa n : Nat) (op : AtomOp) (operand : Nat) :
    let u := s.recallRange pa n
    let r := s.atomicAt issuer (.phys pa) n op operand
    r.1 = u.mem.readLe pa n ∧ r.2.2.mem = match op.apply n (u.mem.readLe pa n) operand with
      | some v => u.mem.writeLe pa n v.bits
      | none => u.mem := by
  intro u r
  cases applied : op.apply n (u.mem.readLe pa n) operand with
  | none =>
    have step : r = (u.mem.readLe pa n, 0, (u.modCore issuer fun x => (wordsOf pa n).foldl (fun x w => x.l1drop w) x).happen) := by
      simp only [r, State.atomicAt]
      rw [show op.apply n (((s.recallRange pa n).modCore issuer fun x => (wordsOf pa n).foldl (fun x w => x.l1drop w) x).mem.readLe
        pa n) operand = none from applied]
      rfl
    rw [step]
    exact ⟨rfl, rfl⟩
  | some v =>
    have step : r.1 = u.mem.readLe pa n ∧ r.2.2.mem = u.mem.writeLe pa n v.bits := by
      simp only [r, State.atomicAt]
      rw [show op.apply n (((s.recallRange pa n).modCore issuer fun x => (wordsOf pa n).foldl (fun x w => x.l1drop w) x).mem.readLe
        pa n) operand = some v from applied]
      exact ⟨rfl, rfl⟩
    exact step

/-- The hart of an atomic that has been performed, and the harts' other registers. -/
theorem State.endAtomic_ends (s : State) (a : Atomic) (old : Nat) (f : FlagBits) :
    let v := s.endAtomic a old f
    v.atoms = s.atoms ∧ v.mem = s.mem ∧
    (a.posted = false → (v.hart a.hart).wait = none ∧ (v.hart a.hart).pc = (s.hart a.hart).pc + 8 ∧
      (a.d ≠ 0 → (v.hart a.hart).rd a.d = a.op.result a.bytes old)) ∧
    ∀ r, r ≠ a.d ∨ a.posted = true → (v.hart a.hart).rd r = (s.hart a.hart).rd r := by
  cases posted : a.posted with
  | false =>
    have hart : (s.endAtomic a old f).hart a.hart =
        { ((s.hart a.hart).wr a.d (a.op.result a.bytes old)).orFlags f with pc := (s.hart a.hart).pc + 8, wait := none } := by
      simp only [State.endAtomic, posted, Bool.false_eq_true, if_false, State.retire_hart, State.atomValue, State.modHart,
        State.hart_setHart, Hart.atomFlags]
      exact congrArg (fun pc : Word => ({ ((s.hart a.hart).wr a.d (a.op.result a.bytes old)).orFlags f with
        pc := pc + 8, wait := none } : Hart)) (Hart.wr_pc _ _ _)
    refine ⟨?_, ?_, fun _ => ?_, fun r other => ?_⟩
    · simp only [State.endAtomic, posted]; rfl
    · simp only [State.endAtomic, posted]; rfl
    · rw [hart]
      exact ⟨rfl, rfl, fun named => Hart.rd_wr_self _ _ _ named⟩
    · rw [hart]
      exact Hart.rd_wr_ne _ _ _ _ (by simpa [eq_comm] using other)
  | true =>
    refine ⟨?_, ?_, nofun, fun r _ => ?_⟩
    all_goals simp only [State.endAtomic, posted, if_true, State.atomValue, State.modHart, State.hart_setHart]
    all_goals rfl

section
variable {s : State} {k : Nat} {a : Atomic} {pa : Nat} (sent : s.atoms[k]? = some a) (place : a.place = .phys pa)
  (first : s.sentFirst a.seq a.hart a.place a.bytes (a.pbmt == 2) = true) (noSnoop : (s.atomSnoop a.place).isNone = true)
  (ready : s.atomReady (coreOf a.hart) a.place a.bytes = true) (sound : s.atomPoison a = false)
include sent place first noSnoop ready sound

/-- ATOMIC_STEP of an atomic that nothing holds is the step at its home and the end of its instruction. -/
theorem State.stepAtomic_phys : s.stepAtomic k =
    let r := ({ s with atoms := s.atoms.eraseIdx k } : State).atomicAt (coreOf a.hart) (.phys pa) a.bytes a.op a.operand.toNat
    some (r.2.2.endAtomic a r.1 r.2.1) := by
  have unsnooped : s.atomSnoop a.place = none := Option.isNone_iff_eq_none.mp noSnoop
  have sound' : State.atomPoison (({ s with atoms := s.atoms.eraseIdx k } : State).useBank (.phys pa)) a = false := sound
  rw [place] at first ready unsnooped
  simp only [State.stepAtomic, sent, place, first, unsnooped, ready, sound, Bool.not_true, Bool.false_and, Bool.or_self,
    Bool.false_eq_true, if_false, sound']
  rfl

end

/-- Settles O12. -/
theorem atomicOperations : Obligations.AtomicOperations := by
  refine ⟨localAtomics, ?sending, ?arrival⟩
  case sending =>
    intro s u op sp d a b e w32 pa m n va sent global drained free outside uncached aligned located memory object
    have cur : u.cur = s.cur := by
      have := s.locate_cur s.cur .g .store va n
      rwa [located] at this
    have sends := effAtomic_g global drained free outside uncached aligned located memory object
    refine ⟨(congrArg (finish s) (sends (.amo op) true d (s.me.rd b))).trans ?_,
      (congrArg (finish s) (sends (.amo op) false d (s.me.rd b))).trans rfl,
      (congrArg (finish s) (sends (.cas (s.me.rd b)) false d (s.me.rd e))).trans rfl⟩
    exact (finish_of_cur cur _).trans (finish_self (sent (.amo op) b true))
  case arrival =>
    intro s k t pa sent place first noSnoop ready sound u old
    let s' : State := { s with atoms := s.atoms.eraseIdx k }
    let r := s'.atomicAt (coreOf t.hart) (.phys pa) t.bytes t.op t.operand.toNat
    have recalled : (s'.recallRange pa t.bytes).mem = u.mem := by
      rw [State.recallRange_of_overlay (s := s) rfl]
      rfl
    have frame := s'.atomicAt_frame (coreOf t.hart) (.phys pa) t.bytes t.op t.operand.toNat
    obtain ⟨value, written⟩ := s'.atomicAt_phys (coreOf t.hart) pa t.bytes t.op t.operand.toNat
    obtain ⟨atoms, mem, completes, others⟩ := r.2.2.endAtomic_ends t r.1 r.2.1
    rw [recalled] at value written
    have hart : r.2.2.hart t.hart = s.hart t.hart := frame.hart t.hart
    rw [hart] at completes others
    refine ⟨(r.2.2.endAtomic t r.1 r.2.1).happen, ?_, atoms.trans frame.atoms, mem.trans written, ?_, others⟩
    · show execAtomicStep k s = _
      rw [execAtomicStep, State.stepAtomic_phys sent place first noSnoop ready sound]
      rfl
    · rw [show old = r.1 from value.symm]
      exact completes

end Sys2Proof.Machine

/-! PROOF of Fences and Bindings: an acquire filters the words of one L1, a release is a test, and a binding takes the lowest free
slot. -/

namespace Sys2Proof.Machine

/-! ## Acquires (R173) -/

section
variable (s : State) (c : Nat) (p : L1Word → Bool)

theorem State.selfInvalidate_l1 : ((s.selfInvalidate c p).core c).l1 = (s.core c).l1.filter fun w => w.owned || !p w := by
  rw [State.selfInvalidate, State.core_modCore]

theorem State.selfInvalidate_core_ne {j : Nat} (other : j ≠ c) : (s.selfInvalidate c p).core j = s.core j :=
  State.core_setCore_ne _ _ _ _ other.symm

end

/-- An instruction that invalidates words of its core's L1 and then changes its hart. -/
theorem finish_selfInvalidate (s : State) (p : L1Word → Bool) (f : Hart → Hart) (pc : (f s.me).pc = s.me.pc) :
    ∃ t, finish s (.ok ((s.selfInvalidate (coreOf s.cur) p).happen.modHart s.cur f)) = .next t ∧
      t.harts = (s.done (f s.me) 8).harts ∧ t.mem = s.mem ∧
      (t.core (coreOf s.cur)).l1 = (s.core (coreOf s.cur)).l1.filter (fun w => w.owned || !p w) ∧
      ∀ j, j ≠ coreOf s.cur → t.core j = s.core j := by
  obtain ⟨next, harts⟩ := finish_modHart_harts (s := s) (t := (s.selfInvalidate (coreOf s.cur) p).happen) rfl f pc
  exact ⟨_, next, harts, rfl, s.selfInvalidate_l1 _ p, fun j other => s.selfInvalidate_core_ne _ p other⟩

/-! ## Releases (R173, R175, R179) -/

theorem State.released_iff (s : State) (h : Nat) (sc : Scope) : s.released h sc = true ↔
    (s.hart h).sbuf = [] ∧ (∀ m ∈ s.atoms, m.hart = h → m.posted = false) ∧
      (sc ≠ .core → ∀ r ∈ s.regs, r.hart = h → r.vec = true) := by
  simp [State.released, State.atomsDone, and_assoc, or_iff_not_imp_left]

/-- Settles O15. -/
theorem fences : Obligations.Fences := by
  intro s sc k a x c f acquires covered
  have acquired : sc ≠ .core → ∀ i, exec i s = finish s (.ok (s.acquire s.cur sc).fence) → acquires i f fun _ => true := by
    intro wide i runs
    rw [State.acquire, if_neg wide] at runs
    show ∃ t, exec i s = .next t ∧ _
    rw [runs]
    exact finish_selfInvalidate s _ (fun y => { y.dropStrips with fenced := s.sends }) rfl
  refine ⟨fun narrow => ⟨?_, ?_⟩, fun wide => ⟨acquired wide _ rfl, ?_⟩,
    fun released => ⟨?_, ?_, fun narrow => ?_, fun wide => acquired wide _ ?_⟩, fun waiting => ⟨?_, ?_, ?_⟩, fun drained => ?_,
    fun waiting => ?_, s.released_iff s.cur sc⟩
  · subst narrow
    exact finish_setHart s f rfl
  · subst narrow
    exact finish_self s
  · obtain ⟨t, next, done⟩ := finish_selfInvalidate s (fun w => (s.core c).slotOfObject (x.rd a) w.slot) Hart.dropStrips rfl
    exact ⟨t, (congrArg (finish s) (if_neg wide)).trans next, done⟩
  · exact (congrArg (finish s) (if_pos released)).trans (finish_setHart s f rfl)
  · exact (congrArg (finish s) (if_pos released)).trans (finish_self s)
  · subst narrow
    exact (congrArg (finish s) (if_pos released)).trans (finish_setHart s f rfl)
  · exact congrArg (finish s) (if_pos released)
  · exact congrArg (finish s) (if_neg (ne_true_of_eq_false waiting))
  · exact congrArg (finish s) (if_neg (ne_true_of_eq_false waiting))
  · exact congrArg (finish s) (if_neg (ne_true_of_eq_false waiting))
  · exact (congrArg (finish s) (if_pos drained)).trans (finish_setHart s x.dropStrips rfl)
  · exact congrArg (finish s) (if_neg (ne_true_of_eq_false waiting))

/-! ## Bindings (R174) -/

theorem Core.freeSlot_none {c : Core} (full : ∀ k, 1 ≤ k → k ≤ 63 → ∃ t ∈ c.binds, t.slot = k) : c.freeSlot = none := by
  rw [Core.freeSlot, List.find?_eq_none]
  intro k mem free
  obtain ⟨j, inside, rfl⟩ := List.mem_map.mp mem
  obtain ⟨t, bound, slot⟩ := full (j + 1) (by omega) (by have := List.mem_range.mp inside; omega)
  exact bne_iff_ne.mp (List.all_eq_true.mp free t bound) slot

theorem Core.freeSlot_lowest {c : Core} {k : Nat} (low : 1 ≤ k) (high : k ≤ 63) (free : ∀ t ∈ c.binds, t.slot ≠ k)
    (before : ∀ j, 1 ≤ j → j < k → ∃ t ∈ c.binds, t.slot = j) : c.freeSlot = some k := by
  obtain ⟨i, rfl⟩ : ∃ i, k = i + 1 := ⟨k - 1, by omega⟩
  have lowest : (List.range 63).find? ((fun k => c.binds.all fun b => b.slot != k) ∘ (· + 1)) = some i := by
    refine List.find?_range_eq_some.mpr ⟨?_, List.mem_range.mpr (by omega), fun j earlier => ?_⟩
    · exact List.all_eq_true.mpr fun t bound => bne_iff_ne.mpr (free t bound)
    · obtain ⟨t, bound, slot⟩ := before (j + 1) (by omega) (by omega)
      rw [Bool.not_eq_true']
      exact List.all_eq_false.mpr ⟨t, bound, by simp [slot]⟩
  rw [Core.freeSlot, List.find?_map, lowest]
  rfl

section
variable {s : State} {a b : Reg} (base : (s.me.rd a).toNat % 64 = 0) (length : (s.me.rd b).toNat % 64 = 0) (d e : Reg)
include base length

theorem effBindr_invalid (invalid : s.me.rd e = 0 ∨ s.me.rd b = 0 ∨ 2 ^ 40 < (s.me.rd b).toNat) :
    effBindr d a b e s = .ok (s.result d 65) := by
  refine (if_neg (not_not.mpr base)).trans ((if_neg (not_not.mpr length)).trans (if_pos ?_))
  simpa [or_assoc] using invalid

variable (object : s.me.rd e ≠ 0) (bytes : s.me.rd b ≠ 0) (short : (s.me.rd b).toNat ≤ 2 ^ 40)
include object bytes short

/-- A valid request goes by the ranges and slots that are bound. -/
theorem effBindr_valid : effBindr d a b e s =
    if (s.core (coreOf s.cur)).binds.any fun t => meet t.base t.len (s.me.rd a).toNat (s.me.rd b).toNat then .ok (s.result d 64)
    else match (s.core (coreOf s.cur)).freeSlot with
      | none => .ok (s.result d 0)
      | some k => .ok ((s.modCore (coreOf s.cur) fun (y : Core) => ({ y with binds := y.binds ++
          [{ slot := k, obj := s.me.rd e, base := (s.me.rd a).toNat, len := (s.me.rd b).toNat }] } : Core).retag).result d
            (BitVec.ofNat 64 k)) := by
  refine (if_neg (not_not.mpr base)).trans ((if_neg (not_not.mpr length)).trans ((if_neg ?_).trans rfl))
  simpa using And.intro (And.intro object bytes) short

end

/-- An instruction that changes the bindings of its core and then writes a register. -/
theorem finish_binds (s : State) (f : Core → Core) (d : Reg) (v : Word) :
    ∃ t, finish s (.ok ((s.modCore (coreOf s.cur) f).result d v)) = .next t ∧ t.harts = (s.done (s.me.wr d v) 8).harts ∧
      (t.core (coreOf s.cur)).binds = (f (s.core (coreOf s.cur))).binds := by
  obtain ⟨next, harts⟩ := finish_modHart_harts (s := s) (t := s.modCore (coreOf s.cur) f) rfl (fun x => x.wr d v) (Hart.wr_pc _ _ _)
  exact ⟨_, next, harts, congrArg Core.binds (State.core_setCore _ _ _)⟩

/-- Settles O16. -/
theorem bindings : Obligations.Bindings := by
  intro s d a b e x c y base len writes overlap
  refine ⟨fun idle => ⟨fun unaligned => finish_traps idle (if_pos unaligned),
    fun aligned unaligned => finish_traps idle ((if_neg (not_not.mpr aligned)).trans (if_pos unaligned))⟩,
    fun aligned whole => ⟨fun invalid => (congrArg (finish s) (effBindr_invalid aligned whole d e invalid)).trans
      (finish_result s d 65), fun object bytes short => ?valid⟩, ?unbind⟩
  case valid =>
    have valid := effBindr_valid aligned whole d e object bytes short
    refine ⟨fun meets => ?_, fun apart full => ?_, fun apart k low high free before => ?_⟩
    · exact (congrArg (finish s) (valid.trans (if_pos meets))).trans (finish_result s d 64)
    · replace valid := valid.trans (if_neg (ne_true_of_eq_false apart))
      rw [Core.freeSlot_none full] at valid
      exact (congrArg (finish s) valid).trans (finish_result s d 0)
    · replace valid := valid.trans (if_neg (ne_true_of_eq_false apart))
      rw [Core.freeSlot_lowest low high free before] at valid
      obtain ⟨t, next, done⟩ := finish_binds s _ d (BitVec.ofNat 64 k)
      exact ⟨t, (congrArg (finish s) valid).trans next, done⟩
  case unbind =>
    obtain ⟨t, next, done⟩ := finish_binds s (fun (y : Core) => ({ y with binds := y.binds.filter fun t => t.obj != x.rd e } : Core).retag)
      d (BitVec.ofNat 64 (y.binds.filter fun t => t.obj == x.rd e).length)
    exact ⟨t, next, done⟩

end Sys2Proof.Machine

/-! PROOF of CacheLines: the write-backs of a line that nothing holds are performed at once, and what each instruction leaves of
the line. -/

namespace Sys2Proof.Machine

/-! ## A line that nothing holds (R151, R247, R277, R279) -/

/-- No page move, pack, flip or host copy holds a byte of the line that starts at `home`. -/
structure FreeLine (s : State) (home : Nat) : Prop where
  page : ∀ p, home ≤ p → p < home + 64 → s.pageHeld p = false
  pack : s.packHolds home 64 = false
  host : s.hostWaits home 64 = false

theorem HomeFrame.freeLine {s t : State} (frame : HomeFrame s t) {home : Nat} (free : FreeLine s home) : FreeLine t home := by
  have rest := frame.rest
  obtain ⟨page, pack, host⟩ := free
  rw [rest]
  exact ⟨page, pack, host⟩

/-- A part of the line meets only what the line meets. -/
theorem meet_part {a n home off k : Nat} (part : off + k ≤ 64) (apart : meet a (n + 1) home 64 = false) :
    meet a (n + 1) (home + off) k = false := by
  simp only [meet, Bool.and_eq_false_imp, decide_eq_true_eq, decide_eq_false_iff_not] at apart ⊢
  omega

/-- A part of a line lies in that line alone. -/
theorem linesOf_within {line off k : Nat} (some : 0 < k) (part : off + k ≤ 64) : linesOf (64 * line + off) k = [64 * line] := by
  have one : (64 * line + off + k - 1) / 64 - (64 * line + off) / 64 + 1 = 1 := by omega
  have start : (64 * line + off) / 64 = line := by omega
  rw [linesOf, if_neg (by omega), one, start]
  rfl

/-- Recalls leave everything but what the homes keep. -/
theorem State.recallRange_rest (s : State) (pa n : Nat) : s.recallRange pa n = (s.recallRange pa n).overlay s :=
  State.recallRange_of_overlay rfl pa n

section
variable {s : State} {line off k : Nat} (free : FreeLine s (64 * line)) (part : off + k ≤ 64) (inside : off < 64)
include free part

theorem FreeLine.pack_part : s.packHolds (64 * line + off) k = false := by
  have whole := free.pack
  simp only [State.packHolds, Pack.holds, Pack.writesIn, Pack.readsIn, List.any_eq_false, Bool.and_eq_true, Bool.or_eq_true,
    List.any_eq_true, not_and, not_or, not_exists] at whole ⊢
  intro p mem opened
  obtain ⟨writes, reads⟩ := whole p mem opened
  refine ⟨fun c tentative => ?_, fun w read => ?_⟩
  · exact ne_true_of_eq_false (meet_part part (eq_false_of_ne_true (writes c tentative)))
  · exact ne_true_of_eq_false (meet_part part (eq_false_of_ne_true (reads w read)))

include inside

theorem FreeLine.host_part : s.hostWaits (64 * line + off) k = false := by
  have whole := free.host
  have page : (64 * line + off) / 4096 = 64 * line / 4096 := by omega
  simp only [State.hostWaits, Bool.or_eq_false_iff, State.flipping, State.hostLine, page] at whole ⊢
  refine ⟨whole.1, ?_⟩
  have same := whole.2
  rw [show linesOf (64 * line) 64 = [64 * line] from linesOf_within (off := 0) (by omega) (by omega)] at same
  rcases Nat.eq_zero_or_pos k with rfl | some
  · rfl
  · rwa [linesOf_within some part]

/-- A write-back to the line is performed at once. -/
theorem FreeLine.devPut_heldPuts {bs : List Byte} (length : bs.length = k) :
    (s.devPut (64 * line + off) bs).heldPuts = s.heldPuts := by
  subst length
  rw [State.devPut, free.page (64 * line + off) (by omega) (by omega), free.pack_part part, free.host_part part inside]
  have rest := congrArg State.heldPuts (s.recallRange_rest (64 * line + off) bs.length)
  exact rest

end

/-! ## Cleaning a line (R187, R188) -/

/-- What every step of a fold over members of a list keeps, the fold keeps. -/
theorem foldl_keeps_mem {α β : Type} {P : β → Prop} {f : β → α → β} {l : List α} (h : ∀ b, ∀ a ∈ l, P b → P (f b a)) {b : β}
    (start : P b) : P (l.foldl f b) := by
  induction l generalizing b with
  | nil => exact start
  | cons a l ih =>
    exact ih (fun b x mem => h b x (List.mem_cons_of_mem a mem)) (h b a List.mem_cons_self start)

/-- `t` follows `s` by write-backs to a line that nothing holds, and holds none of them. -/
structure Flushed (s t : State) (line : Nat) : Prop where
  home : HomeFrame s t
  free : FreeLine t (64 * line)
  held : t.heldPuts = s.heldPuts

theorem Flushed.devPut {s t : State} {line off : Nat} (flushed : Flushed s t line) {bs : List Byte} (part : off + bs.length ≤ 64)
    (inside : off < 64) : Flushed s (t.devPut (64 * line + off) bs) line where
  home := flushed.home.trans (t.devPut_frame _ _)
  free := (t.devPut_frame _ _).freeLine flushed.free
  held := (flushed.free.devPut_heldPuts part inside rfl).trans flushed.held

theorem Flushed.cleanWord {s t : State} {u : ULine} {k : Nat} (word : k < 16) (flushed : Flushed s t u.line) :
    Flushed s (u.cleanWord t k) u.line := by
  unfold ULine.cleanWord
  split
  · exact flushed.devPut (off := 4 * k) (by rw [List.length_take]; omega) (by omega)
  · refine foldl_keeps_mem (P := fun t => Flushed s t u.line) (fun t i mem flushed => ?_) flushed
    have := List.mem_range.mp mem
    split
    · rw [Nat.add_assoc]
      exact flushed.devPut (off := 4 * k + i) (bs := [getAt 0 u.data (4 * k + i)]) (by rw [List.length_singleton]; omega) (by omega)
    · exact flushed

theorem Flushed.mono {s t v : State} {line : Nat} (flushed : Flushed s t line) (home : HomeFrame t v)
    (held : v.heldPuts = t.heldPuts) : Flushed s v line where
  home := flushed.home.trans home
  free := home.freeLine flushed.free
  held := held.trans flushed.held

theorem Core.uline_line {c : Core} {line : Nat} {u : ULine} (found : c.uline line = some u) : u.line = line := by
  have named := List.find?_some found
  exact beq_iff_eq.mp named

/-- Cleaning a line that nothing holds leaves no dirty byte of it. -/
theorem Flushed.cleanLine {s : State} {line : Nat} (free : FreeLine s (64 * line)) (c : Nat) :
    Flushed s (s.cleanLine c line) line ∧ ∀ l, ((s.cleanLine c line).core c).uline line = some l → l.dirty = 0 := by
  have start : Flushed s s line := ⟨.refl s, free, rfl⟩
  unfold State.cleanLine
  cases found : (s.core c).uline line with
  | none => exact ⟨start, fun l some => by rw [found] at some; cases some⟩
  | some u =>
    obtain rfl := Core.uline_line found
    dsimp only
    have words := foldl_keeps_mem (P := fun t => Flushed s t u.line) (f := u.cleanWord) (l := List.range 16)
      (fun t k mem flushed => flushed.cleanWord (List.mem_range.mp mem)) start
    generalize (List.range 16).foldl u.cleanWord s = t at words ⊢
    refine ⟨words.mono ((t.modCore_frame c _).trans (State.happen_frame _)) rfl, fun l some => ?_⟩
    have core := t.core_modCore c fun x =>
      { x with ul1 := x.ul1.map fun v => if v.line = u.line then { v with dirty := 0, whole := 0 } else v }
    replace some := (congrArg (fun x : Core => x.uline u.line) core).symm.trans some
    obtain ⟨v, mem, rfl⟩ := List.mem_map.mp (List.mem_of_find?_eq_some some)
    have line := Core.uline_line some
    split at line
    · rw [if_pos ‹_›]
    · exact absurd line ‹_›

theorem State.dropLine_uline (s : State) (c line : Nat) : ((s.dropLine c line).core c).uline line = none := by
  rw [State.dropLine, State.core_modCore, Core.uline, List.find?_eq_none]
  intro u mem
  simpa using (List.mem_filter.mp mem).2

/-! ## CFLUSH, CFLUSH.inv and CINVAL (R188, R310) -/

theorem State.linesDone_unheld {t : State} (none : t.heldPuts = []) (va : Word) (n : Nat) : t.linesDone va n = .ok t := by
  simp [State.linesDone, none]

theorem State.linesDone_zero (t : State) (va : Word) : t.linesDone va 0 = .ok t := by simp [State.linesDone, State.linesHeld]

section
variable {s : State} {a b : Reg} (op : LineOp) (drained : s.me.sbuf = [])

theorem effLines_long (long : 2 ^ 40 < (s.me.rd b).toNat) : effLines op a b s = .trap s 1 s.me.iword := if_pos long

variable (short : (s.me.rd b).toNat ≤ 2 ^ 40)
include short

theorem effLines_base (unaligned : (s.me.rd a).toNat % 64 ≠ 0) : effLines op a b s = .trap s 3 (s.me.rd a) :=
  (if_neg (Nat.not_lt.mpr short)).trans (if_pos unaligned)

variable (aligned : (s.me.rd a).toNat % 64 = 0)
include aligned

theorem effLines_length (unaligned : (s.me.rd b).toNat % 64 ≠ 0) : effLines op a b s = .trap s 3 (s.me.rd b) :=
  (if_neg (Nat.not_lt.mpr short)).trans ((if_neg (not_not.mpr aligned)).trans (if_pos unaligned))

variable (whole : (s.me.rd b).toNat % 64 = 0)
include drained whole

/-- With aligned operands and no buffered store the lines are acted on, once. -/
theorem effLines_lines : effLines op a b s =
    if s.me.stage = 1 then s.linesDone (s.me.rd a) ((s.me.rd b).toNat / 64)
    else match s.linesFrom op (s.me.rd a) ((s.me.rd b).toNat / 64) with
      | .ok t => t.linesDone (s.me.rd a) ((s.me.rd b).toNat / 64)
      | r => r :=
  (if_neg (Nat.not_lt.mpr short)).trans ((if_neg (not_not.mpr aligned)).trans ((if_neg (not_not.mpr whole)).trans
    (if_neg (by simp [drained]))))

end

/-- One line that translates. -/
theorem effLines_one {s u : State} {a b : Reg} {pa : Nat} {m : BitVec 2} (op : LineOp) (drained : s.me.sbuf = [])
    (length : s.me.rd b = 64) (aligned : (s.me.rd a).toNat % 64 = 0) (first : s.me.stage ≠ 1)
    (located : s.locateG s.cur .load (s.me.rd a) 64 = (u, .at_ (.g pa m)))
    (unheld : (u.lineOp (coreOf u.cur) (pa / 64) op).heldPuts = []) :
    effLines op a b s = .ok (u.lineOp (coreOf u.cur) (pa / 64) op).happen := by
  have one : (s.me.rd b).toNat = 64 := by rw [length]; rfl
  rw [effLines_lines op drained (by omega) aligned (by omega), if_neg first, one]
  simp only [Nat.reduceDiv, State.linesFrom, located]
  exact State.linesDone_unheld (t := (u.lineOp (coreOf u.cur) (pa / 64) op).happen) unheld _ _

/-- Settles O18. -/
theorem cacheLines : Obligations.CacheLines := by
  intro s u a b pa m x c base len all home drained
  refine ⟨fun idle => ⟨fun long => ?_, fun short unaligned => ?_, fun short aligned unaligned => ?_⟩, fun empty aligned => ?zero,
    fun length aligned first located unheld => ?one⟩
  · exact ⟨finish_traps idle (effLines_long _ long), finish_traps idle (effLines_long _ long), finish_traps idle (effLines_long _ long)⟩
  · have traps := fun op => finish_traps idle (effLines_base op short unaligned)
    exact ⟨traps _, traps _, traps _⟩
  · have traps := fun op => finish_traps idle (effLines_length op short aligned unaligned)
    exact ⟨traps _, traps _, traps _⟩
  case zero =>
    have zero : (s.me.rd b).toNat = 0 := by rw [show s.me.rd b = 0 from empty]; rfl
    have lines : ∀ op, effLines op a b s = .ok (if s.me.stage = 1 then s else s.happen) := by
      intro op
      rw [effLines_lines op drained (by omega) aligned (by omega), zero]
      split
      · exact State.linesDone_zero s _
      · exact State.linesDone_zero s.happen _
    have left : ∀ t : State, t = s ∨ t = s.happen → t.harts = s.harts ∧ t.mem = s.mem ∧ t.cores = s.cores := by
      rintro t (rfl | rfl) <;> exact ⟨rfl, rfl, rfl⟩
    obtain ⟨harts, mem, cores⟩ := left (if s.me.stage = 1 then s else s.happen) (by split <;> simp)
    obtain ⟨next, done⟩ := finish_harts harts
    exact ⟨_, ⟨(congrArg (finish s) (lines .flush)).trans next, (congrArg (finish s) (lines .flushInv)).trans next,
      (congrArg (finish s) (lines .inval)).trans next⟩, done, mem, cores⟩
  case one =>
    have cur : u.cur = s.cur := by
      have := s.locateG_cur s.cur .load base 64
      rwa [located] at this
    have ends : ∀ op, (u.lineOp c (pa / 64) op).heldPuts = [] → HomeFrame u (u.lineOp c (pa / 64) op) →
        ∃ t, finish s (effLines op a b s) = .next t ∧ t.harts = (u.done u.me 8).harts ∧
          t.core c = (u.lineOp c (pa / 64) op).core c ∧ t.mem = (u.lineOp c (pa / 64) op).mem := by
      intro op none frame
      have lines := effLines_one op drained length aligned first located (by rw [cur]; exact none)
      rw [cur] at lines
      obtain ⟨next, harts⟩ := finish_harts (s := u) (t := (u.lineOp c (pa / 64) op).happen) frame.harts
      exact ⟨_, (congrArg (finish s) lines).trans ((finish_of_cur cur _).trans next), harts, rfl, rfl⟩
    refine ⟨fun page others => ?_, ?_⟩
    · have line : home = 64 * (pa / 64) := Nat.mul_comm _ _
      obtain ⟨pack, host⟩ := Bool.or_eq_false_iff.mp others
      have free : FreeLine u (64 * (pa / 64)) := line ▸ ⟨page, pack, host⟩
      obtain ⟨flushed, clean⟩ := Flushed.cleanLine free c
      have dropped := State.modCore_frame (u.cleanLine c (pa / 64)) c fun x => { x with ul1 := x.ul1.filter fun v => v.line != pa / 64 }
      obtain ⟨t, next, harts, core, -⟩ := ends .flush (flushed.held.trans unheld) flushed.home
      obtain ⟨v, next', harts', core', -⟩ := ends .flushInv (flushed.held.trans unheld) (flushed.home.trans dropped)
      refine ⟨⟨t, next, harts, fun l found => clean l (by rw [core] at found; exact found)⟩, v, next', harts', ?_⟩
      rw [core']
      exact State.dropLine_uline _ _ _
    · have frame := (u.modCore_frame c fun x => { x with ul1 := x.ul1.filter fun v => v.line != pa / 64 }).trans
        (State.modCore_frame _ c fun x => { x with l1 := x.l1.filter fun w => w.owned || w.w / 16 != pa / 64 })
      obtain ⟨t, next, harts, core, mem⟩ := ends .inval unheld frame
      have dropped : (u.lineOp c (pa / 64) .inval).core c = { (u.dropLine c (pa / 64)).core c with
          l1 := ((u.dropLine c (pa / 64)).core c).l1.filter fun w => w.owned || w.w / 16 != pa / 64 } := State.core_setCore _ _ _
      refine ⟨t, next, harts, mem, ?_, ?_⟩
      · rw [core, dropped]
        exact u.dropLine_uline c (pa / 64)
      · rw [core, dropped, State.dropLine, State.core_modCore]

end Sys2Proof.Machine

/-! SUPPORT for TimedWaits and MemoryStaysCanonical: what a step keeps whatever else it changes. -/

namespace Sys2Proof.Machine

/-! ## The canonical form and the issuing hart -/

/-- Memory is canonical in `t` where it is in `s`, and the issuing hart is the same. It speaks of two fields alone, so a change
of any other field leaves it as it is. -/
def Keeps (s t : State) : Prop := (s.mem.wf = true → t.mem.wf = true) ∧ t.cur = s.cur

/-- The package after a member's access. -/
def MemberAcc.state : MemberAcc → State
  | .done t _ => t
  | .aborted t => t

/-- The package after a load of G-space. -/
def LdRes.state : LdRes → State
  | .val t _ => t
  | .wait t => t
  | .miss t => t
  | .fault t _ => t

namespace Keeps

theorem refl (s : State) : Keeps s s := ⟨id, rfl⟩

theorem trans {s t u : State} (a : Keeps s t) (b : Keeps t u) : Keeps s u := ⟨fun h => b.1 (a.1 h), b.2.trans a.2⟩

theorem ofHome {s t : State} (frame : HomeFrame s t) : Keeps s t := ⟨frame.wf, frame.cur⟩
theorem ofTr {s t : State} (frame : TrFrame s t) : Keeps s t := ⟨frame.wf, frame.cur⟩

theorem ite {s t u : State} {p : Prop} [Decidable p] (a : Keeps s t) (b : Keeps s u) : Keeps s (if p then t else u) := by
  split <;> assumption

theorem ldRes_ite {s : State} {p : Prop} [Decidable p] {a b : LdRes} (left : Keeps s a.state) (right : Keeps s b.state) :
    Keeps s (if p then a else b).state := by
  split <;> assumption

theorem fold {α : Type} {s : State} {f : State → α → State} (h : ∀ u x, Keeps s u → Keeps s (f u x)) (l : List α) {t : State}
    (kept : Keeps s t) : Keeps s (l.foldl f t) := foldl_keeps (P := Keeps s) f h l t kept

section
variable {s t : State} (kept : Keeps s t)
include kept

theorem wf : s.mem.wf = true → t.mem.wf = true := kept.1
theorem cur : t.cur = s.cur := kept.2

theorem setHart (h : Nat) (x : Hart) : Keeps s (t.setHart h x) := kept
theorem modHart (h : Nat) (f : Hart → Hart) : Keeps s (t.modHart h f) := kept
theorem modCore (c : Nat) (f : Core → Core) : Keeps s (t.modCore c f) := kept
theorem modDie (d : Nat) (f : Die → Die) : Keeps s (t.modDie d f) := kept
theorem happen : Keeps s t.happen := kept

end

end Keeps

/-! ## What the homes of packs keep -/

/-- `t` differs from `s` in no part of a hart but its pack, in nothing on its way, and in nothing that `Keeps` names. -/
def PackKeeps (s t : State) : Prop := Keeps s t ∧ t.regs = s.regs ∧ t.atoms = s.atoms ∧ t.ras = s.ras ∧ t.bias = s.bias ∧
  t.gtime = s.gtime ∧ ∀ h, t.hart h = { s.hart h with pack := (t.hart h).pack }

namespace PackKeeps

theorem refl (s : State) : PackKeeps s s := ⟨.refl s, rfl, rfl, rfl, rfl, rfl, fun _ => rfl⟩

theorem trans {s t u : State} (a : PackKeeps s t) (b : PackKeeps t u) : PackKeeps s u := by
  obtain ⟨keeps, regs, atoms, ras, bias, gtime, hart⟩ := a
  obtain ⟨keeps', regs', atoms', ras', bias', gtime', hart'⟩ := b
  refine ⟨keeps.trans keeps', regs'.trans regs, atoms'.trans atoms, ras'.trans ras, bias'.trans bias, gtime'.trans gtime, fun h => ?_⟩
  have same := hart' h
  rw [hart h] at same
  exact same

theorem ofHome {s t : State} (frame : HomeFrame s t) : PackKeeps s t :=
  ⟨.ofHome frame, frame.regs, frame.atoms, frame.ras, frame.bias, frame.gtime, fun h => by rw [frame.hart h]⟩

theorem ite {s t u : State} {p : Prop} [Decidable p] (a : PackKeeps s t) (b : PackKeeps s u) :
    PackKeeps s (if p then t else u) := by
  split <;> assumption

theorem memberAcc_ite {s : State} {p : Prop} [Decidable p] {a b : MemberAcc} (left : PackKeeps s a.state)
    (right : PackKeeps s b.state) : PackKeeps s (if p then a else b).state := by
  split <;> assumption

theorem ldRes_ite {s : State} {p : Prop} [Decidable p] {a b : LdRes} (left : PackKeeps s a.state)
    (right : PackKeeps s b.state) : PackKeeps s (if p then a else b).state := by
  split <;> assumption

theorem fold {α : Type} {s : State} {f : State → α → State} (h : ∀ u x, PackKeeps s u → PackKeeps s (f u x)) (l : List α)
    {t : State} (kept : PackKeeps s t) : PackKeeps s (l.foldl f t) := foldl_keeps (P := PackKeeps s) f h l t kept

section
variable {s t : State} (kept : PackKeeps s t)
include kept

theorem keeps : Keeps s t := kept.1
theorem hart (h : Nat) : t.hart h = { s.hart h with pack := (t.hart h).pack } := by
  obtain ⟨-, -, -, -, -, -, hart⟩ := kept
  exact hart h

theorem happen : PackKeeps s t.happen := kept

/-- A change of a hart's pack. -/
theorem modPack (h : Nat) (f : Hart → Hart) (pack : ∀ x, f x = { x with pack := (f x).pack }) : PackKeeps s (t.modHart h f) := by
  refine kept.trans ⟨.refl t, rfl, rfl, rfl, rfl, rfl, fun k => ?_⟩
  by_cases same : h = k
  · subst same
    rw [State.modHart, State.hart_setHart]
    exact pack _
  · rw [State.modHart, State.hart_setHart_ne _ _ _ _ same]

/-! ## Writes held at homes (R151, R247, R279) -/

theorem recallRange (pa n : Nat) : PackKeeps s (t.recallRange pa n) := kept.trans (.ofHome (t.recallRange_frame pa n))
theorem devPut (pa : Nat) (bs : List Byte) : PackKeeps s (t.devPut pa bs) := kept.trans (.ofHome (t.devPut_frame pa bs))
theorem homeWrite (o : Option Owner) (pa : Nat) (bs : List Byte) : PackKeeps s (t.homeWrite o pa bs) :=
  kept.trans (.ofHome (t.homeWrite_frame o pa bs))

theorem sendSnoop (line : Nat) : PackKeeps s (t.sendSnoop line) := .ite kept kept

theorem hostPut (pa : Nat) (bs : List Byte) : PackKeeps s (t.hostPut pa bs) := .ite kept (kept.homeWrite _ pa bs)

theorem snoopPut (pa : Nat) (bs : List Byte) : PackKeeps s (t.snoopPut pa bs) := .ite kept (kept.homeWrite none pa bs)

theorem perform (p : HeldPut) : PackKeeps s (p.perform t) := by
  unfold HeldPut.perform
  split
  · exact kept.hostPut p.pa p.data
  · exact kept.devPut p.pa p.data
  · exact kept.snoopPut p.pa p.data

theorem cleanHolds : PackKeeps s t.cleanHolds := by
  unfold State.cleanHolds
  exact fold (fun u p kept => kept.perform p) _ kept

/-! ## Packs at the homes (R236 to R251) -/

theorem setPack (p : Pack) : PackKeeps s (t.setPack p) := kept.devPut p.pa p.bytes
theorem dropPack (p : Pack) : PackKeeps s (t.dropPack p) := kept.devPut (p.pa + 6) [0]
theorem packEnd (p : Pack) : PackKeeps s (t.packEnd p) := .ite (.dropPack (.setPack kept _) _) (.setPack kept _)

theorem abortPack (obj : Nat) (code : BitVec 32) : PackKeeps s (t.abortPack obj code) := by
  unfold State.abortPack
  split
  · exact kept
  · refine .ite (kept.setPack _) (.ite (.happen (.cleanHolds (.ite (.packEnd ?_ _) ?_))) kept)
    all_goals exact fold (fun u h kept => kept.modPack h _ fun x => by split <;> rfl) _ (kept.setPack _)

/-- A member's access, done or aborted (R245 to R247). -/
theorem memberAccess (obj pa n : Nat) (new : Option (List Byte → List Byte)) : PackKeeps s (t.memberAccess obj pa n new).state := by
  unfold State.memberAccess
  split
  · exact kept
  · rename_i p _
    have losers : PackKeeps s (((t.packRivals p new.isSome pa n).map fun q => younger p q).foldl (fun s q => s.abortPack q.pa 2) t) :=
      fold (fun u q kept => kept.abortPack q.pa 2) _ kept
    refine memberAcc_ite kept (memberAcc_ite losers ?_)
    split
    · exact losers
    · refine memberAcc_ite (losers.abortPack obj 3) (.happen (.ite (.recallRange ?_ _ _) ?_))
      all_goals exact losers

/-! ## A member's load, and the word of a WAITA (R148, R245) -/

theorem dropValid (c pa n : Nat) : PackKeeps s (t.dropValid c pa n) := kept

theorem loadMember (h obj : Nat) (arrived : Bool) (pa n : Nat) (pbmt : BitVec 2) :
    PackKeeps s (t.loadMember h obj arrived pa n pbmt).state := by
  refine ldRes_ite kept (ldRes_ite kept (ldRes_ite (kept.sendSnoop _) (ldRes_ite kept (ldRes_ite kept ?_))))
  have accessed := kept.memberAccess obj pa n none
  split <;> rename_i e <;> rw [e] at accessed
  · exact accessed
  · exact accessed

theorem waitaWord (h : Nat) (p : ElemPlace) : PackKeeps s (t.waitaWord h p).state := by
  unfold State.waitaWord
  split
  · exact kept
  · split
    · exact kept.loadMember _ _ _ _ _ _
    · exact ldRes_ite kept (ldRes_ite (kept.sendSnoop _) (ldRes_ite kept (kept.dropValid _ _ _)))
  · exact kept

end

end PackKeeps

namespace Keeps

section
variable {s t : State} (kept : Keeps s t)
include kept

theorem homeWrite (o : Option Owner) (pa : Nat) (bs : List Byte) : Keeps s (t.homeWrite o pa bs) :=
  kept.trans ((PackKeeps.refl t).homeWrite o pa bs).keeps
theorem recallRange (pa n : Nat) : Keeps s (t.recallRange pa n) := kept.trans ((PackKeeps.refl t).recallRange pa n).keeps
theorem sendSnoop (line : Nat) : Keeps s (t.sendSnoop line) := kept.trans ((PackKeeps.refl t).sendSnoop line).keeps
theorem hostPut (pa : Nat) (bs : List Byte) : Keeps s (t.hostPut pa bs) := kept.trans ((PackKeeps.refl t).hostPut pa bs).keeps
theorem snoopPut (pa : Nat) (bs : List Byte) : Keeps s (t.snoopPut pa bs) := kept.trans ((PackKeeps.refl t).snoopPut pa bs).keeps
theorem cleanHolds : Keeps s t.cleanHolds := kept.trans (PackKeeps.refl t).cleanHolds.keeps
theorem setPack (p : Pack) : Keeps s (t.setPack p) := kept.trans ((PackKeeps.refl t).setPack p).keeps
theorem dropPack (p : Pack) : Keeps s (t.dropPack p) := kept.trans ((PackKeeps.refl t).dropPack p).keeps
theorem packEnd (p : Pack) : Keeps s (t.packEnd p) := kept.trans ((PackKeeps.refl t).packEnd p).keeps
theorem abortPack (obj : Nat) (code : BitVec 32) : Keeps s (t.abortPack obj code) :=
  kept.trans ((PackKeeps.refl t).abortPack obj code).keeps
theorem memberAccess (obj pa n : Nat) (new : Option (List Byte → List Byte)) : Keeps s (t.memberAccess obj pa n new).state :=
  kept.trans ((PackKeeps.refl t).memberAccess obj pa n new).keeps

/-! ## Loads of G-space (R168, R187, R245) -/

theorem loadMember (h obj : Nat) (arrived : Bool) (pa n : Nat) (pbmt : BitVec 2) :
    Keeps s (t.loadMember h obj arrived pa n pbmt).state :=
  kept.trans ((PackKeeps.refl t).loadMember h obj arrived pa n pbmt).keeps
theorem waitaWord (h : Nat) (p : ElemPlace) : Keeps s (t.waitaWord h p).state :=
  kept.trans ((PackKeeps.refl t).waitaWord h p).keeps
theorem roomL1 (c line : Nat) : Keeps s (t.roomL1 c line) := kept.trans (.ofHome (t.roomL1_frame c line))
theorem fill (c : Nat) (va : Word) (pa n : Nat) : Keeps s (t.fill c va pa n) := kept.trans (.ofHome (t.fill_frame c va pa n))
theorem fillLine (c line : Nat) : Keeps s (t.fillLine c line) := kept.trans (.ofHome (t.fillLine_frame c line))

theorem loadHome (h : Nat) (arrived : Bool) (pa n : Nat) (pbmt : BitVec 2) : Keeps s (t.loadHome h arrived pa n pbmt).state :=
  ldRes_ite kept (ldRes_ite (kept.sendSnoop _) (ldRes_ite kept (ldRes_ite kept kept)))

theorem loadCached (h : Nat) (arrived : Bool) (va : Word) (pa n : Nat) (pbmt : BitVec 2) :
    Keeps s (t.loadCached h arrived va pa n pbmt).state := by
  unfold State.loadCached
  dsimp only
  split
  · exact kept
  · exact kept
  · refine ldRes_ite ?_ (ldRes_ite (ldRes_ite kept kept) (ldRes_ite kept (ldRes_ite kept (ldRes_ite kept (kept.fill _ _ _ _)))))
    split
    · exact ldRes_ite kept kept
    · exact ldRes_ite kept (ldRes_ite kept (kept.fillLine _ _))

theorem loadG (h : Nat) (arrived : Bool) (va : Word) (pa n : Nat) (pbmt : BitVec 2) :
    Keeps s (t.loadG h arrived va pa n pbmt).state := by
  unfold State.loadG
  split
  · exact kept.loadMember _ _ _ _ _ _
  · exact ldRes_ite kept (ldRes_ite (kept.loadHome _ _ _ _ _) (kept.loadCached _ _ _ _ _ _))

end

end Keeps

end Sys2Proof.Machine

/-! PROOF of TimedWaits. -/

namespace Sys2Proof.Machine

/-! ## Ends of a wait (R148, R176) -/

theorem finish_result_harts (s : State) (t : State) (f : Hart → Hart) (harts : t.harts = s.harts) (cur : t.cur = s.cur)
    (pc : (f s.me).pc = s.me.pc) (d : Reg) (v : Word) :
    ∃ u, finish s (.ok ((t.modHart s.cur f).result d v)) = .next u ∧ u.harts = (s.done ((f s.me).wr d v) 8).harts ∧
      u.cores = t.cores := by
  have both : (t.modHart s.cur f).result d v = t.modHart s.cur fun x => (f x).wr d v := by
    rw [State.result, show (t.modHart s.cur f).cur = s.cur from cur]
    simp only [State.modHart, State.hart_setHart, State.setHart_setHart]
  obtain ⟨next, done⟩ := finish_modHart_harts harts (fun x => (f x).wr d v) ((Hart.wr_pc _ _ _).trans pc)
  exact ⟨_, by rw [both, next], done, rfl⟩

/-- A wait whose condition holds acquires and writes its value. -/
theorem finish_acquireFor (s : State) (d : Reg) (v : Word) :
    ∃ u, finish s (.ok ((s.acquireFor s.cur).result d v)) = .next u ∧ u.harts = (s.done (s.me.dropStrips.wr d v) 8).harts ∧
      (u.core (coreOf s.cur)).l1 = (s.core (coreOf s.cur)).l1.filter fun w => w.owned := by
  obtain ⟨u, next, harts, cores⟩ := finish_result_harts s (s.acquireAll (coreOf s.cur)) Hart.dropStrips rfl rfl rfl d v
  refine ⟨u, next, harts, ?_⟩
  have l1 := s.selfInvalidate_l1 (coreOf s.cur) fun _ => true
  simp only [Bool.not_true, Bool.or_false] at l1
  rw [State.core, cores]
  exact l1

/-- A wait that begins notes its deadline. -/
theorem finish_stallFor {s : State} (first : s.me.wait = none) (timeout : BitVec 24) :
    ∃ u w, finish s (s.stallFor timeout) = .next u ∧ (u.hart s.cur).wait = some w ∧ w.expired = false ∧
      (u.hart s.cur).pc = s.me.pc ∧ w.deadline = if timeout = 0 then none else some (s.gtime + 1024 * timeout.toNat) := by
  let w : Wait := { kind := .retry, epoch := s.epoch
                    deadline := if timeout = 0 then none else some (s.gtime + 1024 * timeout.toNat)
                    expired := false, stage := 0, arg := 0 }
  have begins : finish s (s.stallFor timeout) = .next ((s.modHart s.cur fun x => { x with wait := some w }).markWait s.cur) := by
    simp only [State.stallFor, first]
    rfl
  rw [begins]
  refine ⟨_, w, rfl, ?_, rfl, ?_, rfl⟩
  all_goals simp only [State.markWait, State.modHart, State.hart_setHart]
  all_goals rfl

/-! ## TLREAD and TLWAIT (R176) -/

section
variable {s : State} {d tl b : Reg} {timeout : BitVec 24}

theorem effTlwait_unissued (unissued : (s.me.tline tl.toNat).issued < (s.me.rd b).toNat) :
    effTlwait d tl b timeout s = .ok (s.result d (BitVec.ofNat 64 (s.me.tline tl.toNat).done)) := if_pos unissued

variable (issued : (s.me.rd b).toNat ≤ (s.me.tline tl.toNat).issued)
include issued

theorem effTlwait_reached (reached : (s.me.rd b).toNat ≤ (s.me.tline tl.toNat).done) :
    effTlwait d tl b timeout s = .ok ((s.acquireFor s.cur).result d (BitVec.ofNat 64 (s.me.tline tl.toNat).done)) :=
  (if_neg (Nat.not_lt.mpr issued)).trans (if_pos reached)

variable (ahead : (s.me.tline tl.toNat).done < (s.me.rd b).toNat)
include ahead

theorem effTlwait_expired (expired : s.me.expired = true) :
    effTlwait d tl b timeout s = .ok (s.result d (BitVec.ofNat 64 (s.me.tline tl.toNat).done)) :=
  (if_neg (Nat.not_lt.mpr issued)).trans ((if_neg (Nat.not_le.mpr ahead)).trans (if_pos expired))

theorem effTlwait_waits (running : s.me.expired = false) : effTlwait d tl b timeout s = s.stallFor timeout :=
  (if_neg (Nat.not_lt.mpr issued)).trans ((if_neg (Nat.not_le.mpr ahead)).trans (if_neg (ne_true_of_eq_false running)))

end

theorem Hart.expired_none {x : Hart} (none : x.wait = none) : x.expired = false := by rw [Hart.expired, none]

theorem timelineReads : Claims.TimelineReads := by
  intro s d tl b timeout x t n done
  refine ⟨finish_result s d _, finish_result s d _,
    fun unissued => (congrArg (finish s) (effTlwait_unissued unissued)).trans (finish_result s d _), fun issued reached => ?_,
    fun issued ahead expired => (congrArg (finish s) (effTlwait_expired issued ahead expired)).trans (finish_result s d _),
    fun issued ahead first => ?_⟩
  · obtain ⟨u, next, effects⟩ := finish_acquireFor s d (BitVec.ofNat 64 t.done)
    exact ⟨u, (congrArg (finish s) (effTlwait_reached issued reached)).trans next, effects⟩
  · obtain ⟨u, w, next, effects⟩ := finish_stallFor first timeout
    exact ⟨u, w, (congrArg (finish s) (effTlwait_waits issued ahead (Hart.expired_none first))).trans next, effects⟩

/-! ## WAITA (R148) -/

/-- A WAITA whose word reads. -/
theorem effWaita_reads {s u r : State} {inA : Bool} {a : Reg} {p : ElemPlace} {bs : List Byte} (aligned : (s.me.rd a).toNat % 8 = 0)
    (located : s.locate s.cur (if inA then .a else .g) .load (s.me.rd a) 8 = (u, .at_ p))
    (memory : ∀ pa m, p = .g pa m → inCtrl pa = false) (cur : u.cur = s.cur) (word : u.waitaWord s.cur p = .val r bs)
    (cond : WaitCond) (d b : Reg) (timeout : BitVec 24) : effWaita cond inA d a b timeout s =
      if waitCond cond (BitVec.ofNat 64 (leNat bs)) (r.me.rd b) then .ok ((r.acquireFor r.cur).result d (BitVec.ofNat 64 (leNat bs)))
      else if r.me.expired then .ok (r.result d (BitVec.ofNat 64 (leNat bs))) else r.stallFor timeout := by
  rw [← cur] at word
  refine (if_neg (not_not.mpr aligned)).trans ?_
  cases p with
  | g pa m => simp only [located, memory pa m rfl, word, Bool.false_eq_true, if_false]
  | a c off => simp only [located, word]
  | c off => simp only [located, word]
  | w off => simp only [located, word]

/-! ## The ends of timeouts -/

theorem State.asHart_next {s t : State} {h : Nat} {f : State → Out} (next : f { s with cur := h } = .next t) :
    s.asHart h f = .next { t with cur := s.cur } := by
  simp only [State.asHart, next]

/-- The hart of an instruction that ends with a register written. -/
theorem State.done_wr_hart {r : State} {h : Nat} (cur : r.cur = h) (y : Hart) (d : Reg) (v : Word) :
    ((r.done (y.wr d v) 8).hart h).rd d = (if d = 0 then 0 else v) ∧ ((r.done (y.wr d v) 8).hart h).pc = r.me.pc + 8 ∧
      ((r.done (y.wr d v) 8).hart h).wait = none := by
  subst cur
  rw [State.done_hart]
  refine ⟨?_, rfl, rfl⟩
  show (y.wr d v).rd d = _
  rw [Hart.rd_wr]
  by_cases zero : d = 0
  · rw [if_neg (fun both => both.2 zero), if_pos zero, zero]
    rfl
  · rw [if_pos ⟨rfl, zero⟩, if_neg zero]

theorem State.timedOut_due {s : State} {h : Nat} {w : Wait} {t : Nat} (waits : (s.hart h).wait = some w)
    (deadline : w.deadline = some t) (due : t ≤ s.gtime) (running : w.expired = false) : s.timedOut h = true := by
  simp [State.timedOut, waits, deadline, due, running]

/-- The hart whose wait has ended, seen as the issuing one. -/
theorem State.expire_me {s : State} {h : Nat} {w : Wait} (waits : (s.hart h).wait = some w) :
    ({ s.expire h with cur := h } : State).me = { s.hart h with wait := some { w with expired := true } } := by
  have hart : (s.expire h).hart h = { s.hart h with wait := (s.hart h).wait.map fun w => { w with expired := true } } :=
    State.hart_setHart s h _
  exact hart.trans (by rw [waits]; rfl)

/-- A WAITA at its deadline whose word reads writes the word, whether its condition holds or not. -/
theorem waita_expires {e v r : State} {inA : Bool} {a : Reg} {p : ElemPlace} {bs : List Byte} (expired : e.me.expired = true)
    (aligned : (e.me.rd a).toNat % 8 = 0)
    (located : e.locate e.cur (if inA then .a else .g) .load (e.me.rd a) 8 = (v, .at_ p))
    (memory : ∀ pa m, p = .g pa m → inCtrl pa = false) (word : v.waitaWord e.cur p = .val r bs) (cond : WaitCond) (d b : Reg)
    (timeout : BitVec 24) : ∃ u, exec (.waita cond inA d a b timeout) e = .next u ∧
      (u.hart e.cur).rd d = (if d = 0 then 0 else BitVec.ofNat 64 (leNat bs)) ∧ (u.hart e.cur).pc = e.me.pc + 8 ∧
      (u.hart e.cur).wait = none := by
  have frame : TrFrame e v := by
    have := e.locate_frame e.cur (if inA then .a else .g) .load (e.me.rd a) 8
    rwa [located] at this
  have kept : PackKeeps v r := by
    have := (PackKeeps.refl v).waitaWord e.cur p
    rwa [word] at this
  have cur : r.cur = e.cur := kept.keeps.cur.trans frame.cur
  have me : r.me = { e.me with asyncs := v.me.asyncs, pack := r.me.pack } := by
    have hart := kept.hart r.cur
    rw [show v.hart r.cur = v.me from congrArg v.hart kept.keeps.cur, frame.me] at hart
    exact hart
  have pc : r.me.pc = e.me.pc := by rw [me]
  have reads := (congrArg (finish e) (effWaita_reads aligned located memory frame.cur word cond d b timeout)).trans
    (finish_of_cur cur _)
  rw [if_pos (show r.me.expired = true by rw [me]; exact expired)] at reads
  split at reads
  · obtain ⟨u, next, harts, -⟩ := finish_acquireFor r d (BitVec.ofNat 64 (leNat bs))
    refine ⟨u, reads.trans next, ?_⟩
    rw [State.hart, harts, ← pc]
    exact State.done_wr_hart cur _ _ _
  · refine ⟨_, reads.trans (finish_result r d _), ?_⟩
    rw [← pc]
    exact State.done_wr_hart cur _ _ _

/-- A TLWAIT at its deadline writes DONE. -/
theorem tlwait_expires {e : State} (expired : e.me.expired = true) (d tl b : Reg) (timeout : BitVec 24) :
    ∃ u, exec (.tlwait d tl b timeout) e = .next u ∧
      (u.hart e.cur).rd d = (if d = 0 then 0 else BitVec.ofNat 64 (e.me.tline tl.toNat).done) ∧
      (u.hart e.cur).pc = e.me.pc + 8 ∧ (u.hart e.cur).wait = none := by
  have done := finish_result e d (BitVec.ofNat 64 (e.me.tline tl.toNat).done)
  by_cases issued : (e.me.rd b).toNat ≤ (e.me.tline tl.toNat).issued
  · by_cases reached : (e.me.rd b).toNat ≤ (e.me.tline tl.toNat).done
    · obtain ⟨u, next, harts, -⟩ := finish_acquireFor e d (BitVec.ofNat 64 (e.me.tline tl.toNat).done)
      refine ⟨u, (congrArg (finish e) (effTlwait_reached issued reached)).trans next, ?_⟩
      rw [State.hart, harts]
      exact State.done_wr_hart rfl _ _ _
    · exact ⟨_, (congrArg (finish e) (effTlwait_expired issued (Nat.not_le.mp reached) expired)).trans done,
        State.done_wr_hart rfl _ _ _⟩
  · exact ⟨_, (congrArg (finish e) (effTlwait_unissued (Nat.not_le.mp issued))).trans done, State.done_wr_hart rfl _ _ _⟩

/-- Settles O17. -/
theorem timedWaits : Obligations.TimedWaits := by
  refine ⟨timelineReads, ?word, ?timeout⟩
  case word =>
    intro s u r cond inA d a b timeout p bs va aligned located memory word v holds
    have cur : u.cur = s.cur := by
      have := s.locate_cur s.cur (if inA then .a else .g) .load va 8
      rwa [located] at this
    have cur' : r.cur = s.cur := by
      have := ((Keeps.refl u).waitaWord s.cur p).cur
      rw [word] at this
      exact this.trans cur
    have reads := effWaita_reads aligned located memory cur word cond d b timeout
    have test : waitCond cond v (r.me.rd b) = holds := by
      cases cond with
      | ne => exact (decide_not ..).symm
      | eq => rfl
      | geu => rfl
    rw [test] at reads
    have runs : exec (.waita cond inA d a b timeout) s = finish r _ := (congrArg (finish s) reads).trans (finish_of_cur cur' _)
    refine ⟨fun met => ?_, fun unmet expired => ?_, fun unmet first => ?_⟩
    · obtain ⟨t, next, effects⟩ := finish_acquireFor r d v
      rw [met, if_pos rfl] at runs
      exact ⟨t, runs.trans next, cur' ▸ effects⟩
    · rw [unmet, if_neg Bool.false_ne_true, if_pos expired] at runs
      exact runs.trans (finish_result r d v)
    · rw [unmet, if_neg Bool.false_ne_true, if_neg (ne_true_of_eq_false (Hart.expired_none first))] at runs
      obtain ⟨t, w, next, waits, running, -, deadline⟩ := finish_stallFor first timeout
      exact ⟨t, w, runs.trans next, cur' ▸ waits, running, deadline⟩
  case timeout =>
    intro s h w t n waits deadline due running
    have timed := State.timedOut_due waits deadline due running
    have me := State.expire_me waits
    have expired : ({ s.expire h with cur := h } : State).me.expired = true := by rw [me]; rfl
    refine ⟨fun cond inA d a b tmo v r p bs item aligned located memory word => ?_, fun d tl b tmo item => ?_⟩
    · obtain ⟨u, ends, rd, pc, wait⟩ := waita_expires expired (by rw [me]; exact aligned) (by rw [me]; exact located) memory word
        cond d b tmo
      rw [me] at pc
      refine ⟨{ u with cur := s.cur }, ?_, rd, pc, wait, rfl⟩
      show execWaitaTimeout h s = _
      rw [execWaitaTimeout, if_pos timed, item]
      exact State.asHart_next ends
    · obtain ⟨u, ends, rd, pc, wait⟩ := tlwait_expires expired d tl b tmo
      rw [me] at pc rd
      refine ⟨{ u with cur := s.cur }, ?_, rd, pc, wait, rfl⟩
      show execTlwaitTimeout h s = _
      rw [execTlwaitTimeout, if_pos timed, item]
      exact State.asHart_next ends

end Sys2Proof.Machine

/-! PROOF of OwnershipSteps: what recalls at the homes can change, the words that an eviction takes out of L1, and the table and the
owner's word that a registration leaves. -/

namespace Sys2Proof.Machine

/-! ## What the steps of a recall keep (R139, R184, R185) -/

/-- A predicate on states that no step of a recall or of a write at a home falsifies: a table is rewritten (an empty one stays
empty), a core's copy of a word is demoted, and what is neither a table nor a core changes. -/
structure HomeSteps (P : State → Prop) : Prop where
  table : ∀ s pa l, (s.table pa = [] → l = []) → P s → P (s.setTable pa l)
  demote : ∀ s c w, P s → P (s.demote c w)
  other : ∀ s t : State, t.tables = s.tables → t.cores = s.cores → P s → P t

namespace HomeSteps

variable {P : State → Prop} (steps : HomeSteps P) {s : State}
include steps

theorem writeBack (w : Nat) (kept : P s) : P (s.writeBack w) := by
  unfold State.writeBack
  split
  · next c _ => exact steps.other (s.demote c w) _ rfl rfl (steps.demote s c w kept)
  · exact kept

theorem recallEntry (pa : Nat) (e : RangeEntry) (kept : P s) : P (s.recallEntry pa e) := by
  refine steps.table _ pa _ (fun empty => by rw [empty]; rfl) ?_
  exact foldl_keeps State.writeBack (fun _ w => steps.writeBack w) e.words s kept

theorem makeRoom (pa n k : Nat) (kept : P s) : P (s.makeRoom pa n k) := by
  induction k generalizing s with
  | zero => exact kept
  | succ k ih =>
    unfold State.makeRoom
    split
    · exact kept
    · split
      · exact kept
      · exact ih (steps.recallEntry pa _ kept)

theorem leaveTable (w : Nat) (kept : P s) : P (s.leaveTable w) :=
  steps.table _ _ _ (fun empty => congrArg (List.flatMap fun e => e.remove w) empty) (steps.makeRoom _ _ _ kept)

theorem recallWord (w : Nat) (kept : P s) : P (s.recall w) := by
  unfold State.recall
  split
  · exact steps.leaveTable w (steps.writeBack w kept)
  · exact kept

theorem recallRange (pa n : Nat) (kept : P s) : P (s.recallRange pa n) :=
  foldl_keeps State.recall (fun _ w => steps.recallWord w) _ s kept

theorem sendSnoop (line : Nat) (kept : P s) : P (s.sendSnoop line) := by
  unfold State.sendSnoop
  split
  · exact kept
  · exact steps.other s _ rfl rfl kept

theorem snoopFor (pa n : Nat) (kept : P s) : P (s.snoopFor pa n) := by
  unfold State.snoopFor
  split
  · exact kept
  · split
    · exact steps.sendSnoop _ kept
    · exact kept

theorem devPut (pa : Nat) (bs : List Byte) (kept : P s) : P (s.devPut pa bs) := by
  unfold State.devPut
  split
  · exact steps.other (s.snoopFor pa bs.length) _ rfl rfl (steps.snoopFor pa bs.length kept)
  · exact steps.other (s.recallRange pa bs.length) _ rfl rfl (steps.recallRange pa bs.length kept)

theorem cleanWord (u : ULine) (k : Nat) (kept : P s) : P (u.cleanWord s k) := by
  unfold ULine.cleanWord
  split
  · exact steps.devPut _ _ kept
  · refine foldl_keeps _ (fun t i kept => ?_) _ s kept
    split
    · exact steps.devPut _ _ kept
    · exact kept

end HomeSteps

/-! ## Words of L1 -/

@[simp] theorem Core.l1get_l1put (c : Core) (x : L1Word) : (c.l1put x).l1get x.w = some x := by
  simp [Core.l1put, Core.l1get]

theorem Core.l1get_l1put_ne {c : Core} {x : L1Word} {w : Nat} (other : w ≠ x.w) : (c.l1put x).l1get w = c.l1get w := by
  rw [Core.l1put, Core.l1get, Core.l1get, List.find?_cons_of_neg (by simpa using fun same => other same.symm), List.find?_filter]
  congr 1
  funext y
  by_cases same : y.w = w
  · simp [same, other]
  · simp [same]

@[simp] theorem Core.l1get_l1drop (c : Core) (w : Nat) : (c.l1drop w).l1get w = none := by
  simp [Core.l1drop, Core.l1get]

theorem Core.l1get_l1drop_none {c : Core} {w : Nat} (v : Nat) (absent : c.l1get w = none) : (c.l1drop v).l1get w = none := by
  simp only [Core.l1drop, Core.l1get, List.find?_eq_none, List.mem_filter] at absent ⊢
  exact fun y mem => absent y mem.1

theorem Core.l1get_w {c : Core} {w : Nat} {y : L1Word} (found : c.l1get w = some y) : y.w = w := by
  have named := List.find?_some found
  exact beq_iff_eq.mp named

/-- Every word of L1 is found, or one like it. -/
theorem Core.l1get_absent {c : Core} {w : Nat} : c.l1get w = none ↔ w ∉ c.l1.map fun x => x.w := by
  simp [Core.l1get]

/-! ## EVICT (R168, R187) -/

/-- No core of `t` has a word in L1 that it has not in `s`, and the untracked lines are the same. -/
def L1Less (s t : State) : Prop :=
  ∀ c, (t.core c).ul1 = (s.core c).ul1 ∧ ∀ w, (s.core c).l1get w = none → (t.core c).l1get w = none

namespace L1Less

theorem refl (s : State) : L1Less s s := fun _ => ⟨rfl, fun _ => id⟩

theorem trans {s t u : State} (a : L1Less s t) (b : L1Less t u) : L1Less s u := fun c =>
  ⟨(b c).1.trans (a c).1, fun w absent => (b c).2 w ((a c).2 w absent)⟩

/-- A change of one core that gives it no word. -/
theorem modCore {s t : State} (less : L1Less s t) (c : Nat) {f : Core → Core} (lines : (f (t.core c)).ul1 = (t.core c).ul1)
    (words : ∀ w, (t.core c).l1get w = none → (f (t.core c)).l1get w = none) : L1Less s (t.modCore c f) := by
  refine less.trans fun k => ?_
  rcases eq_or_ne k c with rfl | other
  · rw [State.core_modCore]
    exact ⟨lines, words⟩
  · have same : (t.modCore c f).core k = t.core k := getAt_putAt_ne _ _ _ _ _ other.symm
    rw [same]
    exact ⟨rfl, fun _ => id⟩

theorem steps (s : State) : HomeSteps (L1Less s) where
  table _ _ _ _ less := less
  other t u _ cores less := fun c => by
    have same : u.core c = t.core c := congrArg (fun l => getAt Core.reset l c) cores
    rw [same]
    exact less c
  demote t c w less := by
    refine less.modCore c ?_ fun v absent => ?_
    · split
      · split <;> rfl
      · rfl
    · split
      case h_1 y found =>
        split
        · exact Core.l1get_l1drop_none w absent
        · refine (Core.l1get_l1put_ne ?_).trans absent
          rintro rfl
          rw [Core.l1get_w found, found] at absent
          cases absent
      · exact absent

/-- A word that leaves is not there. -/
theorem evictWord {s t : State} (less : L1Less s t) (c w : Nat) :
    L1Less s (t.evictWord c w) ∧ ((t.evictWord c w).core c).l1get w = none := by
  unfold State.evictWord
  extract_lets u
  have recalled : L1Less s u := by
    unfold u
    split
    · split
      · exact (steps s).recallWord w less
      · exact less
    · exact less
  refine ⟨recalled.modCore c rfl fun v => Core.l1get_l1drop_none w, ?_⟩
  rw [State.core_modCore]
  exact Core.l1get_l1drop _ w

/-- The words of a list leave one after another. -/
theorem evictWords (c : Nat) (ws : List Nat) {s t : State} (less : L1Less s t) :
    L1Less s (ws.foldl (fun (t : State) w => t.evictWord c w) t) ∧
      ∀ w ∈ ws, ((ws.foldl (fun (t : State) w => t.evictWord c w) t).core c).l1get w = none := by
  induction ws generalizing s t with
  | nil => exact ⟨less, fun _ mem => nomatch mem⟩
  | cons v ws ih =>
    obtain ⟨step, gone⟩ := less.evictWord c v
    obtain ⟨rest, all⟩ := ih step
    refine ⟨rest, fun w mem => ?_⟩
    rcases List.mem_cons.mp mem with rfl | mem
    · exact ((ih (.refl _)).1 c).2 w gone
    · exact all w mem

end L1Less

theorem State.cleanLine_l1 (s : State) (c line : Nat) {w : Nat} (absent : (s.core c).l1get w = none) :
    ((s.cleanLine c line).core c).l1get w = none := by
  unfold State.cleanLine
  split
  · exact absent
  · next u _ =>
    have words : L1Less s ((List.range 16).foldl u.cleanWord s) :=
      foldl_keeps u.cleanWord (fun _ k => (L1Less.steps s).cleanWord u k) _ s (.refl s)
    refine (congrArg (fun x : Core => x.l1get w) (State.core_setCore _ _ _)).trans ?_
    exact (words c).2 w absent

/-- What an eviction of a line leaves of it. -/
theorem evictStep : Claims.EvictStep := by
  intro s c line present
  let ws := ((s.core c).l1.map fun x => x.w).filter fun w => w / 16 == line && !s.inFlight c (4 * w) 4
  let u := ws.foldl (fun (t : State) w => t.evictWord c w) s
  obtain ⟨less, gone⟩ := L1Less.evictWords c ws (.refl s)
  have absent : ∀ w, w / 16 = line → s.inFlight c (4 * w) 4 = false → (u.core c).l1get w = none := by
    intro w inLine still
    by_cases mem : w ∈ (s.core c).l1.map fun x => x.w
    · exact gone w (List.mem_filter.mpr ⟨mem, by simp [inLine, still]⟩)
    · exact (less c).2 w (Core.l1get_absent.mpr mem)
  have some : (ws.isEmpty && ((s.core c).uline line).isNone) = false := by
    rw [Bool.or_eq_true, List.any_eq_true] at present
    rcases present with ⟨y, mem, leaves⟩ | untracked
    · have : y.w ∈ ws := List.mem_filter.mpr ⟨List.mem_map_of_mem mem, leaves⟩
      rw [List.isEmpty_eq_false_iff.mpr (List.ne_nil_of_mem this), Bool.false_and]
    · rw [Option.isNone_eq_false_iff.mpr untracked, Bool.and_false]
  have evicts : ∃ t, s.evictLine c line = .some t ∧
      (∀ w, w / 16 = line → s.inFlight c (4 * w) 4 = false → (t.core c).l1get w = none) ∧ (t.core c).uline line = none := by
    cases found : (s.core c).uline line with
    | none =>
      refine ⟨u, ?_, absent, ?_⟩
      · rw [State.evictLine]
        simp only [found, Option.isNone_none, Bool.and_true] at some ⊢
        rw [some, if_neg Bool.false_ne_true]
      · rw [Core.uline, (less c).1]
        exact found
    | some l =>
      refine ⟨(u.cleanLine c line).dropLine c line, ?_, fun w inLine still => ?_, State.dropLine_uline _ c line⟩
      · rw [State.evictLine]
        simp only [found, Option.isNone_some, Bool.and_false, Bool.false_eq_true, if_false]
        rfl
      · refine (congrArg (fun x : Core => x.l1get w) (State.core_setCore _ _ _)).trans ?_
        exact u.cleanLine_l1 c line (absent w inLine still)
  obtain ⟨t, leaves, words, lines⟩ := evicts
  have frame := State.evictLine_frame s t c line leaves
  refine ⟨t.happen, ?_, frame.harts, frame.regs, words, lines⟩
  show execEvict c line s = _
  rw [execEvict, leaves]
  rfl

/-! ## REGISTER (R168, R183, R184) -/

/-- The words of one line have one home slice. -/
theorem State.homeOf_line (s : State) {v w : Nat} (line : v / 16 = w / 16) : s.homeOf (4 * v) = s.homeOf (4 * w) := by
  have slice : 4 * v / 256 = 4 * w / 256 := by omega
  have number : 4 * v / 64 = 4 * w / 64 := by omega
  rw [State.homeOf, State.homeOf, State.homeDie, State.homeDie, slice, number]

theorem HomeFrame.homeOf {s t : State} (frame : HomeFrame s t) (pa : Nat) : t.homeOf pa = s.homeOf pa := by
  rw [frame.rest]
  rfl

/-- An empty table of a home slice stays empty. -/
theorem emptyTable_steps (k : Nat) : HomeSteps fun s => getAt [] s.tables k = [] where
  table s pa l empty kept := by
    show getAt [] (putAt [] s.tables (s.homeOf pa) l) k = []
    rcases eq_or_ne (s.homeOf pa) k with rfl | other
    · rw [getAt_putAt_self]
      exact empty kept
    · rwa [getAt_putAt_ne _ _ _ _ _ other]
  demote _ _ _ kept := kept
  other _ _ tables _ kept := by rwa [tables]

theorem emptyTable_evictLine {k : Nat} {s t : State} {c line : Nat} (evicts : s.evictLine c line = some t)
    (empty : getAt [] s.tables k = []) : getAt [] t.tables k = [] := by
  have steps := emptyTable_steps k
  have words (u : State) (w : Nat) (empty : getAt [] u.tables k = []) : getAt [] (u.evictWord c w).tables k = [] := by
    unfold State.evictWord
    split
    · split
      · exact steps.recallWord w empty
      · exact empty
    · exact empty
  have left (ws : List Nat) : getAt [] (ws.foldl (fun (t : State) w => t.evictWord c w) s).tables k = [] :=
    foldl_keeps (fun (t : State) w => t.evictWord c w) words ws s empty
  unfold State.evictLine at evicts
  dsimp only at evicts
  split at evicts
  · cases evicts
  · split at evicts <;> cases evicts
    · unfold State.cleanLine
      split
      · exact left _
      · next v _ => exact foldl_keeps (P := fun u : State => getAt [] u.tables k = []) v.cleanWord (fun _ k => steps.cleanWord v k) _ _ (left _)
    · exact left _

theorem emptyTable_roomL1 {k : Nat} {s : State} (c line : Nat) (empty : getAt [] s.tables k = []) :
    getAt [] (s.roomL1 c line).tables k = [] := by
  unfold State.roomL1
  dsimp only
  split
  · exact empty
  · split
    · exact empty
    · split
      · next l _ =>
        cases evicts : s.evictLine c l with
        | none => exact empty
        | some t => exact emptyTable_evictLine evicts empty
      · exact empty

section
variable {r : Registration} (some : 0 < r.width) (stride : r.width ≤ r.stride)
include some stride

/-- Where word `i` stands in its registration. -/
theorem Registration.word_place (i : Nat) : (r.word i - r.w) / r.stride = i / r.width ∧ (r.word i - r.w) % r.stride = i % r.width := by
  have small : i % r.width < r.stride := Nat.lt_of_lt_of_le (Nat.mod_lt i some) stride
  have offset : r.word i - r.w = i % r.width + r.stride * (i / r.width) := by
    rw [Registration.word, Nat.mul_comm r.stride]
    omega
  rw [offset]
  exact ⟨by rw [Nat.add_mul_div_left _ _ (by omega), Nat.div_eq_of_lt small, Nat.zero_add],
    by rw [Nat.add_mul_mod_self_left, Nat.mod_eq_of_lt small]⟩

theorem Registration.word_injective {i j : Nat} (same : r.word i = r.word j) : i = j := by
  obtain ⟨row, column⟩ := Registration.word_place some stride i
  obtain ⟨row', column'⟩ := Registration.word_place some stride j
  rw [same] at row column
  rw [← Nat.div_add_mod i r.width, ← Nat.div_add_mod j r.width, ← row, ← column, row', column']

/-- The range of a registration covers its words. -/
theorem Registration.covers_word (whole : r.vals.length % r.width = 0) {i : Nat} (named : i < r.vals.length) :
    r.range.covers (r.word i) = true := by
  obtain ⟨row, column⟩ := Registration.word_place some stride i
  have first : r.w ≤ r.word i := by
    rw [Registration.word]
    omega
  have rows : i / r.width < r.vals.length / r.width :=
    Nat.div_lt_div_of_lt_of_dvd (Nat.dvd_of_mod_eq_zero whole) named
  have columns : i % r.width < r.width := Nat.mod_lt i some
  simp [RangeEntry.covers, Registration.range, row, column, first, rows, columns]

end

/-- The core once word `i` of its registration is recorded. `keep`: a later store of the core has given the word its value. -/
def Core.registered (x : Core) (r : Registration) (i : Nat) (keep : Bool) : Core := match x.l1get (r.word i) with
  | some y => x.l1put { y with owned := true, val := if keep then y.val else getAt 0 r.vals i, fwd := getAt 0 r.vals i }
  | none => x.l1put { w := r.word i, vline := r.vline, slot := x.slotOf r.vline, owned := true, val := getAt 0 r.vals i
                      fwd := getAt 0 r.vals i }

theorem Core.l1get_registered (x : Core) (r : Registration) (i : Nat) (keep : Bool) :
    ∃ y, (x.registered r i keep).l1get (r.word i) = some y ∧ y.owned = true ∧ y.fwd = getAt 0 r.vals i := by
  unfold Core.registered
  split
  · next y found =>
    obtain rfl' := Core.l1get_w found
    rw [← rfl']
    exact ⟨_, Core.l1get_l1put x _, rfl, rfl⟩
  · exact ⟨_, Core.l1get_l1put x _, rfl, rfl⟩

theorem Core.l1get_registered_ne {x : Core} {r : Registration} {i w : Nat} (keep : Bool) (other : w ≠ r.word i) :
    (x.registered r i keep).l1get w = x.l1get w := by
  unfold Core.registered
  split
  · next y found => exact Core.l1get_l1put_ne ((Core.l1get_w found).symm ▸ other)
  · exact Core.l1get_l1put_ne other

/-- A registered word of an unowned home word goes to L1, and nothing else of the homes changes but its poison. -/
theorem State.recordWord_full {s : State} {r : Registration} (full : r.mask = 15) (later : List Registration) {i : Nat}
    (empty : s.table (4 * r.word i) = []) : s.recordWord r later i =
      (({ s with bad := clearWords s.bad (4 * r.word i) 4 } : State).setTable (4 * r.word i) []).modCore r.core fun x =>
        x.registered r i (later.any fun q => q.core == r.core && q.touches (4 * r.word i) 4) := by
  have unowned : s.ownerOf (r.word i) = none := by rw [State.ownerOf, empty]; rfl
  have leaves : ({ s with bad := clearWords s.bad (4 * r.word i) 4 } : State).leaveTable (r.word i) =
      ({ s with bad := clearWords s.bad (4 * r.word i) 4 } : State).setTable (4 * r.word i) [] := by
    have still : ({ s with bad := clearWords s.bad (4 * r.word i) 4 } : State).table (4 * r.word i) = [] := empty
    simp [State.leaveTable, State.makeRoom, still]
  unfold State.recordWord
  simp only [full, unowned, beq_self_eq_true, Bool.not_true, Bool.false_and, Bool.false_eq_true, if_false, if_true]
  exact congrArg (fun t : State => t.modCore r.core fun x =>
    x.registered r i (later.any fun q => q.core == r.core && q.touches (4 * r.word i) 4)) leaves

/-- The first `n` words of a registration are recorded: the table of their home is still empty, and the core has their values. -/
structure Recorded (s t : State) (r : Registration) (n : Nat) : Prop where
  home : HomeFrame s t
  empty : t.table (4 * r.w) = []
  words : ∀ i < n, ∃ y, (t.core r.core).l1get (r.word i) = some y ∧ y.owned = true ∧ y.fwd = getAt 0 r.vals i

section
variable {s t : State} {r : Registration} (some : 0 < r.width) (stride : r.width ≤ r.stride) (full : r.mask = 15)
  (line : ∀ i < r.vals.length, r.word i / 16 = r.w / 16)
include some stride full line

theorem Recorded.next {n : Nat} (recorded : Recorded s t r n) (later : List Registration) (named : n < r.vals.length) :
    Recorded s (t.recordWord r later n) r (n + 1) := by
  have slice : t.homeOf (4 * r.word n) = t.homeOf (4 * r.w) := t.homeOf_line (line n named)
  have empty : t.table (4 * r.word n) = [] := (congrArg (getAt [] t.tables) slice).trans recorded.empty
  rw [State.recordWord_full full later empty]
  refine ⟨recorded.home.trans ⟨id, rfl⟩, ?_, fun i before => ?_⟩
  · show getAt [] (putAt [] t.tables (t.homeOf (4 * r.word n)) []) (t.homeOf (4 * r.w)) = []
    rw [slice, getAt_putAt_self]
  · rw [State.core_modCore]
    rcases Nat.lt_succ_iff_lt_or_eq.mp before with earlier | rfl
    · rw [Core.l1get_registered_ne _ fun same => Nat.ne_of_lt earlier (Registration.word_injective some stride same)]
      exact recorded.words i earlier
    · exact Core.l1get_registered _ r i _

theorem Recorded.all (start : Recorded s t r 0) (later : List Registration) :
    Recorded s ((List.range r.vals.length).foldl (fun (t : State) i => t.recordWord r later i) t) r r.vals.length := by
  suffices ∀ n ≤ r.vals.length, Recorded s ((List.range n).foldl (fun (t : State) i => t.recordWord r later i) t) r n from
    this _ (Nat.le_refl _)
  intro n
  induction n with
  | zero => exact fun _ => start
  | succ n ih =>
    intro within
    rw [List.range_succ, List.foldl_append]
    exact (ih (by omega)).next some stride full line later within

end

/-- A range enters an empty table. -/
theorem State.enterRange_empty {s : State} {e : RangeEntry} (empty : s.table (4 * e.base) = []) :
    s.enterRange e = s.setTable (4 * e.base) [e] := by
  simp [State.enterRange, extendFirst, State.makeRoom, empty]

/-- Writes that are noted change neither a table nor a core. -/
theorem noteWrites_home (ws : List Nat) (s : State) :
    HomeFrame s (ws.foldl (fun (t : State) w => t.noteWrite none (4 * w) 4) s) ∧
      (ws.foldl (fun (t : State) w => t.noteWrite none (4 * w) 4) s).tables = s.tables ∧
      (ws.foldl (fun (t : State) w => t.noteWrite none (4 * w) 4) s).cores = s.cores :=
  foldl_keeps (P := fun t => HomeFrame s t ∧ t.tables = s.tables ∧ t.cores = s.cores) _
    (fun t w kept => ⟨kept.1.trans (t.noteWrite_frame none (4 * w) 4), kept.2⟩) ws s ⟨.refl s, rfl, rfl⟩

theorem State.recordWord_frame (s : State) (r : Registration) (later : List Registration) (i : Nat) :
    HomeFrame s (s.recordWord r later i) := by
  unfold State.recordWord
  extract_lets w v full other t new u x y
  have recalled : HomeFrame s t := by
    unfold t
    split
    · exact s.recall_frame w
    · exact .refl s
  have demoted : HomeFrame s u := by
    unfold u
    split
    · split
      · exact recalled
      · exact recalled.trans (t.modCore_frame _ _)
    · exact recalled
  have cleared : HomeFrame s x := by
    unfold x
    split
    · exact demoted.trans ⟨id, rfl⟩
    · exact demoted
  exact (cleared.trans (x.leaveTable_frame w)).trans (State.modCore_frame _ _ _)

theorem State.recordReg_frame (s : State) (r : Registration) (later : List Registration) : HomeFrame s (s.recordReg r later) := by
  unfold State.recordReg
  extract_lets t u v x
  have entered : HomeFrame s v :=
    ((s.roomL1_frame _ _).trans (.fold _ (fun t i => t.recordWord_frame r later i) _ _)).trans (State.enterRange_frame _ _)
  have noRange : HomeFrame s x := by
    unfold x
    split
    · exact (entered.trans (.fold _ State.recall_frame _ _)).trans (State.modCore_frame _ _ _)
    · exact entered
  exact noRange.trans (noteWrites_home _ x).1

section
variable {s : State} {r : Registration} (some : 0 < r.width) (stride : r.width ≤ r.stride) (full : r.mask = 15)
  (line : ∀ i < r.vals.length, r.word i / 16 = r.w / 16)
include some stride full line

/-- A registration of whole words of one line whose home has no range, in device bias: its core is their owner, with its values. -/
theorem State.recordReg_owner (empty : s.table (4 * r.w) = []) (device : s.hostBias (4 * r.w) = false)
    (whole : r.vals.length % r.width = 0) (later : List Registration) {i : Nat} (named : i < r.vals.length) :
    (s.recordReg r later).homeWord (r.word i) = getAt 0 r.vals i ∧ (s.recordReg r later).ownerOf (r.word i) = .some (.core r.core) := by
  have start : Recorded s (s.roomL1 r.core (r.w / 16)) r 0 := by
    refine ⟨s.roomL1_frame _ _, ?_, fun _ before => absurd before (Nat.not_lt_zero _)⟩
    rw [State.table, (s.roomL1_frame _ _).homeOf]
    exact emptyTable_roomL1 _ _ empty
  obtain ⟨home, empty, words⟩ := start.all some stride full line later
  unfold State.recordReg
  extract_lets t u v x
  change HomeFrame s u at home
  change u.table (4 * r.w) = [] at empty
  have entered : v = u.setTable (4 * r.w) [r.range] := State.enterRange_empty empty
  have still : x = v := by
    have bias : v.hostBias (4 * r.w) = false := by
      rw [entered, ← device]
      exact congrArg (fun l : List Nat => l.contains (4 * r.w / 4096)) home.bias
    unfold x
    rw [bias, if_neg Bool.false_ne_true]
  obtain ⟨frame, tables, cores⟩ := noteWrites_home r.words x
  generalize r.words.foldl (fun (t : State) w => t.noteWrite none (4 * w) 4) x = z at frame tables cores ⊢
  have core : z.core r.core = u.core r.core := by
    rw [State.core, cores, still, entered]
    rfl
  have owner : z.ownerOf (r.word i) = .some (.core r.core) := by
    have slice : z.homeOf (4 * r.word i) = u.homeOf (4 * r.w) := by
      rw [z.homeOf_line (line i named), frame.homeOf, still, entered]
      rfl
    have table : z.table (4 * r.word i) = [r.range] := by
      rw [State.table, slice, tables, still, entered]
      exact getAt_putAt_self _ _ _ _
    simp only [State.ownerOf, table, List.find?_cons, Registration.covers_word some stride whole named, Option.map_some]
    rfl
  obtain ⟨y, found, owned, value⟩ := words i named
  refine ⟨?_, owner⟩
  have found : (z.core r.core).l1get (r.word i) = .some y := core ▸ found
  simp only [State.homeWord, owner, found, owned, if_true, value]

end

theorem State.happen_homeWord (s : State) (w : Nat) : s.happen.homeWord w = s.homeWord w := rfl
theorem State.happen_ownerOf (s : State) (w : Nat) : s.happen.ownerOf w = s.ownerOf w := rfl

/-- REGISTER of a registration at its turn. -/
theorem registerStep : Claims.RegisterStep := by
  intro s k r named first free
  generalize gone : ({ s with regs := s.regs.eraseIdx k } : State) = v
  generalize records : v.recordReg r (s.regs.drop (k + 1)) = u
  have frame : HomeFrame v u := records ▸ State.recordReg_frame v r _
  have arrives : execRegister k s = .next u.happen.happen := by
    simp only [execRegister, State.arriveReg, named, first, free, Bool.not_true, Bool.false_eq_true, if_false]
    rw [← records, ← gone]
    rfl
  refine ⟨u.happen.happen, arrives, ?_, ?_, ?_, ?_, ?_⟩
  · rw [State.happen_regs, State.happen_regs, frame.regs, ← gone]
  · rw [State.happen_harts, State.happen_harts, frame.harts, ← gone]
  · rw [State.happen_atoms, State.happen_atoms, frame.atoms, ← gone]
  · rw [State.happen_packs, State.happen_packs, frame.packs, ← gone]
  · intro full empty device some stride whole line i named
    have table : v.table (4 * r.w) = [] := by rw [← gone]; exact empty
    have bias : v.hostBias (4 * r.w) = false := by rw [← gone]; exact device
    rw [State.happen_homeWord, State.happen_homeWord, State.happen_ownerOf, State.happen_ownerOf, ← records]
    exact State.recordReg_owner some stride full line table bias whole _ named

/-- Settles O14: an eviction takes words and lines out of L1 alone, and a registration of an empty home slice is its one range. -/
theorem ownershipSteps : Obligations.OwnershipSteps := ⟨registerStep, evictStep⟩

end Sys2Proof.Machine

/-! PROOF of DrainStep: where the oldest buffered store of a hart goes, and what it leaves. -/

namespace Sys2Proof.Machine

/-! ## The step (R168, R187) -/

section
variable {s t : State} {h : Nat} {e : SbEntry} {rest : List SbEntry} (buffered : (s.hart h).sbuf = e :: rest)
include buffered

/-- A store that nothing holds and that its way takes leaves the buffer. -/
theorem execDrain_put (ready : s.storeReady (coreOf h) e.pa e.data.length e.pbmt = true)
    (posted : s.postedTo h e.pa e.data.length = false) (uncached : e.pbmt = 2 → s.atomUncached h = false)
    (put : s.putStore h false none e.va e.pa e.pbmt e.data = (t, true)) :
    exec (.drain h) s = .next (t.modHart h fun x => { x with sbuf := x.sbuf.drop 1 }).happen := by
  have unheld : (e.pbmt == 2 && s.atomUncached h) = false := by
    by_cases un : e.pbmt = 2
    · rw [uncached un, Bool.and_false]
    · rw [beq_false_of_ne un, Bool.false_and]
  show execDrain h s = _
  simp only [execDrain, State.drainOldest, buffered, posted, unheld, ready, put, Bool.or_self, Bool.false_eq_true, if_false, if_true,
    event]

/-- What becomes of the harts. -/
theorem drained_harts (harts : t.harts = s.harts) : (((t.modHart h fun x => { x with sbuf := x.sbuf.drop 1 }).happen).hart h).sbuf = rest ∧
    { ((t.modHart h fun x => { x with sbuf := x.sbuf.drop 1 }).happen).hart h with sbuf := (s.hart h).sbuf } = s.hart h ∧
    ∀ k, k ≠ h → ((t.modHart h fun x => { x with sbuf := x.sbuf.drop 1 }).happen).hart k = s.hart k := by
  have same (k : Nat) : t.hart k = s.hart k := congrArg (fun l => getAt Hart.reset l k) harts
  have now : ((t.modHart h fun x => { x with sbuf := x.sbuf.drop 1 }).happen).hart h = { s.hart h with sbuf := (s.hart h).sbuf.drop 1 } := by
    rw [← same h]
    exact State.hart_setHart t h _
  refine ⟨by rw [now, buffered]; rfl, by rw [now], fun k other => ?_⟩
  rw [← same k]
  exact State.hart_setHart_ne t h k _ other.symm

end

/-! ## An error in the drain (R347) -/

theorem State.putStore_fails {s : State} {pa : Nat} {bs : List Byte} (fails : s.drainFails pa bs.length = true) (h : Nat) (va : Word)
    (pbmt : BitVec 2) : s.putStore h false none va pa pbmt bs = (s.drainError h va pa bs.length, true) := if_pos fails

/-! ## A registration (R168, R183, R184) -/

theorem joinYoungest_none (c : Nat) (l : List Registration) : joinYoungest c (fun _ => none) l = none := by
  induction l with
  | nil => rfl
  | cons r l ih => simp [joinYoungest, ih]

theorem State.queueReg_alone (s : State) (r : Registration) : s.queueReg r none = { s with regs := s.regs ++ [r] } := by
  rw [State.queueReg]
  have alone : (fun q : Registration => q.join r.core r.hart r.w r.vals none) = fun _ => none := rfl
  rw [alone, joinYoungest_none]
  rfl

theorem State.roomL1_room {s : State} {c : Nat} (room : (s.core c).l1.length + (s.core c).ul1.length < Config.l1Lines) (line : Nat) :
    s.roomL1 c line = s := if_pos room

theorem Core.l1get_own (c : Core) (vline w : Nat) (v : W32) :
    ∃ y, (c.own vline w v).l1get w = some y ∧ y.owned = true ∧ y.val = v := by
  unfold Core.own
  split
  · next y found =>
    obtain same := Core.l1get_w found
    rw [← same]
    exact ⟨_, Core.l1get_l1put c _, rfl, rfl⟩
  · exact ⟨_, Core.l1get_l1put c _, rfl, rfl⟩

theorem Core.l1get_own_ne {c : Core} {vline w k : Nat} (v : W32) (other : k ≠ w) : (c.own vline w v).l1get k = c.l1get k := by
  unfold Core.own
  split
  · next y found => exact Core.l1get_l1put_ne ((Core.l1get_w found).symm ▸ other)
  · exact Core.l1get_l1put_ne other

theorem Core.l1get_ownAll_low {vline k : Nat} {vs : List W32} {c : Core} {w : Nat} (below : k < w) :
    (c.ownAll vline w vs).l1get k = c.l1get k := by
  induction vs generalizing c w with
  | nil => rfl
  | cons v vs ih => exact (ih (by omega)).trans (Core.l1get_own_ne v (by omega))

/-- Words that a core takes are Registered with their values. -/
theorem Core.l1get_ownAll (vline : Nat) {vs : List W32} {c : Core} {w i : Nat} (named : i < vs.length) :
    ∃ y, (c.ownAll vline w vs).l1get (w + i) = some y ∧ y.owned = true ∧ y.val = getAt 0 vs i := by
  induction vs generalizing c w i with
  | nil => exact absurd named (Nat.not_lt_zero i)
  | cons v vs ih =>
    cases i with
    | zero =>
      obtain ⟨y, found, held⟩ := c.l1get_own vline w v
      exact ⟨y, (Core.l1get_ownAll_low (Nat.lt_succ_self w)).trans found, held⟩
    | succ i =>
      obtain ⟨y, found, held⟩ := ih (c := c.own vline w v) (w := w + 1) (Nat.lt_of_succ_lt_succ named)
      exact ⟨y, (congrArg _ (by omega)).trans found, held⟩

theorem dataWords_length (n : Nat) (bs : List Byte) : (dataWords n bs).length = n := by
  induction n generalizing bs with
  | zero => rfl
  | succ n ih => exact congrArg Nat.succ (ih _)

/-- A buffered store to a tracked page in device bias. -/
theorem State.putStore_tracked {s : State} {h pa : Nat} {bs : List Byte} (drains : s.drainFails pa bs.length = false)
    (device : s.hostBias pa = false) (room : (s.core (coreOf h)).l1.length + (s.core (coreOf h)).ul1.length < Config.l1Lines) (va : Word) :
    ∃ t r, s.putStore h false none va pa 0 bs = (t, true) ∧ t.harts = s.harts ∧ t.mem = s.mem ∧ t.tables = s.tables ∧
      t.regs = s.regs ++ [r] ∧ r.core = coreOf h ∧ r.hart = h ∧ r.w = pa / 4 ∧ r.arrived = none ∧
      (bs.length % 4 = 0 → r.vals = dataWords (bs.length / 4) bs ∧ r.mask = 15 ∧ ∀ i, i < bs.length / 4 →
        ∃ y, (t.core (coreOf h)).l1get (pa / 4 + i) = some y ∧ y.owned = true ∧ y.val = getAt 0 r.vals i) ∧
      (bs.length % 4 ≠ 0 → r.vals = [BitVec.ofNat 32 (leNat bs * 2 ^ (8 * (pa % 4)))] ∧
        r.mask = BitVec.ofNat 4 ((2 ^ bs.length - 1) * 2 ^ (pa % 4))) := by
  have put : s.putStore h false none va pa 0 bs = ((s.sendReg h false none va pa bs).happen, true) := by
    simp [State.putStore, drains, device]
  have send : ∃ (f : Core → Core) (r : Registration),
      s.sendReg h false none va pa bs = { s.modCore (coreOf h) f with regs := s.regs ++ [r] } ∧
      r.core = coreOf h ∧ r.hart = h ∧ r.w = pa / 4 ∧ r.arrived = none ∧
      (bs.length % 4 = 0 → r.vals = dataWords (bs.length / 4) bs ∧ r.mask = 15 ∧ ∀ i, i < bs.length / 4 → ∀ x : Core,
        ∃ y, (f x).l1get (pa / 4 + i) = some y ∧ y.owned = true ∧ y.val = getAt 0 r.vals i) ∧
      (bs.length % 4 ≠ 0 → r.vals = [BitVec.ofNat 32 (leNat bs * 2 ^ (8 * (pa % 4)))] ∧
        r.mask = BitVec.ofNat 4 ((2 ^ bs.length - 1) * 2 ^ (pa % 4))) := by
    simp only [State.sendReg, State.roomL1_room room, State.queueReg_alone]
    by_cases whole : bs.length % 4 = 0
    · rw [if_pos whole]
      refine ⟨_, _, rfl, rfl, rfl, rfl, rfl, fun _ => ⟨rfl, rfl, fun i named x => ?_⟩, fun part => absurd whole part⟩
      exact Core.l1get_ownAll _ (by rw [dataWords_length]; exact named)
    · rw [if_neg whole]
      exact ⟨_, _, rfl, rfl, rfl, rfl, rfl, fun all => absurd all whole, fun _ => ⟨rfl, rfl⟩⟩
  obtain ⟨f, r, sends, core, hart, word, arrived, words, bytes⟩ := send
  rw [sends] at put
  refine ⟨_, r, put, rfl, rfl, rfl, rfl, core, hart, word, arrived, fun whole => ?_, bytes⟩
  obtain ⟨vals, mask, owned⟩ := words whole
  refine ⟨vals, mask, fun i named => ?_⟩
  obtain ⟨y, found, held⟩ := owned i named (s.core (coreOf h))
  exact ⟨y, (congrArg (fun x : Core => x.l1get (pa / 4 + i)) (s.core_modCore (coreOf h) f)).trans found, held⟩

/-! ## An untracked line (R187) -/

theorem putAt_getAt (l : List Byte) (o j : Nat) (b : Byte) : getAt 0 (putAt 0 l o b) j = if j = o then b else getAt 0 l j := by
  split
  · next same => rw [same, getAt_putAt_self]
  · next other => exact getAt_putAt_ne _ _ _ _ _ (fun same => other same.symm)

/-- Bytes put into a list stand there, and every other one stays. -/
theorem getAt_putBytes (bs : List Byte) (l : List Byte) (o j : Nat) :
    getAt 0 (putBytes l o bs) j = if o ≤ j ∧ j < o + bs.length then getAt 0 bs (j - o) else getAt 0 l j := by
  induction bs generalizing l o with
  | nil => exact (if_neg (by simp)).symm
  | cons b bs ih =>
    rw [putBytes, ih, putAt_getAt, List.length_cons]
    by_cases first : j = o
    · subst first
      simp [getAt]
    · by_cases later : o + 1 ≤ j ∧ j < o + 1 + bs.length
      · have number : j - o = (j - (o + 1)) + 1 := by omega
        rw [if_pos later, if_pos (by omega), number]
        rfl
      · rw [if_neg later, if_neg first, if_neg (by omega)]

theorem dirtyBits_set {o n i : Nat} (inside : i < n) (line : o + n ≤ 64) : (dirtyBits o n).getLsbD (o + i) = true := by
  rw [dirtyBits, BitVec.getLsbD_ofNat, Nat.testBit_mul_two_pow, Nat.add_sub_cancel_left, Nat.testBit_two_pow_sub_one]
  simp [inside]
  omega

theorem Memory.getAt_readN (m : Memory) {a n i : Nat} (inside : i < n) : getAt 0 (m.readN a n) i = m.read (a + i) := by
  induction n generalizing a i with
  | zero => exact absurd inside (Nat.not_lt_zero i)
  | succ n ih =>
    cases i with
    | zero => rfl
    | succ i => exact (ih (a := a + 1) (Nat.lt_of_succ_lt_succ inside)).trans (congrArg m.read (by omega))

/-- The line of an untracked store: the one of L1, or memory's. -/
def State.lineFor (s : State) (c line : Nat) : ULine := match (s.core c).uline line with
  | some u => u
  | none => { line := line, data := s.mem.readN (64 * line) 64, dirty := 0, bad := s.lineBad line, whole := 0 }

theorem State.fillLine_uline {s : State} {c line : Nat} (room : (s.core c).l1.length + (s.core c).ul1.length < Config.l1Lines) :
    ((s.fillLine c line).core c).uline line = some (s.lineFor c line) ∧ (s.fillLine c line).mem = s.mem := by
  unfold State.fillLine State.lineFor
  cases found : (s.core c).uline line with
  | some u => exact ⟨found, rfl⟩
  | none =>
    dsimp only
    rw [State.roomL1_room room, State.core_modCore]
    exact ⟨List.find?_cons_of_pos (beq_self_eq_true line), rfl⟩

/-- A line with the bytes of a store to it. -/
def ULine.stored (u : ULine) (pa : Nat) (bs : List Byte) : ULine :=
  { u with data := putBytes u.data (pa % 64) bs, dirty := u.dirty ||| dirtyBits (pa % 64) bs.length
           bad := u.bad &&& ~~~(wholeWords (pa % 64) bs.length)
           whole := u.whole ||| wholeWords (pa % 64) bs.length }

/-- A store to an untracked page puts its bytes into the line and marks them. -/
theorem State.storeLine_uline {s : State} {c pa : Nat} (room : (s.core c).l1.length + (s.core c).ul1.length < Config.l1Lines)
    (bs : List Byte) : ((s.storeLine c pa bs).core c).uline (pa / 64) = some ((s.lineFor c (pa / 64)).stored pa bs) := by
  obtain ⟨found, -⟩ := State.fillLine_uline (line := pa / 64) room
  have line := Core.uline_line found
  rw [State.storeLine, State.core_modCore]
  generalize (s.fillLine c (pa / 64)).core c = x at found
  have same : ((fun u : ULine => u.line == pa / 64) ∘ fun u : ULine => if u.line = pa / 64 then u.stored pa bs else u) =
      fun u : ULine => u.line == pa / 64 := by
    funext u
    by_cases at_ : u.line = pa / 64
    · simp [at_, ULine.stored]
    · simp [at_]
  have mapped : List.find? (fun u : ULine => u.line == pa / 64)
      (x.ul1.map fun u : ULine => if u.line = pa / 64 then u.stored pa bs else u) =
      (x.uline (pa / 64)).map fun u : ULine => if u.line = pa / 64 then u.stored pa bs else u := by
    rw [List.find?_map, same]
    rfl
  refine Eq.trans mapped ?_
  rw [found, Option.map_some, if_pos line]

theorem State.putStore_untracked {s : State} {h pa : Nat} {bs : List Byte} (drains : s.drainFails pa bs.length = false)
    (device : s.hostBias pa = false) (va : Word) :
    s.putStore h false none va pa 1 bs = ((s.storeLine (coreOf h) pa bs).happen, true) := by
  simp [State.putStore, drains, device]

theorem State.storeLine_rest {s : State} {c pa : Nat} (room : (s.core c).l1.length + (s.core c).ul1.length < Config.l1Lines)
    (bs : List Byte) : (s.storeLine c pa bs).harts = s.harts ∧ (s.storeLine c pa bs).mem = s.mem ∧
      (s.storeLine c pa bs).regs = s.regs :=
  have frame := s.fillLine_frame c (pa / 64)
  ⟨frame.harts, (State.fillLine_uline room).2, frame.regs⟩

/-! ## A store at its home (R168, R277) -/

theorem State.putStore_bypasses {s : State} {pa : Nat} {pbmt : BitVec 2} {bs : List Byte} (drains : s.drainFails pa bs.length = false)
    (bypasses : pbmt = 2 ∨ s.hostBias pa = true) (alone : (s.hostBias pa && s.hostHolds pa) = false) (h : Nat) (va : Word) :
    s.putStore h false none va pa pbmt bs = (s.homeWrite none pa bs, true) := by
  rw [State.putStore, drains, if_neg Bool.false_ne_true]
  by_cases host : s.hostBias pa = true
  · rw [host, Bool.true_and] at alone
    rw [if_pos host, alone, if_neg Bool.false_ne_true]
  · rw [if_neg host, if_pos (bypasses.resolve_right host)]

theorem State.homeWrite_mem (s : State) (pa : Nat) (bs : List Byte) :
    (s.homeWrite none pa bs).mem = (s.recallRange pa bs.length).mem.writeN pa bs := rfl

/-- Settles O13: an oldest store that drains joins the fabric, a line of L1 or memory, by its page; one with an error is dropped. -/
theorem drainStep : Obligations.DrainStep := by
  intro s h e rest buffered c ready posted uncached room drained
  refine ⟨fun fails => ?fails, fun drains => ⟨fun device tracked room => ?tracked, fun device untracked room inLine => ?untracked,
    fun bypasses alone wf => ?home⟩⟩
  case fails =>
    have runs := execDrain_put buffered ready posted uncached (State.putStore_fails fails h e.va e.pbmt)
    have hart : (s.drainError h e.va e.pa e.data.length).hart h = { s.hart h with
        pend := (s.hart h).pend ++ [{ cause := 6, stval := e.va, destKind := 0, destReg := 0 }] } := State.hart_setHart _ _ _
    have others (k : Nat) (other : k ≠ h) : (s.drainError h e.va e.pa e.data.length).hart k = s.hart k :=
      State.hart_setHart_ne _ h k _ other.symm
    have rests : (s.drainError h e.va e.pa e.data.length).mem = s.mem ∧ (s.drainError h e.va e.pa e.data.length).regs = s.regs :=
      ⟨rfl, rfl⟩
    generalize s.drainError h e.va e.pa e.data.length = t at *
    have now : ((t.modHart h fun x => { x with sbuf := x.sbuf.drop 1 }).happen).hart h =
        { t.hart h with sbuf := (t.hart h).sbuf.drop 1 } := State.hart_setHart t h _
    refine ⟨_, runs, ?_, rests.1, rests.2, ?_, fun k other => ?_⟩
    · rw [now, hart, buffered]
      rfl
    · rw [now, hart]
    · exact (State.hart_setHart_ne t h k _ other.symm).trans (others k other)
  case tracked =>
    obtain ⟨t, r, put, harts, mem, tables, regs, sent⟩ := State.putStore_tracked (h := h) drains device room e.va
    rw [← tracked] at put
    exact ⟨_, ⟨execDrain_put buffered ready posted uncached put, drained_harts buffered harts⟩, mem, tables, r, regs, sent⟩
  case untracked =>
    have put := State.putStore_untracked (h := h) drains device e.va
    rw [← untracked] at put
    have line := State.storeLine_uline (pa := e.pa) room e.data
    obtain ⟨harts, mem, regs⟩ := State.storeLine_rest (pa := e.pa) room e.data
    generalize s.storeLine (coreOf h) e.pa e.data = t at *
    refine ⟨_, ⟨execDrain_put buffered ready posted uncached put, drained_harts buffered harts⟩, mem, regs, _, line,
      fun i named => ⟨?_, ?_⟩, fun j inside outside => ?_⟩
    · refine (getAt_putBytes _ _ _ _).trans ?_
      rw [if_pos ⟨Nat.le_add_right _ i, Nat.add_lt_add_left named _⟩, Nat.add_sub_cancel_left]
    · refine (BitVec.getLsbD_or ..).trans ?_
      rw [dirtyBits_set named inLine, Bool.or_true]
    · refine (getAt_putBytes _ _ _ _).trans ?_
      rw [if_neg (by omega)]
      unfold State.lineFor
      cases (s.core c).uline (e.pa / 64) with
      | some o => rfl
      | none => exact (Memory.getAt_readN _ inside).trans (by rw [Nat.mul_comm])
  case home =>
    have put := State.putStore_bypasses drains bypasses alone h e.va
    have frame := s.homeWrite_frame none e.pa e.data
    have bytes := s.homeWrite_mem e.pa e.data
    have canonical := (s.recallRange_frame e.pa e.data.length).wf wf
    generalize s.homeWrite none e.pa e.data = t at *
    have mem : ((t.modHart h fun x => { x with sbuf := x.sbuf.drop 1 }).happen).mem = t.mem := rfl
    refine ⟨_, ⟨execDrain_put buffered ready posted uncached put, drained_harts buffered frame.harts⟩, frame.regs, ?_,
      fun p outside => ?_⟩
    · rw [mem, bytes, Memory.readN_writeN_self canonical]
    · rw [mem, bytes, Memory.read_writeN canonical, if_neg (by omega)]

end Sys2Proof.Machine

/-! PROOF of TaskSelfAndEnd: what TSELF reads, what the end of a task leaves of its hart, and the forms that are illegal. -/

namespace Sys2Proof.Machine

/-! ## Frames of a task's end (R86, R93) -/

theorem State.cancelLevel_frame (s : State) (l : LevelRec) (va : Word) (part st : Nat) (gang : Option Nat) :
    TrFrame s (s.cancelLevel l va part st gang) :=
  (((s.levelPut_frame l 9 1 1).trans (State.levelPut_frame _ l 8 1 st)).trans (State.levelPut_frame _ l 48 8 _)).trans
    (.ofHome (.fold _ (fun t d => t.modDie_frame d _) _ _))

theorem State.pushHandler_frame (s : State) (x : Ctx) (d part : Nat) (launch arg0 arg1 : Word) (l : LevelRec) :
    TrFrame s (s.pushHandler x d part launch arg0 arg1 l) :=
  (s.levelAdd_frame x launch 1).trans (.ofHome (State.pushOrHold_frame _ d _ rfl))

theorem State.faultHandler_frame (s : State) (x : Ctx) (d part : Nat) (launch arg0 arg1 : Word) :
    TrFrame s (s.faultHandler x d part launch arg0 arg1) := by
  unfold State.faultHandler
  split
  · exact .refl s
  · have frame := s.levelAt_frame x .store launch
    split
    · next t read =>
      rw [read] at frame
      exact frame
    · next t l read =>
      rw [read] at frame
      split
      · exact frame.trans (t.pushHandler_frame x d part launch arg0 arg1 l)
      · split
        · exact frame.trans (t.cancelLevel_frame l launch part 3 none)
        · exact frame

theorem State.joinDec_frame (s : State) (h : Nat) (t : Task) : TrFrame s (s.joinDec h t) := by
  unfold State.joinDec
  split
  · exact .refl s
  · have frame := s.translate_frame { s.ctx h with priv := .user } .store t.rc.joinctr
    split
    · next u c read =>
      rw [read] at frame
      exact frame.trans (.ofHome (u.logDiscard_frame _ _ _))
    · next u pa m read =>
      rw [read] at frame
      split
      · exact frame.trans (.ofHome (u.logDiscard_frame _ _ _))
      · split
        · exact frame.trans (.ofHome (u.want_frame _))
        · exact frame.trans (.ofHome (u.atomicAt_frame _ _ _ _ _))

/-! ## TEND (R86) -/

/-- The hart holds no stream and no cluster. -/
def Bare (s : State) (h : Nat) : Prop := (s.hart h).streams = [] ∧ (s.hart h).lease = 0

theorem TrFrame.bare {s t : State} (frame : TrFrame s t) {h : Nat} (bare : Bare s h) : Bare t h := by
  unfold Bare
  rw [frame.hart h]
  exact bare

theorem State.releaseLease_bare {s : State} {h : Nat} (streams : (s.hart h).streams = []) : Bare (s.releaseLease h) h := by
  rw [State.releaseLease]
  split
  · next none => exact ⟨streams, none⟩
  · have now : (s.modHart h fun x => { x.zeroVectors with lease := 0 }).hart h = { (s.hart h).zeroVectors with lease := 0 } :=
      State.hart_setHart s h _
    refine ⟨?_, ?_⟩
    · exact (congrArg Hart.streams now).trans streams
    · exact congrArg Hart.lease now

theorem Hart.goIdle_fields (x : Hart) : x.goIdle.task = none ∧ x.goIdle.priv = .user ∧ x.goIdle.wait = none ∧
    x.goIdle.streams = x.streams ∧ x.goIdle.lease = x.lease := by
  unfold Hart.goIdle
  split <;> exact ⟨rfl, rfl, rfl, rfl, rfl⟩

/-- A hart whose task has ended with TEND. -/
theorem State.endTask_hart {s : State} {h : Nat} (task : (s.hart h).task ≠ none) : ∃ x : Hart,
    (s.endTask h .tend).hart h = x.goIdle ∧ x.streams = [] ∧ x.lease = 0 := by
  unfold State.endTask
  split
  · next absent => exact absurd absent task
  · next t _ =>
    extract_lets part d ctx user started flushed withdrawn recorded dropped slots released handled pending joined counted traced
    have streams : (dropped.hart h).streams = [] := congrArg Hart.streams (State.hart_setHart recorded h _)
    have bare : Bare released h := State.releaseLease_bare (s := slots.leaveWaits h) streams
    have pendings : TrFrame handled pending :=
      foldl_keeps _ (fun u _ frame => frame.trans (u.faultHandler_frame _ _ _ _ _ _)) _ handled (.refl handled)
    have joins : TrFrame pending joined := by
      unfold joined
      split
      · exact pending.joinDec_frame h t
      · exact .refl pending
    have counts : TrFrame joined counted := by
      unfold counted
      split
      · exact .refl joined
      · exact joined.levelDec_frame _ _ _ _ _
    obtain ⟨streams, lease⟩ := (((pendings.trans joins).trans counts).trans (.ofHome (counted.record_frame _ _ _ _ _))).bare bare
    exact ⟨traced.hart h, State.hart_setHart traced h _, streams, lease⟩

/-- Settles O22: after TEND no step gives the hart a stream or a cluster, and the hart goes idle. -/
theorem taskSelfAndEnd : Obligations.TaskSelfAndEnd := by
  intro s d a b k x writes
  have reads (q : SelfKind) {v : Word} (value : s.selfValue q = v) : writes q v := by
    subst value
    exact finish_result s d (s.selfValue q)
  have task : s.selfValue .task = match s.me.task with
    | some t => t.handle
    | none => 0 := rfl
  have launch : s.selfValue .launch = match s.me.task with
    | some t => t.rc.launch
    | none => 0 := rfl
  refine ⟨fun free => ⟨reads .task (task.trans ?_), reads .launch (launch.trans ?_)⟩,
    fun t held => ⟨reads .task (task.trans ?_), reads .launch (launch.trans ?_)⟩, reads .hart rfl,
    reads .die rfl, reads .part rfl, fun task outside complete quiet joins => ?tend, fun idle barred => ?barred,
    fun idle region i named => ?region⟩
  case tend =>
    have done : s.me.timelinesDone = true := List.all_eq_true.mpr fun t mem => beq_iff_eq.mpr (complete t mem)
    have ends : effTend s = .ok (s.endTask s.cur .tend) := by
      have some : s.me.task.isNone = false := Option.isNone_eq_false_iff.mpr (Option.isSome_iff_ne_none.mpr task)
      have none : s.me.pack.isSome = false := congrArg Option.isSome outside
      simp [effTend, some, none, done, quiet, joins]
    obtain ⟨y, hart, streams, lease⟩ := State.endTask_hart task
    obtain ⟨task, priv, -, streams', lease'⟩ := y.goIdle_fields
    have runs : exec .tend s = .next ((s.endTask s.cur .tend).retire s.cur (((s.endTask s.cur .tend).hart s.cur).pc + 8)) :=
      congrArg (finish s) ends
    generalize s.endTask s.cur .tend = t at *
    have now : (t.retire s.cur ((t.hart s.cur).pc + 8)).hart s.cur =
        { t.hart s.cur with pc := (t.hart s.cur).pc + 8, wait := none } := State.hart_setHart t s.cur _
    refine ⟨_, runs, ?_⟩
    rw [now, hart]
    exact ⟨task, priv, rfl, streams'.trans streams, lease'.trans lease⟩
  case barred =>
    have illegal : effTend s = s.illegal := if_pos (by
      rcases barred with pack | task
      · rw [show s.me.pack.isSome = true from pack, Bool.true_or]
      · rw [show s.me.task = none from task, Option.isNone_none, Bool.or_true])
    exact finish_traps idle illegal
  case region =>
    have member : s.me.inRegion = true := region
    rcases named with rfl | rfl | rfl | rfl | rfl <;> exact finish_traps idle (if_pos member)
  all_goals rw [show s.me.task = _ from ‹x.task = _›]

end Sys2Proof.Machine

/-! PROOF of Configuration: SETMT, SETNV, SETSB, SETSEED and SETVL with the vector queue idle. -/

namespace Sys2Proof.Machine

/-- The widths in bits that SETNV and SETVL take. -/
def IsWidth (n : Nat) : Prop := n = 8 ∨ n = 16 ∨ n = 32 ∨ n = 64

theorem width_test (n : Nat) : (n == 8 || n == 16 || n == 32 || n == 64) = true ↔ IsWidth n := by
  simp [IsWidth, or_assoc]

theorem width_refused {n : Nat} : (!(n == 8 || n == 16 || n == 32 || n == 64)) = true ↔ ¬ IsWidth n := by
  rw [Bool.not_eq_true', Bool.eq_false_iff, ne_eq, width_test]

/-- An instruction that changes its own hart and leaves its PC goes on. -/
theorem finish_modHart {s : State} {r : Res} {f : Hart → Hart} (e : r = .ok (s.modHart s.cur f)) (pc : (f s.me).pc = s.me.pc) :
    finish s r = .next (s.done (f s.me) 8) := e ▸ finish_setHart s (f s.me) pc

section
variable {s : State} {n : Nat}

/-! ## SETMT and SETNV (R58, R131) -/

theorem effSetmt_illegal (large : 4 < n) : effSetmt n s = .trap s 1 s.me.iword := if_pos large

theorem effSetmt_ok (small : n ≤ 4) (idle : s.me.queueIdle = true) :
    effSetmt n s = .ok (s.modHart s.cur fun x => { x with mt := n }) := by
  rw [effSetmt, if_neg (Nat.not_lt.mpr small), Hart.vectorIdle, idle]
  rfl

theorem effSetnv_bad (bad : ¬ IsWidth n) : effSetnv n s = .trap s 1 s.me.iword := if_pos (width_refused.mpr bad)

theorem effSetnv_bound (width : IsWidth n) (bound : s.me.bound = true) : effSetnv n s = .trap s 1 s.me.iword :=
  (if_neg fun bad => width_refused.mp bad width).trans (if_pos bound)

theorem effSetnv_ok (width : IsWidth n) (free : s.me.bound = false) (stored : s.storesDone s.cur = true) :
    effSetnv n s = .ok (s.modHart s.cur fun x => { x.zeroVectors with nvreg := n, vl := 0 }) := by
  rw [effSetnv, if_neg fun bad => width_refused.mp bad width, free, stored]
  rfl

/-! ## SETSB and SETSEED (R342) -/

theorem effSetsb_idle (v : Word) (idle : s.me.queueIdle = true) :
    effSetsb v s = .ok (s.modHart s.cur fun x => { x with sb := v.setWidth 32 }) := by
  rw [effSetsb, Hart.vectorIdle, idle]
  rfl

theorem sbValue_alone (a : Reg) (imm : BitVec 36) (x : Hart) : sbValue false a imm x = x.rd a + imm.signExtend 64 :=
  congrArg (· + imm.signExtend 64) (BitVec.zero_add (x.rd a))

theorem effSetseed_idle (v : Word) (idle : s.me.queueIdle = true) :
    effSetseed v s = .ok (s.modHart s.cur fun x => { x with seed := v }) := by
  rw [effSetseed, Hart.vectorIdle, idle]
  rfl

/-! ## SETVL (R59, R96) -/

theorem Hart.setVl_pc (x : Hart) (d : Reg) (req width : Nat) : (x.setVl d req width).pc = x.pc := by
  rw [Hart.setVl, Hart.wr_pc]

theorem effSetvl_bad (bad : ¬ IsWidth n) (d a : Reg) : effSetvl d a n s = .trap s 1 s.me.iword := if_pos (width_refused.mpr bad)

variable {d a : Reg} (width : IsWidth n) (idle : s.me.queueIdle = true)
include width idle

/-- What SETVL of a width does once the queue is idle. -/
theorem effSetvl_idle : effSetvl d a n s =
    if s.me.rd a = 0 then
      if s.me.lease = 0 then .ok (s.modHart s.cur fun y => y.setVl d 0 n)
      else if s.me.bound then s.illegal
      else if !s.storesDone s.cur then .stall s
      else .ok ((s.releaseLease s.cur).modHart s.cur fun y => y.setVl d 0 n)
    else if s.me.lease ≠ 0 then .ok (s.modHart s.cur fun y => y.setVl d (s.me.rd a).toNat n)
    else if s.clustersLeft (coreOf s.cur) < s.me.leaseWish.1 then .trap s 13 (BitVec.ofNat 64 s.me.leaseWish.1)
    else if s.me.bound then s.illegal
    else if !s.storesDone s.cur then .stall s
    else .stall (s.askLease s.cur) := by
  have zero : ((s.me.rd a).toNat = 0) = (s.me.rd a = 0) := propext ⟨fun e => BitVec.eq_of_toNat_eq e, fun e => congrArg BitVec.toNat e⟩
  rw [effSetvl, if_neg fun bad => width_refused.mp bad width, Hart.vectorIdle, idle]
  simp only [Bool.not_true, Bool.false_eq_true, if_false, zero]

theorem effSetvl_none (lease : s.me.lease = 0) (none : s.me.rd a = 0) :
    effSetvl d a n s = .ok (s.modHart s.cur fun y => y.setVl d 0 n) := by
  rw [effSetvl_idle width idle, if_pos none, if_pos lease]

variable (some : s.me.rd a ≠ 0)
include some

theorem effSetvl_leased (lease : s.me.lease ≠ 0) :
    effSetvl d a n s = .ok (s.modHart s.cur fun y => y.setVl d (s.me.rd a).toNat n) := by
  rw [effSetvl_idle width idle, if_neg some, if_pos lease]

theorem effSetvl_unleased (lease : s.me.lease = 0) : effSetvl d a n s =
    if s.clustersLeft (coreOf s.cur) < s.me.leaseWish.1 then .trap s 13 (BitVec.ofNat 64 s.me.leaseWish.1)
    else if s.me.bound then s.illegal
    else if !s.storesDone s.cur then .stall s
    else .stall (s.askLease s.cur) := by
  rw [effSetvl_idle width idle, if_neg some, if_neg (not_not_intro lease)]

end

/-- A lease request joins the queue of its core, once. -/
theorem State.askLease_queue {s : State} {h : Nat} (first : ∀ r ∈ (s.core (coreOf h)).leaseq, r.hart ≠ h) :
    ((s.askLease h).core (coreOf h)).leaseq = (s.core (coreOf h)).leaseq ++
      [{ hart := h, mincl := (s.hart h).leaseWish.1, prefcl := (s.hart h).leaseWish.2 }] := by
  rw [State.askLease, State.core_modCore, if_neg]
  rw [List.any_eq_true]
  rintro ⟨r, mem, mine⟩
  exact first r mem (beq_iff_eq.mp mine)

/-- A hart that waits keeps its PC and its registers. -/
theorem State.markWait_hart (s : State) (h : Nat) : ((s.markWait h).hart h).pc = (s.hart h).pc ∧ ((s.markWait h).hart h).s = (s.hart h).s := by
  rw [State.markWait, State.modHart, State.hart_setHart]
  split <;> exact ⟨rfl, rfl⟩

/-- Settles O25. -/
theorem configuration : Obligations.Configuration := by
  intro s a d imm idle x n illegal
  refine ⟨fun small => finish_modHart (effSetmt_ok small idle) rfl, fun large => finish_traps idle (effSetmt_illegal large),
    fun width free stored => finish_modHart (effSetnv_ok width free stored) rfl,
    fun width bound => finish_traps idle (effSetnv_bound width bound),
    fun bad => ⟨finish_traps idle (effSetnv_bad bad), finish_traps idle (effSetvl_bad bad d a)⟩, ?_, ?_,
    finish_modHart (effSetseed_idle _ idle) rfl, fun width lease some => ?leased, fun width lease none => ?none,
    fun width lease some free => ⟨fun few => ?few, fun enough stored first => ?asks⟩⟩
  · exact sbValue_alone a imm s.me ▸ finish_modHart (effSetsb_idle (sbValue false a imm s.me) idle) rfl
  · exact finish_modHart (effSetsb_idle (sbValue true a imm s.me) idle) rfl
  case leased => exact finish_modHart (effSetvl_leased width idle some lease) (Hart.setVl_pc ..)
  case none =>
    refine (finish_modHart (effSetvl_none width idle lease none) (Hart.setVl_pc ..)).trans ?_
    rw [Hart.setVl]
    simp only [Nat.zero_min]
    rfl
  case few => exact finish_traps idle ((effSetvl_unleased width idle some lease).trans (if_pos few))
  case asks =>
    have waits : effSetvl d a imm.toNat s = .stall (s.askLease s.cur) := by
      rw [effSetvl_unleased width idle some lease, if_neg (Nat.not_lt.mpr enough), show s.me.bound = false from free, stored]
      rfl
    obtain ⟨pc, regs⟩ := (s.askLease s.cur).markWait_hart s.cur
    exact ⟨_, congrArg (finish s) waits, pc, regs, State.askLease_queue first⟩

end Sys2Proof.Machine

/-! PROOF of VectorQueue: how a vector instruction joins its queue, and how the oldest one of an idle queue starts. -/

namespace Sys2Proof.Machine

/-! ## Issue (R353, R383) -/

theorem exec_queued {i : Instr} (queued : Claims.queued i = true) (s : State) : exec i s = finish s (s.queueVector i) := by
  cases i with
  | mlogic | mpopc | mfirst | vabs | vadd | vadds | vamo | vand | vbscale | vclamp | vcmp | vcompress | vcvt | vdiv | vexp2 | vext
  | vfma | vid | vins | vld | vmax | vmin | vmov | vmul | vmulh | vmulhr | vneg | vor | vpackni | vperm | vred | vrem | vrshr
  | vrsqrt | vsel | vshl | vshr | vslide | vsqrt | vsra | vst | vsub | vunpkni | vxor => rfl
  | _ => cases queued

theorem Hart.entry_fields (x : Hart) (sent : Nat) (i : Instr) :
    (x.entry sent i).instr = i ∧ (x.entry sent i).pc = x.pc ∧ (x.entry sent i).iword = x.iword ∧ (x.entry sent i).num = x.mt := by
  unfold Hart.entry
  split
  · exact ⟨rfl, rfl, rfl, rfl⟩
  · split <;> exact ⟨rfl, rfl, rfl, rfl⟩

section
variable {s : State} {i : Instr}

theorem State.queueVector_full (full : ¬ s.me.vq.length < 8) : s.queueVector i = .stall s :=
  if_pos (decide_eq_true (Nat.not_lt.mp full))

variable (room : s.me.vq.length < 8)
include room

theorem State.queueVector_room : s.queueVector i =
    if !s.me.vectorOk i then (if s.me.vectorIdle then s.illegal else .stall s)
    else .ok (s.modHart s.cur fun y => { y with vq := y.vq ++ [y.entry s.sends i] }) := by
  have open_ : decide (Config.vqDepth ≤ s.me.vq.length) = false := decide_eq_false (Nat.not_le.mpr room)
  rw [State.queueVector, open_, if_neg Bool.false_ne_true]

theorem State.queueVector_ok (ok : s.me.vectorOk i = true) :
    s.queueVector i = .ok (s.modHart s.cur fun y => { y with vq := y.vq ++ [y.entry s.sends i] }) := by
  rw [State.queueVector_room room, ok]
  rfl

theorem State.queueVector_bad (bad : s.me.vectorOk i = false) :
    s.queueVector i = if s.me.queueIdle then .trap s 1 s.me.iword else .stall s := by
  rw [State.queueVector_room room, bad]
  rfl

end

theorem vectorIssue : Claims.VectorIssue := by
  intro s i queued x open_
  rw [exec_queued queued]
  refine ⟨fun room ok => ?_, fun full => ?_, fun room bad idle => ?_, fun room bad busy => ?_⟩
  · obtain ⟨instr, pc, iword, num⟩ := s.me.entry_fields s.sends i
    exact ⟨_, instr, pc, iword, num, finish_modHart (State.queueVector_ok room ok) rfl⟩
  · rw [State.queueVector_full full]
    rfl
  · exact finish_traps idle ((State.queueVector_bad room bad).trans (if_pos idle))
  · rw [State.queueVector_bad room bad, if_neg (ne_true_of_eq_false busy)]
    rfl

/-! ## Start (R342, R354) -/

theorem VRun.firstBad_none {ru : VRun} {x : Hart} {lo n : Nat}
    (clean : ∀ j, lo ≤ j → j < lo + n → x.maskBit (vmaskOf ru.e.instr) j = true → ru.readsBad x j = false) :
    ru.firstBad x lo n = none := by
  induction n generalizing lo with
  | zero => rfl
  | succ n ih =>
    rw [VRun.firstBad, if_neg, ih fun j low high => clean j (by omega) (by omega)]
    intro bad
    obtain ⟨active, reads⟩ := Bool.and_eq_true_iff.mp bad
    rw [clean lo (Nat.le_refl lo) (by omega) active] at reads
    cases reads

theorem VRun.stopAt_shape (ru : VRun) (f : Option VFault) : ∃ g l, ru.stopAt f = { ru with fault := g, limit := l } := by
  unfold VRun.stopAt
  split
  · exact ⟨_, _, rfl⟩
  · exact ⟨_, _, rfl⟩

section
variable {s : State} {h : Nat} (streams : (s.hart h).streams = [])
include streams

theorem Hart.stream_none (r : Reg) : (s.hart h).stream r = none := by
  rw [Hart.stream, streams]
  rfl

/-- Without a stream no strip is popped. -/
theorem State.takeStrips_none (os : List VOp) (ru : VRun) (got : List (VStream × List StripElem)) :
    s.takeStrips h os ru got = .ok (s, ru, got) := by
  induction os with
  | nil => rfl
  | cons o os ih =>
    rw [State.takeStrips, Hart.stream_none streams]
    exact ih

theorem State.addOuts_none (ru : VRun) : s.addOuts h ru = (s, [], none) := by
  unfold State.addOuts
  split
  · rfl
  · rw [Hart.stream_none streams]

end

/-- A run that pops no strip and makes no access waits for no bank. -/
theorem State.withWaits_none (s : State) (h : Nat) {ru : VRun} (strips : ru.strips = []) :
    s.withWaits h ru [[], []] = { ru with waits := [], places := [] } := by
  rw [State.withWaits, strips]
  rfl

/-- A run that makes no access and waits for no bank. -/
def VRun.bare (ru : VRun) : VRun := { ru with waits := [], places := [], outs := [] }

/-- The run of a register instruction that starts, with the poison of its operands. -/
def Hart.freshRun (x : Hart) (e : VEntry) : VRun :=
  let ru := x.newRun e
  { ru with fault := (ru.firstBad x ru.from_ (x.vl - ru.from_)).map fun n =>
      { cause := 7, stval := 0, elem := badElem e.instr n } }

/-- The oldest instruction of a queue with nothing at work starts with its fresh run. -/
theorem State.startVector_fresh {s : State} {h : Nat} {e : VEntry} {rest : List VEntry} (queue : (s.hart h).vq = e :: rest)
    (idle : (s.hart h).run = none) (unlinked : (s.hart h).linked = none) (streams : (s.hart h).streams = [])
    (noMemory : vmemOf e.instr = none) (due : (s.hart h).resultDue e.instr (s.core (coreOf h)).cycle = false) :
    s.startVector h = some (s.modHart h fun y =>
      { y with run := some (((s.hart h).freshRun e).stopAt none).bare }).happen := by
  have pops : s.popAll h (vsrcs e.instr (s.hart h).vl (s.hart h).vew) ((s.hart h).newRun e) = .ok (s, (s.hart h).newRun e) := by
    rw [State.popAll, State.takeStrips_none streams]
    rfl
  have owns : s.ownElems h ((s.hart h).newRun e) (s.hart h).vl = (s, [], ((s.hart h).freshRun e).fault) := by
    unfold State.ownElems
    split
    · next v instr => rw [show e.instr = .vld v from instr] at noMemory; cases noMemory
    · next v instr => rw [show e.instr = .vst v from instr] at noMemory; cases noMemory
    · next op v instr => rw [show e.instr = .vamo op v from instr] at noMemory; cases noMemory
    · rfl
  have run : ({ (s.hart h).newRun e with fault := lowerFault none (lowerFault ((s.hart h).freshRun e).fault none) } : VRun) =
      (s.hart h).freshRun e := by
    cases fault : ((s.hart h).freshRun e).fault <;> exact congrArg (fun f => ({ (s.hart h).newRun e with fault := f } : VRun)) fault.symm
  obtain ⟨g, l, stops⟩ := ((s.hart h).freshRun e).stopAt_shape none
  have strips : (((s.hart h).freshRun e).stopAt none).strips = [] := by rw [stops]; rfl
  have instr : (((s.hart h).freshRun e).stopAt none).e = e := by rw [stops]; rfl
  have waits : ({ s.withWaits h (((s.hart h).freshRun e).stopAt none) [[], []] with outs := [] } : VRun) =
      (((s.hart h).freshRun e).stopAt none).bare := by
    rw [State.withWaits_none s h strips]
    rfl
  have begins : s.startRun h (((s.hart h).freshRun e).stopAt none).bare [] =
      (s.modHart h fun y => { y with run := some (((s.hart h).freshRun e).stopAt none).bare }).happen := by
    unfold State.startRun
    split
    · next v load =>
      rw [show e.instr = .vld v from (congrArg VEntry.instr instr).symm.trans load] at noMemory
      cases noMemory
    · rfl
  rw [← begins, ← waits, ← run]
  unfold State.startVector
  dsimp only
  rw [queue, idle]
  dsimp only
  rw [due, if_neg Bool.false_ne_true, unlinked]
  dsimp only
  rw [pops]
  dsimp only
  rw [State.addOuts_none streams]
  dsimp only
  erw [owns]
  dsimp only
  split
  · next v load =>
    rw [load] at noMemory
    cases noMemory
  · rfl

theorem vectorStart : Claims.VectorStart := by
  intro s h e rest x queue idle unlinked streams queued noMemory due
  have starts := State.startVector_fresh queue idle unlinked streams noMemory due
  have head : s.startHead h = s.startVector h := by
    unfold State.startHead
    rw [queue, idle]
    dsimp only
    split
    · next instr => rw [instr] at queued; cases queued
    · next instr => rw [instr] at queued; cases queued
    · next instr => rw [instr] at queued; cases queued
    · rfl
  obtain ⟨g, l, stops⟩ := (x.freshRun e).stopAt_shape none
  have runs : execVectorStart h s =
      .next (s.modHart h fun y => { y with run := some ((x.freshRun e).stopAt none).bare }).happen := by
    rw [execVectorStart, head, starts]
  refine ⟨_, _, runs, State.hart_setHart s h _, fun k other => State.hart_setHart_ne s h k _ other.symm, rfl, ?_⟩
  have clean (all : ∀ j, (x.newRun e).from_ ≤ j → j < x.vl → x.maskBit (vmaskOf e.instr) j = true → (x.newRun e).readsBad x j = false) :
      (x.freshRun e).stopAt none = x.newRun e := by
    have none : (x.newRun e).firstBad x (x.newRun e).from_ (x.vl - (x.newRun e).from_) = none :=
      VRun.firstBad_none fun j low high => all j low (by omega)
    unfold Hart.freshRun
    dsimp only
    rw [none]
    rfl
  refine ⟨?_, ?_, ?_, ?_, ?_, ?_, ?_, ?_, ?_, rfl, rfl, fun all => ?_⟩
  iterate 9 (rw [stops]; rfl)
  rw [stops] at all
  rw [clean all]
  exact ⟨rfl, rfl⟩

/-- Settles O26. -/
theorem vectorQueue : Obligations.VectorQueue := ⟨vectorIssue, vectorStart⟩

end Sys2Proof.Machine

/-! PROOF of IntegerElements: the integer operations on elements, by the value of an element and the wrap of a result. -/

namespace Sys2Proof.Machine

section
variable (t : Ty)

/-- The value of an integer element, as the claim writes it. -/
theorem tyInt_value (n : Nat) :
    tyInt t n = if t.isSigned = true ∧ 2 ^ (tyBits t - 1) ≤ n then (n : Int) - 2 ^ tyBits t else n := by
  simp only [tyInt, Bool.and_eq_true, decide_eq_true_eq, Nat.cast_pow, Nat.cast_ofNat]

theorem tyWrap_mod (z : Int) : tyWrap t z = (z % 2 ^ tyBits t).toNat := by
  rw [tyWrap, Nat.cast_pow, Nat.cast_ofNat]

variable {t} {n : Nat} (small : n < 2 ^ tyBits t)
include small

theorem tyWrap_natCast : tyWrap t n = n := by
  rw [tyWrap, ← Int.natCast_emod, Int.toNat_natCast, Nat.mod_eq_of_lt small]

/-- The raw bits of an element's value are the element. -/
theorem tyWrap_tyInt : tyWrap t (tyInt t n) = n := by
  rw [tyInt]
  split
  · rw [tyWrap, Int.sub_emod_right]
    exact tyWrap_natCast small
  · exact tyWrap_natCast small

end

/-- The smaller or larger of two integer elements, by their values. -/
theorem vminmax_int {t : Ty} (int : t.isFp = false) (least : Bool) {a b : Nat} (smallA : a < 2 ^ tyBits t) (smallB : b < 2 ^ tyBits t) :
    (vminmax t least a b).bits =
      tyWrap t (if tyInt t a < tyInt t b then (if least then tyInt t a else tyInt t b) else (if least then tyInt t b else tyInt t a)) := by
  rw [vminmax, int, if_neg Bool.false_ne_true]
  by_cases less : tyInt t a < tyInt t b <;> cases least <;> simp [Val.pure, less, tyWrap_tyInt smallA, tyWrap_tyInt smallB]

/-- Settles O28. -/
theorem integerElements : Obligations.IntegerElements := by
  intro v md a b c int wraps t w val wrap is smallA smallB smallC
  have value (n : Nat) : val n = tyInt t n := (tyInt_value t n).symm
  have wrapped (z : Int) : wrap z = tyWrap t z := (tyWrap_mod t z).symm
  have result (z : Int) : intResult t v.sat z = Val.pure (tyWrap t z) := by
    rw [intResult, wraps, if_neg Bool.false_ne_true]
  have float (x y : Val) : (if t.isFp then x else y) = y := if_neg (ne_true_of_eq_false int)
  simp only [is, value, wrapped]
  refine ⟨?_, ?_, ?_, ?_, ?_, ?_, ?_, ?_, ?_, ?_, ?_, ?_, ?_⟩
  case refine_7 => exact (tyWrap_natCast (Nat.and_lt_two_pow _ smallB)).symm
  case refine_8 => exact (tyWrap_natCast (Nat.or_lt_two_pow smallA smallB)).symm
  case refine_9 => exact (tyWrap_natCast (Nat.xor_lt_two_pow smallA smallB)).symm
  case refine_10 => exact vminmax_int int true smallA smallB
  case refine_11 => exact vminmax_int int false smallA smallB
  case refine_13 => exact (tyWrap_natCast (Nat.lt_of_le_of_lt (Nat.div_le_self _ _) smallA)).symm
  all_goals simp only [arithVal, vnegVal, float, result, Val.pure, Nat.cast_pow, Nat.cast_ofNat]
  all_goals rfl

end Sys2Proof.Machine

/-! PROOF of LanewiseGroup and MaskOperations: the cycles of an element group, what its last one does, and the elements that it
computes. -/

namespace Sys2Proof.Machine

/-! ## The cycles of a group (R60, R355) -/

/-- The run with another wait for the banks. -/
def VRun.withWait (ru : VRun) (w : List Nat) : VRun := { ru with waits := w }

theorem VRun.tick_shape (ru : VRun) (x : Hart) (hi : Nat) : ∃ w, ru.tick x hi = ru.withWait w := by
  unfold VRun.tick
  split
  · exact ⟨_, rfl⟩
  · exact ⟨ru.waits, rfl⟩

/-- The run behind its group. -/
def VRun.behind (ru : VRun) (hi : Nat) : VRun := { ru with next := hi, spent := 0 }

/-- The core has noted the lanes that the run uses in this cycle. -/
def State.lanesNoted (s : State) (h : Nat) (ru : VRun) : State :=
  let x := s.hart h
  let hi := ru.groupEnd x.c
  if ru.cycles x hi = 0 then s
  else s.useLanes h ru (groupWidth ru.e.instr ru.vl (8 * ru.width)) (ru.atGroup x.c hi * ru.size x.c)

theorem State.lanesNoted_frame (s : State) (h : Nat) (ru : VRun) : HomeFrame s (s.lanesNoted h ru) := by
  unfold State.lanesNoted
  dsimp only
  split
  · exact .refl s
  · exact ⟨id, rfl⟩

theorem State.lanesNoted_mem (s : State) (h : Nat) (ru : VRun) : (s.lanesNoted h ru).mem = s.mem := by
  unfold State.lanesNoted
  dsimp only
  split <;> rfl

/-- The hart once the last cycle of its group has had its effect. -/
def Hart.grouped (x : Hart) (ru : VRun) (hi now : Nat) : Hart := { ru.group hi x with progress := now, reported := false }

section
variable {s : State} {h : Nat} {ru : VRun} (run : (s.hart h).run = some ru) (ready : s.groupReady h ru = true)
  (more : ru.presented (s.hart h) = false)
include run ready more

/-- A cycle of a group before its last one. -/
theorem State.runGroup_waits (early : ru.spent + 1 < ru.cycles (s.hart h) (ru.groupEnd (s.hart h).c)) : ∃ w,
    s.runGroup h = some ((s.lanesNoted h ru).modHart h fun y =>
      { y with run := some { ru.withWait w with spent := ru.spent + 1 } }).happen := by
  obtain ⟨w, ticks⟩ := ru.tick_shape (s.hart h) (ru.groupEnd (s.hart h).c)
  refine ⟨w, ?_⟩
  unfold State.runGroup
  rw [run]
  dsimp only
  rw [ready, more, Bool.not_true, Bool.or_self, if_neg Bool.false_ne_true, ticks, if_pos (show (ru.withWait w).spent + 1 < _ from early)]
  rfl

/-- The last cycle of a group. -/
theorem State.runGroup_last (last : ru.cycles (s.hart h) (ru.groupEnd (s.hart h).c) ≤ ru.spent + 1) : ∃ w,
    s.runGroup h = some (((s.lanesNoted h ru).modHart h fun y => y.grouped (ru.withWait w) (ru.groupEnd (s.hart h).c)
      (s.lanesNoted h ru).gtime).endGroup h ((ru.withWait w).behind (ru.groupEnd (s.hart h).c))).happen := by
  obtain ⟨w, ticks⟩ := ru.tick_shape (s.hart h) (ru.groupEnd (s.hart h).c)
  refine ⟨w, ?_⟩
  unfold State.runGroup
  rw [run]
  dsimp only
  rw [ready, more, Bool.not_true, Bool.or_self, if_neg Bool.false_ne_true, ticks,
    if_neg (show ¬ (ru.withWait w).spent + 1 < _ from Nat.not_lt.mpr last)]
  rfl

end

/-! ## The end of a group (R60, R62) -/

/-- What the end of a group leaves of its hart: where the instruction has ended, it has left the queue and VSTART is 0. -/
structure GroupEnd (x y : Hart) (ru : VRun) : Prop where
  rest : y = { x with streams := y.streams, vdue := y.vdue, busy := y.busy, passed := y.passed, progress := y.progress
                      reported := y.reported, vq := y.vq, run := y.run, vstart := y.vstart }
  ended : ru.limit ≤ ru.next → y.vq = x.vq.drop 1 ∧ y.run = none ∧ y.vstart = 0
  goesOn : ru.next < ru.limit → y.vq = x.vq ∧ y.run = some ru ∧ y.vstart = x.vstart

/-- The hart of an instruction that has completed. -/
def Hart.retired (x : Hart) (ru : VRun) (cyc now : Nat) : Hart :=
  let y := { (x.advanceStreams ru.e.instr ru.vl).noteResults ru.e.instr cyc with
    vq := x.vq.drop 1, run := none, passed := x.linked.isSome, vstart := 0, progress := now, reported := false }
  match scalarDest ru.e.instr with
  | some d => y.setBusy d (cyc + 1)
  | none => y

theorem Hart.setBusy_shape (x : Hart) (d : Reg) (cyc : Nat) : ∃ b, x.setBusy d cyc = { x with busy := b } := by
  unfold Hart.setBusy
  split
  · exact ⟨x.busy, rfl⟩
  · exact ⟨_, rfl⟩

theorem Hart.retired_end (x : Hart) {ru : VRun} (past : ru.limit ≤ ru.next) (cyc now : Nat) : GroupEnd x (x.retired ru cyc now) ru := by
  unfold Hart.retired
  dsimp only
  split
  · next d _ =>
    obtain ⟨b, busy⟩ := Hart.setBusy_shape { (x.advanceStreams ru.e.instr ru.vl).noteResults ru.e.instr cyc with
      vq := x.vq.drop 1, run := none, passed := x.linked.isSome, vstart := 0, progress := now, reported := false } d (cyc + 1)
    rw [busy]
    exact ⟨rfl, fun _ => ⟨rfl, rfl, rfl⟩, fun more => absurd past (Nat.not_le.mpr more)⟩
  · exact ⟨rfl, fun _ => ⟨rfl, rfl, rfl⟩, fun more => absurd past (Nat.not_le.mpr more)⟩

/-- The end of a group of an instruction that is no load, without a fault. -/
theorem State.endGroup_ends (s : State) (h : Nat) {ru : VRun} (noLoad : ∀ v, ru.e.instr ≠ .vld v) (noFault : ru.fault = none) :
    GroupEnd (s.hart h) ((s.endGroup h ru).hart h) ru ∧ (∀ k, k ≠ h → (s.endGroup h ru).hart k = s.hart k) ∧
      (s.endGroup h ru).mem = s.mem := by
  unfold State.endGroup
  split
  · next more =>
    rw [State.modHart, State.hart_setHart]
    exact ⟨⟨rfl, fun past => absurd past (Nat.not_le.mpr more), fun _ => ⟨rfl, rfl, rfl⟩⟩,
      fun k other => State.hart_setHart_ne s h k _ other.symm, rfl⟩
  · next past =>
    have retires : s.endVector h ru = (s.setHart h ((s.hart h).retired ru (s.core (coreOf h)).cycle s.gtime)).happen := by
      rw [State.endVector, noFault]
      rfl
    split
    · next v load => exact absurd load (noLoad v)
    · rw [retires]
      refine ⟨?_, fun k other => State.hart_setHart_ne s h k _ other.symm, rfl⟩
      have now : ((s.setHart h ((s.hart h).retired ru (s.core (coreOf h)).cycle s.gtime)).happen).hart h =
          (s.hart h).retired ru (s.core (coreOf h)).cycle s.gtime := State.hart_setHart s h _
      rw [now]
      exact Hart.retired_end _ (Nat.not_lt.mp past) _ _

theorem VRun.presented_false {ru : VRun} (noLoad : ∀ v, ru.e.instr ≠ .vld v) (x : Hart) : ru.presented x = false := by
  unfold VRun.presented
  split
  · next v load => exact absurd load (noLoad v)
  · rfl

/-- The last cycle of a group of an instruction that is no load. -/
theorem exec_elementGroup_last {s : State} {h : Nat} {ru : VRun} (run : (s.hart h).run = some ru)
    (ready : s.groupReady h ru = true) (noLoad : ∀ v, ru.e.instr ≠ .vld v) (noFault : ru.fault = none)
    (last : ru.cycles (s.hart h) (ru.groupEnd (s.hart h).c) ≤ ru.spent + 1) : ∃ t w now,
      exec (.elementGroup h) s = .next t ∧ t.mem = s.mem ∧ (∀ k, k ≠ h → t.hart k = s.hart k) ∧
      GroupEnd ((s.hart h).grouped (ru.withWait w) (ru.groupEnd (s.hart h).c) now) (t.hart h)
        ((ru.withWait w).behind (ru.groupEnd (s.hart h).c)) := by
  obtain ⟨w, groups⟩ := State.runGroup_last run ready (VRun.presented_false noLoad _) last
  have frame := s.lanesNoted_frame h ru
  have mem := s.lanesNoted_mem h ru
  generalize s.lanesNoted h ru = u at *
  have hart : (u.modHart h fun y => y.grouped (ru.withWait w) (ru.groupEnd (s.hart h).c) u.gtime).hart h =
      (s.hart h).grouped (ru.withWait w) (ru.groupEnd (s.hart h).c) u.gtime := by
    rw [State.modHart, State.hart_setHart, frame.hart]
  have others (k : Nat) (other : k ≠ h) :
      (u.modHart h fun y => y.grouped (ru.withWait w) (ru.groupEnd (s.hart h).c) u.gtime).hart k = s.hart k :=
    (State.hart_setHart_ne u h k _ other.symm).trans (frame.hart k)
  have still : (u.modHart h fun y => y.grouped (ru.withWait w) (ru.groupEnd (s.hart h).c) u.gtime).mem = u.mem := rfl
  generalize (u.modHart h fun y => y.grouped (ru.withWait w) (ru.groupEnd (s.hart h).c) u.gtime) = v at *
  obtain ⟨ends, rest, same⟩ := v.endGroup_ends h (ru := (ru.withWait w).behind (ru.groupEnd (s.hart h).c)) noLoad noFault
  generalize v.endGroup h ((ru.withWait w).behind (ru.groupEnd (s.hart h).c)) = z at *
  refine ⟨z.happen, w, u.gtime, ?_, same.trans (still.trans mem), fun k other => (rest k other).trans (others k other), hart ▸ ends⟩
  show execElementGroup h s = _
  rw [execElementGroup, groups]

/-- A cycle of a group before its last one, of an instruction that is no load. -/
theorem exec_elementGroup_waits {s : State} {h : Nat} {ru : VRun} (run : (s.hart h).run = some ru)
    (ready : s.groupReady h ru = true) (noLoad : ∀ v, ru.e.instr ≠ .vld v)
    (early : ru.spent + 1 < ru.cycles (s.hart h) (ru.groupEnd (s.hart h).c)) : ∃ t w,
      exec (.elementGroup h) s = .next t ∧ t.mem = s.mem ∧
      t.hart h = { s.hart h with run := some { ru.withWait w with spent := ru.spent + 1 } } := by
  obtain ⟨w, groups⟩ := State.runGroup_waits run ready (VRun.presented_false noLoad _) early
  have frame := s.lanesNoted_frame h ru
  have mem := s.lanesNoted_mem h ru
  generalize s.lanesNoted h ru = u at *
  refine ⟨(u.modHart h fun y => { y with run := some { ru.withWait w with spent := ru.spent + 1 } }).happen, w, ?_, mem, ?_⟩
  · show execElementGroup h s = _
    rw [execElementGroup, groups]
  · rw [← frame.hart h]
    exact State.hart_setHart u h _

/-! ## What a group of a register instruction does -/

theorem VRun.clean_shape (ru : VRun) (x₀ : Hart) (lo hi : Nat) (x : Hart) : ∃ b, ru.clean x₀ lo hi x = { x with vbad := b } := by
  unfold VRun.clean
  split
  · exact ⟨x.vbad, rfl⟩
  · split
    · split
      · exact ⟨x.vbad, rfl⟩
      · exact ⟨_, rfl⟩
    · exact ⟨x.vbad, rfl⟩

/-- The hart after a group of a register instruction, from what its execution without older flags gives. -/
theorem VRun.group_register {ru : VRun} (noMemory : vmemOf ru.e.instr = none) (noFault : ru.fault = none) (hi : Nat) (x : Hart) :
    ∃ vq streams, ru.group hi x = { ru.exec ru.next hi { x with fflags := 0 } with
        fflags := x.fflags ||| (ru.exec ru.next hi { x with fflags := 0 }).fflags, vq := vq, streams := streams } ∧
      (scalarDest ru.e.instr = none → vq = ((ru.exec ru.next hi { x with fflags := 0 }).raiseFlags
        (ru.exec ru.next hi { x with fflags := 0 }).fflags).vq) := by
  have held : ∃ vq, ru.execHeld ru.next hi x = { ru.exec ru.next hi { x with fflags := 0 } with
        fflags := x.fflags ||| (ru.exec ru.next hi { x with fflags := 0 }).fflags, vq := vq } ∧
      (scalarDest ru.e.instr = none → vq = ((ru.exec ru.next hi { x with fflags := 0 }).raiseFlags
        (ru.exec ru.next hi { x with fflags := 0 }).fflags).vq) := by
    unfold VRun.execHeld
    dsimp only
    split
    · next d dest =>
      rw [dest]
      split
      · exact ⟨_, rfl, fun none => nomatch none⟩
      · exact ⟨_, rfl, fun none => nomatch none⟩
    · exact ⟨_, rfl, fun _ => rfl⟩
  obtain ⟨vq, held, kept⟩ := held
  unfold VRun.group
  split
  · next instr => rw [instr] at noMemory; cases noMemory
  · next instr => rw [instr] at noMemory; cases noMemory
  · next instr => rw [instr] at noMemory; cases noMemory
  · dsimp only
    rw [noFault, Option.isSome_none, Bool.and_false, if_neg Bool.false_ne_true, held]
    split
    · exact ⟨vq, _, rfl, kept⟩
    · exact ⟨vq, _, rfl, kept⟩

/-- What the last cycle of a group of a register instruction makes of its hart: `y` is what its execution gives. -/
structure RegisterGroup (x y z : Hart) (ru : VRun) (hi : Nat) : Prop where
  v : z.v = y.v
  s : z.s = y.s
  m : z.m = y.m
  fflags : z.fflags = x.fflags ||| y.fflags
  ended : scalarDest ru.e.instr = none → ru.limit ≤ hi → z.vq = (y.raiseFlags y.fflags).vq.drop 1 ∧ z.run = none ∧ z.vstart = 0
  goesOn : hi < ru.limit → z.run = some (ru.behind hi)

/-- The last cycle of a group of an instruction of registers. -/
theorem exec_elementGroup_register {s : State} {h : Nat} {ru : VRun} (run : (s.hart h).run = some ru)
    (ready : s.groupReady h ru = true) (noMemory : vmemOf ru.e.instr = none) (noFault : ru.fault = none)
    (last : ru.cycles (s.hart h) (ru.groupEnd (s.hart h).c) ≤ ru.spent + 1) : ∃ t w,
      exec (.elementGroup h) s = .next t ∧ t.mem = s.mem ∧ (∀ k, k ≠ h → t.hart k = s.hart k) ∧
      RegisterGroup (s.hart h) ((ru.withWait w).exec ru.next (ru.groupEnd (s.hart h).c) { s.hart h with fflags := 0 }) (t.hart h)
        (ru.withWait w) (ru.groupEnd (s.hart h).c) := by
  have noLoad (u : VMem) : ru.e.instr ≠ .vld u := by
    intro load
    rw [load] at noMemory
    cases noMemory
  obtain ⟨t, w, now, runs, mem, others, ends⟩ := exec_elementGroup_last run ready noLoad noFault last
  obtain ⟨vq, st, group, saved⟩ := VRun.group_register (ru := ru.withWait w) noMemory noFault (ru.groupEnd (s.hart h).c) (s.hart h)
  refine ⟨t, w, runs, mem, others, ?_⟩
  change (ru.withWait w).group _ _ = { (ru.withWait w).exec ru.next (ru.groupEnd (s.hart h).c) { s.hart h with fflags := 0 } with
    fflags := (s.hart h).fflags ||| ((ru.withWait w).exec ru.next (ru.groupEnd (s.hart h).c) { s.hart h with fflags := 0 }).fflags
    vq := vq, streams := st } at group
  change _ → vq = (((ru.withWait w).exec ru.next (ru.groupEnd (s.hart h).c) { s.hart h with fflags := 0 }).raiseFlags
    ((ru.withWait w).exec ru.next (ru.groupEnd (s.hart h).c) { s.hart h with fflags := 0 }).fflags).vq at saved
  rw [Hart.grouped, group] at ends
  generalize (ru.withWait w).exec ru.next (ru.groupEnd (s.hart h).c) { s.hart h with fflags := 0 } = y at *
  generalize t.hart h = z at *
  refine ⟨?_, ?_, ?_, ?_, fun noScalar past => ?_, fun more => (ends.goesOn more).2.1⟩
  iterate 4 (rw [ends.rest])
  rw [← saved noScalar]
  exact ends.ended past

/-- What every element of a range keeps or adds. -/
theorem VRun.range_induct {P : Nat → Hart → Prop} {ru : VRun} {lo n : Nat} {x : Hart}
    (step : ∀ i y, lo ≤ i → i < lo + n → P i y → P (i + 1) (if y.maskBit (vmaskOf ru.e.instr) i then ru.elem y i else y))
    (start : P lo x) : P (lo + n) (ru.range lo n x) := by
  induction n generalizing lo x with
  | zero => exact start
  | succ n ih =>
    rw [← Nat.add_assoc, Nat.add_right_comm]
    exact ih (fun i y low high => step i y (by omega) (by omega)) (step lo x (Nat.le_refl lo) (by omega) start)

/-! ## Elements of a register (R57) -/

theorem Hart.velem_setElem_same {x : Hart} (wf : x.v.wf = true) (r : Reg) (i e v : Nat) :
    (x.setElem r i e v).velem r i e = v % 256 ^ e := Memory.readLe_writeLe wf _ e v

theorem Hart.velem_setElem_apart {x : Hart} (wf : x.v.wf = true) {r q : Reg} {i e j m : Nat} (v : Nat)
    (apart : vaddr q (j * m) + m ≤ vaddr r (i * e) ∨ vaddr r (i * e) + e ≤ vaddr q (j * m)) :
    (x.setElem r i e v).velem q j m = x.velem q j m := by
  refine congrArg leNat (Memory.readN_writeN_ne wf _ _ m _ ?_)
  rw [leBytes_length]
  exact apart

theorem vaddr_apart_elem {i j : Nat} (other : i ≠ j) (r : Reg) (n : Nat) :
    vaddr r (j * n) + n ≤ vaddr r (i * n) ∨ vaddr r (i * n) + n ≤ vaddr r (j * n) := by
  rcases Nat.lt_or_gt_of_ne other with low | high
  · have := Nat.mul_le_mul_right n (Nat.succ_le_of_lt low)
    rw [Nat.succ_mul] at this
    right
    simp only [vaddr]
    omega
  · have := Nat.mul_le_mul_right n (Nat.succ_le_of_lt high)
    rw [Nat.succ_mul] at this
    left
    simp only [vaddr]
    omega

theorem vaddr_apart_reg {r q : Reg} (other : q ≠ r) {i n j m : Nat} (inside : (i + 1) * n ≤ 2 ^ 20) (within : (j + 1) * m ≤ 2 ^ 20) :
    vaddr q (j * m) + m ≤ vaddr r (i * n) ∨ vaddr r (i * n) + n ≤ vaddr q (j * m) := by
  have apart : q.toNat ≠ r.toNat := fun same => other (BitVec.eq_of_toNat_eq same)
  rw [Nat.add_mul, Nat.one_mul] at inside within
  simp only [vaddr]
  omega

/-! ## The element-wise instructions (R353, R356 to R358) -/

/-- What the operands of an element-wise instruction are. -/
theorem lanewise_fields {i : Instr} {v : VArgs} (lane : Claims.lanewise i = some v) :
    vargs i = some v ∧ vmemOf i = none ∧ scalarDest i = none ∧ actsWhole i = false ∧ byBlocks i = false ∧
      vmaskOf i = v.m.toNat := by
  cases i <;> cases lane <;> exact ⟨rfl, rfl, rfl, rfl, rfl, rfl⟩

/-- The result of element `i` of an element-wise instruction, from the hart's registers. -/
def VRun.result (ru : VRun) (x : Hart) (v : VArgs) (i : Nat) : Val :=
  arithVal ru.e.instr (ru.mode v i) v.t v.sat (x.velem v.a i v.t.bytes) (ru.opB x v i) (ru.opC x v i)

theorem VRun.val_register {ru : VRun} (strips : ru.strips = []) (x : Hart) (r : Reg) (i e : Nat) :
    ru.val x r i e = x.velem r i e := by
  rw [VRun.val, strips]
  rfl

section
variable {ru : VRun} {v : VArgs} (lane : Claims.lanewise ru.e.instr = some v) (strips : ru.strips = [])
include lane strips

/-- An element of an element-wise instruction without streams and exception mask. -/
theorem VRun.elem_lanewise (noExcept : v.xm = 0) {x : Hart} (streams : x.streams = []) (i : Nat) :
    ru.elem x i = (x.setElem v.d i v.t.bytes (ru.result x v i).bits).orFlags (ru.result x v i).fl := by
  obtain ⟨args, -⟩ := lanewise_fields lane
  have delivers (r : Val) : ru.deliver x v i r = (x.setElem v.d i v.t.bytes r.bits).orFlags r.fl := by
    have unbound : x.stream v.d = none := by rw [Hart.stream, streams]; rfl
    rw [VRun.deliver, setExcept, if_pos noExcept, VRun.put, unbound]
  unfold VRun.elem
  split
  case h_10 =>
    rw [args]
    dsimp only
    rw [VRun.val_register strips]
    exact delivers _
  all_goals
    next instr =>
    rw [instr] at lane
    cases lane

end

/-- The flags of the active elements [lo, i). -/
def laneFlags (act : Nat → Bool) (r : Nat → Val) (lo i : Nat) : FlagBits :=
  ((List.range i).filter fun k => decide (lo ≤ k) && act k).foldl (fun f k => f ||| (r k).fl) 0

theorem laneFlags_none (act : Nat → Bool) (r : Nat → Val) (lo : Nat) : laneFlags act r lo lo = 0 := by
  have none : ((List.range lo).filter fun k => decide (lo ≤ k) && act k) = [] := by
    rw [List.filter_eq_nil_iff]
    intro k mem
    simp [Nat.not_le.mpr (List.mem_range.mp mem)]
  rw [laneFlags, none]
  rfl

theorem laneFlags_next (act : Nat → Bool) (r : Nat → Val) {lo i : Nat} (from_ : lo ≤ i) :
    laneFlags act r lo (i + 1) = if act i then laneFlags act r lo i ||| (r i).fl else laneFlags act r lo i := by
  rw [laneFlags, laneFlags, List.range_succ, List.filter_append]
  cases active : act i <;> simp [active, from_]

/-- `y` is the hart `x` with the active elements [ru.next, i) of an element-wise instruction computed. -/
structure LanesDone (ru : VRun) (x : Hart) (v : VArgs) (i : Nat) (y : Hart) : Prop where
  rest : y = { x with v := y.v, vbad := y.vbad, dirty := y.dirty, fflags := y.fflags }
  wf : y.v.wf = true
  flags : y.fflags = laneFlags (x.maskBit v.m.toNat) (ru.result x v) ru.next i
  results : ∀ k, ru.next ≤ k → k < i → x.maskBit v.m.toNat k = true →
    y.velem v.d k v.t.bytes = (ru.result x v k).bits % 256 ^ v.t.bytes
  kept : ∀ k, k < ru.next ∨ i ≤ k ∨ x.maskBit v.m.toNat k = false → y.velem v.d k v.t.bytes = x.velem v.d k v.t.bytes
  others : ∀ q : Reg, q ≠ v.d → ∀ k m, (k + 1) * m ≤ 2 ^ 20 → y.velem q k m = x.velem q k m

namespace LanesDone

variable {ru : VRun} {x y : Hart} {v : VArgs} {i : Nat}

theorem start (wf : x.v.wf = true) : LanesDone ru x v ru.next { x with fflags := 0 } where
  rest := rfl
  wf := wf
  flags := (laneFlags_none _ _ _).symm
  results _ low high := absurd low (Nat.not_le.mpr high)
  kept _ _ := rfl
  others _ _ _ _ _ := rfl

variable (lanes : LanesDone ru x v i y)
include lanes

theorem maskBit (n k : Nat) : y.maskBit n k = x.maskBit n k := by rw [lanes.rest]; rfl

/-- Element `i` of every register is still the one of before. -/
theorem velem_next (inside : (i + 1) * v.t.bytes ≤ 2 ^ 20) (q : Reg) : y.velem q i v.t.bytes = x.velem q i v.t.bytes := by
  rcases eq_or_ne q v.d with rfl | other
  · exact lanes.kept i (.inr (.inl (Nat.le_refl i)))
  · exact lanes.others q other i _ inside

theorem result_next (strips : ru.strips = []) (inside : (i + 1) * v.t.bytes ≤ 2 ^ 20) : ru.result y v i = ru.result x v i := by
  have same (q : Reg) : ru.val y q i v.t.bytes = ru.val x q i v.t.bytes := by
    rw [VRun.val_register strips, VRun.val_register strips, lanes.velem_next inside]
  rw [VRun.result, VRun.result, VRun.opB, VRun.opB, VRun.opC, VRun.opC, same, same, lanes.velem_next inside]

theorem next (lane : Claims.lanewise ru.e.instr = some v) (strips : ru.strips = []) (noExcept : v.xm = 0) (streams : x.streams = []) (low : ru.next ≤ i) (inside : (i + 1) * v.t.bytes ≤ 2 ^ 20) :
    LanesDone ru x v (i + 1) (if y.maskBit (vmaskOf ru.e.instr) i then ru.elem y i else y) := by
  obtain ⟨-, -, -, -, -, mask⟩ := lanewise_fields lane
  have unbound : y.streams = [] := by rw [lanes.rest]; exact streams
  rw [mask, lanes.maskBit]
  by_cases active : x.maskBit v.m.toNat i = true
  · rw [if_pos active, VRun.elem_lanewise lane strips noExcept unbound, lanes.result_next strips inside]
    have value := Hart.velem_setElem_same lanes.wf v.d i v.t.bytes (ru.result x v i).bits
    have apart (q : Reg) (k m : Nat) := Hart.velem_setElem_apart lanes.wf (r := v.d) (q := q) (i := i) (e := v.t.bytes) (j := k)
      (m := m) (ru.result x v i).bits
    refine ⟨?_, Memory.wf_writeLe lanes.wf _ _ _, ?_, fun k from_ before on => ?_, fun k still => ?_, fun q other k m within => ?_⟩
    · rw [lanes.rest]
      rfl
    · rw [laneFlags_next _ _ low, if_pos active, ← lanes.flags]
      rfl
    · rcases eq_or_ne k i with rfl | other
      · exact value
      · exact (apart v.d k _ (vaddr_apart_elem other.symm v.d _)).trans (lanes.results k from_ (by omega) on)
    · have other : k ≠ i := by
        rintro rfl
        rcases still with before | after | off
        · omega
        · omega
        · rw [active] at off; cases off
      refine (apart v.d k _ (vaddr_apart_elem other.symm v.d _)).trans (lanes.kept k ?_)
      exact still.imp_right (Or.imp_left (by omega))
    · exact (apart q k m (vaddr_apart_reg other inside within)).trans (lanes.others q other k m within)
  · rw [if_neg active]
    refine ⟨lanes.rest, lanes.wf, ?_, fun k from_ before on => ?_, fun k still => lanes.kept k ?_, lanes.others⟩
    · rw [laneFlags_next _ _ low, if_neg active, lanes.flags]
    · refine lanes.results k from_ (Nat.lt_of_le_of_ne (Nat.lt_succ_iff.mp before) ?_) on
      rintro rfl
      exact active on
    · exact still.imp_right (Or.imp_left (by omega))

end LanesDone

/-- A group of an element-wise instruction computes its active elements. -/
theorem VRun.exec_lanewise {ru : VRun} {x : Hart} {v : VArgs} {hi : Nat} (lane : Claims.lanewise ru.e.instr = some v)
    (strips : ru.strips = []) (noExcept : v.xm = 0) (streams : x.streams = []) (within : ru.next ≤ hi)
    (inside : hi * v.t.bytes ≤ 2 ^ 20) (wf : x.v.wf = true) :
    LanesDone ru x v hi (ru.exec ru.next hi { x with fflags := 0 }) := by
  obtain ⟨-, -, -, whole, blocks, -⟩ := lanewise_fields lane
  have lanes : LanesDone ru x v (ru.next + (hi - ru.next)) (ru.range ru.next (hi - ru.next) { x with fflags := 0 }) :=
    VRun.range_induct (fun i y low high lanes => lanes.next lane strips noExcept streams low
      (Nat.le_trans (Nat.mul_le_mul_right _ (by omega)) inside)) (.start wf)
  rw [Nat.add_sub_cancel' within] at lanes
  rw [VRun.exec, whole, if_neg Bool.false_ne_true, blocks, if_neg Bool.false_ne_true]
  obtain ⟨b, cleans⟩ := ru.clean_shape { x with fflags := 0 } ru.next hi (ru.range ru.next (hi - ru.next) { x with fflags := 0 })
  rw [cleans]
  exact ⟨by rw [lanes.rest], lanes.wf, lanes.flags, lanes.results, lanes.kept, lanes.others⟩

/-- Settles O27. -/
theorem lanewiseGroup : Obligations.LanewiseGroup := by
  intro s h ru v x n hi run ready lane strips streams noFault noExcept within inside wf
  obtain ⟨-, noMemory, noScalar, -⟩ := lanewise_fields lane
  refine ⟨fun early => ?early, fun last => ?last⟩
  case early =>
    have noLoad (u : VMem) : ru.e.instr ≠ .vld u := by
      intro load
      rw [load] at lane
      cases lane
    obtain ⟨t, w, runs, mem, hart⟩ := exec_elementGroup_waits run ready noLoad early
    refine ⟨t, { ru.withWait w with spent := ru.spent + 1 }, runs, ?_, rfl, rfl, ?_, ?_, mem⟩
    iterate 3 (rw [hart])
  case last =>
    intro r fl
    obtain ⟨t, w, runs, mem, others, group⟩ := exec_elementGroup_register run ready noMemory noFault last
    have lanes : LanesDone (ru.withWait w) x v hi ((ru.withWait w).exec ru.next hi { x with fflags := 0 }) :=
      VRun.exec_lanewise lane strips noExcept streams within inside wf
    change RegisterGroup x ((ru.withWait w).exec ru.next hi { x with fflags := 0 }) (t.hart h) (ru.withWait w) hi at group
    generalize (ru.withWait w).exec ru.next hi { x with fflags := 0 } = y at *
    have flags : y.fflags = fl := lanes.flags
    have velem (q : Reg) (i m : Nat) : (t.hart h).velem q i m = y.velem q i m := by rw [Hart.velem, group.v]; rfl
    have regs : y.s = x.s := by rw [lanes.rest]
    have queue : y.vq = x.vq := by rw [lanes.rest]
    refine ⟨t, runs, mem, others, fun q => ?_, ?_, fun i low high on => ?_, fun i _ still => ?_, fun q other i m within => ?_,
      fun past => ?_, fun more => ?_⟩
    · rw [Hart.rd, Hart.rd, group.s, regs]
    · rw [group.fflags, flags]
    · exact (velem v.d i n).trans (lanes.results i low high on)
    · exact (velem v.d i n).trans (lanes.kept i still)
    · exact (velem q i m).trans (lanes.others q other i m within)
    · have ends := group.ended noScalar past
      rw [flags, Hart.raiseFlags, queue] at ends
      exact ends
    · exact ⟨_, group.goesOn more, rfl, rfl⟩

end Sys2Proof.Machine

/-! PROOF of MaskOperations: the bits that MLOGIC writes, and the scalar results of MPOPC and MFIRST. -/

namespace Sys2Proof.Machine

/-! ## Bits of a mask (R50) -/

theorem Hart.maskBit_named {x : Hart} {n : Nat} (named : n ≠ 0) (k : Nat) : x.maskBit n k = (getAt 0 x.m (n - 1)).getLsbD k := by
  rw [Hart.maskBit, decide_eq_false named, Bool.false_or]

theorem Hart.setMask_named {x : Hart} {n : Nat} (named : n ≠ 0) (v : MaskReg) :
    x.setMask n v = { x with m := putAt 0 x.m (n - 1) v } := if_neg named

theorem Hart.mask_named {x : Hart} {n : Nat} (named : n ≠ 0) : x.mask n = getAt 0 x.m (n - 1) := if_neg named

theorem bit_put (m : MaskReg) {i k : Nat} (small : k < 131072) (b : Bool) :
    (if b then m ||| (1#131072 <<< i) else m &&& ~~~(1#131072 <<< i)).getLsbD k = if k = i then b else m.getLsbD k := by
  have one : (1#131072 <<< i).getLsbD k = decide (k = i) := by
    rw [BitVec.getLsbD_shiftLeft, BitVec.getLsbD_one]
    by_cases same : k = i
    · subst same
      simp [small]
    · by_cases low : k < i
      · simp [low, same]
      · have : k - i ≠ 0 := by omega
        simp [same, this]
  cases b
  · rw [if_neg Bool.false_ne_true, BitVec.getLsbD_and, BitVec.getLsbD_not, one]
    by_cases same : k = i <;> simp [same, small]
  · rw [if_pos rfl, BitVec.getLsbD_or, one]
    by_cases same : k = i <;> simp [same]

/-- A bit of a mask after a bit of m[n] is written. -/
theorem Hart.maskBit_putMaskBit {x : Hart} {n : Nat} (named : n ≠ 0) (i : Nat) (b : Bool) (q : Nat) {k : Nat} (small : k < 131072) :
    (x.putMaskBit n i b).maskBit q k = if q = n ∧ k = i then b else x.maskBit q k := by
  rcases eq_or_ne q 0 with rfl | maskQ
  · rw [if_neg fun both => named both.1.symm]
    rfl
  · rw [Hart.maskBit_named maskQ, Hart.putMaskBit, Hart.setMask_named named, Hart.maskBit_named maskQ, Hart.mask_named named]
    rcases eq_or_ne q n with rfl | other
    · simp only [getAt_putAt_self, bit_put _ small, true_and]
    · simp only [getAt_putAt_ne _ _ _ _ _ (show n - 1 ≠ q - 1 by omega), other, false_and, if_false]

/-! ## MLOGIC (R330) -/

/-- `y` is the hart `x` with the active bits [lo, i) of m[d] computed. -/
structure BitsDone (x : Hart) (d act lo : Nat) (bit : Nat → Bool) (i : Nat) (y : Hart) : Prop where
  masks : ∀ q k, k < 131072 → y.maskBit q k = if q = d ∧ lo ≤ k ∧ k < i ∧ x.maskBit act k = true then bit k else x.maskBit q k

section
variable {ru : VRun} {x y : Hart} {d a b : Reg} {m : BitVec 3} {op : MOp} {i : Nat}

theorem BitsDone.next (instr : ru.e.instr = .mlogic op d a b m) (named : d.toNat ≠ 0)
    (bits : BitsDone x d.toNat m.toNat ru.next (fun k => mlogicBit op (x.maskBit a.toNat k) (x.maskBit b.toNat k)) i y)
    (low : ru.next ≤ i) (small : i < 131072) :
    BitsDone x d.toNat m.toNat ru.next (fun k => mlogicBit op (x.maskBit a.toNat k) (x.maskBit b.toNat k)) (i + 1)
      (if y.maskBit (vmaskOf ru.e.instr) i then ru.elem y i else y) := by
  have still (q : Nat) : y.maskBit q i = x.maskBit q i := by
    rw [bits.masks q i small, if_neg fun all => absurd all.2.2.1 (Nat.lt_irrefl i)]
  have mask : vmaskOf ru.e.instr = m.toNat := by rw [instr]; rfl
  have elem : ru.elem y i = y.putMaskBit d.toNat i (mlogicBit op (x.maskBit a.toNat i) (x.maskBit b.toNat i)) := by
    rw [← still, ← still]
    unfold VRun.elem
    rw [instr]
  rw [mask, still, elem]
  refine ⟨fun q k within => ?_⟩
  by_cases active : x.maskBit m.toNat i = true
  · rw [if_pos active, Hart.maskBit_putMaskBit named i _ q within, bits.masks q k within]
    by_cases here : q = d.toNat ∧ k = i
    · obtain ⟨rfl, rfl⟩ := here
      rw [if_pos ⟨rfl, rfl⟩, if_pos ⟨rfl, low, Nat.lt_succ_self k, active⟩]
    · rw [if_neg here]
      congr 1
      refine propext ⟨fun all => ⟨all.1, all.2.1, by omega, all.2.2.2⟩, fun all => ⟨all.1, all.2.1, ?_, all.2.2.2⟩⟩
      exact Nat.lt_of_le_of_ne (Nat.lt_succ_iff.mp all.2.2.1) fun same => here ⟨all.1, same⟩
  · rw [if_neg active, bits.masks q k within]
    congr 1
    refine propext ⟨fun all => ⟨all.1, all.2.1, by omega, all.2.2.2⟩, fun all => ⟨all.1, all.2.1, ?_, all.2.2.2⟩⟩
    refine Nat.lt_of_le_of_ne (Nat.lt_succ_iff.mp all.2.2.1) ?_
    rintro rfl
    exact active all.2.2.2

theorem VRun.exec_mlogic {hi : Nat} (instr : ru.e.instr = .mlogic op d a b m) (named : d.toNat ≠ 0) (within : ru.next ≤ hi)
    (small : hi ≤ 131072) :
    BitsDone x d.toNat m.toNat ru.next (fun k => mlogicBit op (x.maskBit a.toNat k) (x.maskBit b.toNat k)) hi
      (ru.exec ru.next hi { x with fflags := 0 }) := by
  have bits : BitsDone x d.toNat m.toNat ru.next (fun k => mlogicBit op (x.maskBit a.toNat k) (x.maskBit b.toNat k))
      (ru.next + (hi - ru.next)) (ru.range ru.next (hi - ru.next) { x with fflags := 0 }) :=
    VRun.range_induct (fun i y low high bits => bits.next instr named low (by omega))
      ⟨fun q k _ => (if_neg fun all => absurd all.2.2.1 (Nat.not_lt.mpr all.2.1)).symm⟩
  rw [Nat.add_sub_cancel' within] at bits
  obtain ⟨bad, cleans⟩ := ru.clean_shape { x with fflags := 0 } ru.next hi (ru.range ru.next (hi - ru.next) { x with fflags := 0 })
  have executes : ru.exec ru.next hi { x with fflags := 0 } =
      ru.clean { x with fflags := 0 } ru.next hi (ru.range ru.next (hi - ru.next) { x with fflags := 0 }) := by
    rw [VRun.exec, instr]
    rfl
  rw [executes, cleans]
  exact ⟨bits.masks⟩

end

/-! ## MPOPC and MFIRST (R331) -/

/-- The register that an instruction acting whole leaves. -/
theorem VRun.exec_whole {ru : VRun} (whole : actsWhole ru.e.instr = true) (lo hi : Nat) (x : Hart) :
    (ru.exec lo hi x).s = (ru.whole x).s := by
  obtain ⟨bad, cleans⟩ := ru.clean_shape x lo hi (ru.whole x)
  rw [VRun.exec, if_pos whole, cleans]

/-- What a register reads in a hart with the registers of one that has just written it. -/
theorem Hart.rd_of_wr {x y : Hart} {d : Reg} {v : Word} (same : x.s = (y.wr d v).s) : x.rd d = if d = 0 then 0 else v := by
  have reads : x.rd d = (y.wr d v).rd d := by rw [Hart.rd, Hart.rd, same]
  rw [reads, Hart.rd_wr]
  by_cases zero : d = 0
  · rw [if_neg (fun both => both.2 zero), if_pos zero, zero]
    rfl
  · rw [if_pos ⟨rfl, zero⟩, if_neg zero]

theorem mlogicBit_table (op : MOp) (p q : Bool) : mlogicBit op p q = match op, p, q with
    | .and, p, q => p && q
    | .or, p, q => p || q
    | .xor, p, q => p ^^ q
    | .andn, p, q => p && !q
    | .orn, p, q => p || !q
    | .nand, p, q => !(p && q)
    | .nor, p, q => !(p || q)
    | .xnor, p, q => !(p ^^ q) := by
  cases op <;> cases p <;> cases q <;> rfl

/-- Settles O29. -/
theorem maskOperations : Obligations.MaskOperations := by
  intro s h ru d a b m op x hi act run ready last noFault streams
  refine ⟨fun instr named _ within small => ?mlogic, fun instr => ?mpopc, fun instr => ?mfirst⟩
  case mlogic =>
    obtain ⟨t, w, runs, mem, others, group⟩ :=
      exec_elementGroup_register run ready (by rw [instr]; rfl) noFault last
    have bits := VRun.exec_mlogic (ru := ru.withWait w) (x := x) instr named within small
    refine ⟨t, runs, fun i inside => ?_⟩
    have bit : (t.hart h).maskBit d.toNat i =
        ((ru.withWait w).exec ru.next hi { x with fflags := 0 }).maskBit d.toNat i := by
      rw [Hart.maskBit, group.m]
      rfl
    refine (bit.trans (bits.masks d.toNat i inside)).trans ?_
    simp only [true_and, mlogicBit_table]
    rfl
  case mpopc =>
    obtain ⟨t, w, runs, mem, others, group⟩ :=
      exec_elementGroup_register run ready (by rw [instr]; rfl) noFault last
    have whole : (ru.withWait w).whole { x with fflags := 0 } =
        ({ x with fflags := 0 } : Hart).wr d (BitVec.ofNat 64 (ru.maskElems x a m).length) := by
      unfold VRun.whole
      rw [show (ru.withWait w).e.instr = .mpopc d a m from instr]
      rfl
    have regs := group.s.trans (VRun.exec_whole (by rw [show (ru.withWait w).e.instr = .mpopc d a m from instr]; rfl) _ _ _)
    exact ⟨t, runs, Hart.rd_of_wr (regs.trans (congrArg Hart.s whole))⟩
  case mfirst =>
    obtain ⟨t, w, runs, mem, others, group⟩ :=
      exec_elementGroup_register run ready (by rw [instr]; rfl) noFault last
    have whole : (ru.withWait w).whole { x with fflags := 0 } = ({ x with fflags := 0 } : Hart).wr d
        (match ru.maskElems x a m with
          | i :: _ => BitVec.ofNat 64 i
          | [] => BitVec.allOnes 64) := by
      unfold VRun.whole
      rw [show (ru.withWait w).e.instr = .mfirst d a m from instr]
      rfl
    have regs := group.s.trans (VRun.exec_whole (by rw [show (ru.withWait w).e.instr = .mfirst d a m from instr]; rfl) _ _ _)
    exact ⟨t, runs, Hart.rd_of_wr (regs.trans (congrArg Hart.s whole))⟩

end Sys2Proof.Machine

/-! PROOF of ElementStep: an element access at the head of the element queue, at the banks of the own core and at another
core's A-space. -/

namespace Sys2Proof.Machine

/-! ## Which access is performed (R166, R169) -/

section
variable {s : State} {h : Nat} {e : Elem} {rest : List Elem} (queue : (s.hart h).elems = e :: rest)
  (waits : s.uncachedWaits h 0 e.place = false) (sent : s.sentBefore h e = false) (snoop : s.elemSnoop e.place = none)
include queue waits sent snoop

/-- A store at the head of the element queue that writes leaves the queue. -/
theorem State.stepElem_store {t : State} (kind : e.kind = .store) (write : s.writeElem h e = some (t, true)) :
    s.stepElem h 0 =
      some (((t.modHart h fun x => { x with elems := x.elems.eraseIdx 0 }).modHart h Hart.dropStrips).happen) := by
  have head : (s.hart h).elems[0]? = some e := by rw [queue]; rfl
  have free : elemBlocked (s.hart h).elems 0 e = false := rfl
  simp only [State.stepElem, head, free, waits, sent, snoop, kind, write, Bool.or_self, Bool.false_eq_true, if_false]

/-- A load at the head of the element queue that reads leaves the queue and is delivered. -/
theorem State.stepElem_load {t : State} {v : Nat} (kind : e.kind = .load)
    (read : s.readElem h e.va e.place e.bytes e.pack = .val t v) :
    s.stepElem h 0 =
      some (((t.modHart h fun x => { x with elems := x.elems.eraseIdx 0 }).deliver h e.idx (some v) none).happen) := by
  have head : (s.hart h).elems[0]? = some e := by rw [queue]; rfl
  have free : elemBlocked (s.hart h).elems 0 e = false := rfl
  simp only [State.stepElem, head, free, waits, sent, snoop, kind, read, Bool.or_self, Bool.false_eq_true, if_false]

end

theorem exec_element {s t : State} {h k : Nat} (steps : s.stepElem h k = some t) : exec (.element h k) s = .next t := by
  show execElement h k s = _
  rw [execElement, steps]

/-! ## A load that waits for further elements (R366) -/

/-- Nothing waits behind the head of the vector queue: no load reads ahead. -/
theorem State.readAheads_alone {s : State} {h : Nat} (alone : (s.hart h).vq.length ≤ 1) : s.readAheads h = s := by
  rcases queue : (s.hart h).vq with _ | ⟨e, _ | ⟨f, l⟩⟩
  · simp only [State.readAheads, queue]
  · simp only [State.readAheads, queue]
  · rw [queue] at alone
    exact absurd alone (by simp)

/-- Nothing waits behind the head of the vector queue: no store is linked to it. -/
theorem State.linkStore_alone {s : State} {h : Nat} (alone : (s.hart h).vq.length ≤ 1) : s.linkStore h = s := by
  rcases queue : (s.hart h).vq with _ | ⟨e, _ | ⟨f, l⟩⟩
  · simp only [State.linkStore, queue]
  · simp only [State.linkStore, queue]
  · rw [queue] at alone
    exact absurd alone (by simp)

/-- No store is linked to the load at work. -/
theorem State.joinLinked_none {s : State} {h : Nat} (linked : (s.hart h).linked = none) (i : Nat) (v : Word) :
    s.joinLinked h i v = s := by
  simp only [State.joinLinked, linked]

theorem Hart.delivered_shape (x : Hart) {ru : VRun} (clean : ru.fault = none) (idx now : Nat) :
    ∃ p r, x.delivered ru idx now = { x with run := some ru, progress := p, reported := r } := by
  have whole : ¬ ru.fault.isSome = true := by rw [clean]; decide
  simp only [Hart.delivered, if_neg whole]
  split
  · exact ⟨_, _, rfl⟩
  · exact ⟨_, _, rfl⟩

/-- The run with one more element staged. -/
def VRun.stage (ru : VRun) (idx v : Nat) : VRun := { ru with staged := ru.staged ++ [(idx, BitVec.ofNat 64 v)] }

theorem State.deliver_stages {s : State} {h : Nat} {ru : VRun} (run : (s.hart h).run = some ru) (clean : ru.fault = none)
    (more : (s.hart h).loadsLeft = true) (alone : (s.hart h).vq.length ≤ 1) (linked : (s.hart h).linked = none) (idx v : Nat) :
    ∃ p r, s.deliver h idx (some v) none =
      s.setHart h { s.hart h with run := some (ru.stage idx v), progress := p, reported := r } := by
  have stop : ru.stopAt none = ru := by rw [VRun.stopAt, clean]; rfl
  obtain ⟨p, r, shape⟩ := (s.hart h).delivered_shape (ru := ru.stage idx v) clean idx s.gtime
  refine ⟨p, r, ?_⟩
  let y : Hart := { s.hart h with run := some (ru.stage idx v), progress := p, reported := r }
  have hart : (s.setHart h y).hart h = y := s.hart_setHart h y
  have mod : (s.modHart h fun x => x.delivered (ru.stage idx v) idx s.gtime) = s.setHart h y := congrArg (s.setHart h) shape
  have ahead : (s.setHart h y).readAheads h = s.setHart h y := State.readAheads_alone (by rw [hart]; exact alone)
  have link : (s.setHart h y).linkStore h = s.setHart h y := State.linkStore_alone (by rw [hart]; exact alone)
  have join : (s.setHart h y).joinLinked h idx (BitVec.ofNat 64 v) = s.setHart h y :=
    State.joinLinked_none (by rw [hart]; exact linked) idx _
  have chain : (((s.modHart h fun x => x.delivered (ru.stage idx v) idx s.gtime).readAheads h).linkStore h).joinLinked h idx
      (BitVec.ofNat 64 v) = s.setHart h y := by rw [mod, ahead, link, join]
  have left : ((s.setHart h y).hart h).loadsLeft = true := by
    rw [hart]
    exact more
  simp only [State.deliver, run, stop]
  refine (if_pos (Bool.or_eq_true_iff.mpr (.inl ?_))).trans chain
  exact (congrArg (fun t : State => (t.hart h).loadsLeft) chain).trans left

/-! ## The step -/

/-- A hart that leaves the head of its element queue and drops the strips read ahead. -/
theorem left_elems {s t : State} {h : Nat} {e : Elem} {rest : List Elem} (queue : (s.hart h).elems = e :: rest)
    (harts : t.harts = s.harts) :
    ((((t.modHart h fun x => { x with elems := x.elems.eraseIdx 0 }).modHart h Hart.dropStrips).happen).hart h).elems = rest := by
  have hart : t.hart h = s.hart h := congrArg (fun l => getAt Hart.reset l h) harts
  show ((State.setHart _ h _).hart h).elems = rest
  rw [State.hart_setHart]
  show ((State.setHart _ h _).hart h).elems = rest
  rw [State.hart_setHart, hart]
  show (s.hart h).elems.eraseIdx 0 = rest
  rw [queue]
  rfl

theorem State.useRemote_a (s : State) (h c off j : Nat) : ((s.useRemote h c off).core j).a = (s.core j).a := by
  unfold State.useRemote
  split
  · rfl
  · exact s.useBank_a _ j

theorem State.useRemote_rest (s : State) (h c off : Nat) :
    (s.useRemote h c off).harts = s.harts ∧ (s.useRemote h c off).mem = s.mem := by
  unfold State.useRemote
  split
  · exact ⟨rfl, rfl⟩
  · exact ⟨rfl, rfl⟩

/-- Settles O30. -/
theorem elementStep : Obligations.ElementStep := by
  intro s h e rest queue c
  refine ⟨fun k off kind place sent wf => ?_, fun off kind place wf => ?_, fun off ru kind place run clean more alone linked => ?_⟩
  · let bs := leBytes e.bytes e.data.toNat
    let u := s.useRemote h k off
    let t := (u.modCore k fun x => { x with a := x.a.writeN off bs }).noteWrite none (aKey k off) e.bytes
    have write : s.writeElem h e = some (t, true) := by rw [State.writeElem, place]
    have core : (t.core k).a = (s.core k).a.writeN off bs := by
      have written := congrArg Core.a (u.core_modCore k fun x => { x with a := x.a.writeN off bs })
      rw [State.useRemote_a] at written
      exact written
    have steps := State.stepElem_store queue (by rw [place]; rfl) sent (by rw [place]; rfl) kind write
    obtain ⟨harts, mem⟩ := s.useRemote_rest h k off
    refine ⟨_, exec_element steps, left_elems queue harts, mem, ?_, fun p out => ?_⟩
    · show (t.core k).a.readN off e.bytes = bs
      have read := Memory.readN_writeN_self wf off bs
      rw [leBytes_length] at read
      rw [core, read]
    · show (t.core k).a.read p = _
      rw [core]
      exact (Memory.read_writeN wf off p bs).trans (if_neg (by rw [leBytes_length]; omega))
  · let bs := leBytes e.bytes e.data.toNat
    let t := (s.modCore c fun x => { x with c := x.c.writeN off bs }).noteWrite none (cKey c off) e.bytes
    have write : s.writeElem h e = some (t, true) := by rw [State.writeElem, place]
    have core : (t.core c).c = (s.core c).c.writeN off bs :=
      congrArg Core.c (s.core_modCore c fun x => { x with c := x.c.writeN off bs })
    have steps := State.stepElem_store queue (by rw [place]; rfl) (by rw [State.sentBefore, place]) (by rw [place]; rfl) kind write
    refine ⟨_, exec_element steps, left_elems queue rfl, ?_, fun p out => ?_⟩
    · show (t.core c).c.readN off e.bytes = bs
      have read := Memory.readN_writeN_self wf off bs
      rw [leBytes_length] at read
      rw [core, read]
    · show (t.core c).c.read p = _
      rw [core]
      exact (Memory.read_writeN wf off p bs).trans (if_neg (by rw [leBytes_length]; omega))
  · let v := (s.core c).w.readLe off e.bytes
    let g := s.modHart h fun x => { x with elems := x.elems.eraseIdx 0 }
    have read : s.readElem h e.va e.place e.bytes e.pack = .val s v := by
      rw [place]
      rfl
    have hart : g.hart h = { s.hart h with elems := rest } := by
      refine (s.hart_setHart h _).trans (congrArg (fun l => ({ s.hart h with elems := l } : Hart)) ?_)
      rw [queue]
      rfl
    obtain ⟨f, queued, load⟩ := more
    have left : (g.hart h).loadsLeft = true := by
      rw [hart]
      exact List.any_eq_true.mpr ⟨f, queued, by rw [load]; rfl⟩
    obtain ⟨p, r, delivered⟩ := State.deliver_stages (s := g) (h := h) (by rw [hart]; exact run) clean left
      (by rw [hart]; exact alone) (by rw [hart]; exact linked) e.idx v
    have steps := State.stepElem_load queue (by rw [place]; rfl) (by rw [State.sentBefore, place]) (by rw [place]; rfl) kind read
    rw [delivered] at steps
    have ends := g.hart_setHart h { g.hart h with run := some (ru.stage e.idx v), progress := p, reported := r }
    refine ⟨_, ru.stage e.idx v, exec_element steps, ?_, congrArg Hart.run ends, rfl⟩
    exact (congrArg Hart.elems ends).trans (by rw [hart])

end Sys2Proof.Machine

/-! PROOF of TrapEntry: what taking a trap makes of its hart, and what it leaves of the rest. -/

namespace Sys2Proof.Machine

/-! ## The hart that traps (R259, R383) -/

/-- The scalar registers as the oldest queued instruction found them. -/
def Hart.rolledRegs (x : Hart) : List Word := match x.vq with
  | e :: _ => e.save.s
  | [] => x.s

/-- The flags as the oldest queued instruction found them. -/
def Hart.rolledFlags (x : Hart) : FlagBits := match x.vq with
  | e :: _ => e.save.fflags
  | [] => x.fflags

/-- The hart with its queue flushed, before it enters its trap. -/
def Hart.atTrap (x : Hart) (iw : Word) (now : Nat) : Hart :=
  { ((x.flushQueue.dropStrips).endRecording 5).noteTrap iw now with
    wait := none, loading := [], item := .short, progress := now, brkAfter := none }

theorem Hart.rollBack_regs (x : Hart) :
    ∃ sb, x.rollBack = { x with s := x.rolledRegs, sbad := sb, fflags := x.rolledFlags } := by
  unfold Hart.rollBack
  split
  · rename_i e rest queue
    refine ⟨e.save.sbad, ?_⟩
    rw [show x.rolledRegs = e.save.s by rw [Hart.rolledRegs, queue],
      show x.rolledFlags = e.save.fflags by rw [Hart.rolledFlags, queue]]
  · rename_i queue
    refine ⟨x.sbad, ?_⟩
    rw [show x.rolledRegs = x.s by rw [Hart.rolledRegs, queue], show x.rolledFlags = x.fflags by rw [Hart.rolledFlags, queue]]

theorem Hart.flushQueue_regs (x : Hart) : ∃ sb tl land es, (x.vq = [] → land = x.landing) ∧ x.flushQueue =
    { x with s := x.rolledRegs, sbad := sb, fflags := x.rolledFlags, tl := tl, landing := land, vq := [], run := none
             early := [], linked := none, passed := false, elems := es } := by
  obtain ⟨sb, rolled⟩ := x.rollBack_regs
  obtain ⟨tl, land, undone⟩ := Hart.undoAll_shape x.vq x.rollBack
  refine ⟨sb, tl, land, _, fun none => ?_, by unfold Hart.flushQueue; rw [undone, rolled]⟩
  rw [none, rolled] at undone
  exact (congrArg Hart.landing undone).symm

theorem Hart.noteTrap_shape (x : Hart) (iw : Word) (now : Nat) :
    ∃ w n d, x.noteTrap iw now = { x with trapWord := w, trapTime := n, trapDest := d } := by
  unfold Hart.noteTrap
  split
  · exact ⟨_, _, _, rfl⟩
  · exact ⟨_, _, _, rfl⟩

/-- What a trap changes of its hart before it is entered. -/
theorem Hart.atTrap_shape (x : Hart) (iw : Word) (now : Nat) : ∃ sb tl land es m w n d, (x.vq = [] → land = x.landing) ∧
    x.atTrap iw now =
      { x with s := x.rolledRegs, sbad := sb, fflags := x.rolledFlags, tl := tl, landing := land, vq := [], run := none
               early := [], linked := none, passed := false, elems := es
               streams := x.streams.map fun t => { t with strips := [] }, mark := m, trapWord := w, trapTime := n, trapDest := d
               wait := none, loading := [], item := .short, progress := now, brkAfter := none } := by
  obtain ⟨sb, tl, land, es, kept, flushed⟩ := x.flushQueue_regs
  rw [Hart.atTrap, flushed]
  generalize x.rolledRegs = ss
  generalize x.rolledFlags = fl
  obtain ⟨m, ended⟩ := Hart.endRecording_shape (Hart.dropStrips { x with
    s := ss, sbad := sb, fflags := fl, tl := tl, landing := land, vq := [], run := none, early := [], linked := none
    passed := false, elems := es }) 5
  rw [ended]
  obtain ⟨w, n, d, noted⟩ := Hart.noteTrap_shape { Hart.dropStrips { x with
    s := ss, sbad := sb, fflags := fl, tl := tl, landing := land, vq := [], run := none, early := [], linked := none
    passed := false, elems := es } with mark := m } iw now
  rw [noted]
  exact ⟨sb, tl, land, es, m, w, n, d, kept, rfl⟩

/-! ## The package around it -/

section
variable (s : State) (h cause : Nat) (int : Bool) (sepc stval iw : Word)

/-- The package once its hart has entered the trap, before the trap is recorded. -/
def State.entered : State :=
  { s.leaveWaits h with filters := s.filters.filter fun f => f.hart != h }.setHart h
    (((s.hart h).atTrap iw s.gtime).enterTrap int cause sepc stval)

variable (outside : (s.hart h).pack = none)
include outside

/-- A trap outside every pack region. -/
theorem State.takeTrap_outside : s.takeTrap h int cause sepc stval iw =
    (s.entered h cause int sepc stval iw).record (coreOf h) 5 (localHart h) cause (sepc &&& ~~~7#64) := by
  obtain ⟨sb, tl, land, es, m, w, n, d, -, shape⟩ := (s.hart h).atTrap_shape iw s.gtime
  have pack : ((s.hart h).atTrap iw s.gtime).pack = none := by rw [shape]; exact outside
  show (match ((s.hart h).atTrap iw s.gtime).pack with
    | some _ => _
    | none => _) = _
  rw [pack]
  rfl

theorem State.takeTrap_hart :
    (s.takeTrap h int cause sepc stval iw).hart h = ((s.hart h).atTrap iw s.gtime).enterTrap int cause sepc stval := by
  rw [State.takeTrap_outside s h cause int sepc stval iw outside, (State.record_frame _ _ _ _ _ _).hart]
  exact State.hart_setHart _ _ _

theorem State.takeTrap_hart_ne {k : Nat} (other : k ≠ h) : (s.takeTrap h int cause sepc stval iw).hart k = s.hart k := by
  rw [State.takeTrap_outside s h cause int sepc stval iw outside, (State.record_frame _ _ _ _ _ _).hart]
  exact State.hart_setHart_ne _ _ _ _ other.symm

theorem State.takeTrap_gtime : (s.takeTrap h int cause sepc stval iw).gtime = s.gtime := by
  rw [State.takeTrap_outside s h cause int sepc stval iw outside, (State.record_frame _ _ _ _ _ _).gtime]
  rfl

/-- Where trap records are not traced, a trap reaches neither memory nor the dies. -/
theorem State.takeTrap_untraced (off : (s.core (coreOf h)).trace.enabled 5 = false) :
    (s.takeTrap h int cause sepc stval iw).mem = s.mem ∧ (s.takeTrap h int cause sepc stval iw).dies = s.dies := by
  have dropped := congrArg Core.trace
    (s.core_modCore (coreOf h) fun c => { c with leaseq := c.leaseq.filter fun r => r.hart != h })
  have same : ((s.entered h cause int sepc stval iw).core (coreOf h)).trace = (s.core (coreOf h)).trace := dropped
  rw [State.takeTrap_outside s h cause int sepc stval iw outside, State.record_off (by rw [same]; exact off)]
  exact ⟨rfl, rfl⟩

end

/-! ## SSTATUS at a trap (R256, R257) -/

theorem trapBits (ends sup enabled : Bool) : ∀ i, i < 64 →
    (BitVec.ofNat 64 (b2n ends * 512 + b2n sup * 256 + b2n enabled * 32)).getLsbD i =
      ((i == 9 && ends) || (i == 8 && sup) || (i == 5 && enabled)) := by
  revert ends sup enabled
  decide

/-- The bank and the CSRs of a hart that enters a trap. -/
theorem Hart.enterTrap_shape (x : Hart) (int : Bool) (cause : Nat) (sepc v : Word) : ∃ sb shb st,
    x.enterTrap int cause sepc v =
      { x with s := if x.priv = .user then x.s.take 56 ++ x.shadow else x.s
               shadow := if x.priv = .user then x.s.drop 56 else x.shadow
               swapped := if x.priv = .user then !x.swapped else x.swapped
               sbad := sb, shbad := shb, sepc := sepc &&& ~~~7#64
               scause := BitVec.ofNat 64 (b2n int * 2 ^ 63 + cause), stval := v, sstatus := x.trapSstatus cause
               trapStatus := st, priv := .sup, pc := x.stvec } := by
  unfold Hart.enterTrap
  by_cases user : x.priv = .user
  · simp only [user, if_true]
    exact ⟨_, _, _, rfl⟩
  · simp only [user, if_false]
    exact ⟨_, _, _, rfl⟩

/-- Settles O41. -/
theorem trapEntry : Obligations.TrapEntry := by
  intro s h cause int sepc stval iw outside small x t y regs flags
  have hart : y = (x.atTrap iw s.gtime).enterTrap int cause sepc stval :=
    s.takeTrap_hart h cause int sepc stval iw outside
  obtain ⟨sb, tl, land, es, m, w, n, d, -, before⟩ := x.atTrap_shape iw s.gtime
  obtain ⟨sb', shb, st, after⟩ := (x.atTrap iw s.gtime).enterTrap_shape int cause sepc stval
  have bits := trapBits (causeEnds cause) (x.priv == .sup) x.sie
  have signed : (b2n int * 2 ^ 63 + cause) = (if int then 2 ^ 63 else 0) + cause := by cases int <;> rfl
  rw [after, before] at hart
  clear_value y
  subst hart
  refine ⟨rfl, congrArg (BitVec.ofNat 64) signed, rfl, rfl, rfl, rfl, rfl, rfl, bits, fun user => ?_, fun sup => ?_,
    rfl, rfl, rfl, rfl, rfl, rfl, rfl, rfl, rfl, rfl, rfl, fun k other => s.takeTrap_hart_ne h cause int sepc stval iw outside other,
    s.takeTrap_gtime h cause int sepc stval iw outside, s.takeTrap_untraced h cause int sepc stval iw outside⟩
  · exact ⟨if_pos user, if_pos user, if_pos user⟩
  · have notUser : x.priv ≠ .user := by rw [sup]; decide
    exact ⟨if_neg notUser, if_neg notUser, if_neg notUser⟩

end Sys2Proof.Machine

/-! PROOF of Streams and LandingTags: VBIND, VUNBIND, STREAM_PREFETCH, VCOMMIT and LANDING_COMPLETE. -/

namespace Sys2Proof.Machine

/-! ## A trap of an instruction outside every pack region (R259) -/

theorem State.noteDest_hart (s : State) (h cause : Nat) (d : Nat × Nat) :
    ∃ t, (s.noteDest h cause d).hart h = { s.hart h with trapDest := t } := by
  unfold State.noteDest
  split
  · refine (by split <;> exact ⟨_, rfl⟩ :
      ∃ t, (if wbit (s.hart h).sstatus 8 then s.hart h else { s.hart h with trapDest := d }) = { s.hart h with trapDest := t }).imp
      fun t e => (State.hart_setHart _ _ _).trans e
  · exact ⟨_, rfl⟩

/-- The hart of an instruction that has trapped. -/
theorem State.trapped_hart {s : State} (outside : s.me.pack = none) (cause : Nat) (v : Word) :
    ∃ t, (s.trapped cause v).hart s.cur =
      { (s.me.atTrap s.me.iword s.gtime).enterTrap false cause s.me.pc v with trapDest := t } := by
  obtain ⟨t, noted⟩ := (s.takeTrap s.cur false cause s.me.pc v s.me.iword).noteDest_hart s.cur cause (destOfItem s.me.item)
  rw [s.takeTrap_hart s.cur cause false s.me.pc v s.me.iword outside] at noted
  exact ⟨t, noted⟩

/-- What a trap with an idle queue leaves in the registers that a handler reads. -/
theorem State.trapped_fields {s : State} (outside : s.me.pack = none) (idle : s.me.vq = []) (cause : Nat) (v : Word) :
    let y := (s.trapped cause v).hart s.cur
    y.scause = BitVec.ofNat 64 cause ∧ y.stval = v ∧ y.priv = .sup ∧ y.sepc = s.me.pc &&& ~~~7#64 ∧ y.landing = s.me.landing := by
  obtain ⟨t, hart⟩ := State.trapped_hart outside cause v
  obtain ⟨sb, tl, land, es, m, w, n, d, kept, before⟩ := s.me.atTrap_shape s.me.iword s.gtime
  obtain ⟨sb', shb, st, after⟩ := (s.me.atTrap s.me.iword s.gtime).enterTrap_shape false cause s.me.pc v
  rw [after, before] at hart
  intro y
  rw [show y = _ from hart]
  exact ⟨congrArg (BitVec.ofNat 64) (by simp [b2n]), rfl, rfl, rfl, kept idle⟩

/-- An instruction without an effect goes on with the next word. -/
theorem finish_same (s : State) : finish s (.ok s) = .next (s.done s.me 8) := rfl

theorem Hart.queueIdle_vq {x : Hart} (idle : x.queueIdle = true) : x.vq = [] := by
  rw [Hart.queueIdle, Bool.and_eq_true, List.isEmpty_iff] at idle
  exact idle.1

/-! ## VBIND and VUNBIND (R66, R68, R369) -/

section
variable {s : State} {d a : Reg}

theorem effVbind_refused (bad : s.me.nvreg ≤ d.toNat ∨ (s.me.stream d).isSome = true ∨ 8 ≤ s.me.streams.length) :
    effVbind s d a = .trap s 1 s.me.iword := by
  refine if_pos ?_
  rw [Bool.or_eq_true, Bool.or_eq_true, decide_eq_true_eq, decide_eq_true_eq, or_assoc]
  exact bad

section
variable (named : d.toNat < s.me.nvreg) (unbound : (s.me.stream d).isSome = false) (room : s.me.streams.length < 8)
include named unbound room

theorem effVbind_accepted : ¬ (decide (s.me.nvreg ≤ d.toNat) || (s.me.stream d).isSome || decide (8 ≤ s.me.streams.length)) = true := by
  rw [unbound]
  simpa using ⟨named, room⟩

theorem effVbind_misaligned (misaligned : (s.me.rd a).toNat % 64 ≠ 0) : effVbind s d a = .trap s 3 (s.me.rd a) :=
  (if_neg (effVbind_accepted named unbound room)).trans (if_pos misaligned)

theorem effVbind_binds {u v : State} {pa : Nat} {m : BitVec 2} {bs : List Byte} {st : VStream}
    (aligned : (s.me.rd a).toNat % 64 = 0) (idle : s.me.queueIdle = true) (drained : s.me.sbuf = [])
    (located : s.locateG s.cur .load (s.me.rd a) 64 = (u, .at_ (.g pa m))) (read : u.readDesc s.cur pa m = .val v bs)
    (described : streamOf d bs = some st) :
    effVbind s d a = .ok (v.modHart v.cur fun y => { y with streams := y.streams ++ [st] }) := by
  have ready : ¬ (!s.me.vectorIdle || !s.me.sbuf.isEmpty) = true := by
    rw [Hart.vectorIdle, idle, drained]
    decide
  have located' : u.cur = s.cur := by
    have frame := s.locateG_cur s.cur .load (s.me.rd a) 64
    rw [located] at frame
    exact frame
  refine (if_neg (effVbind_accepted named unbound room)).trans ((if_neg (not_not.mpr aligned)).trans ((if_neg ready).trans ?_))
  rw [located]
  dsimp only
  rw [located', read]
  dsimp only
  rw [described]

end

theorem effVunbind_unbinds {st : VStream} (idle : s.me.queueIdle = true) (named : d.toNat < s.me.nvreg)
    (bound : s.me.stream d = some st) (done : st.store = true → s.storesDone s.cur = true) :
    effVunbind s d = .ok (s.modHart s.cur fun y => { y with streams := y.streams.filter fun u => u.reg != d }) := by
  have stored : ¬ (st.store && !s.storesDone s.cur) = true := by
    cases store : st.store with
    | false => exact Bool.false_ne_true
    | true => rw [done store]; exact Bool.false_ne_true
  simp only [effVunbind, Hart.vectorIdle, idle, bound, decide_eq_false (Nat.not_le.mpr named), Bool.not_true, Bool.false_eq_true,
    if_false, if_neg stored]

theorem effVunbind_unbound (idle : s.me.queueIdle = true) (named : d.toNat < s.me.nvreg) (free : s.me.stream d = none) :
    effVunbind s d = .ok s := by
  simp only [effVunbind, Hart.vectorIdle, idle, free, decide_eq_false (Nat.not_le.mpr named), Bool.not_true, Bool.false_eq_true,
    if_false]

end

/-! ## STREAM_PREFETCH (R67, R69) -/

theorem State.prefetch_takes {s u : State} {h reg : Nat} {st : VStream} {es : List StripElem} (bound : (s.hart h).stream (BitVec.ofNat 6 reg) = some st)
    (load : st.store = false) (some_ : (s.hart h).vl ≠ 0) (room : st.strips.length < 4) (idle : (s.hart h).queueIdle = true)
    (quiet : (s.hart h).elems = []) (outside : (s.hart h).member = none) (fits : st.ty.bytes * (s.hart h).vl ≤ (s.hart h).vbytes)
    (inside : st.inside (st.pos + st.strips.length * (s.hart h).vl) = true)
    (cached : s.stripUncached h st (st.pos + st.strips.length * (s.hart h).vl) (s.hart h).vl = false)
    (read : s.readStrip h st (st.pos + st.strips.length * (s.hart h).vl) (s.hart h).vl = .ok (u, es)) :
    s.prefetch h reg = some (u.modHart h fun y =>
      y.setStream { st with strips := st.strips ++ [(st.pos + st.strips.length * (s.hart h).vl, es)] }).happen := by
  simp only [State.prefetch, bound, load, some_, Hart.vectorIdle, idle, quiet, outside, inside, cached, read,
    decide_eq_false (Nat.not_le.mpr room), decide_eq_false (Nat.not_lt.mpr fits), decide_false, gt_iff_lt,
    List.isEmpty_nil, Option.isSome_none, Bool.not_true, Bool.or_self, Bool.false_eq_true, if_false]

theorem exec_streamPrefetch {s t : State} {h reg : Nat} (takes : s.prefetch h reg = some t) :
    exec (.streamPrefetch h reg) s = .next t := by
  show execStreamPrefetch h reg s = _
  rw [execStreamPrefetch, takes]

/-- Settles O31. -/
theorem streams : Obligations.Streams := by
  refine ⟨?bind, ?unbind, ?prefetch⟩
  case bind =>
    intro s u v d a pa m bs x va idle drained
    refine ⟨fun bad => finish_traps idle (effVbind_refused bad), fun named unbound room =>
      ⟨fun misaligned => finish_traps idle (effVbind_misaligned named unbound room misaligned),
        fun aligned located read cur st described => ?_⟩⟩
    have binds := effVbind_binds named unbound room aligned idle drained located read described
    have next := finish_of_cur cur (.ok (v.modHart v.cur fun y => { y with streams := y.streams ++ [st] }))
    refine ⟨(congrArg (finish s) binds).trans (next.trans (finish_modHart rfl rfl)), ?_⟩
    unfold streamOf at described
    dsimp only at described
    split at described
    · cases described
    · split at described
      · cases described
      · cases described
        exact ⟨rfl, rfl⟩
  case unbind =>
    intro s d x idle
    refine ⟨fun beyond => finish_traps idle (if_pos (decide_eq_true beyond)), fun named free => ?_, fun st named bound done =>
      finish_modHart (effVunbind_unbinds idle named bound done) rfl⟩
    exact (congrArg (finish s) (effVunbind_unbound idle named free)).trans (finish_same s)
  case prefetch =>
    intro s u h reg st es x bound load some_ room idle quiet outside fits inside cached read
    have takes := State.prefetch_takes bound load some_ room idle quiet outside fits inside cached read
    have hart := u.hart_setHart h
      ((u.hart h).setStream { st with strips := st.strips ++ [(st.pos + st.strips.length * x.vl, es)] })
    exact ⟨_, exec_streamPrefetch takes, rfl, (congrArg Hart.pc hart :), (congrArg Hart.s hart :), (congrArg Hart.v hart :)⟩

/-! ## VCOMMIT (R72, R370) -/

/-- The hart with a landing tag freed. -/
def Hart.freeTag (x : Hart) (tag : Nat) : Hart := { x with landing := putAt none x.landing tag none }

theorem commitElems_shape (t : LandTag) (e i n : Nat) (x : Hart) : ∃ v vb d, commitElems t e i n x = { x with v := v, vbad := vb, dirty := d } := by
  induction n generalizing i x with
  | zero => exact ⟨_, _, _, rfl⟩
  | succ n ih =>
    rw [commitElems]
    split
    · obtain ⟨v, vb, d, shape⟩ := ih (i + 1) (x.setElem t.reg i e (le t.data (i * e) e))
      exact ⟨v, vb, d, shape⟩
    · exact ih (i + 1) x

theorem LandTag.commit_pc (t : LandTag) (x : Hart) : (t.commit x).pc = x.pc := by
  obtain ⟨v, vb, d, shape⟩ := commitElems_shape t t.width 0 t.vl x
  rw [LandTag.commit, shape]
  rfl

section
variable {s : State} {tag : BitVec 4} (idle : s.me.queueIdle = true)
include idle

theorem effVcommit_free (free : getAt none s.me.landing tag.toNat = none) : effVcommit s tag = .ok s := by
  simp only [effVcommit, Hart.vectorIdle, idle, free, Bool.not_true, Bool.false_eq_true, if_false]

variable {t : LandTag} (occupied : getAt none s.me.landing tag.toNat = some t)
include occupied

theorem effVcommit_waits (due : t.done = false) : effVcommit s tag = .stall s := by
  simp only [effVcommit, Hart.vectorIdle, idle, occupied, due, Bool.not_true, Bool.not_false, Bool.false_eq_true, if_false, if_true]

variable (done : t.done = true)
include done

theorem effVcommit_error (err : t.err = true) : effVcommit s tag = .trap (s.modHart s.cur fun y => { y.freeTag tag.toNat with
    pend := y.pend.filter fun f => !(f.destKind == 5 && f.destReg == tag.toNat) }) 6 0 := by
  simp only [effVcommit, Hart.vectorIdle, idle, occupied, done, err, Bool.not_true, Bool.false_eq_true, if_false, if_true]
  rfl

variable (clean : t.err = false)
include clean

theorem effVcommit_writes (unbound : s.me.stream t.reg = none) :
    effVcommit s tag = .ok (s.modHart s.cur fun y => (t.commit y).freeTag tag.toNat) := by
  simp only [effVcommit, Hart.vectorIdle, idle, occupied, done, clean, unbound, Bool.not_true, Bool.false_eq_true, if_false]
  rfl

theorem effVcommit_bound {u : VStream} (bound : s.me.stream t.reg = some u) (load : u.store = false) :
    effVcommit s tag = .trap s 1 s.me.iword := by
  simp only [effVcommit, Hart.vectorIdle, idle, occupied, done, clean, bound, load, Bool.not_true, Bool.not_false, Bool.true_or,
    Bool.false_eq_true, if_false, if_true, State.illegal]

end

/-- Settles O32. -/
theorem landingTags : Obligations.LandingTags := by
  refine ⟨?commit, ?complete⟩
  case commit =>
    intro s tag idle x free
    refine ⟨fun unused => (congrArg (finish s) (effVcommit_free idle unused)).trans (finish_same s), fun t occupied =>
      ⟨fun due => congrArg (finish s) (effVcommit_waits idle occupied due),
        fun done clean unbound => finish_modHart (effVcommit_writes idle occupied done clean unbound) (t.commit_pc x),
        fun u done clean bound load => finish_traps idle (effVcommit_bound idle occupied done clean bound load),
        fun done err => ?_⟩⟩
    let y : Hart := { x.freeTag tag.toNat with pend := x.pend.filter fun f => !(f.destKind == 5 && f.destReg == tag.toNat) }
    let v := s.setHart s.cur y
    have me : v.me = y := s.hart_setHart s.cur y
    have trap : finish s (.trap v 6 0) = .next (v.trapped 6 0) :=
      (finish_of_cur (s := s) (v := v) rfl _).trans (finish_trapped v 6 0 (by rw [me]; exact idle))
    refine ⟨v.trapped 6 0, (congrArg (finish s) (effVcommit_error idle occupied done err)).trans trap, fun outside => ?_⟩
    obtain ⟨cause, value, priv, -, landing⟩ := State.trapped_fields (s := v) (by rw [me]; exact outside)
      (by rw [me]; exact Hart.queueIdle_vq idle) 6 0
    refine ⟨cause, value, priv, ?_⟩
    rw [me] at landing
    exact (congrArg (fun l => getAt none l tag.toNat) landing).trans (getAt_putAt_self _ _ _ _)
  case complete =>
    intro s h tag t occupied came due
    have event_ {y : Hart} (ends : s.landingDone h tag = some (s.setHart h y)) :
        exec (.landingComplete h tag) s = .next (s.setHart h y).happen := by
      show execLandingComplete h tag s = _
      rw [execLandingComplete, ends]
      rfl
    have landed : (getAt none (s.hart h).landing tag) = some t := occupied
    by_cases discard : t.discard = true
    · have ends : s.landingDone h tag = some (s.setHart h ((s.hart h).freeTag tag)) := by
        simp only [State.landingDone, landed, came, due, discard, Bool.not_true, Bool.or_self, Bool.false_eq_true, if_false, if_true]
        rfl
      refine ⟨_, event_ ends, ?_⟩
      show getAt none ((s.setHart h _).hart h).landing tag = _
      rw [State.hart_setHart, if_pos discard]
      exact getAt_putAt_self _ _ _ _
    · obtain ⟨y, ends, landing⟩ : ∃ y : Hart, s.landingDone h tag = some (s.setHart h y) ∧
          y.landing = putAt none (s.hart h).landing tag (some { t with done := true }) := by
        simp only [State.landingDone, landed, came, due, if_neg discard, Bool.not_true, Bool.or_self, Bool.false_eq_true, if_false]
        refine ⟨_, rfl, ?_⟩
        split
        · rfl
        · rfl
      refine ⟨_, event_ ends, ?_⟩
      show getAt none ((s.setHart h _).hart h).landing tag = _
      rw [State.hart_setHart, landing, if_neg discard]
      exact getAt_putAt_self _ _ _ _

end Sys2Proof.Machine

/-! PROOF of PrivilegedInstructions and TrapReturn: what user privilege may not run, and ECALL, ERET and ERET.kill. -/

namespace Sys2Proof.Machine

/-! ## The privilege check of a first word (R45, R47, R55) -/

theorem csrCheck_eq_two (p : Priv) (n : BitVec 12) (write : Bool) :
    csrCheck p n write = some 2 ↔ p = .user ∧ ForbiddenCsr write n.toNat := by
  by_cases unassigned : Claims.unassignedCsr n.toNat
  · rw [csrCheck_unassigned p write unassigned]
    exact ⟨nofun, fun forbidden => absurd unassigned forbidden.2.assigned⟩
  · obtain ⟨forbidden, check, test⟩ := csrCheck_assigned p write unassigned
    rw [check, ← test]
    cases forbidden <;> decide

/-- The privilege check of a decoded word concerns the register that a CSRR or CSRW names. -/
theorem fieldCause_eq_two (p : Priv) (x : Decoded) : fieldCause p x = some 2 ↔ p = .user ∧
    ((∃ d n, x = .one (.csrr d n) ∧ Claims.supervisorCsr n.toNat) ∨
      ∃ n a, x = .one (.csrw n a) ∧ (Claims.supervisorCsr n.toNat ∨ (0x040 ≤ n.toNat ∧ n.toNat ≤ 0x045))) := by
  unfold fieldCause
  split
  · rename_i d n
    rw [csrCheck_eq_two]
    refine and_congr_right fun _ => ⟨fun forbidden => .inl ⟨d, n, rfl, ?_⟩, ?_⟩
    · obtain supervisor | ⟨write, -⟩ := forbidden
      · exact supervisor
      · cases write
    · rintro (⟨_, _, e, supervisor⟩ | ⟨_, _, e, -⟩)
      · cases e; exact .inl supervisor
      · cases e
  · rename_i n a
    rw [csrCheck_eq_two]
    refine and_congr_right fun _ => ⟨fun forbidden => .inr ⟨n, a, rfl, ?_⟩, ?_⟩
    · exact forbidden.imp_right And.right
    · rintro (⟨_, _, e, -⟩ | ⟨_, _, e, named⟩)
      · cases e
      · cases e; exact named.imp_right fun lcr => ⟨rfl, lcr⟩
  · rename_i notRead notWrite
    refine ⟨nofun, ?_⟩
    rintro ⟨-, ⟨d, n, e, -⟩ | ⟨n, a, e, -⟩⟩
    · exact absurd e (notRead d n)
    · exact absurd e (notWrite n a)

theorem wordCheck_eq_two (p : Priv) (w : Word) :
    wordCheck p w = .error 2 ↔ ForbiddenWord p w ∨ fieldCause p (decodeWord w) = some 2 := by
  by_cases forbidden : ForbiddenWord p w
  · exact ⟨fun _ => .inl forbidden, fun _ => wordCheck_forbidden forbidden⟩
  · rw [or_iff_right forbidden]
    by_cases rejected : ∃ r, decodeWord w = .reject r
    · obtain ⟨r, e⟩ := rejected
      rw [wordCheck_reject forbidden e, e]
      exact ⟨nofun, nofun⟩
    · have legal : ∀ r, decodeWord w ≠ .reject r := fun r e => rejected ⟨r, e⟩
      cases cause : fieldCause p (decodeWord w) with
      | none => rw [wordCheck_ok forbidden rfl legal cause]; exact ⟨nofun, nofun⟩
      | some c =>
        rw [wordCheck_fieldCause forbidden rfl legal cause]
        exact ⟨fun e => congrArg some (Except.error.inj e), fun e => congrArg Except.error (Option.some.inj e)⟩

theorem wordCheck_cases (p : Priv) (w : Word) : (∃ r, wordCheck p w = .error r) ∨ wordCheck p w = .ok (decodeWord w) := by
  unfold wordCheck
  split
  · exact .inl ⟨_, rfl⟩
  · exact .inl ⟨_, rfl⟩
  · split
    · exact .inl ⟨_, rfl⟩
    · split
      · exact .inl ⟨_, rfl⟩
      · exact .inr rfl

/-- A privileged instruction at user privilege raises cause 2. -/
theorem finish_privOnly_user {s : State} (user : s.me.priv = .user) (idle : s.me.queueIdle = true) (r : Res) :
    finish s (s.privOnly r) = .next (s.trapped 2 s.me.iword) :=
  finish_traps idle (if_neg (by rw [user]; decide))

theorem State.privOnly_sup {s : State} (sup : s.me.priv = .sup) (r : Res) : s.privOnly r = r := if_pos sup

/-- Settles O44. -/
theorem privilegedInstructions : Obligations.PrivilegedInstructions := by
  refine ⟨fun s i d a b c user idle privileged => ?_, fun w p => wordCheck_cases p w, fun w p => ?_, fun s code idle => if_pos idle⟩
  · rcases privileged with rfl | rfl | rfl | rfl | rfl | rfl | rfl | rfl | rfl | rfl | rfl | rfl | rfl | rfl | rfl
    all_goals exact finish_privOnly_user user idle _
  · rw [wordCheck_eq_two, fieldCause_eq_two, ForbiddenWord]
    exact ⟨fun | .inl ⟨form, low, high, user⟩ => ⟨user, .inl ⟨form, low, high⟩⟩
               | .inr ⟨user, named⟩ => ⟨user, .inr named⟩,
      fun | ⟨user, .inl ⟨form, low, high⟩⟩ => .inl ⟨form, low, high, user⟩
          | ⟨user, .inr named⟩ => .inr ⟨user, named⟩⟩

/-! ## ERET (R253, R262) -/

section
variable {s : State}

theorem effEret_ended (ended : wbit s.me.sstatus 9 = true) : effEret s = .trap s 1 s.me.iword := if_pos ended

/-- An instruction that jumps with its hart changed. -/
theorem finish_jump_setHart (y : Hart) (pc : Word) : finish s (.jump (s.setHart s.cur y) pc) = .next (s.jumped y pc) :=
  congrArg Host.Outcome.next (State.retire_setHart s y pc)

/-- The hart back from its trap: SIE := SPIE and the privilege of SPP, with the strips read ahead dropped. -/
def Hart.backTo (x : Hart) (p : Priv) : Hart :=
  { x.dropStrips with sstatus := setField x.sstatus 1 1 (field x.sstatus 5 1), priv := p }

variable (open_ : wbit s.me.sstatus 9 = false)
include open_

theorem effEret_sup (sup : wbit s.me.sstatus 8 = true) (outside : s.me.pack = none) : ∃ v,
    effEret s = .jump (s.setHart s.cur { s.me.backTo .sup with pc := s.me.sepc, vstart := v }) s.me.sepc := by
  have same : { s.me.returnTrap with pack := none, vstart := s.returnVstart s.cur } =
      { s.me.backTo .sup with pc := s.me.sepc, vstart := s.returnVstart s.cur } := by
    simp only [Hart.returnTrap, sup, if_true]
    exact congrArg (fun p => { s.me.backTo .sup with pc := s.me.sepc, vstart := s.returnVstart s.cur, pack := p }) outside.symm
  refine ⟨s.returnVstart s.cur, ?_⟩
  rw [← same]
  simp only [effEret, open_, sup, Bool.false_eq_true, if_false, if_true]
  show s.returnSup s.cur = _
  simp only [State.returnSup, show (s.hart s.cur).pack = none from outside]
  rfl

variable (user : wbit s.me.sstatus 8 = false)
include user

theorem effEret_idle (none : s.me.task = none) : effEret s = .jump (s.setHart s.cur s.me.goIdle) s.me.sepc := by
  simp only [effEret, open_, user, none, Bool.false_eq_true, if_false, Option.isNone_none, if_true]
  rfl

theorem effEret_user (task : s.me.task ≠ none) (running : s.me.stop ≠ .cancelled) (chain : s.me.chain = false)
    (outside : s.me.pack = none) : effEret s =
      .jump (s.setHart s.cur { s.me.returnTrap with vstart := s.returnVstart s.cur, chain := false }) s.me.sepc := by
  obtain ⟨t, held⟩ := Option.ne_none_iff_exists'.mp task
  have stop : s.stopHeld s.cur = (s, false) := by
    simp only [State.stopHeld, show (s.hart s.cur).task = some t from held, show (s.hart s.cur).chain = false from chain,
      if_neg (show ¬ (s.hart s.cur).stop = .cancelled from running), Bool.false_eq_true, if_false]
  simp only [effEret, open_, user, held, Option.isNone_some, stop, outside, Bool.false_eq_true, if_false]

end

/-- The bank of user privilege, with the error marks of its registers. -/
def Hart.userBank (x : Hart) : Hart := if x.swapped then x.swapBank else x

theorem Hart.userBank_eq (x : Hart) : x.userBank = if x.swapped then { x with
    s := x.s.take 56 ++ x.shadow, shadow := x.s.drop 56, swapped := false
    sbad := x.shbad ++ x.sbad.extractLsb' 0 56, shbad := x.sbad.extractLsb' 56 8 } else x := by
  unfold Hart.userBank
  split
  · next swapped => rw [Hart.swapBank, swapped]; rfl
  · rfl

theorem Hart.returnTrap_user {x : Hart} (user : wbit x.sstatus 8 = false) : x.returnTrap = { x.userBank.dropStrips with
    sstatus := setField x.sstatus 1 1 (field x.sstatus 5 1), priv := .user, pc := x.sepc } := by
  simp only [Hart.returnTrap, user, Bool.false_eq_true, if_false, decide_true, Bool.true_and]
  rfl

/-- SIE takes the bit of SPIE. -/
theorem sie_of_return (w : Word) : wbit (setField w 1 1 (field w 5 1)) 1 = wbit w 5 := by
  have below : w.toNat < 2 ^ 64 := w.isLt
  have bit (v : Word) (i : Nat) : wbit v i = decide (v.toNat / 2 ^ i % 2 = 1) := by
    rw [wbit, BitVec.getLsbD, Nat.testBit_eq_decide_div_mod_eq]
  rw [bit, bit, setField, field, field, BitVec.toNat_ofNat]
  simp only [decide_eq_decide]
  omega

theorem Hart.userBank_swapped (x : Hart) : x.userBank.swapped = false := by
  unfold Hart.userBank
  split
  · next swapped => exact congrArg (! ·) swapped
  · next same => exact Bool.eq_false_iff.mpr same

/-! ## The fault record of ERET.kill (R263) -/

@[simp] theorem le_leBytes_here (n v : Nat) (rest : List Byte) : le (leBytes n v ++ rest) 0 n = v % 256 ^ n := by
  rw [le, List.drop_zero, List.take_append_of_le_length (by rw [leBytes_length]), List.take_of_length_le (by rw [leBytes_length]),
    leNat_leBytes]

theorem le_leBytes_later {k off : Nat} (past : k ≤ off) (v n : Nat) (rest : List Byte) :
    le (leBytes k v ++ rest) off n = le rest (off - k) n := by
  rw [le, le, List.drop_append, List.drop_eq_nil_of_le (by rw [leBytes_length]; exact past), leBytes_length, List.nil_append]

theorem State.faultRecord_length (s : State) (h : Nat) (t : Task) : (s.faultRecord h t).length = 64 := by
  simp only [State.faultRecord, List.length_append, leBytes_length]

theorem State.faultRecord_words (s : State) (h : Nat) (t : Task) :
    le (s.faultRecord h t) 0 8 = (s.hart h).sepc.toNat ∧ le (s.faultRecord h t) 8 8 = (s.hart h).trapWord.toNat ∧
      le (s.faultRecord h t) 16 8 = (s.hart h).stval.toNat ∧ le (s.faultRecord h t) 32 8 = t.handle.toNat ∧
      le (s.faultRecord h t) 40 8 = t.rc.launch.toNat := by
  have whole (w : Word) : w.toNat % 256 ^ 8 = w.toNat := Nat.mod_eq_of_lt w.isLt
  simp only [State.faultRecord, List.append_assoc]
  refine ⟨?_, ?_, ?_, ?_, ?_⟩ <;>
    simp only [le_leBytes_later, Nat.reduceLeDiff, Nat.reduceSub, le_leBytes_here, whole]

/-! ## ERET.kill (R263) -/

section
variable {s : State} {a : Reg}

theorem effEretKill_idle (none : s.me.task = none) : effEretKill a s = .trap s 1 s.me.iword := by
  simp only [effEretKill, none, State.illegal]

theorem effEretKill_misaligned (task : s.me.task ≠ none) (misaligned : (s.me.rd a).toNat % 64 ≠ 0) :
    effEretKill a s = .trap s 3 (s.me.rd a) := by
  obtain ⟨t, held⟩ := Option.ne_none_iff_exists'.mp task
  simp only [effEretKill, held, if_pos misaligned]

theorem effEretKill_writes {u : State} {pa : Nat} {m : BitVec 2} {k : Task} (task : s.me.task = some k)
    (aligned : (s.me.rd a).toNat % 64 = 0) (translated : s.translate (s.ctx s.cur) .store (s.me.rd a) = (u, .ok pa m))
    (free : u.inPackObject pa 64 = false) (open_ : u.writeHeld pa 64 = false) :
    effEretKill a s = .jump ((u.homeWrite none pa (u.faultRecord s.cur k)).endTask s.cur (.fault (s.me.rd a))) s.me.sepc := by
  have frame := s.translate_frame (s.ctx s.cur) .store (s.me.rd a)
  rw [translated] at frame
  have written : u.agentWrite none pa (u.faultRecord s.cur k) = u.homeWrite none pa (u.faultRecord s.cur k) := by
    rw [State.agentWrite, State.faultRecord_length, if_neg (ne_true_of_eq_false open_)]
  have sepc : (u.homeWrite none pa (u.faultRecord s.cur k)).me.sepc = s.me.sepc := by
    rw [(u.homeWrite_frame none pa _).me]
    show (u.hart u.cur).sepc = _
    rw [frame.cur, frame.hart]
    rfl
  simp only [effEretKill, task, aligned, translated, free, written, sepc, ne_eq, not_true, Bool.false_eq_true, if_false]

end

/-- Settles O42. -/
theorem trapReturn : Obligations.TrapReturn := by
  intro s code a x va illegal back user
  refine ⟨fun idle outside => ?ecall, fun sup ended idle => ?ended, fun sup open_ => ⟨fun toSup outside => ?toSup,
    fun toUser task running chain outside => ?toUser, fun toUser none => ?goesIdle⟩, fun sup idle => ⟨fun none => ?none,
    fun task misaligned => ?misaligned⟩, ?kill⟩
  case ecall =>
    obtain ⟨sepc, cause, value, priv, pc, -⟩ :=
      trapEntry s s.cur 9 false (x.pc + 8) (code.setWidth 64) x.iword outside (by decide)
    let t := s.takeTrap s.cur false 9 (x.pc + 8) (code.setWidth 64) x.iword
    have ends := t.hart_setHart s.cur { t.hart s.cur with brkAfter := x.brkAfter }
    exact ⟨_, if_pos idle, (congrArg Hart.sepc ends).trans sepc, (congrArg Hart.scause ends).trans cause,
      (congrArg Hart.stval ends).trans value, (congrArg Hart.pc ends).trans pc, (congrArg Hart.priv ends).trans priv⟩
  case ended =>
    exact finish_traps idle ((State.privOnly_sup sup _).trans (effEret_ended ended))
  case toSup =>
    obtain ⟨v, jumps⟩ := effEret_sup open_ toSup outside
    exact ⟨v, (congrArg (finish s) ((State.privOnly_sup sup _).trans jumps)).trans (finish_jump_setHart _ _)⟩
  case toUser =>
    have jumps := effEret_user open_ toUser task running chain outside
    refine ⟨s.returnVstart s.cur, ((congrArg (finish s) ((State.privOnly_sup sup _).trans jumps)).trans
      (finish_jump_setHart _ _)).trans (congrArg Host.Outcome.next ?_)⟩
    rw [Hart.returnTrap_user toUser, ← chain, Hart.userBank_eq]
    by_cases swapped : x.swapped = true
    · rw [if_pos swapped, show user (back x.dropStrips) = _ from if_pos swapped]
      rfl
    · rw [if_neg swapped, show user (back x.dropStrips) = _ from if_neg swapped]
      rfl
  case goesIdle =>
    have jumps := (State.privOnly_sup sup _).trans (effEret_idle open_ toUser none)
    have ends : (s.jumped x.goIdle x.sepc).hart s.cur = { x.goIdle with pc := x.sepc, wait := Option.none } :=
      State.hart_setHart _ _ _
    have bank : user x = x.userBank := x.userBank_eq.symm
    refine ⟨_, (congrArg (finish s) jumps).trans (finish_jump_setHart _ _), ?_⟩
    rw [ends, bank]
    have idle : x.goIdle = { x.userBank with
        sstatus := setField x.userBank.sstatus 1 1 (field x.userBank.sstatus 5 1), priv := .user, task := Option.none
        wait := Option.none, stop := .none, chain := false, pend := [], brkAfter := Option.none } := by
      simp only [Hart.goIdle, show x.priv = .sup from sup, if_true]
      rfl
    have status : x.userBank.sstatus = x.sstatus := by
      unfold Hart.userBank
      split <;> rfl
    rw [idle, status]
    exact ⟨rfl, rfl, rfl, rfl, x.userBank_swapped, sie_of_return x.sstatus⟩
  case none => exact finish_traps idle ((State.privOnly_sup sup _).trans (effEretKill_idle none))
  case misaligned => exact finish_traps idle ((State.privOnly_sup sup _).trans (effEretKill_misaligned task misaligned))
  case kill =>
    intro u pa m k sup task aligned translated free open_ rec_
    have jumps := (State.privOnly_sup sup _).trans (effEretKill_writes task aligned translated free open_)
    obtain ⟨sepc, word, stval, handle, launch⟩ := u.faultRecord_words s.cur k
    exact ⟨_, congrArg (finish s) jumps, rfl, u.faultRecord_length s.cur k, sepc, word, stval, handle, launch⟩

end Sys2Proof.Machine

/-! SUPPORT. What a trap and the execution of a core's vector instructions keep: the canonical form of memory and the issuing
hart. -/

namespace Sys2Proof.Machine

/-- The package once hart `h` has given up what it waits for (R244, R270). -/
def State.leaving (s : State) (h : Nat) : State := { s.leaveWaits h with filters := s.filters.filter fun f => f.hart != h }

/-- A trap by the pack region that its hart is in: none, one whose abort has reached the hart, or another (R253). -/
theorem State.takeTrap_eq (s : State) (h : Nat) (int : Bool) (cause : Nat) (sepc stval iw : Word) :
    s.takeTrap h int cause sepc stval iw =
      match ((s.hart h).atTrap iw s.gtime).pack with
      | some m =>
        if m.restore && !m.trapped then
          (((s.leaving h).setHart h ((((s.hart h).atTrap iw s.gtime).restoreCkpt m).enterTrap false 12 m.handler
            m.handle)).packLeave m.obj h).record (coreOf h) 5 (localHart h) 12 (m.handler &&& ~~~7#64)
        else
          ((s.leaving h).setHart h ({ (s.hart h).atTrap iw s.gtime with
              pack := some { m with trapped := true, nested := if m.trapped then m.nested + 1 else 0 } }.enterTrap int cause
            sepc stval)).record (coreOf h) 5 (localHart h) cause (sepc &&& ~~~7#64)
      | none =>
        ((s.leaving h).setHart h (((s.hart h).atTrap iw s.gtime).enterTrap int cause sepc stval)).record (coreOf h) 5
          (localHart h) cause (sepc &&& ~~~7#64) := rfl

/-- What a step that may not take place keeps. -/
def OptKeeps (s : State) : Option State → Prop
  | none => True
  | some t => Keeps s t

theorem OptKeeps.ite {s : State} {p : Prop} [Decidable p] {a b : Option State} (left : OptKeeps s a) (right : OptKeeps s b) :
    OptKeeps s (if p then a else b) := by
  split <;> assumption

theorem OptKeeps.of_some {s t : State} {o : Option State} (whole : OptKeeps s o) (e : o = some t) : Keeps s t := by
  rw [e] at whole
  exact whole

namespace Keeps

theorem getD {s : State} {o : Option State} (whole : OptKeeps s o) {t : State} (none : Keeps s t) : Keeps s (o.getD t) := by
  cases o with
  | none => exact none
  | some u => exact whole

section
variable {s t : State} (kept : Keeps s t)
include kept

/-! ## Traps (R259) -/

theorem record (c kind hart info : Nat) (w : Word) : Keeps s (t.record c kind hart info w) :=
  kept.trans (.ofHome (t.record_frame c kind hart info w))

theorem packLeave (obj h : Nat) : Keeps s (t.packLeave obj h) := by
  unfold State.packLeave
  split
  · exact kept
  · extract_lets q
    exact .ite (kept.packEnd _) kept

theorem takeTrap (h : Nat) (int : Bool) (cause : Nat) (sepc stval iw : Word) :
    Keeps s (t.takeTrap h int cause sepc stval iw) := by
  rw [State.takeTrap_eq]
  have left : Keeps s (t.leaving h) := kept
  generalize (t.hart h).atTrap iw t.gtime = x
  generalize t.leaving h = u at left
  split
  · exact .ite ((packLeave (left.setHart h _) _ _).record _ _ _ _ _) ((left.setHart h _).record _ _ _ _ _)
  · exact (left.setHart h _).record _ _ _ _ _

theorem noteDest (h cause : Nat) (d : Nat × Nat) : Keeps s (t.noteDest h cause d) := .ite kept kept

/-! ## The end of a vector instruction (R195, R260) -/

theorem endNumber (h : Nat) (e : VEntry) : Keeps s (t.endNumber h e) := by
  unfold State.endNumber
  split
  · exact kept
  · exact kept
  · exact kept

theorem trapVector (h : Nat) (e : VEntry) (f : VFault) : Keeps s (t.trapVector h e f) :=
  (((kept.endNumber h e).modHart h _).takeTrap h false _ _ _ _).noteDest h _ _

theorem endVector (h : Nat) (ru : VRun) : Keeps s (t.endVector h ru) := by
  unfold State.endVector
  split
  · exact kept.trapVector h _ _
  · exact kept

theorem endLoad (h : Nat) (ru : VRun) (v : VMem) : Keeps s (t.endLoad h ru v) := (kept.modHart h _).endVector h ru

theorem endGroup (h : Nat) (ru : VRun) : Keeps s (t.endGroup h ru) := by
  refine .ite kept ?_
  split
  · exact .ite kept (kept.endLoad h ru _)
  · exact kept.endVector h ru

/-! ## A core's cycle of its vector instructions (R60, R165) -/

theorem runGroup (h : Nat) : OptKeeps s (t.runGroup h) := by
  unfold State.runGroup
  split
  · trivial
  · extract_lets x hi n j u ru
    have lanes : Keeps s u := .ite kept kept
    refine .ite trivial (.ite (lanes.modHart h _).happen ?_)
    exact (endGroup (lanes.modHart h _) h _).happen

theorem runGroups (c : Nat) : Keeps s (t.runGroups c) :=
  fold (fun _ _ kept => .ite (getD (kept.runGroup _) kept) kept) _ kept

theorem delayGroups (c : Nat) : Keeps s (t.delayGroups c) := by
  refine .ite kept (modCore (fold (fun u h kept => ?_) _ kept) c _)
  split
  · exact .ite kept kept
  · exact kept

end

end Keeps

end Sys2Proof.Machine

/-! PROOF of ControlRegisters: CSRR and CSRW of every register. -/

namespace Sys2Proof.Machine

/-! ## The register with a number (R54) -/

theorem csrOf_of_toNat {n : BitVec 12} {k : Nat} (number : n.toNat = k) : csrOf n = csrOf (BitVec.ofNat 12 k) := by
  rw [← number, BitVec.ofNat_toNat, BitVec.setWidth_eq]

theorem csrOf_lcr : ∀ k, k < 6 → csrOf (BitVec.ofNat 12 (0x040 + k)) = some (.lcr k) := by decide
theorem csrOf_bkctl : ∀ k, k < 8 → csrOf (BitVec.ofNat 12 (0x110 + k)) = some (.bkctl k) := by decide
theorem csrOf_bkaddr : ∀ k, k < 8 → csrOf (BitVec.ofNat 12 (0x118 + k)) = some (.bkaddr k) := by decide
theorem csrOf_bkval : ∀ k, k < 8 → csrOf (BitVec.ofNat 12 (0x120 + k)) = some (.bkval k) := by decide

theorem csrOf_unassigned {n : BitVec 12} (unassigned : Claims.unassignedCsr n.toNat) : csrOf n = none := by
  have named := csrOf_csrAt n
  cases e : csrOf n with
  | none => rfl
  | some r => rw [e] at named; exact absurd unassigned named.1

/-- A number that R54 gives to the supervisor names a register of the supervisor. -/
theorem csrOf_supervisor {n : BitVec 12} (given : Claims.supervisorCsr n.toNat) : ∃ r, csrOf n = some r ∧ r.supervisor = true := by
  have assigned : ¬ Claims.unassignedCsr n.toNat := ForbiddenCsr.assigned (write := false) (.inl given)
  have named := csrOf_csrAt n
  cases e : csrOf n with
  | none => rw [e] at named; exact absurd named assigned
  | some r => rw [e] at named; exact ⟨r, rfl, named.2.1.mpr given⟩

/-! ## CSRR (R54, R115, R155) -/

section
variable {s : State} {n : BitVec 12} {r : Csr}

/-- A register may be named at the hart's privilege. -/
theorem named_allowed (allowed : r.supervisor = true → s.me.priv = .sup) :
    ¬ (r.supervisor && decide (s.me.priv = .user)) = true := by
  rw [Bool.and_eq_true, decide_eq_true_eq]
  rintro ⟨supervisor, user⟩
  rw [allowed supervisor] at user
  cases user

theorem exec_csrr_value (named : csrOf n = some r) (allowed : r.supervisor = true → s.me.priv = .sup)
    (flags : r = .fflags → s.me.queueIdle = true) (due : r = .atflags → s.flagsDue s.cur = false) (live : r ≠ .lcr 0) (d : Reg) :
    exec (.csrr d n) s = .next (s.done (s.me.wr d (s.csrValue s.cur r)) 8) := by
  have ready : ¬ ((decide (r = .fflags) && !s.me.vectorIdle) || (decide (r = .atflags) && s.flagsDue s.cur)) = true := by
    rw [Bool.or_eq_true, Bool.and_eq_true, Bool.and_eq_true, decide_eq_true_eq, decide_eq_true_eq, Hart.vectorIdle]
    rintro (⟨e, busy⟩ | ⟨e, owed⟩)
    · rw [flags e] at busy; cases busy
    · rw [due e] at owed; cases owed
  have reads : effCsrr d n s = .ok (s.result d (s.csrValue s.cur r)) := by
    simp only [effCsrr, named, if_neg (named_allowed allowed), if_neg ready, if_neg live]
  exact (congrArg (finish s) reads).trans (finish_result s d _)

theorem exec_csrr_fflags (named : csrOf n = some .fflags) (busy : s.me.queueIdle = false) (d : Reg) :
    exec (.csrr d n) s = .next (s.markWait s.cur) := by
  have waits : effCsrr d n s = .stall s := by
    simp only [effCsrr, named, Hart.vectorIdle, busy]
    rfl
  exact congrArg (finish s) waits

theorem exec_csrr_atflags (named : csrOf n = some .atflags) (due : s.flagsDue s.cur = true) (d : Reg) :
    exec (.csrr d n) s = .next (s.markWait s.cur) := by
  have waits : effCsrr d n s = .stall s := by
    simp only [effCsrr, named, due]
    rfl
  exact congrArg (finish s) waits

/-- A CSRR of LCR_USEFUL takes the snapshot that the other counters are read from. -/
theorem exec_csrr_live (named : csrOf n = some (.lcr 0)) (d : Reg) :
    let u := (s.delayGroups (coreOf s.cur)).runGroups (coreOf s.cur)
    let l := u.liveLcr (coreOf s.cur)
    ∃ t, exec (.csrr d n) s = .next t ∧ (t.hart s.cur).lcr = l.drop 1 ∧ (d ≠ 0 → (t.hart s.cur).rd d = getAt 0 l 0) ∧
      (∀ k, k ≠ s.cur → t.hart k = u.hart k) ∧ t.mem = u.mem := by
  intro u l
  have cur : u.cur = s.cur := (((Keeps.refl s).delayGroups (coreOf s.cur)).runGroups (coreOf s.cur)).cur
  let c := u.modCore (coreOf s.cur) fun x => { x with lcr := l, snapped := true }
  let v := c.modHart s.cur fun x => { x with lcr := l.drop 1 }
  have snap : s.snapLcr s.cur = (getAt 0 l 0, v) := rfl
  have reads : effCsrr d n s = .ok (v.result d (getAt 0 l 0)) := by
    simp only [effCsrr, named, snap]
    rfl
  have cur' : v.cur = s.cur := cur
  have me : v.me.lcr = l.drop 1 := by
    have hart := congrArg Hart.lcr (c.hart_setHart s.cur { c.hart s.cur with lcr := l.drop 1 })
    rw [State.me, cur']
    exact hart
  have ends := State.done_hart v (v.me.wr d (getAt 0 l 0)) 8
  rw [cur'] at ends
  refine ⟨_, (congrArg (finish s) reads).trans (finish_result_of cur' d _), ?_, fun named => ?_, fun k other => ?_, rfl⟩
  · rw [ends]
    exact (Hart.wr_lcr _ _ _).trans me
  · exact (State.done_wr_hart cur' v.me d (getAt 0 l 0)).1.trans (if_neg named)
  · exact (State.done_hart_ne v _ 8 (by rw [cur']; exact other)).trans (State.hart_setHart_ne _ _ _ _ other.symm)

theorem exec_csrr_unassigned (unassigned : Claims.unassignedCsr n.toNat) (idle : s.me.queueIdle = true) (d : Reg) :
    exec (.csrr d n) s = .next (s.trapped 1 s.me.iword) :=
  finish_traps idle (by rw [effCsrr, csrOf_unassigned unassigned]; rfl)

theorem exec_csrr_user (user : s.me.priv = .user) (given : Claims.supervisorCsr n.toNat) (idle : s.me.queueIdle = true) (d : Reg) :
    exec (.csrr d n) s = .next (s.trapped 2 s.me.iword) := by
  obtain ⟨r, named, supervisor⟩ := csrOf_supervisor given
  refine finish_traps idle ?_
  simp only [effCsrr, named, supervisor, user, decide_true, Bool.and_self, if_true]
  rfl

end

theorem controlReads : Claims.ControlReads := by
  intro s d n x c gives sup unit
  have value {k : Nat} (r : Csr) (named : csrOf (BitVec.ofNat 12 k) = some r) (open_ : r.supervisor = false)
      (flags : r = .fflags → x.queueIdle = true) (due : r = .atflags → s.flagsDue s.cur = false) (live : r ≠ .lcr 0) :
      gives k (s.csrValue s.cur r) := fun number =>
    exec_csrr_value ((csrOf_of_toNat number).trans named) (fun e => absurd e (ne_true_of_eq_false open_)) flags due live d
  have plain {k : Nat} (r : Csr) (named : csrOf (BitVec.ofNat 12 k) = some r) (open_ : r.supervisor = false)
      (flags : r ≠ .fflags) (due : r ≠ .atflags) (live : r ≠ .lcr 0) : gives k (s.csrValue s.cur r) :=
    value r named open_ (fun e => absurd e flags) (fun e => absurd e due) live
  have own {k : Nat} (r : Csr) (named : csrOf (BitVec.ofNat 12 k) = some r) (flags : r ≠ .fflags) (due : r ≠ .atflags)
      (live : r ≠ .lcr 0) : sup k (s.csrValue s.cur r) := fun priv number =>
    exec_csrr_value ((csrOf_of_toNat number).trans named) (fun _ => priv) (fun e => absurd e flags) (fun e => absurd e due) live d
  have policy : BitVec.ofNat 64 (b2n c.rr) = if c.rr then 1 else 0 := by cases c.rr <;> rfl
  refine ⟨plain .vl rfl rfl nofun nofun nofun, plain .mt rfl rfl nofun nofun nofun, plain .nvreg rfl rfl nofun nofun nofun,
    plain .sb rfl rfl nofun nofun nofun, plain .seed rfl rfl nofun nofun nofun, own .vstart rfl nofun nofun nofun,
    plain .mvl rfl rfl nofun nofun nofun, plain .lease rfl rfl nofun nofun nofun, plain .vew rfl rfl nofun nofun nofun,
    fun idle => value .fflags rfl rfl (fun _ => idle) nofun nofun,
    fun busy number => exec_csrr_fflags (csrOf_of_toNat number) busy d, plain .frm rfl rfl nofun nofun nofun,
    fun due => value .atflags rfl rfl nofun (fun _ => due) nofun,
    fun due number => exec_csrr_atflags (csrOf_of_toNat number) due d, plain .mleash rfl rfl nofun nofun nofun,
    plain .prio rfl rfl nofun nofun nofun, policy ▸ own .issuepol rfl nofun nofun nofun,
    fun number => exec_csrr_live (csrOf_of_toNat number) d, fun k small => ?lcr, plain .cycle rfl rfl nofun nofun nofun,
    plain .gtime rfl rfl nofun nofun nofun, own .stvec rfl nofun nofun nofun, own .sepc rfl nofun nofun nofun,
    own .scause rfl nofun nofun nofun, own .stval rfl nofun nofun nofun, own .sstatus rfl nofun nofun nofun,
    own .satp rfl nofun nofun nofun, own .sstart rfl nofun nofun nofun, own .lanedis rfl nofun nofun nofun,
    fun k small => ⟨own (.bkctl k) (csrOf_bkctl k small) nofun nofun nofun,
      own (.bkaddr k) (csrOf_bkaddr k small) nofun nofun nofun, own (.bkval k) (csrOf_bkval k small) nofun nofun nofun⟩,
    fun idle => ⟨fun user given => exec_csrr_user user given idle d, fun unassigned => exec_csrr_unassigned unassigned idle d⟩⟩
  have named := csrOf_lcr (k + 1) (by omega)
  rw [show 0x040 + (k + 1) = 0x041 + k by omega] at named
  exact plain (.lcr (k + 1)) named rfl nofun nofun nofun

/-! ## CSRW (R55, R56, R314) -/

section
variable {s : State} {n : BitVec 12} {a : Reg} {r : Csr}

/-- A register that CSRW stores plainly. -/
def Csr.stored : Csr → Bool
  | .vstart | .atflags | .mleash | .issuepol | .stvec | .sepc | .scause | .stval | .sstatus | .sstart | .bkaddr _ | .bkval _ => true
  | _ => false

theorem effCsrw_stored (named : csrOf n = some r) (allowed : r.supervisor = true → s.me.priv = .sup) (stored : r.stored = true) :
    effCsrw n a s = .ok (s.csrPut s.cur r (s.me.rd a)) := by
  have writable : ¬ r.readOnly = true := by cases r <;> simp_all [Csr.stored, Csr.readOnly]
  simp only [effCsrw, named, if_neg (named_allowed allowed), if_neg writable]
  cases r <;> simp_all [Csr.stored]

theorem effCsrw_flags (named : csrOf n = some r) (flags : r = .fflags ∨ r = .frm) (idle : s.me.queueIdle = true) :
    effCsrw n a s = .ok (s.csrPut s.cur r (s.me.rd a)) := by
  rcases flags with rfl | rfl
  · simp only [effCsrw, named, Hart.vectorIdle, idle]
    rfl
  · simp only [effCsrw, named, Hart.vectorIdle, idle]
    rfl

theorem effCsrw_readOnly (named : csrOf n = some r) (allowed : r.supervisor = true → s.me.priv = .sup)
    (readOnly : r.readOnly = true) : effCsrw n a s = .trap s 1 s.me.iword := by
  simp only [effCsrw, named, if_neg (named_allowed allowed), if_pos readOnly, State.illegal]

theorem effCsrw_unassigned (unassigned : Claims.unassignedCsr n.toNat) : effCsrw n a s = .trap s 1 s.me.iword := by
  simp only [effCsrw, csrOf_unassigned unassigned, State.illegal]

theorem effCsrw_user (user : s.me.priv = .user) (named : csrOf n = some r) (supervisor : r.supervisor = true) :
    effCsrw n a s = .trap s 2 s.me.iword := by
  simp only [effCsrw, named, supervisor, user, decide_true, Bool.and_self, if_true, State.privileged]

theorem effCsrw_lcr {k : Nat} (named : csrOf n = some (.lcr k)) : effCsrw n a s =
    if s.me.priv = .user then .trap s 2 s.me.iword else .ok (s.clearLcr (coreOf s.cur)) := by
  simp only [effCsrw, named]
  rfl

theorem effCsrw_bkctl {k : Nat} (sup : s.me.priv = .sup) (named : csrOf n = some (.bkctl k)) : effCsrw n a s =
    if bkctlOk (s.me.rd a) then .ok (s.csrPut s.cur (.bkctl k) (s.me.rd a)) else .trap s 1 s.me.iword := by
  simp only [effCsrw, named, if_neg (named_allowed (s := s) (r := .bkctl k) fun _ => sup)]
  rfl

/-- A write of a register of the core leaves the rest. -/
theorem exec_csrw_core {f : Core → Core} (writes : effCsrw n a s = .ok (s.modCore (coreOf s.cur) f)) :
    ∃ t, exec (.csrw n a) s = .next t ∧ t.harts = (s.done s.me 8).harts ∧ t.mem = s.mem ∧ t.dies = s.dies ∧
      t.core (coreOf s.cur) = f (s.core (coreOf s.cur)) ∧ ∀ j, j ≠ coreOf s.cur → t.core j = s.core j :=
  ⟨_, congrArg (finish s) writes, rfl, rfl, rfl, s.core_modCore (coreOf s.cur) f,
    fun _ other => State.core_setCore_ne _ _ _ _ other.symm⟩

end

theorem csrOf_lcr_range {n : BitVec 12} (low : 0x040 ≤ n.toNat) (high : n.toNat ≤ 0x045) :
    csrOf n = some (.lcr (n.toNat - 0x040)) := by
  have named := csrOf_lcr (n.toNat - 0x040) (by omega)
  rw [Nat.add_sub_cancel' low] at named
  exact (csrOf_of_toNat rfl).trans named

theorem controlWrites : Claims.ControlWrites := by
  intro s a n x v k c trap hart core sup width
  have putHart {num : Nat} {f : Hart → Hart} (writes : k = num → effCsrw n a s = .ok (s.modHart s.cur f))
      (pc : (f x).pc = x.pc) : hart num (f x) := fun number => finish_modHart (writes number) pc
  have put {num : Nat} (r : Csr) (named : csrOf (BitVec.ofNat 12 num) = some r) (stored : r.stored = true)
      (allowed : r.supervisor = true → x.priv = .sup) (number : k = num) : effCsrw n a s = .ok (s.csrPut s.cur r v) :=
    effCsrw_stored ((csrOf_of_toNat number).trans named) allowed stored
  have same {num : Nat} {r : Csr} (named : csrOf (BitVec.ofNat 12 num) = some r) (number : k = num) : csrOf n = some r :=
    (csrOf_of_toNat number).trans named
  have mt (number : k = 0x001) : effCsrw n a s = effSetmt v.toNat s := by
    simp only [effCsrw, same (r := .mt) rfl number]; rfl
  have nv (number : k = 0x002) : effCsrw n a s = effSetnv v.toNat s := by
    simp only [effCsrw, same (r := .nvreg) rfl number]; rfl
  have sb (number : k = 0x003) : effCsrw n a s = effSetsb v s := by
    simp only [effCsrw, same (r := .sb) rfl number]; rfl
  have seed (number : k = 0x004) : effCsrw n a s = effSetseed v s := by
    simp only [effCsrw, same (r := .seed) rfl number]; rfl
  refine ⟨fun idle small number => finish_modHart ((mt number).trans (effSetmt_ok small idle)) rfl,
    fun ok free stored number => finish_modHart ((nv number).trans (effSetnv_ok ok free stored)) rfl,
    fun idle => ⟨fun number => finish_modHart ((sb number).trans (effSetsb_idle v idle)) rfl,
      fun number => finish_modHart ((seed number).trans (effSetseed_idle v idle)) rfl,
      putHart (f := fun y => { y with fflags := v.setWidth 7 }) (fun number => effCsrw_flags (same rfl number) (.inl rfl) idle) rfl,
      putHart (f := fun y => { y with frm := v.setWidth 3 }) (fun number => effCsrw_flags (same rfl number) (.inr rfl) idle) rfl⟩,
    fun imm given => ?sets, fun number => ?sb, fun number => ?seed,
    putHart (f := fun y => { y with atflags := v.setWidth 7 }) (put .atflags rfl rfl nofun) rfl,
    putHart (f := fun y => { y with mleash := min v.toNat 1023 }) (put .mleash rfl rfl nofun) rfl,
    fun priv => ⟨putHart (f := fun y => { y with vstart := v.toNat }) (put .vstart rfl rfl fun _ => priv) rfl,
      putHart (f := fun y => { y with stvec := v &&& ~~~7#64 }) (put .stvec rfl rfl fun _ => priv) rfl,
      putHart (f := fun y => { y with sepc := v &&& ~~~7#64 }) (put .sepc rfl rfl fun _ => priv) rfl,
      putHart (f := fun y => { y with scause := v &&& 0x800000000000001F#64 }) (put .scause rfl rfl fun _ => priv) rfl,
      putHart (f := fun y => { y with stval := v }) (put .stval rfl rfl fun _ => priv) rfl,
      putHart (f := fun y => { y with sstatus := (v &&& 0x122#64) ||| (y.sstatus &&& 0x200#64) })
        (put .sstatus rfl rfl fun _ => priv) rfl,
      putHart (f := fun y => { y with sstart := v }) (put .sstart rfl rfl fun _ => priv) rfl,
      fun number => ?policy, fun j small number => ?lcr, fun j small => ?units,
      fun number => ?satp⟩,
    fun idle => ⟨fun user given => finish_traps idle ?_, fun given => finish_traps idle ?_⟩⟩
  case sets =>
    have value : v.toNat = imm.toNat := by
      rw [given, BitVec.toNat_setWidth]
      exact Nat.mod_eq_of_lt (by omega)
    refine ⟨fun number => congrArg (finish s) ((mt number).trans ?_), fun number => congrArg (finish s) ((nv number).trans ?_)⟩
    · rw [value]
    · rw [value]
  case sb => exact congrArg (finish s) ((sb number).trans (by rw [sbValue_alone, show (0 : BitVec 36).signExtend 64 = 0#64 from rfl, BitVec.add_zero]))
  case seed => exact congrArg (finish s) ((seed number).trans (by rw [show sext64 (0 : BitVec 36) = 0#64 from rfl, BitVec.add_zero]))
  case policy =>
    obtain ⟨t, next, harts, mem, dies, at_, others⟩ := exec_csrw_core (s := s)
      (f := fun y => { y with rr := wbit v 0, hist := { y.hist with last := 7 } }) (put .issuepol rfl rfl (fun _ => priv) number)
    exact ⟨t, next, harts, mem, dies, by rw [at_]; exact ⟨rfl, _, rfl⟩, others⟩
  case lcr =>
    have named := same (csrOf_lcr j small) number
    have writes : effCsrw n a s = .ok (s.clearLcr c) :=
      (effCsrw_lcr named).trans (if_neg (by rw [show s.me.priv = .sup from priv]; decide))
    exact exec_csrw_core writes
  case units =>
    refine ⟨fun ok number => ?_, fun bad idle number => ?_, fun number => ?_, fun number => ?_⟩
    · exact exec_csrw_core (s := s) (f := fun y => y.setUnit j { y.unit j with ctl := v }) ((effCsrw_bkctl priv (same (csrOf_bkctl j small) number)).trans (if_pos ok))
    · exact finish_traps idle ((effCsrw_bkctl priv (same (csrOf_bkctl j small) number)).trans (if_neg (ne_true_of_eq_false bad)))
    · exact exec_csrw_core (s := s) (f := fun y => y.setUnit j { y.unit j with addr := v &&& ~~~7#64 }) (put (.bkaddr j) (csrOf_bkaddr j small) rfl (fun _ => priv) number)
    · exact exec_csrw_core (s := s) (f := fun y => y.setUnit j { y.unit j with val := v }) (put (.bkval j) (csrOf_bkval j small) rfl (fun _ => priv) number)
  case satp =>
    have writes : effCsrw n a s = effAsidsw 0 v s := by
      simp only [effCsrw, same (r := .satp) rfl number, if_neg (named_allowed (s := s) (r := .satp) fun _ => priv)]; rfl
    exact congrArg (finish s) (writes.trans (State.privOnly_sup priv _).symm)
  case refine_1 =>
    by_cases counter : 0x040 ≤ k ∧ k ≤ 0x045
    · exact (effCsrw_lcr (csrOf_lcr_range counter.1 counter.2)).trans (if_pos user)
    · obtain ⟨r, named, supervisor⟩ := csrOf_supervisor (n := n) (by unfold Claims.supervisorCsr; omega)
      exact effCsrw_user user named supervisor
  case refine_2 =>
    have readOnly {num : Nat} (r : Csr) (named : csrOf (BitVec.ofNat 12 num) = some r) (bad : r.readOnly = true)
        (open_ : r.supervisor = false) (number : k = num) : effCsrw n a s = .trap s 1 x.iword :=
      effCsrw_readOnly (same named number) (fun e => absurd e (ne_true_of_eq_false open_)) bad
    rcases given with number | number | number | number | number | number | number | ⟨priv, number⟩ | unassigned |
      ⟨number, large⟩ | ⟨number, bad⟩
    · exact readOnly .vl rfl rfl rfl number
    · exact readOnly .mvl rfl rfl rfl number
    · exact readOnly .lease rfl rfl rfl number
    · exact readOnly .vew rfl rfl rfl number
    · exact readOnly .prio rfl rfl rfl number
    · exact readOnly .cycle rfl rfl rfl number
    · exact readOnly .gtime rfl rfl rfl number
    · exact effCsrw_readOnly (same (r := .lanedis) rfl number) (fun _ => priv) rfl
    · exact effCsrw_unassigned unassigned
    · exact (mt number).trans (effSetmt_illegal large)
    · exact (nv number).trans (effSetnv_bad bad)

/-- Settles O43. -/
theorem controlRegisters : Obligations.ControlRegisters := ⟨controlReads, controlWrites⟩

end Sys2Proof.Machine

/-! PROOF of TaskPushes, Join and LevelRecords: the records that task instructions name, what they push, and the statuses they
write. -/

namespace Sys2Proof.Machine

/-! ## The ends of an instruction that writes a status -/

/-- An instruction that writes a status where its record has been pushed: the hart goes on. -/
theorem finish_status {s x : State} (cur : x.cur = s.cur) (pc : x.me.pc = s.me.pc) (d : Reg) (n : Word) :
    ∃ t, finish s (.ok (x.result d n)) = .next t ∧ (d ≠ 0 → (t.hart s.cur).rd d = n) ∧ (t.hart s.cur).pc = s.me.pc + 8 ∧
      t.dies = x.dies := by
  obtain ⟨rd, pc', -⟩ := State.done_wr_hart cur x.me d n
  refine ⟨_, finish_result_of cur d n, fun named => rd.trans (if_neg named), ?_, rfl⟩
  rw [pc', pc]

theorem TrFrame.pc {s x : State} (frame : TrFrame s x) : x.me.pc = s.me.pc := by rw [frame.me]

theorem State.lookAt_free {s : State} {pa n : Nat} (free : s.readHeld pa n = false) : s.lookAt pa n = s :=
  if_neg (ne_true_of_eq_false free)

/-- A hart that is switched out while its data are fetched stands where it did. -/
theorem State.switchOut_markWait (s : State) (h : Nat) : ∃ w : Wait, w.kind = .load ∧ w.expired = false ∧
    ((s.switchOut h).markWait h).hart h = { s.hart h with wait := some w } := by
  let w : Wait := { kind := .load, epoch := s.epoch, deadline := none, expired := false, stage := 0, arg := 0 }
  refine ⟨w, rfl, rfl, (State.hart_setHart _ _ _).trans ?_⟩
  rw [show (s.switchOut h).hart h = { s.hart h with wait := some w } from State.hart_setHart _ _ _]
  rfl

/-! ## The record an instruction names (R84) -/

section
variable {s u : State} {va : Word} {pa : Nat} {m : BitVec 2} {acc : Acc} (names : Claims.Names s u acc va pa m)
include names

theorem Names.frame : TrFrame s u := by
  obtain ⟨-, located, -⟩ := names
  have frame := s.locateG_frame s.cur acc va 64
  rw [located] at frame
  exact frame

end

section
variable {s u : State} {va : Word} {pa : Nat} {m : BitVec 2} (names : Claims.Names s u .load va pa m)
include names

theorem State.readRec_names {out : Bool} (came : out = true → s.me.arrived = true) :
    s.readRec va out = .ok u (TaskRec.ofBytes (u.modeBytes m pa 64)) := by
  have frame := Names.frame names
  obtain ⟨-, located, memory, quiet, clean, free⟩ := names
  have here : ¬ (out && !u.me.arrived) = true := by
    rw [Bool.and_eq_true]
    rintro ⟨asked, late⟩
    have same : u.me.arrived = s.me.arrived := by rw [frame.me]; rfl
    rw [same, came asked] at late
    cases late
  have settled : ¬ (!u.quiet u.cur) = true := by rw [frame.cur, quiet]; decide
  simp only [State.readRec, located, memory, if_neg settled, if_neg here, clean, State.lookAt_free free, Bool.false_eq_true,
    if_false]

theorem State.readRec_asks (late : s.me.arrived = false) (free : u.requestFree s.cur = true) :
    s.readRec va true = .res (.stall (u.switchOut s.cur)) := by
  have frame := Names.frame names
  obtain ⟨-, located, memory, quiet, -⟩ := names
  have away : u.me.arrived = false := by rw [frame.me]; exact late
  have settled : ¬ (!u.quiet u.cur) = true := by rw [frame.cur, quiet]; decide
  have asks : u.askHome .stall = .stall (u.switchOut s.cur) := by
    rw [State.askHome, away, frame.cur, free]
    rfl
  simp only [State.readRec, located, memory, if_neg settled, away, asks, Bool.not_false, Bool.and_self, Bool.false_eq_true,
    if_false, if_true]

end

/-! ## What a push changes (R84, R94) -/

theorem State.levelJoin_frame (s : State) (x : Ctx) (va : Word) (part k : Nat) : TrFrame s (s.levelJoin x va part k) := by
  unfold State.levelJoin
  have read := s.levelAt_frame x .store va
  split <;> rename_i e <;> rw [e] at read
  · exact read.trans ((State.stamp_frame _ _ _).trans (State.levelPut_frame _ _ _ _ _))
  · exact read

theorem State.countPush_frame (s : State) (r : TaskRec) (k : Nat) : TrFrame s (s.countPush r k) := by
  unfold State.countPush
  split
  · exact .refl s
  · exact s.levelJoin_frame _ _ _ _

theorem State.pushGang_frame (s : State) (part : Nat) (r : TaskRec) (va : Word) (g : Nat) (mask : BitVec 4) :
    HomeFrame s (s.pushGang part r va g mask) := by
  refine HomeFrame.fold _ (fun t d => ?_) _ s
  split
  · exact t.push_frame _ _ _
  · exact .refl t

/-- The launch of a record translates for writing, or there is none. -/
def State.LaunchOpen (s : State) (r : TaskRec) : Prop :=
  r.launch = 0 ∨ ∃ w q g, s.translate (s.ctx s.cur) .store r.launch = (w, .ok q g)

theorem State.pushing_open {s : State} {r : TaskRec} (open_ : s.LaunchOpen r) (k : State → Res) :
    ∃ w, TrFrame s w ∧ s.pushing r k = k w := by
  unfold State.pushing
  by_cases none : r.launch = 0
  · exact ⟨s, .refl s, if_pos none⟩
  · obtain ⟨w, q, g, translated⟩ := open_.resolve_left none
    have frame := s.translate_frame (s.ctx s.cur) .store r.launch
    rw [translated] at frame
    exact ⟨w, frame, by rw [if_neg none, translated]⟩

/-- A record pushed at the tail of its level. -/
theorem State.push_recs (s : State) (d part : Nat) (q : QRec) :
    (((s.push d part q).die d).level part q.rc.prio.toNat).recs = ((s.die d).level part q.rc.prio.toNat).recs ++ [q] := by
  let l := (s.die d).level part q.rc.prio.toNat
  have put := (s.spill l l.recs.length q.rc).die_modDie d fun x => x.setLevel part q.rc.prio.toNat { l with recs := l.recs ++ [q] }
  exact (congrArg (fun x => (x.level part q.rc.prio.toNat).recs) put).trans
    (congrArg Level.recs (Die.level_setLevel _ _ _ _))

/-! ## SPAWN (R84, R345) -/

/-- What SPAWN does once its record has been checked. -/
def State.spawnEnd (v : State) (d : Reg) (die part : Nat) (va : Word) (r : TaskRec) : RecCheck → Res
  | .invalid => .ok (v.result d 2)
  | .closed => .ok (v.result d 3)
  | .ok =>
    if v.levelFull die part r then .ok (v.result d 1)
    else v.pushing r fun w => .ok (((w.countPush r 1).push die part (w.qrec die r va none none)).result d 0)

section
variable {s u : State} {d a : Reg} {pa : Nat} {m : BitVec 2} (names : Claims.Names s u .load (s.me.rd a) pa m)
  (outside : s.me.inRegion = false)
include names outside

/-- SPAWN of a readable record: the check of it, then its push. -/
theorem effSpawn_reads (came : s.me.arrived = true) {v : State} {c : RecCheck}
    (check : u.checkRec (u.ctx s.cur) (TaskRec.ofBytes (u.modeBytes m pa 64)) (s.partOf s.cur) = (v, c)) :
    effSpawn d a s = v.spawnEnd d (dieOf s.cur) (s.partOf s.cur) (s.me.rd a) (TaskRec.ofBytes (u.modeBytes m pa 64)) c := by
  have frame := Names.frame names
  have aligned := names.1
  simp only [effSpawn, outside, aligned, State.readRec_names names fun _ => came, frame.cur, check, ne_eq, not_true,
    Bool.false_eq_true, if_false]
  cases c <;> rfl

theorem effSpawn_asks (late : s.me.arrived = false) (free : u.requestFree s.cur = true) :
    effSpawn d a s = .stall (u.switchOut s.cur) := by
  have aligned := names.1
  simp only [effSpawn, outside, aligned, State.readRec_asks names late free, ne_eq, not_true, Bool.false_eq_true, if_false]

end

theorem spawn : Claims.Spawn := by
  intro s u d a pa m names outside
  have frame := Names.frame names
  refine ⟨fun late free => ?asks, fun came => ?_⟩
  case asks =>
    obtain ⟨w, kind, expired, hart⟩ := u.switchOut_markWait s.cur
    have me : u.hart s.cur = { s.me with asyncs := (u.hart s.cur).asyncs } := frame.hart s.cur
    refine ⟨_, w, congrArg (finish s) (effSpawn_asks names outside late free), ?_, ?_, ?_, kind, expired, rfl⟩
    · rw [hart, me]
    · rw [hart, me]
    · rw [hart]
  intro va r part v writes
  let c := (u.checkRec (u.ctx s.cur) r (s.partOf s.cur)).2
  have eff : effSpawn d a s = v.spawnEnd d (dieOf s.cur) (s.partOf s.cur) va r c := effSpawn_reads names outside came rfl
  have checked : TrFrame s v := frame.trans (u.checkRec_frame (u.ctx s.cur) r (s.partOf s.cur))
  have status (n : Word) (e : effSpawn d a s = .ok (v.result d n)) : writes v n :=
    (congrArg (finish s) e).trans (finish_result_of checked.cur d n)
  refine ⟨frame.cur, checked.cur, fun invalid => status 2 ?_, fun closed => status 3 ?_, fun ok => ⟨fun full => status 1 ?_,
    fun room none => ?pushes, fun w f room launched idle translated => ?faults, fun w q k room translated => ?counted⟩,
    fun bad => ?invalid, fun good none => ?unlaunched⟩
  · rw [eff, show c = .invalid from invalid]
    rfl
  · rw [eff, show c = .closed from closed]
    rfl
  · rw [eff, show c = .ok from ok]
    exact if_pos full
  case pushes =>
    rw [show c = .ok from ok] at eff
    let q := v.qrec (dieOf s.cur) r va Option.none Option.none
    let t := v.push (dieOf s.cur) (s.partOf s.cur) q
    have push : effSpawn d a s = .ok (t.result d 0) := by
      rw [eff, State.spawnEnd, room, State.pushing, if_pos none, State.countPush, if_pos none]
      rfl
    have pushed : HomeFrame v t := v.push_frame (dieOf s.cur) (s.partOf s.cur) q
    have recs : ((t.die (dieOf s.cur)).level (s.partOf s.cur) r.prio.toNat).recs = _ :=
      v.push_recs (dieOf s.cur) (s.partOf s.cur) q
    clear_value t
    refine ⟨_, (congrArg (finish s) push).trans (finish_result_of (pushed.cur.trans checked.cur) d 0), ?_, recs⟩
    show putAt Hart.reset t.harts t.cur _ = putAt Hart.reset v.harts v.cur _
    rw [pushed.harts, pushed.cur, pushed.me]
  case faults =>
    rw [show c = .ok from ok] at eff
    have frame' := v.translate_frame (v.ctx v.cur) .store r.launch
    rw [← checked.cur] at translated
    rw [translated] at frame'
    have trap : effSpawn d a s = .trap w f r.launch := by
      rw [eff, State.spawnEnd, room, State.pushing, if_neg launched, translated]
      rfl
    exact (congrArg (finish s) trap).trans ((finish_of_cur (frame'.cur.trans checked.cur) _).trans (finish_trapped w f _ idle))
  case counted =>
    rw [show c = .ok from ok] at eff
    obtain ⟨x, opened, push⟩ := State.pushing_open (s := v) (r := r) (.inr ⟨w, q, k, by rw [checked.cur]; exact translated⟩)
      fun w => .ok (((w.countPush r 1).push (dieOf s.cur) (s.partOf s.cur) (w.qrec (dieOf s.cur) r va none none)).result d 0)
    have frame' := ((checked.trans opened).trans (x.countPush_frame r 1)).trans
      (.ofHome (State.push_frame _ (dieOf s.cur) (s.partOf s.cur) (x.qrec (dieOf s.cur) r va none none)))
    obtain ⟨t, next, rd, pc, -⟩ := finish_status frame'.cur frame'.pc d 0
    refine ⟨t, (congrArg (finish s) (eff.trans ?_)).trans next, rd, pc⟩
    rw [State.spawnEnd, room]
    exact push
  case invalid =>
    rw [State.checkRec, bad]
    rfl
  case unlaunched =>
    rw [State.checkRec, good, if_pos none]
    rfl

/-! ## GANG (R94) -/

/-- The dies of a gang's mask as GANG reads them. -/
def gangMask (m : Word) : BitVec 4 := BitVec.ofNat 4 (field m 0 4)

theorem gangMask_refused (m : Word) (none : Prop) [Decidable none] :
    (decide (field m 4 60 ≠ 0) || decide (gangMask m = 0) || decide none) = true ↔ 16 ≤ m.toNat ∨ m.toNat = 0 ∨ none := by
  have below : m.toNat < 2 ^ 64 := m.isLt
  have high : field m 4 60 ≠ 0 ↔ 16 ≤ m.toNat := by rw [field]; omega
  have low : gangMask m = 0 ↔ m.toNat % 16 = 0 := by
    rw [gangMask, field, ← BitVec.toNat_inj, BitVec.toNat_ofNat]
    show m.toNat / 2 ^ 0 % 2 ^ 4 % 2 ^ 4 = 0 ↔ _
    omega
  rw [Bool.or_eq_true, Bool.or_eq_true, decide_eq_true_eq, decide_eq_true_eq, decide_eq_true_eq, high, low, or_assoc]
  by_cases large : 16 ≤ m.toNat
  · exact iff_of_true (.inl large) (.inl large)
  · rw [Nat.mod_eq_of_lt (Nat.lt_of_not_le large)]

theorem gangMask_bit {m : Word} {k : Nat} (die : k < 4) : (gangMask m).getLsbD k = m.toNat.testBit k := by
  rw [gangMask, field, BitVec.getLsbD, BitVec.toNat_ofNat, Nat.pow_zero, Nat.div_one, Nat.mod_mod, Nat.testBit_mod_two_pow]
  simp [die]

/-- A target level of a gang is full. -/
def State.gangFull (v : State) (part : Nat) (r : TaskRec) (mask : BitVec 4) : Bool :=
  (List.range 4).any fun k => mask.getLsbD k && v.levelFull k part r

/-- GANG notes its gang on the own die and pushes a record on each die of the mask. -/
def State.gangPush (w : State) (part : Nat) (va : Word) (r : TaskRec) (mask : BitVec 4) (start : Nat) : State :=
  let t := (w.countPush r (popcount mask)).pushGang part r va w.ids mask
  ({ t with ids := t.ids + 1 } : State).modDie (dieOf t.cur) fun x => { x with gangs := x.gangs ++
    [{ id := w.ids, launch := r.launch, handle := va, part := part, start := start, mask := mask, acked := 0 }] }

theorem State.gangPush_ends {s w : State} (frame : TrFrame s w) (part : Nat) (va : Word) (r : TaskRec) (mask : BitVec 4)
    (start : Nat) :
    (w.gangPush part va r mask start).cur = s.cur ∧ (w.gangPush part va r mask start).me.pc = s.me.pc := by
  have pushed := (frame.trans (w.countPush_frame r (popcount mask))).trans
    (.ofHome (State.pushGang_frame _ part r va w.ids mask))
  exact ⟨pushed.cur, pushed.pc⟩

/-- What GANG does once its record has been checked. -/
def State.gangEnd (v : State) (d : Reg) (part : Nat) (va : Word) (r : TaskRec) (mask : BitVec 4) (start : Nat) : RecCheck → Res
  | .invalid => .ok (v.result d 2)
  | .closed => .ok (v.result d 3)
  | .ok =>
    if v.gangFull part r mask then .ok (v.result d 1)
    else v.pushing r fun w => .ok ((w.gangPush part va r mask start).result d 0)

section
variable {s u : State} {d a b : Reg} {pa : Nat} {k : BitVec 2} (names : Claims.Names s u .load (s.me.rd a) pa k)
  (outside : s.me.inRegion = false)
include names outside

theorem effGang_refused (bad : 16 ≤ (s.me.rd b).toNat ∨ (s.me.rd b).toNat = 0 ∨
    (TaskRec.ofBytes (u.modeBytes k pa 64)).launch = 0) : effGang d a b s = .ok (u.result d 2) := by
  have aligned := names.1
  simp only [effGang, outside, aligned, State.readRec_names (out := false) names nofun, ne_eq, not_true, Bool.false_eq_true,
    if_false]
  exact if_pos ((gangMask_refused _ _).mpr bad)

/-- GANG of a record of R94's form: the check of it, then a push on each die of the mask. -/
theorem effGang_reads (good : ¬ (16 ≤ (s.me.rd b).toNat ∨ (s.me.rd b).toNat = 0 ∨
    (TaskRec.ofBytes (u.modeBytes k pa 64)).launch = 0)) {v : State} {c : RecCheck}
    (check : u.checkRec (u.ctx s.cur) (TaskRec.ofBytes (u.modeBytes k pa 64)) (s.partOf s.cur) = (v, c)) :
    effGang d a b s = v.gangEnd d (s.partOf s.cur) (s.me.rd a) (TaskRec.ofBytes (u.modeBytes k pa 64)) (gangMask (s.me.rd b))
      s.issuedAt c := by
  have frame := Names.frame names
  have aligned := names.1
  simp only [effGang, outside, aligned, State.readRec_names (out := false) names nofun, frame.cur, check, ne_eq, not_true,
    Bool.false_eq_true, if_false]
  refine (if_neg fun bad => good ((gangMask_refused _ _).mp bad)).trans ?_
  cases c <;> rfl

end

theorem gangStatus : Claims.GangStatus := by
  intro s u d a b pa k names outside r m chk writes
  have frame := Names.frame names
  have checked : TrFrame s chk.1 := frame.trans (u.checkRec_frame (u.ctx s.cur) r (s.partOf s.cur))
  refine ⟨fun bad => (congrArg (finish s) (effGang_refused names outside bad)).trans (finish_result_of frame.cur d 2),
    fun some_ small launched => ?_⟩
  have eff := effGang_reads (d := d) names outside (b := b) (v := chk.1) (c := chk.2)
    (by rintro (large | none | none)
        · exact absurd small (Nat.not_lt.mpr large)
        · exact absurd none (Nat.pos_iff_ne_zero.mp some_)
        · exact launched none) rfl
  have status (n : Word) (e : effGang d a b s = .ok (chk.1.result d n)) : writes chk.1 n :=
    (congrArg (finish s) e).trans (finish_result_of checked.cur d n)
  have full : chk.1.gangFull (s.partOf s.cur) r (gangMask (s.me.rd b)) = true ↔
      ∃ k, k < 4 ∧ m.testBit k = true ∧ chk.1.levelFull k (s.partOf s.cur) r = true := by
    simp only [State.gangFull, List.any_eq_true, List.mem_range, Bool.and_eq_true]
    exact exists_congr fun k => and_congr_right fun die => by rw [gangMask_bit die]
  refine ⟨fun invalid => status 2 ?_, fun closed => status 3 ?_, fun ok some_ => status 1 ?_, fun ok room open_ => ?_⟩
  · rw [eff, invalid]
    rfl
  · rw [eff, closed]
    rfl
  · rw [eff, ok]
    exact if_pos (full.mpr some_)
  · obtain ⟨w, q, g, translated⟩ := open_
    obtain ⟨x, opened, push⟩ := State.pushing_open (s := chk.1) (r := r) (.inr ⟨w, q, g, by rw [checked.cur]; exact translated⟩)
      fun w => .ok ((w.gangPush (s.partOf s.cur) (s.me.rd a) r (gangMask (s.me.rd b)) s.issuedAt).result d 0)
    obtain ⟨cur, pc⟩ := State.gangPush_ends (checked.trans opened) (s.partOf s.cur) (s.me.rd a) r (gangMask (s.me.rd b)) s.issuedAt
    obtain ⟨t, next, rd, pc', -⟩ := finish_status cur pc d 0
    refine ⟨t, (congrArg (finish s) (eff.trans ?_)).trans next, rd, pc'⟩
    rw [ok]
    refine (if_neg fun some_ => ?_).trans push
    obtain ⟨k, die, named, isFull⟩ := full.mp some_
    rw [room k die named] at isFull
    cases isFull

/-- Settles O19. -/
theorem taskPushes : Obligations.TaskPushes := ⟨spawn, gangStatus⟩

end Sys2Proof.Machine

/-! PROOF of Join: JOIN's decrement and push, and the level records that JOIN.lvl and TCANCEL name. -/

namespace Sys2Proof.Machine

/-! ## JOIN (R85) -/

/-- The decrement of a join counter at its unit. -/
def State.joinStep (v : State) (pa : Nat) : State :=
  (v.atomicAt (coreOf v.cur) (.phys pa) 8 (.amo .add) (2 ^ 64 - 1)).2.2

theorem State.joinStep_frame (v : State) (pa : Nat) : HomeFrame v (v.joinStep pa) := v.atomicAt_frame _ _ _ _ _

/-- The counter is decremented with wrap, and no other byte changes but for recalls. -/
theorem State.joinStep_mem (v : State) (pa : Nat) (wf : (v.recallRange pa 8).mem.wf = true) :
    (v.joinStep pa).mem.readLe pa 8 = ((v.recallRange pa 8).mem.readLe pa 8 + (2 ^ 64 - 1)) % 2 ^ 64 ∧
      ∀ p, p < pa ∨ pa + 8 ≤ p → (v.joinStep pa).mem.read p = (v.recallRange pa 8).mem.read p := by
  have small : (v.recallRange pa 8).mem.readLe pa 8 < 2 ^ (8 * 8) := Memory.readLe_lt _ _ _
  have sum := amoApply_result (op := .add) (n := 8) (.inr rfl) nofun small (b := 2 ^ 64 - 1) (by decide)
  obtain ⟨-, written⟩ := v.atomicAt_phys (coreOf v.cur) pa 8 (.amo .add) (2 ^ 64 - 1)
  rw [State.joinStep, written]
  refine ⟨(Memory.readLe_writeLe wf pa 8 _).trans ?_, fun p out => Memory.read_writeLe_ne wf pa 8 _ p out⟩
  rw [pow256]
  exact sum

/-- What JOIN does at a counter of 1 once its record has been checked: `v` is the state of the checks. -/
def State.joinEnd (v : State) (d : Reg) (die part pa : Nat) (va : Word) (r : TaskRec) : RecCheck → Res
  | .ok =>
    if v.levelFull die part r then .ok (v.result d 2)
    else v.pushing r fun w =>
      .ok ((((w.joinStep pa).countPush r 1).push die part (w.qrec die r va none none)).result d 1)
  | _ => .ok (v.result d 3)

/-- JOIN of a readable record at a counter of 1: the check of the record, then its push. -/
def State.joinPush (w : State) (d : Reg) (die part pa : Nat) (va : Word) (r : TaskRec) : Res :=
  (w.checkRec (w.ctx w.cur) r part).1.joinEnd d die part pa va r (w.checkRec (w.ctx w.cur) r part).2

/-- JOIN's two addresses are good, and nothing holds its counter: `v` is the state after both translations. -/
structure JoinNames (s u v : State) (ca va : Word) (pa ra : Nat) (m k : BitVec 2) : Prop where
  outside : s.me.inRegion = false
  counterAligned : ca.toNat % 8 = 0
  recordAligned : va.toNat % 64 = 0
  counter : s.locateG s.cur .store ca 8 = (u, .at_ (.g pa m))
  memory : inCtrl pa = false
  noObject : u.inPackObject pa 8 = false
  record : u.locateG s.cur .load va 64 = (v, .at_ (.g ra k))
  recordMemory : inCtrl ra = false
  quiet : v.quiet s.cur = true
  landed : v.inFlight (coreOf s.cur) pa 8 = false
  open_ : v.writeHeld pa 8 = false
  clean : poisoned v.bad pa 8 = false

section
variable {s u v : State} {d a b : Reg} {pa ra : Nat} {m k : BitVec 2} (names : JoinNames s u v (s.me.rd a) (s.me.rd b) pa ra m k)
include names

theorem JoinNames.frame : TrFrame s u ∧ TrFrame u v := by
  have first := s.locateG_frame s.cur .store (s.me.rd a) 8
  have second := u.locateG_frame s.cur .load (s.me.rd b) 64
  rw [names.counter] at first
  rw [names.record] at second
  exact ⟨first, second⟩

theorem effJoin_reads : effJoin d a b s =
    if leNat (v.homeBytes pa 8) ≠ 1 then .ok ((v.joinStep pa).result d 0)
    else if poisoned v.bad ra 64 then .trap v 7 (s.me.rd b)
    else (v.lookAt ra 64).joinPush d (dieOf s.cur) (s.partOf s.cur) pa (s.me.rd b)
      (TaskRec.ofBytes ((v.lookAt ra 64).modeBytes k ra 64)) := by
  obtain ⟨first, second⟩ := names.frame
  obtain ⟨outside, counterAligned, recordAligned, counter, memory, noObject, record, recordMemory, quiet, landed, open_, clean⟩ :=
    names
  have ready : ¬ (!v.quiet v.cur || v.inFlight (coreOf v.cur) pa 8) = true := by
    rw [second.cur, first.cur, quiet, landed]
    decide
  rw [← first.cur] at record
  simp only [effJoin, outside, counterAligned, recordAligned, counter, memory, noObject, record, recordMemory, if_neg ready,
    open_, clean, Bool.or_self, ne_eq, not_true, Bool.false_eq_true, if_false]
  refine if_congr Iff.rfl rfl (if_congr Iff.rfl rfl ?_)
  generalize v.lookAt ra 64 = w
  rw [State.joinPush]
  rcases w.checkRec (w.ctx w.cur) (TaskRec.ofBytes (w.modeBytes k ra 64)) (s.partOf s.cur) with ⟨x, c⟩
  cases c <;> rfl

end

/-- Settles O20. -/
theorem join : Obligations.Join := by
  intro s u v d a b pa ra m k ca va outside counterAligned recordAligned counter memory noObject record recordMemory quiet landed
    open_ clean n r chk
  have names : JoinNames s u v ca va pa ra m k := ⟨outside, counterAligned, recordAligned, counter, memory, noObject, record,
    recordMemory, quiet, landed, open_, clean⟩
  have frame : TrFrame s v := names.frame.1.trans names.frame.2
  have reads := effJoin_reads (d := d) names
  have checked : TrFrame s chk.1 := frame.trans (v.checkRec_frame (v.ctx s.cur) r (s.partOf s.cur))
  refine ⟨fun more => ?_, fun one sound free => ?_⟩
  · have step := v.joinStep_frame pa
    have mem := v.joinStep_mem pa
    have eff : effJoin d a b s = .ok ((v.joinStep pa).result d 0) := reads.trans (if_pos more)
    generalize v.joinStep pa = t at step mem eff
    refine ⟨_, (congrArg (finish s) eff).trans (finish_result_of (step.cur.trans frame.cur) d 0), ?_, mem⟩
    show putAt Hart.reset t.harts t.cur _ = putAt Hart.reset v.harts v.cur _
    rw [step.harts, step.cur, step.me]
  · have eff : effJoin d a b s = chk.1.joinEnd d (dieOf s.cur) (s.partOf s.cur) pa va r chk.2 := by
      refine reads.trans ((if_neg (not_not.mpr one)).trans ((if_neg (ne_true_of_eq_false sound)).trans ?_))
      rw [State.lookAt_free free, State.joinPush, frame.cur]
    have status (i : Word) (e : effJoin d a b s = .ok (chk.1.result d i)) :
        exec (.join d a b) s = .next (chk.1.done (chk.1.me.wr d i) 8) :=
      (congrArg (finish s) e).trans (finish_result_of checked.cur d i)
    refine ⟨fun bad => status 3 ?_, fun ok full => status 2 ?_, fun ok room launched => ?_⟩
    · rw [eff]
      cases c : chk.2 with
      | ok => exact absurd c bad
      | invalid => rfl
      | closed => rfl
    · rw [eff, ok]
      exact if_pos full
    · obtain ⟨x, opened, push⟩ := State.pushing_open (s := chk.1) (r := r) (by rw [State.LaunchOpen, checked.cur]; exact launched)
        fun w => .ok ((((w.joinStep pa).countPush r 1).push (dieOf s.cur) (s.partOf s.cur)
          (w.qrec (dieOf s.cur) r va none none)).result d 1)
      have pushed := (((checked.trans opened).trans (.ofHome (x.joinStep_frame pa))).trans (State.countPush_frame _ r 1)).trans
        (.ofHome (State.push_frame _ (dieOf s.cur) (s.partOf s.cur) (x.qrec (dieOf s.cur) r va none none)))
      obtain ⟨t, next, rd, pc, -⟩ := finish_status pushed.cur pushed.pc d 1
      refine ⟨t, (congrArg (finish s) (eff.trans ?_)).trans next, rd, pc⟩
      rw [ok]
      exact (if_neg (ne_true_of_eq_false room)).trans push

end Sys2Proof.Machine

/-! PROOF of LevelRecords: what writes at the homes leave of the dies, the level record that an instruction names, and the statuses
of TCANCEL and JOIN.lvl. -/

namespace Sys2Proof.Machine

/-! ## Of the dies, a write at a home changes the notes of the millrace slots alone (R228) -/

/-- Every die is the same but for its millrace slots. -/
def DieSlots (s t : State) : Prop := ∀ d, t.die d = { s.die d with slots := (t.die d).slots }

theorem noteDies_slots (self : Option (Nat × Nat)) (pa n k d : Nat) (l : List Die) :
    getAt Die.reset (noteDies self pa n k l) d =
      { getAt Die.reset l d with slots := (getAt Die.reset (noteDies self pa n k l) d).slots } := by
  induction l generalizing k d with
  | nil => rfl
  | cons x xs ih =>
    cases d with
    | zero => rfl
    | succ d => exact ih (k + 1) d

namespace DieSlots

theorem refl (s : State) : DieSlots s s := fun _ => rfl

theorem trans {s t u : State} (a : DieSlots s t) (b : DieSlots t u) : DieSlots s u := fun d => by
  rw [b d, a d]

theorem of_dies {s t : State} (e : t.dies = s.dies) : DieSlots s t := fun d => by
  rw [State.die, e]
  rfl

theorem fold {α : Type} {s : State} {f : State → α → State} (h : ∀ u x, DieSlots s u → DieSlots s (f u x)) (l : List α)
    {t : State} (kept : DieSlots s t) : DieSlots s (l.foldl f t) :=
  foldl_keeps (P := DieSlots s) f h l t kept

theorem cancels {s t : State} (kept : DieSlots s t) (d : Nat) : (t.die d).cancels = (s.die d).cancels :=
  (congrArg Die.cancels (kept d) :)

variable {s t : State} (kept : DieSlots s t)
include kept

theorem noteWrite (o : Option (Nat × Nat)) (pa n : Nat) : DieSlots s (t.noteWrite o pa n) :=
  kept.trans fun d => noteDies_slots o pa n 0 d t.dies

theorem writeBack (w : Nat) : DieSlots s (t.writeBack w) := by
  refine kept.trans ?_
  unfold State.writeBack
  split
  · exact .of_dies rfl
  · exact .refl t

theorem recallEntry (pa : Nat) (e : RangeEntry) : DieSlots s (t.recallEntry pa e) :=
  fold (fun _ w kept => kept.writeBack w) e.words kept

theorem makeRoom (pa n k : Nat) : DieSlots s (t.makeRoom pa n k) := by
  induction k generalizing t with
  | zero => exact kept
  | succ k ih =>
    unfold State.makeRoom
    split
    · exact kept
    · split
      · exact kept
      · exact ih (kept.recallEntry _ _)

theorem recallWord (w : Nat) : DieSlots s (t.recall w) := by
  unfold State.recall
  split
  · exact makeRoom (kept.writeBack w) _ _ _
  · exact kept

theorem recallRange (pa n : Nat) : DieSlots s (t.recallRange pa n) := fold (fun _ w kept => kept.recallWord w) _ kept

theorem enterRange (r : RangeEntry) : DieSlots s (t.enterRange r) := by
  unfold State.enterRange
  split
  · exact kept
  · exact kept.makeRoom _ _ _

theorem snoopFor (pa n : Nat) : DieSlots s (t.snoopFor pa n) := by
  refine kept.trans ?_
  unfold State.snoopFor State.sendSnoop
  split
  · exact .refl t
  · split
    · split
      · exact .refl t
      · exact .of_dies rfl
    · exact .refl t

theorem devPut (pa : Nat) (bs : List Byte) : DieSlots s (t.devPut pa bs) := by
  unfold State.devPut
  split
  · exact noteWrite (kept.snoopFor _ _) _ _ _
  · exact noteWrite (kept.recallRange _ _) _ _ _

theorem homeWrite (o : Option Owner) (pa : Nat) (bs : List Byte) : DieSlots s (t.homeWrite o pa bs) := by
  unfold State.homeWrite
  have written : DieSlots s ((t.recallRange pa bs.length).memPut pa bs) := kept.recallRange _ _
  cases o with
  | none => exact noteWrite written _ _ _
  | some o => exact noteWrite (fold (fun _ w kept => kept.enterRange _) _ written) _ _ _

theorem lookAt (pa n : Nat) : DieSlots s (t.lookAt pa n) := by
  unfold State.lookAt
  split
  · exact kept
  · exact kept

theorem agentWrite (o : Option Owner) (pa : Nat) (bs : List Byte) : DieSlots s (t.agentWrite o pa bs) := by
  unfold State.agentWrite
  split
  · exact kept
  · exact kept.homeWrite o pa bs

theorem levelPut (l : LevelRec) (off n v : Nat) : DieSlots s (t.levelPut l off n v) := kept.agentWrite _ _ _

theorem stamp (l : LevelRec) (part : Nat) : DieSlots s (t.stamp l part) := by
  unfold State.stamp
  split
  · exact kept
  · exact kept.levelPut _ _ _ _

theorem stampNamed (l : LevelRec) (part : Nat) : DieSlots s (t.stampNamed l part) := by
  unfold State.stampNamed
  split
  · exact kept.stamp l part
  · exact kept

end DieSlots

/-! ## A change of every die -/

/-- Changing one die after another changes each of those once. -/
theorem State.die_foldl_modDie (f : Die → Die) (n : Nat) (s : State) (j : Nat) :
    ((List.range n).foldl (fun (t : State) d => t.modDie d f) s).die j = if j < n then f (s.die j) else s.die j := by
  induction n with
  | zero => rfl
  | succ n ih =>
    rw [List.range_succ, List.foldl_append]
    generalize (List.range n).foldl (fun (t : State) d => t.modDie d f) s = t at ih ⊢
    rcases eq_or_ne j n with rfl | other
    · exact (t.die_modDie j f).trans (by rw [ih, if_neg (lt_irrefl j), if_pos j.lt_succ_self])
    · refine (State.die_setDie_ne t n j _ other.symm).trans (ih.trans ?_)
      simp only [show j < n + 1 ↔ j < n by omega]

/-- The entry that a cancellation sends to the dies. -/
theorem State.cancelLevel_cancels (s : State) (l : LevelRec) (va : Word) (part st : Nat) (gang : Option Nat) {j : Nat}
    (die : j < 4) : ((s.cancelLevel l va part st gang).die j).cancels =
      (s.die j).cancels ++ [{ handle := va, part := part, gang := gang }] := by
  unfold State.cancelLevel
  have put : DieSlots s (((s.levelPut l 9 1 1).levelPut l 8 1 st).levelPut l 48 8 s.gtime) :=
    (((DieSlots.refl s).levelPut l 9 1 1).levelPut l 8 1 st).levelPut l 48 8 _
  refine (congrArg Die.cancels ((State.die_foldl_modDie _ 4 _ j).trans (if_pos die))).trans ?_
  exact congrArg (· ++ _) (put.cancels j)

theorem TrFrame.ctx {s t : State} (frame : TrFrame s t) (h : Nat) : t.ctx h = s.ctx h := by
  rw [State.ctx, frame.hart]
  rfl

/-! ## The level record that an instruction names (R85, R386) -/

theorem State.stampNamed_frame (s : State) (l : LevelRec) (part : Nat) : TrFrame s (s.stampNamed l part) := by
  unfold State.stampNamed
  split
  · exact s.stamp_frame l part
  · exact .refl s

theorem State.namedLevel_names {s u : State} {va : Word} {pa : Nat} {m : BitVec 2} (names : Claims.Names s u .store va pa m)
    (noObject : u.inPackObject pa 64 = false) :
    s.namedLevel va = (u, .inr (LevelRec.ofBytes pa (u.modeBytes m pa 64))) := by
  obtain ⟨aligned, located, memory, -, clean, free⟩ := names
  simp only [State.namedLevel, aligned, located, memory, noObject, clean, State.lookAt_free free, ne_eq, not_true, Bool.or_self,
    Bool.false_eq_true, if_false]

/-- An end of TCANCEL or JOIN.lvl after a status has been chosen. -/
theorem finish_level {s x : State} (frame : TrFrame s x) (d : Reg) (n : Word) :
    ∃ t, finish s (.ok (x.result d n)) = .next t ∧ (d ≠ 0 → (t.hart s.cur).rd d = n) ∧ (t.hart s.cur).pc = s.me.pc + 8 ∧
      t.dies = x.dies :=
  finish_status frame.cur frame.pc d n

/-! ## TCANCEL (R91) -/

/-- What TCANCEL does with the record that it names, at the state in which it is stamped. -/
def State.cancelNamed (u : State) (k : LevelKind) (d : Reg) (l : LevelRec) (va : Word) (part : Nat) : Res :=
  if l.kind ≠ levelKindNum k || (l.set && l.part != part) then .ok (u.result d 2)
  else if l.running then .ok (((u.cancelLevel l va part 2 none).happen).result d 0)
  else .ok (u.result d 1)

/-- JOIN.lvl at the record that it names, stamped. -/
def State.joinNamed (u : State) (d : Reg) (l : LevelRec) (va : Word) (part : Nat) : Res :=
  if l.running && l.isLevel && (!l.set || l.part == part) then
    .ok ((u.levelDec (u.ctx u.cur) false part levelFuel va).1.result d
      (boolWord (u.levelDec (u.ctx u.cur) false part levelFuel va).2))
  else .ok (u.result d 3)

section
variable {s u : State} {k : LevelKind} {d a : Reg} {pa : Nat} {m : BitVec 2}

theorem effTcancel_names (names : Claims.Names s u .store (s.me.rd a) pa m) (noObject : u.inPackObject pa 64 = false)
    (outside : s.me.inRegion = false) {l : LevelRec} (read : l = LevelRec.ofBytes pa (u.modeBytes m pa 64)) :
    effTcancel k d a s = (u.stampNamed l (s.partOf s.cur)).cancelNamed k d l (s.me.rd a) (s.partOf s.cur) := by
  simp only [effTcancel, outside, State.namedLevel_names names noObject, ← read, Bool.false_eq_true, if_false]
  rfl

theorem effJoinLvl_names (names : Claims.Names s u .store (s.me.rd a) pa m) (noObject : u.inPackObject pa 64 = false)
    (outside : s.me.inRegion = false) (again : u.locateG s.cur .store (s.me.rd a) 64 = (u, .at_ (.g pa m)))
    {l : LevelRec} (read : l = LevelRec.ofBytes pa (u.modeBytes m pa 64)) :
    effJoinLvl d a s = (u.stampNamed l (s.partOf s.cur)).joinNamed d l (s.me.rd a) (s.partOf s.cur) := by
  have cur : u.cur = s.cur := (Names.frame names).cur
  have first := State.namedLevel_names names noObject
  have second : Claims.Names u u .store (s.me.rd a) pa m := by
    obtain ⟨aligned, -, memory, quiet, clean, free⟩ := names
    exact ⟨aligned, by rw [cur]; exact again, memory, by rw [cur]; exact quiet, clean, free⟩
  obtain ⟨-, -, -, quiet, -⟩ := names
  have settled : ¬ (!u.quiet u.cur) = true := by rw [cur, quiet]; decide
  simp only [effJoinLvl, outside, first, State.namedLevel_names second noObject, if_neg settled,
    ← read, Bool.false_eq_true, if_false]
  rfl

end

/-- The first record of a decrement: whether its count reached 0. -/
theorem State.levelDec_zero {s w : State} {x : Ctx} {part n : Nat} {va : Word} {o : LevelRec}
    (read : s.levelAt x .store va = (w, some o)) :
    (s.levelDec x false part (n + 1) va).2 = decide (o.outstanding = 1) := by
  rw [State.levelDec, read]
  simp only [Bool.not_false, Bool.or_true, Bool.false_eq_true, if_true, if_false]
  split
  · next one => exact (decide_eq_true one).symm
  · next more => exact (decide_eq_false more).symm

/-- Settles O21. -/
theorem levelRecords : Obligations.LevelRecords := by
  intro s u k d a pa m names noObject outside va l num mine
  have frame := Names.frame names
  have stamped : TrFrame s (u.stampNamed l (s.partOf s.cur)) := frame.trans (u.stampNamed_frame l _)
  have cancels : ∀ j, ((u.stampNamed l (s.partOf s.cur)).die j).cancels = (u.die j).cancels :=
    ((DieSlots.refl u).stampNamed l _).cancels
  have eff := effTcancel_names (k := k) (d := d) names noObject outside (l := l) rfl
  have effLvl := effJoinLvl_names (d := d) names noObject outside (l := l)
  have ctx : (u.stampNamed l (s.partOf s.cur)).ctx (u.stampNamed l (s.partOf s.cur)).cur = u.ctx s.cur := by
    rw [stamped.cur]
    exact (u.stampNamed_frame l _).ctx s.cur
  have kind : num = levelKindNum k := by cases k <;> rfl
  have owned : mine ↔ ¬ (decide (l.kind ≠ levelKindNum k) || (l.set && l.part != s.partOf s.cur)) = true := by
    simp [mine, kind]
  have running : l.running = true ↔ l.st = 0 := beq_iff_eq
  generalize u.stampNamed l (s.partOf s.cur) = v at *
  refine ⟨fun other => ?_, fun own ended => ?_, fun own runs => ?_, fun again => ?_⟩
  · obtain ⟨t, next, rd, pc, dies⟩ := finish_level stamped d 2
    have same : t.die = v.die := by unfold State.die; rw [dies]
    exact ⟨t, (congrArg (finish s) (eff.trans (if_pos (not_not.mp (mt owned.mpr other))))).trans next, rd, pc,
      fun j => by rw [same, cancels]⟩
  · obtain ⟨t, next, rd, pc, dies⟩ := finish_level stamped d 1
    have same : t.die = v.die := by unfold State.die; rw [dies]
    exact ⟨t, (congrArg (finish s) (eff.trans ((if_neg (owned.mp own)).trans (if_neg (mt running.mp ended))))).trans next, rd,
      pc, fun j => by rw [same, cancels]⟩
  · have cancel := v.cancelLevel_frame l va (s.partOf s.cur) 2 none
    have sent (j : Nat) (die : j < 4) := v.cancelLevel_cancels l va (s.partOf s.cur) 2 none die
    have eff := eff.trans ((if_neg (owned.mp own)).trans (if_pos (running.mpr runs)))
    generalize v.cancelLevel l (s.me.rd a) (s.partOf s.cur) 2 none = x at eff cancel sent
    obtain ⟨t, next, rd, pc, dies⟩ := finish_level ((stamped.trans cancel).trans (.ofHome x.happen_frame)) d 0
    have same : t.die = x.die := by unfold State.die; rw [dies]; rfl
    exact ⟨t, (congrArg (finish s) eff).trans next, rd, pc, fun j die => by rw [same, sent j die, cancels]⟩
  · intro level gives
    refine ⟨fun none_ => ?_, fun runs isLevel w o read => ?_⟩
    · obtain ⟨t, next, rd, pc, -⟩ := finish_level stamped d 3
      refine ⟨t, (congrArg (finish s) ((effLvl again rfl).trans (if_neg ?_))).trans next, rd, pc⟩
      simp only [Bool.and_eq_true, running, LevelRec.isLevel, decide_eq_true_eq, Bool.or_eq_true, Bool.not_eq_true', beq_iff_eq]
      rintro ⟨⟨runs, low, high⟩, part⟩
      exact none_.elim (· runs) (· ⟨low, high, fun set => part.resolve_left (Bool.not_eq_false _ ▸ set)⟩)
    · have dec := v.levelDec_frame (u.ctx s.cur) false (s.partOf s.cur) levelFuel va
      have zero : (v.levelDec (u.ctx s.cur) false (s.partOf s.cur) levelFuel va).2 = decide (o.outstanding = 1) :=
        State.levelDec_zero read
      obtain ⟨t, next, rd, pc, -⟩ := finish_level (stamped.trans dec) d (boolWord (decide (o.outstanding = 1)))
      refine ⟨t, (congrArg (finish s) ((effLvl again rfl).trans ((if_pos ?_).trans ?_))).trans next, fun named => ?_, pc⟩
      · obtain ⟨low, high, part⟩ := isLevel
        simp only [Bool.and_eq_true, running, LevelRec.isLevel, decide_eq_true_eq, Bool.or_eq_true, Bool.not_eq_true',
          beq_iff_eq]
        refine ⟨⟨runs, low, high⟩, ?_⟩
        cases set : l.set with
        | false => exact .inl rfl
        | true => exact .inr (part set)
      · rw [ctx, zero]
      · rw [rd named]
        simp [boolWord]

end Sys2Proof.Machine

/-! PROOF of SchedulerSteps (refuted): GANG_TIMEOUT may walk to the launch's record, and its report of a second entry of the page
(R189) waits at the control hart. -/

namespace Sys2Proof.Machine

/-- A gang of die 0 whose time is over. Its launch stands at 64, in a page that only a walk translates, that an L2 entry of die 1
maps in the opposite mode, and whose record is poisoned. -/
def aliasedGang : State :=
  { State.reset with
    gtime := 20001
    mem := [(0, 0xD7)]
    bad := [16]
    harts := [{ Hart.reset with satp := 0xA000000000000000 }]
    dies :=
      [{ Die.reset with gangs := [{ id := 0, launch := 64, handle := 0, part := 0, start := 0, mask := 1, acked := 0 }] },
       { Die.reset with l2tlb := [{ asid := 0, vpn := 1, lvl := 0, ppn := 0, pbmt := 1, g := false, u := true, x := false
                                    w := true, r := true, d := true }] }] }

/-- The state in which GANG_TIMEOUT looks for the record: the gang has left its die. -/
def aliasedGone : State := aliasedGang.modDie 0 fun x => { x with gangs := x.gangs.eraseIdx 0 }

/-- The context in which a scheduler of partition 0 translates there. -/
theorem aliasedGone_ctx : aliasedGone.partCtx 0 = { core := 0, priv := .user, satp := 0xA000000000000000 } := by decide

theorem aliasedGone_walk : aliasedGone.walk .store 64 5 0 = .leaf 4 0 0xD7 := by decide

/-- The entry that the walk finds. -/
def aliasedEntry : TlbEntry := tlbOf 0xA000000000000000 64 4 0xD7

theorem aliasedGone_aliases : (List.range 4).flatMap (fun k => aliasesIn aliasedEntry (aliasedGone.die k).l2tlb) = [0] := by decide

theorem aliasedGone_probe : aliasedGone.probeAlias 0 aliasedEntry =
    aliasedGone.modHart 1024 fun x => { x with asyncs := x.asyncs ++ [(14, 0)] } := by
  unfold State.probeAlias
  rw [aliasedGone_aliases]
  rfl

theorem aliasedGone_filled : aliasedGone.fillL2 0 aliasedEntry =
    (aliasedGone.probeAlias 0 aliasedEntry).modDie 0 fun x => { x with l2tlb := [aliasedEntry] } := by
  have empty : ((aliasedGone.probeAlias 0 aliasedEntry).die 0).l2tlb = [] := by rw [aliasedGone_probe]; rfl
  unfold State.fillL2
  simp only [empty]
  rfl

/-- The state after the walk. -/
def aliasedWalked : State := (aliasedGone.fillL2 0 aliasedEntry).modCore 0 fun c => c.fillTlb (sliceOf 64) aliasedEntry

theorem aliasedGone_translate : aliasedGone.translate (aliasedGone.partCtx 0) .store 64 = (aliasedWalked, .ok 64 0) := by
  have walk : aliasedGone.translate { core := 0, priv := .user, satp := 0xA000000000000000 } .store 64 =
      aliasedGone.walkFill { core := 0, priv := .user, satp := 0xA000000000000000 } .store 64 := by
    have core : (aliasedGone.core 0).tlb = [] := rfl
    have die : (aliasedGone.die (dieOfCore 0)).l2tlb = [] := rfl
    unfold State.translate
    rw [if_neg (by decide), if_neg (by decide)]
    simp only [core, die]
    rfl
  have marked : aliasedGone.markPte .store 0 0xD7 = (aliasedGone, 0xD7) := by
    unfold State.markPte
    generalize aliasedGone = s
    exact if_pos (by decide)
  rw [aliasedGone_ctx, walk, State.walkFill, show satpRoot 0xA000000000000000 = 0 from rfl, aliasedGone_walk]
  dsimp only
  rw [marked, if_neg (by decide), if_neg (by decide), aliasedWalked]
  have entry : tlbOf 0xA000000000000000 64 4 0xD7 = aliasedEntry := rfl
  simp only [entry]
  rfl

/-- The record is poisoned, so that nothing else happens. -/
theorem aliasedGone_levelAt : aliasedGone.levelAt (aliasedGone.partCtx 0) .store 64 = (aliasedWalked, none) := by
  have bad : aliasedWalked.bad = [16] := by rw [aliasedWalked, aliasedGone_filled, aliasedGone_probe]; rfl
  have poison : poisoned aliasedWalked.bad 64 64 = true := by rw [bad]; decide
  rw [State.levelAt, if_neg (by decide), aliasedGone_translate]
  generalize aliasedWalked = w at poison
  exact if_pos (by rw [poison]; rfl)

theorem aliasedGang_timeout : exec (.gangTimeout 0 0) aliasedGang = .next aliasedWalked.happen := by
  have timeout : aliasedGang.gangTimeout 0 0 = some (aliasedGone.failGang 0
    { id := 0, launch := 64, handle := 0, part := 0, start := 0, mask := 1, acked := 0 }) := rfl
  show execGangTimeout 0 0 aliasedGang = _
  rw [execGangTimeout, timeout, State.failGang]
  dsimp only
  rw [aliasedGone_levelAt]
  rfl

theorem aliasedWalked_asyncs : (aliasedWalked.hart 1024).asyncs = [(14, 0)] := by
  have filled : aliasedWalked.hart 1024 = (aliasedGone.probeAlias 0 aliasedEntry).hart 1024 := by
    rw [aliasedWalked, aliasedGone_filled]
    rfl
  rw [filled, aliasedGone_probe, State.modHart, State.hart_setHart]
  rfl

/-- Refutes O24: GANG_TIMEOUT does not leave all harts, as the walk to the launch's record may report a second entry of its page (R189). -/
theorem not_schedulerSteps : ¬ Obligations.SchedulerSteps := by
  intro ⟨_, timeout, _⟩
  obtain ⟨t, next, -, harts, -⟩ := timeout aliasedGang 0 0 _ rfl (by decide)
  have same : aliasedWalked.happen = t := Host.Outcome.next.inj (aliasedGang_timeout.symm.trans next)
  have kept : (aliasedWalked.hart 1024).asyncs = (aliasedGang.hart 1024).asyncs := by
    rw [State.hart, show aliasedWalked.harts = t.harts from (congrArg State.harts same :), harts]
    rfl
  rw [aliasedWalked_asyncs] at kept
  exact absurd kept (by decide)

end Sys2Proof.Machine

/-! PROOF of TileAndRowOps: what WSET, MROW, MROWV and MKICK do at issue. -/

namespace Sys2Proof.Machine

/-! ## WSET (R203, R374) -/

/-- Tile register d takes a descriptor. -/
def Hart.setTile (x : Hart) (d : Reg) (w : Word) : Hart := { x with w := putAt 0 x.w d.toNat w }

theorem Hart.tile_setTile (x : Hart) (d : Reg) (w : Word) : (x.setTile d w).tile d = w := getAt_putAt_self _ _ _ _

theorem Hart.tile_setTile_ne (x : Hart) {d e : Reg} (other : e ≠ d) (w : Word) : (x.setTile d w).tile e = x.tile e :=
  getAt_putAt_ne _ _ _ _ _ fun same => other (BitVec.eq_of_toNat_eq same.symm)

section
variable {s : State} {fmt : BitVec 4} {d a : Reg} (idle : s.me.queueIdle = true)
include idle

theorem effWset_bad (bad : fmt.toNat = 0 ∨ 9 < fmt.toNat ∨ 3 < d.toNat) : effWset fmt d a s = s.illegal := by
  simp only [effWset, Hart.vectorIdle, idle, Bool.not_true, Bool.false_eq_true, if_false, Bool.or_eq_true, decide_eq_true_eq]
  exact if_pos (or_assoc.mpr bad)

theorem effWset_good (low : 0 < fmt.toNat) (high : fmt.toNat ≤ 9) (named : d.toNat ≤ 3) : effWset fmt d a s =
    if (s.me.rd a).toNat % 64 ≠ 0 then .trap s 3 (s.me.rd a)
    else if Config.wBytes < (s.me.rd a).toNat + tileSize fmt.toNat then .trap s 5 (s.me.rd a)
    else .ok (s.modHart s.cur fun y => y.setTile d (tileDesc fmt.toNat (s.me.rd a).toNat)) := by
  simp only [effWset, Hart.vectorIdle, idle, Bool.not_true, Bool.false_eq_true, if_false, Bool.or_eq_true, decide_eq_true_eq]
  exact if_neg (by omega)

end

theorem tileRegisters : Claims.TileRegisters := by
  intro s fmt d a idle x v f k size
  refine ⟨fun bad => finish_traps idle (effWset_bad idle bad), fun low high named => ?_⟩
  have good := effWset_good (a := a) idle low high named
  refine ⟨fun odd => finish_traps idle (good.trans (if_pos odd)), fun aligned large => ?_, fun aligned fits => ?_⟩
  · exact finish_traps idle (good.trans ((if_neg (not_not.mpr aligned)).trans (if_pos large)))
  · refine ⟨x.setTile d (tileDesc f v.toNat), ?_, x.tile_setTile d _, fun e other => x.tile_setTile_ne other _, rfl⟩
    exact finish_modHart (good.trans ((if_neg (not_not.mpr aligned)).trans (if_neg (Nat.not_lt.mpr fits)))) rfl

/-! ## MROW and MROWV (R205, R206, R334) -/

theorem Hart.queueBusy_iff {x : Hart} : x.queueBusy = true ↔ ¬ x.vq.length < 8 := by
  rw [Hart.queueBusy, decide_eq_true_eq, not_lt]
  rfl

theorem Hart.takeNum_issued (x : Hart) (k : Nat) : ((x.takeNum k).2.tline k).issued = (x.tline k).issued + 1 :=
  congrArg Timeline.issued (getAt_putAt_self _ _ _ _)

/-- The hart behind a row op that has taken a number. -/
def Hart.rowQueued (x : Hart) (sent : Nat) (i : Instr) (sd : Word) : Hart :=
  { (x.takeNum 1).2 with vq := x.vq ++ [x.rowEntry sent i ((x.tline 1).issued + 1) sd] }

section
variable {s : State} {f : AFmt} {z : Bool} {d a b c : Reg} {tag : BitVec 4}

theorem effMrow_room (room : s.me.vq.length < 8) :
    effMrow f z d a b c s = .ok (s.setHart s.cur (s.me.rowQueued s.sends (.mrow f z d a b c) (s.me.rd d))) :=
  if_neg (mt Hart.queueBusy_iff.mp (not_not.mpr room))

theorem effMrowv_room (room : s.me.vq.length < 8) (lands : s.me.canLand tag.toNat 1024 = true) :
    effMrowv f d a b c tag s = .ok (s.setHart s.cur
      ((s.me.rowQueued s.sends (.mrowv f d a b c tag) 0).reserve tag.toNat ((s.me.tline 1).issued + 1) d 256 1024 true)) := by
  refine (if_neg (mt Hart.queueBusy_iff.mp (not_not.mpr room))).trans (if_neg ?_)
  rw [lands]
  decide

theorem effMrowv_full (room : s.me.vq.length < 8) (full : s.me.canLand tag.toNat 1024 = false) (idle : s.me.queueIdle = true) :
    effMrowv f d a b c tag s = s.illegal := by
  refine (if_neg (mt Hart.queueBusy_iff.mp (not_not.mpr room))).trans ((if_pos ?_).trans (if_pos idle))
  rw [full]
  rfl

theorem mrow_busy (busy : ¬ s.me.vq.length < 8) : effMrow f z d a b c s = .stall s ∧ effMrowv f d a b c tag s = .stall s :=
  ⟨if_pos (Hart.queueBusy_iff.mpr busy), if_pos (Hart.queueBusy_iff.mpr busy)⟩

end

/-! ## MKICK (R214, R332) -/

theorem State.kick_pond (s : State) (c : Nat) (p : PondGroup → Bool) : ((s.kick c p).core c).pond =
    (s.core c).pond.map fun g => g.map fun q => if q.state == .waiting && p q then q.ready (s.core c).cycle else q := by
  let kicked (x : Core) (q : PondGroup) : PondGroup := if q.state == .waiting && p q then q.ready x.cycle else q
  have core := s.core_modCore c fun x => { x with pond := x.pond.map fun g => g.map (kicked x) }
  exact congrArg Core.pond core

/-- A kick makes READY the groups that it names; the harts see no more than that it has completed. -/
theorem finish_kick {s : State} {r : Res} {p : PondGroup → Bool} (e : r = .ok (s.kick (coreOf s.cur) p)) (x : PondGroup → Prop)
    [DecidablePred x] (same : ∀ q, p q = true ↔ x q) :
    ∃ t, finish s r = .next t ∧ t.harts = (s.done s.me 8).harts ∧ t.mem = s.mem ∧
      (t.core (coreOf s.cur)).pond = (s.core (coreOf s.cur)).pond.map fun g => g.map fun q =>
        if q.state = .waiting ∧ x q then { q with state := .ready, readyAt := (s.core (coreOf s.cur)).cycle } else q := by
  obtain ⟨next, harts⟩ := finish_harts (s := s) (t := s.kick (coreOf s.cur) p) rfl
  refine ⟨_, e ▸ next, harts, rfl, (State.kick_pond s _ p).trans ?_⟩
  refine congrArg (fun k => List.map (Option.map k) _) (funext fun q => if_congr ?_ rfl rfl)
  rw [Bool.and_eq_true, beq_iff_eq, same]

section
variable {s : State} {a : Reg} (idle : s.me.queueIdle = true)
include idle

theorem effMkick_good (named : a.toNat ≤ 3) (valid : descValid (s.me.tile a) = true) :
    effMkick a s = .ok (s.kick (coreOf s.cur) fun g =>
      g.keyed (descAddr (s.me.tile a)) (descFmt (s.me.tile a)) (s.partOf s.cur)) := by
  simp [effMkick, Hart.vectorIdle, idle, valid, named]

theorem effMkick_bad (bad : 3 < a.toNat ∨ descValid (s.me.tile a) = false) : effMkick a s = s.illegal := by
  simp [effMkick, Hart.vectorIdle, idle, bad]

theorem effMkickAll_idle : effMkickAll s = .ok (s.kick (coreOf s.cur) fun g => g.rows.any fun r => r.hart == s.cur) := by
  simp [effMkickAll, Hart.vectorIdle, idle]

end

theorem rowOps : Claims.RowOps := by
  intro s f z d a b c tag x core n free
  refine ⟨fun room => ?_, fun room untagged fits => ?_, fun room full idle => ?_, fun busy => ?_, fun idle named valid => ?_,
    fun idle bad => finish_traps idle (effMkick_bad idle bad), fun idle => ?_⟩
  · refine ⟨x.rowQueued s.sends (.mrow f z d a b c) (x.rd d), _, ?_, x.takeNum_issued 1, rfl, ?_⟩
    · exact (congrArg (finish s) (effMrow_room room)).trans (finish_setHart s _ rfl)
    · exact ⟨rfl, rfl, rfl, rfl, rfl, rfl⟩
  · have lands : x.canLand tag.toNat 1024 = true := by
      rw [Hart.canLand, untagged, Bool.and_eq_true, decide_eq_true_eq]
      exact ⟨rfl, fits⟩
    refine ⟨(x.rowQueued s.sends (.mrowv f d a b c tag) 0).reserve tag.toNat n d 256 1024 true, _, _, ?_, x.takeNum_issued 1,
      rfl, rfl, rfl, rfl, getAt_putAt_self _ _ _ _, rfl, rfl, rfl, rfl, rfl⟩
    exact (congrArg (finish s) (effMrowv_room room lands)).trans (finish_setHart s _ rfl)
  · exact finish_traps idle (effMrowv_full room full idle)
  · obtain ⟨row, rowv⟩ := mrow_busy (f := f) (z := z) (d := d) (a := a) (b := b) (c := c) (tag := tag) busy
    exact ⟨congrArg (finish s) row, congrArg (finish s) rowv⟩
  · exact finish_kick (effMkick_good idle named valid) _ fun q => Iff.rfl
  · refine finish_kick (effMkickAll_idle idle) _ fun q => ?_
    rw [List.any_eq_true]
    exact exists_congr fun r => and_congr_right' beq_iff_eq

/-- Settles O33. -/
theorem tileAndRowOps : Obligations.TileAndRowOps := ⟨tileRegisters, rowOps⟩

end Sys2Proof.Machine

/-! PROOF of ArraySteps: what the steps of the millpond and the array change of their core. -/

namespace Sys2Proof.Machine

/-- Nothing but core c has changed. -/
def OnlyCore (s t : State) (c : Nat) : Prop :=
  t.harts = s.harts ∧ t.mem = s.mem ∧ t.dies = s.dies ∧ ∀ k, k ≠ c → t.core k = s.core k

/-- A step that writes its core. -/
theorem event_setCore (s : State) (c : Nat) (y : Core) {out : Out} (step : out = event (s.setCore c y)) :
    ∃ t, out = .next t ∧ OnlyCore s t c ∧ t.core c = y :=
  ⟨_, step, ⟨rfl, rfl, rfl, fun _ other => State.core_setCore_ne _ _ _ _ other.symm⟩, s.core_setCore c y⟩

@[simp] theorem Core.group_setGroup (x : Core) (i : Nat) (g : Option PondGroup) : (x.setGroup i g).group i = g :=
  getAt_putAt_self _ _ _ _

/-- A group that satisfies its step's condition. -/
theorem State.onGroup_eq {s : State} {c i : Nat} {g : PondGroup} {p : PondGroup → Bool} (found : (s.core c).group i = some g)
    (here : p g = true) (f : PondGroup → PondGroup) :
    s.onGroup c i p f = some (s.setCore c ((s.core c).setGroup i (some (f g)))) := by
  rw [State.onGroup, found]
  exact if_pos here

section
variable {s : State} {c i : Nat} {g : PondGroup}

theorem exec_leash (found : (s.core c).group i = some g) (waiting : g.state = .waiting) (due : g.deadline ≤ (s.core c).cycle) :
    exec (.leash c i) s = event (s.setCore c ((s.core c).setGroup i (some (g.ready (s.core c).cycle)))) := by
  show execLeash c i s = _
  rw [execLeash, State.onGroup_eq found (by simp [waiting, due])]

theorem exec_groupAge (found : (s.core c).group i = some g) (ready : g.state = .ready) (young : g.aged = false)
    (due : g.readyAt + 4096 ≤ (s.core c).cycle) :
    exec (.groupAge c i) s = event (s.setCore c ((s.core c).setGroup i (some { g with aged := true }))) := by
  show execGroupAge c i s = _
  rw [execGroupAge, State.onGroup_eq found (by simp [ready, young, due])]

/-! ## The tile and its group (R209, R213) -/

/-- The core with a tile on its way into the shadow latch. -/
def Core.loading (x : Core) (g : PondGroup) : Core :=
  { x with arr := { x.arr with shadow := some (x.readTile g), loadDone := x.cycle + 32 } }

theorem exec_tileLoad (next : (s.core c).next = some (i, g)) (active : latchServes (s.core c).arr.active g = false)
    (shadow : latchServes (s.core c).arr.shadow g = false) :
    exec (.tileLoad c) s = event (s.setCore c ((s.core c).loading g)) := by
  have load : s.tileLoad c = some (s.setCore c ((s.core c).loading g)) := by
    simp only [State.tileLoad, next, active, shadow, Bool.or_self, Bool.false_eq_true, if_false]
    rfl
  show execTileLoad c s = _
  rw [execTileLoad, load]

/-- The core whose array takes a group up with the given latches. -/
def Core.takingUp (x : Core) (a : MatrixArray) (i : Nat) (g : PondGroup) : Core :=
  ({ x with arr := { a with streaming := some i, nextEntry := max a.nextEntry x.cycle } } : Core).setGroup i
    (some { g with state := .streaming })

theorem exec_arrayTakeUp (next : (s.core c).next = some (i, g)) (free : (s.core c).arr.streaming = none)
    (latched : latchServes (s.core c).arr.active g = true ∨
      (latchServes (s.core c).arr.shadow g = true ∧ (s.core c).arr.loadDone ≤ (s.core c).cycle)) :
    ∃ a, exec (.arrayTakeUp c) s = event (s.setCore c ((s.core c).takingUp a i g)) := by
  have take : ∃ a, s.takeUp c = some (s.setCore c ((s.core c).takingUp a i g)) := by
    simp only [State.takeUp, next, free, Option.isSome_none, Bool.false_eq_true, if_false]
    by_cases active : latchServes (s.core c).arr.active g = true
    · exact ⟨(s.core c).arr, if_pos active⟩
    · obtain ⟨shadow, loaded⟩ := latched.resolve_left active
      have serves := Bool.and_eq_true_iff.mpr ⟨shadow, decide_eq_true loaded⟩
      exact ⟨{ (s.core c).arr with active := (s.core c).arr.shadow, shadow := none },
        (if_neg active).trans (if_pos serves)⟩
  obtain ⟨a, take⟩ := take
  refine ⟨a, ?_⟩
  show execArrayTakeUp c s = _
  rw [execArrayTakeUp, take]

/-! ## Rows (R209, R212) -/

/-- The core when the first row of its streaming group has entered. -/
def Core.entering (x : Core) (l : Latch) (i : Nat) (g : PondGroup) (r : Row) (rest : List Row) : Core :=
  ({ x with arr := { x.arr with flight := x.enterRow l r, nextEntry := x.cycle + rowCycles g.fmt
                                streaming := if rest.isEmpty then none else some i } } : Core).setGroup i
    (if rest.isEmpty then none else some { g with rows := rest, entered := g.entered ++ [r] })

theorem exec_rowEnter {l : Latch} {r : Row} {rest : List Row} (streams : (s.core c).arr.streaming = some i)
    (active : (s.core c).arr.active = some l) (found : (s.core c).group i = some g) (rows : g.rows = r :: rest)
    (due : (s.core c).arr.nextEntry ≤ (s.core c).cycle) :
    exec (.rowEnter c) s = event (s.setCore c ((s.core c).entering l i g r rest)) := by
  have enter : s.rowEnter c = some (s.setCore c ((s.core c).entering l i g r rest)) := by
    simp only [State.rowEnter, Core.entering, streams, active, found, rows]
    exact if_neg (Nat.not_lt.mpr due)
  show execRowEnter c s = _
  rw [execRowEnter, enter]

/-- A row that enters for the first time goes behind those in flight. -/
theorem Core.enterRow_new {x : Core} {r : Row} (l : Latch) (new : ∀ f ∈ x.arr.flight, f.row.same r = false) :
    x.enterRow l r = x.arr.flight ++ [{ row := r, latch := l, base := x.rowBase r
                                        result := rowResult x.arr.flight l (x.rowBase r) r, at_ := x.cycle + 288 }] := by
  refine if_neg ?_
  rw [Bool.not_eq_true, List.any_eq_false]
  exact fun f flies => ne_true_of_eq_false (new f flies)

/-- The core whose streaming group starts again with the rows that are still in the array. -/
def Core.reentering (x : Core) (i : Nat) (g : PondGroup) : Core :=
  ({ x with arr := { x.arr with nextEntry := x.cycle + 32 } } : Core).setGroup i
    (some { g with rows := g.entered.filter (fun r => x.arr.flight.any fun f => f.row.same r) ++ g.rows, entered := [] })

theorem exec_tileLatchError (streams : (s.core c).arr.streaming = some i) (found : (s.core c).group i = some g) :
    exec (.tileLatchError c) s = event (s.setCore c ((s.core c).reentering i g)) := by
  have error : s.latchError c = some (s.setCore c ((s.core c).reentering i g)) := by
    simp only [State.latchError, Core.reentering, streams, found]
  show execTileLatchError c s = _
  rw [execTileLatchError, error]

end

/-- Settles O35. -/
theorem arraySteps : Obligations.ArraySteps := by
  intro s c i g x only
  refine ⟨fun found waiting due => ?_, fun found ready young due => ?_, fun next active shadow => ?_,
    fun next free latched => ?_, fun l r rest streams active found rows due new => ?_, fun streams found => ?_⟩
  · obtain ⟨t, done, alone, core⟩ := event_setCore s c _ (exec_leash found waiting due)
    exact ⟨t, done, alone, by rw [core, Core.group_setGroup]; rfl⟩
  · obtain ⟨t, done, alone, core⟩ := event_setCore s c _ (exec_groupAge found ready young due)
    exact ⟨t, done, alone, by rw [core, Core.group_setGroup]⟩
  · obtain ⟨t, done, alone, core⟩ := event_setCore s c _ (exec_tileLoad next active shadow)
    exact ⟨t, x.readTile g, done, alone, by rw [core]; rfl, rfl, rfl, rfl, by rw [core]; rfl⟩
  · obtain ⟨a, step⟩ := exec_arrayTakeUp next free latched
    obtain ⟨t, done, alone, core⟩ := event_setCore s c _ step
    exact ⟨t, done, alone, by rw [core]; rfl, by rw [core]; exact Core.group_setGroup _ _ _⟩
  · obtain ⟨t, done, alone, core⟩ := event_setCore s c _ (exec_rowEnter streams active found rows due)
    have group : (t.core c).group i = if rest.isEmpty then none else some { g with rows := rest, entered := g.entered ++ [r] } := by
      rw [core]
      exact Core.group_setGroup _ _ _
    refine ⟨t, done, alone, ?_, fun last => ?_, fun more => ?_⟩
    · rw [core]
      exact Core.enterRow_new l new
    · rw [group, last, core, last]
      exact ⟨rfl, rfl⟩
    · rw [group]
      exact if_neg (mt List.isEmpty_iff.mp more)
  · obtain ⟨t, done, alone, core⟩ := event_setCore s c _ (exec_tileLatchError streams found)
    exact ⟨t, done, alone, by rw [core]; exact Core.group_setGroup _ _ _, by rw [core]; rfl⟩

end Sys2Proof.Machine

/-! PROOF of CopyCommands: the checks of a copy and the command that it queues, a transfer of one row within A-space, and the end of
a command without a flag. -/

namespace Sys2Proof.Machine

/-! ## The checks at issue (R143, R384) -/

/-- A copy that is illegal whatever its addresses. -/
def State.badCopy (s : State) (src dst : Nat) (c : Reg) (z : CopyShape) : Prop :=
  s.me.inRegion = true ∨ copyCodesOk src dst = false ∨ c = 63 ∨ 2 ^ 40 < z.rowBytes * z.rows

theorem State.badCopy_iff {s : State} {src dst : Nat} {c : Reg} {z : CopyShape} : s.badCopy src dst c z ↔
    (s.me.inRegion || !copyCodesOk src dst || c = 63 || decide (2 ^ 40 < z.rowBytes * z.rows)) = true := by
  simp only [State.badCopy, Bool.or_eq_true, Bool.not_eq_true', decide_eq_true_eq, or_assoc]

section
variable {s : State} {src dst ch : Nat} {d a c : Reg} {z : CopyShape}

theorem effCopy_bad (bad : s.badCopy src dst c z) : effCopy src dst ch d a c z s = s.illegal :=
  if_pos (State.badCopy_iff.mp bad)

theorem effCopy_misaligned (good : ¬ s.badCopy src dst c z) {v : Word}
    (odd : misalignedCopy dst (s.me.rd d) z (s.me.rd c) = some v) : effCopy src dst ch d a c z s = .trap s 3 v := by
  refine (if_neg (mt State.badCopy_iff.mpr good)).trans ?_
  rw [odd]

theorem effCopy_good {u : State} (good : ¬ s.badCopy src dst c z)
    (aligned : misalignedCopy dst (s.me.rd d) z (s.me.rd c) = none)
    (into : s.badRow s.cur dst (s.me.rd d) z.dpitch z.rowBytes 0 z.rows = none)
    (out : s.badRow s.cur src (s.me.rd a) z.spitch z.rowBytes 0 z.rows = none)
    (flag : s.flagOk s.cur (s.me.rd c) = (u, none)) :
    effCopy src dst ch d a c z s = u.enqueueCopy src dst ch (s.me.rd d) (s.me.rd a) z (s.me.rd c)
      (if s.me.rd c = 0 then 0 else s.me.rdNext c) := by
  refine (if_neg (mt State.badCopy_iff.mpr good)).trans ?_
  simp only [aligned, into, out, flag]

end

/-! ## The first operand that is not aligned (R384) -/

section
variable {dst : Nat} {daddr flag : Word} {z : CopyShape}

theorem misalignedCopy_address (tile : dst = 4) (odd : daddr.toNat % 64 ≠ 0) : misalignedCopy dst daddr z flag = some daddr := by
  simp [misalignedCopy, tile, odd]

theorem misalignedCopy_length (tile : dst = 4) (even : daddr.toNat % 64 = 0) (odd : z.rowBytes % 64 ≠ 0) :
    misalignedCopy dst daddr z flag = some (BitVec.ofNat 64 z.rowBytes) := by
  simp [misalignedCopy, tile, even, odd]

theorem misalignedCopy_pitch (tile : dst = 4) (even : daddr.toNat % 64 = 0) (rows : z.rowBytes % 64 = 0)
    (word : flag.toNat % 8 = 0) (odd : z.dpitch.toNat % 64 ≠ 0) : misalignedCopy dst daddr z flag = some z.dpitch := by
  simp [misalignedCopy, tile, even, rows, word, odd]

theorem misalignedCopy_flag (rows : dst = 4 → daddr.toNat % 64 = 0 ∧ z.rowBytes % 64 = 0) (odd : flag.toNat % 8 ≠ 0) :
    misalignedCopy dst daddr z flag = some flag := by
  by_cases tile : dst = 4
  · obtain ⟨even, whole⟩ := rows tile
    simp [misalignedCopy, tile, even, whole, odd]
  · simp [misalignedCopy, tile, odd]

end

/-! ## The command (R143, R145) -/

theorem State.flagOk_frame (s : State) (h : Nat) (flag : Word) : TrFrame s (s.flagOk h flag).1 := by
  unfold State.flagOk
  split
  · exact .refl s
  · have translated := s.translate_frame (s.ctx h) .store flag
    split <;> rename_i e <;> rw [e] at translated <;> exact translated

/-- The command that an issued copy queues. -/
def State.copyCmd (u : State) (src dst : Nat) (daddr saddr : Word) (z : CopyShape) (flag val : Word) : CopyCmd :=
  { hart := u.cur, num := (u.me.takeNum 0).1, src := src, dst := dst, daddr := daddr, saddr := saddr, rowBytes := z.rowBytes
    rows := z.rows, spitch := z.spitch, dpitch := z.dpitch, flag := flag, flagVal := val, satp := u.me.satp, priv := u.me.priv
    task := u.me.task, part := u.partOf u.cur, moved := false, faulted := none, retry := 0 }

/-- The state in which it stands in its channel. -/
def State.withCopy (u : State) (ch : Nat) (k : CopyCmd) : State :=
  (u.setHart u.cur (u.me.takeNum 0).2).modCore (coreOf u.cur) fun c =>
    { c with chans := putAt [] c.chans ch (getAt [] (u.core (coreOf u.cur)).chans ch ++ [k]) }

theorem State.enqueueCopy_free {u : State} {src dst ch : Nat} {daddr saddr flag val : Word} {z : CopyShape}
    (stores : u.storesDone u.cur = true) (released : u.released u.cur .pkg = true) (messages : ∀ m ∈ u.ras, m.hart ≠ u.cur)
    (room : ((u.core (coreOf u.cur)).chan ch).length < 16) : u.enqueueCopy src dst ch daddr saddr z flag val =
      .ok (u.withCopy ch (u.copyCmd src dst daddr saddr z flag val)) := by
  have arrived : (u.ras.any fun m => m.hart == u.cur) = false := by
    rw [List.any_eq_false]
    exact fun m sent => by simpa using messages m sent
  have short : decide (16 ≤ (getAt [] (u.core (coreOf u.cur)).chans ch).length) = false := decide_eq_false (Nat.not_le.mpr room)
  refine if_neg ?_
  rw [stores, released, arrived, short]
  decide

theorem finish_withCopy {s u : State} (cur : u.cur = s.cur) (ch : Nat) (k : CopyCmd) :
    ∃ t, finish s (.ok (u.withCopy ch k)) = .next t ∧ t.mem = u.mem ∧ (t.hart s.cur).tline 0 = (u.me.tline 0).take ∧
      (t.hart s.cur).s = u.me.s ∧ (t.hart s.cur).pc = u.me.pc + 8 ∧
      (t.core (coreOf s.cur)).chan ch = (u.core (coreOf s.cur)).chan ch ++ [k] := by
  have hart : (u.withCopy ch k).hart s.cur = (u.me.takeNum 0).2 := cur ▸ State.hart_setHart u u.cur (u.me.takeNum 0).2
  have core : ((u.withCopy ch k).core (coreOf s.cur)).chan ch = (u.core (coreOf s.cur)).chan ch ++ [k] := by
    rw [← cur]
    have put := (u.setHart u.cur (u.me.takeNum 0).2).core_modCore (coreOf u.cur) fun c =>
      { c with chans := putAt [] c.chans ch (getAt [] (u.core (coreOf u.cur)).chans ch ++ [k]) }
    exact (congrArg (fun x => x.chan ch) put).trans (getAt_putAt_self _ _ _ _)
  have mem : (u.withCopy ch k).mem = u.mem := rfl
  generalize u.withCopy ch k = t at hart core mem
  have after : ((t.retire s.cur ((t.hart s.cur).pc + 8)).hart s.cur) =
      { t.hart s.cur with pc := (t.hart s.cur).pc + 8, wait := none } := State.hart_setHart _ _ _
  refine ⟨_, finish_ok s t, mem, ?_, ?_, ?_, core⟩ <;> rw [after, hart]
  · exact getAt_putAt_self _ _ _ _
  · rfl
  · rfl

/-! ## Both instructions (R143, R311) -/

/-- A claim about CPY and CPY2D is one about their common body. -/
theorem both_copies {src dst : BitVec 3} {ch : BitVec 2} {d a b c : Reg} {s : State} {P : Instr → CopyShape → Prop}
    (body : ∀ i z, exec i s = finish s (effCopy src.toNat dst.toNat ch.toNat d a c z s) → P i z) :
    P (.cpy src dst ch d a b c) (shape1 (s.me.rd b)) ∧
      (b ≠ 63 → P (.cpy2d src dst ch d a b c) (shape2 (s.me.rd b) (s.me.rdNext b))) :=
  ⟨body _ _ rfl, fun paired => body _ _ (congrArg (finish s) (if_neg paired))⟩

theorem exec_cpy2d_last {s : State} {src dst : BitVec 3} {ch : BitVec 2} {d a c : Reg} (idle : s.me.queueIdle = true) :
    exec (.cpy2d src dst ch d a 63 c) s = .next (s.trapped 1 s.me.iword) :=
  finish_traps idle (r := effCpy2d src dst ch d a 63 c s) (if_pos rfl)

theorem copyIssue : Claims.CopyIssue := by
  intro s u src dst ch d a b c x both flag bad
  have tile : dst = 4 ↔ dst.toNat = 4 := ⟨fun e => by rw [e]; rfl, fun e => BitVec.eq_of_toNat_eq e⟩
  have copies (P : Instr → CopyShape → Prop) (body : ∀ i z,
      exec i s = finish s (effCopy src.toNat dst.toNat ch.toNat d a c z s) → P i z) : both P := both_copies body
  clear_value both
  refine ⟨exec_cpy2d_last, copies _ ?_, copies _ ?_, copies _ ?_, copies _ ?_⟩
  · intro i z step idle illegal
    exact step.trans (finish_traps idle (effCopy_bad illegal))
  · intro i z step idle good w
    refine ⟨fun odd => ?_, fun even odd => ?_, fun even rows word odd => ?_⟩
    · exact step.trans (finish_traps idle (effCopy_misaligned good (misalignedCopy_address (tile.mp w) odd)))
    · exact step.trans (finish_traps idle (effCopy_misaligned good (misalignedCopy_length (tile.mp w) even odd)))
    · exact step.trans (finish_traps idle (effCopy_misaligned good (misalignedCopy_pitch (tile.mp w) even rows word odd)))
  · intro i z step idle good rows odd
    exact step.trans (finish_traps idle
      (effCopy_misaligned good (misalignedCopy_flag (fun w => rows (tile.mpr w)) odd)))
  · intro i z step good aligned into out translated stores released messages room
    have cur : u.cur = s.cur := by
      have frame := s.flagOk_frame s.cur flag
      rw [translated] at frame
      exact frame.cur
    have free := State.enqueueCopy_free (u := u) (src := src.toNat) (dst := dst.toNat) (ch := ch.toNat) (daddr := x.rd d)
      (saddr := x.rd a) (flag := flag) (val := if flag = 0 then 0 else x.rdNext c) (z := z) (by rw [cur]; exact stores)
      (by rw [cur]; exact released) (by rw [cur]; exact messages) (by rw [cur]; exact room)
    obtain ⟨t, next, mem, line, regs, pc, chan⟩ := finish_withCopy (s := s) cur ch.toNat
      (u.copyCmd src.toNat dst.toNat (x.rd d) (x.rd a) z flag (if flag = 0 then 0 else x.rdNext c))
    exact ⟨t, _, step.trans ((congrArg (finish s) ((effCopy_good good aligned into out translated).trans free)).trans next), mem,
      line, regs, pc, chan, rfl, rfl, rfl, rfl, rfl, rfl, rfl, rfl, rfl, rfl, rfl, rfl⟩

/-! ## One row within A-space (R144, R147) -/

/-- `t` is `s` with bytes written in the A-space of core c, as far as its memory and channels go. -/
structure IntoA (s t : State) (c off : Nat) (bs : List Byte) : Prop where
  mem : t.mem = s.mem
  chans : (t.core c).chans = (s.core c).chans
  a : (t.core c).a = (s.core c).a.writeN off bs

theorem IntoA.append {s t u : State} {c off : Nat} {xs ys : List Byte} (first : IntoA s t c off xs)
    (second : IntoA t u c (off + xs.length) ys) : IntoA s u c off (xs ++ ys) :=
  ⟨second.mem.trans first.mem, second.chans.trans first.chans, by rw [second.a, first.a, Memory.writeN_append]⟩

theorem State.copyPut_into (s : State) (core c off : Nat) (bs : List Byte) :
    IntoA s (s.copyPut core (.a c off) bs) c off bs := by
  have banks := s.core_modCore c fun x => { x with
    bankUse := (List.range ((off + bs.length - 1) / 8 - off / 8 + 1)).map (fun k => .a c (8 * (off / 8 + k))) ++ x.bankUse }
  have put := (s.copyBanks core (.a c off) bs.length).core_modCore c fun x => { x with a := x.a.writeN off bs }
  have written : (s.copyPut core (.a c off) bs).core c =
      { (s.copyBanks core (.a c off) bs.length).core c with a := ((s.copyBanks core (.a c off) bs.length).core c).a.writeN off bs } :=
    put
  have used : (s.copyBanks core (.a c off) bs.length).core c = _ := banks
  refine ⟨rfl, ?_, ?_⟩ <;> rw [written, used]

/-- Bytes at consecutive places of an A-space bank. -/
def movedRow (c off : Nat) : List Byte → List Moved
  | [] => []
  | b :: bs => { place := .a c off, byte := b } :: movedRow c (off + 1) bs

theorem movedRow_map (c off n : Nat) (f : Nat → Byte) :
    ((List.range n).map fun j => ({ place := .a c (off + j), byte := f j } : Moved)) = movedRow c off ((List.range n).map f) := by
  induction n generalizing off f with
  | zero => rfl
  | succ n ih =>
    have rest := ih (off + 1) fun j => f (j + 1)
    simp only [List.range_succ_eq_map, List.map_cons, List.map_map, movedRow, Nat.add_zero] at rest ⊢
    refine congrArg _ (Eq.trans (List.map_congr_left fun j _ => ?_) rest)
    show ({ place := .a c (off + (j + 1)), byte := f (j + 1) } : Moved) = _
    rw [show off + (j + 1) = off + 1 + j by omega]

/-- Consecutive bytes end up where they belong, whatever the lines they are written by. -/
theorem State.scatter_run (core c : Nat) (more : List Byte) (s : State) (off : Nat) (bs : List Byte) :
    IntoA s (s.scatter core (some { start := .a c off, next := .a c (off + bs.length), bytes := bs })
      (movedRow c (off + bs.length) more)) c off (bs ++ more) := by
  induction more generalizing s off bs with
  | nil =>
    rw [List.append_nil]
    exact s.copyPut_into core c off bs
  | cons b more ih =>
    rw [movedRow, State.scatter]
    split
    · have joined := ih s off (bs ++ [b])
      rw [List.length_append, List.append_assoc] at joined
      exact joined
    · exact (s.copyPut_into core c off bs).append (ih _ (off + bs.length) [b])

theorem State.scatter_row (s : State) (core c off : Nat) (bs : List Byte) :
    IntoA s (s.scatter core none (movedRow c off bs)) c off bs := by
  cases bs with
  | nil => exact ⟨rfl, rfl, rfl⟩
  | cons b bs => exact s.scatter_run core c bs off [b]

/-- A copy within A-space moves the bytes as they are. -/
theorem State.gather_local (s : State) {k : CopyCmd} (src : k.src = 2) (dst : k.dst = 2) (l : List (Word × Word)) :
    s.gather k l = (s, { moved := l.map fun p => { place := .a (coreOf k.hart) p.2.toNat
                                                   byte := (s.core (coreOf k.hart)).a.read p.1.toNat }
                         fault := none, blocked := false }) := by
  induction l with
  | nil => rfl
  | cons p ps ih =>
    have one : s.gatherByte k p = (s, .ok { place := .a (coreOf k.hart) p.2.toNat
                                            byte := (s.core (coreOf k.hart)).a.read p.1.toNat }, false) := by
      rw [State.gatherByte, src, dst]
      rfl
    rw [State.gather, one]
    dsimp only
    rw [ih]
    rfl

/-- The addresses of a copy of one row. -/
theorem CopyCmd.addrs_row {k : CopyCmd} (one : k.rows = 1) :
    k.addrs = (List.range k.rowBytes).map fun j => (k.saddr + BitVec.ofNat 64 j, k.daddr + BitVec.ofNat 64 j) := by
  simp [CopyCmd.addrs, one]

theorem toNat_add_ofNat {w : Word} {n j : Nat} (fits : w.toNat + n ≤ 4 * 2 ^ 20) (inside : j < n) :
    (w + BitVec.ofNat 64 j).toNat = w.toNat + j := by
  rw [BitVec.toNat_add, BitVec.toNat_ofNat]
  omega

/-- The bytes of a row of A-space that a copy of one row moves. -/
def Core.rowBytes (x : Core) (k : CopyCmd) : List Byte := (List.range k.rowBytes).map fun j => x.a.read (k.saddr.toNat + j)

theorem State.gather_row {s : State} {k : CopyCmd} (src : k.src = 2) (dst : k.dst = 2) (one : k.rows = 1)
    (out : k.saddr.toNat + k.rowBytes ≤ 4 * 2 ^ 20) (into : k.daddr.toNat + k.rowBytes ≤ 4 * 2 ^ 20) :
    s.gather k k.addrs = (s, { moved := movedRow (coreOf k.hart) k.daddr.toNat ((s.core (coreOf k.hart)).rowBytes k)
                               fault := none, blocked := false }) := by
  rw [s.gather_local src dst, CopyCmd.addrs_row one, List.map_map, Core.rowBytes, ← movedRow_map]
  refine congrArg (fun m => (s, ({ moved := m, fault := none, blocked := false } : Gather))) (List.map_congr_left fun j inside => ?_)
  have small := List.mem_range.mp inside
  simp only [Function.comp_apply, toNat_add_ofNat out small, toNat_add_ofNat into small]

/-- The source banks of a copy are noted, and nothing else of its core changes. -/
theorem State.sourceBanks_into (s : State) {k : CopyCmd} (src : k.src = 2) (one : k.rows = 1) (c : Nat) :
    IntoA s (s.sourceBanks c k) c 0 [] := by
  have banks (va n : Nat) := s.core_modCore c fun x => { x with
    bankUse := (List.range ((va + n - 1) / 8 - va / 8 + 1)).map (fun k => .a c (8 * (va / 8 + k))) ++ x.bankUse }
  have row : s.sourceBanks c k = if k.rowBytes = 0 then s else
      s.copyBanks c (.a c (k.saddr + BitVec.ofNat 64 0 * k.spitch).toNat) k.rowBytes := by
    rw [State.sourceBanks, one, src]
    rfl
  rw [row]
  split
  · exact ⟨rfl, rfl, rfl⟩
  · have core : (s.copyBanks c (.a c (k.saddr + BitVec.ofNat 64 0 * k.spitch).toNat) k.rowBytes).core c = _ := banks _ _
    exact ⟨rfl, by rw [core], by rw [core]; rfl⟩

/-- The first command of channel ch of core c has moved its bytes. -/
def State.movedFirst (t : State) (c ch : Nat) (k : CopyCmd) : State :=
  t.modCore c fun x => x.setChan ch ((x.chan ch).set 0 { k with moved := true })

theorem copyTransfer_row {s : State} {c ch : Nat} {k : CopyCmd} {rest : List CopyCmd} (queue : (s.core c).chan ch = k :: rest)
    (core : coreOf k.hart = c) (due : k.retry ≤ s.gtime) (waits : k.moved = false) (src : k.src = 2) (dst : k.dst = 2)
    (one : k.rows = 1) (out : k.saddr.toNat + k.rowBytes ≤ 4 * 2 ^ 20) (into : k.daddr.toNat + k.rowBytes ≤ 4 * 2 ^ 20) :
    ∃ u, IntoA s u c k.daddr.toNat ((s.core c).rowBytes k) ∧ exec (.copyTransfer c ch) s = event (u.movedFirst c ch k) := by
  have gathered := State.gather_row (s := s) src dst one out into
  rw [core] at gathered
  have moves := (s.scatter_row c c k.daddr.toNat ((s.core c).rowBytes k))
  have banks := State.sourceBanks_into (s.scatter c none (movedRow c k.daddr.toNat ((s.core c).rowBytes k))) src one c
  refine ⟨_, ⟨banks.mem.trans moves.mem, banks.chans.trans moves.chans, banks.a.trans moves.a⟩, ?_⟩
  have step : s.copyTransfer c ch = some (((s.scatter c none (movedRow c k.daddr.toNat ((s.core c).rowBytes k))).sourceBanks c
      k).movedFirst c ch k) := by
    unfold State.copyTransfer
    rw [queue]
    simp only [List.findIdx?_cons, waits, Bool.not_false, if_true, List.getElem?_cons_zero, if_neg (Nat.not_lt.mpr due), gathered,
      Bool.false_eq_true, if_false]
    rfl
  show execCopyTransfer c ch s = _
  rw [execCopyTransfer, step]

/-! ## The end of a command (R144, R145) -/

theorem copyFlag_none {s : State} {c ch : Nat} {k : CopyCmd} {rest : List CopyCmd} (queue : (s.core c).chan ch = k :: rest)
    (due : k.retry ≤ s.gtime) (moved : k.moved = true) (flag : k.flag = 0) (good : k.faulted = none) :
    exec (.copyFlagWrite c ch) s = event ((s.modCore c fun x => x.setChan ch rest).complete k.hart 0 k.num) := by
  have step : s.copyFlag c ch = some ((s.modCore c fun x => x.setChan ch rest).complete k.hart 0 k.num) := by
    have written (wait : State → State) : s.writeFlag c k wait = some (s, true) := if_pos flag
    simp only [State.copyFlag, queue, moved, decide_eq_false (Nat.not_lt.mpr due), written, good, Bool.not_true, Bool.or_self,
      Bool.false_eq_true, if_false]
  show execCopyFlagWrite c ch s = _
  rw [execCopyFlagWrite, step]

theorem State.complete_tline (s : State) (h k n : Nat) : ((s.complete h k n).hart h).tline k = ((s.hart h).tline k).complete n := by
  have hart : (s.complete h k n).hart h = (s.hart h).setTline k (((s.hart h).tline k).complete n) := State.hart_setHart _ _ _
  rw [hart]
  exact getAt_putAt_self _ _ _ _

theorem copySteps : Claims.CopySteps := by
  intro s c ch k rest queue core due
  refine ⟨fun waits src dst one out into wf => ?_, fun moved flag good => ?_⟩
  · obtain ⟨u, moves, step⟩ := copyTransfer_row queue core due waits src dst one out into
    have put : (u.movedFirst c ch k).core c = (u.core c).setChan ch (((u.core c).chan ch).set 0 { k with moved := true }) :=
      u.core_modCore c _
    have chan : (u.core c).chan ch = k :: rest := by rw [Core.chan, moves.chans]; exact queue
    have length : ((s.core c).rowBytes k).length = k.rowBytes := by simp [Core.rowBytes]
    have bank : ((u.movedFirst c ch k).core c).a = (u.core c).a := by rw [put]; rfl
    refine ⟨_, step, ?_, moves.mem, fun j inside => ?_, fun p outside => ?_⟩
    · show ((u.movedFirst c ch k).core c).chan ch = _
      rw [put, chan]
      exact getAt_putAt_self _ _ _ _
    · show ((u.movedFirst c ch k).core c).a.read _ = _
      rw [bank, moves.a, Memory.read_writeN wf, if_pos (by omega)]
      simp [Core.rowBytes, inside]
    · show ((u.movedFirst c ch k).core c).a.read p = _
      rw [bank, moves.a, Memory.read_writeN wf, if_neg (by omega)]
  · refine ⟨_, copyFlag_none queue due moved flag good, ?_, rfl, State.complete_tline _ _ _ _⟩
    show ((s.modCore c fun x => x.setChan ch rest).core c).chan ch = rest
    rw [State.core_modCore]
    exact getAt_putAt_self _ _ _ _

/-- Settles O36. -/
theorem copyCommands : Obligations.CopyCommands := ⟨copyIssue, copySteps⟩

end Sys2Proof.Machine

/-! PROOF of Collectives: XRED at issue, and the ends of a collective. -/

namespace Sys2Proof.Machine

/-! ## XRED (R376, R377, R378) -/

/-- The die of hart h has a collective group of the hart's partition (R376). -/
def State.grouped (s : State) (h : Nat) : Prop :=
  wbit (s.die (dieOf h)).xgctl 0 = true ∧ field (s.die (dieOf h)).xgctl 8 4 = s.partOf h

/-- The hart behind an XRED. -/
def Hart.xredQueued (x : Hart) (sent : Nat) (i : Instr) (d : Reg) (tag : BitVec 4) (bytes : Nat) : Hart :=
  { (x.takeNum 3).2.reserve tag.toNat ((x.tline 3).issued + 1) d x.vl bytes false with
    vq := x.vq ++ [{ x.entry sent i with num := (x.tline 3).issued + 1 }] }

section
variable {s : State} {op : XOp} {t : XTy} {d : Reg} {tag : BitVec 4}

theorem grouped_test : (!wbit (s.die (dieOf s.cur)).xgctl 0 || field (s.die (dieOf s.cur)).xgctl 8 4 ≠ s.partOf s.cur) = true ↔
    ¬ s.grouped s.cur := by
  simp [State.grouped, imp_iff_not_or]

theorem effXred_stranger (other : ¬ s.grouped s.cur) : effXred op t d tag s = .trap s 5 0 := if_pos (grouped_test.mpr other)

theorem effXred_region (mine : s.grouped s.cur) (inside : s.me.inRegion = true) : effXred op t d tag s = s.illegal :=
  (if_neg (mt grouped_test.mp (not_not.mpr mine))).trans (if_pos inside)

theorem effXred_good (mine : s.grouped s.cur) (outside : s.me.inRegion = false) (room : s.me.vq.length < 8)
    (register : d.toNat < s.me.nvreg) (unbound : s.me.stream d = none) (fits : s.me.vl * (xTy t).bytes ≤ s.me.vbytes)
    (free : getAt none s.me.landing tag.toNat = none) (space : s.me.landingUse + s.me.vl * (xTy t).bytes ≤ 262144) :
    effXred op t d tag s = .ok (s.setHart s.cur
      (s.me.xredQueued s.sends (.xred op t d tag) d tag (s.me.vl * (xTy t).bytes))) := by
  have lands : s.me.canLand tag.toNat (s.me.vl * (xTy t).bytes) = true := by
    rw [Hart.canLand, free, Bool.and_eq_true]
    exact ⟨rfl, decide_eq_true space⟩
  refine (if_neg (mt grouped_test.mp (not_not.mpr mine))).trans ((if_neg (ne_true_of_eq_false outside)).trans
    ((if_neg ?_).trans (if_neg ?_)))
  · exact ne_true_of_eq_false (decide_eq_false (Nat.not_le.mpr room))
  · rw [lands, unbound, decide_eq_false (Nat.not_le.mpr register), Hart.fits, decide_eq_true fits]
    decide

end

/-! ## The end of a collective (R378) -/

/-- A landing tag whose transfer has come. -/
def LandTag.arrive (l : LandTag) (data : List Byte) (err : Bool) : LandTag := { l with data := data, came := true, err := err }

/-- The hart whose collective has ended. -/
def Hart.collected (x : Hart) (c : Collective) (m : LandTag) : Hart :=
  ({ x with landing := putAt none x.landing c.tag (some m) } : Hart).setTline 3 ((x.tline 3).complete c.num)

theorem State.landed_eq {s : State} {h tag num : Nat} {l : LandTag} (found : getAt none (s.hart h).landing tag = some l)
    (same : l.num = num) (data : List Byte) (err : Bool) : s.landed h tag num data err =
      s.setHart h { s.hart h with landing := putAt none (s.hart h).landing tag (some (l.arrive data err)) } := by
  unfold State.landed
  dsimp only
  rw [found]
  exact if_neg (not_not.mpr same)

theorem State.endCollective_hart {s : State} {c : Collective} {l : LandTag}
    (tag : getAt none (s.hart c.hart).landing c.tag = some l) (num : l.num = c.num) (d : Nat) (data : List Byte) (err : Bool) :
    (s.endCollective d c data err).hart c.hart = (s.hart c.hart).collected c (l.arrive data err) := by
  let t := s.modDie d fun x => { x with colls := x.colls.filter fun y => !(y.hart == c.hart && y.num == c.num) }
  have landed := State.landed_eq (s := t) tag num data err
  show ((t.landed c.hart c.tag c.num data err).complete c.hart 3 c.num).hart c.hart = _
  rw [landed]
  refine (State.hart_setHart _ _ _).trans ?_
  rw [State.hart_setHart]
  rfl

theorem State.landed_hart_ne (s : State) {h k : Nat} (other : k ≠ h) (tag num : Nat) (data : List Byte) (err : Bool) :
    (s.landed h tag num data err).hart k = s.hart k := by
  unfold State.landed
  dsimp only
  split
  · rfl
  · split
    · rfl
    · exact State.hart_setHart_ne _ _ _ _ other.symm

theorem State.endCollective_hart_ne (s : State) {c : Collective} {h : Nat} (other : h ≠ c.hart) (d : Nat) (data : List Byte)
    (err : Bool) : (s.endCollective d c data err).hart h = s.hart h :=
  (State.hart_setHart_ne _ _ _ _ other.symm).trans (State.landed_hart_ne _ other _ _ _ _)

theorem State.landed_dies (s : State) (h tag num : Nat) (data : List Byte) (err : Bool) :
    (s.landed h tag num data err).dies = s.dies := by
  unfold State.landed
  dsimp only
  split
  · rfl
  · split <;> rfl

theorem State.endCollective_die_ne (s : State) {d e : Nat} (other : e ≠ d) (c : Collective) (data : List Byte) (err : Bool) :
    (s.endCollective d c data err).die e = s.die e := by
  have dies := State.landed_dies (s.modDie d fun x => { x with colls := x.colls.filter fun y => !(y.hart == c.hart && y.num == c.num) })
    c.hart c.tag c.num data err
  refine (congrArg (fun l => getAt Die.reset l e) dies).trans ?_
  exact State.die_setDie_ne s d e _ other.symm

theorem State.endOne_eq {s : State} {d k : Nat} {c : Collective} (found : (s.die d).coll k = some c) (ok : Bool)
    (parts : List (List Byte)) : s.endOne d k ok parts = s.endCollective d c (if ok then collectiveResult c parts else []) !ok := by
  rw [State.endOne, found]
  cases ok <;> rfl

/-- The end of collective k of one die concerns that die and the collective's hart alone. -/
theorem State.endOne_keeps (s : State) {e : Nat} (k : Nat) (ok : Bool) (parts : List (List Byte)) {h : Nat}
    (theirs : ∀ b, (s.die e).coll k = some b → b.hart ≠ h) :
    (s.endOne e k ok parts).hart h = s.hart h ∧ ∀ d, d ≠ e → (s.endOne e k ok parts).die d = s.die d := by
  cases found : (s.die e).coll k with
  | none =>
    rw [State.endOne, found]
    exact ⟨rfl, fun _ _ => rfl⟩
  | some b =>
    rw [State.endOne_eq found]
    exact ⟨s.endCollective_hart_ne (theirs b found).symm _ _ _, fun d other => s.endCollective_die_ne other _ _ _⟩

/-- So do the ends of several dies' collectives. -/
theorem State.endAll_keeps (k : Nat) (ok : Bool) (parts : List (List Byte)) {h : Nat} (l : List Nat) (distinct : l.Nodup)
    (s : State) (theirs : ∀ e ∈ l, ∀ b, (s.die e).coll k = some b → b.hart ≠ h) :
    (l.foldl (fun (t : State) e => t.endOne e k ok parts) s).hart h = s.hart h ∧
      ∀ d, d ∉ l → (l.foldl (fun (t : State) e => t.endOne e k ok parts) s).die d = s.die d := by
  induction l generalizing s with
  | nil => exact ⟨rfl, fun _ _ => rfl⟩
  | cons e l ih =>
    obtain ⟨absent, rest⟩ := List.nodup_cons.mp distinct
    obtain ⟨hart, dies⟩ := s.endOne_keeps k ok parts (theirs e List.mem_cons_self)
    have later := ih rest (s.endOne e k ok parts) fun d mem b found => theirs d (List.mem_cons_of_mem _ mem) b
      (by rw [← dies d fun same => absent (same ▸ mem)]; exact found)
    refine ⟨later.1.trans hart, fun d outside => ?_⟩
    rw [List.mem_cons, not_or] at outside
    obtain ⟨other, outside⟩ := outside
    exact (later.2 d outside).trans (dies d other)

/-- Among the ends of a group's collectives the one of die d is that of its hart. -/
theorem State.endAll_hart {s : State} {d k : Nat} {c : Collective} {l : LandTag} (found : (s.die d).coll k = some c)
    (tag : getAt none (s.hart c.hart).landing c.tag = some l) (num : l.num = c.num) (ok : Bool) (parts : List (List Byte))
    {group : List Nat} (distinct : group.Nodup) (member : d ∈ group)
    (theirs : ∀ e ∈ group, e ≠ d → ∀ b, (s.die e).coll k = some b → b.hart ≠ c.hart) :
    (group.foldl (fun (t : State) e => t.endOne e k ok parts) s).hart c.hart =
      (s.hart c.hart).collected c (l.arrive (if ok then collectiveResult c parts else []) !ok) := by
  obtain ⟨before, after, rfl⟩ := List.append_of_mem member
  obtain ⟨first, second, apart⟩ := List.nodup_append.mp distinct
  obtain ⟨absent, rest⟩ := List.nodup_cons.mp second
  have away (e : Nat) (mem : e ∈ before) : e ≠ d := apart e mem d List.mem_cons_self
  rw [List.foldl_append, List.foldl_cons]
  obtain ⟨hart, dies⟩ := State.endAll_keeps k ok parts before first s fun e mem =>
    theirs e (List.mem_append_left _ mem) (away e mem)
  generalize before.foldl (fun (t : State) e => t.endOne e k ok parts) s = t at hart dies
  have here : (t.die d).coll k = some c := by rw [dies d fun mem => away d mem rfl, found]
  have mine := t.endOne_eq here ok parts
  have after_ (e : Nat) (mem : e ∈ after) (b : Collective) (at_ : ((t.endOne d k ok parts).die e).coll k = some b) : b.hart ≠ c.hart := by
    have other : e ≠ d := fun same => absent (same ▸ mem)
    rw [mine, State.endCollective_die_ne t other, dies e fun early => apart e early e (List.mem_cons_of_mem _ mem) rfl] at at_
    exact theirs e (List.mem_append_right _ (List.mem_cons_of_mem _ mem)) other b at_
  refine (State.endAll_keeps k ok parts after rest _ after_).1.trans ?_
  rw [mine, State.endCollective_hart (by rw [hart]; exact tag) num, hart]

/-! ## COLLECTIVE_COMPLETE and XRED_TIMEOUT -/

/-- Every contribution has the length of the die's own, and the members of the group agree (R378). -/
def State.groupAgrees (s : State) (d k : Nat) (c : Collective) (parts : List (List Byte)) : Bool :=
  parts.all (fun p => p.length == c.data.length) && (s.inGroup d).all fun e => match (s.die e).coll k with
    | some b => c.agrees b
    | none => true

theorem State.groupAgrees_iff {s : State} {d k : Nat} {c : Collective} {parts : List (List Byte)} :
    s.groupAgrees d k c parts = true ↔ (∀ p ∈ parts, p.length = c.data.length) ∧
      ∀ e ∈ s.inGroup d, ∀ b, (s.die e).coll k = some b → b.op = c.op ∧ b.ty = c.ty ∧ b.vl = c.vl := by
  simp only [State.groupAgrees, Bool.and_eq_true, List.all_eq_true, beq_iff_eq]
  refine and_congr_right' (forall₂_congr fun e _ => ?_)
  cases (s.die e).coll k with
  | none => exact ⟨fun _ _ absurd_ => (nomatch absurd_), fun _ => rfl⟩
  | some b =>
    simp only [Collective.agrees, Bool.and_eq_true, beq_iff_eq, Option.some.injEq, forall_eq', and_assoc, @eq_comm _ c.op,
      @eq_comm _ c.ty, @eq_comm _ c.vl]

theorem exec_collectiveComplete {s : State} {d k : Nat} {c : Collective} {contrib : List (List Byte)}
    (found : (s.die d).coll k = some c) (ranks : contrib.length = field (s.die d).xgctl 16 10)
    (started : ∀ e ∈ s.inGroup d, k < (s.die e).xgseq) :
    exec (.collectiveComplete d k contrib) s = event ((s.inGroup d).foldl (fun (t : State) e =>
      t.endOne e k (s.groupAgrees d k c (s.contributions d k contrib)) (s.contributions d k contrib)) s) := by
  have ready : ¬ (contrib.length ≠ groupSizeOf (s.die d).xgctl || (s.inGroup d).any fun e => decide ((s.die e).xgseq ≤ k)) = true := by
    rw [Bool.or_eq_true, not_or, decide_eq_true_eq, not_not, List.any_eq_true]
    refine ⟨ranks, fun ⟨e, mem, late⟩ => ?_⟩
    exact Nat.not_lt.mpr (of_decide_eq_true late) (started e mem)
  have step : s.collective d k contrib = some ((s.inGroup d).foldl (fun (t : State) e =>
      t.endOne e k (s.groupAgrees d k c (s.contributions d k contrib)) (s.contributions d k contrib)) s) := by
    rw [State.collective, found]
    exact if_neg ready
  show execCollectiveComplete d k contrib s = _
  rw [execCollectiveComplete, step]

theorem exec_xredTimeout {s : State} {d k : Nat} {c : Collective} (found : (s.die d).coll k = some c)
    (late : c.start + xgLimit (s.die d).xgtimeout ≤ s.gtime) :
    exec (.xredTimeout d k) s = event (s.endCollective d c [] true) := by
  have step : s.collectiveTimeout d k = some (s.endCollective d c [] true) := by
    rw [Die.coll] at found
    rw [State.collectiveTimeout, found]
    exact if_pos late
  show execXredTimeout d k s = _
  rw [execXredTimeout, step]

theorem Hart.collected_tag (x : Hart) (c : Collective) (m : LandTag) : getAt none (x.collected c m).landing c.tag = some m :=
  getAt_putAt_self _ _ _ _

theorem Hart.collected_tline (x : Hart) (c : Collective) (m : LandTag) :
    (x.collected c m).tline 3 = (x.tline 3).complete c.num := getAt_putAt_self _ _ _ _

theorem State.inGroup_self (s : State) {d : Nat} (die : d < 4) : d ∈ s.inGroup d :=
  List.mem_filter.mpr ⟨List.mem_range.mpr die, beq_self_eq_true _⟩

/-- Settles O37. -/
theorem collectives : Obligations.Collectives := by
  refine ⟨fun s op t d tag => ?issue, fun s d k c l die found tag num => ⟨fun contrib ranks started apart => ?_, fun late => ?_⟩⟩
  case issue =>
    intro x g bytes mine
    refine ⟨fun idle other => finish_traps idle (effXred_stranger other),
      fun idle mine inside => finish_traps idle (effXred_region mine inside), ?_⟩
    intro mine outside room register unbound fits free space
    have width : bytes = x.vl * (xTy t).bytes := by cases t <;> rfl
    rw [width] at fits space ⊢
    refine ⟨x.xredQueued s.sends (.xred op t d tag) d tag (x.vl * (xTy t).bytes), _, _, ?_, x.takeNum_issued 3, rfl, rfl, rfl,
      getAt_putAt_self _ _ _ _, rfl, rfl, rfl, rfl⟩
    exact (congrArg (finish s) (effXred_good mine outside room register unbound fits free space)).trans (finish_setHart s _ rfl)
  · intro parts theirs
    have hart := State.endAll_hart found tag num (s.groupAgrees d k c parts) parts (group := s.inGroup d)
      (List.nodup_range.filter _) (s.inGroup_self die) apart
    refine ⟨_, l.arrive _ _, exec_collectiveComplete found ranks started, (congrArg (fun y => getAt none y.landing c.tag) hart).trans
      (Hart.collected_tag _ _ _), rfl, num, (congrArg (fun y => y.tline 3) hart).trans (Hart.collected_tline _ _ _),
      fun lengths same => ?_, fun differ => ?_⟩
    · have ok : s.groupAgrees d k c parts = true := State.groupAgrees_iff.mpr ⟨lengths, same⟩
      rw [ok]
      exact ⟨rfl, rfl⟩
    · have bad : s.groupAgrees d k c parts = false := by
        rw [Bool.eq_false_iff, ne_eq, State.groupAgrees_iff]
        rintro ⟨lengths, same⟩
        exact differ.elim (fun ⟨p, mem, other⟩ => other (lengths p mem)) (· same)
      rw [bad]
      rfl
  · have hart := State.endCollective_hart tag num d [] true
    exact ⟨_, l.arrive [] true, exec_xredTimeout found late, (congrArg (fun y => getAt none y.landing c.tag) hart).trans
      (Hart.collected_tag _ _ _), rfl, rfl, (congrArg (fun y => y.tline 3) hart).trans (Hart.collected_tline _ _ _)⟩

end Sys2Proof.Machine

/-! PROOF of PackCalls: the calls that the home of a pack answers, the packs that they change, and the ends of each call. -/

namespace Sys2Proof.Machine

/-! ## Calls that a home answers (R336) -/

/-- A call whose answer has not come leaves its hart switched out. -/
theorem askHome_asks {s u : State} (frame : TrFrame s u) (late : s.me.arrived = false) (free : u.requestFree s.cur = true)
    (go : State → Res) : ∃ t w, finish s (u.askHome go) = .next t ∧ (t.hart s.cur).pc = s.me.pc ∧ (t.hart s.cur).wait = some w ∧
      w.kind = .load ∧ w.expired = false := by
  obtain ⟨w, kind, expired, hart⟩ := u.switchOut_markWait s.cur
  have away : u.me.arrived = false := by rw [frame.me]; exact late
  have asks : u.askHome go = .stall (u.switchOut s.cur) := by
    rw [State.askHome, away, frame.cur, free]
    rfl
  refine ⟨_, w, congrArg (finish s) asks, ?_, ?_, kind, expired⟩
  · rw [hart, frame.hart]
    rfl
  · rw [hart]

/-- A call whose answer has come goes on. -/
theorem State.askHome_arrived {u : State} (came : u.me.arrived = true) (go : State → Res) : u.askHome go = go u := if_pos came

/-- A result written behind a change of the homes. -/
theorem finish_result_home {s t : State} (harts : t.harts = s.harts) (cur : t.cur = s.cur) (d : Reg) (v : Word) :
    ∃ u, finish s (.ok (t.result d v)) = .next u ∧ u.harts = (s.done (s.me.wr d v) 8).harts ∧ u.packs = t.packs ∧ u.mem = t.mem := by
  obtain ⟨next, done⟩ := finish_modHart_harts harts (fun x => x.wr d v) (Hart.wr_pc _ _ _)
  refine ⟨_, (congrArg (fun c => finish s (.ok (t.modHart c fun x => x.wr d v))) cur).trans next, done, rfl, rfl⟩

/-- A hart that waits stands where it did. -/
theorem State.markWait_waits (t : State) (h : Nat) : ∃ w, (t.markWait h).hart h = { t.hart h with wait := some w } := by
  have hart : (t.markWait h).hart h = _ := State.hart_setHart _ _ _
  rw [hart]
  cases e : (t.hart h).wait with
  | none =>
    refine ⟨{ kind := .retry, epoch := t.epoch, deadline := none, expired := false, stage := 0, arg := t.gtime }, ?_⟩
    simp only [e]
  | some w =>
    refine ⟨{ w with epoch := t.epoch }, ?_⟩
    simp only [e]

/-- A call that waits in its second stage. -/
theorem finish_stallAt {s t : State} (cur : t.cur = s.cur) (pc : t.me.pc = s.me.pc) (stage arg : Nat) :
    ∃ u w, finish s (t.stallAt stage arg) = .next u ∧ (u.hart s.cur).pc = s.me.pc ∧ (u.hart s.cur).wait = some w ∧
      w.stage = stage := by
  let w : Wait := { kind := .retry, epoch := t.epoch, deadline := none, expired := false, stage := stage, arg := arg }
  have hart : ((t.modHart t.cur fun x => { x with wait := some w }).markWait s.cur).hart s.cur = { t.me with wait := some w } := by
    rw [← cur]
    refine (State.hart_setHart _ _ _).trans ?_
    rw [State.modHart, State.hart_setHart]
    rfl
  refine ⟨_, w, rfl, ?_, ?_, rfl⟩
  · exact (congrArg Hart.pc hart :).trans pc
  · exact (congrArg Hart.wait hart :)

/-! ## The packs of the package -/

/-- The pack that replaces one is found in its place. -/
theorem find_replaced (l : List Pack) (p : Pack) (here : ∃ q ∈ l, q.pa = p.pa) :
    (l.map fun q => if q.pa == p.pa then p else q).find? (fun q => q.pa == p.pa) = some p := by
  induction l with
  | nil => exact absurd here (by simp)
  | cons q l ih =>
    by_cases same : q.pa = p.pa
    · simp [same]
    · obtain ⟨r, mem, at_⟩ := here
      have rest := ih ⟨r, (List.mem_cons.mp mem).resolve_left fun e => same (e ▸ at_), at_⟩
      simpa [same] using rest

theorem State.setPack_pack? {s : State} {p : Pack} (here : ∃ q ∈ s.packs, q.pa = p.pa) : (s.setPack p).pack? p.pa = some p :=
  find_replaced s.packs p here

theorem State.packIn_mem {s : State} {va : Word} {part : Nat} {p : Pack} (found : s.packIn va part = some p) :
    p ∈ s.packs ∧ p.handle = va := by
  have named := List.find?_some found
  rw [Bool.and_eq_true, beq_iff_eq] at named
  exact ⟨List.mem_of_find?_eq_some found, named.1⟩

theorem State.pack?_mem {s : State} {obj : Nat} {p : Pack} (found : s.pack? obj = some p) : p ∈ s.packs ∧ p.pa = obj :=
  ⟨List.mem_of_find?_eq_some found, beq_iff_eq.mp (List.find?_some (p := fun q : Pack => q.pa == obj) found)⟩

theorem State.packIn_none {s : State} {va : Word} {part : Nat} (none_ : ∀ p, ¬ s.packIn va part = some p) :
    s.packIn va part = none := Option.eq_none_iff_forall_ne_some.mpr none_

theorem State.setPack_harts (s : State) (p : Pack) : (s.setPack p).harts = s.harts := (s.devPut_frame p.pa p.bytes).harts
theorem State.setPack_cur (s : State) (p : Pack) : (s.setPack p).cur = s.cur := (s.devPut_frame p.pa p.bytes).cur
theorem State.dropPack_harts (s : State) (p : Pack) : (s.dropPack p).harts = s.harts := (s.devPut_frame (p.pa + 6) [0]).harts

theorem State.packEnd_harts (s : State) (p : Pack) : (s.packEnd p).harts = s.harts ∧ (s.packEnd p).cur = s.cur := by
  unfold State.packEnd
  dsimp only
  split
  · exact ⟨(State.dropPack_harts _ _).trans (s.setPack_harts _),
      (State.devPut_frame _ _ _).cur.trans (s.setPack_cur _)⟩
  · exact ⟨s.setPack_harts _, s.setPack_cur _⟩

theorem State.packLeave_harts (s : State) (obj h : Nat) :
    (s.packLeave obj h).harts = s.harts ∧ (s.packLeave obj h).cur = s.cur := by
  unfold State.packLeave
  split
  · exact ⟨rfl, rfl⟩
  · dsimp only
    split
    · exact s.packEnd_harts _
    · exact ⟨rfl, rfl⟩

theorem Pack.bytes_length (p : Pack) : p.bytes.length = 64 := by simp [Pack.bytes]

/-! ## PKALLOC (R239) -/

/-- A handle, a number of members or an address for which PKALLOC makes no object. -/
def State.badPack (u : State) (va : Word) (n pa : Nat) : Prop :=
  n = 0 ∨ 1024 < n ∨ 509 * 2 ^ 30 ≤ pa ∨ (u.packs.any fun q => q.handle == va && q.part == u.partOf u.cur) = true ∨
    u.inPackObject pa 64 = true

/-- The state in which the object has been made. -/
def State.withPack (u : State) (p : Pack) : State := { u.homeWrite none p.pa p.bytes with packs := u.packs ++ [p] }

section
variable {s u : State} {d a b : Reg} {life : BitVec 24} {pa : Nat} {m : BitVec 2}

theorem effPkalloc_translated (outside : s.me.inRegion = false) (aligned : (s.me.rd a).toNat % 64 = 0)
    (translated : s.translate (s.ctx s.cur) .store (s.me.rd a) = (u, .ok pa m)) :
    ∃ go, effPkalloc d a b life s = u.askHome go ∧
      (u.badPack (s.me.rd a) (s.me.rd b).toNat pa → go u = .ok (u.result d 2)) ∧
      (¬ u.badPack (s.me.rd a) (s.me.rd b).toNat pa → 64 ≤ u.packs.length → go u = .ok (u.result d 1)) ∧
      (¬ u.badPack (s.me.rd a) (s.me.rd b).toNat pa → u.packs.length < 64 → u.storesTo u.cur pa 64 = false →
        u.writeHeld pa 64 = false → go u = .ok ((u.withPack (newPack u (s.me.rd a) pa (s.me.rd b).toNat life.toNat)).result d
          (s.me.rd a))) := by
  have refused : (decide ((s.me.rd b).toNat = 0) || decide (Config.maxMembers < (s.me.rd b).toNat) ||
      decide (Config.deviceBytes ≤ pa) || (u.packIn (s.me.rd a) (u.partOf u.cur)).isSome || u.inPackObject pa 64) = true ↔
      u.badPack (s.me.rd a) (s.me.rd b).toNat pa := by
    simp only [Bool.or_eq_true, decide_eq_true_eq, State.badPack, State.packIn, List.find?_isSome, List.any_eq_true, or_assoc]
    exact Iff.rfl
  simp only [effPkalloc, outside, aligned, translated, ne_eq, not_true, Bool.false_eq_true, if_false]
  refine ⟨_, rfl, fun bad => if_pos (refused.mpr bad), fun good full => ?_, fun good room stores free => ?_⟩
  · exact (if_neg (mt refused.mp good)).trans (if_pos full)
  · refine (if_neg (mt refused.mp good)).trans ((if_neg (Nat.not_le.mpr room)).trans ((if_neg (ne_true_of_eq_false stores)).trans ?_))
    have written : u.agentWrite none pa (newPack u (s.me.rd a) pa (s.me.rd b).toNat life.toNat).bytes =
        u.homeWrite none pa (newPack u (s.me.rd a) pa (s.me.rd b).toNat life.toNat).bytes := by
      rw [State.agentWrite, Pack.bytes_length, if_neg (ne_true_of_eq_false free)]
    rw [written]
    rfl

end

theorem State.withPack_frame (u : State) (p : Pack) : (u.withPack p).harts = u.harts ∧ (u.withPack p).cur = u.cur ∧
    (u.withPack p).packs = u.packs ++ [p] := by
  have home := u.homeWrite_frame none p.pa p.bytes
  simp only [State.withPack]
  exact ⟨home.harts, home.cur, trivial⟩

/-- The object stands in memory. -/
theorem State.withPack_object {u : State} {p : Pack} (wf : (u.recallRange p.pa 64).mem.wf = true) :
    (u.withPack p).mem.readN p.pa 64 = p.bytes := by
  have length := p.bytes_length
  simp only [State.withPack, State.homeWrite_mem]
  generalize p.bytes = bs at length
  rw [← length] at wf ⊢
  exact Memory.readN_writeN_self wf p.pa bs

/-! ## PKENTER (R240, R254) -/

theorem Hart.dropStrips_twice (x : Hart) : x.dropStrips.dropStrips = x.dropStrips := by
  simp [Hart.dropStrips, List.map_map, Function.comp_def]

theorem Hart.dropStrips_wr (x : Hart) (d : Reg) (v : Word) : x.dropStrips.wr d v = (x.wr d v).dropStrips := by
  unfold Hart.wr
  split <;> rfl

/-- The checkpoint is the same whether the strips have been dropped before. -/
theorem Hart.enterPack_dropStrips (x : Hart) (d : Reg) (p : Pack) (handler : Word) :
    x.dropStrips.enterPack d p handler = x.enterPack d p handler := by
  rw [Hart.enterPack, Hart.enterPack, Hart.dropStrips_wr, Hart.dropStrips_twice]
  rfl

theorem State.acquireFor_partOf (s : State) (h k : Nat) : (s.acquireFor h).partOf k = s.partOf k := by
  have core : ((s.acquireFor h).core (coreOf k)).part = (s.core (coreOf k)).part := by
    show ((s.modCore (coreOf h) fun x => { x with l1 := x.l1.filter fun w => w.owned || !true }).core (coreOf k)).part = _
    by_cases same : coreOf k = coreOf h
    · rw [same, State.core_modCore]
    · exact congrArg Core.part (State.core_setCore_ne _ _ _ _ fun e => same e.symm)
  exact core

theorem State.acquireFor_packIn (s : State) (h : Nat) (va : Word) (part : Nat) :
    (s.acquireFor h).packIn va part = s.packIn va part := rfl

/-- PKENTER at the home of the pack, behind the acquire. -/
def State.enterAt (u : State) (d : Reg) (hr : Word) : Option Pack → Res
  | none => .ok (u.result d 3)
  | some p =>
    if p.state ≠ .opened then .ok (u.result d 2)
    else if p.entered = p.expected then .ok (u.result d 1)
    else .ok ((u.setPack (p.enter u.cur u.gtime)).modHart u.cur fun x => x.enterPack d p hr)

section
variable {s : State} {d a b : Reg} (outside : s.me.pack = none) (aligned : (s.me.rd b).toNat % 8 = 0) (quiet : s.quiet s.cur = true)
include outside aligned quiet

theorem effPkenter_asks : ∃ go, effPkenter d a b s = s.askHome go := by
  simp only [effPkenter, outside, aligned, quiet, Option.isSome_none, ne_eq, not_true, Bool.not_true, Bool.false_eq_true, if_false]
  exact ⟨_, rfl⟩

theorem effPkenter_arrived (came : s.me.arrived = true) :
    effPkenter d a b s = (s.acquireFor s.cur).enterAt d (s.me.rd b) (s.packIn (s.me.rd a) (s.partOf s.cur)) := by
  simp only [effPkenter, outside, aligned, quiet, Option.isSome_none, ne_eq, not_true, Bool.not_true, Bool.false_eq_true, if_false,
    State.askHome_arrived came, State.acquireFor_partOf, State.acquireFor_packIn]
  cases s.packIn (s.me.rd a) (s.partOf s.cur) <;> rfl

end

/-- A status of PKENTER. -/
theorem finish_enterStatus (s : State) (d : Reg) (v : Word) :
    ∃ t, finish s (.ok ((s.acquireFor s.cur).result d v)) = .next t ∧ t.harts = (s.done (s.me.dropStrips.wr d v) 8).harts ∧
      t.packs = s.packs ∧ t.mem = s.mem := by
  have both : (s.acquireFor s.cur).result d v = (s.acquireAll (coreOf s.cur)).modHart s.cur fun x => x.dropStrips.wr d v := by
    show ((s.acquireAll (coreOf s.cur)).modHart s.cur Hart.dropStrips).modHart s.cur (fun x => x.wr d v) = _
    simp only [State.modHart, State.hart_setHart, State.setHart_setHart]
  obtain ⟨next, done⟩ := finish_modHart_harts (s := s) (t := s.acquireAll (coreOf s.cur)) rfl (fun x => x.dropStrips.wr d v)
    (Hart.wr_pc _ _ _)
  exact ⟨_, by rw [both, next], done, rfl, rfl⟩

/-- A pack is entered: the member's checkpoint, and the count at the home. -/
theorem finish_entered {s : State} {va : Word} {part : Nat} {p : Pack} (found : s.packIn va part = some p) (d : Reg) (hr : Word) :
    ∃ t, finish s (.ok (((s.acquireFor s.cur).setPack (p.enter s.cur s.gtime)).modHart s.cur fun x => x.enterPack d p hr)) = .next t ∧
      t.harts = (s.done (s.me.enterPack d p hr) 8).harts ∧ t.pack? p.pa = some (p.enter s.cur s.gtime) := by
  obtain ⟨mem, -⟩ := State.packIn_mem found
  have home := State.devPut_frame (s.acquireAll (coreOf s.cur)) (p.enter s.cur s.gtime).pa (p.enter s.cur s.gtime).bytes
  have stands : ((s.acquireFor s.cur).setPack (p.enter s.cur s.gtime)).pack? p.pa = some (p.enter s.cur s.gtime) :=
    State.setPack_pack? (p := p.enter s.cur s.gtime) ⟨p, mem, rfl⟩
  have harts : ((s.acquireFor s.cur).setPack (p.enter s.cur s.gtime)).harts = (s.modHart s.cur Hart.dropStrips).harts :=
    State.setPack_harts _ _
  have cur : ((s.acquireFor s.cur).setPack (p.enter s.cur s.gtime)).cur = s.cur := State.setPack_cur _ _
  generalize (s.acquireFor s.cur).setPack (p.enter s.cur s.gtime) = v at stands harts cur
  have hart : v.hart s.cur = s.me.dropStrips := by
    rw [State.hart, harts]
    exact State.hart_setHart _ _ _
  have entered : (v.modHart s.cur fun x => x.enterPack d p hr).hart s.cur = s.me.enterPack d p hr := by
    rw [State.modHart, State.hart_setHart, hart, Hart.enterPack_dropStrips]
  have pc : (s.me.enterPack d p hr).pc = s.me.pc := Hart.wr_pc _ _ _
  refine ⟨_, finish_next_pc s _ (by rw [entered, pc]), ?_, stands⟩
  show putAt Hart.reset (putAt Hart.reset v.harts s.cur _) s.cur { (v.modHart s.cur fun x => x.enterPack d p hr).hart s.cur with
    pc := _, wait := none } = _
  rw [entered, harts]
  show putAt Hart.reset (putAt Hart.reset (putAt Hart.reset s.harts s.cur _) s.cur _) s.cur _ = _
  simp only [putAt_putAt]
  rfl

/-! ## PKCOMMIT (R241) -/

section
variable {s : State} {d : Reg} {m : Member} (member : s.me.pack = some m) (live : m.trapped = false)
include member live

/-- The count of a member that is ready is sent, and it waits. -/
theorem finish_pkcommit_sends (first : m.count = 0) (ready : s.commitReady s.cur = true) :
    ∃ t, finish s (effPkcommit d s) = .next t ∧ (t.hart s.cur).pc = s.me.pc ∧ (t.hart s.cur).wait.isSome = true ∧
      (t.hart s.cur).pack = some { m with count := 1 } := by
  have sent : effPkcommit d s = .stall ((s.modHart s.cur fun x => x.setCount 1).happen) := by
    simp only [effPkcommit, member, live, first, ready, Bool.false_eq_true, if_false, if_true]
  have hart : (s.modHart s.cur fun x => x.setCount 1).happen.hart s.cur = s.me.setCount 1 := State.hart_setHart _ _ _
  have counted : (s.me.setCount 1).pack = some { m with count := 1 } := by rw [Hart.setCount, member]; rfl
  obtain ⟨w, waits⟩ := (s.modHart s.cur fun x => x.setCount 1).happen.markWait_waits s.cur
  rw [hart] at waits
  exact ⟨_, congrArg (finish s) sent, (congrArg Hart.pc waits :), by rw [waits]; rfl, (congrArg Hart.pack waits :).trans counted⟩

theorem effPkcommit_waits (first : m.count = 0) (early : s.commitReady s.cur = false) : effPkcommit d s = .stall s := by
  simp only [effPkcommit, member, live, first, early, Bool.false_eq_true, if_false, if_true]

/-- Once the pack has committed, the member acquires and leaves the region. -/
theorem finish_pkcommit_leaves (last : m.count = 3) :
    ∃ t, finish s (effPkcommit d s) = .next t ∧ t.harts = (s.done { s.me.dropStrips.wr d 0 with pack := none } 8).harts := by
  let left (x : Hart) : Hart := { x.wr d 0 with pack := none }
  have leaves : effPkcommit d s = .ok (((s.acquireFor s.cur).modHart s.cur left).packLeave m.obj s.cur) := by
    simp only [effPkcommit, member, live, last, Nat.reduceEqDiff, Bool.false_eq_true, if_false, if_true]
    rfl
  obtain ⟨harts, cur⟩ := ((s.acquireFor s.cur).modHart s.cur left).packLeave_harts m.obj s.cur
  have changed : ((s.acquireFor s.cur).modHart s.cur left).harts =
      (s.modHart s.cur fun x => { x.dropStrips.wr d 0 with pack := none }).harts := by
    show (((s.acquireAll (coreOf s.cur)).modHart s.cur Hart.dropStrips).modHart s.cur left).harts = _
    simp only [State.modHart, State.hart_setHart, State.setHart_setHart]
    rfl
  rw [changed] at harts
  generalize ((s.acquireFor s.cur).modHart s.cur left).packLeave m.obj s.cur = v at leaves harts
  have hart : v.hart s.cur = { s.me.dropStrips.wr d 0 with pack := none } := by
    rw [State.hart, harts]
    exact State.hart_setHart _ _ _
  have pc : (s.me.dropStrips.wr d 0).pc = s.me.pc := Hart.wr_pc _ _ _
  refine ⟨_, (congrArg (finish s) leaves).trans (finish_next_pc s v (by rw [hart]; exact pc)), ?_⟩
  show putAt Hart.reset v.harts s.cur { v.hart s.cur with pc := _, wait := none } = _
  rw [hart, harts]
  exact putAt_putAt _ _ _ _ _

end

/-! ## PKABORT (R242, R250) -/

/-- The code that an abort asks for stands, where no other cause is due before it and none of its cycle is lower. -/
theorem State.firstCause_asked {s : State} {p : Pack} {code : BitVec 32} (low : code.toNat % 256 ≤ 2)
    (first : ∀ c ∈ s.packCauses p, s.gtime ≤ c.1) : s.firstCause p code = code := by
  have codes : ∀ c ∈ s.packCauses p, 2 ≤ c.2 := by
    intro c mem
    simp only [State.packCauses, List.mem_append, List.mem_filterMap] at mem
    rcases mem with (⟨w, -, held⟩ | late) | lost
    · split at held
      · split at held
        · cases held
          exact le_rfl
        · cases held
      · cases held
    · split at late
      · rw [List.mem_singleton.mp late]
        exact Nat.le_of_ble_eq_true rfl
      · cases late
    · split at lost
      · rw [List.mem_singleton.mp lost]
        exact Nat.le_of_ble_eq_true rfl
      · cases lost
  have stays : ∀ l : List (Nat × Nat), (∀ c ∈ l, s.gtime ≤ c.1 ∧ 2 ≤ c.2) →
      l.foldl (fun (b : Nat × Nat × BitVec 32) c =>
        if c.1 < b.1 || (c.1 == b.1 && decide (c.2 < b.2.1)) then (c.1, c.2, BitVec.ofNat 32 c.2) else b)
        (s.gtime, code.toNat % 256, code) = (s.gtime, code.toNat % 256, code) := by
    intro l
    induction l with
    | nil => exact fun _ => rfl
    | cons c l ih =>
      intro all
      obtain ⟨later, higher⟩ := all c List.mem_cons_self
      rw [List.foldl_cons, if_neg ?_]
      · exact ih fun c mem => all c (List.mem_cons_of_mem _ mem)
      · simp only [Bool.or_eq_true, Bool.and_eq_true, decide_eq_true_eq]
        omega
  exact congrArg (fun b : Nat × Nat × BitVec 32 => b.2.2) (stays _ fun c mem => ⟨first c mem, codes c mem⟩)

/-- The pack that an abort leaves at its home. -/
def Pack.aborting (p : Pack) (code : BitVec 32) (now : Nat) : Pack :=
  { p with state := .aborting, code := code, aborted := now, tent := [], reads := [] }

theorem State.hostPut_packs (s : State) (pa : Nat) (bs : List Byte) : (s.hostPut pa bs).packs = s.packs := by
  unfold State.hostPut
  split
  · rfl
  · exact (s.homeWrite_frame _ pa bs).packs

theorem State.snoopPut_packs (s : State) (pa : Nat) (bs : List Byte) : (s.snoopPut pa bs).packs = s.packs := by
  unfold State.snoopPut
  split
  · rfl
  · exact (s.homeWrite_frame none pa bs).packs

theorem HeldPut.perform_packs (p : HeldPut) (s : State) : (p.perform s).packs = s.packs := by
  unfold HeldPut.perform
  split
  · exact s.hostPut_packs _ _
  · exact (s.devPut_frame _ _).packs
  · exact s.snoopPut_packs _ _

/-- The writes that a pack has held change no pack. -/
theorem State.cleanHolds_packs (s : State) : s.cleanHolds.packs = s.packs := by
  unfold State.cleanHolds
  exact foldl_keeps (P := fun t : State => t.packs = s.packs) _ (fun t p same => (p.perform_packs t).trans same) _ _ rfl

/-- An open pack with members that aborts stands at its home with the code of its first cause. -/
theorem State.abortPack_open {s : State} {obj : Nat} {p : Pack} (found : s.pack? obj = some p) (open_ : p.state = .opened)
    (members : p.members ≠ []) (code : BitVec 32) :
    (s.abortPack obj code).pack? obj = some (p.aborting (s.firstCause p code) s.gtime) := by
  obtain ⟨mem, at_⟩ := State.pack?_mem found
  let q := p.aborting (s.firstCause p code) s.gtime
  have stands : (s.setPack q).pack? obj = some q := by
    rw [← at_]
    exact State.setPack_pack? (p := q) ⟨p, mem, rfl⟩
  have marked (f : Hart → Hart) : (p.members.foldl (fun t h => t.modHart h f) (s.setPack q)).packs = (s.setPack q).packs :=
    foldl_keeps (P := fun t : State => t.packs = (s.setPack q).packs) (fun (t : State) h => t.modHart h f) (fun t h same => same) _ _ rfl
  have running : ¬ (decide (p.state = .aborting) && p.aborted == s.gtime && decide (code.toNat % 256 < p.code.toNat % 256)) = true := by
    rw [open_]
    simp
  have some_ : ¬ p.members.isEmpty = true := mt List.isEmpty_iff.mp members
  unfold State.abortPack
  rw [found]
  simp only [if_neg running, if_pos open_, if_neg some_]
  refine Eq.trans ?_ stands
  show ((State.cleanHolds _).packs).find? _ = _
  rw [State.cleanHolds_packs]
  exact congrArg (List.find? fun q : Pack => q.pa == obj) (marked _)

/-! ## PKSTAT and PKFREE (R243, R244) -/

section
variable {s : State} {d a : Reg}

theorem effPkstat_none (came : s.me.arrived = true) (none_ : s.packIn (s.me.rd a) (s.partOf s.cur) = none) (code : Bool) :
    effPkstat code d a s = .ok (s.result d 0) := by
  rw [effPkstat, State.askHome_arrived came, none_]

theorem effPkstat_found (came : s.me.arrived = true) {p : Pack} (found : s.packIn (s.me.rd a) (s.partOf s.cur) = some p)
    (code : Bool) : effPkstat code d a s = .ok (s.result d (p.stat code)) := by
  rw [effPkstat, State.askHome_arrived came, found]

/-- PKFREE at the home of the pack. -/
def State.freeAt (s : State) (d : Reg) : Option Pack → Res
  | none => .ok (s.result d 3)
  | some p =>
    if p.state = .opened && p.entered = 0 then .ok ((s.dropPack p).result d 0)
    else ((s.waitFree p).abortPack p.pa 8).stallAt 1 0

/-- PKFREE that waits for the step of its pack. -/
def State.freeAgain (s : State) (d : Reg) : Option Pack → Res
  | none => .ok (s.result d 0)
  | some p => if p.freeWait.contains s.cur then s.stallAt 1 0 else .ok (s.result d 0)

variable (outside : s.me.inRegion = false)
include outside

theorem effPkfree_asks (first : s.me.stage ≠ 1) : ∃ go, effPkfree d a s = s.askHome go := by
  simp only [effPkfree, outside, if_neg first, Bool.false_eq_true, if_false]
  exact ⟨_, rfl⟩

theorem effPkfree_arrived (first : s.me.stage ≠ 1) (came : s.me.arrived = true) :
    effPkfree d a s = s.freeAt d (s.packIn (s.me.rd a) (s.partOf s.cur)) := by
  simp only [effPkfree, outside, if_neg first, Bool.false_eq_true, if_false, State.askHome_arrived came]
  cases s.packIn (s.me.rd a) (s.partOf s.cur) <;> rfl

theorem effPkfree_again (second : s.me.stage = 1) :
    effPkfree d a s = s.freeAgain d (s.packIn (s.me.rd a) (s.partOf s.cur)) := by
  simp only [effPkfree, outside, if_pos second, Bool.false_eq_true, if_false]
  cases s.packIn (s.me.rd a) (s.partOf s.cur) <;> rfl

end

/-- A PKFREE of a pack at work waits in its second stage. -/
theorem finish_freeWaits (s : State) (p : Pack) :
    ∃ t w, finish s (((s.waitFree p).abortPack p.pa 8).stallAt 1 0) = .next t ∧ (t.hart s.cur).pc = s.me.pc ∧
      (t.hart s.cur).wait = some w ∧ w.stage = 1 := by
  have kept := (PackKeeps.refl (s.waitFree p)).abortPack p.pa 8
  have cur : ((s.waitFree p).abortPack p.pa 8).cur = s.cur := kept.keeps.cur
  have pc : ((s.waitFree p).abortPack p.pa 8).me.pc = s.me.pc := by
    rw [State.me, cur]
    exact (congrArg Hart.pc (kept.hart s.cur) :)
  exact finish_stallAt cur pc 1 0

/-- What calls in the wrong place come to. -/
theorem pack_illegal {s : State} {d a b : Reg} {life code : BitVec 24} (idle : s.me.queueIdle = true) :
    (s.me.pack.isSome = true → exec (.pkenter d a b) s = .next (s.trapped 1 s.me.iword)) ∧
    (s.me.inRegion = true → exec (.pkalloc d a b life) s = .next (s.trapped 1 s.me.iword) ∧
      exec (.pkfree d a) s = .next (s.trapped 1 s.me.iword)) ∧
    (s.me.inRegion = false → exec (.pkcommit d) s = .next (s.trapped 1 s.me.iword) ∧
      exec (.pkabort code) s = .next (s.trapped 1 s.me.iword)) := by
  refine ⟨fun inside => finish_traps idle (r := effPkenter d a b s) (if_pos inside), fun inside => ⟨finish_traps idle
    (r := effPkalloc d a b life s) (if_pos inside), finish_traps idle (r := effPkfree d a s) (if_pos inside)⟩, fun outside => ?_⟩
  have noMember : s.me.member = none := by
    rw [Hart.inRegion] at outside
    exact Option.not_isSome_iff_eq_none.mp (ne_true_of_eq_false outside)
  refine ⟨finish_traps idle (r := effPkcommit d s) ?_, finish_traps idle (r := effPkabort code s) ?_⟩
  · rw [Hart.member] at noMember
    rw [effPkcommit]
    cases pack : s.me.pack with
    | none => rfl
    | some m =>
      rw [pack] at noMember
      by_cases trapped : m.trapped = true
      · exact if_pos trapped
      · exact absurd (noMember.symm.trans (if_neg trapped)) (by simp)
  · rw [effPkabort, noMember]
    rfl

section
variable {s : State} {d a b : Reg}

theorem pkenter_status (came : s.me.arrived = true) (outside : s.me.pack = none) (aligned : (s.me.rd b).toNat % 8 = 0)
    (quiet : s.quiet s.cur = true) {v : Word}
    (at_ : (s.acquireFor s.cur).enterAt d (s.me.rd b) (s.packIn (s.me.rd a) (s.partOf s.cur)) =
      .ok ((s.acquireFor s.cur).result d v)) :
    ∃ t, exec (.pkenter d a b) s = .next t ∧ t.harts = (s.done (s.me.dropStrips.wr d v) 8).harts ∧ t.packs = s.packs ∧
      t.mem = s.mem := by
  obtain ⟨t, next, rest⟩ := finish_enterStatus s d v
  exact ⟨t, (congrArg (finish s) ((effPkenter_arrived outside aligned quiet came).trans at_)).trans next, rest⟩

end

/-- PKABORT of a member goes on, and its pack aborts. -/
theorem finish_pkabort {s : State} {obj : Nat} (code : BitVec 24) (member : s.me.member = some obj) :
    ∃ t, exec (.pkabort code) s = .next t ∧ (t.hart s.cur).pc = s.me.pc + 8 ∧
      t.packs = (s.abortPack obj (BitVec.ofNat 32 (1 + 256 * code.toNat))).packs := by
  have aborts : effPkabort code s = .ok (s.abortPack obj (BitVec.ofNat 32 (1 + 256 * code.toNat))) := by rw [effPkabort, member]
  have kept := (PackKeeps.refl s).abortPack obj (BitVec.ofNat 32 (1 + 256 * code.toNat))
  generalize s.abortPack obj (BitVec.ofNat 32 (1 + 256 * code.toNat)) = v at aborts kept
  have pc : (v.hart s.cur).pc = s.me.pc := (congrArg Hart.pc (kept.hart s.cur) :)
  refine ⟨_, (congrArg (finish s) aborts).trans (finish_next_pc s v pc), ?_, rfl⟩
  have hart : (v.retire s.cur (s.me.pc + 8)).hart s.cur = { v.hart s.cur with pc := s.me.pc + 8, wait := none } :=
    State.hart_setHart _ _ _
  rw [hart]

/-- Settles O38. -/
theorem packCalls : Obligations.PackCalls := by
  intro s d a b life code x va n illegal mine none_ asks
  have absent (gone : none_) : s.packIn va (s.partOf s.cur) = none := State.packIn_none gone
  refine ⟨fun idle => ?illegal, fun u pa m outside aligned translated => ?alloc, fun outside aligned quiet late free => ?_,
    fun outside aligned quiet came => ?enter, fun m member live => ?commit, fun h member => ?abort, ?stat,
    fun outside first late free => ?_, ?free⟩
  case illegal =>
    obtain ⟨enter, allocFree, commitAbort⟩ := pack_illegal (d := d) (a := a) (b := b) (life := life) (code := code) idle
    refine ⟨enter, allocFree, commitAbort, fun outside odd => ?_, fun outside odd => ?_⟩
    · exact finish_traps idle (r := effPkalloc d a b life s) ((if_neg (ne_true_of_eq_false outside)).trans (if_pos odd))
    · exact finish_traps idle (r := effPkenter d a b s) ((if_neg (by rw [outside]; decide)).trans (if_pos odd))
  case alloc =>
    have frame : TrFrame s u := by
      have frame := s.translate_frame (s.ctx s.cur) .store va
      rw [translated] at frame
      exact frame
    obtain ⟨go, eff, refused, full, made⟩ := effPkalloc_translated (d := d) (b := b) (life := life) outside aligned translated
    have cur := frame.cur
    rw [State.badPack, cur] at refused full made
    refine ⟨fun late free => ?_, fun came => ?_⟩
    · obtain ⟨t, w, asked⟩ := askHome_asks frame late free go
      exact ⟨t, w, by rw [← eff] at asked; exact asked⟩
    · intro bad
      have here : u.me.arrived = true := by rw [frame.me]; exact came
      have eff := eff.trans (State.askHome_arrived here go)
      refine ⟨fun refuses => ?_, fun good many => ?_, fun good room stores free => ?_⟩
      · exact (congrArg (finish s) (eff.trans (refused refuses))).trans (finish_result_of cur d 2)
      · exact (congrArg (finish s) (eff.trans (full good many))).trans (finish_result_of cur d 1)
      · have object := State.withPack_object (u := u) (p := newPack u va pa n life.toNat)
        obtain ⟨harts, hcur, packs⟩ := u.withPack_frame (newPack u va pa n life.toNat)
        have eff := eff.trans (made good room stores free)
        generalize u.withPack (newPack u va pa n life.toNat) = v at object packs harts hcur eff
        obtain ⟨t, next, tharts, tpacks, tmem⟩ := finish_result_home harts hcur d va
        refine ⟨t, newPack u va pa n life.toNat, (congrArg (finish s) eff).trans ((finish_of_cur cur _).trans next), tharts,
          tpacks.trans packs, rfl, rfl, rfl, rfl, rfl, rfl, rfl, rfl, rfl, by rw [← cur]; rfl, ?_, fun wf => by rw [tmem]; exact object wf⟩
        refine if_congr ⟨fun e => BitVec.eq_of_toNat_eq e, fun e => by rw [e]; rfl⟩ rfl rfl
  case enter =>
    intro status
    have eff := effPkenter_arrived (d := d) (a := a) outside aligned quiet came
    refine ⟨fun gone => ?_, fun p found busy => ?_, fun p found open_ full => ?_, fun p found open_ room => ?_⟩
    · exact pkenter_status came outside aligned quiet (by rw [absent gone]; rfl)
    · exact pkenter_status came outside aligned quiet (by rw [show s.packIn va _ = some p from found]; exact if_pos busy)
    · refine pkenter_status came outside aligned quiet ?_
      rw [show s.packIn va _ = some p from found]
      exact (if_neg (not_not.mpr open_)).trans (if_pos full)
    · obtain ⟨t, next, harts, stands⟩ := finish_entered (va := va) found d (x.rd b)
      rw [show s.packIn (s.me.rd a) _ = some p from found] at eff
      refine ⟨t, (congrArg (finish s) (eff.trans ((if_neg (not_not.mpr open_)).trans (if_neg room)))).trans next, ?_, ?_⟩
      · rw [harts, Hart.enterPack, (State.packIn_mem found).2]
        rfl
      · rw [stands]
        rfl
  case commit =>
    refine ⟨finish_pkcommit_sends member live, fun first early => ?_, finish_pkcommit_leaves member live⟩
    exact congrArg (finish s) (effPkcommit_waits member live first early)
  case abort =>
    obtain ⟨t, next, pc, packs⟩ := finish_pkabort code member
    refine ⟨t, next, pc, fun p found open_ members causes => ?_⟩
    have aborts := State.abortPack_open found open_ members (BitVec.ofNat 32 (1 + 256 * code.toNat))
    rw [State.firstCause_asked (by rw [BitVec.toNat_ofNat]; omega) causes] at aborts
    rw [State.pack?, packs]
    exact congrArg (Option.map _) aborts
  case stat =>
    refine ⟨fun late free => ⟨askHome_asks (.refl s) late free _, askHome_asks (.refl s) late free _⟩, fun came gone => ?_,
      fun p came found => ?_⟩
    · have writes (c : Bool) := (congrArg (finish s) (effPkstat_none (d := d) came (absent gone) c)).trans (finish_result s d 0)
      exact ⟨writes false, writes true⟩
    · have writes (c : Bool) := (congrArg (finish s) (effPkstat_found (d := d) came found c)).trans (finish_result s d (p.stat c))
      exact ⟨writes false, writes true⟩
  case free =>
    intro waits
    refine ⟨fun outside first came => ?_, fun outside second => ?_⟩
    · have eff := effPkfree_arrived (d := d) (a := a) outside first came
      refine ⟨fun gone => ?_, fun p found open_ empty => ?_, fun p found busy => ?_⟩
      · rw [absent gone] at eff
        exact (congrArg (finish s) eff).trans (finish_result s d 3)
      · rw [show s.packIn (s.me.rd a) _ = some p from found] at eff
        obtain ⟨t, next, harts, packs, -⟩ := finish_result_home (s.dropPack_harts p) (s.devPut_frame (p.pa + 6) [0]).cur d 0
        exact ⟨t, (congrArg (finish s) (eff.trans (if_pos (by simp [open_, empty])))).trans next, harts, packs⟩
      · rw [show s.packIn (s.me.rd a) _ = some p from found] at eff
        have atWork : ¬ (decide (p.state = .opened) && decide (p.entered = 0)) = true := by
          simpa [imp_iff_not_or] using busy
        obtain ⟨t, w, next, rest⟩ := finish_freeWaits s p
        exact ⟨t, w, (congrArg (finish s) (eff.trans (if_neg atWork))).trans next, rest⟩
    · have eff := effPkfree_again (d := d) (a := a) outside second
      refine ⟨fun gone => ?_, fun p found => ⟨fun waiting => ?_, fun done => ?_⟩⟩
      · rw [absent gone] at eff
        exact (congrArg (finish s) eff).trans (finish_result s d 0)
      · rw [show s.packIn (s.me.rd a) _ = some p from found] at eff
        obtain ⟨t, w, next, rest⟩ := finish_stallAt (s := s) (t := s) rfl rfl 1 0
        exact ⟨t, w, (congrArg (finish s) (eff.trans (if_pos (List.contains_iff_mem.mpr waiting)))).trans next, rest⟩
      · rw [show s.packIn (s.me.rd a) _ = some p from found] at eff
        exact (congrArg (finish s) (eff.trans (if_neg (mt List.contains_iff_mem.mp done)))).trans (finish_result s d 0)
  · obtain ⟨go, eff⟩ := effPkenter_asks (d := d) (a := a) outside aligned quiet
    obtain ⟨t, w, asked⟩ := askHome_asks (.refl s) late free go
    exact ⟨t, w, by rw [← eff] at asked; exact asked⟩
  · obtain ⟨go, eff⟩ := effPkfree_asks (d := d) (a := a) outside first
    obtain ⟨t, w, asked⟩ := askHome_asks (.refl s) late free go
    exact ⟨t, w, by rw [← eff] at asked; exact asked⟩

end Sys2Proof.Machine

/-! PROOF of PackSteps: what an abort leaves of the other packs, the first of the causes that are due, the bytes that a commit writes,
and the steps of a pack's members. -/

namespace Sys2Proof.Machine

/-! ## The end of a pack concerns its own object, the homes and its members (R248, R251) -/

namespace DieSlots

variable {s t : State} (kept : DieSlots s t)
include kept

theorem holdPut (pa : Nat) (bs : List Byte) (src : PutSource) : DieSlots s (t.holdPut pa bs src) := by
  unfold State.holdPut
  exact noteWrite (kept.trans (.of_dies rfl)) _ _ _

theorem hostPut (pa : Nat) (bs : List Byte) : DieSlots s (t.hostPut pa bs) := by
  unfold State.hostPut
  split
  · exact kept.holdPut _ _ _
  · exact kept.homeWrite _ _ _

theorem snoopPut (pa : Nat) (bs : List Byte) : DieSlots s (t.snoopPut pa bs) := by
  unfold State.snoopPut
  split
  · exact kept.holdPut _ _ _
  · exact (kept.homeWrite none pa bs).trans (.of_dies rfl)

theorem perform (p : HeldPut) : DieSlots s (p.perform t) := by
  unfold HeldPut.perform
  split
  · exact kept.hostPut _ _
  · exact kept.devPut _ _
  · exact kept.snoopPut _ _

theorem setPack (p : Pack) : DieSlots s (t.setPack p) := (kept.devPut p.pa p.bytes).trans (.of_dies rfl)
theorem dropPack (p : Pack) : DieSlots s (t.dropPack p) := (kept.devPut (p.pa + 6) [0]).trans (.of_dies rfl)

end DieSlots

/-- What decides whether a pack's time is over or its dies are lost: the time, the repair map and the dies (R249, R250). -/
def PackClock (s t : State) : Prop := t.gtime = s.gtime ∧ t.repair = s.repair ∧ DieSlots s t

namespace PackClock

theorem refl (s : State) : PackClock s s := ⟨rfl, rfl, .refl s⟩

theorem trans {s t u : State} (a : PackClock s t) (b : PackClock t u) : PackClock s u :=
  ⟨b.1.trans a.1, b.2.1.trans a.2.1, a.2.2.trans b.2.2⟩

end PackClock

theorem HomeFrame.repair {s t : State} (frame : HomeFrame s t) : t.repair = s.repair := by rw [frame.rest]

theorem State.setPack_clock (s : State) (p : Pack) : PackClock s (s.setPack p) :=
  ⟨(s.devPut_frame p.pa p.bytes).gtime, (s.devPut_frame p.pa p.bytes).repair, (DieSlots.refl s).setPack p⟩

theorem State.dropPack_clock (s : State) (p : Pack) : PackClock s (s.dropPack p) :=
  ⟨(s.devPut_frame (p.pa + 6) [0]).gtime, (s.devPut_frame (p.pa + 6) [0]).repair, (DieSlots.refl s).dropPack p⟩

theorem State.packEnd_clock (s : State) (p : Pack) : PackClock s (s.packEnd p) := by
  unfold State.packEnd
  dsimp only
  split
  · exact (s.setPack_clock _).trans (State.dropPack_clock _ _)
  · exact s.setPack_clock _

theorem HeldPut.perform_clock (p : HeldPut) (s : State) : PackClock s (p.perform s) := by
  refine ⟨((PackKeeps.refl s).perform p).2.2.2.2.2.1, ?_, (DieSlots.refl s).perform p⟩
  unfold HeldPut.perform State.hostPut State.snoopPut
  split
  · split
    · rfl
    · exact (s.homeWrite_frame _ _ _).repair
  · exact (s.devPut_frame _ _).repair
  · split
    · rfl
    · exact (s.homeWrite_frame none p.pa p.data).repair

theorem State.cleanHolds_clock (s : State) : PackClock s s.cleanHolds := by
  unfold State.cleanHolds
  exact foldl_keeps (P := PackClock s) _ (fun t p kept => kept.trans (p.perform_clock t)) _ _ ⟨rfl, rfl, .of_dies rfl⟩

/-- Members that are told something. -/
theorem State.modHarts_clock (s : State) (f : Hart → Hart) (l : List Nat) :
    PackClock s (l.foldl (fun (t : State) h => t.modHart h f) s) :=
  foldl_keeps (P := PackClock s) (fun (t : State) h => t.modHart h f) (fun _ _ kept => kept.trans ⟨rfl, rfl, .of_dies rfl⟩) _ _ (.refl s)

theorem State.modHarts_packs (s : State) (f : Hart → Hart) (l : List Nat) :
    (l.foldl (fun (t : State) h => t.modHart h f) s).packs = s.packs :=
  foldl_keeps (P := fun t : State => t.packs = s.packs) (fun (t : State) h => t.modHart h f) (fun _ _ same => same) _ _ rfl

/-! ## The other packs -/

theorem find_replaced_ne {l : List Pack} {p : Pack} {pa : Nat} (other : p.pa ≠ pa) :
    (l.map fun q => if q.pa == p.pa then p else q).find? (fun q => q.pa == pa) = l.find? fun q => q.pa == pa := by
  induction l with
  | nil => rfl
  | cons q l ih =>
    by_cases same : q.pa = p.pa
    · have away : q.pa ≠ pa := fun e => other (same.symm.trans e)
      simpa [same, other] using ih
    · rw [List.map_cons, if_neg (mt beq_iff_eq.mp same)]
      rw [List.find?_cons, List.find?_cons, ih]

theorem State.setPack_pack?_ne {s : State} {p : Pack} {pa : Nat} (other : p.pa ≠ pa) : (s.setPack p).pack? pa = s.pack? pa :=
  find_replaced_ne other

theorem State.dropPack_pack?_ne {s : State} {p : Pack} {pa : Nat} (other : p.pa ≠ pa) : (s.dropPack p).pack? pa = s.pack? pa := by
  show (s.packs.filter fun q => q.pa != p.pa).find? (fun q => q.pa == pa) = _
  rw [List.find?_filter, State.pack?]
  congr 1
  funext q
  by_cases here : q.pa = pa
  · simp [here, other.symm]
  · simp [here]

theorem State.packEnd_pack?_ne {s : State} {p : Pack} {pa : Nat} (other : p.pa ≠ pa) : (s.packEnd p).pack? pa = s.pack? pa := by
  unfold State.packEnd
  dsimp only
  split
  · exact (State.dropPack_pack?_ne other).trans (State.setPack_pack?_ne other)
  · exact State.setPack_pack?_ne other

theorem State.pack?_congr {s t : State} (packs : t.packs = s.packs) (pa : Nat) : t.pack? pa = s.pack? pa := by
  rw [State.pack?, packs]
  rfl

/-- What an abort does to a hart that is a member. -/
def Hart.tellAbort (x : Hart) : Hart := match x.pack with
  | some m => { x with pack := some { m with restore := true } }
  | none => x

/-- The state in which the pack at `p.pa` has aborted and its members are told. -/
def State.aborted (s : State) (p : Pack) (code : BitVec 32) : State :=
  p.members.foldl (fun (t : State) h => t.modHart h Hart.tellAbort) (s.setPack (p.aborting (s.firstCause p code) s.gtime))

/-- An abort by the state of the pack (R250, R251). -/
theorem State.abortPack_eq {s : State} {obj : Nat} {p : Pack} (found : s.pack? obj = some p) (code : BitVec 32) :
    s.abortPack obj code =
      if p.state = .aborting && p.aborted == s.gtime && decide (code.toNat % 256 < p.code.toNat % 256) then
        s.setPack { p with code := code }
      else if p.state = .opened then
        (if p.members.isEmpty then (s.aborted p code).packEnd (p.aborting (s.firstCause p code) s.gtime)
          else s.aborted p code).cleanHolds.happen
      else s := by
  unfold State.abortPack
  rw [found]
  rfl

/-- An abort leaves the time, the dies and every other pack. -/
theorem State.abortPack_others (s : State) (obj : Nat) (code : BitVec 32) :
    PackClock s (s.abortPack obj code) ∧ ∀ pa, pa ≠ obj → (s.abortPack obj code).pack? pa = s.pack? pa := by
  cases found : s.pack? obj with
  | none =>
    rw [State.abortPack, found]
    exact ⟨.refl s, fun _ _ => rfl⟩
  | some p =>
    obtain ⟨-, at_⟩ := State.pack?_mem found
    have told : PackClock s (s.aborted p code) := (s.setPack_clock _).trans (State.modHarts_clock _ _ _)
    have others (pa : Nat) (other : pa ≠ obj) : (s.aborted p code).pack? pa = s.pack? pa :=
      (State.pack?_congr (State.modHarts_packs _ _ _) pa).trans
        (State.setPack_pack?_ne (p := p.aborting (s.firstCause p code) s.gtime) fun e => other (e.symm.trans at_))
    rw [State.abortPack_eq found]
    split
    · exact ⟨s.setPack_clock _, fun pa other => State.setPack_pack?_ne fun e => other (e.symm.trans at_)⟩
    split
    · refine ⟨PackClock.trans ?_ (State.cleanHolds_clock _), fun pa other => ?_⟩
      · split
        · exact told.trans (State.packEnd_clock _ _)
        · exact told
      · refine (State.pack?_congr (State.cleanHolds_packs _) pa).trans ?_
        split
        · exact (State.packEnd_pack?_ne (p := p.aborting (s.firstCause p code) s.gtime)
            fun e => other (e.symm.trans at_)).trans (others pa other)
        · exact others pa other
    · exact ⟨.refl s, fun _ _ => rfl⟩

/-- A second cause with the code of the first changes nothing. -/
theorem State.abortPack_again {s : State} {obj : Nat} {p : Pack} (found : s.pack? obj = some p) (aborting : p.state = .aborting) :
    s.abortPack obj p.code = s := by
  rw [State.abortPack_eq found, if_neg (by simp), if_neg (by rw [aborting]; decide)]

/-- Every member is told of an abort. -/
theorem State.modHarts_pack (f : Hart → Hart) (P : Option Member → Prop) (told : ∀ x, P (f x).pack)
    (l : List Nat) (s : State) : ∀ h, h ∈ l ∨ P (s.hart h).pack →
      P ((l.foldl (fun (t : State) h => t.modHart h f) s).hart h).pack := by
  induction l generalizing s with
  | nil => exact fun h there => there.resolve_left (List.not_mem_nil)
  | cons k l ih =>
    intro h there
    refine ih (s.modHart k f) h ?_
    by_cases same : k = h
    · subst same
      exact .inr (by rw [State.modHart, State.hart_setHart]; exact told _)
    · rw [State.modHart, State.hart_setHart_ne _ _ _ _ same]
      exact there.imp_left fun mem => (List.mem_cons.mp mem).resolve_left fun e => same e.symm

theorem HeldPut.perform_harts (p : HeldPut) (s : State) : (p.perform s).harts = s.harts := by
  unfold HeldPut.perform State.hostPut State.snoopPut
  split
  · split
    · rfl
    · exact (s.homeWrite_frame _ _ _).harts
  · exact (s.devPut_frame _ _).harts
  · split
    · rfl
    · exact (s.homeWrite_frame none p.pa p.data).harts

theorem State.cleanHolds_harts (s : State) : s.cleanHolds.harts = s.harts := by
  unfold State.cleanHolds
  exact foldl_keeps (P := fun t : State => t.harts = s.harts) _ (fun t p same => (p.perform_harts t).trans same) _ _ rfl

/-- The members of an open pack that aborts are to restore (R251). -/
theorem State.abortPack_members {s : State} {obj : Nat} {p : Pack} (found : s.pack? obj = some p) (open_ : p.state = .opened)
    (members : p.members ≠ []) (code : BitVec 32) :
    ∀ h ∈ p.members, ∀ m, ((s.abortPack obj code).hart h).pack = some m → m.restore = true := by
  have told : ∀ x : Hart, ∀ m, x.tellAbort.pack = some m → m.restore = true := by
    intro x m
    unfold Hart.tellAbort
    split
    · intro e
      cases e
      rfl
    · next none_ => exact fun e => absurd (none_.symm.trans e) (by simp)
  intro h mem
  rw [State.abortPack_eq found, if_neg (by simp [open_]), if_pos open_, if_neg (mt List.isEmpty_iff.mp members)]
  have same : (s.aborted p code).cleanHolds.happen.hart h = (s.aborted p code).hart h :=
    congrArg (fun l => getAt Hart.reset l h) (State.cleanHolds_harts _)
  rw [same]
  exact State.modHarts_pack _ (fun o => ∀ m, o = some m → m.restore = true) told p.members _ h (.inl mem)

/-! ## The first cause (R250) -/

/-- Of a cause and one found before, the one that comes first; of one cycle, the lower code. -/
def earlierCause (b : Nat × Nat × BitVec 32) (c : Nat × Nat) : Nat × Nat × BitVec 32 :=
  if c.1 < b.1 || (c.1 == b.1 && decide (c.2 < b.2.1)) then (c.1, c.2, BitVec.ofNat 32 c.2) else b

/-- A cause does not come after another. -/
def notLater (a b : Nat × Nat) : Prop := a.1 < b.1 ∨ (a.1 = b.1 ∧ a.2 ≤ b.2)

theorem earlierCause_spec (b : Nat × Nat × BitVec 32) (c : Nat × Nat) (own : b.2.2 = BitVec.ofNat 32 b.2.1) :
    let r := earlierCause b c
    notLater (r.1, r.2.1) (b.1, b.2.1) ∧ notLater (r.1, r.2.1) c ∧ ((r.1, r.2.1) = (b.1, b.2.1) ∨ (r.1, r.2.1) = c) ∧
      r.2.2 = BitVec.ofNat 32 r.2.1 := by
  intro r
  have choice : r = if c.1 < b.1 ∨ (c.1 = b.1 ∧ c.2 < b.2.1) then (c.1, c.2, BitVec.ofNat 32 c.2) else b :=
    if_congr (by simp) rfl rfl
  rw [choice]
  unfold notLater
  split <;> dsimp only
  · exact ⟨by omega, by omega, .inr rfl, rfl⟩
  · exact ⟨by omega, by omega, .inl rfl, own⟩

theorem notLater.trans {a b c : Nat × Nat} (x : notLater a b) (y : notLater b c) : notLater a c := by
  unfold notLater at *
  omega

/-- The fold over the causes ends with the first of them. -/
theorem earlierCause_fold (l : List (Nat × Nat)) (b : Nat × Nat × BitVec 32) (own : b.2.2 = BitVec.ofNat 32 b.2.1) :
    let r := l.foldl earlierCause b
    notLater (r.1, r.2.1) (b.1, b.2.1) ∧ (∀ c ∈ l, notLater (r.1, r.2.1) c) ∧
      ((r.1, r.2.1) = (b.1, b.2.1) ∨ (r.1, r.2.1) ∈ l) ∧ r.2.2 = BitVec.ofNat 32 r.2.1 := by
  induction l generalizing b with
  | nil => exact ⟨.inr ⟨rfl, le_rfl⟩, fun c mem => absurd mem List.not_mem_nil, .inl rfl, own⟩
  | cons c l ih =>
    obtain ⟨before, first, which, own'⟩ := earlierCause_spec b c own
    obtain ⟨before', all, which', own''⟩ := ih (earlierCause b c) own'
    refine ⟨before'.trans before, fun k mem => ?_, ?_, own''⟩
    · rcases List.mem_cons.mp mem with rfl | mem
      · exact before'.trans first
      · exact all k mem
    · rcases which' with same | mem
      · rw [List.foldl_cons, same]
        refine which.imp_right fun e => ?_
        rw [e]
        exact List.mem_cons_self
      · exact .inr (List.mem_cons_of_mem _ mem)

theorem State.firstCause_eq (s : State) (p : Pack) (code : BitVec 32) :
    s.firstCause p code = ((s.packCauses p).foldl earlierCause (s.gtime, code.toNat % 256, code)).2.2 := rfl

/-- Where all causes have one code the pack aborts with it. -/
theorem State.firstCause_all {s : State} {p : Pack} {k : Nat} (small : k < 256) (all : ∀ c ∈ s.packCauses p, c.2 = k) :
    s.firstCause p (BitVec.ofNat 32 k) = BitVec.ofNat 32 k := by
  have byte : (BitVec.ofNat 32 k).toNat % 256 = k := by rw [BitVec.toNat_ofNat]; omega
  rw [State.firstCause_eq, byte]
  obtain ⟨-, -, which, own⟩ := earlierCause_fold (s.packCauses p) (s.gtime, k, BitVec.ofNat 32 k) rfl
  rw [own]
  rcases which with same | mem
  · exact congrArg (BitVec.ofNat 32) (Prod.ext_iff.mp same).2
  · exact congrArg (BitVec.ofNat 32) (all _ mem)

/-- The pack aborts with the code of the first cause, where one is due as early as the one that is reported. -/
theorem State.firstCause_first {s : State} {p : Pack} {k t0 n : Nat} (small : n < 256) (due : ∃ t1, t1 ≤ s.gtime ∧ (t1, n) ∈ s.packCauses p)
    (mem : (t0, k) ∈ s.packCauses p) (first : ∀ c ∈ s.packCauses p, t0 < c.1 ∨ (t0 = c.1 ∧ k ≤ c.2)) :
    s.firstCause p (BitVec.ofNat 32 n) = BitVec.ofNat 32 k := by
  have byte : (BitVec.ofNat 32 n).toNat % 256 = n := by rw [BitVec.toNat_ofNat]; omega
  obtain ⟨t1, now, reported⟩ := due
  rw [State.firstCause_eq, byte]
  obtain ⟨-, all, which, own⟩ := earlierCause_fold (s.packCauses p) (s.gtime, n, BitVec.ofNat 32 n) rfl
  have low := all _ mem
  have high : notLater (t0, k) (((s.packCauses p).foldl earlierCause (s.gtime, n, BitVec.ofNat 32 n)).1,
      ((s.packCauses p).foldl earlierCause (s.gtime, n, BitVec.ofNat 32 n)).2.1) := by
    rcases which with same | mem
    · rw [same]
      have early := first _ reported
      unfold notLater
      dsimp only at early ⊢
      omega
    · exact first _ mem
  rw [own]
  congr 1
  unfold notLater at low high
  dsimp only at low high
  omega

/-- The causes of a pack whose time is over, and of one whose die is lost. -/
theorem State.packCauses_expired {s : State} {p : Pack} (late : p.expired s.gtime = true) :
    (p.start + 1000 * p.lifetime + 1, 6) ∈ s.packCauses p := by
  simp [State.packCauses, late]

theorem State.packCauses_lost {s : State} {p : Pack} (lost : s.packDieLost p = true) : (s.gtime, 7) ∈ s.packCauses p := by
  simp [State.packCauses, lost]

theorem Pack.expired_iff {p : Pack} {now : Nat} : p.expired now = true ↔ 0 < p.entered ∧ p.start + 1000 * p.lifetime < now := by
  simp [Pack.expired]

/-! ## The bytes of a commit (R181, R248) -/

/-- No word is registered. -/
def Unowned (s : State) : Prop := ∀ w, s.ownerOf w = none

theorem State.recallRange_unowned {s : State} (free : Unowned s) (pa n : Nat) : s.recallRange pa n = s := by
  have one (t : State) (same : t = s) (w : Nat) : t.recall w = s := by
    subst same
    rw [State.recall, free w]
    rfl
  exact foldl_keeps (P := fun t : State => t = s) State.recall (fun t w same => one t same w) _ s rfl

/-- Who owns what is said by the tables of the homes. -/
theorem Unowned.congr {s t : State} (free : Unowned s) (tables : t.tables = s.tables) (repair : t.repair = s.repair) : Unowned t := by
  intro w
  have same : t.ownerOf w = s.ownerOf w := by
    unfold State.ownerOf State.table State.homeOf State.homeDie State.channel
    rw [tables, repair]
  exact same.trans (free w)

theorem State.homeWrite_unowned {s : State} (free : Unowned s) (pa : Nat) (bs : List Byte) :
    Unowned (s.homeWrite none pa bs) ∧ (s.homeWrite none pa bs).mem = s.mem.writeN pa bs := by
  refine ⟨free.congr ?_ (s.homeWrite_frame none pa bs).repair, by rw [State.homeWrite_mem, State.recallRange_unowned free]⟩
  unfold State.homeWrite
  rw [State.recallRange_unowned free]
  rfl

theorem State.devPut_unowned {s : State} (free : Unowned s) (pa : Nat) (bs : List Byte) : Unowned (s.devPut pa bs) := by
  refine free.congr ?_ (s.devPut_frame pa bs).repair
  unfold State.devPut
  split
  · unfold State.snoopFor State.sendSnoop
    split
    · rfl
    · split
      · split <;> rfl
      · rfl
  · rw [State.recallRange_unowned free]
    rfl

theorem State.setPack_unowned {s : State} (free : Unowned s) (p : Pack) : Unowned (s.setPack p) :=
  (State.devPut_unowned free p.pa p.bytes).congr rfl rfl

/-- A byte of memory once some places have been written one after another: `claims` says which bytes a place writes, and every one
of them gets its value. -/
theorem foldl_writes {ι : Type} {f : State → ι → State} {P : State → Prop} {claims : ι → Nat → Prop} {value : Nat → Option Byte}
    (step : ∀ s i, P s → P (f s i) ∧ (∀ pa b, claims i pa → value pa = some b → (f s i).mem.read pa = b) ∧
      ∀ pa, (¬ claims i pa ∨ value pa = none) → (f s i).mem.read pa = s.mem.read pa) (l : List ι) :
    ∀ s, P s → P (l.foldl f s) ∧ (∀ pa b, value pa = some b → ((∃ i ∈ l, claims i pa) ∨ s.mem.read pa = b) →
      (l.foldl f s).mem.read pa = b) ∧
      ∀ pa, (value pa = none ∨ ∀ i ∈ l, ¬ claims i pa) → (l.foldl f s).mem.read pa = s.mem.read pa := by
  induction l with
  | nil => exact fun s holds => ⟨holds, fun pa b _ there => there.resolve_left (by simp), fun _ _ => rfl⟩
  | cons i l ih =>
    intro s holds
    obtain ⟨next, writes, leaves⟩ := step s i holds
    obtain ⟨last, all, others⟩ := ih (f s i) next
    refine ⟨last, fun pa b here there => all pa b here ?_, fun pa away => ?_⟩
    · by_cases mine : claims i pa
      · exact .inr (writes pa b mine here)
      · refine there.imp (fun ⟨j, mem, at_⟩ => ?_) fun old => (leaves pa (.inl mine)).trans old
        exact ⟨j, (List.mem_cons.mp mem).resolve_left fun e => mine (e ▸ at_), at_⟩
    · refine (others pa (away.imp_right fun all j mem => all j (List.mem_cons_of_mem _ mem))).trans (leaves pa ?_)
      exact away.symm.imp_left fun all => all i List.mem_cons_self

/-- What a commit of packs needs of the state that it writes in. -/
def Committing (s : State) : Prop := Unowned s ∧ s.mem.wf = true

theorem Committing.homeWrite {s : State} (ok : Committing s) (pa : Nat) (bs : List Byte) :
    Committing (s.homeWrite none pa bs) ∧ ∀ q, (s.homeWrite none pa bs).mem.read q =
      if pa ≤ q ∧ q < pa + bs.length then bs.getD (q - pa) 0 else s.mem.read q := by
  obtain ⟨free, wf⟩ := ok
  obtain ⟨free', mem⟩ := State.homeWrite_unowned free pa bs
  exact ⟨⟨free', (s.homeWrite_frame none pa bs).wf wf⟩, fun q => by rw [mem, Memory.read_writeN wf]⟩

/-- One byte of a word that the pack has not written whole. -/
def Pack.commitByte (p : Pack) (w : Nat) (u : State) (i : Nat) : State := match p.tentAt (4 * w + i) with
  | some b => u.homeWrite none (4 * w + i) [b]
  | none => u

/-- One word of a commit. -/
def Pack.commitWord (p : Pack) (t : State) (w : Nat) : State :=
  if ((List.range 4).map fun i => p.tentAt (4 * w + i)).all fun b => b.isSome then
    t.homeWrite none (4 * w) (((List.range 4).map fun i => p.tentAt (4 * w + i)).map fun b => b.getD 0)
  else (List.range 4).foldl (p.commitByte w) t

theorem State.commitBytes_eq (s : State) (p : Pack) :
    s.commitBytes p = ((p.tent.map fun c => c.1 / 4).dedup).foldl p.commitWord s := rfl

theorem Pack.commitByte_step (p : Pack) (w : Nat) (s : State) (i : Nat) (ok : Committing s) :
    Committing (p.commitByte w s i) ∧
      (∀ pa b, pa = 4 * w + i → p.tentAt pa = some b → (p.commitByte w s i).mem.read pa = b) ∧
      ∀ pa, (¬ pa = 4 * w + i ∨ p.tentAt pa = none) → (p.commitByte w s i).mem.read pa = s.mem.read pa := by
  unfold Pack.commitByte
  cases here : p.tentAt (4 * w + i) with
  | none => exact ⟨ok, fun pa b at_ found => absurd (found.symm.trans (at_ ▸ here)) (by simp), fun _ _ => rfl⟩
  | some b =>
    obtain ⟨ok', read⟩ := ok.homeWrite (4 * w + i) [b]
    refine ⟨ok', fun pa c at_ found => ?_, fun pa away => ?_⟩
    · rw [at_, here] at found
      cases found
      rw [read, at_, if_pos ⟨le_rfl, Nat.lt_succ_self _⟩, Nat.sub_self]
      rfl
    · refine (read pa).trans (if_neg fun inside => ?_)
      have at_ : pa = 4 * w + i := by
        have := inside.2
        rw [List.length_singleton] at this
        omega
      exact away.elim (· at_) fun none_ => absurd (here.symm.trans (at_ ▸ none_)) (by simp)

theorem Pack.commitWord_step (p : Pack) (s : State) (w : Nat) (ok : Committing s) :
    Committing (p.commitWord s w) ∧
      (∀ pa b, pa / 4 = w → p.tentAt pa = some b → (p.commitWord s w).mem.read pa = b) ∧
      ∀ pa, (¬ pa / 4 = w ∨ p.tentAt pa = none) → (p.commitWord s w).mem.read pa = s.mem.read pa := by
  unfold Pack.commitWord
  split
  · next whole =>
    obtain ⟨ok', read⟩ := ok.homeWrite (4 * w) (((List.range 4).map fun i => p.tentAt (4 * w + i)).map fun b => b.getD 0)
    rw [List.map_map] at read
    refine ⟨ok', fun pa b word found => ?_, fun pa away => ?_⟩
    · rw [List.map_map, read, if_pos (by rw [List.length_map, List.length_range]; omega)]
      have inside : pa - 4 * w < 4 := by omega
      simp [inside, show 4 * w + (pa - 4 * w) = pa by omega, found]
    · rw [List.map_map, read, if_neg]
      rw [List.length_map, List.length_range]
      intro inside
      refine away.elim (fun other => other (by omega)) fun none_ => ?_
      have present : (p.tentAt pa).isSome = true := List.all_eq_true.mp whole _
        (List.mem_map.mpr ⟨pa - 4 * w, List.mem_range.mpr (by omega), by rw [show 4 * w + (pa - 4 * w) = pa by omega]⟩)
      rw [none_] at present
      cases present
  · obtain ⟨ok', writes, leaves⟩ := foldl_writes (p.commitByte_step w) (List.range 4) s ok
    refine ⟨ok', fun pa b word found => writes pa b found (.inl ⟨pa - 4 * w, List.mem_range.mpr (by omega), by omega⟩),
      fun pa away => leaves pa ?_⟩
    refine away.symm.imp_right fun other i mem at_ => other ?_
    have small := List.mem_range.mp mem
    omega

theorem Pack.tentAt_mem {p : Pack} {pa : Nat} {b : Byte} (found : p.tentAt pa = some b) : ∃ c ∈ p.tent, c.1 = pa := by
  rw [Pack.tentAt, Option.map_eq_some_iff] at found
  obtain ⟨c, first, -⟩ := found
  exact ⟨c, List.mem_of_find?_eq_some first, beq_iff_eq.mp (List.find?_some (p := fun c : Nat × Byte => c.1 == pa) first)⟩

theorem Pack.mem_tentAt {p : Pack} {c : Nat × Byte} (mem : c ∈ p.tent) : ∃ b, p.tentAt c.1 = some b := by
  have some_ : (p.tent.find? fun k => k.1 == c.1).isSome := List.find?_isSome.mpr ⟨c, mem, beq_self_eq_true _⟩
  obtain ⟨k, found⟩ := Option.isSome_iff_exists.mp some_
  exact ⟨k.2, by rw [Pack.tentAt, found]; rfl⟩

/-- From the commit instant on, memory holds every tentative byte (R181). -/
theorem State.commitBytes_read {s : State} (ok : Committing s) (p : Pack) {pa : Nat} {b : Byte} (found : p.tentAt pa = some b) :
    (s.commitBytes p).mem.read pa = b := by
  obtain ⟨c, mem, at_⟩ := Pack.tentAt_mem found
  rw [State.commitBytes_eq]
  obtain ⟨-, writes, -⟩ := foldl_writes p.commitWord_step (p.tent.map fun c => c.1 / 4).dedup s ok
  exact writes pa b found (.inl ⟨pa / 4, List.mem_dedup.mpr (List.mem_map.mpr ⟨c, mem, by rw [at_]⟩), rfl⟩)

theorem State.commitBytes_frame (s : State) (p : Pack) : HomeFrame s (s.commitBytes p) := by
  rw [State.commitBytes_eq]
  refine HomeFrame.fold _ (fun t w => ?_) _ s
  unfold Pack.commitWord
  split
  · exact t.homeWrite_frame _ _ _
  · refine HomeFrame.fold _ (fun u i => ?_) _ t
    unfold Pack.commitByte
    split
    · exact u.homeWrite_frame _ _ _
    · exact .refl u

/-! ## PACK_COUNT_ARRIVAL (R248, R249) -/

/-- The pack with one more count. -/
def Pack.counted (p : Pack) : Pack := { p with committed := p.committed + 1 }

/-- The state in which the count of hart h has arrived. -/
def State.withCount (s : State) (h : Nat) (p : Pack) : State :=
  if p.counted.committed = p.counted.expected then
    ((s.modHart h fun x => x.setCount 2).setPack { p.counted with state := .committing }).commitBytes p.counted
  else (s.modHart h fun x => x.setCount 2).setPack p.counted

section
variable {s : State} {h : Nat} {m : Member} {p : Pack} (member : (s.hart h).pack = some m) (sent : m.count = 1)
  (live : m.restore = false) (found : s.pack? m.obj = some p) (open_ : p.state = .opened)
include member sent live found open_

theorem exec_countArrival_late (late : p.expired s.gtime = true) :
    exec (.packCountArrival h) s = event (s.abortPack m.obj 6) := by
  have step : s.countArrival h = some (s.abortPack m.obj 6) := by
    simp only [State.countArrival, member, sent, live, found, open_, late, ne_eq, not_true, decide_false, Bool.or_self,
      Bool.false_eq_true, if_false, if_true]
  show execPackCountArrival h s = _
  rw [execPackCountArrival, step]

theorem exec_countArrival (early : p.expired s.gtime = false)
    (free : ∀ pa b, p.tentAt pa = some b → s.pageHeld pa = false ∧ s.flipping pa = false ∧ s.hostLine pa 1 = none) :
    exec (.packCountArrival h) s = event (s.withCount h p) := by
  have held : ¬ (p.committed + 1 = p.expected ∧ (p.tent.any fun c => s.pageHeld c.1 || s.flipping c.1) = true) := by
    rintro ⟨-, some_⟩
    obtain ⟨c, mem, waits⟩ := List.any_eq_true.mp some_
    obtain ⟨b, at_⟩ := Pack.mem_tentAt mem
    obtain ⟨page, flip, -⟩ := free _ _ at_
    rw [page, flip] at waits
    cases waits
  have lines : (if p.committed + 1 = p.expected then p.tent.findSome? (fun c => s.hostLine c.1 1) else none) = none := by
    split
    · rw [List.findSome?_eq_none_iff]
      intro c mem
      obtain ⟨b, at_⟩ := Pack.mem_tentAt mem
      exact (free _ _ at_).2.2
    · rfl
  have going : ¬ (decide (m.count ≠ 1) || m.restore) = true := by
    rw [sent, live]
    decide
  have step : s.countArrival h = some (s.withCount h p) := by
    rw [State.countArrival, member]
    dsimp only
    rw [if_neg going, found]
    dsimp only
    rw [if_neg (not_not.mpr open_), if_neg (ne_true_of_eq_false early), if_neg held, lines]
    rfl
  show execPackCountArrival h s = _
  rw [execPackCountArrival, step]

end

theorem State.withCount_spec {s : State} {h : Nat} {m : Member} {p : Pack} (member : (s.hart h).pack = some m)
    (found : s.pack? m.obj = some p) : ((s.withCount h p).hart h).pack = some { m with count := 2 } ∧
      (s.withCount h p).pack? m.obj =
        some (if p.counted.committed = p.counted.expected then { p.counted with state := .committing } else p.counted) := by
  obtain ⟨mem, at_⟩ := State.pack?_mem found
  have told : ((s.modHart h fun x => x.setCount 2).hart h).pack = some { m with count := 2 } := by
    rw [State.modHart, State.hart_setHart, Hart.setCount, member]
    rfl
  have put (q : Pack) (same : q.pa = m.obj) : (((s.modHart h fun x => x.setCount 2).setPack q).hart h).pack = some { m with count := 2 } ∧
      ((s.modHart h fun x => x.setCount 2).setPack q).pack? m.obj = some q := by
    refine ⟨?_, ?_⟩
    · rw [State.hart, State.setPack_harts]
      exact told
    · rw [← same]
      exact State.setPack_pack? ⟨p, mem, at_.trans same.symm⟩
  unfold State.withCount
  split
  · obtain ⟨hart, stands⟩ := put { p.counted with state := .committing } at_
    have frame := ((s.modHart h fun x => x.setCount 2).setPack { p.counted with state := .committing }).commitBytes_frame p.counted
    exact ⟨by rw [frame.hart, hart], (State.pack?_congr frame.packs _).trans stands⟩
  · exact put p.counted at_

/-! ## PACK_FLIP and PACK_ABORT (R248, R249, R250) -/

/-- The state after the flip. -/
def State.flipped (s : State) (obj : Nat) (p : Pack) : State :=
  ({ p.members.foldl (fun (t : State) h => t.modHart h fun x => x.setCount 3) s with
      packs := (p.members.foldl (fun (t : State) h => t.modHart h fun x => x.setCount 3) s).packs.map fun (q : Pack) =>
        if q.pa == obj then { q with tent := [], reads := [] } else q } : State).cleanHolds

theorem exec_packFlip {s : State} {obj : Nat} {p : Pack} (found : s.pack? obj = some p) (committing : p.state = .committing)
    (waits : ∃ h ∈ p.members, ∃ m, (s.hart h).pack = some m ∧ m.count ≠ 3) : exec (.packFlip obj) s = event (s.flipped obj p) := by
  have some_ : ¬ (decide (p.state ≠ .committing) || p.members.all fun h => match (s.hart h).pack with
      | some m => m.count == 3
      | none => true) = true := by
    obtain ⟨h, mem, m, member, count⟩ := waits
    rw [committing]
    simp only [ne_eq, not_true, decide_false, Bool.false_or, List.all_eq_true]
    intro all
    have three := all h mem
    rw [member] at three
    exact count (beq_iff_eq.mp three)
  have step : s.packFlip obj = some (s.flipped obj p) := by
    rw [State.packFlip, found]
    exact if_neg some_
  show execPackFlip obj s = _
  rw [execPackFlip, step]

theorem find_map_same {l : List Pack} {obj : Nat} {p : Pack} (f : Pack → Pack) (same : ∀ q, (f q).pa = q.pa)
    (found : l.find? (fun q => q.pa == obj) = some p) : (l.map f).find? (fun q => q.pa == obj) = some (f p) := by
  rw [List.find?_map]
  have test : ((fun q : Pack => q.pa == obj) ∘ f) = fun q => q.pa == obj := funext fun q => by rw [Function.comp_apply, same]
  rw [test, found]
  rfl

theorem State.flipped_spec {s : State} {obj : Nat} {p : Pack} (found : s.pack? obj = some p) :
    (∀ h ∈ p.members, ∀ m, ((s.flipped obj p).hart h).pack = some m → m.count = 3) ∧
      (s.flipped obj p).pack? obj = some { p with tent := [], reads := [] } := by
  have told (x : Hart) (m : Member) (e : (x.setCount 3).pack = some m) : m.count = 3 := by
    obtain ⟨k, -, rfl⟩ := Option.map_eq_some_iff.mp e
    rfl
  refine ⟨fun h mem => ?_, ?_⟩
  · have same : (s.flipped obj p).hart h = (p.members.foldl (fun (t : State) h => t.modHart h fun x => x.setCount 3) s).hart h :=
      congrArg (fun l => getAt Hart.reset l h) (State.cleanHolds_harts _)
    rw [same]
    exact State.modHarts_pack _ (fun o => ∀ m, o = some m → m.count = 3) told p.members s h (.inl mem)
  · refine (State.pack?_congr (State.cleanHolds_packs _) obj).trans ?_
    have packs := State.modHarts_packs s (fun x => x.setCount 3) p.members
    have all := find_map_same (fun q : Pack => if q.pa == obj then { q with tent := [], reads := [] } else q)
      (fun q => by split <;> rfl) found
    rw [if_pos (beq_iff_eq.mpr (State.pack?_mem found).2), ← packs] at all
    exact all

theorem State.flipped_mem {s : State} {obj : Nat} {p : Pack} (none_ : s.heldPuts = []) : (s.flipped obj p).mem = s.mem := by
  have puts : (p.members.foldl (fun (t : State) h => t.modHart h fun x => x.setCount 3) s).heldPuts = [] ∧
      (p.members.foldl (fun (t : State) h => t.modHart h fun x => x.setCount 3) s).mem = s.mem :=
    foldl_keeps (P := fun t : State => t.heldPuts = [] ∧ t.mem = s.mem) (fun (t : State) h => t.modHart h fun x => x.setCount 3)
      (fun _ _ same => same) _ _ ⟨none_, rfl⟩
  unfold State.flipped State.cleanHolds
  simp only [puts.1]
  exact puts.2

theorem exec_packAbort {s : State} {obj code : Nat} {p : Pack} (found : s.pack? obj = some p) (open_ : p.state = .opened)
    (due : code = 6 ∧ p.expired s.gtime = true ∨ code = 7 ∧ s.packDieLost p = true) :
    exec (.packAbort obj code) s = event (s.abortPack obj (BitVec.ofNat 32 code)) := by
  have step : s.packAbort obj code = some (s.abortPack obj (BitVec.ofNat 32 code)) := by
    simp only [State.packAbort, found, open_, ne_eq, not_true, if_false]
    exact if_pos (by simpa using due)
  show execPackAbort obj code s = _
  rw [execPackAbort, step]

theorem exec_packLifetimeExpiry (obj : Nat) (s : State) (t : State) (step : exec (.packAbort obj 6) s = .next t) :
    exec (.packLifetimeExpiry obj) s = .next t := by
  have same : s.packAbort obj 6 = s.packAbort obj 6 := rfl
  show execPackLifetimeExpiry obj s = _
  have step : execPackAbort obj 6 s = .next t := step
  unfold execPackAbort at step
  unfold execPackLifetimeExpiry
  cases e : s.packAbort obj 6 with
  | none =>
    rw [e] at step
    cases step
  | some u =>
    rw [e] at step
    exact step

/-! ## MEMBER_RESTORE (R251, R252) -/

/-- Writing an element, or a stream's, leaves all but the vectors and the elements of a hart. -/
theorem VRun.put_shape (ru : VRun) (x : Hart) (r : Reg) (i e v : Nat) :
    ∃ vs vb di el, ru.put x r i e v = { x with v := vs, vbad := vb, dirty := di, elems := el } := by
  unfold VRun.put
  split
  · split <;> exact ⟨_, _, _, _, rfl⟩
  · exact ⟨_, _, _, _, rfl⟩

theorem VRun.writeLoaded_shape (ru : VRun) (v : VMem) (hi : Nat) (x : Hart) :
    ∃ vs vb di el, ru.writeLoaded v hi x = { x with v := vs, vbad := vb, dirty := di, elems := el } := by
  have all : ∃ vs vb di el, ru.staged.foldl
      (fun (y : Hart) p => if p.1 < hi then ru.put y v.d p.1 v.t.bytes p.2.toNat else y) x =
      { x with v := vs, vbad := vb, dirty := di, elems := el } := by
    refine foldl_keeps (P := fun y : Hart => ∃ vs vb di el, y = { x with v := vs, vbad := vb, dirty := di, elems := el }) _
      (fun y p kept => ?_) _ x ⟨_, _, _, _, rfl⟩
    obtain ⟨vs, vb, di, el, rfl⟩ := kept
    split
    · obtain ⟨vs', vb', di', el', e⟩ := ru.put_shape { x with v := vs, vbad := vb, dirty := di, elems := el } v.d p.1 v.t.bytes p.2.toNat
      exact ⟨vs', vb', di', el', e⟩
    · exact ⟨_, _, _, _, rfl⟩
  obtain ⟨vs, vb, di, el, e⟩ := all
  unfold VRun.writeLoaded
  rw [e]
  dsimp only
  split <;> exact ⟨_, _, _, _, rfl⟩

theorem Hart.stopLoad_shape (x : Hart) :
    ∃ vs vb di el, x.stopLoad = { x with v := vs, vbad := vb, dirty := di, elems := el } := by
  unfold Hart.stopLoad
  split
  · next ru _ =>
    split
    · exact ru.writeLoaded_shape _ _ _
    · exact ⟨_, _, _, _, rfl⟩
  · exact ⟨_, _, _, _, rfl⟩

theorem Hart.stopLoad_other {x : Hart} (noLoad : ∀ ru, x.run = some ru → ∀ v, ru.e.instr ≠ .vld v) : x.stopLoad = x := by
  unfold Hart.stopLoad
  split
  · next ru run =>
    split
    · next v load => exact absurd load (noLoad ru run v)
    · rfl
  · rfl

theorem Hart.stopLoad_load {x : Hart} {ru : VRun} {v : VMem} (run : x.run = some ru) (load : ru.e.instr = .vld v) :
    x.stopLoad = ru.writeLoaded v (ru.loadStop x) x := by
  unfold Hart.stopLoad
  simp only [run, load]

/-- The hart that has taken its checkpoint back. -/
theorem Hart.restoreCkpt_spec (x : Hart) (m : Member) : (x.restoreCkpt m).pc = m.handler ∧ (x.restoreCkpt m).s = m.ckpt ∧
    (x.restoreCkpt m).pack = none ∧ (x.restoreCkpt m).wait = none ∧ (x.restoreCkpt m).vl = x.vl ∧
    (x.restoreCkpt m).fflags = x.rolledFlags ∧ (x.restoreCkpt m).v = x.v ∧ (x.restoreCkpt m).tents = [] := by
  obtain ⟨sb, tl, land, es, -, shape⟩ := x.flushQueue_regs
  unfold Hart.restoreCkpt
  rw [shape]
  exact ⟨rfl, rfl, rfl, rfl, rfl, rfl, rfl, rfl⟩

section
variable {s : State} {h : Nat} {m : Member} (member : (s.hart h).pack = some m)
include member

theorem exec_memberRestore (restore : m.restore = true) (live : m.trapped = false) (noValue : (s.hart h).awaitsValue = false)
    (noPair : (s.hart h).runsPair = false) (boundary : (s.hart h).groupBoundary = true) :
    ∃ t, exec (.memberRestore h) s = .next t ∧
      t.hart h = { (s.hart h).stopLoad.restoreCkpt m with progress := s.gtime } := by
  have going : ¬ (!m.restore || m.trapped || (s.hart h).awaitsValue || (s.hart h).runsPair || !(s.hart h).canStop) = true := by
    have stop : (s.hart h).canStop = true := by
      rw [Hart.canStop, boundary]
      exact Bool.true_or _
    rw [restore, live, noValue, noPair, stop]
    decide
  have step : s.memberRestore h = some (((s.leaveWaits h).setHart h
      { (s.hart h).stopLoad.restoreCkpt m with progress := s.gtime }).packLeave m.obj h) := by
    rw [State.memberRestore, member]
    exact if_neg going
  have exec_ : exec (.memberRestore h) s = event (((s.leaveWaits h).setHart h
      { (s.hart h).stopLoad.restoreCkpt m with progress := s.gtime }).packLeave m.obj h) := by
    show execMemberRestore h s = _
    rw [execMemberRestore, step]
  refine ⟨_, exec_, ?_⟩
  generalize ({ (s.hart h).stopLoad.restoreCkpt m with progress := s.gtime } : Hart) = y
  obtain ⟨harts, -⟩ := ((s.leaveWaits h).setHart h y).packLeave_harts m.obj h
  exact (congrArg (fun l => getAt Hart.reset l h) harts).trans (State.hart_setHart _ _ _)

/-! ## TENTATIVE_STORE_ARRIVAL (R245 to R247) -/

/-- The state in which a member's oldest store has left it. -/
def State.sentTent (u : State) (h : Nat) (rest : List TentStore) : State := u.modHart h fun y => { y with tents := rest }

variable {e : TentStore} {rest : List TentStore} (queue : (s.hart h).tents = e :: rest)
include queue

theorem exec_tentArrival_dropped (restore : m.restore = true) :
    exec (.tentativeStoreArrival h) s = event (s.sentTent h rest) := by
  have step : s.tentArrival h = some (s.sentTent h rest) := by
    simp only [State.tentArrival, queue, member]
    exact if_pos restore
  show execTentativeStoreArrival h s = _
  rw [execTentativeStoreArrival, step]

theorem exec_tentArrival (live : m.restore = false) (free : (s.pageHeld e.pa || s.flipping e.pa || s.hostBias e.pa) = false)
    {u : State} {old : List Byte} (access : s.memberAccess m.obj e.pa e.data.length (some fun _ => e.data) = .done u old) :
    exec (.tentativeStoreArrival h) s = event (u.sentTent h rest) := by
  obtain ⟨home, host⟩ := Bool.or_eq_false_iff.mp free
  have step : s.tentArrival h = some (u.sentTent h rest) := by
    simp only [State.tentArrival, queue, member, live, home, host, access, Bool.false_and, Bool.false_eq_true, if_false]
    rfl
  show execTentativeStoreArrival h s = _
  rw [execTentativeStoreArrival, step]

end

theorem Pack.putTents_pa (p : Pack) (pa : Nat) (bs : List Byte) (l : List Nat) :
    (l.foldl (fun (q : Pack) i => q.putTent (pa + i) (getAt 0 bs i)) p).pa = p.pa :=
  foldl_keeps (P := fun q : Pack => q.pa = p.pa) (fun (q : Pack) i => q.putTent (pa + i) (getAt 0 bs i)) (fun _ _ same => same) _ _ rfl

/-- A store of a member that meets no other pack and stays within the limits joins the write set of the only pack. -/
theorem State.memberAccess_joins {s : State} {obj pa : Nat} {p : Pack} {bs : List Byte} (found : s.pack? obj = some p)
    (open_ : p.state = .opened) (rivals : s.packRivals p true pa bs.length = []) (only : s.packs = [p]) {q : Pack}
    (joined : q = (List.range bs.length).foldl (fun (q : Pack) i => q.putTent (pa + i) (getAt 0 bs i)) p)
    (lines : q.lines.length ≤ 32768) (directory : ({ s with packs := [q] } : State).directoryUse (s.homeDie pa) ≤ 65536) :
    ∃ u old, s.memberAccess obj pa bs.length (some fun _ => bs) = .done u old ∧ u.packs = [q] ∧ u.harts = s.harts := by
  have same : q.pa = p.pa := by rw [joined]; exact p.putTents_pa pa bs _
  have packs : (s.packs.map fun (r : Pack) => if r.pa == q.pa then q else r) = [q] := by
    rw [only, List.map_singleton, same, if_pos (beq_self_eq_true _)]
  have within : ¬ (decide (Config.packLines < q.lines.length) ||
      decide (Config.packDirectory < ({ s with packs := [q] } : State).directoryUse (s.homeDie pa))) = true := by
    have few : decide (Config.packLines < q.lines.length) = false := decide_eq_false (Nat.not_lt.mpr lines)
    have room : decide (Config.packDirectory < ({ s with packs := [q] } : State).directoryUse (s.homeDie pa)) = false :=
      decide_eq_false (Nat.not_lt.mpr directory)
    rw [few, room]
    decide
  let t : State := { s with packs := [q] }
  have home := t.recallRange_frame pa bs.length
  refine ⟨(t.recallRange pa bs.length).happen, s.memberBytes p pa bs.length, ?_, home.packs, home.harts⟩
  have opened : ¬ (p.state != .opened) = true := by rw [open_]; decide
  unfold State.memberAccess
  rw [found]
  dsimp only
  rw [if_neg opened, show (some fun _ : List Byte => bs).isSome = true from rfl, rivals]
  simp only [List.map_nil, List.foldl_nil, List.any_nil, Bool.false_eq_true, if_false, found, ← joined, packs, if_neg within, if_true]
  rfl

/-! ## NONMEMBER_HOLD_EXPIRY (R247) -/

/-- The pack at `p.pa` is as it was, with nothing but held writes due against it, or it has aborted with code 2. -/
def HoldAborts (p : Pack) (u : State) : Prop :=
  (u.pack? p.pa = some p ∧ p.expired u.gtime = false ∧ u.packDieLost p = false) ∨
    ∃ q, u.pack? p.pa = some q ∧ q.state = .aborting ∧ q.code = 2

theorem State.packCauses_holds {s : State} {p : Pack} (early : p.expired s.gtime = false) (whole : s.packDieLost p = false) :
    ∀ c ∈ s.packCauses p, c.2 = 2 := by
  intro c mem
  simp only [State.packCauses, early, whole, Bool.false_eq_true, if_false, List.append_nil, List.mem_filterMap] at mem
  obtain ⟨w, -, due⟩ := mem
  split at due
  · split at due
    · cases due
      rfl
    · cases due
  · cases due

theorem PackClock.packDieLost {s t : State} (clock : PackClock s t) (p : Pack) : t.packDieLost p = s.packDieLost p := by
  obtain ⟨-, repair, dies⟩ := clock
  have lost (d : Nat) : (t.die d).lost = (s.die d).lost := (congrArg Die.lost (dies d) :)
  have home (pa : Nat) : t.homeDie pa = s.homeDie pa := by rw [State.homeDie, State.channel, repair]; rfl
  unfold State.packDieLost
  simp only [lost, home]

theorem HoldAborts.step {p : Pack} {u : State} (kept : HoldAborts p u) (open_ : p.state = .opened) (members : p.members ≠ [])
    (pa : Nat) : HoldAborts p (u.abortPack pa 2) ∧ (pa = p.pa → ∃ q, (u.abortPack pa 2).pack? p.pa = some q ∧ q.state = .aborting ∧
      q.code = 2) := by
  obtain ⟨clock, others⟩ := u.abortPack_others pa 2
  rcases kept with ⟨stands, early, whole⟩ | ⟨q, stands, aborting, code⟩
  · by_cases mine : pa = p.pa
    · have aborts := State.abortPack_open stands open_ members 2
      have cause : u.firstCause p 2 = 2 := State.firstCause_all (k := 2) (by decide) (State.packCauses_holds early whole)
      rw [cause] at aborts
      have done : ∃ q, (u.abortPack pa 2).pack? p.pa = some q ∧ q.state = .aborting ∧ q.code = 2 :=
        ⟨p.aborting 2 u.gtime, by rw [mine]; exact aborts, rfl, rfl⟩
      exact ⟨.inr done, fun _ => done⟩
    · refine ⟨.inl ⟨(others p.pa fun e => mine e.symm).trans stands, ?_, ?_⟩, fun e => absurd e mine⟩
      · rw [clock.1]
        exact early
      · rw [clock.packDieLost]
        exact whole
  · have done : ∃ q, (u.abortPack pa 2).pack? p.pa = some q ∧ q.state = .aborting ∧ q.code = 2 := by
      by_cases mine : pa = p.pa
      · have same : u.abortPack p.pa 2 = u := code ▸ State.abortPack_again stands aborting
        rw [mine, same]
        exact ⟨q, stands, aborting, code⟩
      · exact ⟨q, (others p.pa fun e => mine e.symm).trans stands, aborting, code⟩
    exact ⟨.inr done, fun _ => done⟩

theorem HoldAborts.fold {p : Pack} (open_ : p.state = .opened) (members : p.members ≠ []) (l : List Pack) {u : State}
    (kept : HoldAborts p u) (here : p ∈ l) : ∃ q, (l.foldl (fun (u : State) (p : Pack) => u.abortPack p.pa 2) u).pack? p.pa = some q ∧
      q.state = .aborting ∧ q.code = 2 := by
  have later (l : List Pack) (u : State) (done : ∃ q, u.pack? p.pa = some q ∧ q.state = .aborting ∧ q.code = 2) :
      ∃ q, (l.foldl (fun (u : State) (p : Pack) => u.abortPack p.pa 2) u).pack? p.pa = some q ∧ q.state = .aborting ∧ q.code = 2 := by
    refine foldl_keeps (P := fun u : State => ∃ q, u.pack? p.pa = some q ∧ q.state = .aborting ∧ q.code = 2) _
      (fun u k done => ?_) l u done
    obtain ⟨kept, mine⟩ := HoldAborts.step (.inr done) open_ members k.pa
    by_cases same : k.pa = p.pa
    · exact mine same
    · obtain ⟨q, stands, rest⟩ := done
      exact ⟨q, ((u.abortPack_others k.pa 2).2 p.pa fun e => same e.symm).trans stands, rest⟩
  induction l generalizing u with
  | nil => exact absurd here List.not_mem_nil
  | cons k l ih =>
    obtain ⟨kept', mine⟩ := kept.step open_ members k.pa
    rcases List.mem_cons.mp here with rfl | mem
    · exact later l _ (mine rfl)
    · exact ih kept' mem

theorem exec_holdExpiry {s : State} {k t0 : Nat} {ws : List (Nat × Nat)} (held : s.heldWrites[k]? = some (ws, some t0))
    (old : t0 + 2000 ≤ s.gtime) {packs : List Pack}
    (holders : packs = s.packs.filter fun p => p.state == .opened && ws.any fun w => p.holds w.1 w.2) (some_ : packs ≠ []) :
    exec (.nonmemberHoldExpiry k) s = event (packs.foldl (fun (u : State) (p : Pack) => u.abortPack p.pa 2) s) := by
  have going : ¬ (decide (s.gtime < t0 + 2000) || packs.isEmpty) = true := by
    rw [decide_eq_false (Nat.not_lt.mpr old), Bool.false_or]
    exact mt List.isEmpty_iff.mp some_
  have step : s.holdExpiry k = some (packs.foldl (fun (u : State) (p : Pack) => u.abortPack p.pa 2) s) := by
    subst holders
    rw [State.holdExpiry, held]
    exact if_neg going
  show execNonmemberHoldExpiry k s = _
  rw [execNonmemberHoldExpiry, step]

/-- Settles O39. -/
theorem packSteps : Obligations.PackSteps := by
  refine ⟨fun s h m p member sent live found open_ => ⟨fun early free => ?arrives, fun entered late members causes => ?late⟩,
    fun s n p found => ?homes, fun s h m member restore live noValue noPair boundary => ?restores,
    fun s h m e rest queue member restore => ?dropped, fun s h m p e rest queue member live free found open_ rivals only => ?joins,
    fun s k t0 ws heldWrite old => ?expires⟩
  case arrives =>
    have young : p.expired s.gtime = false := Bool.eq_false_iff.mpr fun late => by
      have := (Pack.expired_iff.mp late).2
      omega
    obtain ⟨hart, stands⟩ := State.withCount_spec member found
    refine ⟨_, exec_countArrival member sent live found open_ young free, hart, ?_, fun last wf unowned pa b at_ => ?_⟩
    · show ((s.withCount h p).pack? m.obj).map _ = _
      rw [stands]
      by_cases last : p.committed + 1 = p.expected
      · rw [if_pos last, if_pos (show p.counted.committed = p.counted.expected from last)]
        rfl
      · rw [if_neg last, if_neg (show ¬ p.counted.committed = p.counted.expected from last)]
        exact congrArg some (Prod.ext rfl open_)
    · show (s.withCount h p).mem.read pa = b
      rw [State.withCount, if_pos (show p.counted.committed = p.counted.expected from last)]
      have told : Unowned (s.modHart h fun x => x.setCount 2) := unowned
      refine State.commitBytes_read ⟨State.setPack_unowned told _, ?_⟩ p.counted at_
      exact ((s.modHart h fun x => x.setCount 2).devPut_frame p.pa _).wf wf
  case late =>
    have aborts := State.abortPack_open found open_ members 6
    rw [show s.firstCause p 6 = 6 from State.firstCause_all (k := 6) (by decide) causes] at aborts
    refine ⟨_, exec_countArrival_late member sent live found open_ (Pack.expired_iff.mpr ⟨entered, late⟩), ?_⟩
    exact congrArg (Option.map _) aborts
  case homes =>
    intro first
    refine ⟨fun committing waits => ?_, fun open_ entered late members => ?_, fun open_ lost die members => ?_⟩
    · obtain ⟨counts, stands⟩ := State.flipped_spec found
      exact ⟨_, exec_packFlip found committing waits, State.flipped_mem, counts, congrArg (Option.map _) stands⟩
    · have over_ := Pack.expired_iff.mpr ⟨entered, late⟩
      have step := exec_packAbort found open_ (.inl ⟨rfl, over_⟩)
      refine ⟨_, step, exec_packLifetimeExpiry n s _ step, fun t0 k ⟨mem, all⟩ => ?_, State.abortPack_members found open_ members 6⟩
      have aborts := State.abortPack_open found open_ members (BitVec.ofNat 32 6)
      rw [State.firstCause_first (by decide) ⟨_, late, State.packCauses_expired over_⟩ mem all] at aborts
      exact congrArg (Option.map _) aborts
    · have gone : s.packDieLost p = true := by
        rw [Nat.mod_eq_of_lt die] at lost
        exact List.any_eq_true.mpr ⟨p.die, List.mem_range.mpr die, by simp [lost]⟩
      refine ⟨_, exec_packAbort found open_ (.inr ⟨rfl, gone⟩), fun t0 k ⟨mem, all⟩ => ?_⟩
      have aborts := State.abortPack_open found open_ members (BitVec.ofNat 32 7)
      rw [State.firstCause_first (by decide) ⟨_, le_rfl, State.packCauses_lost gone⟩ mem all] at aborts
      exact congrArg (Option.map _) aborts
  case restores =>
    obtain ⟨t, step, hart⟩ := exec_memberRestore member restore live noValue noPair boundary
    obtain ⟨pc, regs, pack, wait, vl, flags, v, tents⟩ := (s.hart h).stopLoad.restoreCkpt_spec m
    obtain ⟨vs, vb, di, el, shape⟩ := (s.hart h).stopLoad_shape
    have same : (s.hart h).stopLoad.vl = (s.hart h).vl ∧ (s.hart h).stopLoad.rolledFlags = (s.hart h).rolledFlags := by
      rw [shape]
      exact ⟨rfl, rfl⟩
    refine ⟨t, step, ?_⟩
    rw [hart]
    refine ⟨pc, regs, pack, wait, vl.trans same.1, flags.trans same.2, fun noLoad => v.trans ?_, fun ru vm run load => v.trans ?_, tents⟩
    · rw [Hart.stopLoad_other noLoad]
    · rw [Hart.stopLoad_load run load]
  case dropped =>
    refine ⟨_, exec_tentArrival_dropped member queue restore, ?_, rfl, rfl⟩
    exact (congrArg Hart.tents (State.hart_setHart _ _ _) :)
  case joins =>
    intro q lines directory
    obtain ⟨u, old, access, packs, harts⟩ := State.memberAccess_joins found open_ rivals only (q := q) rfl lines directory
    refine ⟨_, exec_tentArrival member queue live free access, ?_, packs⟩
    exact (congrArg Hart.tents (State.hart_setHart _ _ _) :)
  case expires =>
    intro held some_
    obtain ⟨p0, mem0, open0, holds0⟩ := some_
    have holds (p : Pack) (mem : p ∈ s.packs) (h : held p) :
        p ∈ s.packs.filter fun p => p.state == .opened && ws.any fun w => p.holds w.1 w.2 := by
      obtain ⟨open_, at_⟩ := h
      exact List.mem_filter.mpr ⟨mem, by rw [open_, at_]; rfl⟩
    refine ⟨_, exec_holdExpiry heldWrite old rfl (List.ne_nil_of_mem (holds p0 mem0 ⟨open0, holds0⟩)), fun p mem h members stands causes => ?_⟩
    have young : p.expired s.gtime = false := Bool.eq_false_iff.mpr fun late =>
      absurd (causes _ (State.packCauses_expired late)) (by decide : (6 : Nat) ≠ 2)
    have whole : s.packDieLost p = false := Bool.eq_false_iff.mpr fun lost =>
      absurd (causes _ (State.packCauses_lost lost)) (by decide : (7 : Nat) ≠ 2)
    obtain ⟨q, at_, state, code⟩ := HoldAborts.fold h.1 members _ (.inl ⟨stands, young, whole⟩) (holds p mem h)
    refine (congrArg (Option.map _) at_).trans ?_
    exact congrArg some (Prod.ext state code)

end Sys2Proof.Machine

/-! PROOF of MarkedLoops: the mark that a LOOPMARK opens, the slot that a die frees, and what a hart takes back from its slot. -/

namespace Sys2Proof.Machine

/-! ## The checks of LOOPMARK (R220) -/

section
variable {s u : State} {a : Reg} {len : Nat}

theorem State.checkLoop_bad (bad : len = 0 ∨ 32 < len ∨ a = 0) : s.checkLoop a len = (s, some (1, s.me.iword)) := by
  unfold State.checkLoop
  exact if_pos (by simpa [or_assoc] using bad)

variable (some_ : 0 < len) (few : len ≤ 32) (reg : a ≠ 0)
include some_ few reg

theorem State.checkLoop_good : s.checkLoop a len =
    (match s.fetchWord s.cur (s.me.pc + BitVec.ofNat 64 (8 * (len + 1))) with
      | (t, .error c) => (t, some (c, s.me.pc + BitVec.ofNat 64 (8 * (len + 1))))
      | (t, .ok w) => match instrsOf w with
        | [.loopbr r disp] => if r = a && disp.toInt = -(len : Int) then (t, none) else (t, some (1, s.me.iword))
        | _ => (t, some (1, s.me.iword))) := by
  have good : ¬ (len = 0 || decide (32 < len) || a = 0) = true := by
    simp only [Bool.or_eq_true, decide_eq_true_eq]
    rintro ((none_ | many) | zero)
    · omega
    · omega
    · exact reg zero
  unfold State.checkLoop
  exact if_neg good

theorem State.checkLoop_fault {k : Nat}
    (fetched : s.fetchWord s.cur (s.me.pc + BitVec.ofNat 64 (8 * (len + 1))) = (u, .error k)) :
    s.checkLoop a len = (u, some (k, s.me.pc + BitVec.ofNat 64 (8 * (len + 1)))) := by
  rw [State.checkLoop_good some_ few reg, fetched]

variable {w : Word} (fetched : s.fetchWord s.cur (s.me.pc + BitVec.ofNat 64 (8 * (len + 1))) = (u, .ok w))
include fetched

theorem State.checkLoop_closing {disp : BitVec 38} (closing : instrsOf w = [.loopbr a disp]) (back : disp.toInt = -(len : Int)) :
    s.checkLoop a len = (u, none) := by
  rw [State.checkLoop_good some_ few reg, fetched]
  dsimp only
  rw [closing]
  exact if_pos (by simp [back])

theorem State.checkLoop_other (other : ∀ r (disp : BitVec 38), instrsOf w = [.loopbr r disp] → r ≠ a ∨ disp.toInt ≠ -(len : Int)) :
    s.checkLoop a len = (u, some (1, s.me.iword)) := by
  rw [State.checkLoop_good some_ few reg, fetched]
  dsimp only
  split
  · next r disp word =>
    refine if_neg fun same => ?_
    simp only [Bool.and_eq_true, decide_eq_true_eq] at same
    exact (other r disp word).elim (fun ne => ne same.1) fun ne => ne same.2
  · rfl

end

/-! ## The mark (R220) -/

/-- A mark with its state settled. -/
def Mark.settled (m m' : Mark) : Prop := m' = { m with state := m'.state, reason := m'.reason, opened := m'.opened }

/-- What R220 makes of a mark whose loop runs. -/
def State.markState (s : State) (m : Mark) : Mark :=
  if s.me.recording then { m with state := .core, reason := 23 }
  else if s.me.inRegion then { m with state := .core, reason := 25 }
  else if 2 ≤ s.flumes (coreOf s.cur) then { m with state := .core, reason := 20 }
  else { m with state := .recording, opened := true }

theorem State.markState_settled (s : State) (m : Mark) : m.settled (s.markState m) := by
  unfold Mark.settled State.markState
  split_ifs <;> rfl

theorem State.openMark_eq (s : State) (m : Mark) : s.openMark m = s.setHart s.cur { s.me with mark := s.markState m } := rfl

/-- The mark that stands behind LOOPMARK. -/
def State.startMark (s : State) (m : Mark) : Mark := if m.count = 0 then { m with state := .core, reason := 22 } else s.markState m

theorem State.startMark_settled (s : State) (m : Mark) : m.settled (s.startMark m) := by
  unfold State.startMark
  split
  · rfl
  · exact s.markState_settled m

theorem finish_startLoop {s v : State} (cur : v.cur = s.cur) (m : Mark) :
    finish s (v.startLoop m) = .next (if m.count = 0 then v.jumped { v.me with mark := v.startMark m } (m.brPc + 8)
      else v.done { v.me with mark := v.startMark m } 8) := by
  rw [finish_of_cur cur]
  unfold State.startLoop State.startMark
  split
  · exact finish_jump_setHart _ _
  · rw [State.openMark_eq]
    exact finish_setHart _ _ rfl

/-! ## LOOPMARK (R220) -/

section
variable {s u : State} {a : Reg} {len : BitVec 6}

/-- A check that fails is the trap of both forms. -/
theorem exec_loopmark_trap {c : Nat} {v : Word} (check : s.checkLoop a len.toNat = (u, some (c, v))) (cur : u.cur = s.cur)
    (idle : u.me.queueIdle = true) (b c' d : Reg) :
    exec (.loopmarkWait a len) s = .next (u.trapped c v) ∧ exec (.loopmarkAhead d a b c' len) s = .next (u.trapped c v) := by
  have trap : finish s (.trap u c v) = .next (u.trapped c v) := (finish_of_cur cur _).trans (finish_trapped u c v idle)
  refine ⟨?_, ?_⟩
  · show finish s (effLoopmarkWait a len s) = _
    rw [effLoopmarkWait, check]
    exact trap
  · show finish s (effLoopmarkAhead d a b c' len s) = _
    rw [effLoopmarkAhead, check]
    exact trap

variable (check : s.checkLoop a len.toNat = (u, none)) (frame : TrFrame s u)
include check frame

theorem exec_loopmarkWait : exec (.loopmarkWait a len) s =
    .next (if u.me.rd a = 0 then u.jumped { u.me with mark := u.startMark (newMark u.me false 0 a 0 0 len.toNat) }
        ((newMark u.me false 0 a 0 0 len.toNat).brPc + 8)
      else u.done { u.me with mark := u.startMark (newMark u.me false 0 a 0 0 len.toNat) } 8) := by
  show finish s (effLoopmarkWait a len s) = _
  rw [effLoopmarkWait, check]
  exact finish_startLoop frame.cur _

variable {b c d : Reg}

theorem exec_loopmarkAhead_misaligned (misaligned : (u.me.rd c).toNat % 64 ≠ 0) (idle : u.me.queueIdle = true) :
    exec (.loopmarkAhead d a b c len) s = .next (u.trapped 3 (u.me.rd c)) := by
  show finish s (effLoopmarkAhead d a b c len s) = _
  rw [effLoopmarkAhead, check]
  dsimp only
  rw [if_pos misaligned, finish_of_cur frame.cur]
  exact finish_trapped u _ _ idle

/-- The hart that has its tl2 number, with s[D] written. -/
def Hart.aheadNumbered (x : Hart) (d : Reg) : Hart := (x.takeNum 2).2.wr d (BitVec.ofNat 64 ((x.tline 2).issued + 1))

/-- The mark of LOOPMARK.ahead: its addresses are those of before s[D] is written, its count the one of after it (log 46). -/
def Hart.aheadMark (x : Hart) (d a b c : Reg) (len : Nat) : Mark :=
  { newMark x true ((x.tline 2).issued + 1) a b c len with count := (x.aheadNumbered d).rd a }

/-- What the hart notes of an AHEAD number. -/
def Mark.aheadNum (m : Mark) : AheadNum := { num := m.num, lo := m.mpc + 8, hi := m.brPc, exited := m.count == (0 : Word) }

/-- The hart that has noted its AHEAD number. -/
def Hart.aheadNoted (x : Hart) (d a b c : Reg) (len : Nat) : Hart :=
  { x.aheadNumbered d with aheads := (x.aheadNumbered d).aheads ++ [(x.aheadMark d a b c len).aheadNum] }

omit check frame in
/-- The count is read from the hart that has its number. -/
theorem State.startAhead (v : State) (z : Hart) (m : Mark) :
    (((v.setHart v.cur z).modHart (v.setHart v.cur z).cur fun y =>
        { y with aheads := y.aheads ++ [{ m with count := (v.setHart v.cur z).me.rd a }.aheadNum] }).startLoop
      { m with count := (v.setHart v.cur z).me.rd a }) =
      (v.setHart v.cur { z with aheads := z.aheads ++ [{ m with count := z.rd a }.aheadNum] }).startLoop { m with count := z.rd a } := by
  have put : (v.setHart v.cur z).me = z := v.hart_setHart v.cur z
  have noted (f : Hart → Hart) : (v.setHart v.cur z).modHart (v.setHart v.cur z).cur f = v.setHart v.cur (f z) := by
    show (v.setHart v.cur z).setHart v.cur (f (v.setHart v.cur z).me) = _
    rw [put, State.setHart_setHart]
  rw [noted, put]

omit frame in
theorem exec_loopmarkAhead {v : State} {pa : Nat} {k : BitVec 2} (aligned : (u.me.rd c).toNat % 64 = 0)
    (translated : u.translate (u.ctx u.cur) .store (u.me.rd c) = (v, .ok pa k)) :
    exec (.loopmarkAhead d a b c len) s =
      finish s ((v.setHart v.cur (v.me.aheadNoted d a b c len.toNat)).startLoop (v.me.aheadMark d a b c len.toNat)) := by
  show finish s (effLoopmarkAhead d a b c len s) = _
  rw [effLoopmarkAhead, check]
  dsimp only
  rw [if_neg (fun bad => bad aligned), translated]
  exact congrArg (finish s) (State.startAhead v (v.me.aheadNumbered d) (newMark v.me true ((v.me.tline 2).issued + 1) a b c len.toNat))

end

section
variable (x : Hart) (d a b c : Reg) (len : Nat)

theorem Hart.aheadNoted_tline : (x.aheadNoted d a b c len).tline 2 = (x.tline 2).take := by
  show (x.aheadNumbered d).tline 2 = _
  unfold Hart.aheadNumbered Hart.tline
  rw [Hart.wr_tl]
  exact getAt_putAt_self _ _ _ _

theorem Hart.aheadNoted_dest (some_ : d ≠ 0) : (x.aheadNoted d a b c len).rd d = BitVec.ofNat 64 ((x.tline 2).issued + 1) :=
  Hart.rd_wr_self _ _ _ some_

theorem Hart.aheadNoted_rd {r : Reg} (other : r ≠ d) : (x.aheadNoted d a b c len).rd r = x.rd r :=
  Hart.rd_wr_ne _ _ _ _ other.symm

theorem Hart.aheadNoted_pc : (x.aheadNoted d a b c len).pc = x.pc := Hart.wr_pc _ _ _

end

theorem State.jumped_hart_of (s : State) (x y : Hart) (pc : Word) :
    ((s.setHart s.cur x).jumped y pc).hart s.cur = { y with pc := pc, wait := none } := getAt_putAt_self _ _ _ _

theorem newMark_handler (x : Hart) (ahead : Bool) (num : Nat) (a b c : Reg) (len : Nat) :
    (newMark x ahead num a b c len).handler = x.rd b := by
  show (if b = 0 then 0 else x.rd b) = _
  split
  · next zero =>
    rw [zero]
    rfl
  · rfl

theorem newMark_brPc (x : Hart) (ahead : Bool) (num : Nat) (a b c : Reg) (len : Nat) :
    (newMark x ahead num a b c len).brPc = x.pc + BitVec.ofNat 64 (8 * (len + 1)) := rfl

theorem loopMarks : Claims.LoopMarks := by
  intro s u a b c d len
  dsimp only
  refine ⟨fun idle bad => exec_loopmark_trap (State.checkLoop_bad bad) rfl idle b c d, fun some_ few reg =>
    ⟨fun k fetched idle => ?fault, fun w fetched => ⟨fun idle other => ?other, fun disp closing back => ?good⟩⟩⟩
  case fault =>
    have frame := s.fetchWord_frame s.cur (s.me.pc + BitVec.ofNat 64 (8 * (len.toNat + 1)))
    rw [fetched] at frame
    exact exec_loopmark_trap (State.checkLoop_fault some_ few reg fetched) frame.cur (by rw [frame.me]; exact idle) b c d
  case other =>
    have frame := s.fetchWord_frame s.cur (s.me.pc + BitVec.ofNat 64 (8 * (len.toNat + 1)))
    rw [fetched] at frame
    exact exec_loopmark_trap (State.checkLoop_other some_ few reg fetched other) frame.cur (by rw [frame.me]; exact idle) b c d
  case good =>
    have frame := s.fetchWord_frame s.cur (s.me.pc + BitVec.ofNat 64 (8 * (len.toNat + 1)))
    rw [fetched] at frame
    have check := State.checkLoop_closing some_ few reg fetched closing back
    have wait := exec_loopmarkWait check frame
    have cur : u.cur = s.cur := frame.cur
    have pc : u.me.pc = s.me.pc := (congrArg Hart.pc frame.me :)
    have recording : u.me.recording = s.me.recording := (congrArg Hart.recording frame.me :)
    have inRegion : u.me.inRegion = s.me.inRegion := (congrArg Hart.inRegion frame.me :)
    refine ⟨fun zero => ?skips, fun some_ => ?opens, fun idle misaligned => ?misaligned, fun v pa k aligned translated => ?ahead⟩
    case skips =>
      have zero' : u.me.rd a = 0 := (frame.rd a).trans zero
      rw [if_pos zero', newMark_brPc, pc] at wait
      have mark : u.startMark (newMark u.me false 0 a 0 0 len.toNat) =
          { newMark u.me false 0 a 0 0 len.toNat with state := .core, reason := 22 } := if_pos zero'
      refine ⟨_, wait, ?_, ?_⟩
      · rw [mark]
      · rw [mark]
    case opens =>
      have some' : ¬ u.me.rd a = 0 := fun zero => some_ ((frame.rd a).symm.trans zero)
      rw [if_neg some'] at wait
      have mark : u.startMark (newMark u.me false 0 a 0 0 len.toNat) = u.markState (newMark u.me false 0 a 0 0 len.toNat) := if_neg some'
      have settled := u.markState_settled (newMark u.me false 0 a 0 0 len.toNat)
      rw [mark] at wait
      refine ⟨_, wait, ?_, ?_, ?_, ?_, ?_, fun r => ?_, fun r g => ?_, fun r g f => ?_, fun r g f => ?_⟩
      · rw [settled]; exact pc
      · rw [settled]; rfl
      · rw [settled]; rfl
      · rw [settled]; exact frame.rd a
      · rw [settled]; rfl
      · rw [State.markState, recording, r]
        exact ⟨rfl, rfl⟩
      · rw [State.markState, recording, inRegion, r, g]
        exact ⟨rfl, rfl⟩
      · rw [State.markState, recording, inRegion, r, g, cur]
        simp only [Bool.false_eq_true, if_false, if_pos f, and_self]
      · rw [State.markState, recording, inRegion, r, g, cur]
        simp only [Bool.false_eq_true, if_false, if_neg (Nat.not_le.mpr f), and_self]
    case misaligned =>
      rw [← frame.rd c] at misaligned ⊢
      exact exec_loopmarkAhead_misaligned check frame misaligned (by rw [frame.me]; exact idle)
    case ahead =>
      rw [← frame.rd c] at aligned
      have translated' : u.translate (u.ctx u.cur) .store (u.me.rd c) = (v, .ok pa k) := by rw [cur, frame.rd c]; exact translated
      have step := exec_loopmarkAhead (b := b) (d := d) check aligned translated'
      have walked := u.translate_frame (u.ctx u.cur) .store (u.me.rd c)
      rw [translated'] at walked
      have whole := frame.trans walked
      rw [finish_startLoop (v := v.setHart v.cur (v.me.aheadNoted d a b c len.toNat)) whole.cur] at step
      have put : (v.setHart v.cur (v.me.aheadNoted d a b c len.toNat)).me = v.me.aheadNoted d a b c len.toNat := v.hart_setHart v.cur _
      rw [put, State.done_eq, put, ← apply_ite (State.jumped _ _)] at step
      have settled := (v.setHart v.cur (v.me.aheadNoted d a b c len.toNat)).startMark_settled (v.me.aheadMark d a b c len.toNat)
      generalize (v.setHart v.cur (v.me.aheadNoted d a b c len.toNat)).startMark (v.me.aheadMark d a b c len.toNat) = mark at step settled
      have tline : v.me.tline 2 = s.me.tline 2 := (congrArg (fun x => Hart.tline x 2) whole.me :)
      refine ⟨_, step, rfl, ?_⟩
      rw [← whole.cur, State.jumped_hart_of]
      refine ⟨(v.me.aheadNoted_tline d a b c len.toNat).trans (congrArg Timeline.take tline),
        fun some_ => (v.me.aheadNoted_dest d a b c len.toNat some_).trans (by rw [tline]),
        fun r other => (v.me.aheadNoted_rd d a b c len.toNat other).trans (whole.rd r), ?_, ?_, ?_, ?_, ?_, ?_⟩
      · show mark.ahead = true
        rw [settled]
        rfl
      · show mark.num = _
        rw [settled, ← tline]
        rfl
      · show mark.lrec = _
        rw [settled]
        exact whole.rd c
      · show mark.handler = _
        rw [settled]
        exact (newMark_handler v.me true 0 a b c 0).trans (whole.rd b)
      · show mark.count = _
        rw [settled]
        rfl
      · have pc' : v.me.pc = s.me.pc := (congrArg Hart.pc whole.me :)
        have br : (v.me.aheadMark d a b c len.toNat).brPc = s.me.pc + BitVec.ofNat 64 (8 * (len.toNat + 1)) :=
          congrArg (· + BitVec.ofNat 64 (8 * (len.toNat + 1))) pc'
        show (if _ then _ else _) = _
        rw [Hart.aheadNoted_pc, br, pc']
        rfl

/-! ## What a hart takes back from its slot (R226, R229) -/

/-- The two harts are the same but for their registers and flags. -/
def OnlyRegs (x y : Hart) : Prop :=
  y = { x with s := y.s, sbad := y.sbad, v := y.v, vbad := y.vbad, dirty := y.dirty, m := y.m }

namespace OnlyRegs

theorem refl (x : Hart) : OnlyRegs x x := rfl

theorem trans {x y z : Hart} (a : OnlyRegs x y) (b : OnlyRegs y z) : OnlyRegs x z := by
  unfold OnlyRegs at *
  rw [b, a]

theorem wr (x : Hart) (r : Reg) (v : Word) : OnlyRegs x (x.wr r v) := by
  unfold Hart.wr
  split <;> rfl

theorem copyV (x f : Hart) (r : Nat) : OnlyRegs x (x.copyV f r) := by
  unfold Hart.copyV Hart.setMask
  split
  · rfl
  · split <;> rfl

theorem fold {α : Type} {f : Hart → α → Hart} (h : ∀ y k, OnlyRegs y (f y k)) (l : List α) (x : Hart) : OnlyRegs x (l.foldl f x) :=
  foldl_keeps (P := OnlyRegs x) f (fun y k kept => kept.trans (h y k)) l x (.refl x)

theorem mixV (now : Hart) (n : Nat) (l : List Nat) (x : Hart) : OnlyRegs x (Machine.mixV now n l x) := by
  induction l generalizing n x with
  | nil => exact .refl x
  | cons r l ih =>
    refine trans ?_ (ih (n + 1) _)
    split
    · exact copyV x now r
    · exact .refl x

theorem mixS (now : Hart) (n : Nat) (l : List Reg) (x : Hart) : OnlyRegs x (Machine.mixS now n l x) := by
  induction l generalizing n x with
  | nil => exact .refl x
  | cons r l ih =>
    refine trans ?_ (ih (n + 1) _)
    split
    · exact wr x r _
    · exact .refl x

end OnlyRegs

theorem Hart.copyV_s (x f : Hart) (r : Nat) : (x.copyV f r).s = x.s := by
  unfold Hart.copyV Hart.setMask
  split
  · rfl
  · split <;> rfl

/-- Registers written with the values that another hart holds read like there. -/
theorem Hart.rd_copied (now : Hart) (l : List Reg) (x : Hart) :
    ∀ r, r ∈ l ∨ x.rd r = now.rd r → (l.foldl (fun (y : Hart) r => y.wr r (now.rd r)) x).rd r = now.rd r := by
  induction l generalizing x with
  | nil => exact fun r there => there.resolve_left List.not_mem_nil
  | cons q l ih =>
    intro r there
    refine ih (x.wr q (now.rd q)) r ?_
    by_cases same : q = r
    · subst same
      refine .inr ?_
      by_cases zero : q = 0
      · subst zero
        rfl
      · exact Hart.rd_wr_self x q _ zero
    · rw [Hart.rd_wr_ne x q r _ same]
      exact there.imp_left fun mem => (List.mem_cons.mp mem).resolve_left fun e => same e.symm

/-- The hart with the carried registers of its slot. -/
def Slot.carriedBack (t : Slot) (fresh : Nat) (x : Hart) : Hart :=
  t.carriedV.foldl (fun (y : Hart) r => y.copyV t.now r) (t.carried.foldl (fun (y : Hart) r => y.wr r (t.now.rd r))
    (mixV t.now (fresh + (t.writesS.filter fun r => !t.carried.contains r).length) (t.writesV.filter fun r => !t.carriedV.contains r)
      (mixS t.now fresh (t.writesS.filter fun r => !t.carried.contains r) x)))

theorem Slot.handBack_eq (t : Slot) (fresh : Nat) (x : Hart) :
    t.handBack fresh x = { (t.carriedBack fresh x).orFlags t.now.fflags with wait := none } := rfl

theorem Slot.carriedBack_only (t : Slot) (fresh : Nat) (x : Hart) : OnlyRegs x (t.carriedBack fresh x) :=
  (((OnlyRegs.mixS _ _ _ _).trans (.mixV _ _ _ _)).trans (.fold (fun y r => .wr y r _) _ _)).trans (.fold (fun y r => .copyV y _ r) _ _)

theorem Slot.carriedBack_rd (t : Slot) (fresh : Nat) (x : Hart) {r : Reg} (carried : r ∈ t.carried) :
    (t.carriedBack fresh x).rd r = t.now.rd r := by
  unfold Slot.carriedBack
  generalize mixV t.now _ _ _ = y
  refine Eq.trans ?_ (Hart.rd_copied t.now t.carried y r (.inl carried))
  exact congrArg (fun l => if r = 0 then 0 else getAt 0 l r.toNat) <|
    foldl_keeps (P := fun y : Hart => y.s = _) (fun (y : Hart) r => y.copyV t.now r) (fun y r same => (y.copyV_s t.now r).trans same) _ _ rfl

/-- What R231 shows of a mark that ends with its slot. -/
theorem Hart.closeMark_mark {x : Hart} {t : Slot} (replay : x.mark.state = .replay) (num : x.mark.num = t.mark.num)
    (mpc : x.mark.mpc = t.mark.mpc) (st : MarkState) (reason k : Nat) :
    (x.closeMark t st reason k).mark = { x.mark with state := st, reason := reason, k := k, opened := false } := by
  unfold Hart.closeMark
  rw [if_pos (by rw [replay, num, mpc]; simp)]

theorem Hart.closeMark_rest (x : Hart) (t : Slot) (st : MarkState) (reason k : Nat) :
    x.closeMark t st reason k = { x with mark := (x.closeMark t st reason k).mark } := by
  unfold Hart.closeMark
  split <;> rfl

/-- What the statement says of a hart that takes its loop back. -/
def Slot.Resumes (t : Slot) (u v : State) (pc : Word) (st : MarkState) (reason : Nat) : Prop :=
  (v.hart t.hart).pc = pc ∧ (v.hart t.hart).wait = none ∧ (∀ r ∈ t.carried, (v.hart t.hart).rd r = t.now.rd r) ∧
  (v.hart t.hart).fflags = (u.hart t.hart).fflags ||| t.now.fflags ∧
  ((u.hart t.hart).mark.state = .replay → (u.hart t.hart).mark.num = t.mark.num → (u.hart t.hart).mark.mpc = t.mark.mpc →
    (v.hart t.hart).mark.state = st ∧ (v.hart t.hart).mark.reason = reason ∧ (v.hart t.hart).mark.k = t.k)

/-- The hart that takes its loop back. -/
def Slot.backHart (t : Slot) (fresh now : Nat) (st : MarkState) (reason : Nat) (pc : Word) (x : Hart) : Hart :=
  { (t.handBack fresh x.dropStrips).closeMark t st reason t.k with pc := pc, progress := now }

theorem State.waitBack_hart (s : State) (t : Slot) (st : MarkState) (reason : Nat) (pc : Word) :
    (s.waitBack t st reason pc).hart t.hart = t.backHart s.fresh s.gtime st reason pc (s.hart t.hart) := by
  refine (State.hart_setHart _ _ _).trans ?_
  have dropped : (s.acquireFor t.hart).hart t.hart = (s.hart t.hart).dropStrips := State.hart_setHart _ _ _
  rw [dropped]
  rfl

theorem State.waitBack_resumes (s : State) (t : Slot) (st : MarkState) (reason : Nat) (pc : Word) :
    t.Resumes s (s.waitBack t st reason pc) pc st reason := by
  have only := t.carriedBack_only s.fresh (s.hart t.hart).dropStrips
  have carried (r : Reg) (mem : r ∈ t.carried) := t.carriedBack_rd s.fresh (s.hart t.hart).dropStrips mem
  have back := t.handBack_eq s.fresh (s.hart t.hart).dropStrips
  unfold Slot.Resumes
  rw [State.waitBack_hart, Slot.backHart]
  generalize t.carriedBack s.fresh (s.hart t.hart).dropStrips = y at only carried back
  rw [back]
  have mark : y.mark = (s.hart t.hart).mark := (congrArg Hart.mark only :)
  have flags : y.fflags = (s.hart t.hart).fflags := (congrArg Hart.fflags only :)
  have rest := ({ y.orFlags t.now.fflags with wait := none } : Hart).closeMark_rest t st reason t.k
  refine ⟨rfl, ?_, fun r mem => ?_, ?_, fun replay num mpc => ?_⟩
  · exact (congrArg Hart.wait rest :)
  · exact ((congrArg (fun x => Hart.rd x r) rest :).trans (carried r mem))
  · exact (congrArg Hart.fflags rest :).trans (congrArg (· ||| t.now.fflags) flags)
  · have closed := Hart.closeMark_mark (x := { y.orFlags t.now.fflags with wait := none }) (t := t)
      ((congrArg Mark.state mark).trans replay) ((congrArg Mark.num mark).trans num) ((congrArg Mark.mpc mark).trans mpc) st reason t.k
    exact ⟨(congrArg Mark.state closed :), (congrArg Mark.reason closed :), (congrArg Mark.k closed :)⟩

/-! ## A slot that is free stays free until a loop takes it (R225, R230) -/

/-- Every slot that is free in the one state is free in the other. -/
def KeepsFree (s t : State) : Prop := ∀ d k, (s.die d).slot k = none → (t.die d).slot k = none

theorem noteSlots_free (skip : Option Nat) (pa n i k : Nat) (l : List (Option Slot)) (free : getAt none l k = none) :
    getAt none (noteSlots skip pa n i l) k = none := by
  induction l generalizing i k with
  | nil => rfl
  | cons t l ih =>
    cases k with
    | zero =>
      have none_ : t = none := free
      show (if skip = some i then t else t.map fun u => u.note pa n) = none
      rw [none_]
      exact ite_self _
    | succ k => exact ih (i + 1) k free

theorem noteDies_free (self : Option (Nat × Nat)) (pa n i d k : Nat) (l : List Die) (free : (getAt Die.reset l d).slot k = none) :
    (getAt Die.reset (noteDies self pa n i l) d).slot k = none := by
  induction l generalizing i d with
  | nil => exact free
  | cons x l ih =>
    cases d with
    | zero => exact noteSlots_free _ pa n 0 k x.slots free
    | succ d => exact ih (i + 1) d free

namespace KeepsFree

theorem refl (s : State) : KeepsFree s s := fun _ _ => id

theorem trans {s t u : State} (a : KeepsFree s t) (b : KeepsFree t u) : KeepsFree s u := fun d k free => b d k (a d k free)

theorem of_dies {s t : State} (e : t.dies = s.dies) : KeepsFree s t := fun d k free => by
  rw [State.die, e]
  exact free

theorem fold {α : Type} {s : State} {f : State → α → State} (h : ∀ u x, KeepsFree s u → KeepsFree s (f u x)) (l : List α)
    {t : State} (kept : KeepsFree s t) : KeepsFree s (l.foldl f t) :=
  foldl_keeps (P := KeepsFree s) f h l t kept

variable {s t : State} (kept : KeepsFree s t)
include kept

theorem modDie (d : Nat) (f : Die → Die) (slots : ∀ x, (f x).slots = x.slots) : KeepsFree s (t.modDie d f) := by
  refine kept.trans fun e k free => ?_
  by_cases same : d = e
  · subst same
    rw [State.die_modDie, Die.slot, slots]
    exact free
  · rw [State.modDie, State.die_setDie_ne _ _ _ _ same]
    exact free

theorem dies {u : State} (e : u.dies = t.dies) : KeepsFree s u := kept.trans (.of_dies e)

theorem happen : KeepsFree s t.happen := kept

theorem noteWrite (o : Option (Nat × Nat)) (pa n : Nat) : KeepsFree s (t.noteWrite o pa n) :=
  kept.trans fun d k free => noteDies_free o pa n 0 d k t.dies free

theorem writeBack (w : Nat) : KeepsFree s (t.writeBack w) := by
  unfold State.writeBack
  split
  · exact kept.dies rfl
  · exact kept

theorem recallEntry (pa : Nat) (e : RangeEntry) : KeepsFree s (t.recallEntry pa e) :=
  fold (fun _ w kept => kept.writeBack w) e.words kept

theorem makeRoom (pa n k : Nat) : KeepsFree s (t.makeRoom pa n k) := by
  induction k generalizing t with
  | zero => exact kept
  | succ k ih =>
    unfold State.makeRoom
    split
    · exact kept
    · split
      · exact kept
      · exact ih (kept.recallEntry _ _)

theorem recallWord (w : Nat) : KeepsFree s (t.recall w) := by
  unfold State.recall
  split
  · exact makeRoom (kept.writeBack w) _ _ _
  · exact kept

theorem recallRange (pa n : Nat) : KeepsFree s (t.recallRange pa n) := fold (fun _ w kept => kept.recallWord w) _ kept

theorem enterRange (r : RangeEntry) : KeepsFree s (t.enterRange r) := by
  unfold State.enterRange
  split
  · exact kept
  · exact kept.makeRoom _ _ _

theorem snoopFor (pa n : Nat) : KeepsFree s (t.snoopFor pa n) := by
  unfold State.snoopFor State.sendSnoop
  split
  · exact kept
  · split
    · split
      · exact kept
      · exact kept.dies rfl
    · exact kept

theorem devPut (pa : Nat) (bs : List Byte) : KeepsFree s (t.devPut pa bs) := by
  unfold State.devPut
  split
  · exact noteWrite (kept.snoopFor _ _) _ _ _
  · exact noteWrite (kept.recallRange _ _) _ _ _

theorem homeWrite (o : Option Owner) (pa : Nat) (bs : List Byte) : KeepsFree s (t.homeWrite o pa bs) := by
  unfold State.homeWrite
  have written : KeepsFree s ((t.recallRange pa bs.length).memPut pa bs) := kept.recallRange _ _
  cases o with
  | none => exact noteWrite written _ _ _
  | some o => exact noteWrite (fold (fun _ w kept => kept.enterRange _) _ written) _ _ _

theorem lookAt (pa n : Nat) : KeepsFree s (t.lookAt pa n) := by
  unfold State.lookAt
  split
  · exact kept
  · exact kept

theorem agentWrite (o : Option Owner) (pa : Nat) (bs : List Byte) : KeepsFree s (t.agentWrite o pa bs) := by
  unfold State.agentWrite
  split
  · exact kept
  · exact kept.homeWrite o pa bs

theorem levelPut (l : LevelRec) (off n v : Nat) : KeepsFree s (t.levelPut l off n v) := kept.agentWrite _ _ _

theorem markPte (acc : Acc) (a : Nat) (e : Word) : KeepsFree s (t.markPte acc a e).1 := by
  unfold State.markPte
  dsimp only
  generalize (e ||| 0x40#64 ||| if acc = Acc.store then 0x80#64 else 0#64) = e'
  split
  · exact kept
  · exact kept.agentWrite none a _

theorem probeAlias (d : Nat) (e : TlbEntry) : KeepsFree s (t.probeAlias d e) := by
  unfold State.probeAlias
  split
  · split
    · exact kept
    · exact kept
  · exact kept

theorem dropFirst (d : Nat) (p : TlbEntry → Bool) : KeepsFree s (t.dropFirst d p) := by
  refine fold (fun u c kept => ?_) _ kept
  split
  · exact kept.dies rfl
  · exact kept

theorem fillL2 (d : Nat) (e : TlbEntry) : KeepsFree s (t.fillL2 d e) := by
  unfold State.fillL2
  dsimp only
  have filled (f : Die → Die) (slots : ∀ x, (f x).slots = x.slots) := (kept.probeAlias d e).modDie d f slots
  split
  · exact filled _ fun _ => rfl
  · refine dropFirst (filled _ ?_) _ _
    exact fun _ => rfl

theorem walkFill (x : Ctx) (acc : Acc) (va : Nat) : KeepsFree s (t.walkFill x acc va).1 := by
  unfold State.walkFill
  split
  · exact kept
  · exact kept.lookAt _ _
  · split
    · exact kept
    · split
      · exact kept
      · rename_i a e _ _ _
        exact ((kept.markPte acc a e).fillL2 _ _).dies rfl

theorem translate (x : Ctx) (acc : Acc) (va : Word) : KeepsFree s (t.translate x acc va).1 := by
  unfold State.translate
  dsimp only
  split
  · exact kept
  · split
    · exact kept
    · split
      · split
        · exact kept
        · exact kept.walkFill _ _ _
      · split
        · split
          · exact kept.dies rfl
          · exact kept.walkFill _ _ _
        · exact kept.walkFill _ _ _

theorem levelAt (x : Ctx) (acc : Acc) (va : Word) : KeepsFree s (t.levelAt x acc va).1 := by
  unfold State.levelAt
  have translated := kept.translate x acc va
  split
  · exact kept
  · split <;> rename_i e <;> rw [e] at translated
    · split
      · exact translated
      · exact translated.lookAt _ _
    · exact translated

theorem levelAdd (x : Ctx) (va : Word) (k : Nat) : KeepsFree s (t.levelAdd x va k) := by
  unfold State.levelAdd
  have read := kept.levelAt x .store va
  split <;> rename_i e <;> rw [e] at read
  · exact read.levelPut _ _ _ _
  · exact read

theorem logDiscard (d level : Nat) (addr : Word) : KeepsFree s (t.logDiscard d level addr) := by
  unfold State.logDiscard State.logErr
  refine kept.modDie d _ fun x => ?_
  split <;> rfl

theorem spill (l : Level) (i : Nat) (r : TaskRec) : KeepsFree s (t.spill l i r) := by
  unfold State.spill
  split
  · exact kept.devPut _ _
  · exact kept

theorem push (d part : Nat) (q : QRec) : KeepsFree s (t.push d part q) := by
  unfold State.push State.pushAt
  dsimp only
  have placed (f : Die → Die) (slots : ∀ x, (f x).slots = x.slots) :=
    (kept.spill ((t.die d).level part q.rc.prio.toNat) ((t.die d).level part q.rc.prio.toNat).recs.length q.rc).modDie d f slots
  refine happen (placed _ ?_)
  exact fun _ => rfl

theorem endAhead (h n : Nat) (fl : BitVec 7) (task : Option Task) : KeepsFree s (t.endAhead h n fl task) := kept

theorem pushOrHold (d : Nat) (p : HeldPush) : KeepsFree s (t.pushOrHold d p) := by
  unfold State.pushOrHold
  split
  · exact kept.modDie d _ fun _ => rfl
  · dsimp only
    split
    · exact kept.push _ _ _
    · exact (kept.push _ _ _).endAhead _ _ _ _

theorem cancelLevel (l : LevelRec) (va : Word) (part st : Nat) (gang : Option Nat) : KeepsFree s (t.cancelLevel l va part st gang) := by
  unfold State.cancelLevel
  refine fold (fun u d kept => ?_) _ (levelPut (levelPut (kept.levelPut l 9 1 1) l 8 1 st) l 48 8 _)
  refine kept.modDie d _ ?_
  exact fun _ => rfl

theorem faultHandler (x : Ctx) (d part : Nat) (launch arg0 arg1 : Word) : KeepsFree s (t.faultHandler x d part launch arg0 arg1) := by
  unfold State.faultHandler
  have read := kept.levelAt x .store launch
  split
  · exact kept
  · split <;> rename_i e <;> rw [e] at read
    · exact read
    · split
      · exact (read.levelAdd x launch 1).pushOrHold d _
      · split
        · exact read.cancelLevel _ _ _ _ _
        · exact read

theorem lateFault (h part : Nat) (k : Option Task) (f : BoundaryFault) : KeepsFree s (t.lateFault h part k f) := by
  unfold State.lateFault
  split
  · exact kept
  · split
    · exact kept
    · split
      · exact kept
      · exact kept.faultHandler _ _ _ _ _ _

theorem writeLoopRec (l : Slot) (reason : Nat) : KeepsFree s (t.writeLoopRec l reason) := by
  unfold State.writeLoopRec
  have translated := kept.translate { core := l.core, priv := l.base.priv, satp := l.base.satp } .store l.mark.lrec
  split <;> rename_i e <;> rw [e] at translated
  · split
    · exact translated.logDiscard _ _ _
    · exact translated.agentWrite _ _ _
  · exact translated.logDiscard _ _ _

theorem aheadHandler (l : Slot) : KeepsFree s (t.aheadHandler l) := by
  unfold State.aheadHandler
  dsimp only
  split
  · exact kept.endAhead _ _ _ _
  · split
    · exact kept.endAhead _ _ _ _
    · split
      · exact (kept.lateFault _ _ _ _).endAhead _ _ _ _
      · split
        · exact kept.pushOrHold _ _
        · exact (kept.levelAdd _ _ _).pushOrHold _ _

end KeepsFree

/-- An iteration that departs leaves the hart of its slot. -/
theorem State.iterate_hart {s u : State} {t : Slot} {r : Nat} (departs : s.iterate t = .depart u r) : u.hart t.hart = s.hart t.hart := by
  have back (v : State) : ({ v with cur := s.cur }.setHart t.hart (s.hart t.hart)).hart t.hart = s.hart t.hart := State.hart_setHart _ _ _
  unfold State.iterate at departs
  dsimp only at departs
  split at departs
  · cases departs
    rfl
  · split at departs
    · cases departs
    · cases departs
      exact back _
    · split at departs
      · cases departs
        exact back _
      · split at departs
        · cases departs
          exact back _
        · cases departs

/-! ## The steps of a slot (R225 to R230) -/

/-- The state in which slot k of die d is free. -/
def State.slotFreed (s : State) (d k : Nat) : State := s.modDie d fun y => y.setSlot k none

theorem State.die_setSlot (s : State) (d k : Nat) (f : Die → Option Slot) :
    ((s.modDie d fun y => y.setSlot k (f y)).die d).slot k = f (s.die d) := by
  rw [State.die_modDie]
  exact getAt_putAt_self _ _ _ _

theorem State.slotFreed_slot (s : State) (d k : Nat) : ((s.slotFreed d k).die d).slot k = none := s.die_setSlot d k fun _ => none

section
variable {s u : State} {d k : Nat} {t : Slot} (slot : (s.die d).slot k = some t)
include slot

theorem exec_millraceIteration {it : Iter} (more : t.k < t.n) (iterates : s.iterate t = .ok u it)
    (free : ∀ e ∈ it.stores, u.sendBlocked e = false) :
    exec (.millraceIteration d k) s = event ((it.stores.foldl (fun (w : State) e => w.sendStore d k e) u).modDie d fun y =>
      y.setSlot k ((y.slot k).map fun t => { t with now := it.x, k := t.k + 1 })) := by
  have none_ : it.stores.find? (fun e => u.sendBlocked e) = none :=
    List.find?_eq_none.mpr fun e mem => by rw [free e mem]; decide
  have step : s.slotIteration d k = some ((it.stores.foldl (fun (w : State) e => w.sendStore d k e) u).modDie d fun y =>
      y.setSlot k ((y.slot k).map fun t => { t with now := it.x, k := t.k + 1 })) := by
    unfold State.slotIteration
    rw [slot]
    dsimp only
    rw [if_neg (Nat.not_le.mpr more), iterates]
    dsimp only
    rw [none_]
  show execMillraceIteration d k s = _
  rw [execMillraceIteration, step]

theorem exec_replayComplete (last : t.mark.count.toNat ≤ t.k) :
    exec (.replayComplete d k) s = event (if t.mark.ahead then
        ((s.slotFreed d k).modHart t.hart fun x => x.closeMark t .complete 0 t.k).endAhead t.hart t.mark.num t.now.fflags t.base.task
      else (s.slotFreed d k).waitBack t .complete 0 (t.mark.brPc + 8)) := by
  have step : s.replayDone d k = some (if t.mark.ahead then
        ((s.slotFreed d k).modHart t.hart fun x => x.closeMark t .complete 0 t.k).endAhead t.hart t.mark.num t.now.fflags t.base.task
      else (s.slotFreed d k).waitBack t .complete 0 (t.mark.brPc + 8)) := by
    unfold State.replayDone
    rw [slot]
    exact if_neg (Nat.not_lt.mpr last)
  show execReplayComplete d k s = _
  rw [execReplayComplete, step]

theorem exec_departure {r : Nat} (more : t.k < t.n) (departs : s.iterate t = .depart u r) :
    exec (.departure d k) s = event (u.leaveSlot d k t r) := by
  have step : s.departure d k = some (u.leaveSlot d k t r) := by
    unfold State.departure
    rw [slot]
    dsimp only
    rw [if_neg (Nat.not_le.mpr more), departs]
  show execDeparture d k s = _
  rw [execDeparture, step]

end

theorem State.leaveSlot_eq (u : State) (d k : Nat) (t : Slot) (r : Nat) : u.leaveSlot d k t r =
    if t.mark.ahead then
      (((u.slotFreed d k).modHart t.hart fun x => x.closeMark t .departed r t.k).writeLoopRec t r).aheadHandler t
    else (u.slotFreed d k).waitBack t .departed r (t.mark.mpc + 8) := rfl

theorem State.leaveSlot_free (u : State) (d k : Nat) (t : Slot) (r : Nat) : ((u.leaveSlot d k t r).die d).slot k = none := by
  rw [State.leaveSlot_eq]
  split
  · refine KeepsFree.aheadHandler (KeepsFree.writeLoopRec (KeepsFree.refl _) t r) t d k ?_
    exact u.slotFreed_slot d k
  · exact u.slotFreed_slot d k

/-- The end of an AHEAD number. -/
theorem State.endAhead_hart (s : State) (h n : Nat) (fl : BitVec 7) (task : Option Task) :
    ((s.endAhead h n fl task).hart h).tline 2 = ((s.hart h).tline 2).complete n ∧
      ((s.endAhead h n fl task).hart h).pc = (s.hart h).pc ∧ ((s.endAhead h n fl task).hart h).s = (s.hart h).s := by
  have flags : (s.modHart h fun x => if x.task = task then x.raiseFlags fl else x).hart h =
      if (s.hart h).task = task then (s.hart h).raiseFlags fl else s.hart h := State.hart_setHart _ _ _
  have hart : (s.endAhead h n fl task).hart h =
      ((s.modHart h fun x => if x.task = task then x.raiseFlags fl else x).hart h).setTline 2
        ((((s.modHart h fun x => if x.task = task then x.raiseFlags fl else x).hart h).tline 2).complete n) := State.hart_setHart _ _ _
  refine ⟨(State.complete_tline _ h 2 n).trans ?_, ?_, ?_⟩
  · rw [flags]
    split <;> rfl
  · rw [hart, flags]
    split <;> rfl
  · rw [hart, flags]
    split <;> rfl

theorem loopReplay : Claims.LoopReplay := by
  intro s d k t slot
  dsimp only
  refine ⟨fun u it more iterates free => ⟨_, exec_millraceIteration slot more iterates free, fun none_ same => ?_⟩,
    fun last => ⟨_, exec_replayComplete slot last, ?_, ?_, fun wait => ?_, fun ahead => ?_⟩,
    fun u r more departs => ⟨_, exec_departure slot more departs, u.leaveSlot_free d k t r, fun wait => ?_⟩⟩
  · rw [none_]
    refine ⟨(u.die_setSlot d k fun y => (y.slot k).map fun (t : Slot) => { t with now := it.x, k := t.k + 1 }).trans ?_, rfl⟩
    rw [same]
    rfl
  · split <;> exact s.slotFreed_slot d k
  · split <;> rfl
  · rw [wait]
    exact (s.slotFreed d k).waitBack_resumes t .complete 0 (t.mark.brPc + 8)
  · rw [ahead]
    obtain ⟨tline, pc, regs⟩ := ((s.slotFreed d k).modHart t.hart fun x => x.closeMark t .complete 0 t.k).endAhead_hart t.hart t.mark.num
      t.now.fflags t.base.task
    have closed : ((s.slotFreed d k).modHart t.hart fun x => x.closeMark t .complete 0 t.k).hart t.hart =
        (s.hart t.hart).closeMark t .complete 0 t.k := State.hart_setHart _ _ _
    rw [closed, Hart.closeMark_rest] at tline pc regs
    exact ⟨tline, pc, regs⟩
  · rw [State.leaveSlot_eq, wait]
    have hart := State.iterate_hart departs
    obtain ⟨pc, idle, regs, flags, mark⟩ := (u.slotFreed d k).waitBack_resumes t .departed r (t.mark.mpc + 8)
    rw [show (u.slotFreed d k).hart t.hart = s.hart t.hart from hart] at flags mark
    exact ⟨rfl, pc, idle, regs, flags, mark⟩

/-- Settles O40. -/
theorem markedLoops : Obligations.MarkedLoops := ⟨loopMarks, loopReplay⟩

end Sys2Proof.Machine

/-! PROOF of TranslationControl: the invalidation numbers of a die, the entries that an invalidation drops, and ASIDSW. -/

namespace Sys2Proof.Machine

/-! ## Invalidations (R197) -/

/-- What the invalidation timeline of a die becomes with one more invalidation. -/
def Die.invalidated (x : Die) (v : Inval) : Die := { x with invIssued := v.num, invals := x.invals ++ [v] }

section
variable {s : State} (sup : s.me.priv = .sup)
include sup

/-- The next number of the die's invalidation timeline is taken and written. -/
theorem finish_invalidate (d : Reg) (base len : Nat) (asid : Option (BitVec 16)) (all : Bool) :
    ∃ t, finish s (s.privOnly (s.invalidate d base len asid all)) = .next t ∧
      t.harts = (s.done (s.me.wr d (BitVec.ofNat 64 ((s.die (dieOf s.cur)).invIssued + 1))) 8).harts ∧ t.mem = s.mem ∧
      t.cores = s.cores ∧ t.die (dieOf s.cur) = (s.die (dieOf s.cur)).invalidated
        { num := (s.die (dieOf s.cur)).invIssued + 1, base := base, len := len, asid := asid, all := all } := by
  obtain ⟨next, harts⟩ := finish_modHart_harts (s := s) (t := s.modDie (dieOf s.cur) fun x => x.invalidated
    { num := (s.die (dieOf s.cur)).invIssued + 1, base := base, len := len, asid := asid, all := all }) rfl
    (fun x => x.wr d (BitVec.ofNat 64 ((s.die (dieOf s.cur)).invIssued + 1))) (Hart.wr_pc _ _ _)
  have die := s.die_modDie (dieOf s.cur) fun x => x.invalidated
    { num := (s.die (dieOf s.cur)).invIssued + 1, base := base, len := len, asid := asid, all := all }
  refine ⟨_, ?_, harts, rfl, rfl, die⟩
  rw [State.privOnly_sup sup]
  exact next

theorem finish_sup_trap {r : Res} {cause : Nat} {v : Word} (idle : s.me.queueIdle = true) (e : r = .trap s cause v) :
    finish s (s.privOnly r) = .next (s.trapped cause v) := by
  rw [State.privOnly_sup sup]
  exact finish_traps idle e

end

section
variable {s : State} {a b c d : Reg}

theorem effTlbinvVa_good (small : (s.me.rd c).toNat < 65536) (base : (s.me.rd a).toNat % 4096 = 0) (len : (s.me.rd b).toNat % 4096 = 0) :
    effTlbinvVa d a b c s = s.invalidate d (s.me.rd a).toNat (s.me.rd b).toNat (some ((s.me.rd c).setWidth 16)) false :=
  (if_neg (Nat.not_le.mpr small)).trans ((if_neg (not_not.mpr base)).trans (if_neg (not_not.mpr len)))

theorem effTlbinvAsid_good (small : (s.me.rd c).toNat < 65536) :
    effTlbinvAsid d c s = s.invalidate d 0 asidForm (some ((s.me.rd c).setWidth 16)) false := if_neg (Nat.not_le.mpr small)

theorem effTlbinvVa_base (small : (s.me.rd c).toNat < 65536) (base : (s.me.rd a).toNat % 4096 ≠ 0) :
    effTlbinvVa d a b c s = .trap s 3 (s.me.rd a) := (if_neg (Nat.not_le.mpr small)).trans (if_pos base)

theorem effTlbinvVa_len (small : (s.me.rd c).toNat < 65536) (base : (s.me.rd a).toNat % 4096 = 0)
    (len : (s.me.rd b).toNat % 4096 ≠ 0) : effTlbinvVa d a b c s = .trap s 3 (s.me.rd b) :=
  (if_neg (Nat.not_le.mpr small)).trans ((if_neg (not_not.mpr base)).trans (if_pos len))

theorem effTlbinvWait_unissued (beyond : (s.die (dieOf s.cur)).invIssued < (s.me.rd b).toNat) :
    effTlbinvWait d b s = .ok (s.result d (BitVec.ofNat 64 (s.die (dieOf s.cur)).invDone)) := if_pos beyond

theorem effTlbinvWait_reached (issued : (s.me.rd b).toNat ≤ (s.die (dieOf s.cur)).invIssued)
    (reached : (s.me.rd b).toNat ≤ (s.die (dieOf s.cur)).invDone) :
    effTlbinvWait d b s = .ok ((s.acquireFor s.cur).result d (BitVec.ofNat 64 (s.die (dieOf s.cur)).invDone)) :=
  (if_neg (Nat.not_lt.mpr issued)).trans (if_pos reached)

theorem effTlbinvWait_waits (issued : (s.me.rd b).toNat ≤ (s.die (dieOf s.cur)).invIssued)
    (ahead : (s.die (dieOf s.cur)).invDone < (s.me.rd b).toNat) : effTlbinvWait d b s = .stall s :=
  (if_neg (Nat.not_lt.mpr issued)).trans (if_neg (Nat.not_le.mpr ahead))

end

/-! ## ASIDSW (R196, R349) -/

section
variable {s : State} {d : Reg} {v : Word}

theorem satpOk_iff (h : Nat) (v : Word) : satpOk (isControl h) v = true ↔ field v 60 4 = 10 ∨ (field v 60 4 = 0 ∧ 1024 ≤ h) := by
  rw [satpOk, Bool.or_eq_true, Bool.and_eq_true, isControl, decide_eq_true_iff, decide_eq_true_iff, decide_eq_true_iff, and_comm]
  rfl

theorem effAsidsw_illegal (bad : s.me.streams ≠ [] ∨ ¬ (field v 60 4 = 10 ∨ (field v 60 4 = 0 ∧ 1024 ≤ s.cur))) :
    effAsidsw d v s = .trap s 1 s.me.iword := by
  refine if_pos ?_
  rw [← satpOk_iff] at bad
  simpa using bad

variable (none_ : s.me.streams = []) (mode : field v 60 4 = 10 ∨ (field v 60 4 = 0 ∧ 1024 ≤ s.cur))
include none_ mode

theorem asidsw_test : ¬ (!s.me.streams.isEmpty || !satpOk (isControl s.cur) v) = true := by
  rw [none_, (satpOk_iff s.cur v).mpr mode]
  decide

theorem effAsidsw_waits (busy : s.quiet s.cur = false) : effAsidsw d v s = .stall s :=
  (if_neg (asidsw_test none_ mode)).trans (if_pos (by rw [busy]; rfl))

/-- SATP after ASIDSW, with the old one in s[D]. -/
def Hart.switchAsid (x : Hart) (d : Reg) (v : Word) : Hart := { (x.wr d x.satp).dropStrips with satp := v }

theorem finish_asidsw (quiet : s.quiet s.cur = true) : ∃ t, finish s (effAsidsw d v s) = .next t ∧
    t.harts = (s.done { s.me.wr d s.me.satp with satp := v } 8).harts ∧ t.mem = s.mem ∧
    ∀ e ∈ (t.core (coreOf s.cur)).tlb, e.2.asid ≠ satpAsid s.me.satp := by
  have step : effAsidsw d v s =
      .ok ((s.dropAsid (coreOf s.cur) (satpAsid s.me.satp)).modHart s.cur fun y => y.switchAsid d v) :=
    (if_neg (asidsw_test none_ mode)).trans (if_neg (by rw [quiet]; decide))
  have hart : s.me.switchAsid d v = { s.me.wr d s.me.satp with satp := v } := by
    have streams : (s.me.wr d s.me.satp).streams = [] := (Hart.wr_streams _ _ _).trans none_
    unfold Hart.switchAsid Hart.dropStrips
    rw [streams, List.map_nil, ← streams]
  obtain ⟨next, harts⟩ := finish_modHart_harts (s := s) (t := s.dropAsid (coreOf s.cur) (satpAsid s.me.satp)) rfl
    (fun y => y.switchAsid d v) (Hart.wr_pc _ _ _)
  rw [step]
  refine ⟨_, next, ?_, rfl, fun e mem => ?_⟩
  · rw [harts, hart]
  · have core : (s.dropAsid (coreOf s.cur) (satpAsid s.me.satp)).core (coreOf s.cur) = _ := s.core_modCore _ _
    have mem : e ∈ ((s.dropAsid (coreOf s.cur) (satpAsid s.me.satp)).core (coreOf s.cur)).tlb := mem
    rw [core] at mem
    have kept := (List.mem_filter.mp mem).2
    simpa using kept

end

/-! ## TLBINV_COMPLETE (R197) -/

/-- What no element of a list and no default has, no place of the list has. -/
theorem getAt_forall {α : Type} {P : α → Prop} {z : α} {l : List α} (default : P z) (all : ∀ x ∈ l, P x) (k : Nat) : P (getAt z l k) := by
  induction l generalizing k with
  | nil => exact default
  | cons x l ih =>
    cases k with
    | zero => exact all x List.mem_cons_self
    | succ k => exact ih (fun y mem => all y (List.mem_cons_of_mem x mem)) k

theorem State.dropEntries_core (s : State) (v : Inval) (k : Nat) : ∀ e ∈ ((s.dropEntries v).core k).tlb, v.hits e.2 = false := by
  refine getAt_forall (P := fun c : Core => ∀ e ∈ c.tlb, v.hits e.2 = false) (fun e mem => absurd mem List.not_mem_nil) (fun c mem => ?_) k
  obtain ⟨c', -, rfl⟩ := List.mem_map.mp mem
  intro e mem
  have kept := (List.mem_filter.mp mem).2
  simpa using kept

theorem State.dropEntries_die (s : State) (v : Inval) (k : Nat) : ∀ e ∈ ((s.dropEntries v).die k).l2tlb, v.hits e = false := by
  refine getAt_forall (P := fun x : Die => ∀ e ∈ x.l2tlb, v.hits e = false) (fun e mem => absurd mem List.not_mem_nil) (fun x mem => ?_) k
  obtain ⟨x', -, rfl⟩ := List.mem_map.mp mem
  intro e mem
  have kept := (List.mem_filter.mp mem).2
  simpa using kept

/-- The state in which an invalidation has completed. -/
def State.invalCompleted (s : State) (d : Nat) (v : Inval) (rest : List Inval) : State :=
  (s.dropEntries v).modDie d fun x => { x with invals := rest, invDone := v.num }

theorem exec_tlbinvComplete {s : State} {d : Nat} {v : Inval} {rest : List Inval} (queue : (s.die d).invals = v :: rest)
    (held : ∀ p ∈ s.onTheWay, v.touches (s.dropped v) p.1 = true → s.pageHeld p.2 = true) :
    exec (.tlbinvComplete d) s = event (s.invalCompleted d v rest) := by
  have none_ : ¬ (s.onTheWay.any fun p => v.touches (s.dropped v) p.1 && !s.pageHeld p.2) = true := by
    simp only [List.any_eq_true, Bool.and_eq_true, Bool.not_eq_true', not_exists, not_and]
    intro p mem touches free
    rw [held p mem touches] at free
    cases free
  have step : s.completeInval d = some (s.invalCompleted d v rest) := by
    unfold State.completeInval
    rw [queue]
    exact if_neg none_
  show execTlbinvComplete d s = _
  rw [execTlbinvComplete, step]

theorem State.invalCompleted_die (s : State) (d : Nat) (v : Inval) (rest : List Inval) :
    (s.invalCompleted d v rest).die d = { (s.dropEntries v).die d with invals := rest, invDone := v.num } :=
  State.die_modDie _ _ _

theorem State.invalCompleted_l2 (s : State) (d : Nat) (v : Inval) (rest : List Inval) (k : Nat) :
    ((s.invalCompleted d v rest).die k).l2tlb = ((s.dropEntries v).die k).l2tlb := by
  by_cases same : d = k
  · subst same
    rw [s.invalCompleted_die]
  · rw [State.invalCompleted, State.modDie, State.die_setDie_ne _ _ _ _ same]

/-- Settles O45. -/
theorem translationControl : Obligations.TranslationControl := by
  refine ⟨fun s d a b c sup => ?calls, fun s d v rest queue held => ?completes⟩
  case calls =>
    dsimp only
    refine ⟨fun small base len => ?_, fun small => ?_, ?_, fun idle => ⟨fun large => ⟨?_, ?_⟩, fun small base => ?_, fun small base len => ?_⟩,
      ⟨fun beyond => ?_, fun issued reached => ?_, fun issued ahead => ?_⟩, ⟨fun idle some_ => ?_, fun none_ busy mode => ?_,
        fun none_ quiet mode => ?_, fun none_ idle mode => ?_⟩⟩
    · obtain ⟨t, next, harts, mem, cores, die⟩ := finish_invalidate sup d (s.me.rd a).toNat (s.me.rd b).toNat
        (some ((s.me.rd c).setWidth 16)) false
      rw [← effTlbinvVa_good small base len] at next
      exact ⟨t, _, next, harts, mem, cores, die, rfl, rfl, rfl, rfl, rfl⟩
    · obtain ⟨t, next, harts, mem, cores, die⟩ := finish_invalidate sup d 0 asidForm (some ((s.me.rd c).setWidth 16)) false
      rw [← effTlbinvAsid_good small] at next
      exact ⟨t, _, next, harts, mem, cores, die, rfl, rfl, rfl⟩
    · obtain ⟨t, next, harts, mem, cores, die⟩ := finish_invalidate sup d 0 0 none true
      exact ⟨t, _, next, harts, mem, cores, die, rfl, rfl⟩
    · exact finish_sup_trap sup idle (if_pos large)
    · exact finish_sup_trap sup idle (if_pos large)
    · exact finish_sup_trap sup idle (effTlbinvVa_base small base)
    · exact finish_sup_trap sup idle (effTlbinvVa_len small base len)
    · show finish s (s.privOnly (effTlbinvWait d b s)) = _
      rw [State.privOnly_sup sup, effTlbinvWait_unissued beyond]
      exact finish_result s d _
    · obtain ⟨u, next, harts, l1⟩ := finish_acquireFor s d (BitVec.ofNat 64 (s.die (dieOf s.cur)).invDone)
      refine ⟨u, ?_, harts, l1⟩
      show finish s (s.privOnly (effTlbinvWait d b s)) = _
      rw [State.privOnly_sup sup, effTlbinvWait_reached issued reached]
      exact next
    · show finish s (s.privOnly (effTlbinvWait d b s)) = _
      rw [State.privOnly_sup sup, effTlbinvWait_waits issued ahead]
      rfl
    · exact finish_sup_trap sup idle (effAsidsw_illegal (.inl some_))
    · show finish s (s.privOnly (effAsidsw d (s.me.rd a) s)) = _
      rw [State.privOnly_sup sup, effAsidsw_waits none_ mode busy]
      rfl
    · obtain ⟨t, next, rest⟩ := finish_asidsw (d := d) none_ mode quiet
      refine ⟨t, ?_, rest⟩
      show finish s (s.privOnly (effAsidsw d (s.me.rd a) s)) = _
      rw [State.privOnly_sup sup]
      exact next
    · exact finish_sup_trap sup idle (effAsidsw_illegal (.inr mode))
  case completes =>
    have die := s.invalCompleted_die d v rest
    refine ⟨_, exec_tlbinvComplete queue held, (congrArg Die.invals die :), (congrArg Die.invDone die :), rfl, rfl, fun k => ?_, fun k e mem => ?_⟩
    · exact s.dropEntries_core v k
    · have mem : e ∈ ((s.invalCompleted d v rest).die k).l2tlb := mem
      rw [s.invalCompleted_l2] at mem
      exact s.dropEntries_die v k e mem

end Sys2Proof.Machine

/-! PROOF of PageOperations (refuted): PMIG.rel performs the writes that its hold kept, and the end of an atomic among them moves
its hart, which may be the one that runs PMIG.rel. -/

namespace Sys2Proof.Machine

/-- A CAS of hart 0 that arrived at frame 0 while the frame was held; it compares with 1. -/
def heldCas : Atomic :=
  { seq := 0, hart := 0, op := .cas 1, bytes := 8, sgn := false, place := .phys 0, pbmt := 0, va := 0, operand := 0, posted := false
    d := 0, arrived := some 0 }

/-- Hart 0 stands at PC 0 at supervisor privilege, and frame 0 is held with its CAS. -/
def heldFrame : State :=
  { State.reset with
    harts := [{ Hart.reset with priv := .sup }]
    atoms := [heldCas]
    holds := [{ src := 0, dst := 4096, bytes := 4096 }] }

/-- The CAS ends within PMIG.rel, and the hart goes on two words further. -/
theorem heldFrame_released : ∃ t, exec (.pmigRel 0 0 0) heldFrame = .next t ∧ (t.hart 0).pc = 16 := ⟨_, rfl, by decide⟩

/-- Refutes O46: where the hold keeps an atomic of the hart itself, PMIG.rel does not end with the PC one word further. -/
theorem not_pageOperations : ¬ Obligations.PageOperations := by
  intro claim
  obtain ⟨-, -, -, -, -, -, -, release⟩ := claim heldFrame 0 0 0 rfl
  obtain ⟨t, next, -, -, pc⟩ := (release (by decide) (by decide)).2 ⟨_, List.mem_singleton_self _, by decide⟩
  obtain ⟨u, next', pc'⟩ := heldFrame_released
  have same : t = u := Host.Outcome.next.inj (next.symm.trans next')
  rw [same, show heldFrame.cur = 0 from rfl, pc'] at pc
  exact absurd pc (by decide)

end Sys2Proof.Machine

/-! PROOF of ContextSwitch: the head of the area, what CTXSAVE leaves of its hart, and what CTXLOAD reads before it changes
anything. -/

namespace Sys2Proof.Machine

/-! ## The head of the area (R266) -/

theorem leW_here (v : Word) (rest : List Byte) : leW (wordBytes v ++ rest) 0 = v := by
  rw [leW, wordBytes, le_leBytes_here]
  have small : v.toNat % 256 ^ 8 = v.toNat := Nat.mod_eq_of_lt v.isLt
  rw [small, BitVec.ofNat_toNat, BitVec.setWidth_eq]

theorem leW_later {k off : Nat} (past : k ≤ off) (v : Nat) (rest : List Byte) : leW (leBytes k v ++ rest) off = leW rest (off - k) :=
  congrArg (BitVec.ofNat 64) (le_leBytes_later past v 8 rest)

theorem leW_words (l : List Word) (rest : List Byte) {i : Nat} (inside : i < l.length) :
    leW (l.flatMap wordBytes ++ rest) (8 * i) = getAt 0 l i := by
  induction l generalizing i with
  | nil => exact absurd inside (Nat.not_lt_zero i)
  | cons v l ih =>
    rw [List.flatMap_cons, List.append_assoc]
    cases i with
    | zero => exact leW_here v _
    | succ i =>
      rw [show 8 * (i + 1) = 8 * i + 8 from rfl, wordBytes, leW_later (by omega), Nat.add_sub_cancel]
      exact ih (Nat.lt_of_succ_lt_succ inside)

/-- The head begins with FORMAT, SEPC, VSTART, SSTATUS and the scalar registers. -/
theorem State.areaHead_begins (s : State) (h : Nat) (t : Task) (map : BitVec 64) (outside : (s.hart h).pack = none) :
    ∃ rest, s.areaHead h t map = wordBytes 1 ++ (wordBytes (s.hart h).sepc ++ (leBytes 8 (s.hart h).vstart ++
      (wordBytes (s.hart h).trapStatus ++ (((((s.hart h).userRegs.drop 1).take 63).flatMap wordBytes) ++ rest)))) := by
  have regs : (s.hart h).savedRegs = ((s.hart h).userRegs, (s.hart h).sepc, (s.hart h).vstart) := by
    rw [Hart.savedRegs, Hart.trappedMember, outside]
    rfl
  unfold State.areaHead
  dsimp only
  rw [regs]
  simp only [List.append_assoc]
  exact ⟨_, rfl⟩

theorem State.areaHead_words (s : State) (h : Nat) (t : Task) (map : BitVec 64) (outside : (s.hart h).pack = none)
    (regs : (s.hart h).userRegs.length = 64) :
    leW (s.areaHead h t map) 0 = 1 ∧ leW (s.areaHead h t map) 8 = (s.hart h).sepc ∧
      leW (s.areaHead h t map) 24 = (s.hart h).trapStatus ∧
      ∀ i, i < 63 → leW (s.areaHead h t map) (32 + 8 * i) = getAt 0 (s.hart h).userRegs (i + 1) := by
  obtain ⟨rest, begins⟩ := s.areaHead_begins h t map outside
  rw [begins]
  refine ⟨leW_here 1 _, ?_, ?_, fun i small => ?_⟩
  · rw [wordBytes, leW_later le_rfl]
    exact leW_here _ _
  · rw [wordBytes, leW_later (by decide), wordBytes, leW_later (by decide), leW_later (by decide)]
    exact leW_here _ _
  · rw [wordBytes, leW_later (by omega), wordBytes, leW_later (by omega), leW_later (by omega), wordBytes, leW_later (by omega),
      show 32 + 8 * i - 8 - 8 - 8 - 8 = 8 * i by omega]
    have all : ((s.hart h).userRegs.drop 1).take 63 = (s.hart h).userRegs.drop 1 :=
      List.take_of_length_le (by rw [List.length_drop, regs])
    rw [all, leW_words _ _ (by rw [List.length_drop, regs]; exact small), getAt_eq_getD, getAt_eq_getD, List.getD_eq_getElem?_getD,
      List.getElem?_drop, Nat.add_comm 1 i, ← List.getD_eq_getElem?_getD]

theorem Hart.userRegs_low {x : Hart} (swapped : x.swapped = true) (regs : x.s.length = 64) {i : Nat} (low : i < 56) :
    getAt 0 x.userRegs i = getAt 0 x.s i := by
  rw [Hart.userRegs, if_pos swapped, getAt_eq_getD, getAt_eq_getD, List.getD_append _ _ _ _ (by rw [List.length_take, regs]; exact low),
    List.getD_eq_getElem?_getD, List.getElem?_take_of_lt low, ← List.getD_eq_getElem?_getD]

theorem Hart.userRegs_high {x : Hart} (swapped : x.swapped = true) (regs : x.s.length = 64) (i : Nat) :
    getAt 0 x.userRegs (56 + i) = getAt 0 x.shadow i := by
  have taken : (x.s.take 56).length = 56 := by rw [List.length_take, regs]; rfl
  rw [Hart.userRegs, if_pos swapped, getAt_eq_getD, getAt_eq_getD, List.getD_append_right _ _ _ _ (by rw [taken]; omega), taken,
    Nat.add_sub_cancel_left]

/-! ## CTXSAVE (R265) -/

/-- The PC of a hart and the issuing hart are the same. -/
def KeepsPc (h : Nat) (s t : State) : Prop := (t.hart h).pc = (s.hart h).pc ∧ t.cur = s.cur

namespace KeepsPc

variable {h : Nat}

theorem refl (s : State) : KeepsPc h s s := ⟨rfl, rfl⟩

theorem trans {s t u : State} (a : KeepsPc h s t) (b : KeepsPc h t u) : KeepsPc h s u := ⟨b.1.trans a.1, b.2.trans a.2⟩

theorem ofTr {s t : State} (frame : TrFrame s t) : KeepsPc h s t := ⟨(congrArg Hart.pc (frame.hart h) :), frame.cur⟩

theorem ofHarts {s t : State} (harts : t.harts = s.harts) (cur : t.cur = s.cur) : KeepsPc h s t :=
  ⟨by rw [State.hart, harts]; rfl, cur⟩

theorem fold {α : Type} (f : State → α → State) (each : ∀ u x, KeepsPc h u (f u x)) (l : List α) (s : State) :
    KeepsPc h s (l.foldl f s) := foldl_keeps (P := KeepsPc h s) f (fun u x kept => kept.trans (each u x)) l s (.refl s)

theorem modHart (s : State) (k : Nat) (f : Hart → Hart) (pc : ∀ x, (f x).pc = x.pc) : KeepsPc h s (s.modHart k f) := by
  refine ⟨?_, rfl⟩
  by_cases same : k = h
  · subst same
    rw [State.modHart, State.hart_setHart, pc]
  · rw [State.modHart, State.hart_setHart_ne _ _ _ _ same]

theorem complete (s : State) (k line n : Nat) : KeepsPc h s (s.complete k line n) :=
  KeepsPc.modHart s k (fun x => x.setTline line ((x.tline line).complete n)) fun _ => rfl

theorem packLeave (s : State) (obj k : Nat) : KeepsPc h s (s.packLeave obj k) := by
  obtain ⟨harts, cur⟩ := s.packLeave_harts obj k
  exact .ofHarts harts cur

theorem abortPack (s : State) (obj : Nat) (code : BitVec 32) : KeepsPc h s (s.abortPack obj code) := by
  have kept := (PackKeeps.refl s).abortPack obj code
  exact ⟨(congrArg Hart.pc (kept.hart h) :), kept.keeps.cur⟩

theorem settleAheads (s : State) (k : Nat) (is : List Instr) : KeepsPc h s (s.settleAheads k is) := by
  have put (as : List AheadNum) : KeepsPc h s (s.setHart k { s.hart k with aheads := as }) :=
    KeepsPc.modHart s k (fun x => { x with aheads := as }) fun _ => rfl
  unfold State.settleAheads
  dsimp only
  split
  · refine (put _).trans (fold _ (fun u a => ?_) _ _)
    split
    · exact KeepsPc.complete u k 2 a.num
    · exact .refl u
  · exact put _

end KeepsPc

theorem State.placePieces_frame (s : State) (x : Ctx) (acc : Acc) (va : Word) (ps : List (Nat × List Byte)) :
    TrFrame s (s.placePieces x acc va ps).1 := by
  induction ps generalizing s with
  | nil => exact .refl s
  | cons p ps ih =>
    unfold State.placePieces
    have read := s.translate_frame x acc (va + BitVec.ofNat 64 p.1)
    dsimp only
    split
    · next e =>
      rw [e] at read
      exact read
    · next u pa m e =>
      rw [e] at read
      split
      · exact read
      · have later := read.trans (ih u)
        split
        · next e' =>
          rw [e'] at later
          exact later
        · exact later

theorem State.oldMap_frame (s : State) (h : Nat) (va : Word) : TrFrame s (s.oldMap h va).1 := by
  unfold State.oldMap
  split
  · exact s.agentRead_frame _ _ _
  · exact .refl s

theorem State.passedCommit_pc (s : State) (h k : Nat) : KeepsPc h s (s.passedCommit k) := by
  unfold State.passedCommit
  split
  · exact .refl s
  · split
    · split
      · exact (KeepsPc.packLeave s _ k).trans (.modHart _ k _ fun _ => rfl)
      · exact .refl s
    · exact .refl s

theorem State.leavePack_pc (s : State) (h k : Nat) : KeepsPc h s (s.leavePack k) := by
  unfold State.leavePack
  split
  · exact .refl s
  · exact ((KeepsPc.abortPack s _ 4).trans (.packLeave _ _ k)).trans (.modHart _ k _ fun _ => rfl)

theorem State.poisonArea_pc (s : State) (h : Nat) (x : Ctx) (va : Word) (offs : List Nat) : KeepsPc h s (s.poisonArea x va offs) := by
  refine KeepsPc.fold _ (fun u o => ?_) offs s
  have read := u.translate_frame x .store (va + BitVec.ofNat 64 o)
  split
  · next e =>
    rw [e] at read
    exact (KeepsPc.ofTr read).trans (.ofHarts rfl rfl)
  · next e =>
    rw [e] at read
    exact .ofTr read

theorem State.beginSave_pc (s : State) (h k : Nat) : KeepsPc h s (s.beginSave k) :=
  KeepsPc.trans (t := (s.withdrawRows k).1) (.ofHarts rfl rfl) (.modHart _ k _ fun _ => rfl)

theorem State.releaseLease_hart (s : State) (h : Nat) :
    ((s.releaseLease h).hart h).lease = 0 ∧ ((s.releaseLease h).hart h).pc = (s.hart h).pc ∧ (s.releaseLease h).cur = s.cur := by
  unfold State.releaseLease
  dsimp only
  split
  · next none_ => exact ⟨none_, rfl, rfl⟩
  · have hart := State.hart_setHart s h { (s.hart h).zeroVectors with lease := 0 }
    exact ⟨(congrArg Hart.lease hart :), (congrArg Hart.pc hart :), rfl⟩

/-- The hart whose task has been saved. -/
theorem State.endSave_hart (s : State) (h : Nat) (t : Task) :
    ((s.endSave h t).hart h).task = none ∧ ((s.endSave h t).hart h).streams = [] ∧ ((s.endSave h t).hart h).lease = 0 ∧
      ((s.endSave h t).hart h).pc = (s.hart h).pc ∧ (s.endSave h t).cur = s.cur := by
  obtain ⟨pc, cur⟩ := s.leavePack_pc h h
  obtain ⟨lease, pc', cur'⟩ := (s.leavePack h).releaseLease_hart h
  have hart : (s.endSave h t).hart h = { ((s.leavePack h).releaseLease h).hart h with
      task := none, pend := [], stop := .none, streams := [], landing := List.replicate 16 none
      saved := [], mark := Mark.reset, aheads := [] } := State.hart_setHart _ _ _
  rw [hart]
  exact ⟨rfl, rfl, lease, pc'.trans pc, cur'.trans cur⟩

section
variable {s : State} {d a : Reg} {k : Task} (task : s.me.task = some k) (bank : s.me.swapped = true)
  (user : wbit s.me.sstatus 8 = false)
include task bank user

omit task in
theorem ctxsave_test : ¬ (!s.me.swapped || wbit s.me.sstatus 8) = true := by
  rw [bank, user]
  decide

theorem effCtxsave_misaligned (misaligned : (s.me.rd a).toNat % 4096 ≠ 0) : effCtxsave d a s = .trap s 3 (s.me.rd a) := by
  unfold effCtxsave
  rw [task]
  exact (if_neg (ctxsave_test bank user)).trans (if_pos misaligned)

variable (aligned : (s.me.rd a).toNat % 4096 = 0)
include aligned

theorem effCtxsave_error (first : s.me.stage = 0) (error : s.me.savesError = true) : effCtxsave d a s = .trap s 6 0 := by
  unfold effCtxsave
  rw [task]
  exact (if_neg (ctxsave_test bank user)).trans ((if_neg (not_not.mpr aligned)).trans (if_pos (by rw [first, error]; rfl)))

theorem effCtxsave_writes {u : State} (good : s.me.savesError = false) (begun : (s.beginSave s.cur).settleAheads s.cur [] = u)
    (ready : u.me.saveReady = true) (quiet : u.quiet s.cur = true) :
    effCtxsave d a s = (u.modHart s.cur Hart.dropStrips).writeArea s.cur k (s.me.rd a) d := by
  unfold effCtxsave
  rw [task]
  refine (if_neg (ctxsave_test bank user)).trans ((if_neg (not_not.mpr aligned)).trans ((if_neg ?_).trans ?_))
  · rw [good, Bool.and_false]
    decide
  · subst begun
    refine if_neg ?_
    rw [ready, quiet]
    decide

end

theorem effCtxsave_illegal {s : State} {d a : Reg} (bad : s.me.task = none ∨ s.me.swapped = false ∨ wbit s.me.sstatus 8 = true) :
    effCtxsave d a s = .trap s 1 s.me.iword := by
  unfold effCtxsave
  cases task : s.me.task with
  | none => rfl
  | some k =>
    refine if_pos ?_
    rcases bad with none_ | same | sup
    · exact absurd (task.symm.trans none_) (by simp)
    · rw [same]
      rfl
    · rw [sup]
      exact Bool.or_true _

/-- The pieces of an area are written. -/
def State.putPieces (s : State) (h : Nat) (l : List Piece) : State :=
  l.foldl (fun (u : State) p => (u.homeWrite none p.pa p.bytes).dropValid (coreOf h) p.pa p.bytes.length) s

theorem State.putPieces_pc (s : State) (h k : Nat) (l : List Piece) : KeepsPc k s (s.putPieces h l) :=
  KeepsPc.fold (fun (u : State) (p : Piece) => (u.homeWrite none p.pa p.bytes).dropValid (coreOf h) p.pa p.bytes.length)
    (fun u p => .ofHarts (u.homeWrite_frame none p.pa p.bytes).harts (u.homeWrite_frame none p.pa p.bytes).cur) l s

/-- The image as pieces that each lie in one page. -/
def State.areaPieces (s : State) (h : Nat) (k : Task) (same : Bool) (old : List Byte) : List (Nat × List Byte) :=
  ((s.passedCommit h).areaImage h k same (BitVec.ofNat 64 (leNat old))).flatMap fun p => pagePieces p.1 p.2

/-- A save whose area is free to be written ends with the task gone. -/
theorem State.writeArea_saves {v w z : State} {h : Nat} {k : Task} {va : Word} {d : Reg} {old : List Byte} {l : List Piece}
    (map : v.oldMap h va = (w, .ok old))
    (placed : w.placePieces (v.ctx h) .store va (w.areaPieces h k ((v.hart h).ctxArea == some va) old) = (z, .ok l))
    (free : ∀ p ∈ l, z.writeHeld p.pa p.bytes.length = false) :
    ∃ y, KeepsPc h v y ∧ v.writeArea h k va d = .ok ((y.endSave h k).result d 0) := by
  have mapped := v.oldMap_frame h va
  have pieces := w.placePieces_frame (v.ctx h) .store va (w.areaPieces h k ((v.hart h).ctxArea == some va) old)
  rw [map] at mapped
  rw [placed] at pieces
  have none_ : l.find? (fun p => z.writeHeld p.pa p.bytes.length) = none :=
    List.find?_eq_none.mpr fun p mem => by rw [free p mem]; decide
  refine ⟨((z.passedCommit h).putPieces h l).poisonArea (v.ctx h) va ((z.hart h).badOffsets ((v.hart h).ctxArea == some va)), ?_, ?_⟩
  · exact ((((KeepsPc.ofTr mapped).trans (.ofTr pieces)).trans (z.passedCommit_pc h h)).trans (State.putPieces_pc _ h h l)).trans
      (State.poisonArea_pc _ h _ va _)
  · unfold State.areaPieces at placed
    unfold State.writeArea
    rw [map]
    dsimp only
    rw [placed]
    dsimp only
    rw [none_]
    rfl

/-! ## CTXLOAD (R268) -/

theorem State.lookPieces_frame (s : State) (c : Nat) (l : List Piece) : HomeFrame s (s.lookPieces c l) :=
  HomeFrame.fold (fun (t : State) (p : Piece) => (t.lookAt p.pa p.bytes.length).dropValid c p.pa p.bytes.length)
    (fun u _ => (u.lookAt_frame _ _).trans (State.modCore_frame _ _ _)) l s

theorem State.areaRead_frame (s : State) (x : Ctx) (va : Word) (off n : Nat) (tolerate : Bool) :
    TrFrame s (s.areaRead x va off n tolerate).1 := by
  have placed := s.placePieces_frame x .load va (pagePieces off (List.replicate n 0))
  unfold State.areaRead
  split
  · next e =>
    rw [e] at placed
    exact placed
  · next e =>
    rw [e] at placed
    split
    · exact placed
    · exact placed.trans (.ofHome (State.lookPieces_frame _ _ _))

theorem State.areaParts_frame (s : State) (x : Ctx) (va : Word) (ps : List (Nat × Nat × Bool)) :
    TrFrame s (s.areaParts x va ps).1 := by
  induction ps generalizing s with
  | nil => exact .refl s
  | cons p ps ih =>
    obtain ⟨off, n, tol⟩ := p
    have read := s.areaRead_frame x va off n tol
    unfold State.areaParts
    split
    · next e =>
      rw [e] at read
      exact read
    · next u r e =>
      rw [e] at read
      have later := read.trans (ih u)
      split
      · next e' =>
        rw [e'] at later
        exact later
      · next e' =>
        rw [e'] at later
        exact later

/-- As many parts are read as the area names. -/
theorem State.areaParts_length {s v : State} {x : Ctx} {va : Word} {ps : List (Nat × Nat × Bool)} {parts : List (List Byte × List Nat)}
    (read : s.areaParts x va ps = (v, .ok parts)) : parts.length = ps.length := by
  induction ps generalizing s v parts with
  | nil =>
    cases read
    rfl
  | cons p ps ih =>
    obtain ⟨off, n, tol⟩ := p
    unfold State.areaParts at read
    split at read
    · cases read
    · split at read
      · next e =>
        cases read
        rw [List.length_cons, ih e]
        rfl
      · cases read

theorem AreaHead.parts_length (a : AreaHead) : a.parts.length = 8 + a.slots.length + a.nrows := by
  simp only [AreaHead.parts, List.length_append, List.length_map, List.length_range, List.length_singleton]
  omega

theorem State.unpark_spec (s : State) (a : AreaHead) : (s.unpark a).1.harts = s.harts ∧ (s.unpark a).1.cur = s.cur ∧
    (s.unpark a).2.task.rc = TaskRec.ofBytes ((a.bytes.drop 1664).take 64) ∧ (s.unpark a).2.task.handle = leW a.bytes 1656 := by
  unfold State.unpark
  dsimp only
  split
  · next found =>
    have same := List.find?_some found
    simp only [Bool.and_eq_true, beq_iff_eq] at same
    exact ⟨rfl, rfl, same⟩
  · exact ⟨rfl, rfl, rfl, rfl⟩

/-- The scalar registers below the bank come from the area. -/
theorem Hart.restore_rd (x : Hart) (a : AreaHead) (parts : List (List Byte × List Nat)) (rows : List Row) (p : Parked) (va : Word)
    {r : Reg} (some_ : r ≠ 0) (low : r.toNat < 56) : (x.restore a parts rows p va).rd r = leW a.bytes (32 + 8 * (r.toNat - 1)) := by
  have pos : r.toNat ≠ 0 := fun zero => some_ (BitVec.eq_of_toNat_eq zero)
  obtain ⟨i, at_⟩ := Nat.exists_eq_succ_of_ne_zero pos
  have saved : (0 :: (List.range 63).map fun i => leW a.bytes (32 + 8 * i))[r.toNat]? = some (leW a.bytes (32 + 8 * (r.toNat - 1))) := by
    rw [at_, List.getElem?_cons_succ, List.getElem?_map, List.getElem?_range (by omega)]
    rfl
  have regs (x' : List Word) : (List.take 56 (0 :: (List.range 63).map fun i => leW a.bytes (32 + 8 * i)) ++ x')[r.toNat]? =
      some (leW a.bytes (32 + 8 * (r.toNat - 1))) := by
    rw [List.getElem?_append_left (by rw [List.length_take, List.length_cons, List.length_map, List.length_range]; omega),
      List.getElem?_take_of_lt low, saved]
  rw [Hart.rd, if_neg some_]
  show getAt 0 (if x.swapped then _ else _) r.toNat = _
  rw [getAt_eq_getD, List.getD_eq_getElem?_getD]
  split
  · rw [regs]
    rfl
  · rw [saved]
    rfl

/-- The hart that an area without rows gives. -/
def State.loaded (s : State) (va : Word) (a : AreaHead) (parts : List (List Byte × List Nat)) : State :=
  ((s.unpark a).1.modHart s.cur fun x => { x.restore a parts [] (s.unpark a).2 va with loading := [] }).happen

theorem State.loadArea_rowless {s : State} {va : Word} {d : Reg} {a : AreaHead} {parts : List (List Byte × List Nat)}
    (none_ : parts.drop (8 + a.slots.length) = []) : s.loadArea va d a parts = .ok ((s.loaded va a parts).result d 0) := by
  obtain ⟨-, cur, -⟩ := s.unpark_spec a
  have hart : (s.loaded va a parts).hart (s.loaded va a parts).cur =
      { ((s.unpark a).1.hart s.cur).restore a parts [] (s.unpark a).2 va with loading := [] } := by
    rw [show (s.loaded va a parts).cur = s.cur from cur]
    exact State.hart_setHart _ _ _
  have saved : ((s.loaded va a parts).hart (s.loaded va a parts).cur).saved = [] := (congrArg Hart.saved hart :)
  have whole : (s.loaded va a parts).reissue (s.loaded va a parts).cur 65 = (s.loaded va a parts, true) := by
    rw [State.reissue, saved]
  have loads : s.loadArea va d a parts = (s.loaded va a parts).finishLoad d := by
    unfold State.loadArea
    dsimp only
    rw [none_]
    rfl
  rw [loads, State.finishLoad, whole]

/-- An instruction that waits at a stage changes its hart's wait alone. -/
theorem finish_stallAt_hart {s t : State} (cur : t.cur = s.cur) (stage arg : Nat) :
    ∃ u w, finish s (t.stallAt stage arg) = .next u ∧ u.hart s.cur = { t.me with wait := some w } ∧ w.stage = stage ∧
      u.cores = t.cores := by
  let w : Wait := { kind := .retry, epoch := t.epoch, deadline := none, expired := false, stage := stage, arg := arg }
  have hart : ((t.modHart t.cur fun x => { x with wait := some w }).markWait s.cur).hart s.cur = { t.me with wait := some w } := by
    rw [← cur]
    refine (State.hart_setHart _ _ _).trans ?_
    rw [State.modHart, State.hart_setHart]
    rfl
  exact ⟨_, w, rfl, hart, rfl, rfl⟩

section
variable {s : State} {d a : Reg}

theorem effCtxload_busy (notTwo : s.me.stage ≠ 2) (notOne : s.me.stage ≠ 1) (task : s.me.task ≠ none) :
    effCtxload d a s = .trap s 1 s.me.iword :=
  (if_neg notTwo).trans ((if_neg notOne).trans (if_pos (Option.isSome_iff_ne_none.mpr task)))

variable (notTwo : s.me.stage ≠ 2) (notOne : s.me.stage ≠ 1) (task : s.me.task = none)
include notTwo notOne task

theorem effCtxload_misaligned (misaligned : (s.me.rd a).toNat % 4096 ≠ 0) : effCtxload d a s = .trap s 3 (s.me.rd a) :=
  (if_neg notTwo).trans ((if_neg notOne).trans ((if_neg (by rw [task]; decide)).trans (if_pos misaligned)))

variable (aligned : (s.me.rd a).toNat % 4096 = 0) (released : s.released s.cur .pkg = true) {u : State} {bs : List Byte}
  {bad : List Nat} (read : s.areaRead (s.ctx s.cur) (s.me.rd a) 0 4096 false = (u, .ok (bs, bad)))
include aligned released read

theorem effCtxload_other (other : le bs 0 8 ≠ 1 ∨ le bs 1648 8 ≠ coreOf s.cur ∨ 1024 ≤ s.cur) :
    effCtxload d a s = .ok (u.result d 1) := by
  unfold effCtxload
  dsimp only
  rw [if_neg notTwo, if_neg notOne, if_neg (by rw [task]; decide), if_neg (not_not.mpr aligned), if_neg (by rw [released]; decide), read]
  exact if_pos (by simpa [isControl, or_assoc] using other)

variable (format : le bs 0 8 = 1) (core : le bs 1648 8 = coreOf s.cur) (compute : s.cur < 1024)

omit notTwo notOne task aligned released read in
include format core compute in
/-- The area is one of this format and of this core. -/
theorem ctxload_test : ¬ (le bs 0 8 ≠ 1 || le bs 1648 8 ≠ coreOf s.cur || isControl s.cur) = true := by
  have low : isControl s.cur = false := decide_eq_false (Nat.not_le.mpr compute)
  rw [format, core, low]
  simp

include format core compute

theorem effCtxload_few (few : u.clustersLeft (coreOf s.cur) < (AreaHead.ofBytes bs).c) : effCtxload d a s = .ok (u.result d 2) := by
  unfold effCtxload
  dsimp only
  rw [if_neg notTwo, if_neg notOne, if_neg (by rw [task]; decide), if_neg (not_not.mpr aligned), if_neg (by rw [released]; decide), read]
  exact (if_neg (ctxload_test format core compute)).trans (if_pos few)

variable (enough : (AreaHead.ofBytes bs).c ≤ u.clustersLeft (coreOf s.cur)) {v : State} {parts : List (List Byte × List Nat)}
  (readParts : u.areaParts (u.ctx s.cur) (s.me.rd a) (AreaHead.ofBytes bs).parts = (v, .ok parts))
include enough readParts

/-- What CTXLOAD has read while it waits for its clusters. -/
def Hart.loadingParts (parts : List (List Byte × List Nat)) (x : Hart) : Hart := { x with loading := parts }

theorem effCtxload_asks (some_ : (AreaHead.ofBytes bs).c ≠ 0) : effCtxload d a s =
    ((v.askExactly s.cur (AreaHead.ofBytes bs).c).modHart s.cur (Hart.loadingParts ((bs, bad) :: parts))).stallAt 1 0 := by
  unfold effCtxload
  dsimp only
  rw [if_neg notTwo, if_neg notOne, if_neg (by rw [task]; decide), if_neg (not_not.mpr aligned), if_neg (by rw [released]; decide), read]
  refine (if_neg (ctxload_test format core compute)).trans ((if_neg (Nat.not_lt.mpr enough)).trans ?_)
  rw [readParts]
  exact if_neg some_

theorem effCtxload_loads (none_ : (AreaHead.ofBytes bs).c = 0) : effCtxload d a s =
    (v.releaseLease s.cur).loadArea (s.me.rd a) d (AreaHead.ofBytes bs) parts := by
  unfold effCtxload
  dsimp only
  rw [if_neg notTwo, if_neg notOne, if_neg (by rw [task]; decide), if_neg (not_not.mpr aligned), if_neg (by rw [released]; decide), read]
  refine (if_neg (ctxload_test format core compute)).trans ((if_neg (Nat.not_lt.mpr enough)).trans ?_)
  rw [readParts]
  exact if_pos none_

end

/-- Settles O47. -/
theorem contextSwitch : Obligations.ContextSwitch := by
  refine ⟨fun s d a sup => ?calls, fun s h t map outside swapped regs bank => ?head⟩
  case head =>
    have whole : (s.hart h).userRegs.length = 64 := by
      rw [Hart.userRegs, if_pos swapped, List.length_append, List.length_take, regs, bank]
      rfl
    obtain ⟨format, sepc, status, words⟩ := s.areaHead_words h t map outside whole
    refine ⟨format, sepc, status, fun i pos low => ?_, fun i small => ?_⟩
    · rw [words (i - 1) (by omega), Nat.sub_add_cancel pos]
      exact Hart.userRegs_low swapped regs low
    · rw [words (55 + i) (by omega), show 55 + i + 1 = 56 + i by omega]
      exact Hart.userRegs_high swapped regs i
  case calls =>
    dsimp only
    refine ⟨fun idle => ⟨?_, ?_, ?_, ?_, ?_⟩, ?saves, ?loads⟩
    · exact fun bad => finish_sup_trap sup idle (effCtxsave_illegal bad)
    · intro task bank user misaligned
      obtain ⟨k, task⟩ := Option.ne_none_iff_exists'.mp task
      exact finish_sup_trap sup idle (effCtxsave_misaligned task bank user misaligned)
    · intro task bank user aligned first ⟨r, pos, low, bit⟩
      obtain ⟨k, task⟩ := Option.ne_none_iff_exists'.mp task
      have error : s.me.savesError = true := by
        refine List.any_eq_true.mpr ⟨r, List.mem_range.mpr (by omega), ?_⟩
        simp [pos, Nat.not_le.mpr low, bit]
      exact finish_sup_trap sup idle (effCtxsave_error task bank user aligned first error)
    · exact fun notOne notTwo task => finish_sup_trap sup idle (effCtxload_busy notTwo notOne task)
    · exact fun notOne notTwo task misaligned => finish_sup_trap sup idle (effCtxload_misaligned notTwo notOne task misaligned)
    case saves =>
      intro k u v w z old l task bank user aligned good begun ready quiet dropped map placed free
      obtain ⟨y, kept, writes⟩ := State.writeArea_saves (d := d) map placed free
      have start : KeepsPc s.cur s v := by
        rw [← dropped, ← begun]
        exact ((s.beginSave_pc s.cur s.cur).trans (.settleAheads _ _ _)).trans (.modHart _ _ _ fun _ => rfl)
      obtain ⟨pc, cur⟩ := start.trans kept
      obtain ⟨noTask, streams, lease, pc', cur'⟩ := y.endSave_hart s.cur k
      have step : exec (.ctxsave d a) s = finish s (.ok ((y.endSave s.cur k).result d 0)) := by
        show finish s (s.privOnly (effCtxsave d a s)) = _
        rw [State.privOnly_sup sup, effCtxsave_writes task bank user aligned good begun ready quiet, dropped, writes]
      have hart : ((y.endSave s.cur k).result d 0).hart s.cur = ((y.endSave s.cur k).hart s.cur).wr d 0 := by
        rw [State.result, cur', cur]
        exact State.hart_setHart _ _ _
      have same : (((y.endSave s.cur k).result d 0).hart s.cur).pc = s.me.pc := by
        rw [hart, Hart.wr_pc]
        exact pc'.trans pc
      rw [step, finish_next_pc s _ same]
      have final : (((y.endSave s.cur k).result d 0).retire s.cur (s.me.pc + 8)).hart s.cur =
          { ((y.endSave s.cur k).hart s.cur).wr d 0 with pc := s.me.pc + 8, wait := none } := by
        rw [← hart]
        exact State.hart_setHart _ _ _
      refine ⟨_, rfl, ?_⟩
      rw [final]
      exact ⟨(Hart.wr_task _ _ _).trans noTask, fun some_ => Hart.rd_wr_self _ _ _ some_, rfl, (Hart.wr_streams _ _ _).trans streams,
        (Hart.wr_lease _ _ _).trans lease⟩
    case loads =>
      intro u bs bad first task aligned released read
      have stage : s.me.stage = 0 := by rw [Hart.stage, first]
      have notTwo : s.me.stage ≠ 2 := by rw [stage]; decide
      have notOne : s.me.stage ≠ 1 := by rw [stage]; decide
      have frame := s.areaRead_frame (s.ctx s.cur) (s.me.rd a) 0 4096 false
      rw [read] at frame
      have runs : exec (.ctxload d a) s = finish s (effCtxload d a s) := congrArg (finish s) (State.privOnly_sup sup _)
      refine ⟨fun other => ?_, fun format core compute => ⟨fun few => ?_, fun v parts some_ enough readParts => ?_,
        fun v parts none_ rowless readParts => ?_⟩⟩
      · rw [runs, effCtxload_other notTwo notOne task aligned released read other]
        exact finish_result_of frame.cur d 1
      · rw [runs, effCtxload_few notTwo notOne task aligned released read format core compute few]
        exact finish_result_of frame.cur d 2
      · have frame' := u.areaParts_frame (u.ctx s.cur) (s.me.rd a) (AreaHead.ofBytes bs).parts
        rw [readParts] at frame'
        have whole := frame.trans frame'
        have asks := effCtxload_asks (d := d) notTwo notOne task aligned released read format core compute enough readParts
          (Nat.pos_iff_ne_zero.mp some_)
        have hart : ((v.askExactly s.cur (AreaHead.ofBytes bs).c).modHart s.cur (Hart.loadingParts ((bs, bad) :: parts))).me =
            (v.hart s.cur).loadingParts ((bs, bad) :: parts) := by
          rw [State.me, show ((v.askExactly s.cur (AreaHead.ofBytes bs).c).modHart s.cur
            (Hart.loadingParts ((bs, bad) :: parts))).cur = s.cur from whole.cur]
          exact State.hart_setHart _ _ _
        obtain ⟨t, w, next, waits, stage, cores⟩ := finish_stallAt_hart (s := s) (t := (v.askExactly s.cur (AreaHead.ofBytes bs).c).modHart
          s.cur (Hart.loadingParts ((bs, bad) :: parts))) whole.cur 1 0
        rw [hart] at waits
        have same := whole.hart s.cur
        refine ⟨t, w, (runs.trans (congrArg (finish s) asks)).trans next, ?_, (congrArg Hart.wait waits :), stage, ?_,
          { hart := s.cur, mincl := (AreaHead.ofBytes bs).c, prefcl := (AreaHead.ofBytes bs).c }, ?_, rfl, rfl, rfl⟩
        · rw [waits]
          exact (congrArg Hart.pc same :)
        · rw [waits]
          exact (congrArg Hart.lease same :)
        · have core := (v.dropLease s.cur).core_modCore (coreOf s.cur) fun x =>
            { x with leaseq := x.leaseq ++ [{ hart := s.cur, mincl := (AreaHead.ofBytes bs).c, prefcl := (AreaHead.ofBytes bs).c }] }
          rw [State.core, cores]
          show _ ∈ (((v.dropLease s.cur).modCore (coreOf s.cur) fun x =>
            { x with leaseq := x.leaseq ++ [{ hart := s.cur, mincl := (AreaHead.ofBytes bs).c, prefcl := (AreaHead.ofBytes bs).c }] }).core
              (coreOf s.cur)).leaseq
          rw [core]
          exact List.mem_append_right _ (List.mem_singleton_self _)
      · have frame' := u.areaParts_frame (u.ctx s.cur) (s.me.rd a) (AreaHead.ofBytes bs).parts
        have count := (State.areaParts_length readParts).trans (AreaHead.parts_length _)
        rw [readParts] at frame'
        have whole := frame.trans frame'
        have rows : (AreaHead.ofBytes bs).nrows = 0 := by
          show min 64 (le bs 1632 8) = 0
          rw [rowless]
          rfl
        have loads := effCtxload_loads (d := d) notTwo notOne task aligned released read format core compute
          (by rw [show (AreaHead.ofBytes bs).c = 0 from none_]; exact Nat.zero_le _) readParts none_
        rw [State.loadArea_rowless (List.drop_eq_nil_of_le (by omega))] at loads
        obtain ⟨-, pc, cur⟩ := v.releaseLease_hart s.cur
        obtain ⟨harts, cur', rc, handle⟩ := (v.releaseLease s.cur).unpark_spec (AreaHead.ofBytes bs)
        have cur'' : (v.releaseLease s.cur).cur = s.cur := cur.trans whole.cur
        generalize v.releaseLease s.cur = r at loads pc cur harts cur' rc handle cur''
        have hart : (r.loaded (s.me.rd a) (AreaHead.ofBytes bs) parts).hart s.cur =
            { (r.hart s.cur).restore (AreaHead.ofBytes bs) parts [] (r.unpark (AreaHead.ofBytes bs)).2 (s.me.rd a) with loading := [] } := by
          rw [State.loaded, cur'']
          refine (State.hart_setHart _ _ _).trans ?_
          rw [State.hart, harts]
          rfl
        have written : ((r.loaded (s.me.rd a) (AreaHead.ofBytes bs) parts).result d 0).hart s.cur =
            ((r.loaded (s.me.rd a) (AreaHead.ofBytes bs) parts).hart s.cur).wr d 0 := by
          rw [State.result, show (r.loaded (s.me.rd a) (AreaHead.ofBytes bs) parts).cur = s.cur from cur'.trans cur'']
          exact State.hart_setHart _ _ _
        have same : (((r.loaded (s.me.rd a) (AreaHead.ofBytes bs) parts).result d 0).hart s.cur).pc = s.me.pc := by
          rw [written, Hart.wr_pc, hart]
          exact pc.trans (congrArg Hart.pc (whole.hart s.cur) :)
        have final : (((r.loaded (s.me.rd a) (AreaHead.ofBytes bs) parts).result d 0).retire s.cur (s.me.pc + 8)).hart s.cur =
            { ((r.loaded (s.me.rd a) (AreaHead.ofBytes bs) parts).hart s.cur).wr d 0 with pc := s.me.pc + 8, wait := none } := by
          rw [← written]
          exact State.hart_setHart _ _ _
        refine ⟨_, (runs.trans (congrArg (finish s) loads)).trans (finish_next_pc s _ same), ?_⟩
        rw [final, hart]
        generalize (r.unpark (AreaHead.ofBytes bs)).2 = parked at rc handle
        refine ⟨⟨parked.task, Hart.wr_task _ _ _, rc, handle⟩, Hart.wr_sepc _ _ _, Hart.wr_vstart _ _ _, Hart.wr_vl _ _ _,
          Hart.wr_nvreg _ _ _, fun some_ => Hart.rd_wr_self _ _ _ some_, fun q some_ other low => ?_, rfl⟩
        refine (Hart.rd_wr_ne _ _ _ _ other.symm).trans ?_
        exact Hart.restore_rd (r.hart s.cur) (AreaHead.ofBytes bs) parts [] parked (s.me.rd a) some_ low

end Sys2Proof.Machine

/-! PROOF of BoundarySteps: what a trap writes, where a fetch, a walk and an eviction end, and the events that make a cause pending. -/

namespace Sys2Proof.Machine

/-! ## What a trap writes (R259) -/

theorem State.takeTrap_writes {s : State} {h cause : Nat} (int : Bool) (sepc stval iw : Word) (outside : (s.hart h).pack = none)
    (small : cause < 32) :
    let y := (s.takeTrap h int cause sepc stval iw).hart h
    y.sepc = sepc &&& ~~~7#64 ∧ y.scause = BitVec.ofNat 64 ((if int then 2 ^ 63 else 0) + cause) ∧ y.stval = stval ∧
      y.priv = .sup ∧ y.pc = (s.hart h).stvec ∧ y.sstart = (s.hart h).sstart := by
  obtain ⟨pc, cause, value, priv, entry, -, -, -, -, -, -, -, -, -, -, -, -, -, sstart, -⟩ :=
    trapEntry s h cause int sepc stval iw outside small
  exact ⟨pc, cause, value, priv, entry, sstart⟩

/-! ## Fetch traps (R46, R47) -/

theorem IsFetchCause.small {c : Nat} (cause : IsFetchCause c) : c < 32 := by
  unfold IsFetchCause at cause
  omega

theorem fieldCause_small {p : Priv} {d : Decoded} {c : Nat} (e : fieldCause p d = some c) : c < 32 := by
  have csr (n : BitVec 12) (write : Bool) (e : csrCheck p n write = some c) : c < 32 := by
    unfold csrCheck at e
    split at e
    · cases e
      decide
    · obtain ⟨-, same⟩ := Option.ite_none_right_eq_some.mp e
      cases same
      decide
  unfold fieldCause at e
  split at e
  · exact csr _ _ e
  · exact csr _ _ e
  · cases e

theorem wordCheck_small {p : Priv} {w : Word} {c : Nat} (e : wordCheck p w = .error c) : c < 32 := by
  unfold wordCheck at e
  split at e
  · cases e
    split <;> decide
  · cases e
    decide
  · split at e
    · cases e
      decide
    · split at e
      · next found =>
        cases e
        exact fieldCause_small found
      · cases e

/-- A fetch that ends in a trap changes what a translation may change. -/
theorem State.fetchItem_trap {s u : State} {h c : Nat} {v w : Word} (e : s.fetchItem h = (u, .trap c v w)) : TrFrame s u ∧ c < 32 := by
  have first := s.fetchWord_frame h (s.hart h).pc
  unfold State.fetchItem at e
  dsimp only at e
  split at e
  · cases e
    exact ⟨.refl s, by decide⟩
  split at e
  · next failed =>
    cases e
    rw [failed] at first
    exact ⟨first, (State.fetchWord_error failed).small⟩
  next t word fetched =>
  rw [fetched] at first
  split at e
  · next check =>
    cases e
    exact ⟨first, wordCheck_small check⟩
  · cases e
  · cases e
  · have second := t.fetchWord_frame h ((s.hart h).pc + 8)
    split at e
    · next failed =>
      cases e
      rw [failed] at second
      exact ⟨first.trans second, (State.fetchWord_error failed).small⟩
    · cases e
  · cases e
    exact ⟨first, by decide⟩

/-- The trap of a fetch of a hart with an empty vector queue. -/
theorem State.fetchTrap_writes {s u : State} {h c : Nat} {v w : Word} (outside : (s.hart h).pack = none)
    (idle : (s.hart h).queueIdle = true) (frame : TrFrame s u) (small : c < 32) :
    let y := (u.fetchTrap h c v w).hart h
    y.scause = BitVec.ofNat 64 c ∧ y.stval = v ∧ y.sepc = (s.hart h).pc &&& ~~~7#64 ∧ y.priv = .sup ∧ y.pc = (s.hart h).stvec := by
  have hart := frame.hart h
  have idle' : (u.hart h).queueIdle = true := (congrArg Hart.queueIdle hart :).trans idle
  obtain ⟨sepc, cause, value, priv, entry, -⟩ := State.takeTrap_writes (s := u) (h := h) false (u.hart h).pc v w
    ((congrArg Hart.pack hart :).trans outside) small
  have trap : u.fetchTrap h c v w = u.takeTrap h false c (u.hart h).pc v w := if_pos idle'
  rw [trap]
  refine ⟨cause.trans ?_, value, sepc.trans ?_, priv, entry.trans (congrArg Hart.stvec hart :)⟩
  · simp
  · rw [show (u.hart h).pc = (s.hart h).pc from (congrArg Hart.pc hart :)]

theorem State.meetsFetch_idle {s : State} {h : Nat} (meets : s.meetsFetch h = true) : (s.hart h).queueIdle = true := by
  simp only [State.meetsFetch, Bool.and_eq_true] at meets
  exact meets.1.2

theorem fetchTraps (s u : State) (h c : Nat) (v w : Word) (meets : s.meetsFetch h = true) (outside : (s.hart h).pack = none)
    (fetched : s.fetchItem h = (u, .trap c v w)) :
    let traps := fun (i : Instr) => ∃ t, exec i s = .next t ∧ (t.hart h).scause = BitVec.ofNat 64 c ∧ (t.hart h).stval = v ∧
      (t.hart h).sepc = (s.hart h).pc &&& ~~~7#64 ∧ (t.hart h).priv = .sup ∧ (t.hart h).pc = (s.hart h).stvec
    (c = 1 → traps (.illegalInstruction h)) ∧ (c ≠ 1 → c ≠ 2 → v = (s.hart h).pc → traps (.instructionFetchFault h)) := by
  obtain ⟨frame, small⟩ := State.fetchItem_trap fetched
  have writes := State.fetchTrap_writes (v := v) (w := w) outside (State.meetsFetch_idle meets) frame small
  have test : ¬ (!s.meetsFetch h) = true := by rw [meets]; decide
  refine ⟨fun one => ?_, fun notOne notTwo here => ?_⟩
  · subst one
    have step : exec (.illegalInstruction h) s = event (u.fetchTrap h 1 v w) := by
      show execIllegalInstruction h s = _
      rw [execIllegalInstruction, if_neg test, fetched]
      rfl
    generalize u.fetchTrap h 1 v w = t at step writes
    exact ⟨t.happen, step, writes⟩
  · have same : (u.hart h).pc = (s.hart h).pc := (congrArg Hart.pc (frame.hart h) :)
    have good : ¬ (c = 1 || c = 2 || v != (u.hart h).pc) = true := by
      rw [same, here]
      simp [notOne, notTwo]
    have step : exec (.instructionFetchFault h) s = event (u.fetchTrap h c v w) := by
      show execInstructionFetchFault h s = _
      rw [execInstructionFetchFault, if_neg test, fetched]
      exact if_neg good
    generalize u.fetchTrap h c v w = t at step writes
    exact ⟨t.happen, step, writes⟩

/-! ## LOAD_DATA_ARRIVAL (R99) -/

/-- The state in which the data of a load have come for its hart, as the issuing one. -/
def State.loadArrives (s : State) (h : Nat) (w : Wait) : State :=
  { s.modHart h fun x => { x with wait := some { w with expired := true } } with cur := h }

theorem exec_loadDataArrival {s : State} {h n : Nat} {w : Wait} {wd : LdW} {sp : Space} {d a : Reg} {off : BitVec 24}
    (wait : (s.hart h).wait = some w) (kind : w.kind = .load) (new : w.expired = false)
    (item : (s.hart h).item = .instr (.ld wd sp d a off) n) {t : State}
    (loads : execLd wd sp d a off (s.loadArrives h w) = .next t) : exec (.loadDataArrival h) s = .next { t with cur := s.cur } := by
  have due : (w.kind = .load && (!w.expired || w.epoch != s.epoch)) = true := by rw [kind, new]; rfl
  have item' : ((s.modHart h fun x => { x with wait := some { w with expired := true } }).hart h).item =
      .instr (.ld wd sp d a off) n := by
    rw [State.modHart, State.hart_setHart]
    exact item
  show execLoadDataArrival h s = _
  unfold execLoadDataArrival
  rw [wait]
  dsimp only
  rw [if_pos due, item]
  show State.asHart (s.modHart h fun x => { x with wait := some { w with expired := true } }) h (execLd wd sp d a off) = _
  unfold State.asHart
  exact (congrArg (fun o => match o with
    | .next t => Host.Outcome.next { t with cur := s.cur }
    | .fault e => .fault e
    | .refused r => .refused r) loads :)

theorem loadData (s u : State) (h n : Nat) (w : Wait) (wd : LdW) (sp : Space) (d a : Reg) (off : BitVec 24) (pa : Nat) (m : BitVec 2)
    (wait : (s.hart h).wait = some w) (kind : w.kind = .load) (new : w.expired = false)
    (item : (s.hart h).item = .instr (.ld wd sp d a off) n) (global : sp = .g ∨ sp = .dflt)
    (aligned : ((s.hart h).rd a + off.signExtend 64).toNat % ldBytes wd = 0)
    (located : (s.loadArrives h w).locate h .g .load ((s.hart h).rd a + off.signExtend 64) (ldBytes wd) = (u, .at_ (.g pa m)))
    (memory : inCtrl pa = false) (outside : u.me.member = none)
    (unheld : (u.flipping pa || u.heldStore pa (ldBytes wd) || u.postedTo h pa (ldBytes wd)) = false)
    (cached : bypasses u pa m = false) (tracked : m ≠ 1) (uncovered : forward u.me.sbuf pa (ldBytes wd) = .none)
    (miss : (u.core (coreOf h)).l1has pa (ldBytes wd) = false) (landed : u.inFlight (coreOf h) pa (ldBytes wd) = false)
    (sound : u.l1Bad (coreOf h) pa (ldBytes wd) = false) :
    ∃ t, exec (.loadDataArrival h) s = .next t ∧ t.cur = s.cur ∧ (t.hart h).wait = none ∧ (t.hart h).pc = (s.hart h).pc + 8 ∧
      (t.hart h).rd d = if d = 0 then 0 else ldExtend wd (leNat (u.l1Bytes (coreOf h) pa (ldBytes wd))) := by
  have put : (s.loadArrives h w).hart h = { s.hart h with wait := some { w with expired := true } } := State.hart_setHart _ _ _
  have frame := (s.loadArrives h w).locate_frame h .g .load ((s.hart h).rd a + off.signExtend 64) (ldBytes wd)
  rw [located] at frame
  have cur : u.cur = h := frame.cur
  have hart := frame.hart h
  rw [put] at hart
  have me : u.me = u.hart h := by rw [State.me, cur]
  rw [me] at outside uncovered
  have arrived : (u.hart h).arrived = true := by
    rw [hart]
    unfold Hart.arrived
    simp [kind]
  have value := State.loadG_miss (va := (s.hart h).rd a + off.signExtend 64) outside unheld cached uncovered tracked miss landed arrived sound
  have address : memAddr (s.loadArrives h w).me a off = (s.hart h).rd a + off.signExtend 64 :=
    (congrArg (fun x : Hart => x.rd a + off.signExtend 64) put :)
  have loads := effLoad_g (s := s.loadArrives h w) global aligned located memory value d
  have filled := u.fill_frame (coreOf h) ((s.hart h).rd a + off.signExtend 64) pa (ldBytes wd)
  generalize u.fill (coreOf h) ((s.hart h).rd a + off.signExtend 64) pa (ldBytes wd) = v at loads filled
  generalize u.l1Bytes (coreOf h) pa (ldBytes wd) = bs at loads ⊢
  have same : v.cur = h := filled.cur.trans cur
  have vhart : v.me = u.hart h := by rw [State.me, same, filled.hart]
  have runs : execLd wd sp d a off (s.loadArrives h w) = .next (v.done (v.me.wr d (ldExtend wd (leNat bs))) 8) := by
    show finish (s.loadArrives h w) (effLoad (s.loadArrives h w) wd sp d (memAddr (s.loadArrives h w).me a off)) = _
    rw [address, loads]
    exact finish_result_of same d _
  have final : (v.done (v.me.wr d (ldExtend wd (leNat bs))) 8).hart h =
      { v.me.wr d (ldExtend wd (leNat bs)) with pc := v.me.pc + 8, wait := none } := by
    rw [← same]
    exact State.done_hart _ _ _
  refine ⟨_, exec_loadDataArrival wait kind new item runs, rfl, ?_⟩
  show ((v.done (v.me.wr d (ldExtend wd (leNat bs))) 8).hart h).wait = none ∧ ((v.done (v.me.wr d (ldExtend wd (leNat bs))) 8).hart h).pc = _ ∧
    ((v.done (v.me.wr d (ldExtend wd (leNat bs))) 8).hart h).rd d = _
  rw [final, vhart, hart]
  refine ⟨rfl, rfl, ?_⟩
  split
  · next zero =>
    rw [zero]
    rfl
  · next some_ => exact Hart.rd_wr_self _ d _ some_

/-! ## PAGE_WALK and L2_TLB_EVICTION (R189, R193, R194) -/

theorem tlbOf_hits (satp : Word) (va lvl : Nat) (e : Word) : (tlbOf satp va lvl e).hits (satpAsid satp) va = true := by
  simp [TlbEntry.hits, tlbOf]

/-- A walk that ends well leaves its entry in the first-level TLB of the core. -/
theorem State.walkFill_entry {s : State} {x : Ctx} {acc : Acc} {va pa : Nat} {m : BitVec 2} (walked : (s.walkFill x acc va).2 = .ok pa m) :
    ∃ e ∈ ((s.walkFill x acc va).1.core x.core).tlb, e.2.hits (satpAsid x.satp) va = true ∧ e.2.pa va = pa := by
  unfold State.walkFill at walked ⊢
  cases walk : s.walk acc va 5 (satpRoot x.satp) with
  | fault c =>
    rw [walk] at walked
    cases walked
  | waits a =>
    rw [walk] at walked
    cases walked
  | leaf lvl a e =>
    rw [walk] at walked
    dsimp only at walked ⊢
    split at walked
    · cases walked
    next allowed =>
    split at walked
    · cases walked
    next valid =>
    rw [if_neg allowed, if_neg valid]
    generalize s.markPte acc a e = marked at walked ⊢
    cases walked
    refine ⟨(sliceOf va, tlbOf x.satp va lvl marked.2), ?_, tlbOf_hits _ _ _ _, rfl⟩
    rw [State.core_modCore]
    exact List.mem_append_left _ List.mem_cons_self

theorem pageWalk (s : State) (h : Nat) (va : Word) (acc : Acc) (mode : satpMode (s.hart h).satp ≠ 0) (valid : canonical va = true)
    (asks : s.asksFor h va acc = true) : ∃ t, exec (.pageWalk h va acc) s = .next t ∧ (t.hart h).pc = (s.hart h).pc ∧
      ∀ pa m, (s.walkFill (s.ctx h) acc va.toNat).2 = .ok pa m →
        ∃ e ∈ (t.core (coreOf h)).tlb, e.2.hits (satpAsid (s.hart h).satp) va.toNat = true ∧ e.2.pa va.toNat = pa := by
  have test : ¬ (satpMode (s.ctx h).satp = 0 || !canonical va || !s.asksFor h va acc) = true := by
    have mode' : ¬ satpMode (s.ctx h).satp = 0 := mode
    rw [valid, asks]
    simpa using mode'
  have frame := s.walkFill_frame (s.ctx h) acc va.toNat
  have step : exec (.pageWalk h va acc) s = event (s.walkFill (s.ctx h) acc va.toNat).1 := if_neg test
  have entry := fun pa m => State.walkFill_entry (s := s) (x := s.ctx h) (acc := acc) (va := va.toNat) (pa := pa) (m := m)
  generalize s.walkFill (s.ctx h) acc va.toNat = walked at step entry frame ⊢
  exact ⟨walked.1.happen, step, (congrArg Hart.pc (frame.hart h) :), entry⟩

/-- The first-level copies of a core are dropped, where it belongs to the die. -/
def State.dropFirstAt (d : Nat) (p : TlbEntry → Bool) (t : State) (c : Nat) : State :=
  if dieOfCore c = d && (t.core c).tlb.any (fun e => p e.2) then t.modCore c fun x => { x with tlb := x.tlb.filter fun e => !p e.2 } else t

theorem State.dropFirstAt_self (d : Nat) (p : TlbEntry → Bool) (t : State) (c : Nat) (here : dieOfCore c = d) :
    ∀ f ∈ ((State.dropFirstAt d p t c).core c).tlb, p f.2 = false := by
  intro f
  unfold State.dropFirstAt
  split
  · rw [State.core_modCore]
    intro mem
    have kept := (List.mem_filter.mp mem).2
    simpa using kept
  · next none_ =>
    intro mem
    simp only [here, decide_true, Bool.true_and, List.any_eq_true, not_exists, not_and] at none_
    exact Bool.eq_false_iff.mpr (none_ f mem)

theorem State.dropFirstAt_ne (d : Nat) (p : TlbEntry → Bool) (t : State) {k c : Nat} (other : k ≠ c) :
    (State.dropFirstAt d p t k).core c = t.core c := by
  unfold State.dropFirstAt
  split
  · rw [State.modCore, State.core_setCore_ne _ _ _ _ other]
  · rfl

/-- The copies in the first-level TLBs of a die that hold `p` are dropped. -/
theorem State.dropFirst_core (s : State) (d : Nat) (p : TlbEntry → Bool) {c : Nat} (small : c < 136) (here : dieOfCore c = d) :
    ∀ f ∈ ((s.dropFirst d p).core c).tlb, p f.2 = false := by
  have each (l : List Nat) (t : State) (mem : c ∈ l ∨ ∀ f ∈ (t.core c).tlb, p f.2 = false) :
      ∀ f ∈ ((l.foldl (State.dropFirstAt d p) t).core c).tlb, p f.2 = false := by
    induction l generalizing t with
    | nil => exact mem.resolve_left List.not_mem_nil
    | cons k l ih =>
      refine ih _ ?_
      by_cases same : k = c
      · subst same
        exact .inr (State.dropFirstAt_self d p t k here)
      · rw [State.dropFirstAt_ne d p t same]
        exact mem.imp_left fun mem => (List.mem_cons.mp mem).resolve_left fun e => same e.symm
  exact each (List.range 136) s (.inl (List.mem_range.mpr small))

theorem State.dropFirst_rest (s : State) (d : Nat) (p : TlbEntry → Bool) :
    (s.dropFirst d p).dies = s.dies ∧ (s.dropFirst d p).mem = s.mem := by
  refine foldl_keeps (P := fun t : State => t.dies = s.dies ∧ t.mem = s.mem) (State.dropFirstAt d p) (fun t c same => ?_) (List.range 136) s
    ⟨rfl, rfl⟩
  unfold State.dropFirstAt
  split
  · exact same
  · exact same

theorem l2Eviction (s : State) (d k : Nat) (e : TlbEntry) (entry : (s.die d).l2tlb[k]? = some e) :
    ∃ t, exec (.l2TlbEviction d k) s = .next t ∧ (t.die d).l2tlb = (s.die d).l2tlb.eraseIdx k ∧ t.harts = s.harts ∧
      t.mem = s.mem ∧ ∀ c, c < 136 → dieOfCore c = d → ∀ f ∈ (t.core c).tlb, e.same f.2 = false := by
  have step : exec (.l2TlbEviction d k) s =
      event ((s.modDie d fun x => { x with l2tlb := x.l2tlb.eraseIdx k }).dropFirst d fun u => e.same u) := by
    show execL2TlbEviction d k s = _
    rw [execL2TlbEviction, entry]
  have die : ((s.modDie d fun x => { x with l2tlb := x.l2tlb.eraseIdx k }).die d).l2tlb = (s.die d).l2tlb.eraseIdx k := by
    rw [State.die_modDie]
  have rest : (s.modDie d fun x => { x with l2tlb := x.l2tlb.eraseIdx k }).harts = s.harts ∧
    (s.modDie d fun x => { x with l2tlb := x.l2tlb.eraseIdx k }).mem = s.mem := ⟨rfl, rfl⟩
  generalize (s.modDie d fun x => { x with l2tlb := x.l2tlb.eraseIdx k }) = u at step die rest
  obtain ⟨dies, mem⟩ := u.dropFirst_rest d fun f => e.same f
  have harts := (u.dropFirst_frame d fun f => e.same f).harts
  have clean (c : Nat) := u.dropFirst_core d (fun f => e.same f) (c := c)
  generalize (u.dropFirst d fun f => e.same f) = t at step dies mem harts clean
  refine ⟨t.happen, step, ?_, harts.trans rest.1, mem.trans rest.2, clean⟩
  exact (congrArg (fun l => (getAt Die.reset l d).l2tlb) dies).trans die

/-! ## TIMER, WATCHDOG and PREEMPT_REQUEST (R256, R258, R264) -/

theorem State.mixPass_harts (s : State) (src dst n : Nat) : (s.mixPass src dst n).harts = s.harts := by
  unfold State.mixPass
  refine foldl_keeps (P := fun t : State => t.harts = s.harts) (fun (t : State) i =>
    if Config.choice (s.fresh + i) && !t.writeHeld (dst + i) 1 then t.homeWrite none (dst + i) [s.homeByte (src + i)] else t)
    (fun t i same => ?_) (List.range n) s rfl
  split
  · exact (t.homeWrite_frame _ _ _).harts.trans same
  · exact same

theorem State.leavePass_harts (s : State) (h : Nat) : (s.leavePass h).harts = s.harts := by
  unfold State.leavePass
  dsimp only
  split
  · split
    · rfl
    · exact s.mixPass_harts _ _ _
  · split
    · rfl
    · exact s.mixPass_harts _ _ _
  · rfl

/-- The hart as a trap at a boundary finds it. -/
def Hart.atBoundary (x : Hart) (vstart : Nat) : Hart := { x.stopLoad with vstart := vstart }

theorem Hart.atBoundary_kept (x : Hart) (n : Nat) :
    (x.atBoundary n).pack = x.pack ∧ (x.atBoundary n).stvec = x.stvec ∧ (x.atBoundary n).sstart = x.sstart := by
  obtain ⟨vs, vb, di, el, shape⟩ := x.stopLoad_shape
  unfold Hart.atBoundary
  rw [shape]
  exact ⟨rfl, rfl, rfl⟩

theorem State.boundaryTrap_eq (s : State) (h : Nat) (int : Bool) (cause : Nat) (stval : Word) : s.boundaryTrap h int cause stval =
    ((s.modHart h fun y => y.atBoundary (s.hart h).stopVstart).takeTrap h int cause (s.hart h).resumePc stval
      (s.peekWord h (s.hart h).resumePc)).happen := rfl

/-- A trap at a boundary of a hart outside a pack region. -/
theorem State.boundaryTrap_writes {s : State} {h cause : Nat} (stval : Word) (outside : (s.hart h).pack = none) (small : cause < 32) :
    let y := (s.boundaryTrap h true cause stval).hart h
    y.sepc = (s.hart h).resumePc &&& ~~~7#64 ∧ y.scause = BitVec.ofNat 64 (2 ^ 63 + cause) ∧ y.stval = stval ∧
      y.priv = .sup ∧ y.pc = (s.hart h).stvec ∧ y.sstart = (s.hart h).sstart := by
  rw [State.boundaryTrap_eq]
  obtain ⟨pack, stvec, sstart⟩ := (s.hart h).atBoundary_kept (s.hart h).stopVstart
  have hart : (s.modHart h fun y => y.atBoundary (s.hart h).stopVstart).hart h = (s.hart h).atBoundary (s.hart h).stopVstart :=
    State.hart_setHart _ _ _
  generalize (s.modHart h fun y => y.atBoundary (s.hart h).stopVstart) = u at hart
  rw [← hart] at pack stvec sstart
  obtain ⟨sepc, scause, value, priv, entry, start⟩ := State.takeTrap_writes true (s.hart h).resumePc stval
    (s.peekWord h (s.hart h).resumePc) (pack.trans outside) small
  generalize u.takeTrap h true cause _ stval _ = v at sepc scause value priv entry start ⊢
  exact ⟨sepc, scause, value, priv, entry.trans stvec, start.trans sstart⟩

theorem State.asyncDue_timer {s : State} {h : Nat} (quiet : (s.hart h).asyncs = []) (set : (s.hart h).sstart ≠ 0)
    (due : (s.hart h).sstart.toNat ≤ s.gtime) (enabled : (s.hart h).priv = .user ∨ wbit (s.hart h).sstatus 1 = true)
    (stands : s.interruptible h 15 = true) : s.asyncDue h = some (15, 0) := by
  have timer : s.timerDue h = true := by
    unfold State.timerDue
    dsimp only
    rw [decide_eq_true due, Bool.and_true]
    exact bne_iff_ne.mpr set
  have pending : s.pending h = [(15, 0)] := by rw [State.pending, quiet, timer]; rfl
  have open_ : ¬ ((s.hart h).priv = .sup && !(s.hart h).sie) = true := by
    rcases enabled with user | sie
    · rw [user]
      simp
    · rw [Hart.sie, sie]
      simp
  unfold State.asyncDue
  dsimp only
  rw [if_neg open_, pending]
  exact if_pos stands

/-- The hart has taken note of a cause. -/
def State.noted (s : State) (h : Nat) (c : Nat × Word) : State := (s.modHart h fun x => { x with asyncs := x.asyncs.erase c }).leavePass h

theorem State.takeAsync_outside {s : State} {h : Nat} (outside : (s.hart h).pack = none) (c : Nat × Word) :
    s.takeAsync h c = (s.noted h c).boundaryTrap h true c.1 c.2 := by
  have member : (s.hart h).member = none := by rw [Hart.member, outside]
  unfold State.takeAsync
  rw [member]
  rfl

theorem State.noted_hart (s : State) (h : Nat) (c : Nat × Word) :
    (s.noted h c).hart h = { s.hart h with asyncs := (s.hart h).asyncs.erase c } := by
  rw [State.noted, State.hart, State.leavePass_harts]
  exact State.hart_setHart _ _ _

theorem exec_timer {s : State} {h : Nat} (noReplay : (s.hart h).inReplay = false) (noSync : s.syncBoundary h = none)
    (due : s.asyncDue h = some (15, 0)) : exec (.timer h) s = event (s.takeAsync h (15, 0)) := by
  show execTimer h s = _
  unfold execTimer
  rw [if_neg (by rw [noReplay]; decide), noSync, due]
  exact if_pos rfl

theorem timerTrap (s : State) (h : Nat) (quiet : (s.hart h).asyncs = []) (set : (s.hart h).sstart ≠ 0)
    (due : (s.hart h).sstart.toNat ≤ s.gtime) (enabled : (s.hart h).priv = .user ∨ wbit (s.hart h).sstatus 1 = true)
    (stands : s.interruptible h 15 = true) (noReplay : (s.hart h).inReplay = false) (noSync : s.syncBoundary h = none)
    (outside : (s.hart h).pack = none) :
    ∃ t, exec (.timer h) s = .next t ∧ (t.hart h).scause = 0x800000000000000F#64 ∧ (t.hart h).stval = 0 ∧
      (t.hart h).sepc = (s.hart h).resumePc &&& ~~~7#64 ∧ (t.hart h).pc = (s.hart h).stvec ∧ (t.hart h).priv = .sup ∧
      (t.hart h).sstart = (s.hart h).sstart := by
  have step := exec_timer noReplay noSync (State.asyncDue_timer quiet set due enabled stands)
  rw [State.takeAsync_outside outside] at step
  have hart := s.noted_hart h (15, 0)
  generalize s.noted h (15, 0) = u at step hart
  have resume : (u.hart h).resumePc = (s.hart h).resumePc := (congrArg Hart.resumePc hart :)
  obtain ⟨sepc, scause, value, priv, entry, start⟩ := State.boundaryTrap_writes (s := u) (h := h) (cause := 15) 0
    ((congrArg Hart.pack hart :).trans outside) (by decide)
  rw [resume] at sepc
  generalize u.boundaryTrap h true 15 0 = v at step sepc scause value priv entry start
  exact ⟨v.happen, step, scause.trans (by decide), value, sepc, entry.trans (congrArg Hart.stvec hart :), priv, start.trans (congrArg Hart.sstart hart :)⟩

theorem watchdogReport (s : State) (h : Nat) (compute : h < 1024) (task : (s.hart h).task ≠ none) (user : (s.hart h).priv = .user)
    (limit : field (s.die (dieOf h)).wdctl 0 32 ≠ 0) (new : (s.hart h).reported = false) (runs : s.fatal = none)
    (late : (s.hart h).progress + 1000 * field (s.die (dieOf h)).wdctl 0 32 ≤ s.gtime) :
    ∃ t, exec (.watchdog h) s = .next t ∧ t.mem = s.mem ∧ (t.hart h).reported = true ∧
      (t.hart (controlHart (dieOf h))).asyncs = (s.hart (controlHart (dieOf h))).asyncs ++ [(16, BitVec.ofNat 64 h)] := by
  have due : s.watchdogDue h = true := by
    unfold State.watchdogDue
    simp [compute, Option.isSome_iff_ne_none.mpr task, user, limit, new, runs, late]
  have other : controlHart (dieOf h) ≠ h := by
    unfold controlHart
    omega
  refine ⟨_, if_pos due, rfl, ?_, ?_⟩
  · refine (congrArg Hart.reported (State.hart_setHart_ne _ _ _ _ other) :).trans ?_
    exact (congrArg Hart.reported (State.hart_setHart _ _ _) :)
  · refine (congrArg Hart.asyncs (State.hart_setHart _ _ _) :).trans ?_
    exact congrArg (fun x : Hart => x.asyncs ++ [(16, BitVec.ofNat 64 h)]) (State.hart_setHart_ne _ _ _ _ other.symm)

theorem preemptRequest (s : State) (h : Nat) (compute : h < 1024) : ∃ t, exec (.preemptRequest h) s = .next t ∧ t.mem = s.mem ∧
    (∃ p ∈ (t.hart h).asyncs, p.1 = 10) ∧ ∀ k, k ≠ h → t.hart k = s.hart k := by
  refine ⟨(s.requestPreempt h).happen, if_pos compute, rfl, ?_, fun k other => State.hart_setHart_ne s h k _ other.symm⟩
  have hart : ((s.requestPreempt h).happen.hart h) = if (s.hart h).asyncs.any (fun a => a.1 == 10) then s.hart h else
      { s.hart h with asyncs := (s.hart h).asyncs ++ [(10, 0)] } := State.hart_setHart _ _ _
  rw [hart]
  split
  · next there =>
    obtain ⟨p, mem, ten⟩ := List.any_eq_true.mp there
    exact ⟨p, mem, beq_iff_eq.mp ten⟩
  · exact ⟨(10, 0), List.mem_append_right _ (List.mem_singleton_self _), rfl⟩

/-- Settles O48. -/
theorem boundarySteps : Obligations.BoundarySteps :=
  ⟨fetchTraps, fun s u h n w wd sp d a off pa m wait kind new item global aligned located memory outside unheld cached tracked uncovered
      miss landed sound => loadData s u h n w wd sp d a off pa m wait kind new item global aligned located memory outside unheld cached
        tracked uncovered miss landed sound,
    pageWalk, l2Eviction, timerTrap, watchdogReport, preemptRequest⟩

end Sys2Proof.Machine

/-! PROOF of ErrorSteps: the poison of a failed agent, what a retired core keeps, and the fatal stop. -/

namespace Sys2Proof.Machine

/-! ## Poisoned words (R199) -/

theorem mem_addWord_self (bad : List Nat) (w : Nat) : w ∈ addWord bad w := by
  unfold addWord
  split
  · next there => exact List.contains_iff_mem.mp there
  · exact List.mem_cons_self

theorem mem_addWord_of_mem {bad : List Nat} {v : Nat} (w : Nat) (there : v ∈ bad) : v ∈ addWord bad w := by
  unfold addWord
  split
  · exact there
  · exact List.mem_cons_of_mem w there

theorem mem_addWords_of_mem {bad : List Nat} {v : Nat} (ws : List Nat) (there : v ∈ bad) : v ∈ ws.foldl addWord bad :=
  foldl_keeps addWord (P := fun l => v ∈ l) (fun _ w there => mem_addWord_of_mem w there) ws bad there

theorem mem_addWords {v : Nat} {ws : List Nat} (named : v ∈ ws) (bad : List Nat) : v ∈ ws.foldl addWord bad := by
  induction ws generalizing bad with
  | nil => cases named
  | cons w ws ih =>
    rcases List.mem_cons.mp named with rfl | later
    · exact mem_addWords_of_mem ws (mem_addWord_self bad v)
    · exact ih later _

theorem RangeEntry.mem_words {e : RangeEntry} {w : Nat} (covered : e.covers w = true) : w ∈ e.words := by
  simp only [RangeEntry.covers, Bool.and_eq_true, decide_eq_true_eq] at covered
  obtain ⟨⟨above, row⟩, column⟩ := covered
  refine List.mem_flatMap.mpr ⟨_, List.mem_range.mpr row, List.mem_map.mpr ⟨_, List.mem_range.mpr column, ?_⟩⟩
  have parts := Nat.div_add_mod' (w - e.base) e.stride
  omega

theorem mem_of_mem_getAt {α : Type} {l : List (List α)} {k : Nat} {x : α} (there : x ∈ getAt [] l k) : ∃ t ∈ l, x ∈ t := by
  induction l generalizing k with
  | nil => cases k <;> cases there
  | cons t l ih =>
    cases k with
    | zero => exact ⟨t, List.mem_cons_self, there⟩
    | succ k =>
      obtain ⟨u, inside, holds⟩ := ih there
      exact ⟨u, List.mem_cons_of_mem t inside, holds⟩

/-- A word with an owner lies in an entry of that owner. -/
theorem State.ownerOf_entry {s : State} {w : Nat} {o : Owner} (owned : s.ownerOf w = some o) :
    ∃ t ∈ s.tables, ∃ e ∈ t, e.owner = o ∧ w ∈ e.words := by
  unfold State.ownerOf at owned
  obtain ⟨e, found, owner⟩ := Option.map_eq_some_iff.mp owned
  have there : e ∈ getAt [] s.tables (s.homeOf (4 * w)) := List.mem_of_find?_eq_some found
  obtain ⟨t, inside, holds⟩ := mem_of_mem_getAt there
  exact ⟨t, inside, e, holds, owner, RangeEntry.mem_words (List.find?_some (p := fun e : RangeEntry => e.covers w) found)⟩

/-- The homes poison every word of a core that fails. -/
theorem State.poisonAgent_bad {s : State} {n w : Nat} (owned : s.ownerOf w = some (.core n)) :
    w ∈ (s.poisonAgent (.core n)).bad := by
  obtain ⟨t, inside, e, holds, owner, word⟩ := State.ownerOf_entry owned
  have mine : Agent.owns (.core n) e.owner = true := by
    rw [owner]
    exact beq_self_eq_true n
  have kept : e ∈ t.filter fun e => Agent.owns (.core n) e.owner := List.mem_filter.mpr ⟨holds, mine⟩
  have named : w ∈ s.tables.flatMap fun t => (t.filter fun e => Agent.owns (.core n) e.owner).flatMap RangeEntry.words :=
    List.mem_flatMap.mpr ⟨t, inside, List.mem_flatMap.mpr ⟨e, kept, word⟩⟩
  exact mem_addWords named s.bad

theorem State.poisonAgent_regs {s : State} {n : Nat} : ∀ r ∈ (s.poisonAgent (.core n)).regs, r.core ≠ n := by
  intro r there same
  have kept : r ∈ s.regs.filter fun r => !Agent.owns (.core n) (.core r.core) := there
  obtain ⟨_, other⟩ := List.mem_filter.mp kept
  have mine : Agent.owns (.core n) (.core r.core) = true := beq_iff_eq.mpr same.symm
  rw [mine] at other
  cases other

/-! ## A retired core (R199) -/

/-- The core has failed: it is retired, and its L1 holds nothing. -/
def CoreGone (n : Nat) (s : State) : Prop := (s.core n).retired = true ∧ (s.core n).l1 = []

/-- A change of cores that leaves a core's retirement and an empty L1. -/
theorem CoreGone.modCore {n : Nat} {s : State} (gone : CoreGone n s) (c : Nat) {f : Core → Core}
    (keeps : (s.core c).retired = true → (s.core c).l1 = [] → (f (s.core c)).retired = true ∧ (f (s.core c)).l1 = []) :
    CoreGone n (s.modCore c f) := by
  rcases eq_or_ne c n with rfl | other
  · unfold CoreGone
    rw [State.core_modCore]
    exact keeps gone.1 gone.2
  · unfold CoreGone
    rw [State.modCore, State.core_setCore_ne _ _ _ _ other]
    exact gone

/-- Nothing that the homes do brings a word back into the L1 of a core that has failed. -/
theorem CoreGone.steps (n : Nat) : HomeSteps (CoreGone n) where
  table _ _ _ _ gone := gone
  demote s c w gone := gone.modCore c fun retired empty => by
    have absent : (s.core c).l1get w = none := by rw [Core.l1get, empty]; rfl
    rw [absent]
    exact ⟨retired, empty⟩
  other s t _ cores gone := by
    have same : t.core n = s.core n := congrArg (fun l => getAt Core.reset l n) cores
    rw [CoreGone, same]
    exact gone

namespace CoreGone

variable {n : Nat} {s : State} (gone : CoreGone n s)
include gone

theorem modHart (h : Nat) (f : Hart → Hart) : CoreGone n (s.modHart h f) := gone
theorem setPack (p : Pack) : CoreGone n (s.setPack p) := (steps n).devPut p.pa p.bytes gone
theorem dropPack (p : Pack) : CoreGone n (s.dropPack p) := (steps n).devPut (p.pa + 6) [0] gone

theorem packEnd (p : Pack) : CoreGone n (s.packEnd p) := by
  unfold State.packEnd
  extract_lets q t
  have put : CoreGone n t := gone.setPack q
  split
  · exact put.dropPack q
  · exact put

theorem packLeave (obj h : Nat) : CoreGone n (s.packLeave obj h) := by
  unfold State.packLeave
  split
  · exact gone
  · extract_lets q
    split
    · exact gone.packEnd q
    · exact gone

theorem failMember (h : Nat) : CoreGone n (s.failMember h) := by
  unfold State.failMember
  split
  · exact (gone.packLeave _ h).modHart h _
  · exact gone.modHart h _

end CoreGone

theorem State.packEnd_regs (s : State) (p : Pack) : (s.packEnd p).regs = s.regs := ((PackKeeps.refl s).packEnd p).2.1

theorem State.packLeave_regs (s : State) (obj h : Nat) : (s.packLeave obj h).regs = s.regs := by
  unfold State.packLeave
  split
  · rfl
  · extract_lets q
    split
    · exact s.packEnd_regs q
    · rfl

theorem State.failMember_regs (s : State) (h : Nat) : (s.failMember h).regs = s.regs := by
  unfold State.failMember
  split
  · exact s.packLeave_regs _ h
  · rfl

/-- A failed core is retired, its L1 is empty, and no registration comes of it. -/
theorem State.failCore_gone (s : State) (n : Nat) : CoreGone n (s.failCore n) := by
  unfold State.failCore
  refine foldl_keeps (fun (t : State) h => t.failMember h) (fun _ h gone => gone.failMember h) _ _ ?_
  unfold CoreGone
  rw [State.core_modCore]
  exact ⟨rfl, rfl⟩

theorem State.failCore_regs (s : State) (n : Nat) : (s.failCore n).regs = s.regs := by
  unfold State.failCore
  exact foldl_keeps (P := fun u : State => u.regs = s.regs) (fun (t : State) h => t.failMember h)
    (fun u h kept => (u.failMember_regs h).trans kept) _ _ rfl

/-- A hart that is in no pack fails without a write. -/
theorem State.failMember_alone {s : State} {h : Nat} (alone : (s.hart h).pack = none) :
    s.failMember h = s.modHart h Hart.fail := by
  rw [State.failMember, alone]

theorem Hart.undoIssue_pack (x : Hart) (e : VEntry) : (x.undoIssue e).pack = x.pack := by
  unfold Hart.undoIssue
  split <;> rfl

theorem Hart.rollBack_pack (x : Hart) : x.rollBack.pack = x.pack := by
  unfold Hart.rollBack
  split <;> rfl

theorem Hart.fail_pack (x : Hart) : x.fail.pack = x.pack :=
  (foldl_keeps Hart.undoIssue (P := fun y : Hart => y.pack = x.rollBack.pack)
    (fun y e kept => (y.undoIssue_pack e).trans kept) x.vq x.rollBack rfl).trans x.rollBack_pack

/-- Harts that are in no pack fail without a write at the homes. -/
theorem State.failMembers_alone (l : List Nat) {s : State} (alone : ∀ h ∈ l, (s.hart h).pack = none) :
    (l.foldl (fun (t : State) h => t.failMember h) s).mem = s.mem ∧
      (l.foldl (fun (t : State) h => t.failMember h) s).bad = s.bad := by
  induction l generalizing s with
  | nil => exact ⟨rfl, rfl⟩
  | cons h l ih =>
    rw [List.foldl_cons, State.failMember_alone (alone h List.mem_cons_self)]
    refine ih (s := s.modHart h Hart.fail) fun k later => ?_
    have before := alone k (List.mem_cons_of_mem h later)
    rw [State.modHart]
    rcases eq_or_ne h k with rfl | other
    · rw [State.hart_setHart, Hart.fail_pack]
      exact before
    · rw [State.hart_setHart_ne _ _ _ _ other]
      exact before

/-! ## The error log (R276) -/

/-- A log that is not full takes the record. -/
theorem State.logErr_head {s : State} {d : Nat} (r : ErrRec) (room : (s.die d).errHead - (s.die d).errTail ≠ 4096) :
    ((s.logErr d r).die d).errHead = (s.die d).errHead + 1 := by
  rw [State.logErr, State.die_modDie, if_neg room]

/-! ## The fatal stop (R271) -/

theorem State.writeDump_fatal (s : State) (f : Fatal) (base : Nat) : (s.writeDump f base).fatal = s.fatal := by
  unfold State.writeDump
  exact foldl_keeps (P := fun u : State => u.fatal = s.fatal)
    (fun (t : State) (p : Nat × List Byte) => t.memPut (base + p.1 * 2 ^ 30 + 4096) p.2) (fun u p kept => (u.memPut_fatal _ _).trans kept) _ _ (s.memPut_fatal _ _)

theorem State.fatalStop_fatal (s : State) (c : FatalCause) (origin dies : Nat) :
    (s.fatalStop c origin dies).fatal =
      some { cause := fatalCode c, time := s.gtime, origin := origin, dies := dies % 16 } := by
  unfold State.fatalStop
  dsimp only
  split
  · exact State.writeDump_fatal _ _ _
  · rfl

theorem execFatalError_stops {c : FatalCause} {origin : Nat} (dies : Nat) {s : State} (runs : s.fatal = none) (die : origin < 4)
    (row : c ≠ .thermal) : exec (.fatalError c origin dies) s = event (s.fatalStop c origin dies) := by
  show execFatalError c origin dies s = _
  rw [execFatalError, if_neg]
  simp [runs, die, row]

theorem execThermalTrip_stops {origin : Nat} (flow : Bool) {s : State} (runs : s.fatal = none) (die : origin < 4) :
    exec (.thermalTrip origin flow) s = event (s.fatalStop .thermal origin 15) := by
  show execThermalTrip origin flow s = _
  rw [execThermalTrip, if_neg]
  simp [runs, die]

/-! ## Bring-up ends the stop (R271, R290) -/

/-- Nothing stops the package and no access is waited for. -/
def Unstopped (s : State) : Prop := s.fatal = none ∧ s.want = none

theorem State.coldReset_unstopped (s : State) : Unstopped s.coldReset := ⟨rfl, rfl⟩

theorem State.reportPorts_unstopped {s : State} (failed : List Nat) (free : Unstopped s) : Unstopped (s.reportPorts failed) :=
  foldl_keeps (fun (t : State) p => t.logPort p 1) (fun _ _ kept => kept) _ s free

theorem State.train_unstopped {s : State} (b : BringUp) (free : Unstopped s) : Unstopped (s.train b) := by
  unfold State.train
  extract_lets u
  have begun : Unstopped u := free
  clear_value u
  split
  · exact begun
  · split
    · exact begun
    · have repaired : Unstopped { u with repair := repairOf b.failedPcs } := begun
      exact foldl_keeps (P := Unstopped) (fun (t : State) (k : Nat) => t.modHart (1024 + k) fun x => { x with pc := b.entry })
        (fun _ _ kept => kept) _ _ (State.reportPorts_unstopped b.failedPorts repaired)

theorem execBringUp_unstopped (b : BringUp) (s : State) : ∃ t, exec (.bringUp b) s = .next t ∧ Unstopped t := by
  have fresh := s.coldReset_unstopped
  have row : exec (.bringUp b) s =
      event (if b.imageOk then s.coldReset.train b else { s.coldReset with bringup := .recovery, linkUp := b.cxlOk }) := rfl
  generalize s.coldReset = u at fresh row
  refine ⟨_, row, ?_⟩
  split
  · exact u.train_unstopped b fresh
  · exact fresh

theorem isEvent_bringUp (b : BringUp) : isEvent (.bringUp b) = true := rfl

/-- Of a stopped package an event takes place where the host's link is enough for it. -/
theorem step_stopped {s : State} {f : Fatal} {i : Instr} {rest : List Move} (stop : s.fatal = some f)
    (agenda : s.agenda = .event i :: rest) :
    step s = if staysUp i then State.move { s with agenda := rest } (.event i) else .fault .fatalStop := by
  unfold step
  split
  · next runs _ => cases stop.symm.trans runs
  · next runs _ => cases stop.symm.trans runs
  · next named => cases agenda.symm.trans named; rfl
  · next other => exact absurd agenda (other i rest)

/-- A move of the agenda that makes a step which waits for nothing is that step. -/
theorem State.move_event {s t : State} {i : Instr} (row : isEvent i = true) (next : exec i s = .next t) (free : t.want = none) :
    s.move (.event i) = .next t := by
  have passes : s.freed (.next t) = some t := by simp only [State.freed, free]
  rw [State.move, if_pos row, next]
  dsimp only
  rw [passes]

/-! ## The obligation -/

/-- Settles O49, one clause for each kind of error. -/
theorem errorSteps : Obligations.ErrorSteps := by
  unfold Obligations.ErrorSteps
  refine ⟨?registers, ?lane, ?core, ?control, ?fatal, ?stopped⟩
  case registers =>
    intro s h reg word syn compute x die logged
    have there : ¬1032 ≤ h := by omega
    have plain : ¬isControl h = true := by
      rw [isControl, decide_eq_true_eq]
      omega
    refine ⟨fun low high => ?_, fun (named : reg < (s.hart h).nvreg) (fits : 4 * word + 4 ≤ (s.hart h).vbytes) => ?_⟩
    · have step : exec (.registerSoftError h reg word true syn) s =
          event ((s.modHart h fun y => { y with sbad := y.sbad ||| (1#64 <<< reg) }).logErr (dieOf h)
            (errOf s 2 (coreOf h) (localHart h) reg (BitVec.ofNat 64 0) syn)) := by
        show execRegisterSoftError h reg word true syn s = _
        rw [execRegisterSoftError, if_neg there, if_neg plain, if_pos rfl, if_neg (by simp; omega)]
      have hart := s.hart_setHart h { s.hart h with sbad := (s.hart h).sbad ||| (1#64 <<< reg) }
      exact ⟨_, step, State.logErr_head _, rfl, (congrArg Hart.sbad hart :), (congrArg Hart.s hart :)⟩
    · have step : exec (.registerSoftError h reg word false syn) s =
          event ((s.modHart h fun y => { y with vbad := addWord y.vbad (vaddr (BitVec.ofNat 6 reg) (4 * word) / 4) }).logErr (dieOf h)
            (errOf s 1 (coreOf h) (localHart h) reg (BitVec.ofNat 64 (4 * word / ((s.hart h).vew / 8))) syn)) := by
        show execRegisterSoftError h reg word false syn s = _
        rw [execRegisterSoftError, if_neg there, if_neg plain, if_neg Bool.false_ne_true, if_neg (by simp; omega)]
      have hart := s.hart_setHart h
        { s.hart h with vbad := addWord (s.hart h).vbad (vaddr (BitVec.ofNat 6 reg) (4 * word) / 4) }
      refine ⟨_, step, State.logErr_head _, rfl, fun _ => ?_⟩
      exact (congrArg (fun y : Hart => vaddr (BitVec.ofNat 6 reg) (4 * word) / 4 ∈ y.vbad) hart :).mpr (mem_addWord_self _ _)
  case lane =>
    intro s core lane elem syn compute named element working ch
    have step : ∃ r, exec (.laneRetired core lane elem syn) s =
        event (((s.modCore core fun c => { c with lanedis := c.lanedis ||| (1#16 <<< (lane / 16)) }).logErr (dieOfCore core) r).modHart
          ch fun x => { x with asyncs := x.asyncs ++ [(13, BitVec.ofNat 64 (core * 2 ^ 56 + lane * 2 ^ 48 + elem))] }) := by
      refine ⟨errOf (s.modCore core fun c => { c with lanedis := c.lanedis ||| (1#16 <<< (lane / 16)) }) 11 core 255
        (lane * 256 + lane / 16) (BitVec.ofNat 64 elem) syn, ?_⟩
      show execLaneRetired core lane elem syn s = _
      rw [execLaneRetired]
      dsimp only
      rw [if_neg]
      rw [working]
      simp
      omega
    obtain ⟨r, step⟩ := step
    have hart := s.hart_setHart ch { s.hart ch with
      asyncs := (s.hart ch).asyncs ++ [(13, BitVec.ofNat 64 (core * 2 ^ 56 + lane * 2 ^ 48 + elem))] }
    have mark := s.core_modCore core fun c => { c with lanedis := c.lanedis ||| (1#16 <<< (lane / 16)) }
    exact ⟨_, step, rfl, (congrArg Core.lanedis mark :), (congrArg Hart.asyncs hart :),
      fun k other => s.hart_setHart_ne ch k _ (Ne.symm other)⟩
  case core =>
    intro s n syn compute working
    have step : ∃ r, exec (.agentFailure (.core n) syn) s = event (((s.poisonAgent (.core n)).failCore n).logErr (dieOfCore n) r) := by
      refine ⟨errOf s 3 n 255 0 0 syn, ?_⟩
      show execAgentFailure (.core n) syn s = _
      have works : s.agentWorks (.core n) = true := by
        rw [State.agentWorks, working]
        simp
        omega
      rw [execAgentFailure, if_pos works]
      dsimp only [Agent.record]
      rw [if_neg (by simp; omega)]
      rfl
    obtain ⟨r, step⟩ := step
    have gone := (s.poisonAgent (.core n)).failCore_gone n
    refine ⟨_, step, gone.1, gone.2, ?_, fun alone => ?_⟩
    · intro r there
      refine State.poisonAgent_regs (s := s) r ?_
      rw [← (s.poisonAgent (.core n)).failCore_regs n]
      exact there
    · obtain ⟨mem, bad⟩ := State.failMembers_alone (hartsOf n) (s := (s.poisonAgent (.core n)).modCore n fun x =>
        { x with retired := true, l1 := [], ul1 := [], chans := List.replicate 4 [], leaseq := [] }) alone
      refine ⟨fun w owned => ?_, mem⟩
      have poison := State.poisonAgent_bad owned
      exact bad.symm ▸ poison
  case control =>
    intro s k reg word syn control runs stops
    have core : coreOf (1024 + k) = 128 + k := by
      rw [coreOf, if_neg (by omega)]
      omega
    have die : dieOfCore (128 + k) = k / 2 := by
      rw [dieOfCore, if_neg (by omega)]
      omega
    have halts {i : Instr} {r : ErrRec} (step : exec i s = event ((s.logErr (k / 2) r).fatalStop .controlState (k / 2) 15)) :
        stops i :=
      ⟨_, _, step, State.fatalStop_fatal _ _ _ _, rfl, rfl, rfl⟩
    refine ⟨fun low high => halts (r := errOf s 2 (coreOf (1024 + k)) (localHart (1024 + k)) reg (BitVec.ofNat 64 0) syn) ?_,
      fun working => halts (r := errOf s 3 (128 + k) 255 0 0 syn) ?_⟩
    · show execRegisterSoftError (1024 + k) reg word true syn s = _
      have supervises : isControl (1024 + k) = true := decide_eq_true (Nat.le_add_right 1024 k)
      rw [execRegisterSoftError, if_neg (by omega), if_pos supervises, if_neg (by simp [runs]; omega), dieOf, core, die]
    · show execAgentFailure (.core (128 + k)) syn s = _
      have works : s.agentWorks (.core (128 + k)) = true := by
        rw [State.agentWorks, working]
        simp
        omega
      rw [execAgentFailure, if_pos works]
      dsimp only [Agent.record]
      rw [if_pos (by simp; omega), if_neg (by simp [runs]), die]
  case fatal =>
    intro s c origin dies runs die
    exact ⟨fun row => ⟨_, _, execFatalError_stops dies runs die row, s.fatalStop_fatal c origin dies, rfl, rfl, rfl, by cases c <;> rfl⟩,
      fun flow => ⟨_, _, execThermalTrip_stops flow runs die, s.fatalStop_fatal .thermal origin 15, rfl, rfl⟩⟩
  case stopped =>
    intro s f stop
    refine ⟨fun b rest agenda => ?_, fun down => ?_, fun i rest agenda up => ?_⟩
    · obtain ⟨t, next, free, want⟩ := execBringUp_unstopped b { s with agenda := rest }
      refine ⟨t, ?_, free⟩
      rw [step_stopped stop agenda, if_pos (show staysUp (.bringUp b) = true from rfl)]
      exact State.move_event (isEvent_bringUp b) next want
    · match agenda : s.agenda with
      | .event i :: rest =>
        rw [step_stopped stop agenda, if_neg (by rw [down i rest agenda]; exact Bool.false_ne_true)]
      | .issue _ :: _ | .time _ :: _ | [] => rw [step, stop, agenda]
    · rw [step_stopped stop agenda, if_pos up]

end Sys2Proof.Machine

/-! PROOF of RegisterWrites: what a write of each control register leaves. -/

namespace Sys2Proof.Machine

/-! ## Fields of a written word -/

theorem field_eq_extractLsb' (v : Word) (lo n : Nat) : field v lo n = (v.extractLsb' lo n).toNat := by
  rw [BitVec.extractLsb'_toNat, Nat.shiftRight_eq_div_pow, field]

/-- A mask that keeps a whole field. -/
theorem field_and {v m : Word} {lo n : Nat} (kept : m.extractLsb' lo n = BitVec.allOnes n) : field (v &&& m) lo n = field v lo n := by
  rw [field_eq_extractLsb', field_eq_extractLsb', BitVec.extractLsb'_and, kept, BitVec.and_allOnes]

theorem wbit_and {v m : Word} {i : Nat} (kept : wbit m i = true) : wbit (v &&& m) i = wbit v i := by
  rw [wbit, BitVec.getLsbD_and, show m.getLsbD i = true from kept, Bool.and_true, wbit]

/-! ## TRCTL (R161) -/

/-- The core's trace unit with a write of TRCTL that is due, and with one that waits. -/
def Core.tracing (x : Core) (w : Word) : Core := { x with trace := { x.trace with ctl := w, closing := none } }
def Core.closing (x : Core) (w : Word) : Core := { x with trace := { x.trace with closing := some w } }

/-- The core with a write of PARTCORE that waits, and with one that has taken effect. -/
def Core.pending (x : Core) (v : Word) : Core := { x with partPending := some (v &&& 0x10F#64) }
def Core.repartitioned (x : Core) (w : Word) : Core :=
  { x with part := field w 0 4, assigned := wbit w 8, partPending := none, binds := [], l1 := x.l1.map fun y => { y with slot := 0 } }

/-- A record waits at its home whatever the trace unit's control word. -/
theorem State.ringPut_closing (s : State) (c : Nat) (w : Word) :
    (s.modCore c fun x => x.closing w).ringPut c = s.ringPut c := by
  unfold State.ringPut
  rw [State.core_modCore]
  rfl

theorem State.writeTrctl_now {s : State} {c : Nat} {v : Word}
    (now : wbit v 0 = true ∨ wbit (s.core c).trace.ctl 0 = false ∨
      ((s.core c).trace.sync = none ∧ (s.core c).trace.sample = false ∧ s.ringPut c = none)) :
    (s.writeTrctl c v) = (s.modCore c fun x => x.tracing (v &&& 0xFFF003#64)) := by
  have enables : wbit (keep 0xFFF003 v) 0 = wbit v 0 := wbit_and rfl
  unfold State.writeTrctl
  dsimp only
  rw [enables]
  split
  · rfl
  · next waits =>
    rw [Bool.or_eq_true, Bool.not_eq_true', not_or] at waits
    obtain ⟨sync, sample, record⟩ := (now.resolve_left waits.1).resolve_left waits.2
    show (s.modCore c fun x => x.closing (keep 0xFFF003 v)).closeTrace c = _
    unfold State.closeTrace
    rw [State.ringPut_closing, State.core_modCore]
    dsimp only [Core.closing]
    rw [if_neg (by rw [sync, sample, record]; simp)]
    simp only [State.modCore, State.setCore, State.core, getAt_putAt_self, putAt_putAt, Core.tracing, keep]

theorem State.writeTrctl_later {s : State} {c : Nat} {v : Word}
    (later : ¬(wbit v 0 = true ∨ wbit (s.core c).trace.ctl 0 = false ∨
      ((s.core c).trace.sync = none ∧ (s.core c).trace.sample = false ∧ s.ringPut c = none))) :
    (s.writeTrctl c v) = (s.modCore c fun x => x.closing (v &&& 0xFFF003#64)) := by
  have enables : wbit (keep 0xFFF003 v) 0 = wbit v 0 := wbit_and rfl
  rw [not_or, not_or] at later
  obtain ⟨clears, enabled, busy⟩ := later
  unfold State.writeTrctl
  dsimp only
  rw [enables, if_neg (by rw [Bool.or_eq_true, Bool.not_eq_true', not_or]; exact ⟨clears, enabled⟩)]
  show (s.modCore c fun x => x.closing (keep 0xFFF003 v)).closeTrace c = _
  unfold State.closeTrace
  rw [State.ringPut_closing, State.core_modCore]
  dsimp only [Core.closing]
  rw [if_pos]
  · rfl
  · by_contra free
    rw [Bool.or_eq_true, Bool.or_eq_true, not_or, not_or] at free
    obtain ⟨⟨sync, sample⟩, record⟩ := free
    exact busy ⟨Option.not_isSome_iff_eq_none.mp sync, Bool.eq_false_iff.mpr sample, Option.not_isSome_iff_eq_none.mp record⟩

/-! ## A change of one core or one die -/

theorem State.modCore_others (s : State) (c : Nat) (f : Core → Core) : ∀ k, k ≠ c → (s.modCore c f).core k = s.core k :=
  fun k other => s.core_setCore_ne c k _ other.symm

theorem State.modDie_others (s : State) (d : Nat) (f : Die → Die) : ∀ k, k ≠ d → (s.modDie d f).die k = s.die k :=
  fun k other => s.die_setDie_ne d k _ other.symm

/-! ## Levels (R275) -/

/-- The die with a write of QRING. -/
def Die.qringed (z : Die) (part level : Nat) (size : Bool) (v : Word) : Die :=
  let l := z.level part level
  if !l.recs.isEmpty then z
  else if size then
    let n := field v 0 5
    if n = 0 || (decide (10 ≤ n) && decide (n ≤ 24)) then z.setLevel part level { l with log := n, first := 0 } else z
  else z.setLevel part level { l with base := v, first := 0 }

theorem State.writeMrreclaim_others (s : State) (d : Nat) (v : Word) : ∀ k, k ≠ d → (s.writeMrreclaim d v).die k = s.die k :=
  s.modDie_others d fun x => { x with slots := reclaimSlots (field v 0 8) 0 x.slots }

theorem State.writeThctl_die (s : State) (d : Nat) (v : Word) : (s.writeThctl d v).die d = { s.die d with thctl := keep 0x10F v } :=
  s.die_modDie d _
theorem State.writeWdctl_die (s : State) (d : Nat) (v : Word) :
    (s.writeWdctl d v).die d = { s.die d with wdctl := keep 0xFFFFFFFF v } := s.die_modDie d _
theorem State.writeErrtail_die (s : State) (d : Nat) (v : Word) : (s.writeErrtail d v).die d = { s.die d with errTail := v.toNat } :=
  s.die_modDie d _
theorem State.writeXgtimeout_die (s : State) (d : Nat) (v : Word) : (s.writeXgtimeout d v).die d = { s.die d with xgtimeout := v } :=
  s.die_modDie d _

/-- A level is written only while it is empty. -/
theorem State.writeQring_level (s : State) (d part level : Nat) (size : Bool) (v : Word) :
    let x := (s.die d).level part level
    let y := ((s.writeQring d part level size v).die d).level part level
    let ok := field v 0 5 = 0 ∨ (10 ≤ field v 0 5 ∧ field v 0 5 ≤ 24)
    (x.recs ≠ [] → y = x) ∧ (x.recs = [] →
      (size = false → y = { x with base := v, first := 0 }) ∧
      (size = true → ok → y = { x with log := field v 0 5, first := 0 }) ∧ (size = true → ¬ ok → y = x)) := by
  intro x y ok
  have die := s.die_modDie d fun z => z.qringed part level size v
  have written : y = Die.level ((s.die d).qringed part level size v) part level := congrArg (fun z => Die.level z part level) die
  clear_value y
  subst written
  clear die
  have sized : (field v 0 5 = 0 || (decide (10 ≤ field v 0 5) && decide (field v 0 5 ≤ 24))) = true ↔ ok := by
    rw [Bool.or_eq_true, Bool.and_eq_true, decide_eq_true_eq, decide_eq_true_eq, decide_eq_true_eq]
  unfold Die.qringed
  dsimp only
  refine ⟨fun full => ?_, fun empty => ⟨fun base => ?_, fun log fits => ?_, fun log unfit => ?_⟩⟩
  · rw [if_pos (by rw [Bool.not_eq_true', List.isEmpty_eq_false_iff]; exact full)]
  · subst base
    rw [if_neg (by rw [show (s.die d).level part level = x from rfl, empty]; simp), if_neg Bool.false_ne_true, Die.level_setLevel]
  · subst log
    rw [if_neg (by rw [show (s.die d).level part level = x from rfl, empty]; simp), if_pos rfl, if_pos (sized.mpr fits),
      Die.level_setLevel]
  · subst log
    rw [if_neg (by rw [show (s.die d).level part level = x from rfl, empty]; simp), if_pos rfl, if_neg (mt sized.mp unfit)]

/-! ## Queues (R281) -/

/-- A look at the homes changes nothing but what the step may have to wait for. -/
theorem State.lookAt_eq (s : State) (pa n : Nat) : s.lookAt pa n = { s with want := (s.lookAt pa n).want } := by
  unfold State.lookAt
  split <;> rfl

theorem State.homeBytes_want (s : State) (w : Option (Nat × Nat × Bool)) (pa n : Nat) :
    State.homeBytes { s with want := w } pa n = s.homeBytes pa n := by
  induction n generalizing pa with
  | zero => rfl
  | succ n ih => exact congrArg (List.cons (s.homeByte pa)) (ih (pa + 1))

theorem State.lookAt_levelFull (s : State) (pa n d part : Nat) (r : TaskRec) :
    (s.lookAt pa n).levelFull d part r = s.levelFull d part r := by
  rw [State.lookAt_eq]
  rfl

theorem State.lookAt_homeBytes (s : State) (pa n a k : Nat) : (s.lookAt pa n).homeBytes a k = s.homeBytes a k := by
  rw [State.lookAt_eq, State.homeBytes_want]

/-- The package once a die maps queue `q` as the word `v` says. -/
def State.mapped (s : State) (d q : Nat) (v : Word) : State :=
  { s.modDie d fun x => { x with qmap := (q, v &&& 0xFFFFFFFFFFFFC1#64) :: x.qmap.filter fun e => e.1 != q } with
    descs := (q, 64 * field v 6 50) :: s.descs.filter fun e => e.1 != q }

/-- The package once a die maps queue `q` no more. -/
def State.unmapped (s : State) (d q : Nat) (v : Word) : State :=
  { s.modDie d fun x => { x with qmap := (q, v &&& 0xFFFFFFFFFFFFC0#64) :: x.qmap.filter fun e => e.1 != q } with
    notified := s.notified.filter fun n => n != (q, d) }

/-- PENDING of the descriptor clears. -/
def State.pendingClear (s : State) (d : Nat) (v : Word) : State :=
  s.agentWrite (some (.sched d)) (64 * field v 6 50 + 32) [0]

theorem State.mapQueue_eq (s : State) (d q : Nat) (v : Word) :
    s.mapQueue d q v = (((s.mapped d q v).pendingClear d v).processQueue d (64 * field v 6 50)).happen := by
  have address : field (keep 0xFFFFFFFFFFFFC1 v) 6 50 = field v 6 50 := field_and rfl
  unfold State.mapQueue
  dsimp only
  rw [address]
  rfl

/-- An empty queue asks for no more than a look at its descriptor. -/
theorem State.processQueue_empty {s : State} {d desc : Nat}
    (empty : leNat (s.homeBytes (desc + 24) 8) = leNat (s.homeBytes (desc + 16) 8)) :
    s.processQueue d desc = s.lookAt desc 32 := by
  unfold State.processQueue
  rw [empty, Nat.add_sub_cancel_left, Nat.mod_self]
  rfl

/-- What a write leaves but for the count of happenings. -/
theorem event_epoch {i : Instr} {s u : State} (step : exec i s = event u.happen) :
    ∃ t, exec i s = .next t ∧ t = { u with epoch := t.epoch } :=
  ⟨_, step, rfl⟩

theorem execQueueMap_maps {s : State} {d q : Nat} {v : Word} (up : s.offered = true) (die : d < 4) (queue : q < 4096)
    (maps : wbit v 0 = true) : exec (.queueMap d q v) s =
      event (((s.mapped d q v).pendingClear d v).processQueue d (64 * field v 6 50)).happen := by
  show execQueueMap d q v s = _
  rw [execQueueMap, if_pos (by simp [up, die, queue, maps]), State.mapQueue_eq]

theorem execQueueUnmap_unmaps {s : State} {d q : Nat} {v : Word} (up : s.offered = true) (die : d < 4) (queue : q < 4096)
    (unmaps : wbit v 0 = false) : exec (.queueUnmap d q v) s = event (s.unmapQueue d q v) := by
  show execQueueUnmap d q v s = _
  rw [execQueueUnmap, if_pos (by simp [up, die, queue, unmaps])]

theorem State.unmapQueue_quiet {s : State} {d q : Nat} {v : Word} (quiet : s.notified.contains (q, d) = false) :
    s.unmapQueue d q v = (s.unmapped d q v).happen := by
  unfold State.unmapQueue
  dsimp only
  rw [quiet]
  split <;> rfl

theorem State.unmapQueue_late {s : State} {d q desc : Nat} {v : Word} (late : s.notified.contains (q, d) = true)
    (known : s.queueDesc q = some desc) : s.unmapQueue d q v = ((s.unmapped d q v).hostPut (desc + 32) [1]).happen := by
  have kept : (s.unmapped d q v).queueDesc q = some desc := known
  show State.happen (match (s.unmapped d q v).queueDesc q with
    | some desc => if s.notified.contains (q, d) = true then (s.unmapped d q v).hostPut (desc + 32) [1] else s.unmapped d q v
    | none => s.unmapped d q v) = _
  rw [kept, late]
  rfl

/-- A queue that is not mapped any more has no entry that maps it. -/
theorem State.unmapped_qmap (s : State) (d q : Nat) (v : Word) :
    (((s.unmapped d q v).die d).qmap.any fun e => e.1 == q && wbit e.2 0) = false := by
  have die := s.die_modDie d fun x => { x with qmap := (q, v &&& 0xFFFFFFFFFFFFC0#64) :: x.qmap.filter fun e => e.1 != q }
  have cleared : wbit (v &&& 0xFFFFFFFFFFFFC0#64) 0 = false := by
    rw [wbit, BitVec.getLsbD_and]
    exact Bool.and_false _
  have entries : ((s.unmapped d q v).die d).qmap = (q, v &&& 0xFFFFFFFFFFFFC0#64) :: (s.die d).qmap.filter fun e => e.1 != q :=
    (congrArg Die.qmap die :)
  rw [entries, List.any_eq_false]
  intro e named mapped
  rw [Bool.and_eq_true, beq_iff_eq] at mapped
  rcases List.mem_cons.mp named with rfl | other
  · rw [cleared] at mapped
    exact Bool.false_ne_true mapped.2
  · have apart := (List.mem_filter.mp other).2
    rw [mapped.1, bne_self_eq_false] at apart
    exact Bool.false_ne_true apart

/-! ## QSUBMIT (R275) -/

/-- QSUBMIT reports how the submission ended. -/
def State.submitted (s : State) (d n : Nat) : State := s.modDie d fun x => { x with qsubmit := n }

theorem State.submitted_die (s : State) (d n : Nat) : (s.submitted d n).die d = { s.die d with qsubmit := n } := s.die_modDie d _

section
variable {s : State} {d : Nat} {v : Word}

theorem State.submit_unreadable (bad : paValid (64 * field v 6 50) = false ∨ poisoned s.bad (64 * field v 6 50) 64 = true) :
    s.submit d v = s.submitted d 2 := by
  unfold State.submit
  dsimp only
  rw [if_pos]
  · rfl
  · rcases bad with bad | bad <;> rw [bad] <;> simp

/-- A record whose fields are ill formed is invalid. -/
theorem State.submit_illFormed (valid : paValid (64 * field v 6 50) = true)
    (sound : poisoned s.bad (64 * field v 6 50) 64 = false)
    (bad : (TaskRec.ofBytes (s.homeBytes (64 * field v 6 50) 64)).fieldsOk = false) :
    s.submit d v = (s.lookAt (64 * field v 6 50) 64).submitted d 2 := by
  unfold State.submit
  dsimp only
  rw [if_neg (by rw [valid, sound]; exact Bool.false_ne_true), State.lookAt_homeBytes, State.checkRec, bad]
  rfl

/-- A good record of no launch is pushed where its level has room. -/
theorem State.submit_plain {t : State} {r : TaskRec} (valid : paValid (64 * field v 6 50) = true)
    (sound : poisoned s.bad (64 * field v 6 50) 64 = false) (look : s.lookAt (64 * field v 6 50) 64 = t)
    (record : TaskRec.ofBytes (s.homeBytes (64 * field v 6 50) 64) = r) (good : r.fieldsOk = true) (free : r.launch = 0) :
    s.submit d v = if t.levelFull d (field v 0 4) r then t.submitted d 1
      else (t.push d (field v 0 4) (t.qrec d r (BitVec.ofNat 64 (64 * field v 6 50)) none none)).submitted d 0 := by
  unfold State.submit
  dsimp only
  rw [if_neg (by rw [valid, sound]; exact Bool.false_ne_true), State.lookAt_homeBytes, look, record, State.checkRec, good, if_neg (show ¬(!true) = true from Bool.false_ne_true), if_pos free]
  dsimp only
  rw [if_pos free]
  rfl

theorem execQsubmit_submits (up : s.offered = true) (die : d < 4) : exec (.qsubmit d v) s = event (s.submit d v) := by
  show execQsubmit d v s = _
  rw [execQsubmit, if_pos (by simp [up, die])]

end

/-! ## MRRECLAIM (R228) -/

theorem getAt_reclaimSlots (mask : Nat) (l : List (Option Slot)) (i k : Nat) :
    getAt none (reclaimSlots mask i l) k =
      (getAt none l k).map fun u => if mask / 2 ^ (i + k) % 2 = 1 then { u with reclaim := true } else u := by
  induction l generalizing i k with
  | nil => cases k <;> rfl
  | cons t ts ih =>
    cases k with
    | zero =>
      show (if mask / 2 ^ i % 2 = 1 then t.map fun u => { u with reclaim := true } else t) = t.map _
      rw [Nat.add_zero]
      split
      · rfl
      · exact (congrFun Option.map_id t).symm
    | succ k =>
      have next := ih (i + 1) k
      rw [show i + 1 + k = i + (k + 1) by omega] at next
      exact next

theorem State.writeMrreclaim_slot (s : State) (d k : Nat) (v : Word) : ((s.writeMrreclaim d v).die d).slot k =
    ((s.die d).slot k).map fun u => if field v 0 8 / 2 ^ k % 2 = 1 then { u with reclaim := true } else u := by
  have die := s.die_modDie d fun x => { x with slots := reclaimSlots (field v 0 8) 0 x.slots }
  refine (congrArg (fun x => Die.slot x k) die).trans ((getAt_reclaimSlots (field v 0 8) (s.die d).slots 0 k).trans ?_)
  rw [Nat.zero_add]
  rfl

/-! ## XGCTL (R376) -/

theorem State.landed_mem (s : State) (h tag num : Nat) (data : List Byte) (err : Bool) : (s.landed h tag num data err).mem = s.mem := by
  unfold State.landed
  dsimp only
  split
  · rfl
  · split <;> rfl

theorem State.endCollective_mem (s : State) (d : Nat) (c : Collective) (data : List Byte) (err : Bool) :
    (s.endCollective d c data err).mem = s.mem := State.landed_mem _ _ _ _ _ _

/-- A collective that ends leaves its die. -/
theorem State.endCollective_colls (s : State) (d : Nat) (c : Collective) (data : List Byte) (err : Bool) :
    ((s.endCollective d c data err).die d).colls = (s.die d).colls.filter fun y => !(y.hart == c.hart && y.num == c.num) := by
  have dies := State.landed_dies (s.modDie d fun x => { x with colls := x.colls.filter fun y => !(y.hart == c.hart && y.num == c.num) })
    c.hart c.tag c.num data err
  have die := s.die_modDie d fun x => { x with colls := x.colls.filter fun y => !(y.hart == c.hart && y.num == c.num) }
  refine Eq.trans (congrArg (fun l => (getAt Die.reset l d).colls) dies) (congrArg Die.colls die :)

/-- The collectives of a list end with an error. -/
def State.endCollectives (s : State) (d : Nat) (cs : List Collective) : State :=
  cs.foldl (fun (t : State) c => t.endCollective d c [] true) s

theorem State.endCollectives_mem (s : State) (d : Nat) (cs : List Collective) : (s.endCollectives d cs).mem = s.mem :=
  foldl_keeps (P := fun u : State => u.mem = s.mem) (fun (t : State) c => t.endCollective d c [] true)
    (fun u c kept => (u.endCollective_mem d c [] true).trans kept) cs s rfl

theorem State.endCollectives_colls (d : Nat) (cs : List Collective) {s : State} {y : Collective}
    (left : y ∈ ((s.endCollectives d cs).die d).colls) : y ∈ (s.die d).colls ∧ y ∉ cs := by
  induction cs generalizing s with
  | nil => exact ⟨left, List.not_mem_nil⟩
  | cons c cs ih =>
    obtain ⟨there, later⟩ := ih (s := s.endCollective d c [] true) left
    rw [State.endCollective_colls] at there
    obtain ⟨before, other⟩ := List.mem_filter.mp there
    refine ⟨before, fun named => ?_⟩
    rcases List.mem_cons.mp named with rfl | named
    · simp at other
    · exact later named

/-! ## The registers without a row of their own (R275) -/

theorem execConfigRegisterWrite_writes {s : State} {d off : Nat} {r : CReg} (v : Word) (up : s.offered = true) (die : d < 4)
    (low : off < 2 ^ 24) (aligned : off % 8 = 0) (names : cregOf d off = r) (plain : r.plain = true) :
    exec (.configRegisterWrite d off v) s = event (s.writeCreg d r v) := by
  show execConfigRegisterWrite d off v s = _
  rw [execConfigRegisterWrite, names, if_pos (by simp [up, die, aligned, plain]; omega)]

/-- The word of a trace unit's base. -/
theorem cregOf_trace (d : Nat) {k : Nat} (unit : k < 32) : cregOf d (0x400000 + 32 * k + 8) = .trace (32 * d + k) 1 := by
  unfold cregOf
  dsimp only
  rw [if_neg (by omega), if_pos (by omega), show ((0x400000 + 32 * k + 8) / 8 - 0x80000) / 4 = k by omega,
    show (0x400000 + 32 * k + 8) / 8 % 4 = 1 by omega]

/-- The first word of a window. -/
theorem cregOf_window (d : Nat) {k e : Nat} (core : k < 32) (entry : e < 16) :
    cregOf d (0x610000 + 512 * k + 32 * e) = .window (32 * d + k) e 0 := by
  unfold cregOf
  dsimp only
  iterate 12 rw [if_neg (by omega)]
  rw [if_pos (by omega), if_neg (by omega), show ((0x610000 + 512 * k + 32 * e) / 8 - 0xC2000) / 64 = k by omega,
    show ((0x610000 + 512 * k + 32 * e) / 8 - 0xC2000) / 4 % 16 = e by omega,
    show ((0x610000 + 512 * k + 32 * e) / 8 - 0xC2000) % 4 = 0 by omega]

theorem getElem?_putAt {α : Type} (z : α) (l : List α) (i : Nat) (x : α) : (putAt z l i x)[i]? = some x := by
  induction i generalizing l with
  | zero => cases l <;> rfl
  | succ i ih => cases l <;> exact ih _

theorem State.writeTrace_base (s : State) (c : Nat) (v : Word) :
    ((s.writeTrace c 1 v).core c).trace = { (s.core c).trace with base := v &&& 0xFFFFFFFFFFF000#64 } := by
  have core := s.core_modCore c fun x => { x with trace := { x.trace with base := keep 0xFFFFFFFFFFF000 v } }
  exact (congrArg Core.trace core :)

theorem State.writeWindow_launch (s : State) (c e : Nat) (v : Word) :
    (((s.writeWindow c e 0 v).core c).windows[e]?.map fun w => w.launch) = some v := by
  unfold State.writeWindow
  rw [State.core_modCore]
  dsimp only
  rw [getElem?_putAt]
  rfl

/-! ## The obligation -/

/-- Settles O50, register by register. -/
theorem registerWrites : Obligations.RegisterWrites := by
  unfold Obligations.RegisterWrites
  intro s c d part level q v up
  refine ⟨?trctl, ?partcore, ?partition, ?qring, ?qmap, ?qsubmit, ?mrreclaim, ?xgctl, ?config⟩
  case trctl =>
    intro compute
    have step : exec (.trctlWrite c v) s = event (s.writeTrctl c v) := by
      show execTrctlWrite c v s = _
      rw [execTrctlWrite, if_pos (by simp [up, compute])]
    by_cases now : wbit v 0 = true ∨ wbit (s.core c).trace.ctl 0 = false ∨
      ((s.core c).trace.sync = none ∧ (s.core c).trace.sample = false ∧ s.ringPut c = none)
    · rw [State.writeTrctl_now now] at step
      have core := s.core_modCore c fun x => x.tracing (v &&& 0xFFF003#64)
      have unit := (congrArg Core.trace core :)
      exact ⟨_, step, rfl, rfl, rfl, ⟨fun _ => ⟨(congrArg Trace.ctl unit :), (congrArg Trace.closing unit :)⟩,
        fun later => absurd now later, (congrArg Trace.base unit :), (congrArg Trace.size unit :), (congrArg Trace.head unit :),
        (congrArg Trace.lost unit :)⟩, s.modCore_others c fun x => x.tracing (v &&& 0xFFF003#64)⟩
    · rw [State.writeTrctl_later now] at step
      have core := s.core_modCore c fun x => x.closing (v &&& 0xFFF003#64)
      have unit := (congrArg Core.trace core :)
      exact ⟨_, step, rfl, rfl, rfl, ⟨fun at_once => absurd at_once now,
        fun _ => ⟨(congrArg Trace.ctl unit :), (congrArg Trace.closing unit :)⟩, (congrArg Trace.base unit :),
        (congrArg Trace.size unit :), (congrArg Trace.head unit :), (congrArg Trace.lost unit :)⟩, s.modCore_others c fun x => x.closing (v &&& 0xFFF003#64)⟩
  case partcore =>
    intro compute
    have step : exec (.partcoreWrite c v) s = event (s.writePartcore c v) := by
      show execPartcoreWrite c v s = _
      rw [execPartcoreWrite, if_pos (by simp [up, compute])]
    exact ⟨_, step, rfl, rfl, rfl, s.core_modCore c fun x => x.pending v, s.modCore_others c fun x => x.pending v⟩
  case partition =>
    intro w compute pending idle
    have step : exec (.partitionChange c) s = event (s.changePartition c) := by
      show execPartitionChange c s = _
      rw [execPartitionChange, if_pos (by simp [compute, pending, idle])]
    have changed : s.changePartition c = (s.modCore c fun x => x.repartitioned w).happen := by
      rw [State.changePartition, pending]
      rfl
    rw [changed] at step
    have core := s.core_modCore c fun x => x.repartitioned w
    refine ⟨_, step, rfl, rfl, rfl, (congrArg Core.part core :), (congrArg Core.assigned core :), (congrArg Core.partPending core :),
      (congrArg Core.binds core :), fun y there => ?_, s.modCore_others c fun x => x.repartitioned w⟩
    obtain ⟨z, _, rfl⟩ := List.mem_map.mp ((congrArg (fun x : Core => y ∈ x.l1) core :).mp there)
    rfl
  case qring =>
    intro die named rank size
    have step : exec (.qringWrite d part level size v) s = event (s.writeQring d part level size v) := by
      show execQringWrite d part level size v s = _
      rw [execQringWrite, if_pos ⟨die, named, rank, up⟩]
    exact ⟨_, step, rfl, rfl, rfl, s.modDie_others d fun z => z.qringed part level size v, s.writeQring_level d part level size v⟩
  case qmap =>
    intro die queue
    refine ⟨fun maps => ?_, fun unmaps => ?_⟩
    · intro desc u
      have step := execQueueMap_maps up die queue maps
      have same : (s.mapped d q v).pendingClear d v = u := rfl
      rw [same] at step
      have frame : HomeFrame (s.mapped d q v) u := State.agentWrite_frame _ _ _ _
      have slots : DieSlots (s.mapped d q v) u := (DieSlots.refl _).agentWrite _ _ _
      refine ⟨event_epoch step, fun empty => ?_⟩
      rw [State.processQueue_empty empty] at step
      have looked : HomeFrame u (u.lookAt desc 32) := u.lookAt_frame desc 32
      have die := s.die_modDie d fun x => { x with qmap := (q, v &&& 0xFFFFFFFFFFFFC1#64) :: x.qmap.filter fun e => e.1 != q }
      have mem : (u.lookAt desc 32).mem = u.mem := (congrArg State.mem (u.lookAt_eq desc 32) :)
      have qmap : ((u.lookAt desc 32).die d).qmap = (q, v &&& 0xFFFFFFFFFFFFC1#64) :: (s.die d).qmap.filter fun e => e.1 != q :=
        (congrArg Die.qmap (slots.lookAt desc 32 d) :).trans (congrArg Die.qmap die :)
      have harts : (u.lookAt desc 32).harts = s.harts := (frame.trans looked).harts
      generalize u.lookAt desc 32 = w at step harts mem qmap
      exact ⟨w.happen.happen, step, harts, mem, qmap⟩
    · intro u
      have step := execQueueUnmap_unmaps up die queue unmaps
      refine ⟨fun quiet => ?_, fun desc late known => ?_⟩
      · rw [State.unmapQueue_quiet quiet] at step
        exact ⟨_, step, rfl, rfl, rfl, rfl, s.unmapped_qmap d q v⟩
      · rw [State.unmapQueue_late late known] at step
        exact event_epoch step
  case qsubmit =>
    intro die pa r
    have step := execQsubmit_submits (v := v) up die
    refine ⟨fun bad => ?_, fun valid sound => ⟨fun bad => ?_, fun good free => ⟨fun full => ?_, fun room => ?_⟩⟩⟩
    · rw [State.submit_unreadable bad] at step
      exact ⟨_, step, rfl, rfl, s.submitted_die d 2⟩
    · rw [State.submit_illFormed valid sound bad, State.lookAt_eq] at step
      exact ⟨_, step, rfl, rfl, s.submitted_die d 2⟩
    · rw [State.submit_plain valid sound rfl rfl good free, State.lookAt_levelFull, if_pos full, State.lookAt_eq] at step
      exact ⟨_, step, rfl, rfl, s.submitted_die d 1⟩
    · rw [State.submit_plain valid sound rfl rfl good free, State.lookAt_levelFull, if_neg (Bool.eq_false_iff.mp room)] at step
      have queued : (s.lookAt pa 64).qrec d r (BitVec.ofNat 64 pa) none none = s.qrec d r (BitVec.ofNat 64 pa) none none := by
        rw [State.lookAt_eq]
        rfl
      rw [queued] at step
      generalize (s.lookAt pa 64).push d (field v 0 4) (s.qrec d r (BitVec.ofNat 64 pa) none none) = u at step ⊢
      have die := u.submitted_die d 0
      exact ⟨_, step, (congrArg Die.qsubmit die :), rfl, (congrArg (fun x => (Die.level x (field v 0 4) r.prio.toNat).recs) die :)⟩
  case mrreclaim =>
    intro die
    have step : exec (.mrreclaim d v) s = event (s.writeMrreclaim d v) := by
      show execMrreclaim d v s = _
      rw [execMrreclaim, if_pos (by simp [up, die])]
    refine ⟨_, step, rfl, rfl, rfl, s.writeMrreclaim_others d v, fun k free => ?_, fun k x taken => ?_⟩
    · exact (s.writeMrreclaim_slot d k v).trans (by rw [free]; rfl)
    · exact (s.writeMrreclaim_slot d k v).trans (by rw [taken]; rfl)
  case xgctl =>
    intro die
    have step : exec (.xgctlWrite d v) s = event (s.writeXgctl d v) := by
      show execXgctlWrite d v s = _
      rw [execXgctlWrite, if_pos (by simp [up, die])]
    have ended : s.writeXgctl d v = ((s.endCollectives d (s.die d).colls).modDie d fun x =>
        { x with xgctl := v &&& 0x3FF03FF0F01#64, xgseq := 0 }).happen := rfl
    rw [ended] at step
    have written := (s.endCollectives d (s.die d).colls).die_modDie d fun x => { x with xgctl := v &&& 0x3FF03FF0F01#64, xgseq := 0 }
    have none_ : ((s.endCollectives d (s.die d).colls).die d).colls = [] := List.eq_nil_iff_forall_not_mem.mpr fun y left =>
      (State.endCollectives_colls d _ left).2 (State.endCollectives_colls d _ left).1
    refine ⟨_, step, s.endCollectives_mem d _, (congrArg Die.xgctl written :), (congrArg Die.xgseq written :),
      (congrArg Die.colls written :).trans none_, fun idle => ?_⟩
    rw [idle]
    rfl
  case config =>
    intro die writes
    have written {off : Nat} {r : CReg} (low : off < 2 ^ 24) (aligned : off % 8 = 0) (names : cregOf d off = r) (plain : r.plain = true)
        {P : State → Prop} (same : (s.writeCreg d r v).harts = s.harts ∧ (s.writeCreg d r v).mem = s.mem ∧ P (s.writeCreg d r v).happen) :
        writes off P :=
      ⟨_, execConfigRegisterWrite_writes v up die low aligned names plain, same⟩
    refine ⟨?thctl, ?wdctl, ?errtail, ?timeout, ?errhead, fun k core => ?base, fun k e core entry => ?window⟩
    case thctl => exact written (r := .thctl) (by omega) rfl rfl rfl ⟨rfl, rfl, rfl, s.writeThctl_die d v⟩
    case wdctl => exact written (r := .wdctl) (by omega) rfl rfl rfl ⟨rfl, rfl, rfl, s.writeWdctl_die d v⟩
    case errtail => exact written (r := .errtail) (by omega) rfl rfl rfl ⟨rfl, rfl, rfl, s.writeErrtail_die d v⟩
    case timeout => exact written (r := .xgtimeout) (by omega) rfl rfl rfl ⟨rfl, rfl, rfl, s.writeXgtimeout_die d v⟩
    case errhead => exact written (r := .errhead) (by omega) rfl rfl rfl ⟨rfl, rfl, rfl, rfl⟩
    case base =>
      exact written (by omega) (by omega) (cregOf_trace d core) rfl ⟨rfl, rfl, rfl, s.writeTrace_base (32 * d + k) v⟩
    case window =>
      exact written (by omega) (by omega) (cregOf_window d core entry) rfl ⟨rfl, rfl, rfl, s.writeWindow_launch (32 * d + k) e v⟩

end Sys2Proof.Machine

/-! PROOF of HostSteps: what the host's accesses, snoops and mailbox commands leave, and the state that bring-up starts from. -/

namespace Sys2Proof.Machine

/-! ## Writes at a home leave the host's side (R277, R293) -/

theorem State.hostPut_frame (s : State) (pa : Nat) (bs : List Byte) : HomeFrame s (s.hostPut pa bs) := by
  unfold State.hostPut
  split
  · exact ⟨id, rfl⟩
  · exact s.homeWrite_frame _ pa bs

theorem HomeFrame.hostHolds {s t : State} (frame : HomeFrame s t) (pa : Nat) : t.hostHolds pa = s.hostHolds pa := by
  unfold State.hostHolds
  rw [frame.rest]

/-- A request of the host sets the line's bit in host bias. -/
theorem State.hostArrives_holds (s : State) (pa : Nat) : (s.hostArrives pa).hostHolds pa = (s.hostHolds pa || s.hostBias pa) := by
  unfold State.hostArrives
  split
  · next biased =>
    rw [biased, Bool.or_true, State.holdLine]
    split
    · next held => exact held
    · exact List.contains_iff_mem.mpr List.mem_cons_self
  · next other => rw [Bool.eq_false_iff.mpr other, Bool.or_false]

/-- A request of the host changes the lines that the host holds alone. -/
theorem State.hostArrives_eq (s : State) (pa : Nat) : s.hostArrives pa = { s with hostLines := (s.hostArrives pa).hostLines } := by
  unfold State.hostArrives State.holdLine
  split
  · split <;> rfl
  · rfl

/-- What the homes recall does not depend on the lines that the host holds. -/
theorem State.recallRange_hostLines (s : State) (l : List Nat) (pa n : Nat) :
    (State.recallRange { s with hostLines := l } pa n).mem = (s.recallRange pa n).mem :=
  (congrArg State.mem (State.recallRange_overlay s { s with hostLines := l } pa n) :)

/-! ## Writes that wait at a home -/

/-- Where every write that waits goes on waiting, none is performed. -/
theorem State.cleanHolds_waiting {s : State} (waits : ∀ p ∈ s.heldPuts, s.putFree p = false) (pa : Nat) :
    s.cleanHolds.hostHolds pa = s.hostHolds pa ∧ s.cleanHolds.snooping pa = s.snooping pa ∧ s.cleanHolds.mem = s.mem := by
  have none_ : s.heldPuts.filter s.putFree = [] :=
    List.filter_eq_nil_iff.mpr fun p there => Bool.eq_false_iff.mp (waits p there)
  unfold State.cleanHolds
  rw [none_]
  exact ⟨rfl, rfl, rfl⟩

theorem State.recallRange_heldPuts (s : State) (pa n : Nat) : (s.recallRange pa n).heldPuts = s.heldPuts :=
  (congrArg State.heldPuts (s.recallRange_rest pa n) :)

theorem HeldPut.perform_flips (p : HeldPut) (s : State) : (p.perform s).flips = s.flips := by
  unfold HeldPut.perform State.snoopPut
  split
  · exact (congrArg State.flips (s.hostPut_frame p.pa p.data).rest :)
  · exact (congrArg State.flips (s.devPut_frame p.pa p.data).rest :)
  · split
    · rfl
    · exact (congrArg State.flips (s.homeWrite_frame none p.pa p.data).rest :)

theorem State.cleanHolds_flips (s : State) : s.cleanHolds.flips = s.flips := by
  unfold State.cleanHolds
  exact foldl_keeps (P := fun u : State => u.flips = s.flips) (fun (t : State) (p : HeldPut) => p.perform t)
    (fun u p same => (p.perform_flips u).trans same) _ _ rfl

/-- The package once the response to a snoop has come. -/
def State.answered (s : State) (line : Nat) : Option (List Byte) → State
  | some bs => s.snoopPut (64 * line) bs
  | none => s.endSnoop line

theorem State.answered_harts (s : State) (line : Nat) (data : Option (List Byte)) : (s.answered line data).harts = s.harts := by
  cases data with
  | none => rfl
  | some bs =>
    unfold State.answered State.snoopPut
    dsimp only
    split
    · rfl
    · exact (s.homeWrite_frame none (64 * line) bs).harts

/-- A snoop that has ended leaves nothing on its way and no line with the host. -/
theorem State.endSnoop_ends (s : State) (line : Nat) :
    (s.endSnoop line).hostHolds (64 * line) = false ∧ (s.endSnoop line).snooping (64 * line) = false := by
  have place : 64 * line / 64 = line := Nat.mul_div_cancel_left line (by decide)
  unfold State.hostHolds State.snooping State.endSnoop
  rw [place]
  refine ⟨?_, ?_⟩
  · simp
  · rw [List.any_eq_false]
    intro n there named
    have other := (List.mem_filter.mp there).2
    rw [beq_iff_eq.mp named, bne_self_eq_false] at other
    cases other

/-! ## Snoops of the host (R280) -/

theorem getAt_map {α : Type} {f : α → α} {z : α} (fixed : f z = z) (l : List α) (i : Nat) : getAt z (l.map f) i = f (getAt z l i) := by
  induction l generalizing i with
  | nil => rw [List.map_nil, getAt_nil, fixed]
  | cons x l ih =>
    cases i with
    | zero => rfl
    | succ i => exact ih i

/-- A core without its copies of a line. -/
def Core.without (c : Core) (line : Nat) : Core :=
  { c with l1 := c.l1.filter fun w => w.w / 16 != line, ul1 := c.ul1.filter fun u => u.line != line }

theorem Core.without_uline (c : Core) (line : Nat) : (c.without line).uline line = none := by
  refine List.find?_eq_none.mpr fun u there named => ?_
  have other := (List.mem_filter.mp (show u ∈ c.ul1.filter fun u => u.line != line from there)).2
  rw [bne, named] at other
  cases other

theorem Core.without_l1get (c : Core) {line w : Nat} (inside : w / 16 = line) : (c.without line).l1get w = none := by
  refine List.find?_eq_none.mpr fun x there named => ?_
  have other := (List.mem_filter.mp (show x ∈ c.l1.filter fun x => x.w / 16 != line from there)).2
  rw [beq_iff_eq.mp named, inside, bne_self_eq_false] at other
  cases other

/-- The modified copies of a line of host memory go home. -/
def State.snooped (s : State) (line : Nat) : State :=
  (List.range 136).foldl (fun (t : State) c => match (t.core c).uline line with
    | some _ => t.cleanLine c line
    | none => t) (s.recallRange (64 * line) 64)

theorem State.snooped_harts (s : State) (line : Nat) : (s.snooped line).harts = s.harts := by
  refine foldl_keeps (P := fun u : State => u.harts = s.harts) _ (fun u c same => ?_) _ _ (s.recallRange_frame _ _).harts
  split
  · exact (u.cleanLine_frame c line).harts.trans same
  · exact same

/-! ## Reset and bring-up (R290) -/

theorem Memory.read_hostPart {a : Nat} (device : a < 2 ^ 52) (m : Memory) : (Memory.hostPart m).read a = 0 := by
  have above : ∀ c ∈ Memory.hostPart m, a ≠ c.1 := by
    intro c there same
    have host := of_decide_eq_true (List.mem_filter.mp there).2
    rw [← same, Config.hostBase] at host
    omega
  generalize Memory.hostPart m = l at above
  induction l with
  | nil => rfl
  | cons c l ih =>
    rw [Memory.read, if_neg (above c List.mem_cons_self)]
    exact ih fun e there => above e (List.mem_cons_of_mem c there)

/-- The control cores start at the entry of the image. -/
def State.release (s : State) (entry : Word) : State :=
  (List.range 8).foldl (fun (t : State) k => t.modHart (1024 + k) fun x => { x with pc := entry }) s

theorem State.release_compute (s : State) (entry : Word) {h : Nat} (compute : h < 1024) : (s.release entry).hart h = s.hart h := by
  refine foldl_keeps (P := fun u : State => u.hart h = s.hart h)
    (fun (t : State) (k : Nat) => t.modHart (1024 + k) fun x => { x with pc := entry }) (fun u k same => ?_) _ _ rfl
  exact (State.hart_setHart_ne u (1024 + k) h _ (by omega)).trans same

theorem State.release_pc (s : State) (entry : Word) {k : Nat} (control : k < 8) : ((s.release entry).hart (1024 + k)).pc = entry := by
  have released (n : Nat) (control : k < n) :
      (((List.range n).foldl (fun (t : State) k => t.modHart (1024 + k) fun x => { x with pc := entry }) s).hart (1024 + k)).pc = entry := by
    induction n with
    | zero => exact absurd control (Nat.not_lt_zero k)
    | succ n ih =>
      rw [List.range_succ, List.foldl_append]
      generalize (List.range n).foldl (fun (t : State) k => t.modHart (1024 + k) fun x => { x with pc := entry }) s = t at ih ⊢
      rcases eq_or_ne n k with rfl | other
      · exact (congrArg Hart.pc (t.hart_setHart (1024 + n) { t.hart (1024 + n) with pc := entry }) :)
      · exact (congrArg Hart.pc (t.hart_setHart_ne (1024 + n) (1024 + k) { t.hart (1024 + n) with pc := entry } (by omega)) :).trans
          (ih (by omega))
  exact released 8 control

/-- What training leaves as it is, and that the link stands as trained. -/
structure Trains (b : BringUp) (s t : State) : Prop where
  gtime : t.gtime = s.gtime
  regs : t.regs = s.regs
  packs : t.packs = s.packs
  mem : t.mem = s.mem
  link : t.linkUp = b.cxlOk
  compute : ∀ h, h < 1024 → t.hart h = s.hart h

/-- The package once the image stands and the link is trained. -/
def State.imaged (s : State) (b : BringUp) : State := { s with image := b.digest, linkUp := b.cxlOk }

/-- The package once training has ended well, before the control cores start. -/
def State.linked (s : State) (b : BringUp) : State :=
  { ({ s.imaged b with repair := repairOf b.failedPcs } : State).reportPorts b.failedPorts with
    ports := trainPorts b.failedPorts, bringup := .up }

section
variable {s : State} {b : BringUp}

theorem State.train_noMemory (failed : 3 < b.failedPcs.length) : s.train b = { s.imaged b with bringup := .noMemory } := if_pos failed

theorem State.train_noLink (memory : b.failedPcs.length ≤ 3) (cut : b.cxlOk = false) :
    s.train b = { s.imaged b with repair := repairOf b.failedPcs, bringup := .noLink } := by
  unfold State.train
  dsimp only
  rw [if_neg (Nat.not_lt.mpr memory), if_pos (by rw [cut]; rfl)]
  rfl

theorem State.train_up (memory : b.failedPcs.length ≤ 3) (link : b.cxlOk = true) : s.train b = (s.linked b).release b.entry := by
  unfold State.train
  dsimp only
  rw [if_neg (Nat.not_lt.mpr memory), if_neg (by rw [link]; exact Bool.false_ne_true)]
  rfl

/-- The bring-up of a package whose link and memory are good. -/
theorem State.train_ends (memory : b.failedPcs.length ≤ 3) (link : b.cxlOk = true) :
    (s.train b).bringup = .up ∧ ∀ k, k < 8 → ((s.train b).hart (1024 + k)).pc = b.entry := by
  rw [State.train_up memory link]
  exact ⟨foldl_keeps (P := fun u : State => u.bringup = .up)
      (fun (t : State) (k : Nat) => t.modHart (1024 + k) fun x => { x with pc := b.entry }) (fun _ _ same => same) _ _ rfl,
    fun k control => State.release_pc _ _ control⟩

theorem State.linked_trains : Trains b s (s.linked b) := by
  have begun : Trains b s { s.imaged b with repair := repairOf b.failedPcs } := ⟨rfl, rfl, rfl, rfl, rfl, fun _ _ => rfl⟩
  have reported := foldl_keeps (P := Trains b s) (fun (t : State) p => t.logPort p 1)
    (fun u p ⟨gtime, regs, packs, mem, link, compute⟩ => ⟨gtime, regs, packs, mem, link, compute⟩)
    ((List.range 18).filter fun p => b.failedPorts.contains p) _ begun
  obtain ⟨gtime, regs, packs, mem, link, compute⟩ := reported
  exact ⟨gtime, regs, packs, mem, link, compute⟩

theorem State.train_trains : Trains b s (s.train b) := by
  by_cases failed : 3 < b.failedPcs.length
  · rw [State.train_noMemory failed]
    exact ⟨rfl, rfl, rfl, rfl, rfl, fun _ _ => rfl⟩
  · cases link : b.cxlOk with
    | false =>
      rw [State.train_noLink (Nat.not_lt.mp failed) link]
      exact ⟨rfl, rfl, rfl, rfl, rfl, fun _ _ => rfl⟩
    | true =>
      rw [State.train_up (Nat.not_lt.mp failed) link]
      obtain ⟨gtime, regs, packs, mem, link, compute⟩ := State.linked_trains (s := s) (b := b)
      generalize s.linked b = u at gtime regs packs mem link compute ⊢
      obtain ⟨gtime', regs', packs', mem', link'⟩ := foldl_keeps
        (P := fun v : State => v.gtime = u.gtime ∧ v.regs = u.regs ∧ v.packs = u.packs ∧ v.mem = u.mem ∧ v.linkUp = u.linkUp)
        (fun (t : State) (k : Nat) => t.modHart (1024 + k) fun x => { x with pc := b.entry }) (fun _ _ same => same) (List.range 8) u
        ⟨rfl, rfl, rfl, rfl, rfl⟩
      exact ⟨gtime'.trans gtime, regs'.trans regs, packs'.trans packs, mem'.trans mem, link'.trans link,
        fun h below => (u.release_compute b.entry below).trans (compute h below)⟩

end

/-- What a reset leaves, and what bring-up starts from. -/
theorem State.coldReset_hart (s : State) {h : Nat} (compute : h < 1024) : s.coldReset.hart h = Hart.reset := by
  have harts : s.coldReset.harts = State.reset.harts := rfl
  rw [State.hart, harts]
  exact State.reset_hart_compute compute

theorem State.coldReset_mem (s : State) : s.coldReset.mem = Memory.hostPart s.flushHost.mem := by
  unfold State.coldReset
  dsimp only

theorem State.coldReset_read (s : State) {a : Nat} (device : a < 2 ^ 52) : s.coldReset.mem.read a = 0 := by
  rw [s.coldReset_mem]
  exact Memory.read_hostPart device s.flushHost.mem

theorem State.coldReset_idle (s : State) : s.coldReset.gtime = s.gtime ∧ s.coldReset.regs = [] ∧ s.coldReset.packs = [] :=
  ⟨rfl, rfl, rfl⟩

/-! ## The obligation -/

/-- Settles O51, one clause for each row of the host port. -/
theorem hostSteps : Obligations.HostSteps := by
  unfold Obligations.HostSteps
  refine ⟨?notify, ?access, ?snoop, ?response, ?timeout, ?mailbox, ?bringup⟩
  case notify =>
    intro s q v up queue
    have row : exec (.notify q v) s = execNotify q v s := rfl
    have enabled : ¬(decide (4096 ≤ q) || !s.offered) = true := by simp [up]; omega
    refine ⟨fun unmapped unknown => ?_, fun desc unmapped known => ?_, fun d desc mapped names => ?_⟩
    · refine ⟨s.happen, ?_, rfl, rfl⟩
      rw [row, execNotify, if_neg enabled, unmapped, unknown]
      rfl
    · have harts := ((s.hostPut_frame (desc + 24) (leBytes 8 v.toNat)).trans (State.hostPut_frame _ (desc + 32) [1])).harts
      refine ⟨State.happen _, ?_, harts, rfl⟩
      rw [row, execNotify, if_neg enabled, unmapped, known]
      rfl
    · refine ⟨_, ?_, rfl⟩
      rw [row, execNotify, if_neg enabled, mapped]
      dsimp only
      rw [names]
      rfl
  case access =>
    intro s pa w v up some_ narrow line device
    have span : hostSpan pa w = true := by
      rw [hostSpan, Config.deviceBytes]
      simp
      omega
    have arrives := s.hostArrives_eq pa
    have holds := s.hostArrives_holds pa
    generalize hu : s.hostArrives pa = u at arrives holds
    refine ⟨fun free => ?_, fun object => ?_, fun plain still open_ => ?_⟩
    · have step : exec (.hostMemRead pa w) s = event { u with hostRead := (s.homeBytes pa w, poisoned s.bad pa w) } := by
        show execHostMemRead pa w s = _
        rw [execHostMemRead, if_neg (by simp [up, span, free]), hu]
      have harts : u.harts = s.harts := by rw [arrives]
      have mem : u.mem = s.mem := by rw [arrives]
      have cores : u.cores = s.cores := by rw [arrives]
      exact ⟨_, step, harts, mem, cores, holds, rfl⟩
    · have step : exec (.hostMemWrite pa w v) s = event u := by
        show execHostMemWrite pa w v s = _
        rw [execHostMemWrite, if_neg (by simp [up, span]), if_pos object, hu]
      have harts : u.harts = s.harts := by rw [arrives]
      have mem : u.mem = s.mem := by rw [arrives]
      exact ⟨_, step, harts, mem⟩
    · have step : exec (.hostMemWrite pa w v) s = event (u.homeWrite (if s.hostBias pa then none else some .host) pa (leBytes w v.toNat)) := by
        have free : (u.pageHeld pa || u.packHolds pa (leBytes w v.toNat).length) = false := by
          rw [arrives, leBytes_length]
          exact Bool.or_eq_false_iff.mpr ⟨still, open_⟩
        have bias : u.hostBias pa = s.hostBias pa := by
          rw [arrives]
          rfl
        show execHostMemWrite pa w v s = _
        rw [execHostMemWrite, if_neg (by simp [up, span]), if_neg (Bool.eq_false_iff.mp plain), hu, State.hostPut, free, bias]
        rfl
      have frame := u.homeWrite_frame (if s.hostBias pa then none else some .host) pa (leBytes w v.toNat)
      have harts : u.harts = s.harts := by rw [arrives]
      refine ⟨_, step, frame.harts.trans harts, (frame.hostHolds pa).trans holds, fun wf biased => ?_⟩
      have recalled : (u.recallRange pa w).mem = (s.recallRange pa w).mem := by
        rw [arrives]
        exact s.recallRange_hostLines _ pa w
      have written : (u.homeWrite (if s.hostBias pa then none else some .host) pa (leBytes w v.toNat)).mem =
          (s.recallRange pa w).mem.writeLe pa w v.toNat := by
        rw [if_pos biased, State.homeWrite_mem, leBytes_length, recalled, Memory.writeLe]
      refine ⟨?_, fun p outside => ?_⟩
      · exact (congrArg (fun m : Memory => m.readLe pa w) written).trans (Memory.readLe_writeLe wf pa w _)
      · exact (congrArg (fun m : Memory => m.read p) written).trans (Memory.read_writeLe_ne wf pa w _ p outside)
  case snoop =>
    intro s line k low high
    have above : decide (Config.hostBase ≤ 64 * line) = true := decide_eq_true low
    have below : decide (64 * line < Config.hostEnd) = true := decide_eq_true high
    have step : exec (.hostSnoop line k) s = event (if k = .shared then s.snooped line else
        { s.snooped line with cores := (s.snooped line).cores.map fun c => c.without line }) := by
      show execHostSnoop line k s = _
      rw [execHostSnoop]
      dsimp only
      rw [above, below]
      rfl
    have harts := s.snooped_harts line
    generalize s.snooped line = u at step harts
    refine ⟨_, step, ?_, ?_⟩
    · split
      · exact harts
      · exact harts
    · rintro rfl c
      have core : getAt Core.reset (u.cores.map fun c => c.without line) c = (u.core c).without line := getAt_map rfl u.cores c
      exact ⟨(congrArg (fun x : Core => x.uline line) core).trans (Core.without_uline _ line),
        fun w inside => (congrArg (fun x : Core => x.l1get w) core).trans (Core.without_l1get _ inside)⟩
  case mailbox =>
    intro s a m link
    exact ⟨if_pos link, if_pos link, if_pos link⟩
  case timeout =>
    intro s h pa n flip flips sent named old outside
    let u := State.cleanHolds { s with flips := s.flips.filter fun p => p != pa / 4096 }
    have step : exec (.biasSnoopTimeout h) s =
        event ((u.takeTrap h false 6 (u.hart h).pc (BitVec.ofNat 64 pa) (u.hart h).iword).noteDest h 6 (destOfItem (u.hart h).item)) := by
      have old : (s.snoops.any fun n => n.line / 64 == pa / 4096 && decide (n.sent + 1000000 ≤ s.gtime)) = true :=
        List.any_eq_true.mpr ⟨n, sent, by rw [named, beq_self_eq_true, decide_eq_true old]; rfl⟩
      have due : s.flips.contains (pa / 4096) = true := flips
      show execBiasSnoopTimeout h s = _
      rw [execBiasSnoopTimeout, flip]
      dsimp only
      rw [old, due]
      rfl
    have harts : u.harts = s.harts := State.cleanHolds_harts _
    have cleared : u.flips = s.flips.filter fun p => p != pa / 4096 := State.cleanHolds_flips _
    have bias : u.bias = s.bias := (PackKeeps.refl { s with flips := s.flips.filter fun p => p != pa / 4096 }).cleanHolds.2.2.2.2.1
    clear_value u
    have alone : (u.hart h).pack = none := by
      rw [State.hart, harts]
      exact outside
    obtain ⟨-, scause, stval, priv, -⟩ := State.takeTrap_writes false (u.hart h).pc (BitVec.ofNat 64 pa) (u.hart h).iword alone
      (show 6 < 32 by decide)
    have rest : ((u.takeTrap h false 6 (u.hart h).pc (BitVec.ofNat 64 pa) (u.hart h).iword).bias = u.bias) ∧
        (u.takeTrap h false 6 (u.hart h).pc (BitVec.ofNat 64 pa) (u.hart h).iword).flips = u.flips := by
      rw [State.takeTrap_outside _ _ _ _ _ _ _ alone]
      have frame := (u.entered h 6 false (u.hart h).pc (BitVec.ofNat 64 pa) (u.hart h).iword).record_frame (coreOf h) 5 (localHart h) 6
        ((u.hart h).pc &&& ~~~7#64)
      exact ⟨(congrArg State.bias frame.rest :), (congrArg State.flips frame.rest :)⟩
    generalize u.takeTrap h false 6 (u.hart h).pc (BitVec.ofNat 64 pa) (u.hart h).iword = v at step scause stval priv rest
    obtain ⟨k, noted⟩ := v.noteDest_hart h 6 (destOfItem (u.hart h).item)
    have same : (v.noteDest h 6 (destOfItem (u.hart h).item)).bias = v.bias ∧
        (v.noteDest h 6 (destOfItem (u.hart h).item)).flips = v.flips := ⟨rfl, rfl⟩
    generalize v.noteDest h 6 (destOfItem (u.hart h).item) = w at step noted same
    refine ⟨w.happen, step, (congrArg Hart.scause noted :).trans scause, (congrArg Hart.stval noted :).trans stval,
      (congrArg Hart.priv noted :).trans priv, same.1.trans (rest.1.trans bias), ?_⟩
    show w.flips.contains (pa / 4096) = false
    rw [same.2, rest.2, cleared]
    simp
  case response =>
    intro s line data sent fits quiet
    have step : exec (.snoopResponse line data) s = event (s.answered line data).cleanHolds := by
      have unheld : (s.heldPuts.any fun p => p.src == .response && p.pa == 64 * line) = false := by
        rw [List.any_eq_false]
        intro p there named
        rw [Bool.and_eq_true, beq_iff_eq, beq_iff_eq] at named
        exact quiet p there named.1 named.2
      show execSnoopResponse line data s = _
      unfold execSnoopResponse
      dsimp only
      rw [sent, unheld]
      cases data with
      | none => rfl
      | some bs =>
        refine if_neg ?_
        simp [fits bs rfl]
    have harts : (s.answered line data).cleanHolds.harts = s.harts :=
      (State.cleanHolds_harts _).trans (s.answered_harts line data)
    refine ⟨State.happen _, step, harts, fun none_ => ?_⟩
    intro ended
    have ends {u : State} (same : u = s.answered line data) (waits : ∀ p ∈ u.heldPuts, u.putFree p = false)
        (over_ : u.hostHolds (64 * line) = false ∧ u.snooping (64 * line) = false) : ended := by
      subst same
      obtain ⟨holds, snoops, -⟩ := State.cleanHolds_waiting waits (64 * line)
      exact ⟨holds.trans over_.1, snoops.trans over_.2⟩
    refine ⟨?_, ?_⟩
    · rintro rfl
      have waits : ∀ p ∈ (s.endSnoop line).heldPuts, (s.endSnoop line).putFree p = false := fun p there => by
        rw [show (s.endSnoop line).heldPuts = s.heldPuts from rfl, none_] at there
        cases there
      exact ⟨ends rfl waits (s.endSnoop_ends line), (State.cleanHolds_waiting waits (64 * line)).2.2⟩
    · rintro bs rfl
      refine ⟨fun free => ?_, fun held => ?_⟩
      · have put : s.answered line (some bs) = (s.homeWrite none (64 * line) bs).endSnoop line := by
          have place : 64 * line / 64 = line := Nat.mul_div_cancel_left line (by decide)
          rw [State.answered, State.snoopPut, free, place]
          rfl
        have mem := s.homeWrite_mem (64 * line) bs
        have puts : (s.homeWrite none (64 * line) bs).heldPuts = [] := (s.recallRange_heldPuts _ _).trans none_
        rw [fits bs rfl] at mem
        generalize s.homeWrite none (64 * line) bs = u at put mem puts
        have waits : ∀ p ∈ (u.endSnoop line).heldPuts, (u.endSnoop line).putFree p = false := fun p there => by
          rw [show (u.endSnoop line).heldPuts = u.heldPuts from rfl, puts] at there
          cases there
        refine ⟨ends put.symm waits (u.endSnoop_ends line), ?_⟩
        rw [put]
        exact (State.cleanHolds_waiting waits (64 * line)).2.2.trans mem
      · have put : s.answered line (some bs) = s.holdPut (64 * line) bs .response := by
          rw [State.answered, State.snoopPut, held]
          rfl
        have waits : ∀ p ∈ (s.holdPut (64 * line) bs .response).heldPuts, (s.holdPut (64 * line) bs .response).putFree p = false := by
          intro p there
          have named : p ∈ s.heldPuts ++ [{ pa := 64 * line, data := bs, arrived := s.gtime, src := .response }] := there
          rw [none_, List.nil_append, List.mem_singleton] at named
          subst named
          have page : (s.holdPut (64 * line) bs .response).pageHeld (64 * line) = true := held
          rw [State.putFree, page]
          rfl
        rw [put]
        obtain ⟨-, snoops, mem⟩ := State.cleanHolds_waiting waits (64 * line)
        exact ⟨mem, snoops.trans sent⟩
  case bringup =>
    intro s b up
    have restarts : s.bringup = .recovery → s.linkUp = true → ∀ valid, exec (.mailboxRecoveryImage valid b) s =
        event (if valid then s.train b else s) := by
      intro recovery link valid
      show execMailboxRecoveryImage valid b s = _
      rw [execMailboxRecoveryImage, if_pos (by simp [recovery, State.mailbox, link])]
    refine ⟨fun recovery link memory trained => ?_, fun recovery link => ?_, ?_⟩
    · exact ⟨_, restarts recovery link true, s.train_ends memory trained⟩
    · exact ⟨_, restarts recovery link false, recovery⟩
    · have row : exec (.bringUp b) s =
          event (if b.imageOk then s.coldReset.train b else { s.coldReset with bringup := .recovery, linkUp := b.cxlOk }) := rfl
      obtain ⟨gtime, regs, packs⟩ := s.coldReset_idle
      have harts (h : Nat) (compute : h < 1024) := s.coldReset_hart compute
      have mem (a : Nat) (device : a < 2 ^ 52) := s.coldReset_read device
      have free := s.coldReset_unstopped
      generalize s.coldReset = u at row gtime regs packs harts mem free
      cases image : b.imageOk with
      | false =>
        rw [image] at row
        exact ⟨_, row, free.1, gtime, regs, packs, rfl, harts, mem, fun _ => rfl, fun good => (Bool.false_ne_true good).elim,
          fun good => (Bool.false_ne_true good).elim, fun good => (Bool.false_ne_true good).elim⟩
      | true =>
        rw [image, if_pos rfl] at row
        have trained := State.train_trains (s := u) (b := b)
        have started := State.train_unstopped b free
        refine ⟨_, row, started.1, trained.gtime.trans gtime, trained.regs.trans regs, trained.packs.trans packs, trained.link,
          fun h compute => (trained.compute h compute).trans (harts h compute),
          fun a device => (congrArg (fun m : Memory => m.read a) trained.mem).trans (mem a device), fun bad => ?_, fun _ failed => ?_,
          fun _ memory cut => ?_, fun _ memory link => u.train_ends memory link⟩
        · cases bad
        · exact (congrArg State.bringup (State.train_noMemory (s := u) failed) :)
        · exact (congrArg State.bringup (State.train_noLink (s := u) memory cut) :)

end Sys2Proof.Machine

/-! PROOF of PowerSteps: what trace records, power gating, the collective throttle and the temperature bands leave. -/

namespace Sys2Proof.Machine

/-! ## SYNC and SAMPLE (R162, R163) -/

/-- What the homes do does not move a core's clock. -/
theorem cycle_steps (c n : Nat) : HomeSteps fun s => (s.core c).cycle = n where
  table _ _ _ _ kept := kept
  demote s k w kept := by
    rcases eq_or_ne k c with rfl | other
    · rw [State.demote, State.core_modCore]
      split
      · split <;> exact kept
      · exact kept
    · rw [State.demote, State.modCore, State.core_setCore_ne _ _ _ _ other]
      exact kept
  other s t _ cores kept := by
    have same : t.core c = s.core c := congrArg (fun l => getAt Core.reset l c) cores
    rw [same]
    exact kept

theorem State.tracePut_cycle (s : State) (c : Nat) (a b : Word) : ((s.tracePut c a b).core c).cycle = (s.core c).cycle := by
  unfold State.tracePut
  dsimp only
  split
  · rfl
  · split
    · rw [State.core_modCore]
      exact (cycle_steps c (s.core c).cycle).devPut _ _ rfl
    · rw [State.core_modCore]

theorem State.putSync_ends {s : State} {c : Nat} {p : Nat × Nat} (due : (s.core c).trace.sync = some p) :
    (s.putSync c).harts = s.harts ∧ ((s.putSync c).core c).trace.sync = none ∧
      ((s.putSync c).core c).cycle = (s.core c).cycle ∧
      (s.putSync c).mem = (s.tracePut c (traceWord 0 0 (p.1 + s.clockStep c) (s.core c).cycle) (BitVec.ofNat 64 p.2)).mem := by
  have frame := s.tracePut_frame c (traceWord 0 0 (p.1 + s.clockStep c) (s.core c).cycle) (BitVec.ofNat 64 p.2)
  have cycle := s.tracePut_cycle c (traceWord 0 0 (p.1 + s.clockStep c) (s.core c).cycle) (BitVec.ofNat 64 p.2)
  have put : s.putSync c =
      (s.tracePut c (traceWord 0 0 (p.1 + s.clockStep c) (s.core c).cycle) (BitVec.ofNat 64 p.2)).modCore c fun x =>
        { x with trace := { x.trace with sync := none } } := by
    rw [State.putSync, due]
  rw [put]
  generalize s.tracePut c (traceWord 0 0 (p.1 + s.clockStep c) (s.core c).cycle) (BitVec.ofNat 64 p.2) = u at frame cycle ⊢
  rw [State.core_modCore]
  exact ⟨frame.harts, rfl, cycle, rfl⟩

/-- The word that a SAMPLE record of this cycle holds. -/
def State.sampled (s : State) (c : Nat) : Nat × Word := match (s.core c).issued with
  | some p => p
  | none => ((s.core c).hist.last % 8, (s.hart (8 * c + (s.core c).hist.last % 8)).pc)

theorem State.putSample_ends {s : State} {c : Nat} (due : (s.core c).trace.sample = true) :
    (s.putSample c).harts = s.harts ∧ ((s.putSample c).core c).trace.sample = false ∧
      (s.putSample c).mem = (s.writeRecord c 7 (s.sampled c).1 0 (s.core c).cycle (s.sampled c).2).mem := by
  have frame := s.writeRecord_frame c 7 (s.sampled c).1 0 (s.core c).cycle (s.sampled c).2
  have put : s.putSample c = (s.writeRecord c 7 (s.sampled c).1 0 (s.core c).cycle (s.sampled c).2).modCore c fun y =>
      { y with trace := { y.trace with sample := false } } := if_pos due
  rw [put]
  generalize s.writeRecord c 7 (s.sampled c).1 0 (s.core c).cycle (s.sampled c).2 = u at frame ⊢
  rw [State.core_modCore]
  exact ⟨frame.harts, rfl, rfl⟩

/-! ## Power gating (R280) -/

/-- The untracked lines of a core's L1. -/
def Core.ulines (c : Core) : List Nat := c.ul1.map fun u => u.line

/-- A line that is cleaned stays, and no other comes. -/
theorem State.cleanLine_ulines (s : State) (c line : Nat) : ((s.cleanLine c line).core c).ulines = (s.core c).ulines := by
  unfold State.cleanLine
  split
  · rfl
  · next u _ =>
    have lines : L1Less s ((List.range 16).foldl u.cleanWord s) :=
      foldl_keeps u.cleanWord (fun _ k => (L1Less.steps s).cleanWord u k) _ s (.refl s)
    have same := (lines c).1
    generalize (List.range 16).foldl u.cleanWord s = t at same ⊢
    refine (congrArg Core.ulines (t.core_modCore c fun x =>
      { x with ul1 := x.ul1.map fun v => if v.line = line then { v with dirty := 0, whole := 0 } else v })).trans ?_
    unfold Core.ulines
    rw [List.map_map, ← same]
    refine List.map_congr_left fun v _ => ?_
    show (if v.line = line then { v with dirty := 0, whole := 0 } else v : ULine).line = v.line
    split <;> rfl

theorem State.dropLine_ulines (s : State) (c line : Nat) {l : Nat} (left : l ∈ ((s.dropLine c line).core c).ulines) :
    l ∈ (s.core c).ulines ∧ l ≠ line := by
  rw [State.dropLine, State.core_modCore] at left
  obtain ⟨v, there, rfl⟩ := List.mem_map.mp left
  obtain ⟨before, other⟩ := List.mem_filter.mp there
  exact ⟨List.mem_map.mpr ⟨v, before, rfl⟩, bne_iff_ne.mp other⟩

/-- The lines of a list are cleaned and leave. -/
def State.dropLines (s : State) (c : Nat) (ls : List Nat) : State :=
  ls.foldl (fun (t : State) l => (t.cleanLine c l).dropLine c l) s

theorem State.dropLines_harts (s : State) (c : Nat) (ls : List Nat) : (s.dropLines c ls).harts = s.harts :=
  foldl_keeps (P := fun u : State => u.harts = s.harts) (fun (t : State) l => (t.cleanLine c l).dropLine c l)
    (fun u l same => (u.cleanLine_frame c l).harts.trans same) ls s rfl

theorem State.dropLines_ulines (c : Nat) (ls : List Nat) {s : State} {l : Nat} (left : l ∈ ((s.dropLines c ls).core c).ulines) :
    l ∈ (s.core c).ulines ∧ l ∉ ls := by
  induction ls generalizing s with
  | nil => exact ⟨left, List.not_mem_nil⟩
  | cons k ls ih =>
    obtain ⟨there, later⟩ := ih (s := (s.cleanLine c k).dropLine c k) left
    obtain ⟨before, other⟩ := State.dropLine_ulines _ c k there
    rw [State.cleanLine_ulines] at before
    exact ⟨before, fun named => (List.mem_cons.mp named).elim other later⟩

/-- The core once its tracked words have left its L1. -/
def State.wordsGone (s : State) (c : Nat) : State := ((s.core c).l1.map fun w => w.w).foldl (fun (t : State) w => t.evictWord c w) s

theorem State.emptyL1_eq (s : State) (c : Nat) : s.emptyL1 c = (s.wordsGone c).dropLines c ((s.wordsGone c).core c).ulines := rfl

theorem State.emptyL1_harts (s : State) (c : Nat) : (s.emptyL1 c).harts = s.harts :=
  ((s.wordsGone c).dropLines_harts c _).trans
    (foldl_keeps (P := fun u : State => u.harts = s.harts) (fun (t : State) w => t.evictWord c w)
      (fun u w same => (u.evictWord_frame c w).harts.trans same) _ s rfl)

theorem State.emptyL1_ul1 (s : State) (c : Nat) : ((s.emptyL1 c).core c).ul1 = [] := by
  rw [State.emptyL1_eq]
  generalize s.wordsGone c = u
  have none_ : ((u.dropLines c (u.core c).ulines).core c).ulines = [] := List.eq_nil_iff_forall_not_mem.mpr fun l left =>
    (State.dropLines_ulines c _ left).2 (State.dropLines_ulines c _ left).1
  exact List.map_eq_nil_iff.mp none_

/-! ## The throttle (R285, R286) -/

theorem State.thr_modThr (s : State) (d : Nat) (f : Throttle → Throttle) : (s.modThr d f).thr d = f (s.thr d) :=
  (congrArg Die.throttle (s.die_modDie d fun x => { x with throttle := f x.throttle }) :)

theorem State.thr_modThr_ne (s : State) {d k : Nat} (other : k ≠ d) (f : Throttle → Throttle) : (s.modThr d f).thr k = s.thr k :=
  congrArg Die.throttle (s.modDie_others d (fun x => { x with throttle := f x.throttle }) k other)

/-- Due SYNC records change no die, no hart and no byte. -/
theorem State.syncDie_rest (s : State) (d bits : Nat) :
    (s.syncDie d bits).harts = s.harts ∧ (s.syncDie d bits).mem = s.mem ∧ (s.syncDie d bits).dies = s.dies :=
  foldl_keeps (P := fun u : State => u.harts = s.harts ∧ u.mem = s.mem ∧ u.dies = s.dies)
    (fun (t : State) (k : Nat) => t.modCore (32 * d + k) fun x => { x with trace := x.trace.dueSync bits s.gtime })
    (fun _ _ same => same) _ s ⟨rfl, rfl, rfl⟩

theorem State.syncDie_thr (s : State) (d bits k : Nat) : (s.syncDie d bits).thr k = s.thr k :=
  congrArg (fun l => (getAt Die.reset l k).throttle) (s.syncDie_rest d bits).2.2

/-- A die that applies its own request stands at it. -/
theorem State.applyOwn_ends (s : State) (d : Nat) : (s.applyOwn d).harts = s.harts ∧ (s.applyOwn d).mem = s.mem ∧
    (s.applyOwn d).thr d = { s.thr d with step := (s.thr d).request } := by
  unfold State.applyOwn
  split
  · next same =>
    refine ⟨rfl, rfl, ?_⟩
    rw [← same]
  · obtain ⟨harts, mem, -⟩ := (s.modThr d fun t => { t with step := t.request }).syncDie_rest d 256
    exact ⟨harts, mem, (State.syncDie_thr _ d 256 d).trans (s.thr_modThr d _)⟩

/-- The step and the request of every die stand. -/
def ThrStands (s t : State) : Prop := t.harts = s.harts ∧ t.mem = s.mem ∧
  ∀ k, (t.thr k).request = (s.thr k).request ∧ (t.thr k).step = (s.thr k).step

theorem ThrStands.trans {s t u : State} (a : ThrStands s t) (b : ThrStands t u) : ThrStands s u :=
  ⟨b.1.trans a.1, b.2.1.trans a.2.1, fun k => ⟨(b.2.2 k).1.trans (a.2.2 k).1, (b.2.2 k).2.trans (a.2.2 k).2⟩⟩

theorem State.modThr_stands (s : State) (d : Nat) (f : Throttle → Throttle) (request : ∀ t, (f t).request = t.request)
    (step : ∀ t, (f t).step = t.step) : ThrStands s (s.modThr d f) := by
  refine ⟨rfl, rfl, fun k => ?_⟩
  rcases eq_or_ne k d with rfl | other
  · rw [State.thr_modThr]
    exact ⟨request _, step _⟩
  · rw [State.thr_modThr_ne s other]
    exact ⟨rfl, rfl⟩

theorem State.announce_stands (s : State) (d step : Nat) : ThrStands s (s.announce d step) :=
  s.modThr_stands d _ (fun _ => rfl) fun _ => rfl

/-- The leader's decision changes no step yet. -/
theorem State.decide_stands (s : State) (d : Nat) : ThrStands s (s.decide_ d) := by
  have seen : ThrStands s { s.modThr d fun t => t.see s.gtime (s.largest d) with fresh := s.fresh + 1 } :=
    s.modThr_stands d (fun t => t.see s.gtime (s.largest d)) (fun _ => rfl) fun _ => rfl
  unfold State.decide_
  dsimp only
  generalize { s.modThr d fun t => t.see s.gtime (s.largest d) with fresh := s.fresh + 1 } = u at seen ⊢
  split
  · exact seen
  · split
    · exact seen.trans (u.announce_stands d _)
    · split
      · exact seen.trans (u.announce_stands d _)
      · exact seen

/-- What a member asks for is at least its floor and at most 14. -/
theorem stepRequest_bounds (floor : Nat) (x : ThrottleIn) : (x.power ≤ 1800 → x.hottest ≤ 1000 → stepRequest floor x = min floor 14) ∧
    min floor 14 ≤ stepRequest floor x ∧ stepRequest floor x ≤ 14 := by
  unfold stepRequest
  refine ⟨fun power heat => ?_, Nat.le_max_left _ _, ?_⟩
  · rw [if_pos ⟨power, heat⟩, Nat.max_zero]
  · refine Nat.max_le.mpr ⟨Nat.min_le_right _ _, ?_⟩
    split
    · exact Nat.zero_le 14
    · exact Nat.min_le_left _ _

/-- The package once a member has computed its request. -/
def State.evaluated (s : State) (d : Nat) (x : ThrottleIn) : State :=
  s.modThr d fun t => { t with request := stepRequest (field (s.die d).thctl 0 4) x, evaluated := some s.gtime }

theorem State.evaluated_thr (s : State) (d : Nat) (x : ThrottleIn) : (s.evaluated d x).thr d =
    { s.thr d with request := stepRequest (field (s.die d).thctl 0 4) x, evaluated := some s.gtime } := s.thr_modThr d _

/-- What follows from a request: a die outside its group applies it, the leader decides on it. -/
def State.throttled (s : State) (d : Nat) : State :=
  if !(s.thr d).member then s.applyOwn d else match s.leader d with
    | some l => s.decide_ l
    | none => s

theorem State.throttled_member {s : State} {d : Nat} (member : (s.thr d).member = true) : ThrStands s (s.throttled d) := by
  unfold State.throttled
  rw [member, if_neg (show ¬(!true) = true from Bool.false_ne_true)]
  split
  · exact s.decide_stands _
  · exact ⟨rfl, rfl, fun _ => ⟨rfl, rfl⟩⟩

/-! ## Steps that take effect (R285) -/

/-- A change of the throttle of each die of a list, one after another. -/
theorem State.modThrs_thr (f : Throttle → Throttle) (again : ∀ t, f (f t) = f t) {g : State → Nat → State}
    (here : ∀ u d, (g u d).thr d = f (u.thr d)) (there : ∀ u d k, k ≠ d → (g u d).thr k = u.thr k) (l : List Nat) (s : State) (k : Nat) :
    (k ∈ l → (l.foldl g s).thr k = f (s.thr k)) ∧ (k ∉ l → (l.foldl g s).thr k = s.thr k) := by
  induction l generalizing s with
  | nil => exact ⟨fun mem => absurd mem List.not_mem_nil, fun _ => rfl⟩
  | cons d l ih =>
    obtain ⟨named, free⟩ := ih (g s d)
    refine ⟨fun mem => ?_, fun out => ?_⟩
    · rcases eq_or_ne k d with rfl | other
      · by_cases later : k ∈ l
        · rw [List.foldl_cons, named later, here, again]
        · rw [List.foldl_cons, free later, here]
      · rw [List.foldl_cons, named ((List.mem_cons.mp mem).resolve_left other), there s d k other]
    · obtain ⟨other, later⟩ := not_or.mp (mt List.mem_cons.mpr out)
      rw [List.foldl_cons, free later, there s d k other]

/-- The throttle without an announcement. -/
def Throttle.cleared (t : Throttle) : Throttle := { t with announced := none, acks := 0 }

theorem State.clearAnnounced_thr (s : State) (ds : List Nat) (k : Nat) :
    (k ∈ ds → (s.clearAnnounced ds).thr k = (s.thr k).cleared) ∧ (k ∉ ds → (s.clearAnnounced ds).thr k = s.thr k) :=
  State.modThrs_thr Throttle.cleared (fun _ => rfl) (fun u d => u.thr_modThr d Throttle.cleared)
    (fun u _ _ other => u.thr_modThr_ne other Throttle.cleared) ds s k

theorem State.changeStep_thr (s : State) (ds : List Nat) (step k : Nat) :
    (k ∈ ds → (s.changeStep ds step).thr k = { s.thr k with step := step }) ∧
      (k ∉ ds → (s.changeStep ds step).thr k = s.thr k) :=
  State.modThrs_thr (fun t => { t with step := step }) (fun _ => rfl)
    (fun _ d => (State.syncDie_thr _ d 256 d).trans (State.thr_modThr _ d _))
    (fun _ d k other => (State.syncDie_thr _ d 256 k).trans (State.thr_modThr_ne _ other _)) ds s k

theorem State.clearAnnounced_harts (s : State) (ds : List Nat) : (s.clearAnnounced ds).harts = s.harts :=
  foldl_keeps (P := fun u : State => u.harts = s.harts)
    (fun (t : State) (d : Nat) => t.modThr d fun u => { u with announced := none, acks := 0 }) (fun _ _ same => same) ds s rfl

theorem State.changeStep_harts (s : State) (ds : List Nat) (step : Nat) : (s.changeStep ds step).harts = s.harts :=
  foldl_keeps (P := fun u : State => u.harts = s.harts)
    (fun (t : State) (d : Nat) => (t.modThr d fun u => { u with step := step }).syncDie d 256)
    (fun _ d same => (State.syncDie_rest _ d 256).1.trans same) ds s rfl

/-- A leader is a die of the package. -/
theorem State.leader_die {s : State} {d l : Nat} (leads : s.leader d = some l) : l < 4 := by
  have member := List.mem_of_find?_eq_some leads
  have group := (List.mem_filter.mp member).1
  exact List.mem_range.mp (List.mem_filter.mp group).1

/-! ## Temperature bands (R287) -/

theorem bandDown_bounds (temp b : Nat) (cool : temp < 115) (above : bandOf temp ≤ b) :
    bandOf temp ≤ bandDown temp b ∧ bandDown temp b ≤ b ∧ (bandOf temp < bandDown temp b → 75 + 10 * bandDown temp b < temp + 3) := by
  induction b with
  | zero => exact ⟨above, Nat.le_refl _, fun less => by rw [bandDown] at less; omega⟩
  | succ b ih =>
    rw [bandDown, bandLow, if_neg (Nat.succ_ne_zero b)]
    split
    · have lower : bandOf temp ≤ b := by
        unfold bandOf at above ⊢
        split_ifs at above ⊢ <;> omega
      obtain ⟨low, high, stay⟩ := ih lower
      exact ⟨low, by omega, stay⟩
    · exact ⟨above, Nat.le_refl _, fun _ => by omega⟩

/-! ## The obligation -/

/-- Settles O52, one clause for each part of the package that keeps time or power. -/
theorem powerSteps : Obligations.PowerSteps := by
  unfold Obligations.PowerSteps
  refine ⟨?core, ?port, ?evaluation, ?member, ?outside, ?effect, ?stack, ?droop⟩
  case core =>
    intro s c compute
    refine ⟨fun p due ends => ?_, fun due now => ?_, fun power works idle => ?_, fun gated => ?_⟩
    · have step : exec (.sync c) s = event (s.putSync c) := by
        show execSync c s = _
        rw [execSync, if_pos (by simp [compute, due, ends])]
      obtain ⟨harts, sync, cycle, mem⟩ := State.putSync_ends due
      exact ⟨_, step, harts, sync, cycle, mem⟩
    · have step : exec (.sample c) s = event (s.putSample c) := by
        show execSample c s = _
        rw [execSample, if_pos (by simp [compute, due, now])]
      obtain ⟨harts, sample, mem⟩ := State.putSample_ends due
      refine ⟨_, step, harts, sample, fun p word => ?_⟩
      have named : s.sampled c = p := by rw [State.sampled, word]
      rw [named] at mem
      exact mem
    · have step : exec (.corePowerGating c) s = event ((s.emptyL1 c).modCore c fun x => { x with gated := true }) := by
        show execCorePowerGating c s = _
        rw [execCorePowerGating, if_pos (by simp [compute, power, works, idle])]
      have harts := s.emptyL1_harts c
      have lines := s.emptyL1_ul1 c
      generalize s.emptyL1 c = u at step harts lines
      have core := u.core_modCore c fun x => { x with gated := true }
      exact ⟨_, step, harts, (congrArg Core.gated core :), (congrArg Core.ul1 core :).trans lines⟩
    · have step : exec (.corePowerUngating c) s = event (s.modCore c fun x => { x with gated := false }) := by
        show execCorePowerUngating c s = _
        rw [execCorePowerUngating, if_pos (by simp [compute, gated])]
      exact ⟨_, step, rfl, rfl, s.core_modCore c fun x => { x with gated := false }⟩
  case port =>
    intro s p f ok pay x named enabled
    have able : (s.port p).enabled = true := enabled
    refine ⟨fun size near => ?_, fun wide => ?_⟩
    · have near : f.seq < (s.port p).nextSeq + 256 := near
      have takes : exec (.flitReceive p f ok pay) s = if ok && f.seq == (s.port p).nextSeq then
            event (s.setPort p { s.port p with nextSeq := (s.port p).nextSeq + 1, taken := (s.port p).taken ++ [(f, pay)] })
          else event (if ok then s.setPort p { s.port p with replays := (s.port p).replays + 1 }
            else (s.setPort p { s.port p with replays := (s.port p).replays + 1 }).logPort p 0) := by
        show execFlitReceive p f ok pay s = _
        rw [execFlitReceive]
        dsimp only
        rw [if_neg (by simp [able, size]; omega)]
      have order : (ok && f.seq == (s.port p).nextSeq) = true ↔ ok = true ∧ f.seq = x.nextSeq := by
        rw [Bool.and_eq_true, beq_iff_eq]
        rfl
      by_cases next : ok = true ∧ f.seq = x.nextSeq
      · rw [if_pos (order.mpr next)] at takes
        rw [if_pos next]
        exact ⟨_, takes, rfl, rfl, getAt_putAt_self _ _ _ _⟩
      · rw [if_neg (mt order.mp next)] at takes
        rw [if_neg next]
        refine ⟨_, takes, ?_, ?_, ?_⟩
        · split <;> rfl
        · split <;> rfl
        · split <;> exact getAt_putAt_self _ _ _ _
    · have wide : 4 < (s.port p).lanes := wide
      have step : exec (.portLaneLoss p) s = event ((s.setPort p { s.port p with lanes := 4 }).logPort p 0) := by
        show execPortLaneLoss p s = _
        rw [execPortLaneLoss]
        dsimp only
        rw [if_neg (by simp [able]; omega)]
      exact ⟨_, step, rfl, rfl, getAt_putAt_self _ _ _ _⟩
  case evaluation =>
    intro s d x die due floor
    obtain ⟨cool, low, high⟩ := stepRequest_bounds (field (s.die d).thctl 0 4) x
    have step : exec (.throttleEvaluation d x) s = event ((s.evaluated d x).throttled d) := by
      have ready : (s.thr d).due s.gtime = true := by
        unfold Throttle.due
        split
        · next t0 at_ => exact decide_eq_true (due t0 at_)
        · rfl
      show execThrottleEvaluation d x s = _
      rw [execThrottleEvaluation, if_neg (by simp [ready]; omega)]
      rfl
    have thr := s.evaluated_thr d x
    have same : (s.evaluated d x).harts = s.harts ∧ (s.evaluated d x).mem = s.mem := ⟨rfl, rfl⟩
    generalize s.evaluated d x = v at step thr same
    have member : (v.thr d).member = (s.thr d).member := by rw [thr]
    have request : (v.thr d).request = stepRequest (field (s.die d).thctl 0 4) x := by rw [thr]
    have steps : (v.thr d).step = (s.thr d).step := by rw [thr]
    cases inside : (s.thr d).member with
    | true =>
      obtain ⟨harts, mem, stands⟩ := State.throttled_member (member.trans inside)
      have asked : ((v.throttled d).thr d).request = _ := (stands d).1.trans request
      refine ⟨_, step, harts.trans same.1, mem.trans same.2, fun power heat => asked.trans (cool power heat), ?_, ?_,
        (stands d).2.trans steps⟩
      · exact low.trans_eq asked.symm
      · exact asked.trans_le high
    | false =>
      have alone : v.throttled d = v.applyOwn d := if_pos (by rw [member, inside]; rfl)
      obtain ⟨harts, mem, own⟩ := v.applyOwn_ends d
      rw [alone] at step
      generalize v.applyOwn d = w at step harts mem own
      have asked : (w.thr d).request = _ := (congrArg Throttle.request own).trans request
      refine ⟨_, step, harts.trans same.1, mem.trans same.2, fun power heat => asked.trans (cool power heat), ?_, ?_, ?_⟩
      · exact low.trans_eq asked.symm
      · exact asked.trans_le high
      · show (w.thr d).step = (w.thr d).request
        rw [own]
  case member =>
    intro s d l step t0 leads die other member
    refine ⟨fun announced new => ?_, fun at_ announced heard fresh early => ?_, fun silent => ?_⟩
    · have row : exec (.throttleAnnouncement d step t0) s =
          event (s.modThr d fun t => { t with announced := some (step, t0 + 2000), heard := s.gtime }) := by
        show execThrottleAnnouncement d step t0 s = _
        rw [execThrottleAnnouncement, leads]
        dsimp only
        rw [if_pos (by simp [die, member, announced, new, other])]
      have thr := s.thr_modThr d fun t => { t with announced := some (step, t0 + 2000), heard := s.gtime }
      exact ⟨_, row, rfl, (congrArg Throttle.announced thr :), (congrArg Throttle.heard thr :)⟩
    · have row : exec (.throttleAck d) s = event (s.modThr l fun u => { u with acks := u.acks + 2 ^ d }) := by
        show execThrottleAck d s = _
        rw [execThrottleAck, leads]
        dsimp only
        rw [announced]
        dsimp only
        rw [if_pos (by simp [die, heard, fresh, early, other])]
      have thr := s.thr_modThr l fun u => { u with acks := u.acks + 2 ^ d }
      exact ⟨_, row, rfl, (congrArg Throttle.acks thr :)⟩
    · have row : exec (.leaderSilence d) s =
          event ((s.modThr d fun u => { u with member := false, announced := none }).applyOwn d) := by
        have follows : (s.leader d != some d) = true := by
          rw [leads, bne_iff_ne]
          exact fun same => other (Option.some.inj same).symm
        show execLeaderSilence d s = _
        rw [execLeaderSilence, if_pos (by simp [die, member, follows, silent])]
      have thr := s.thr_modThr d fun u => { u with member := false, announced := none }
      have same : (s.modThr d fun u => { u with member := false, announced := none }).harts = s.harts := rfl
      generalize (s.modThr d fun u => { u with member := false, announced := none }) = v at row thr same
      obtain ⟨harts, -, own⟩ := v.applyOwn_ends d
      rw [thr] at own
      exact ⟨_, row, harts.trans same, (congrArg Throttle.member own :), (congrArg Throttle.step own :)⟩
  case outside =>
    intro s d step t0 leads die member
    refine ⟨fun small past new => ?_, fun at_ announced due => ?_⟩
    · have row : exec (.throttleAnnouncement d step t0) s =
          event (s.modThr d fun t => { t with announced := some (step, t0 + 2000), heard := s.gtime }) := by
        show execThrottleAnnouncement d step t0 s = _
        rw [execThrottleAnnouncement, leads]
        dsimp only
        rw [if_pos (by simp [die, member, new, small, past])]
      have thr := s.thr_modThr d fun t => { t with announced := some (step, t0 + 2000), heard := s.gtime }
      exact ⟨_, row, rfl, (congrArg Throttle.announced thr :), (congrArg Throttle.heard thr :)⟩
    · have row : exec (.throttleEffect d) s = event ((s.changeStep [d] step).clearAnnounced [d]) := by
        show execThrottleEffect d s = _
        rw [execThrottleEffect, announced]
        dsimp only
        rw [if_neg (by simp; omega), leads]
        exact if_pos member
      have harts := ((s.changeStep [d] step).clearAnnounced_harts [d]).trans (s.changeStep_harts [d] step)
      have thr := ((s.changeStep [d] step).clearAnnounced_thr [d] d).1 List.mem_cons_self
      rw [(s.changeStep_thr [d] step d).1 List.mem_cons_self] at thr
      generalize (s.changeStep [d] step).clearAnnounced [d] = v at row harts thr
      exact ⟨v.happen, row, harts, (congrArg Throttle.announced thr :), (congrArg Throttle.step thr :)⟩
  case effect =>
    intro s d step at_ leads announced due
    have die := State.leader_die leads
    have row : exec (.throttleEffect d) s =
        event (if s.allAcked d then (State.changeStep { s with fresh := s.fresh + 1 } (s.members d) step).clearAnnounced (s.members d)
          else State.clearAnnounced { s with fresh := s.fresh + 1 } (s.members d)) := by
      show execThrottleEffect d s = _
      rw [execThrottleEffect, announced]
      dsimp only
      rw [if_neg (by simp; omega), leads]
      exact if_neg (not_not_intro rfl)
    have same : State.harts { s with fresh := s.fresh + 1 } = s.harts ∧ ∀ k, State.thr { s with fresh := s.fresh + 1 } k = s.thr k :=
      ⟨rfl, fun _ => rfl⟩
    generalize { s with fresh := s.fresh + 1 } = u at row same
    generalize s.members d = ds at row ⊢
    cases acked : s.allAcked d with
    | true =>
      rw [acked, if_pos rfl] at row
      have harts := (((u.changeStep ds step).clearAnnounced_harts ds).trans (u.changeStep_harts ds step)).trans same.1
      refine ⟨State.happen _, row, harts, fun k => ⟨fun named => ?_, fun free => ?_⟩⟩
      · have thr := ((u.changeStep ds step).clearAnnounced_thr ds k).1 named
        rw [(u.changeStep_thr ds step k).1 named] at thr
        exact ⟨(congrArg Throttle.announced thr :), (congrArg Throttle.step thr :)⟩
      · exact (((u.changeStep ds step).clearAnnounced_thr ds k).2 free).trans
          (((u.changeStep_thr ds step k).2 free).trans (same.2 k))
    | false =>
      rw [acked, if_neg Bool.false_ne_true] at row
      refine ⟨_, row, (u.clearAnnounced_harts ds).trans same.1, fun k => ⟨fun named => ?_, fun free => ?_⟩⟩
      · have thr := (u.clearAnnounced_thr ds k).1 named
        rw [same.2] at thr
        exact ⟨(congrArg Throttle.announced thr :), (congrArg Throttle.step thr :)⟩
      · exact ((u.clearAnnounced_thr ds k).2 free).trans (same.2 k)
  case stack =>
    intro s stack temp named
    have row : exec (.hbmTempSample stack temp) s = execHbmTempSample stack temp s := rfl
    rw [row, execHbmTempSample]
    dsimp only
    rw [if_neg (by omega)]
    refine ⟨fun cool => ?_, fun hot runs => ?_⟩
    · have band : bandOf temp = if temp < 85 then 0 else if temp < 95 then 1 else if temp < 105 then 2 else 3 := by
        unfold bandOf
        rw [if_pos cool]
      have below : bandOf temp ≠ 4 := by
        rw [band]
        split_ifs <;> decide
      rw [if_neg below]
      refine ⟨_, _, rfl, rfl, rfl, getAt_putAt_self 0 s.bands stack _, ?_⟩
      rw [← band]
      split
      · next rises => exact ⟨Nat.le_refl _, fun _ => rfl, fun falls => absurd rises (Nat.not_le.mpr falls), fun less => absurd less (lt_irrefl _)⟩
      · next falls =>
        obtain ⟨low, high, stay⟩ := bandDown_bounds temp (getAt 0 s.bands stack) cool (Nat.le_of_not_le falls)
        exact ⟨low, fun rises => absurd rises falls, fun _ => high, stay⟩
    · have trip : bandOf temp = 4 := by
        unfold bandOf
        split_ifs <;> omega
      rw [if_pos trip, if_neg (by rw [runs]; exact Bool.false_ne_true)]
      exact ⟨_, _, rfl, s.fatalStop_fatal .thermal (stack / 2) 15, rfl⟩
  case droop =>
    intro s d die
    refine ⟨fun steady => ?_, fun stretched => ?_⟩
    · have step : exec (.supplyDroop d) s = event (s.modDie d fun x => { x with stretching := some (s.gtime, none) }) := by
        show execSupplyDroop d s = _
        rw [execSupplyDroop, if_pos (by simp [die, steady])]
      exact ⟨_, step, rfl, rfl, s.die_modDie d fun x => { x with stretching := some (s.gtime, none) }⟩
    · have step : exec (.stretchEnd d) s = event ((s.modDie d fun x => { x with stretching := none }).syncDie d 128) := by
        show execStretchEnd d s = _
        rw [execStretchEnd, if_pos (by rw [stretched, decide_eq_true die]; rfl)]
        rfl
      have ended := s.die_modDie d fun x => { x with stretching := none }
      obtain ⟨harts, -, dies⟩ := (s.modDie d fun x => { x with stretching := none }).syncDie_rest d 128
      have over_ := (congrArg (fun l => (getAt Die.reset l d).stretching) dies).trans (congrArg Die.stretching ended :)
      have same : (s.modDie d fun x => { x with stretching := none }).harts = s.harts := rfl
      generalize (s.modDie d fun x => { x with stretching := none }).syncDie d 128 = v at step harts over_
      exact ⟨v.happen, step, harts.trans same, over_⟩

end Sys2Proof.Machine

/-! SUPPORT for MemoryStaysCanonical: the canonical form of memory and the issuing hart through the scheduler, the registers and
the homes. -/

namespace Sys2Proof.Machine

/-! ## What an instruction and a step keep -/

/-- What the result of an instruction keeps. -/
def ResKeeps (s : State) : Res → Prop
  | .ok t => Keeps s t
  | .jump t _ => Keeps s t
  | .trap t _ _ => Keeps s t
  | .stall t => Keeps s t

/-- What an outcome keeps. -/
def OutKeeps (s : State) : Out → Prop
  | .next t => Keeps s t
  | _ => True

theorem ResKeeps.ite {s : State} {p : Prop} [Decidable p] {a b : Res} (left : ResKeeps s a) (right : ResKeeps s b) :
    ResKeeps s (if p then a else b) := by
  split <;> assumption

theorem OutKeeps.ite {s : State} {p : Prop} [Decidable p] {a b : Out} (left : OutKeeps s a) (right : OutKeeps s b) :
    OutKeeps s (if p then a else b) := by
  split <;> assumption

theorem Keeps.fst_ite {α : Type} {s : State} {p : Prop} [Decidable p] {a b : State × α} (left : Keeps s a.1) (right : Keeps s b.1) :
    Keeps s (if p then a else b).1 := by
  split <;> assumption

namespace Keeps

section
variable {s t : State} (kept : Keeps s t)
include kept

theorem home {u : State} (frame : HomeFrame t u) : Keeps s u := kept.trans (.ofHome frame)
theorem tr {u : State} (frame : TrFrame t u) : Keeps s u := kept.trans (.ofTr frame)

/-! ## The end of an instruction -/

omit kept in
theorem finishAt (h len : Nat) {r : Res} (res : ResKeeps s r) : OutKeeps s (finishAt h len r) := by
  unfold Machine.finishAt
  cases r with
  | ok t => exact res
  | jump t pc => exact res
  | trap t cause stval =>
    dsimp only
    split
    · exact (takeTrap (s := s) res h false cause _ stval _).noteDest h cause _
    · exact res
  | stall t => exact res

/-! ## Timelines, traces and registers -/

theorem complete (h k n : Nat) : Keeps s (t.complete h k n) := kept
theorem logErr (d : Nat) (r : ErrRec) : Keeps s (t.logErr d r) := kept
theorem logDiscard (d level : Nat) (a : Word) : Keeps s (t.logDiscard d level a) := kept

theorem closeTrace (c : Nat) : Keeps s (t.closeTrace c) := by
  unfold State.closeTrace
  dsimp only
  split
  · exact .ite kept kept
  · exact kept

theorem writeRecord (c kind hart info cyc : Nat) (w : Word) : Keeps s (t.writeRecord c kind hart info cyc w) :=
  kept.home (t.writeRecord_frame c kind hart info cyc w)

theorem landed (h tag num : Nat) (data : List Byte) (err : Bool) : Keeps s (t.landed h tag num data err) := by
  unfold State.landed
  dsimp only
  split
  · exact kept
  · exact .ite kept kept

theorem landingDone (h tag : Nat) : OptKeeps s (t.landingDone h tag) := by
  unfold State.landingDone
  dsimp only
  split
  · trivial
  · exact .ite trivial (.ite kept kept)

theorem endCollective (d : Nat) (c : Collective) (data : List Byte) (err : Bool) : Keeps s (t.endCollective d c data err) :=
  complete (landed (kept.modDie d _) c.hart c.tag c.num data err) c.hart 3 c.num

theorem writeTrctl (c : Nat) (v : Word) : Keeps s (t.writeTrctl c v) := .ite kept (closeTrace (kept.modCore c _) c)
theorem writeTrace (c r : Nat) (v : Word) : Keeps s (t.writeTrace c r v) := .ite (kept.writeTrctl c v) kept

theorem changePartition (c : Nat) : Keeps s (t.changePartition c) := by
  unfold State.changePartition
  split <;> exact kept

theorem writeXgctl (d : Nat) (v : Word) : Keeps s (t.writeXgctl d v) :=
  happen (modDie (fold (fun _ c kept => kept.endCollective d c [] true) _ kept) d _)

/-! ## Levels and pushes (R77, R84, R90) -/

theorem lookAt (pa n : Nat) : Keeps s (t.lookAt pa n) := kept.home (t.lookAt_frame pa n)
theorem agentWrite (o : Option Owner) (pa : Nat) (bs : List Byte) : Keeps s (t.agentWrite o pa bs) :=
  kept.home (t.agentWrite_frame o pa bs)
theorem levelAdd (x : Ctx) (va : Word) (k : Nat) : Keeps s (t.levelAdd x va k) := kept.tr (t.levelAdd_frame x va k)
theorem levelJoin (x : Ctx) (va : Word) (part k : Nat) : Keeps s (t.levelJoin x va part k) := kept.tr (t.levelJoin_frame x va part k)
theorem levelDec (x : Ctx) (child : Bool) (part n : Nat) (va : Word) : Keeps s (t.levelDec x child part n va).1 :=
  kept.tr (t.levelDec_frame x child part n va)
theorem push (d part : Nat) (q : QRec) : Keeps s (t.push d part q) := kept.home (t.push_frame d part q)
theorem pushAt (d part lv : Nat) (q : QRec) : Keeps s (t.pushAt d part lv q) :=
  modDie (kept.home (t.spill_frame ((t.die d).level part lv) _ q.rc)) d _

theorem pushOrHold (d : Nat) (p : HeldPush) : Keeps s (t.pushOrHold d p) := by
  unfold State.pushOrHold
  have pushed := kept.push d p.part (t.qrec d p.rc p.handle p.handler none)
  refine .ite kept ?_
  dsimp only
  split
  · exact pushed
  · exact pushed

theorem submit (d : Nat) (v : Word) : Keeps s (t.submit d v) := by
  unfold State.submit
  dsimp only
  refine .ite kept ?_
  have checked := (kept.lookAt (64 * field v 6 50) 64).tr (State.checkRec_frame _ ((t.lookAt (64 * field v 6 50) 64).partCtx (field v 0 4))
    (TaskRec.ofBytes ((t.lookAt (64 * field v 6 50) 64).homeBytes (64 * field v 6 50) 64)) (field v 0 4))
  split
  · rename_i e
    rw [e] at checked
    exact .ite checked (modDie (push (.ite checked (checked.levelAdd _ _ _)) d _ _) d _)
  · rename_i e
    rw [e] at checked
    exact checked

/-! ## The queue scheduler (R281, R282) -/

theorem launchOne (d part : Nat) (level addr : Word) : Keeps s (t.launchOne d part level addr) := by
  unfold State.launchOne
  dsimp only
  have read : Keeps s (if addr.toNat % 64 = 0 then t.agentRead (t.partCtx part) addr 64 else (t, .fault 3)).1 :=
    fst_ite (kept.tr (t.agentRead_frame _ addr 64)) kept
  split
  · rename_i e
    rw [e] at read
    exact read.levelDec _ _ _ _ _
  · rename_i bs e
    rw [e] at read
    have checked := read.tr (State.checkRec_frame _ (t.partCtx part) { TaskRec.ofBytes bs with launch := level } part)
    split
    · rename_i e
      rw [e] at checked
      exact checked.levelDec _ _ _ _ _
    · rename_i e
      rw [e] at checked
      exact .ite checked (checked.pushOrHold d _)

theorem launchRecs (d part : Nat) (level recs : Word) (i n : Nat) : Keeps s (t.launchRecs d part level recs i n) := by
  induction n generalizing t i with
  | zero => exact kept
  | succ n ih => exact ih (kept.launchOne d part level _) (i + 1)

theorem launch (d part : Nat) (bs : List Byte) : Keeps s (t.launch d part bs) := by
  unfold State.launch
  dsimp only
  have found : Keeps s (if (leW bs 0).toNat % 64 = 0 then t.translate (t.partCtx part) .store (leW bs 0) else (t, .fault 3)).1 :=
    fst_ite (kept.tr (t.translate_frame _ .store _)) kept
  split
  · rename_i e
    rw [e] at found
    exact found
  · rename_i e
    rw [e] at found
    have joined : ∀ u, Keeps s u → Keeps s (if leW bs 8 = 0 then u else u.levelJoin (t.partCtx part) (leW bs 8) part 1) :=
      fun u kept => .ite kept (kept.levelJoin _ _ _ _)
    exact .ite ((levelAdd (joined _ (found.agentWrite _ _ _)) _ _ _).levelDec _ _ _ _ _)
      (launchRecs (joined _ (found.agentWrite _ _ _)) _ _ _ _ _ _)

theorem drainQueue (d desc n : Nat) : Keeps s (t.drainQueue d desc n) := by
  induction n generalizing t with
  | zero => exact kept
  | succ n ih =>
    unfold State.drainQueue
    exact ih (agentWrite (launch ((kept.lookAt desc 32).lookAt _ 64) d _ _) _ _ _)

theorem processQueue (d desc : Nat) : Keeps s (t.processQueue d desc) := (kept.lookAt desc 32).drainQueue d desc _

theorem mapQueue (d q : Nat) (v : Word) : Keeps s (t.mapQueue d q v) := by
  rw [State.mapQueue_eq]
  have mapped : Keeps s (t.mapped d q v) := kept
  have cleared : Keeps s ((t.mapped d q v).pendingClear d v) := mapped.agentWrite _ _ _
  exact happen (cleared.processQueue d _)

theorem unmapQueue (d q : Nat) (v : Word) : Keeps s (t.unmapQueue d q v) := by
  unfold State.unmapQueue
  extract_lets late w u
  have unmapped : Keeps s u := kept
  clear_value u
  refine happen ?_
  split
  · exact .ite (unmapped.hostPut _ _) unmapped
  · exact unmapped

theorem writeQmap (d q : Nat) (v : Word) : Keeps s (t.writeQmap d q v) := .ite (kept.mapQueue d q v) (kept.unmapQueue d q v)

theorem writeCreg (d : Nat) (r : CReg) (v : Word) : Keeps s (t.writeCreg d r v) := by
  unfold State.writeCreg
  split
  case h_1 => exact kept.writeTrace _ _ v
  case h_9 => exact kept.writeXgctl d v
  case h_14 => exact kept.writeQmap d _ v
  case h_15 => exact kept.submit d v
  all_goals exact kept

theorem ctrlStore (a : Nat) (v : Word) : Keeps s (t.ctrlStore a v) := by
  unfold State.ctrlStore
  exact kept.writeCreg _ _ v

end

end Keeps

end Sys2Proof.Machine

/-! SUPPORT for MemoryStaysCanonical: the canonical form of memory and the issuing hart through tasks, loads, stores and drains. -/

namespace Sys2Proof.Machine

namespace Keeps

/-- The package of a pair that a match has named. -/
theorem fst_of {α : Type} {s u : State} {p : State × α} {x : α} (kept : Keeps s p.1) (e : p = (u, x)) : Keeps s u := by
  rw [e] at kept
  exact kept

/-- The package of a load that a match has named. -/
theorem ld_of {s : State} {r u : LdRes} (kept : Keeps s r.state) (e : r = u) : Keeps s u.state := by
  rw [e] at kept
  exact kept

section
variable {s t : State} (kept : Keeps s t)
include kept

/-! ## Tasks (R80 to R97) -/

theorem chainCancelled (x : Ctx) (launch : Word) (exempt : Bool) : Keeps s (t.chainCancelled x launch exempt).1 :=
  kept.tr (t.chainCancelled_frame x launch exempt)
theorem chainHolds (x : Ctx) (launch handle : Word) (spare : Bool) : Keeps s (t.chainHolds x launch handle spare).1 :=
  kept.tr (t.chainFrom_frame x 4 launch)
theorem acquireFor (h : Nat) : Keeps s (t.acquireFor h) := kept

theorem startOn (h : Nat) (q : QRec) (level : Nat) : Keeps s (t.startOn h q level) := by
  unfold State.startOn
  extract_lets d part u
  have acked : Keeps s u := by
    unfold u
    split <;> exact kept
  clear_value u
  have read := acked.chainCancelled (u.partCtx part) q.rc.launch q.handler.isSome
  split
  · rename_i e
    rw [e] at read
    exact happen (read.levelDec _ _ _ _ _)
  · rename_i e
    rw [e] at read
    extract_lets acquired numbered begun
    have begun_ : Keeps s begun := read
    exact begun_.record (coreOf h) 1 (localHart h) 0 q.handle

theorem releaseLease (h : Nat) : Keeps s (t.releaseLease h) := .ite kept kept

theorem endPack (h : Nat) (code : BitVec 32) : Keeps s (t.endPack h code) := by
  unfold State.endPack
  split
  · exact kept
  · exact ((kept.abortPack _ code).packLeave _ h).modHart h _

theorem faultHandler (x : Ctx) (d part : Nat) (launch arg0 arg1 : Word) : Keeps s (t.faultHandler x d part launch arg0 arg1) :=
  kept.tr (t.faultHandler_frame x d part launch arg0 arg1)

theorem endTask (h : Nat) (how : TaskEnd) : Keeps s (t.endTask h how) := by
  unfold State.endTask
  split
  · exact kept
  · next k _ =>
    extract_lets part d c x left flushed rows closed cleared slots freed told faults joined counted traced
    have left_ : Keeps s left := by
      unfold left
      split
      · exact kept
      · exact kept.endPack h 4
      · exact kept.endPack h 5
    clear_value left
    have rows_ : Keeps s rows := by
      unfold rows
      split
      rename_i e
      have withdrawn : Keeps s (flushed.withdrawRows h).1 := left_
      rw [e] at withdrawn
      exact fold (fun u (r : Row) kept => kept.complete h 1 r.num) _ withdrawn
    clear_value rows
    have left_ : Keeps s (slots.leaveWaits h) := rows_
    have freed_ : Keeps s freed := releaseLease left_ h
    clear_value freed
    have told_ : Keeps s told := by
      unfold told
      split
      · exact freed_.faultHandler _ _ _ _ _ _
      · exact freed_
    clear_value told
    have faults_ : Keeps s faults := fold (fun u _ kept => kept.faultHandler _ _ _ _ _ _) _ told_
    have joined_ : Keeps s joined := .ite (faults_.tr (faults.joinDec_frame h k)) faults_
    have counted_ : Keeps s counted := .ite joined_ (joined_.levelDec _ _ _ _ _)
    exact counted_.record (coreOf h) 1 (localHart h) 1 k.handle

/-! ## The ordering machine (R166 to R170) -/

theorem ofEvict {u : State} {c line : Nat} (e : t.evictLine c line = some u) : Keeps s u := kept.home (t.evictLine_frame u c line e)
theorem storeLine (c pa : Nat) (bs : List Byte) : Keeps s (t.storeLine c pa bs) := (kept.fillLine c (pa / 64)).modCore c _

theorem sendReg (h : Nat) (vec : Bool) (tag : StoreTag) (va : Word) (pa : Nat) (bs : List Byte) :
    Keeps s (t.sendReg h vec tag va pa bs) := by
  unfold State.sendReg
  extract_lets c w vline u
  have room : Keeps s u := kept.roomL1 c (pa / 64)
  exact .ite room room

theorem drainError (h : Nat) (va : Word) (pa n : Nat) : Keeps s (t.drainError h va pa n) := kept

theorem putStore (h : Nat) (vec : Bool) (tag : StoreTag) (va : Word) (pa : Nat) (pbmt : BitVec 2) (bs : List Byte) :
    Keeps s (t.putStore h vec tag va pa pbmt bs).1 := by
  unfold State.putStore
  have home := kept.homeWrite none pa bs
  refine fst_ite (kept.drainError h va pa _) (fst_ite (fst_ite (happen (kept.sendSnoop _)) home) (fst_ite home (fst_ite ?_ ?_)))
  · exact happen (kept.storeLine _ pa bs)
  · exact happen (kept.sendReg h vec tag va pa bs)

theorem performReg (k : Nat) (r : Registration) : Keeps s (t.performReg k r) := by
  unfold State.performReg
  have taken : Keeps s { t with regs := t.regs.eraseIdx k } := kept
  exact happen (taken.home (State.recordReg_frame _ r _))

/-! ## Loads and stores (R303, R326) -/

theorem switchOut (h : Nat) : Keeps s (t.switchOut h) := kept
theorem result (d : Reg) (v : Word) : Keeps s (t.result d v) := kept
theorem useBank (p : Place) : Keeps s (t.useBank p) := by
  unfold State.useBank
  split <;> exact kept
theorem useRemote (h c off : Nat) : Keeps s (t.useRemote h c off) := .ite kept (kept.useBank _)

theorem askHome {go : State → Res} (goes : ResKeeps s (go t)) : ResKeeps s (t.askHome go) := .ite goes (.ite kept kept)

theorem locate (h : Nat) (sp : Space) (acc : Acc) (va : Word) (n : Nat) : Keeps s (t.locate h sp acc va n).1 :=
  kept.tr (t.locate_frame h sp acc va n)

theorem effLoad (wd : LdW) (sp : Space) (d : Reg) (va : Word) : ResKeeps s (effLoad t wd sp d va) := by
  unfold Machine.effLoad
  dsimp only
  refine .ite kept (.ite kept ?_)
  have located := kept.locate t.cur sp .load va (ldBytes wd)
  split
  · next e => exact located.fst_of e
  · next e =>
    have at_ := located.fst_of e
    exact .ite at_ (.ite at_ at_)
  · next u pa m e =>
    have at_ := located.fst_of e
    refine .ite (.ite at_ at_) ?_
    have loaded := at_.loadG t.cur (u.hart t.cur).arrived va pa (ldBytes wd) m
    split
    · next e => exact loaded.ld_of e
    · next e => exact loaded.ld_of e
    · next e =>
      have missed := loaded.ld_of e
      exact Keeps.ite (missed.switchOut _) missed
    · next e => exact loaded.ld_of e
  · next e => exact located.fst_of e

theorem storeG (h : Nat) (va : Word) (pa : Nat) (pbmt : BitVec 2) (bs : List Byte) : ResKeeps s (t.storeG h va pa pbmt bs) := by
  unfold State.storeG
  split
  · exact .ite (.ite kept kept) kept
  · exact .ite kept kept

theorem effStore (wd : StW) (sp : Space) (v va : Word) : ResKeeps s (effStore t wd sp v va) := by
  unfold Machine.effStore
  dsimp only
  refine .ite kept (.ite kept ?_)
  have located := kept.locate t.cur sp .store va (stBytes wd)
  split
  · next e => exact located.fst_of e
  · next e =>
    have at_ := located.fst_of e
    exact .ite at_ (.ite at_ at_)
  · next e =>
    have at_ := located.fst_of e
    exact .ite (.ite (at_.ctrlStore _ v) at_) (.ite at_ (at_.storeG _ va _ _ _))
  · next e => exact located.fst_of e

end

end Keeps

end Sys2Proof.Machine

/-! SUPPORT for MemoryStaysCanonical: the canonical form of memory and the issuing hart through the elements, strips and streams of
vector instructions. -/

namespace Sys2Proof.Machine

/-! ## What reads of elements and strips keep -/

/-- What the read of an element keeps. -/
def ElemKeeps (s : State) : ElemGot → Prop
  | .val t _ => Keeps s t
  | .moved t => Keeps s t
  | .fault t _ => Keeps s t
  | .wait => True

theorem ElemKeeps.ite {s : State} {p : Prop} [Decidable p] {a b : ElemGot} (left : ElemKeeps s a) (right : ElemKeeps s b) :
    ElemKeeps s (if p then a else b) := by
  split <;> assumption

theorem ElemKeeps.of {s : State} {r u : ElemGot} (kept : ElemKeeps s r) (e : r = u) : ElemKeeps s u := by
  rw [e] at kept
  exact kept

/-- What a strip that is read keeps, or what the step does that must come first. -/
def StripKeeps {α : Type} (s : State) : StripRes (State × α) → Prop
  | .ok p => Keeps s p.1
  | .error r => OptKeeps s r

theorem StripKeeps.of {α : Type} {s : State} {r u : StripRes (State × α)} (kept : StripKeeps s r) (e : r = u) : StripKeeps s u := by
  rw [e] at kept
  exact kept

theorem StripKeeps.ite {α : Type} {s : State} {p : Prop} [Decidable p] {a b : StripRes (State × α)} (left : StripKeeps s a)
    (right : StripKeeps s b) : StripKeeps s (if p then a else b) := by
  split <;> assumption

theorem OptKeeps.of {s : State} {o u : Option State} (kept : OptKeeps s o) (e : o = u) : OptKeeps s u := by
  rw [e] at kept
  exact kept

/-- The package that a member's access leaves, named by a match. -/
theorem Keeps.acc_of {s : State} {r u : MemberAcc} (kept : Keeps s r.state) (e : r = u) : Keeps s u.state := by
  rw [e] at kept
  exact kept

namespace Keeps

section
variable {s t : State} (kept : Keeps s t)
include kept

/-! ## Elements (R169, R359 to R369) -/

theorem queueVector (i : Instr) : ResKeeps s (t.queueVector i) := .ite kept (.ite (.ite kept kept) kept)

theorem atomicAt (core : Nat) (p : Place) (n : Nat) (op : AtomOp) (operand : Nat) :
    Keeps s (t.atomicAt core p n op operand).2.2 := kept.home (t.atomicAt_frame core p n op operand)

theorem readLine (c pa n : Nat) : ElemKeeps s (t.readLine c pa n) := by
  unfold State.readLine
  split
  · exact .ite kept kept
  · exact .ite kept (kept.fillLine c _)

theorem readElem (h : Nat) (va : Word) (p : ElemPlace) (n : Nat) (pack : Option Nat) : ElemKeeps s (t.readElem h va p n pack) := by
  unfold State.readElem
  split
  · next c off => exact kept.useRemote h c off
  · exact kept
  · exact kept
  · next pa m =>
    dsimp only
    split
    · next obj =>
      refine .ite trivial ?_
      have loaded := kept.loadMember h obj true pa n m
      split
      · next e => exact loaded.ld_of e
      · next e => exact loaded.ld_of e
      · next e => exact loaded.ld_of e
      · next e => exact loaded.ld_of e
    · exact .ite trivial (.ite (.ite trivial (.ite kept kept)) (.ite (kept.readLine _ pa n)
        (.ite (.ite kept kept) (.ite trivial (.ite kept (kept.fill _ va pa n))))))

theorem elemSnoop (p : ElemPlace) : OptKeeps s (t.elemSnoop p) := by
  unfold State.elemSnoop
  split
  · exact .ite (happen (kept.sendSnoop _)) trivial
  · trivial

/-- What the write of an element keeps. -/
theorem writeElem (h : Nat) (e : Elem) {u : State} {done : Bool} (writes : t.writeElem h e = some (u, done)) : Keeps s u := by
  unfold State.writeElem at writes
  dsimp only at writes
  split at writes
  · next c off _ =>
    cases writes
    exact kept.useRemote h c off
  · cases writes
    exact kept
  · cases writes
  · next pa m _ =>
    split at writes
    · next obj _ =>
      split at writes
      · cases writes
      · have put := kept.memberAccess obj pa e.bytes (some fun _ => leBytes e.bytes e.data.toNat)
        split at writes
        · next e =>
          cases writes
          exact put.acc_of e
        · next e =>
          cases writes
          exact put.acc_of e
    · obtain ⟨-, put⟩ := Option.ite_none_right_eq_some.mp writes
      exact (kept.putStore h true (some (e.iword, e.idx)) e.va pa m (leBytes e.bytes e.data.toNat)).fst_of (Option.some.inj put)

theorem amoElem (h : Nat) (op : VAmoOp) (sgn : Bool) (e : Elem) : OptKeeps s (t.amoElem h op sgn e) := by
  unfold State.amoElem
  dsimp only
  split
  · next c off _ => exact modHart (atomicAt (kept.useRemote h c off) _ _ _ _ _) h _
  · next pa m _ =>
    split
    · next obj _ =>
      refine .ite trivial ?_
      have put := kept.memberAccess obj pa e.bytes
        (some fun bs => leBytes e.bytes (amoApply (vamoOp op sgn) e.bytes (leNat bs) e.data.toNat).bits)
      split
      · next e => exact modHart (put.acc_of e) h _
      · next e => exact put.acc_of e
    · exact .ite (modHart (kept.atomicAt _ _ _ _ _) h _) trivial
  · trivial

theorem locateElem (h : Nat) (sp : Space) (acc : Acc) (va : Word) (n : Nat) : Keeps s (t.locateElem h sp acc va n).1 :=
  fst_ite kept (kept.locate h sp acc va n)

/-! ## Strips (R61 to R70) -/

theorem readOne (h : Nat) (x : VStream) (j : Nat) : StripKeeps s (t.readOne h x j) := by
  unfold State.readOne
  refine .ite kept ?_
  have located := kept.locateElem h (streamSpace x.space) .load (x.addr j) x.ty.bytes
  dsimp only
  split
  · next e => exact located.fst_of e
  · next u p e =>
    have at_ := located.fst_of e
    refine .ite trivial ?_
    have read := at_.readElem h (x.addr j) p x.ty.bytes (u.hart h).member
    split
    · next e => exact read.of e
    · next e => exact read.of e
    · next e => exact read.of e
    · show OptKeeps s _
      split
      · exact .ite (happen (at_.sendSnoop _)) trivial
      · trivial

theorem readStrip (h : Nat) (x : VStream) (j n : Nat) : StripKeeps s (t.readStrip h x j n) := by
  induction n generalizing t j with
  | zero => exact kept
  | succ n ih =>
    unfold State.readStrip
    have one := kept.readOne h x j
    split
    · next e => exact one.of e
    · next u v e =>
      have rest := ih (t := u) (one.of e) (j + 1)
      cases more : u.readStrip h x (j + 1) n with
      | error r => exact rest.of more
      | ok p =>
        have read : StripKeeps s (.ok p) := rest.of more
        exact read

theorem popStrip (h : Nat) (x : VStream) (vl : Nat) : StripKeeps s (t.popStrip h x vl) := by
  unfold State.popStrip
  split
  · exact kept
  · exact kept.readStrip h x _ vl

theorem takeStrips (h : Nat) (os : List VOp) (ru : VRun) (got : List (VStream × List StripElem)) :
    StripKeeps s (t.takeStrips h os ru got) := by
  induction os generalizing t ru got with
  | nil => exact kept
  | cons o os ih =>
    unfold State.takeStrips
    split
    · exact ih kept ru got
    · next x _ =>
      refine .ite (ih kept ru got) ?_
      have popped := kept.popStrip h x ru.vl
      split
      · next e => exact popped.of e
      · next e => exact ih (popped.of e) _ _

theorem popAll (h : Nat) (os : List VOp) (ru : VRun) : StripKeeps s (t.popAll h os ru) := by
  unfold State.popAll
  have taken := kept.takeStrips h os ru []
  split
  · next e => exact taken.of e
  · next e => exact taken.of e

theorem outsFrom (h : Nat) (x : VStream) (ru : VRun) (l : List (Nat × Nat)) : Keeps s (t.outsFrom h x ru l).1 := by
  induction l generalizing t with
  | nil => exact kept
  | cons p l ih =>
    unfold State.outsFrom
    dsimp only
    refine fst_ite (ih kept) ?_
    have located := kept.locateElem h (streamSpace x.space) .store (x.addr (x.pos + p.1)) x.ty.bytes
    split
    · next e => exact located.fst_of e
    · next e =>
      have at_ := located.fst_of e
      exact fst_ite at_ (ih at_)

theorem addOuts (h : Nat) (ru : VRun) : Keeps s (t.addOuts h ru).1 := by
  unfold State.addOuts
  split
  · exact kept
  · split
    · exact kept
    · exact kept.outsFrom h _ ru _

theorem elemsFrom (h : Nat) (ru : VRun) (v : VMem) (kind : ElemKind) (i n : Nat) : Keeps s (t.elemsFrom h ru v kind i n).1 := by
  induction n generalizing t i with
  | zero => exact kept
  | succ n ih =>
    unfold State.elemsFrom
    dsimp only
    refine fst_ite (ih kept (i + 1)) (fst_ite kept ?_)
    have located (a : Bool) (acc : Acc) : Keeps s (if (ru.addr (t.hart h) v i).toNat % v.t.bytes ≠ 0 then (t, Loc.fault 3)
        else if a = true then (t, .fault 5) else t.locate h (ru.space v) acc (ru.addr (t.hart h) v i) v.t.bytes).1 :=
      fst_ite kept (fst_ite kept (kept.locate h _ acc _ _))
    split
    · next e => exact (located _ _).fst_of e
    · next e =>
      have at_ := (located _ _).fst_of e
      exact fst_ite at_ (fst_ite at_ (ih at_ (i + 1)))

theorem ownElems (h : Nat) (ru : VRun) (hi : Nat) : Keeps s (t.ownElems h ru hi).1 := by
  unfold State.ownElems
  split
  · exact kept.elemsFrom h ru _ _ _ _
  · exact kept.elemsFrom h ru _ _ _ _
  · exact kept.elemsFrom h ru _ _ _ _
  · exact kept

/-! ## Early and linked accesses (R170, R334) -/

theorem earlyElem (h : Nat) (head e : VEntry) (v : VMem) (i : Nat) : Keeps s (t.earlyElem h head e v i) := by
  unfold State.earlyElem
  dsimp only
  refine .ite kept ?_
  split
  · exact kept
  · next ix _ =>
    have located (va : Word) : Keeps s (t.locateElem h (if v.sp = .dflt then mtSpace e.num else v.sp) .load va v.t.bytes).1 :=
      kept.locateElem h _ .load va _
    split
    · next u p e =>
      have at_ := (located _).fst_of e
      refine .ite kept ?_
      split
      · next e => exact modHart ((at_.readElem h _ p v.t.bytes none).of e) h _
      · exact kept
    · exact kept

theorem readAheads (h : Nat) : Keeps s (t.readAheads h) := by
  unfold State.readAheads
  dsimp only
  split
  · split
    · refine .ite kept (fold (fun u i kept => ?_) _ kept)
      exact Keeps.ite (p := _) (kept.earlyElem h _ _ _ i) kept
    · exact kept
  · exact kept

theorem linkStore (h : Nat) : Keeps s (t.linkStore h) := by
  unfold State.linkStore
  dsimp only
  split
  · split
    · next ex v kind _ =>
      have fresh : Keeps s { t with fresh := t.fresh + 1 } := kept
      refine .ite kept (.ite ?_ fresh)
      split
      · next e => exact .ite fresh (modHart ((fresh.elemsFrom h _ v kind 0 _).fst_of e) h _)
      · exact fresh
    · exact kept
  · exact kept

theorem joinLinked (h i : Nat) (v : Word) : Keeps s (t.joinLinked h i v) := by
  unfold State.joinLinked
  dsimp only
  split
  · exact kept
  · split
    · exact kept
    · exact .ite kept kept

/-! ## Start, delivery and steps of elements -/

theorem startRun (h : Nat) (ru : VRun) (es : List Elem) : Keeps s (t.startRun h ru es) := by
  unfold State.startRun
  split
  · exact happen (readAheads (kept.modHart h _) h)
  · exact kept

theorem startLinked (h : Nat) (e : VEntry) (es : List Elem) : Keeps s (t.startLinked h e es) := kept

theorem startVector (h : Nat) : OptKeeps s (t.startVector h) := by
  unfold State.startVector
  dsimp only
  split
  · next e _ _ _ =>
    refine .ite trivial ?_
    split
    · exact kept.startLinked h e _
    · have popped := kept.popAll h (vsrcs e.instr (t.hart h).vl (t.hart h).vew) ((t.hart h).newRun e)
      split
      · next e => exact popped.of e
      · next u ru e =>
        have at_ : Keeps s u := popped.of e
        exact ((at_.addOuts h ru).ownElems h ru _).startRun h _ _
  · trivial

theorem deliver (h idx : Nat) (got : Option Nat) (f : Option VFault) : Keeps s (t.deliver h idx got f) := by
  unfold State.deliver
  split
  · exact kept
  · next ru _ =>
    extract_lets stopped staged read joined
    have read_ : Keeps s read := linkStore (readAheads (kept.modHart h _) h) h
    have joined_ : Keeps s joined := by
      unfold joined
      split
      · exact read_.joinLinked h idx _
      · exact read_
    refine .ite joined_ ?_
    split
    · exact joined_.endLoad h _ _
    · exact joined_

theorem holdElem (e : Elem) : OptKeeps s (t.holdElem e) := by
  unfold State.holdElem
  split
  · refine .ite trivial ?_
    exact OptKeeps.ite kept trivial
  · trivial

theorem stepElem (h k : Nat) : OptKeeps s (t.stepElem h k) := by
  unfold State.stepElem
  split
  · trivial
  · next e _ =>
    refine .ite trivial ?_
    dsimp only
    have snoop := kept.elemSnoop e.place
    split
    · next found => exact snoop.of found
    · split
      · have read := kept.readElem h e.va e.place e.bytes e.pack
        split
        · next found => exact read.of found
        · next found => exact happen (deliver (modHart (read.of found) h _) h _ _ _)
        · next found => exact happen (deliver (modHart (read.of found) h _) h _ _ _)
        · trivial
      · split
        · next found => exact happen (modHart (modHart (kept.writeElem h e found) h _) h _)
        · next found => exact kept.writeElem h e found
        · exact kept.holdElem e
      · next op sgn _ =>
        have done := kept.amoElem h op sgn e
        split
        · next found => exact happen (modHart (modHart (done.of found) h _) h _)
        · exact kept.holdElem e

/-! ## Streams and landing tags (R66 to R72) -/

theorem prefetch (h reg : Nat) : OptKeeps s (t.prefetch h reg) := by
  unfold State.prefetch
  dsimp only
  split
  · trivial
  · next x _ =>
    refine .ite trivial ?_
    have read := kept.readStrip h x (x.pos + x.strips.length * (t.hart h).vl) (t.hart h).vl
    split
    · next e => exact read.of e
    · next e => exact happen (modHart (s := s) (read.of e) h _)

theorem readDesc (h pa : Nat) (m : BitVec 2) : Keeps s (t.readDesc h pa m).state := by
  unfold State.readDesc
  split
  · exact kept.loadMember h _ true pa 64 m
  · exact ldRes_ite kept (ldRes_ite (kept.loadHome h true pa 64 m) (ldRes_ite (kept.loadCached h true 0 pa 64 m)
      (ldRes_ite kept kept)))

theorem effVbind (d a : Reg) : ResKeeps s (effVbind t d a) := by
  unfold Machine.effVbind
  dsimp only
  refine .ite kept (.ite kept (.ite kept ?_))
  have located := kept.tr (t.locateG_frame t.cur .load (t.me.rd a) 64)
  split
  · next e => exact located.fst_of e
  · next u pa m e =>
    have read := (located.fst_of e).readDesc u.cur pa m
    split
    · next e =>
      have at_ := read.ld_of e
      split <;> exact at_
    · next e => exact read.ld_of e
    · next e => exact read.ld_of e
    · next e => exact read.ld_of e
  · next e => exact located.fst_of e

theorem effVunbind (d : Reg) : ResKeeps s (effVunbind t d) := by
  unfold Machine.effVunbind
  dsimp only
  refine .ite kept (.ite kept ?_)
  split
  · exact kept
  · exact .ite kept kept

theorem commitOuts (h : Nat) (x : VStream) (g : LandTag) (i n : Nat) : Keeps s (t.commitOuts h x g i n).1 := by
  induction n generalizing t i with
  | zero => exact kept
  | succ n ih =>
    unfold State.commitOuts
    dsimp only
    refine fst_ite (ih kept (i + 1)) ?_
    have located := kept.locateElem h (streamSpace x.space) .store (x.addr (x.pos + i)) g.width
    split
    · next e => exact located.fst_of e
    · next e =>
      have at_ := located.fst_of e
      refine fst_ite at_ ?_
      have rest := ih at_ (i + 1)
      split
      · next e => exact rest.fst_of e
      · next e => exact rest.fst_of e

theorem effVcommit (tag : BitVec 4) : ResKeeps s (effVcommit t tag) := by
  unfold Machine.effVcommit
  dsimp only
  refine .ite kept ?_
  split
  · exact kept
  · next g _ =>
    refine .ite kept (.ite kept ?_)
    split
    · exact kept
    · next x _ =>
      refine .ite kept ?_
      have outs := kept.commitOuts t.cur x g 0 g.vl
      split
      · next e => exact outs.fst_of e
      · next e =>
        have at_ := outs.fst_of e
        exact at_

end

end Keeps

end Sys2Proof.Machine

/-! SUPPORT for MemoryStaysCanonical: the canonical form of memory and the issuing hart through atomics, fences, waits and the task
instructions. -/

namespace Sys2Proof.Machine

/-- What the read of a record that an instruction names keeps. -/
def RecKeeps (s : State) : RecGot → Prop
  | .ok t _ => Keeps s t
  | .res r => ResKeeps s r

theorem RecKeeps.ite {s : State} {p : Prop} [Decidable p] {a b : RecGot} (left : RecKeeps s a) (right : RecKeeps s b) :
    RecKeeps s (if p then a else b) := by
  split <;> assumption

theorem RecKeeps.of {s : State} {r u : RecGot} (kept : RecKeeps s r) (e : r = u) : RecKeeps s u := by
  rw [e] at kept
  exact kept

theorem ResKeeps.of {s : State} {r u : Res} (kept : ResKeeps s r) (e : r = u) : ResKeeps s u := by
  rw [e] at kept
  exact kept

/-- What an instruction does or the record that it reads keeps. -/
def SumKeeps {α : Type} (s : State) : State × (Sum Res α) → Prop
  | (_, .inl r) => ResKeeps s r
  | (t, .inr _) => Keeps s t

theorem SumKeeps.ite {α : Type} {s : State} {p : Prop} [Decidable p] {a b : State × (Sum Res α)} (left : SumKeeps s a)
    (right : SumKeeps s b) : SumKeeps s (if p then a else b) := by
  split <;> assumption

theorem SumKeeps.of {α : Type} {s : State} {r u : State × (Sum Res α)} (kept : SumKeeps s r) (e : r = u) : SumKeeps s u := by
  rw [e] at kept
  exact kept

namespace Keeps

section
variable {s t : State} (kept : Keeps s t)
include kept

/-! ## Scalar floating point (R108 to R110) -/

theorem effFround (rm : Rm) (f : RMode → Hart → Hart) : ResKeeps s (effFround t rm f) := by
  unfold Machine.effFround
  split
  · exact kept
  · exact kept

theorem effFcvt (dst src : Ty) (rm : Rm) (sat : Bool) (d a : Reg) : ResKeeps s (effFcvt dst src rm sat d a t) := by
  unfold Machine.effFcvt
  split
  · exact kept
  · exact kept

theorem effScalar (i : Instr) {r : Res} (e : effScalar i t = some r) : ResKeeps s r := by
  unfold Machine.effScalar at e
  split at e
  case h_6 => exact Option.some.inj e ▸ kept.effFcvt _ _ _ _ _ _
  case h_7 =>
    obtain ⟨f, -, rfl⟩ := Option.map_eq_some_iff.mp e
    exact kept
  all_goals exact Option.some.inj e ▸ kept.effFround _ _

/-! ## Atomics (R305, R359) -/

theorem atomMember (m : Nat) (op : AtomOp) (n : Nat) (posted : Bool) (d : Reg) (pa operand : Nat) :
    ResKeeps s (t.atomMember m op n posted d pa operand) := by
  unfold State.atomMember
  dsimp only
  split
  · next e => exact modHart (acc_of (kept.memberAccess m pa n _) e) _ _
  · next e => exact acc_of (kept.memberAccess m pa n _) e

theorem sendAtomic (a : Atomic) : ResKeeps s (t.sendAtomic a) := .ite kept kept

theorem effAtomic (op : AtomOp) (w32 posted : Bool) (sp : Space) (d : Reg) (va operand : Word) :
    ResKeeps s (effAtomic op w32 posted sp d va operand t) := by
  unfold Machine.effAtomic
  extract_lets h x n opnd
  refine .ite kept (.ite kept (.ite kept ?_))
  have located := kept.locate h sp .store va n
  split
  · next e => exact located.fst_of e
  · next u p e =>
    have at_ := located.fst_of e
    extract_lets send
    split
    · exact .ite (modHart (at_.atomicAt _ _ n op opnd) h _) (at_.sendAtomic _)
    · next pa m =>
      refine .ite at_ ?_
      split
      · exact .ite at_ (.ite at_ (.ite (at_.sendSnoop _) (.ite at_ (at_.atomMember _ op n posted d pa opnd))))
      · exact .ite at_ (at_.sendAtomic _)
    · exact at_

theorem atomSnoop (p : Place) : OptKeeps s (t.atomSnoop p) := by
  unfold State.atomSnoop
  split
  · exact .ite (kept.sendSnoop _) trivial
  · trivial

theorem endAtomic (a : Atomic) (old : Nat) (f : FlagBits) : Keeps s (t.endAtomic a old f) := .ite kept kept

theorem noteHold (pa n : Nat) : OptKeeps s (t.noteHold pa n) := .ite kept trivial

theorem drainOldest (h : Nat) : OptKeeps s (t.drainOldest h) := by
  unfold State.drainOldest
  split
  · trivial
  · next e _ _ =>
    refine .ite trivial (.ite ?_ (.ite (kept.noteHold e.pa _) trivial))
    have put := kept.putStore h false none e.va e.pa e.pbmt e.data
    split
    · next found => exact modHart (put.fst_of found) h _
    · next found => exact put.fst_of found

theorem snoopFor (pa n : Nat) : Keeps s (t.snoopFor pa n) := kept.home (t.snoopFor_frame pa n)

theorem arriveReg (k : Nat) : OptKeeps s (t.arriveReg k) := by
  unfold State.arriveReg
  split
  · trivial
  · next r _ => exact .ite trivial (.ite (.ite (kept.snoopFor (4 * r.w) 4) trivial) (kept.performReg k r))

theorem stepAtomic (k : Nat) : OptKeeps s (t.stepAtomic k) := by
  unfold State.stepAtomic
  split
  · trivial
  · next a _ =>
    refine .ite trivial ?_
    split
    · next e => exact (kept.atomSnoop a.place).of e
    · refine .ite (.ite kept trivial) ?_
      have taken : Keeps s { t with atoms := t.atoms.eraseIdx k } := kept
      have taken : Keeps s ({ t with atoms := t.atoms.eraseIdx k }.useBank a.place) := useBank taken a.place
      exact .ite ((taken.takeTrap a.hart false 7 _ _ _).noteDest _ _ _) ((taken.atomicAt _ a.place a.bytes a.op _).endAtomic a _ _)

theorem arriveRa (k : Nat) : OptKeeps s (t.arriveRa k) := by
  unfold State.arriveRa
  split
  · trivial
  · next m _ =>
    refine .ite trivial ?_
    have taken : Keeps s { t with ras := t.ras.eraseIdx k } := kept
    have taken : Keeps s ({ t with ras := t.ras.eraseIdx k }.useBank (.aspace m.core m.off)) := useBank taken _
    dsimp only
    split
    · exact taken
    · exact taken

/-! ## Fences and bindings (R173 to R175) -/

theorem acquire (h : Nat) (sc : Scope) : Keeps s (t.acquire h sc) := .ite kept kept
theorem effFenceAcq (sc : Scope) : ResKeeps s (effFenceAcq sc t) := modHart (kept.acquire t.cur sc) _ _
theorem effFenceRel (sc : Scope) : ResKeeps s (effFenceRel sc t) := .ite kept kept
theorem effFenceFull (sc : Scope) : ResKeeps s (effFenceFull sc t) := .ite (modHart (kept.acquire t.cur sc) _ _) kept
theorem effVdrain (k : DrainKind) : ResKeeps s (effVdrain k t) := .ite kept kept
theorem effAcquire (sc : Scope) (a : Reg) : ResKeeps s (effAcquire sc a t) := .ite kept kept
theorem effRelease (sc : Scope) (a : Reg) : ResKeeps s (effRelease sc a t) := .ite kept kept

theorem effBindr (d a b c : Reg) : ResKeeps s (effBindr d a b c t) := by
  unfold Machine.effBindr
  refine .ite kept (.ite kept (.ite kept (.ite kept ?_)))
  split
  · exact kept
  · exact kept

/-! ## Waits and timeouts (R148, R176) -/

theorem stallFor (timeout : BitVec 24) : ResKeeps s (t.stallFor timeout) := by
  unfold State.stallFor
  split
  · exact kept
  · exact kept

theorem effTlwait (d tl b : Reg) (timeout : BitVec 24) : ResKeeps s (effTlwait d tl b timeout t) :=
  .ite kept (.ite kept (.ite kept (kept.stallFor timeout)))

theorem effWaita (cond : WaitCond) (inA : Bool) (d a b : Reg) (timeout : BitVec 24) :
    ResKeeps s (effWaita cond inA d a b timeout t) := by
  unfold Machine.effWaita
  refine .ite kept ?_
  dsimp only
  have located := kept.locate t.cur (if inA then .a else .g) .load (t.me.rd a) 8
  split
  · next e => exact located.fst_of e
  · next u pa m e =>
    have at_ := located.fst_of e
    refine .ite at_ ?_
    have word := at_.waitaWord u.cur (.g pa m)
    split
    · next e => exact word.ld_of e
    · next e => exact stallFor (word.ld_of e) timeout
    · next e => exact stallFor (word.ld_of e) timeout
    · next v bs e =>
      have read : Keeps s v := word.ld_of e
      exact .ite read (.ite read (read.stallFor timeout))
  · next u p _ e =>
    have at_ := located.fst_of e
    have word := at_.waitaWord u.cur p
    split
    · next v bs e =>
      have read : Keeps s v := word.ld_of e
      exact .ite read (.ite read (read.stallFor timeout))
    · exact at_

/-! ## CFLUSH and CINVAL (R188) -/

theorem cleanLine (c line : Nat) : Keeps s (t.cleanLine c line) := kept.home (t.cleanLine_frame c line)

theorem lineOp (c line : Nat) (op : LineOp) : Keeps s (t.lineOp c line op) := by
  unfold State.lineOp
  split
  · exact kept.cleanLine c line
  · exact modCore (kept.cleanLine c line) c _
  · exact kept

theorem locateG (h : Nat) (acc : Acc) (va : Word) (n : Nat) : Keeps s (t.locateG h acc va n).1 :=
  kept.tr (t.locateG_frame h acc va n)

theorem linesFrom (op : LineOp) (va : Word) (n : Nat) : ResKeeps s (t.linesFrom op va n) := by
  induction n generalizing t va with
  | zero => exact kept
  | succ n ih =>
    unfold State.linesFrom
    have located := kept.locateG t.cur .load va 64
    split
    · next e => exact located.fst_of e
    · next u pa _ e => exact ih ((located.fst_of e).lineOp (coreOf u.cur) (pa / 64) op) (va + 64)
    · next e => exact located.fst_of e

theorem linesDone (va : Word) (n : Nat) : ResKeeps s (t.linesDone va n) := .ite kept kept

theorem effLines (op : LineOp) (a b : Reg) : ResKeeps s (effLines op a b t) := by
  unfold Machine.effLines
  refine .ite kept (.ite kept (.ite kept (.ite kept (.ite (kept.linesDone _ _) ?_))))
  have lines := kept.linesFrom op (t.me.rd a) ((t.me.rd b).toNat / 64)
  split
  · next e => exact linesDone (lines.of e) _ _
  · exact lines

/-! ## Branches (R308) -/

theorem effBranch (taken : Bool) (target : Word) : ResKeeps s (effBranch taken target t) := .ite kept kept
theorem effJump (link : Reg) (len : Nat) (target : Word) : ResKeeps s (effJump link len target t) := .ite kept kept

/-! ## Task instructions (R82 to R88, R91, R94) -/

theorem readRec (va : Word) (out : Bool) : RecKeeps s (t.readRec va out) := by
  unfold State.readRec
  have located := kept.locateG t.cur .load va 64
  split
  · next e => exact located.fst_of e
  · next u pa m e =>
    have at_ := located.fst_of e
    exact .ite at_ (.ite at_ (.ite (at_.askHome (go := .stall) at_) (.ite at_ (at_.lookAt pa 64))))
  · next e => exact located.fst_of e

theorem pushing (r : TaskRec) {k : State → Res} (goes : ∀ u, Keeps s u → ResKeeps s (k u)) : ResKeeps s (t.pushing r k) := by
  unfold State.pushing
  refine .ite (goes t kept) ?_
  have found := kept.tr (t.translate_frame (t.ctx t.cur) .store r.launch)
  split
  · next e => exact goes _ (found.fst_of e)
  · next e => exact found.fst_of e

theorem checkRec (x : Ctx) (r : TaskRec) (part : Nat) : Keeps s (t.checkRec x r part).1 := kept.tr (t.checkRec_frame x r part)
theorem countPush (r : TaskRec) (k : Nat) : Keeps s (t.countPush r k) := kept.tr (t.countPush_frame r k)

theorem effSpawn (d a : Reg) : ResKeeps s (effSpawn d a t) := by
  unfold Machine.effSpawn
  refine .ite kept (.ite kept ?_)
  have read := kept.readRec (t.me.rd a) true
  split
  · next e => exact read.of e
  · next u r e =>
    have at_ : Keeps s u := read.of e
    have checked := at_.checkRec (u.ctx u.cur) r (t.partOf t.cur)
    split
    · next e => exact result (checked.fst_of e) d 2
    · next e => exact result (checked.fst_of e) d 3
    · next e =>
      have checked := checked.fst_of e
      exact .ite checked (checked.pushing r fun u kept => result ((kept.countPush r 1).push _ _ _) d 0)

theorem effJoin (d a b : Reg) : ResKeeps s (effJoin d a b t) := by
  unfold Machine.effJoin
  refine .ite kept (.ite kept (.ite kept ?_))
  dsimp only
  have counter := kept.locateG t.cur .store (t.me.rd a) 8
  split
  · next e => exact counter.fst_of e
  · next u pa _ e =>
    have at_ := counter.fst_of e
    refine .ite at_ ?_
    have located := at_.locateG u.cur .load (t.me.rd b) 64
    split
    · next e => exact located.fst_of e
    · next v ra m e =>
      have at_ := located.fst_of e
      have dec (w : State) (kept : Keeps s w) : Keeps s (w.joinStep pa) := kept.home (w.joinStep_frame pa)
      generalize leNat (v.homeBytes pa 8) = old
      refine .ite at_ (.ite at_ (.ite at_ (.ite at_ (.ite (result (dec v at_) d 0) (.ite at_ ?_)))))
      have checked := (at_.lookAt ra 64).checkRec ((v.lookAt ra 64).ctx (v.lookAt ra 64).cur)
        (TaskRec.ofBytes ((v.lookAt ra 64).modeBytes m ra 64)) (t.partOf t.cur)
      split
      · next e =>
        have checked := checked.fst_of e
        exact .ite checked (checked.pushing _ fun u kept => result (((dec u kept).countPush _ 1).push _ _ _) d 1)
      · next e => exact result (checked.fst_of e) d 3
    · next e => exact located.fst_of e
  · next e => exact counter.fst_of e

theorem namedLevel (va : Word) : SumKeeps s (t.namedLevel va) := by
  unfold State.namedLevel
  refine .ite kept ?_
  have located := kept.locateG t.cur .store va 64
  split
  · next e => exact located.fst_of e
  · next u pa m e =>
    have at_ := located.fst_of e
    exact .ite at_ (.ite at_ (at_.lookAt pa 64))
  · next e => exact located.fst_of e

theorem effJoinLvl (d a : Reg) : ResKeeps s (effJoinLvl d a t) := by
  unfold Machine.effJoinLvl
  refine .ite kept ?_
  dsimp only
  have first := kept.namedLevel (t.me.rd a)
  split
  · next e => exact first.of e
  · next u _ e =>
    have at_ : Keeps s u := first.of e
    refine .ite at_ ?_
    have second := at_.namedLevel (t.me.rd a)
    split
    · next e => exact second.of e
    · next v l e =>
      have at_ : Keeps s v := second.of e
      have stamped := at_.tr (v.stampNamed_frame l (t.partOf t.cur))
      exact .ite (result (stamped.levelDec _ false _ levelFuel _) d _) stamped

theorem effTcancel (k : LevelKind) (d a : Reg) : ResKeeps s (effTcancel k d a t) := by
  unfold Machine.effTcancel
  refine .ite kept ?_
  dsimp only
  have named := kept.namedLevel (t.me.rd a)
  split
  · next e => exact named.of e
  · next u l e =>
    have at_ : Keeps s u := named.of e
    have stamped := at_.tr (u.stampNamed_frame l (t.partOf t.cur))
    exact .ite stamped (.ite (result (happen (stamped.tr (State.cancelLevel_frame _ l _ _ 2 none))) d 0) stamped)

theorem effGang (d a b : Reg) : ResKeeps s (effGang d a b t) := by
  unfold Machine.effGang
  refine .ite kept (.ite kept ?_)
  dsimp only
  have read := kept.readRec (t.me.rd a) false
  split
  · next e => exact read.of e
  · next u r e =>
    have at_ : Keeps s u := read.of e
    refine .ite at_ ?_
    have checked := at_.checkRec (u.ctx u.cur) r (t.partOf t.cur)
    split
    · next e => exact result (checked.fst_of e) d 2
    · next e => exact result (checked.fst_of e) d 3
    · next e =>
      have checked := checked.fst_of e
      refine .ite checked (checked.pushing r fun u kept => ?_)
      have pushed := (kept.countPush r (popcount (BitVec.ofNat 4 (field (t.me.rd b) 0 4)))).home
        (State.pushGang_frame _ (t.partOf t.cur) r (t.me.rd a) u.ids (BitVec.ofNat 4 (field (t.me.rd b) 0 4)))
      exact pushed

theorem effTend : ResKeeps s (effTend t) := .ite kept (.ite kept (.ite kept (kept.endTask _ .tend)))

/-! ## The scheduler's steps (R78 to R98) -/

theorem takeAt (d part lv i : Nat) : Keeps s (t.takeAt d part lv i) := kept.home (t.takeAt_frame d part lv i)

theorem pop (h : Nat) : OptKeeps s (t.pop h) := by
  unfold State.pop
  refine .ite trivial ?_
  split
  · trivial
  · next lv _ =>
    refine .ite trivial ?_
    split
    · trivial
    · next q _ => exact startOn (modDie (kept.takeAt (dieOf h) (t.partOf h) lv 0) (dieOf h) _) h q lv

theorem age (d part lv : Nat) : OptKeeps s (t.age d part lv) := by
  unfold State.age
  split
  · trivial
  · next i _ =>
    split
    · trivial
    · exact pushAt (takeAt (kept.home (t.lookRing_frame _ i)) d part lv i) d part (lv + 1) _

theorem failGang (d : Nat) (g : Gang) : Keeps s (t.failGang d g) := by
  unfold State.failGang
  have read := kept.tr (t.levelAt_frame (t.partCtx g.part) .store g.launch)
  dsimp only
  split
  · next e => exact read.fst_of e
  · next u l e =>
    have put := (read.fst_of e).tr (u.levelPut_frame l 12 1 (g.mask &&& ~~~g.acked).toNat)
    refine .ite put ?_
    have cancelled := put.tr (State.cancelLevel_frame _ l g.launch g.part 3 (some (u.levelPut l 12 1 (g.mask &&& ~~~g.acked).toNat).ids))
    generalize State.cancelLevel _ l g.launch g.part 3 _ = v at cancelled
    have numbered (k : Nat) : Keeps s { v with ids := k } := cancelled
    exact Keeps.ite (numbered _) ((numbered _).tr (State.pushHandler_frame _ _ d g.part g.launch g.handle 0 l))

theorem gangTimeout (d k : Nat) : OptKeeps s (t.gangTimeout d k) := by
  unfold State.gangTimeout
  split
  · trivial
  · next g _ => exact OptKeeps.ite trivial (Keeps.ite (kept.modDie d _) (failGang (kept.modDie d _) d g))

theorem cancelHart (c : Cancel) (h : Nat) : Keeps s (t.cancelHart c h) := by
  unfold State.cancelHart
  split
  · exact kept
  · next k _ =>
    refine .ite kept ?_
    have read := kept.chainHolds (t.partCtx (t.partOf h)) k.rc.launch c.handle (c.spares k)
    split
    · next e => exact modHart (read.fst_of e) h _
    · next e => exact read.fst_of e

theorem cancelBroadcast (d : Nat) : OptKeeps s (t.cancelBroadcast d) := by
  unfold State.cancelBroadcast
  split
  · trivial
  · next c _ _ => exact fold (fun _ k kept => kept.cancelHart c (256 * d + k)) _ (kept.modDie d _)

theorem pushHeld (d : Nat) (donecont : Bool) : OptKeeps s (t.pushHeld d donecont) := by
  unfold State.pushHeld
  split
  · trivial
  · split
    · trivial
    · next p _ => exact pushOrHold (kept.modDie d _) d p

theorem grant (c : Nat) : OptKeeps s (t.grant c) := by
  unfold State.grant
  split
  · trivial
  · exact .ite trivial kept

/-! ## A core's cycle and its counters (R60, R157) -/

theorem serveBanks (c : Nat) : Keeps s (t.serveBanks c) :=
  .ite (fold (f := fun u h => if (t.core c).laneHarts.getLsbD (localHart h) then u else u.modHart h Hart.serveBank)
    (fun _ _ kept => Keeps.ite kept kept) _ kept) kept

theorem endCycle (c : Nat) : Keeps s (t.endCycle c) := modCore (serveBanks ((kept.delayGroups c).runGroups c) c) c _
theorem snapLcr (h : Nat) : Keeps s (t.snapLcr h).2 :=
  modHart (modCore ((kept.delayGroups (coreOf h)).runGroups (coreOf h)) _ _) h _

/-! ## Configuration and control registers (R54 to R59) -/

theorem effSetmt (n : Nat) : ResKeeps s (effSetmt n t) := .ite kept (.ite kept kept)
theorem effSetnv (n : Nat) : ResKeeps s (effSetnv n t) := .ite kept (.ite kept (.ite kept kept))
theorem effSetsb (v : Word) : ResKeeps s (effSetsb v t) := .ite kept kept
theorem effSetseed (v : Word) : ResKeeps s (effSetseed v t) := .ite kept kept

theorem effSetvl (d a : Reg) (width : Nat) : ResKeeps s (effSetvl d a width t) :=
  .ite kept (.ite kept (.ite (.ite kept (.ite kept (.ite kept (modHart (kept.releaseLease _) _ _))))
    (.ite kept (.ite kept (.ite kept (.ite kept kept))))))

theorem effAsidsw (d : Reg) (v : Word) : ResKeeps s (effAsidsw d v t) := .ite kept (.ite kept kept)

theorem effCsrr (d : Reg) (n : BitVec 12) : ResKeeps s (effCsrr d n t) := by
  unfold Machine.effCsrr
  split
  · exact kept
  · exact .ite kept (.ite kept (.ite (result (kept.snapLcr t.cur) d _) kept))

theorem csrPut (h : Nat) (r : Csr) (v : Word) : Keeps s (t.csrPut h r v) := by
  unfold State.csrPut
  split <;> exact kept

theorem effCsrw (n : BitVec 12) (a : Reg) : ResKeeps s (effCsrw n a t) := by
  unfold Machine.effCsrw
  split
  · exact kept
  · next r _ =>
    refine .ite kept (.ite kept ?_)
    have put (r : Csr) := kept.csrPut t.cur r (t.me.rd a)
    split
    · exact kept.effSetmt _
    · exact kept.effSetnv _
    · exact kept.effSetsb _
    · exact kept.effSetseed _
    · exact kept.effAsidsw 0 _
    · exact .ite kept (put _)
    · exact .ite kept (put _)
    · exact .ite kept (put _)
    · exact .ite (put _) kept
    · exact put _

end

end Keeps

end Sys2Proof.Machine

/-! SUPPORT for MemoryStaysCanonical: the canonical form of memory and the issuing hart through copies, collectives and the matrix
array. -/

namespace Sys2Proof.Machine

namespace Keeps

section
variable {s t : State} (kept : Keeps s t)
include kept

/-! ## Copies (R143, R144, R384) -/

theorem lateFault (h part : Nat) (k : Option Task) (f : BoundaryFault) : Keeps s (t.lateFault h part k f) := by
  unfold State.lateFault
  refine .ite kept ?_
  split
  · exact kept
  · exact .ite kept (kept.faultHandler _ _ _ _ _ _)

theorem enqueueCopy (src dst ch : Nat) (daddr saddr : Word) (z : CopyShape) (flag val : Word) :
    ResKeeps s (t.enqueueCopy src dst ch daddr saddr z flag val) := .ite kept kept

theorem effCopy (src dst ch : Nat) (d a c : Reg) (z : CopyShape) : ResKeeps s (effCopy src dst ch d a c z t) := by
  unfold Machine.effCopy
  refine .ite kept ?_
  split
  · exact kept
  · split
    · exact kept
    · split
      · exact kept
      · have flag := kept.tr (t.flagOk_frame t.cur (t.me.rd c))
        split
        · next e => exact flag.fst_of e
        · next e => exact (flag.fst_of e).enqueueCopy _ _ _ _ _ _ _ _

theorem effCpy2d (src dst : BitVec 3) (ch : BitVec 2) (d a b c : Reg) : ResKeeps s (effCpy2d src dst ch d a b c t) :=
  .ite kept (kept.effCopy _ _ _ d a c _)

theorem translate (x : Ctx) (acc : Acc) (va : Word) : Keeps s (t.translate x acc va).1 := kept.tr (t.translate_frame x acc va)

theorem placeByte (k : CopyCmd) (code : Nat) (acc : Acc) (va : Word) : Keeps s (t.placeByte k code acc va).1 := by
  unfold State.placeByte
  split
  case h_5 =>
    have found := kept.translate k.ctx acc va
    split
    · next e => exact found.fst_of e
    · next e => exact fst_ite (found.fst_of e) (found.fst_of e)
  all_goals exact kept

theorem copyBanks (core : Nat) (p : BytePlace) (n : Nat) : Keeps s (t.copyBanks core p n) := by
  unfold State.copyBanks
  split <;> exact kept

theorem copyPut (core : Nat) (p : BytePlace) (bs : List Byte) : Keeps s (t.copyPut core p bs) := by
  unfold State.copyPut
  split
  · exact kept.homeWrite _ _ bs
  · exact kept.copyBanks core _ _
  · exact kept.copyBanks core _ _
  · exact kept

theorem gatherByte (k : CopyCmd) (p : Word × Word) : Keeps s (t.gatherByte k p).1 := by
  unfold State.gatherByte
  have source := kept.placeByte k k.src .load p.1
  dsimp only
  split
  · next e => exact source.fst_of e
  · next u q e =>
    have at_ := source.fst_of e
    split
    · exact at_
    · have dest := at_.placeByte k k.dst .store p.2
      split
      · next e => exact dest.fst_of e
      · next e => exact dest.fst_of e

theorem gather (k : CopyCmd) (l : List (Word × Word)) : Keeps s (t.gather k l).1 := by
  induction l generalizing t with
  | nil => exact kept
  | cons p l ih =>
    unfold State.gather
    have rest := ih (kept.gatherByte k p)
    dsimp only
    split <;> exact rest

theorem scatter (core : Nat) (r : Option CopyRun) (l : List Moved) : Keeps s (t.scatter core r l) := by
  induction l generalizing t r with
  | nil =>
    cases r with
    | none => exact kept
    | some r => exact kept.copyPut core r.start r.bytes
  | cons m l ih =>
    cases r with
    | none => exact ih kept _
    | some r =>
      unfold State.scatter
      exact .ite (ih kept _) (ih (kept.copyPut core r.start r.bytes) _)

theorem copySnoops (core : Nat) (k : CopyCmd) : Keeps s (t.copySnoops core k) :=
  .ite kept (fold (fun _ line kept => kept.sendSnoop line) _ kept)

theorem sourceBanks (core : Nat) (k : CopyCmd) : Keeps s (t.sourceBanks core k) := by
  unfold State.sourceBanks
  refine fold (fun u r kept => ?_) _ kept
  refine .ite kept ?_
  split
  · exact kept.copyBanks core _ _
  · exact kept.copyBanks core _ _
  · exact kept.copyBanks core _ _
  · exact kept

theorem copyTransfer (core ch : Nat) : OptKeeps s (t.copyTransfer core ch) := by
  unfold State.copyTransfer
  dsimp only
  split
  · trivial
  · split
    · trivial
    · next k _ =>
      refine .ite trivial ?_
      have gathered := kept.gather k k.addrs
      generalize t.gather k k.addrs = p at gathered ⊢
      obtain ⟨u, g⟩ := p
      have at_ : Keeps s u := gathered
      refine .ite (.ite ?_ (at_.copySnoops core k)) ?_
      · cases held : (g.moved.filterMap fun m => match m.place with
          | .g pa _ => u.noteHold pa 1
          | _ => none).head? with
        | none => trivial
        | some v =>
          obtain ⟨m, -, e⟩ := List.mem_filterMap.mp (List.mem_of_mem_head? held)
          split at e
          · exact (at_.noteHold _ 1).of_some e
          · cases e
      · split
        · exact modCore (sourceBanks (at_.scatter core none g.moved) core k) core _
        · exact OptKeeps.ite (at_ : Keeps s { u with fresh := u.fresh + 1 }) (at_.scatter core none (chosen u.fresh g.moved))

theorem copyFault (k : CopyCmd) (va : Word) : Keeps s (t.copyFault k va) := kept.lateFault _ _ _ _

/-- What the write of a copy's flag keeps. -/
theorem writeFlag (core : Nat) (k : CopyCmd) {wait : State → State} (waits : ∀ u, Keeps s u → Keeps s (wait u)) {u : State}
    {done : Bool} (writes : t.writeFlag core k wait = some (u, done)) : Keeps s u := by
  unfold State.writeFlag at writes
  split at writes
  · cases writes
    exact kept
  · have found := kept.translate k.ctx .store k.flag
    split at writes
    · next e =>
      have at_ := found.fst_of e
      split at writes
      · cases writes
        exact waits _ at_
      · cases writes
        exact at_.copyFault k k.flag
    · next v pa m e =>
      have at_ := found.fst_of e
      split at writes
      · cases writes
        exact at_.copyFault k k.flag
      split at writes
      · obtain ⟨w, holds, e⟩ := Option.map_eq_some_iff.mp writes
        cases e
        exact (at_.noteHold pa 8).of_some holds
      split at writes
      · split at writes
        · cases writes
        · cases writes
          exact at_.sendSnoop (pa / 64)
      split at writes
      · cases writes
      · cases writes
        exact at_.homeWrite _ pa _

theorem copyFlag (core ch : Nat) : OptKeeps s (t.copyFlag core ch) := by
  unfold State.copyFlag
  split
  · trivial
  · next k rest _ =>
    refine .ite trivial ?_
    have waits (u : State) (kept : Keeps s u) :
        Keeps s (u.modCore core fun c => c.setChan ch (k.waitFault t.gtime :: rest)) := kept
    split
    · trivial
    · next e => exact kept.writeFlag core k waits e
    · next u e =>
      have at_ := kept.writeFlag core k waits e
      dsimp only
      split
      · exact at_.copyFault k _
      · exact at_

/-! ## Collectives (R376 to R378) -/

theorem effXred (op : XOp) (ty : XTy) (d : Reg) (tag : BitVec 4) : ResKeeps s (effXred op ty d tag t) :=
  .ite kept (.ite kept (.ite kept (.ite (.ite kept kept) kept)))

theorem startXred (h : Nat) (e : VEntry) (op : XOp) (ty : XTy) (d : Reg) (tag : BitVec 4) :
    Keeps s (t.startXred h e op ty d tag) := by
  unfold State.startXred
  dsimp only
  split
  · exact kept.trapVector h e _
  · exact kept

theorem startHead (h : Nat) : OptKeeps s (t.startHead h) := by
  unfold State.startHead
  split
  · next e _ _ _ =>
    split
    · trivial
    · trivial
    · next op ty d tag _ => exact .ite trivial (happen (kept.startXred h e op ty d tag))
    · exact kept.startVector h
  · trivial

theorem endOne (d k : Nat) (ok : Bool) (parts : List (List Byte)) : Keeps s (t.endOne d k ok parts) := by
  unfold State.endOne
  split
  · exact .ite (kept.endCollective d _ _ false) (kept.endCollective d _ [] true)
  · exact kept

theorem collective (d k : Nat) (contrib : List (List Byte)) : OptKeeps s (t.collective d k contrib) := by
  unfold State.collective
  split
  · trivial
  · exact .ite trivial (fold (fun _ e kept => kept.endOne e k _ _) _ kept)

theorem collectiveTimeout (d k : Nat) : OptKeeps s (t.collectiveTimeout d k) := by
  unfold State.collectiveTimeout
  split
  · trivial
  · next c _ => exact .ite (kept.endCollective d c [] true) trivial

/-! ## The millpond and the array (R204 to R217) -/

theorem effWset (fmt : BitVec 4) (d a : Reg) : ResKeeps s (effWset fmt d a t) :=
  .ite kept (.ite kept (.ite kept (.ite kept kept)))
theorem effMrow (f : AFmt) (z : Bool) (d a b c : Reg) : ResKeeps s (effMrow f z d a b c t) := .ite kept kept
theorem effMrowv (f : AFmt) (d a b c : Reg) (tag : BitVec 4) : ResKeeps s (effMrowv f d a b c tag t) :=
  .ite kept (.ite (.ite kept kept) kept)

theorem placeRow (c part : Nat) (r : Row) : OptKeeps s (t.placeRow c part r) := by
  unfold State.placeRow
  refine .ite trivial ?_
  split
  · split
    · exact kept
    · trivial
  · split
    · trivial
    · exact kept

theorem pressure (c : Nat) : OptKeeps s (t.pressure c) := by
  unfold State.pressure
  dsimp only
  refine .ite trivial ?_
  split
  · trivial
  · split
    · exact kept
    · trivial

theorem retireVector (h : Nat) (ru : VRun) : Keeps s (t.retireVector h ru) := kept

theorem rowCapture (h : Nat) : OptKeeps s (t.rowCapture h) := by
  unfold State.rowCapture
  dsimp only
  split
  · next e _ _ _ =>
    split
    · trivial
    · next o _ =>
      refine .ite trivial (.ite (kept.trapVector h e _) ?_)
      split
      · exact kept.trapVector h e _
      · have popped := kept.popAll h (vsrcs e.instr (t.hart h).vl (t.hart h).vew) { (t.hart h).newRun e with lo := 0 }
        split
        · next found => exact popped.of found
        · next u ru found =>
          have at_ : Keeps s u := popped.of found
          split
          · exact at_.trapVector h e _
          · split
            · next placed => exact retireVector ((at_.placeRow _ _ _).of_some placed) h ru
            · exact at_.pressure _
  · trivial

theorem onGroup (c i : Nat) (p : PondGroup → Bool) (f : PondGroup → PondGroup) : OptKeeps s (t.onGroup c i p f) := by
  unfold State.onGroup
  split
  · exact .ite kept trivial
  · trivial

theorem effMkick (a : Reg) : ResKeeps s (effMkick a t) := .ite kept (.ite kept kept)
theorem effMkickAll : ResKeeps s (effMkickAll t) := .ite kept kept

theorem tileLoad (c : Nat) : OptKeeps s (t.tileLoad c) := by
  unfold State.tileLoad
  dsimp only
  split
  · trivial
  · exact .ite trivial kept

theorem takeUp (c : Nat) : OptKeeps s (t.takeUp c) := by
  unfold State.takeUp
  refine .ite trivial ?_
  split
  · trivial
  · exact .ite kept (.ite kept trivial)

theorem rowEnter (c : Nat) : OptKeeps s (t.rowEnter c) := by
  unfold State.rowEnter
  dsimp only
  split
  · split
    · split
      · exact .ite trivial kept
      · trivial
    · trivial
  · trivial

theorem deliverRow (c : Nat) (f : RowFlight) : Keeps s (t.deliverRow c f) := by
  unfold State.deliverRow
  dsimp only
  split
  · exact kept
  · exact kept.landed _ _ _ _ _

theorem rowDone (c : Nat) : OptKeeps s (t.rowDone c) := by
  unfold State.rowDone
  dsimp only
  split
  · trivial
  · next f rest _ =>
    refine .ite trivial ?_
    have left : Keeps s (t.setCore c { t.core c with arr := { (t.core c).arr with flight := rest.map f.feeds } }) := kept
    exact complete (left.deliverRow c f) f.row.hart 1 f.row.num

theorem latchError (c : Nat) : OptKeeps s (t.latchError c) := by
  unfold State.latchError
  dsimp only
  split
  · trivial
  · split
    · trivial
    · exact kept

theorem failRow (r : Row) : Keeps s (t.failRow r) := by
  unfold State.failRow
  refine complete ?_ r.hart 1 r.num
  split
  · exact kept.lateFault _ _ _ _
  · split
    · exact .ite (kept.landed _ _ _ _ _) ((kept.landed _ _ _ _ _).lateFault _ _ _ _)
    · exact kept.lateFault _ _ _ _

theorem rowError (c k : Nat) (wspace : Bool) : OptKeeps s (t.rowError c k wspace) := by
  unfold State.rowError
  exact OptKeeps.ite trivial (fold (fun _ r kept => kept.failRow r) _ (kept.modCore c _))

end

end Keeps

end Sys2Proof.Machine

/-! SUPPORT for MemoryStaysCanonical: the canonical form of memory and the issuing hart through packs and marked loops. -/

namespace Sys2Proof.Machine

/-- What an iteration of a slot keeps. -/
def IterKeeps (s : State) : IterRes → Prop
  | .ok t _ => Keeps s t
  | .depart t _ => Keeps s t
  | .wait _ => True

theorem IterKeeps.ite {s : State} {p : Prop} [Decidable p] {a b : IterRes} (left : IterKeeps s a) (right : IterKeeps s b) :
    IterKeeps s (if p then a else b) := by
  split <;> assumption

theorem IterKeeps.of {s : State} {r u : IterRes} (kept : IterKeeps s r) (e : r = u) : IterKeeps s u := by
  rw [e] at kept
  exact kept

namespace Keeps

section
variable {s t : State} (kept : Keeps s t)
include kept

/-! ## Packs (R236 to R253) -/

theorem askHome_of {go : State → Res} (goes : ∀ u, Keeps s u → ResKeeps s (go u)) : ResKeeps s (t.askHome go) :=
  kept.askHome (goes t kept)

theorem effPkalloc (d a b : Reg) (life : BitVec 24) : ResKeeps s (effPkalloc d a b life t) := by
  unfold Machine.effPkalloc
  refine .ite kept (.ite kept ?_)
  have found := kept.translate (t.ctx t.cur) .store (t.me.rd a)
  split
  · next e => exact found.fst_of e
  · next u pa _ e =>
    refine (found.fst_of e).askHome_of fun v kept => .ite kept (.ite kept (.ite kept ?_))
    exact kept.agentWrite none pa _

theorem effPkenter (d a b : Reg) : ResKeeps s (effPkenter d a b t) := by
  unfold Machine.effPkenter
  refine .ite kept (.ite kept (.ite kept (kept.askHome_of fun u kept => ?_)))
  have acquired : Keeps s (u.acquireFor t.cur) := kept
  dsimp only
  generalize u.acquireFor t.cur = v at acquired ⊢
  split
  · exact acquired
  · exact .ite acquired (.ite acquired (modHart (acquired.setPack _) _ _))

theorem effPkcommit (d : Reg) : ResKeeps s (effPkcommit d t) := by
  unfold Machine.effPkcommit
  split
  · exact kept
  · next m _ =>
    refine .ite kept (.ite (.ite kept kept) (.ite ?_ kept))
    exact (modHart (kept.acquireFor t.cur) t.cur _).packLeave m.obj t.cur

theorem effPkabort (code : BitVec 24) : ResKeeps s (effPkabort code t) := by
  unfold Machine.effPkabort
  split
  · exact kept
  · exact kept.abortPack _ _

theorem effPkstat (code : Bool) (d a : Reg) : ResKeeps s (effPkstat code d a t) := by
  refine kept.askHome_of fun u kept => ?_
  split
  · exact kept
  · exact kept

theorem effPkfree (d a : Reg) : ResKeeps s (effPkfree d a t) := by
  unfold Machine.effPkfree
  refine .ite kept (.ite ?_ (kept.askHome_of fun u kept => ?_))
  · split
    · exact kept
    · exact .ite kept kept
  · dsimp only
    split
    · exact kept
    · next p _ =>
      have waits : Keeps s (u.waitFree p) := kept
      exact .ite (result (kept.dropPack p) d 0) (modHart (waits.abortPack p.pa 8) _ _)

theorem commitBytes (p : Pack) : Keeps s (t.commitBytes p) := kept.home (t.commitBytes_frame p)

theorem countArrival (h : Nat) : OptKeeps s (t.countArrival h) := by
  unfold State.countArrival
  split
  · trivial
  · next m _ =>
    refine .ite trivial ?_
    split
    · trivial
    · refine .ite trivial (.ite (kept.abortPack m.obj 6) (.ite trivial ?_))
      split
      · exact .ite trivial (happen (kept.sendSnoop _))
      · have counted : Keeps s (t.modHart h fun x => x.setCount 2) := kept
        exact Keeps.ite (commitBytes (counted.setPack _) _) (counted.setPack _)

theorem packFlip (obj : Nat) : OptKeeps s (t.packFlip obj) := by
  unfold State.packFlip
  split
  · trivial
  · next p _ =>
    refine .ite trivial ?_
    have counted : Keeps s (p.members.foldl (fun (t : State) h => t.modHart h fun x => x.setCount 3) t) :=
      fold (fun _ h kept => kept.modHart h _) _ kept
    generalize p.members.foldl (fun (t : State) h => t.modHart h fun x => x.setCount 3) t = u at counted ⊢
    have flipped : Keeps s { u with packs := u.packs.map fun (q : Pack) =>
        if q.pa == obj then { q with tent := [], reads := [] } else q } := counted
    exact flipped.cleanHolds

theorem packAbort (obj code : Nat) : OptKeeps s (t.packAbort obj code) := by
  unfold State.packAbort
  split
  · trivial
  · exact .ite trivial (.ite (kept.abortPack obj _) trivial)

theorem memberRestore (h : Nat) : OptKeeps s (t.memberRestore h) := by
  unfold State.memberRestore
  dsimp only
  split
  · trivial
  · next m _ =>
    refine .ite trivial ?_
    have restored : Keeps s ((t.leaveWaits h).setHart h { (t.hart h).stopLoad.restoreCkpt m with progress := t.gtime }) := kept
    exact restored.packLeave m.obj h

theorem tentArrival (h : Nat) : OptKeeps s (t.tentArrival h) := by
  unfold State.tentArrival
  dsimp only
  split
  · next w rest m _ _ =>
    refine .ite kept (.ite trivial (.ite (.ite trivial (kept.sendSnoop _)) ?_))
    have put := kept.memberAccess m.obj w.pa w.data.length (some fun _ => w.data)
    split
    · next e => exact modHart (put.acc_of e) h _
    · next e => exact modHart (put.acc_of e) h _
  · trivial

theorem holdExpiry (k : Nat) : OptKeeps s (t.holdExpiry k) := by
  unfold State.holdExpiry
  split
  · exact .ite trivial (fold (fun _ (p : Pack) kept => kept.abortPack p.pa 2) _ kept)
  · trivial

/-! ## Marked loops (R219 to R231) -/

theorem checkLoop (a : Reg) (len : Nat) : Keeps s (t.checkLoop a len).1 := by
  unfold State.checkLoop
  refine fst_ite kept ?_
  have fetched := kept.tr (t.fetchWord_frame t.cur (t.me.pc + BitVec.ofNat 64 (8 * (len + 1))))
  dsimp only
  split
  · next e => exact fetched.fst_of e
  · next e =>
    have at_ := fetched.fst_of e
    split
    · exact fst_ite at_ at_
    · exact at_

theorem startLoop (m : Mark) : ResKeeps s (t.startLoop m) := .ite kept kept

theorem effLoopmarkWait (a : Reg) (len : BitVec 6) : ResKeeps s (effLoopmarkWait a len t) := by
  unfold Machine.effLoopmarkWait
  have checked := kept.checkLoop a len.toNat
  split
  · next e => exact checked.fst_of e
  · next e => exact startLoop (checked.fst_of e) _

theorem effLoopmarkAhead (d a b c : Reg) (len : BitVec 6) : ResKeeps s (effLoopmarkAhead d a b c len t) := by
  unfold Machine.effLoopmarkAhead
  have checked := kept.checkLoop a len.toNat
  split
  · next e => exact checked.fst_of e
  · next u e =>
    have at_ := checked.fst_of e
    refine .ite at_ ?_
    have found := at_.translate (u.ctx u.cur) .store (u.me.rd c)
    split
    · next e => exact found.fst_of e
    · next e => exact startLoop (modHart (setHart (found.fst_of e) _ _) _ _) _

theorem settleAheads (h : Nat) (is : List Instr) : Keeps s (t.settleAheads h is) := by
  unfold State.settleAheads
  exact .ite (fold (fun _ (a : AheadNum) kept => .ite (kept.complete h 2 a.num) kept) _ (kept.setHart h _)) (kept.setHart h _)

theorem startReplay (k : Nat) (x : Hart) (m : Mark) (cl : BodyClass) (its : List Iteration) :
    ResKeeps s (t.startReplay k x m cl its) := .ite kept (.ite kept kept)

theorem loopStep (x : Hart) (a : Reg) (disp : BitVec 38) : ResKeeps s (t.loopStep x a disp) := .ite kept kept

theorem effLoopbr (a : Reg) (disp : BitVec 38) : ResKeeps s (effLoopbr a disp t) := by
  unfold Machine.effLoopbr
  refine .ite kept (.ite (kept.loopStep _ a disp) (.ite (kept.loopStep _ a disp) (.ite (kept.loopStep _ a disp) ?_)))
  split
  · exact kept.loopStep _ a disp
  · split
    · exact kept.loopStep _ a disp
    · exact kept.startReplay _ _ _ _ _

/-! ## Iterations of slots (R225 to R235) -/

theorem slotLoads (h : Nat) (ru : VRun) (v : VMem) (it : Iter) (i n : Nat) : IterKeeps s (t.slotLoads h ru v it i n) := by
  induction n generalizing t it i with
  | zero => exact kept
  | succ n ih =>
    unfold State.slotLoads
    refine .ite (ih kept it (i + 1)) ?_
    have located := kept.locateElem h (ru.space v) .load (ru.addr it.x v i) v.t.bytes
    split
    · next e => exact located.fst_of e
    · next e =>
      have at_ := located.fst_of e
      split
      · trivial
      · exact at_
      · exact ih at_ _ (i + 1)

theorem slotStores (h : Nat) (ru : VRun) (v : VMem) (it : Iter) (i n : Nat) : IterKeeps s (t.slotStores h ru v it i n) := by
  induction n generalizing t it i with
  | zero => exact kept
  | succ n ih =>
    unfold State.slotStores
    have located := kept.locateElem h (ru.space v) .store (ru.addr it.x v i) v.t.bytes
    dsimp only
    split
    · next e => exact .ite (located.fst_of e) (ih kept it (i + 1))
    · next e =>
      have at_ := located.fst_of e
      exact .ite (ih kept _ (i + 1)) (.ite at_ (ih at_ _ (i + 1)))

theorem slotInstr (h : Nat) (it : Iter) (i : Instr) : IterKeeps s (t.slotInstr h it i) := by
  unfold State.slotInstr
  dsimp only
  split
  · exact .ite kept kept
  · have scalar (r : Res) (e : Machine.effScalar i (t.setHart h it.x) = some r) := effScalar (kept.setHart h it.x) i e
    split
    · exact kept
    · exact kept
    · split
      · exact .ite kept kept
      · exact .ite (slotLoads (kept.setHart h it.x) h _ _ it 0 _) kept
      · exact .ite (slotStores (kept.setHart h it.x) h _ _ it 0 _) kept
      · exact .ite kept kept

theorem slotInstrs (h : Nat) (it : Iter) (is : List Instr) : IterKeeps s (t.slotInstrs h it is) := by
  induction is generalizing t it with
  | nil => exact kept
  | cons i is ih =>
    unfold State.slotInstrs
    have one := kept.slotInstr h it i
    split
    · next e => exact ih (one.of e) _
    · exact one

/-- A package in which another hart issues, as the slot's iterations have it, and the package as before. -/
theorem restoreCur {u : State} (h : Nat) (x y : Hart) (other : Keeps { t.setHart h x with cur := h } u) :
    Keeps s ({ u with cur := t.cur }.setHart h y) := ⟨fun wf => other.wf (kept.wf wf), kept.cur⟩

theorem iterate (sl : Slot) : IterKeeps s (t.iterate sl) := by
  unfold State.iterate
  dsimp only
  split
  · exact kept
  · have ran := (Keeps.refl { t.setHart sl.hart sl.now with cur := sl.hart }).slotInstrs sl.hart
      { x := sl.now, stores := [], streams := [] } ((getAt Iteration.empty sl.mark.iters 2).words.flatMap instrsOf)
    split
    · trivial
    · next e => exact kept.restoreCur sl.hart sl.now _ (ran.of e)
    · next e =>
      have back := kept.restoreCur sl.hart sl.now (t.hart sl.hart) (ran.of e)
      exact .ite back (.ite back back)

theorem sendWait (e : SlotStore) : OptKeeps s (t.sendWait e) := by
  unfold State.sendWait
  split
  · exact .ite (kept.sendSnoop _) (kept.noteHold _ _)
  · trivial

theorem sendStore (d k : Nat) (e : SlotStore) : Keeps s (t.sendStore d k e) := by
  unfold State.sendStore
  split
  · exact kept.homeWrite _ _ _
  · exact kept
  · exact kept

theorem slotIteration (d k : Nat) : OptKeeps s (t.slotIteration d k) := by
  unfold State.slotIteration
  split
  · trivial
  · next sl _ =>
    refine .ite trivial ?_
    have ran := kept.iterate sl
    split
    · next u it e =>
      have at_ : Keeps s u := ran.of e
      split
      · exact at_.sendWait _
      · exact modDie (fold (fun _ e kept => kept.sendStore d k e) _ at_) d _
    · exact .ite (kept.sendSnoop _) trivial
    · trivial

theorem replayDone (d k : Nat) : OptKeeps s (t.replayDone d k) := by
  unfold State.replayDone
  split
  · trivial
  · exact OptKeeps.ite trivial (Keeps.ite kept kept)

theorem writeLoopRec (sl : Slot) (reason : Nat) : Keeps s (t.writeLoopRec sl reason) := by
  unfold State.writeLoopRec
  have found := kept.translate { core := sl.core, priv := sl.base.priv, satp := sl.base.satp } .store sl.mark.lrec
  split
  · next pa _ e =>
    have at_ := found.fst_of e
    exact .ite at_ (at_.agentWrite none pa _)
  · next e => exact logDiscard (found.fst_of e) _ _ _

theorem aheadHandler (sl : Slot) : Keeps s (t.aheadHandler sl) := by
  unfold State.aheadHandler
  have done (u : State) (kept : Keeps s u) : Keeps s (u.endAhead sl.hart sl.mark.num sl.now.fflags sl.base.task) := kept
  refine .ite (done t kept) ?_
  split
  · exact done t kept
  · refine .ite (done _ (kept.lateFault _ _ _ _)) ?_
    exact pushOrHold (.ite kept (kept.levelAdd _ _ 1)) _ _

theorem leaveSlot (d k : Nat) (sl : Slot) (reason : Nat) : Keeps s (t.leaveSlot d k sl reason) := by
  unfold State.leaveSlot
  have left : Keeps s ((t.modDie d fun y => y.setSlot k none).modHart sl.hart fun x => x.closeMark sl .departed reason sl.k) := kept
  exact .ite ((left.writeLoopRec sl reason).aheadHandler sl) kept

theorem departure (d k : Nat) : OptKeeps s (t.departure d k) := by
  unfold State.departure
  split
  · trivial
  · next sl _ =>
    refine .ite trivial ?_
    have ran := kept.iterate sl
    split
    · next e => exact leaveSlot (ran.of e) d k sl _
    · exact .ite (kept.leaveSlot d k sl 5) trivial
    · trivial

end

end Keeps

end Sys2Proof.Machine

/-! SUPPORT for MemoryStaysCanonical: the canonical form of memory and the issuing hart through the system's instructions, context
switches and pairs. -/

namespace Sys2Proof.Machine

/-- The package of one page of a BIASSET. -/
def PageFlip.state : PageFlip → State
  | .done t _ => t
  | .wait t => t

theorem Keeps.flip_ite {s : State} {p : Prop} [Decidable p] {a b : PageFlip} (left : Keeps s a.state) (right : Keeps s b.state) :
    Keeps s (if p then a else b).state := by
  split <;> assumption

/-- The package of a page that a match has named. -/
theorem Keeps.flip_of {s : State} {r u : PageFlip} (kept : Keeps s r.state) (e : r = u) : Keeps s u.state := by
  rw [e] at kept
  exact kept

namespace Keeps

section
variable {s t : State} (kept : Keeps s t)
include kept

/-! ## ERET (R262, R263) -/

theorem stopHeld (h : Nat) : Keeps s (t.stopHeld h).1 := by
  unfold State.stopHeld
  dsimp only
  split
  · exact kept
  · exact fst_ite kept (fst_ite (kept.chainCancelled _ _ _) kept)

theorem returnMember (h : Nat) (m : Member) : ResKeeps s (t.returnMember h m) := by
  unfold State.returnMember
  exact ResKeeps.ite (packLeave (kept.setHart h _) m.obj h) kept

theorem returnSup (h : Nat) : ResKeeps s (t.returnSup h) := by
  unfold State.returnSup
  dsimp only
  split
  · exact .ite kept (.ite (kept.returnMember h _) kept)
  · exact kept

theorem effEret : ResKeeps s (effEret t) := by
  unfold Machine.effEret
  refine .ite kept (.ite (kept.returnSup _) (.ite kept ?_))
  have held := kept.stopHeld t.cur
  split
  · next e => exact (held.fst_of e).endTask t.cur .cancel
  · next e =>
    have at_ := held.fst_of e
    split
    · exact at_.returnMember t.cur _
    · exact at_

theorem effEretKill (a : Reg) : ResKeeps s (effEretKill a t) := by
  unfold Machine.effEretKill
  dsimp only
  split
  · exact kept
  · refine .ite kept ?_
    have found := kept.translate (t.ctx t.cur) .store (t.me.rd a)
    split
    · next e => exact found.fst_of e
    · next pa _ e =>
      have at_ := found.fst_of e
      exact .ite at_ ((at_.agentWrite none pa _).endTask t.cur _)

/-! ## TLBINV (R196) -/

theorem effTlbinvVa (d a b c : Reg) : ResKeeps s (effTlbinvVa d a b c t) := .ite kept (.ite kept (.ite kept kept))
theorem effTlbinvAsid (d c : Reg) : ResKeeps s (effTlbinvAsid d c t) := .ite kept kept
theorem effTlbinvWait (d b : Reg) : ResKeeps s (effTlbinvWait d b t) := .ite kept (.ite kept kept)

theorem completeInval (d : Nat) : OptKeeps s (t.completeInval d) := by
  unfold State.completeInval
  split
  · trivial
  · exact .ite trivial kept

/-! ## BIASSET and POISONCLR (R200, R278, R279) -/

theorem unblocks (pa n : Nat) (write : Bool) : OptKeeps s (t.unblocks pa n write) := by
  unfold State.unblocks
  split
  · exact kept.sendSnoop _
  · exact .ite (kept.noteHold pa n) trivial

theorem unblock (pa n : Nat) : Keeps s (t.unblock pa n) := getD (kept.unblocks pa n true) kept

theorem flushPage (pa : Nat) : Keeps s (t.flushPage pa) := by
  unfold State.flushPage
  extract_lets inside recalled cleaned
  have cleaned_ : Keeps s cleaned :=
    fold (fun _ c kept => fold (fun _ (l : ULine) kept => modCore (kept.cleanLine c l.line) c _) _ kept) _ (kept.recallRange pa 4096)
  clear_value cleaned
  exact cleaned_

theorem flipHost (pa : Nat) : Keeps s (t.flipHost pa).state := by
  unfold State.flipHost
  refine flip_ite kept (flip_ite (kept.unblock pa 4096) ?_)
  have flushed := kept.flushPage pa
  generalize t.flushPage pa = u at flushed ⊢
  exact flushed

theorem flipDev (pa : Nat) : Keeps s (t.flipDev pa).state := by
  unfold State.flipDev
  refine flip_ite kept (flip_ite (kept.unblock pa 4096) ?_)
  split
  · have flipped : Keeps s { t with
      bias := t.bias.filter (fun p => p != pa / 4096), flips := t.flips.filter (fun p => p != pa / 4096) } := kept
    exact flipped.cleanHolds
  · exact fold (f := State.sendSnoop) (fun _ l kept => kept.sendSnoop l) _ (.ite kept kept)

theorem flipPages (d : Reg) (dev : Bool) (base i k n : Nat) : ResKeeps s (t.flipPages d dev base i k n) := by
  unfold State.flipPages
  refine .ite kept ?_
  have flipped : Keeps s (if dev then t.flipDev (base + 4096 * i) else t.flipHost (base + 4096 * i)).state :=
    flip_ite (kept.flipDev _) (kept.flipHost _)
  split
  · next u j e =>
    have at_ : Keeps s u := flipped.flip_of e
    exact .ite at_ at_
  · next u e =>
    have at_ : Keeps s u := flipped.flip_of e
    exact at_

theorem effBiasset (dev : Bool) (d a b : Reg) : ResKeeps s (effBiasset dev d a b t) :=
  .ite kept (.ite kept (.ite kept (.ite kept (kept.flipPages d dev _ _ _ _))))

theorem clearPage (pa k : Nat) : Keeps s (t.clearPage pa k) := kept.agentWrite none pa _

theorem clearPages (base : Word) (len off : Nat) : ResKeeps s (t.clearPages base len off) := by
  unfold State.clearPages
  refine .ite kept ?_
  have found := kept.translate (t.ctx t.cur) .store (base + BitVec.ofNat 64 off)
  split
  · next e => exact found.fst_of e
  · next u pa _ e =>
    have at_ := found.fst_of e
    have cleared (k : Nat) : Keeps s (u.clearPage pa k) := at_.clearPage pa k
    refine .ite at_ (.ite ?_ ?_)
    · exact happen (cleared _)
    · exact modHart (happen (cleared _)) _ _

theorem effPoisonclr (a b : Reg) : ResKeeps s (effPoisonclr a b t) :=
  .ite kept (.ite kept (.ite kept (.ite kept (kept.clearPages _ _ _))))

/-! ## PMIG (R151) -/

theorem copyFrame (src dst n : Nat) : Keeps s (t.copyFrame src dst n) := (kept.lookAt src n).agentWrite none dst _

theorem mixFrame (src dst : Nat) (bs : List Byte) : Keeps s (t.mixFrame src dst bs) :=
  fold (fun _ i kept => .ite (kept.agentWrite none (dst + i) _) kept) _ kept

theorem startPass (src n pass : Nat) : ResKeeps s (t.startPass src n pass) := kept

theorem endPass (d : Reg) (src dst n pass : Nat) : ResKeeps s (t.endPass d src dst n pass) := by
  unfold State.endPass
  have gone : Keeps s { t with filters := t.filters.filter fun f => f.hart != t.cur } := kept
  exact .ite (gone.copyFrame src dst n) (.ite (gone.startPass src n _) (gone.mixFrame src dst _))

theorem effPmig (n : Nat) (d a b : Reg) : ResKeeps s (effPmig n d a b t) :=
  .ite kept (.ite kept (.ite kept (.ite kept (.ite kept (.ite (kept.startPass _ n 1) (.ite kept (kept.endPass d _ _ n _)))))))

theorem rewriteObjects (k : Hold) : Keeps s (t.rewriteObjects k) := fold (fun _ p kept => kept.setPack p) _ kept

theorem perform (p : HeldPut) : Keeps s (p.perform t) := kept.trans ((PackKeeps.refl t).perform p).keeps

theorem performAt (k : Hold) (r : HeldRef) : Keeps s (t.performAt k r) := by
  unfold State.performAt
  split
  · split
    · exact kept
    · exact home (t := { t.modCore _ _ with regs := _ }) kept (State.recordReg_frame _ _ _)
  · next i =>
    split
    · exact kept
    · next p _ =>
      have taken : Keeps s { t with heldPuts := t.heldPuts.eraseIdx i } := kept
      exact Keeps.ite (taken.perform { p with pa := k.moves p.pa }) (taken.perform { p with pa := k.moves p.pa })
  · next i =>
    split
    · exact kept
    · next a _ =>
      have moved : Keeps s { t with atoms := t.atoms.set i (a.move k) } := kept
      exact getD (moved.stepAtomic i) moved

theorem performHeld (k : Hold) (n : Nat) : Keeps s (t.performHeld k n) := by
  induction n generalizing t with
  | zero => exact kept
  | succ n ih =>
    unfold State.performHeld
    split
    · exact kept
    · exact ih (kept.performAt k _)

theorem effPmigRel (d a b : Reg) : ResKeeps s (effPmigRel d a b t) := by
  unfold Machine.effPmigRel
  refine .ite kept (.ite kept ?_)
  split
  · exact kept
  · next k _ =>
    have redirected : Keeps s ((t.performHeld k (t.regs.length + t.heldPuts.length + t.atoms.length)).redirect k) :=
      kept.performHeld k _
    exact redirected.rewriteObjects k

/-! ## CTXSAVE (R265, R266) -/

theorem poisonArea (x : Ctx) (va : Word) (offs : List Nat) : Keeps s (t.poisonArea x va offs) := by
  refine fold (fun u o kept => ?_) _ kept
  have found := kept.translate x .store (va + BitVec.ofNat 64 o)
  split
  · next v pa _ e =>
    have at_ := found.fst_of e
    exact at_
  · next e => exact found.fst_of e

theorem beginSave (h : Nat) : Keeps s (t.beginSave h) := kept

theorem leavePack (h : Nat) : Keeps s (t.leavePack h) := by
  unfold State.leavePack
  split
  · exact kept
  · exact modHart ((kept.abortPack _ 4).packLeave _ h) h _

theorem passedCommit (h : Nat) : Keeps s (t.passedCommit h) := by
  unfold State.passedCommit
  split
  · exact kept
  · split
    · exact .ite (modHart (kept.packLeave _ h) h _) kept
    · exact kept

theorem endSave (h : Nat) (k : Task) : Keeps s (t.endSave h k) := releaseLease (kept.leavePack h) h

theorem writeArea (h : Nat) (k : Task) (va : Word) (d : Reg) : ResKeeps s (t.writeArea h k va d) := by
  unfold State.writeArea
  have old := kept.tr (t.oldMap_frame h va)
  dsimp only
  split
  · next e => exact old.fst_of e
  · next u bs e =>
    have at_ := old.fst_of e
    have placed := at_.tr (u.placePieces_frame (t.ctx h) .store va
      (((u.passedCommit h).areaImage h k ((t.hart h).ctxArea == some va) (BitVec.ofNat 64 (leNat bs))).flatMap fun p =>
        pagePieces p.1 p.2))
    split
    · next e => exact placed.fst_of e
    · next v l e =>
      have at_ := placed.fst_of e
      split
      · exact at_.unblock _ _
      · have written : Keeps s (l.foldl (fun (u : State) p => (u.homeWrite none p.pa p.bytes).dropValid (coreOf h) p.pa
            p.bytes.length) (v.passedCommit h)) :=
          fold (fun _ (p : Piece) kept => modCore (kept.homeWrite none p.pa p.bytes) _ _) _ (at_.passedCommit h)
        exact result ((written.poisonArea (t.ctx h) va _).endSave h k) d 0

theorem effCtxsave (d a : Reg) : ResKeeps s (effCtxsave d a t) := by
  unfold Machine.effCtxsave
  dsimp only
  split
  · exact kept
  · next k _ =>
    have begun := (kept.beginSave t.cur).settleAheads t.cur []
    refine .ite kept (.ite kept (.ite kept (.ite begun ?_)))
    exact writeArea (begun.modHart t.cur Hart.dropStrips) t.cur k _ d

/-! ## CTXLOAD (R267, R268) -/

theorem reissue (h n : Nat) : Keeps s (t.reissue h n).1 := by
  induction n generalizing t with
  | zero => exact kept
  | succ n ih =>
    unfold State.reissue
    split
    · exact kept
    · next r rest _ =>
      split
      · next e => exact ih (modHart ((kept.placeRow (coreOf h) _ r).of_some e) h _)
      · split
        · next e => exact (kept.pressure (coreOf h)).of_some e
        · exact kept

theorem finishLoad (d : Reg) : ResKeeps s (t.finishLoad d) := by
  unfold State.finishLoad
  have placed := kept.reissue t.cur 65
  split
  · next e => exact result (placed.fst_of e) d 0
  · next e => exact modHart (placed.fst_of e) _ _

theorem unpark (a : AreaHead) : Keeps s (t.unpark a).1 := by
  unfold State.unpark
  dsimp only
  split
  · exact kept
  · exact kept

theorem loadArea (va : Word) (d : Reg) (a : AreaHead) (parts : List (List Byte × List Nat)) : ResKeeps s (t.loadArea va d a parts) := by
  unfold State.loadArea
  have unparked := kept.unpark a
  exact finishLoad (happen (modHart unparked _ _)) d

theorem awaitLease (va : Word) (d : Reg) : ResKeeps s (t.awaitLease va d) := by
  unfold State.awaitLease
  dsimp only
  split
  · exact kept
  · exact .ite (kept.loadArea va d _ _) (.ite kept kept)

theorem effCtxload (d a : Reg) : ResKeeps s (effCtxload d a t) := by
  unfold Machine.effCtxload
  refine .ite (kept.finishLoad d) (.ite (kept.awaitLease _ d) (.ite kept (.ite kept (.ite kept ?_))))
  have read := kept.tr (t.areaRead_frame (t.ctx t.cur) (t.me.rd a) 0 4096 false)
  dsimp only
  split
  · next e => exact read.fst_of e
  · next u bs ws e =>
    have at_ := read.fst_of e
    refine .ite at_ (.ite at_ ?_)
    have more := at_.tr (u.areaParts_frame (u.ctx t.cur) (t.me.rd a) (AreaHead.ofBytes bs).parts)
    split
    · next e => exact more.fst_of e
    · next e =>
      have at_ := more.fst_of e
      exact .ite (loadArea (at_.releaseLease t.cur) _ d _ _) at_

/-! ## Pairs (R43) -/

theorem effVectorHalf (i : Instr) : ResKeeps s (effVectorHalf i t) := by
  unfold Machine.effVectorHalf
  refine .ite kept ?_
  have popped := kept.popAll t.cur (vsrcs i t.me.vl t.me.vew) { t.me.newRun (t.me.entry t.sends i) with lo := 0, next := 0 }
  dsimp only
  split
  · next e => exact getD (popped.of e) kept
  · next u ru e =>
    have at_ : Keeps s u := popped.of e
    have outs := at_.addOuts t.cur ru
    generalize (ru.firstBad u.me 0 ru.vl).map _ = bad
    generalize u.addOuts t.cur ru = p at outs ⊢
    obtain ⟨v, os, fd⟩ := p
    have at_ : Keeps s v := outs
    split
    · exact at_
    · exact at_

theorem effHalf (i : Instr) : ResKeeps s (effHalf i t) := by
  unfold Machine.effHalf
  have scalar (r : Res) (e : Machine.effScalar i t = some r) := kept.effScalar i e
  generalize Machine.effScalar i t = o at scalar ⊢
  cases o with
  | some r => exact scalar r rfl
  | none =>
    cases i
    case ld => exact kept.effLoad _ _ _ _
    case st => exact kept.effStore _ _ _ _
    case brnz => exact kept.effBranch _ _
    case brz => exact kept.effBranch _ _
    case yield => exact kept
    case setvl => exact kept.effSetvl _ _ _
    all_goals exact kept.effVectorHalf _

theorem effPair (a b : Instr) : ResKeeps s (effPair a b t) := by
  unfold Machine.effPair
  refine .ite kept ?_
  have first := kept.effHalf a
  have second := kept.effHalf b
  split
  · next e e' => exact .ite (second.of e') (first.of e)
  · next e e' => exact .ite (second.of e') (first.of e)
  · next e' => exact second.of e'
  · next e' => exact second.of e'
  · next e _ _ => exact effHalf (first.of e) b
  · exact first

end

end Keeps

end Sys2Proof.Machine

/-! SUPPORT for MemoryStaysCanonical: the canonical form of memory and the issuing hart through boundaries, errors, the host port and
the passing of time. -/

namespace Sys2Proof.Machine

namespace Keeps

section
variable {s t : State} (kept : Keeps s t)
include kept

/-! ## Fetch and breakpoints (R46, R47, R158) -/

theorem fetchItem (h : Nat) : Keeps s (t.fetchItem h).1 := by
  unfold State.fetchItem
  refine fst_ite kept ?_
  have first := kept.tr (t.fetchWord_frame h (t.hart h).pc)
  split
  · next e => exact first.fst_of e
  · next u w e =>
    have at_ := first.fst_of e
    split
    · exact at_
    · exact at_
    · exact at_
    · have second := at_.tr (u.fetchWord_frame h ((t.hart h).pc + 8))
      split
      · next e => exact second.fst_of e
      · next e => exact second.fst_of e
    · exact at_

theorem fetchTrap (h cause : Nat) (stval w : Word) : Keeps s (t.fetchTrap h cause stval w) :=
  .ite (kept.takeTrap h false cause _ stval w) kept

theorem breakAt (h : Nat) (pc w : Word) (after : Bool) : Keeps s (t.breakAt h pc w after).1 := by
  unfold State.breakAt
  extract_lets ms act recs u
  have recorded : Keeps s u := .ite kept (kept.record (coreOf h) 3 (localHart h) _ pc)
  exact fst_ite (recorded.takeTrap h false 8 _ _ w) recorded

/-! ## Boundaries (R91, R256, R257) -/

theorem boundaryTrap (h : Nat) (int : Bool) (cause : Nat) (stval : Word) : Keeps s (t.boundaryTrap h int cause stval) :=
  happen (takeTrap (kept.modHart h _) h int cause _ stval _)

theorem mixPass (src dst n : Nat) : Keeps s (t.mixPass src dst n) := by
  have mixed : Keeps s ((List.range n).foldl (fun (u : State) i =>
      if Config.choice (t.fresh + i) && !u.writeHeld (dst + i) 1 then u.homeWrite none (dst + i) [t.homeByte (src + i)] else u) t) :=
    fold (fun _ i kept => .ite (kept.homeWrite none (dst + i) _) kept) _ kept
  exact mixed

theorem leavePass (h : Nat) : Keeps s (t.leavePass h) := by
  unfold State.leavePass
  dsimp only
  split
  · exact .ite kept (kept.mixPass _ _ _)
  · exact .ite kept (kept.mixPass _ _ _)
  · exact kept

theorem takeAsync (h : Nat) (c : Nat × Word) : Keeps s (t.takeAsync h c) := by
  unfold State.takeAsync
  have trapped := boundaryTrap (leavePass (kept.modHart h fun x => { x with asyncs := x.asyncs.erase c }) h) h true c.1 c.2
  dsimp only
  split
  · exact .ite (trapped.abortPack _ 4) trapped
  · exact trapped

theorem takePend (h : Nat) (f : BoundaryFault) : Keeps s (t.takePend h f) :=
  noteDest (boundaryTrap (kept.modHart h _) h false f.cause f.stval) h f.cause _

theorem breakAfter (h : Nat) : OptKeeps s (t.breakAfter h) := by
  unfold State.breakAfter
  dsimp only
  split
  · trivial
  · next a _ => exact .ite trivial (modHart (kept.breakAt h a _ true) h _)

theorem syncBoundary (h : Nat) : OptKeeps s (t.syncBoundary h) := by
  unfold State.syncBoundary
  split
  · next e => exact (kept.breakAfter h).of e
  · refine .ite (kept.endTask h .cancel) ?_
    split
    · next e => exact (kept.memberRestore h).of e
    · cases t.pendDue h with
      | none => trivial
      | some f => exact kept.takePend h f

theorem boundary (h : Nat) : OptKeeps s (t.boundary h) := by
  unfold State.boundary
  refine .ite (.ite kept trivial) ?_
  split
  · next e => exact (kept.syncBoundary h).of e
  · cases t.asyncDue h with
    | none => trivial
    | some c => exact kept.takeAsync h c

/-! ## Failing agents and fatal errors (R199, R271) -/

theorem failMember (h : Nat) : Keeps s (t.failMember h) := by
  unfold State.failMember
  split
  · exact modHart (kept.packLeave _ h) h _
  · exact kept

theorem failCore (c : Nat) : Keeps s (t.failCore c) := fold (fun _ h kept => kept.failMember h) _ (kept.modCore c _)

theorem failAgent (a : Agent) : Keeps s (t.failAgent a) := by
  unfold State.failAgent
  split
  · exact kept.failCore _
  · exact kept
  · exact modDie (fold (fun _ c kept => .ite (kept.failCore c) kept) _ kept) _ _

theorem memPut (pa : Nat) (bs : List Byte) : Keeps s (t.memPut pa bs) := kept.home (t.memPut_frame pa bs)

theorem writeDump (f : Fatal) (base : Nat) : Keeps s (t.writeDump f base) :=
  fold (fun _ (p : Nat × List Byte) kept => kept.memPut (base + p.1 * 2 ^ 30 + 4096) p.2) _ (kept.memPut base _)

theorem fatalStop (c : FatalCause) (origin dies : Nat) : Keeps s (t.fatalStop c origin dies) := by
  unfold State.fatalStop
  extract_lets unit src logged f stopped
  have stopped_ : Keeps s stopped := kept
  clear_value stopped
  split
  · exact stopped_.writeDump f _
  · exact stopped_

/-! ## The host port (R277 to R281, R290) -/

/-- A match whose two arms are not looked into. -/
theorem option_match {o : Option Nat} {f : Nat → State} (some_ : ∀ a, Keeps s (f a)) :
    Keeps s (match o with
      | some a => f a
      | none => t) := by
  cases o with
  | none => exact kept
  | some a => exact some_ a

theorem serveNotify (n : Nat × Nat) : Keeps s (t.serveNotify n) := by
  unfold State.serveNotify
  refine kept.option_match ?_
  intro desc
  extract_lets v
  have processed : Keeps s v := kept.processQueue n.2 desc
  clear_value v
  split
  · exact processed
  · next pa k w _ =>
    have awaited := getD (kept.unblocks pa k w) kept
    generalize (t.unblocks pa k w).getD t = u at awaited ⊢
    exact awaited

theorem serveNotifies : Keeps s t.serveNotifies := .ite kept (fold (fun _ n kept => kept.serveNotify n) _ kept)

theorem hostArrives (pa : Nat) : Keeps s (t.hostArrives pa) := .ite (.ite kept kept) kept

theorem flushRegs (n : Nat) : Keeps s (t.flushRegs n) := by
  induction n generalizing t with
  | zero => exact kept
  | succ n ih =>
    unfold State.flushRegs
    split
    · exact ih (kept.performReg _ _)
    · exact kept

theorem recallWord (w : Nat) : Keeps s (t.recall w) := kept.home (t.recall_frame w)
theorem evictWord (c w : Nat) : Keeps s (t.evictWord c w) := kept.home (t.evictWord_frame c w)

theorem flushHost : Keeps s t.flushHost := by
  unfold State.flushHost
  have flushed := kept.flushRegs t.regs.length
  exact fold (fun _ c kept => fold (fun _ (l : ULine) kept => kept.cleanLine c l.line) _ kept) _
    (fold (f := State.recall) (fun _ w kept => kept.recallWord w) _ flushed)

theorem emptyL1 (c : Nat) : Keeps s (t.emptyL1 c) := by
  unfold State.emptyL1
  exact fold (fun _ l kept => modCore (kept.cleanLine c l) c _) _ (fold (fun _ w kept => kept.evictWord c w) _ kept)

theorem reportPorts (failed : List Nat) : Keeps s (t.reportPorts failed) := fold (fun _ _ kept => kept.logErr 0 _) _ kept

theorem train (b : BringUp) : Keeps s (t.train b) := by
  unfold State.train
  extract_lets begun repaired up
  have repaired_ : Keeps s repaired := kept
  have up_ : Keeps s up := reportPorts (t := repaired) repaired_ b.failedPorts
  exact .ite kept (.ite repaired_ (fold (fun _ k kept => kept.modHart (1024 + k) _) _ up_))

/-! ## Clocks, records and the throttle (R162, R163, R285, R289) -/

theorem tracePut (c : Nat) (a b : Word) : Keeps s (t.tracePut c a b) := kept.home (t.tracePut_frame c a b)

theorem putSync (c : Nat) : Keeps s (t.putSync c) := by
  unfold State.putSync
  split
  · exact modCore (kept.tracePut c _ _) c _
  · exact kept

theorem putSample (c : Nat) : Keeps s (t.putSample c) := .ite (modCore (kept.writeRecord c 7 _ 0 _ _) c _) kept

theorem syncDie (d bits : Nat) : Keeps s (t.syncDie d bits) := fold (fun _ k kept => kept.modCore (32 * d + k) _) _ kept

theorem decide_ (d : Nat) : Keeps s (t.decide_ d) := by
  unfold State.decide_
  refine .ite kept (.ite kept ?_)
  split
  · exact kept
  · exact kept

theorem applyOwn (d : Nat) : Keeps s (t.applyOwn d) := .ite kept (syncDie (kept.modDie d _) d 256)
theorem clearAnnounced (ds : List Nat) : Keeps s (t.clearAnnounced ds) := fold (fun _ d kept => kept.modDie d _) _ kept

theorem changeStep (ds : List Nat) (step : Nat) : Keeps s (t.changeStep ds step) :=
  fold (fun _ d kept => syncDie (kept.modDie d _) d 256) _ kept

theorem endStretch (d : Nat) : Keeps s (t.endStretch d) := syncDie (kept.modDie d _) d 128

theorem endStretches : Keeps s t.endStretches := by
  refine fold (fun u d kept => ?_) _ kept
  split
  · exact .ite (kept.endStretch d) kept
  · exact kept

/-! ## Core cycles and time (R10, R98, R104) -/

theorem countCycle (c : Nat) : Keeps s (t.countCycle c) := by
  unfold State.countCycle
  extract_lets mine idle u
  have counted : Keeps s u := .ite kept (fold (fun _ h kept => kept.modHart h _) _ kept)
  clear_value u
  split
  · exact .ite counted counted
  · exact counted

theorem closeCycle (c : Nat) : Keeps s (t.closeCycle c) := by
  unfold State.closeCycle
  have closed := endCycle (countCycle (closeTrace (putSample (kept.putSync c) c) c) c) c
  exact .ite closed closed

theorem runCore (c clock rate i n : Nat) : Keeps s (t.runCore c clock rate i n) := by
  induction n generalizing t i with
  | zero => exact kept
  | succ n ih =>
    unfold State.runCore
    extract_lets now src u
    have later : Keeps s { t with gtime := t.gtime + i + 1 } := kept
    have closed := later.closeCycle c
    have stepped : Keeps s u := by
      unfold u
      split
      · exact closed
      · exact kept
    exact ih stepped (i + 1)

theorem passCore (c ns : Nat) : Keeps s (t.passCore c ns) := .ite kept (kept.runCore c _ _ 0 ns)

theorem passSpan (ns : Nat) : Keeps s (t.passSpan ns) := by
  have passed : Keeps s ((List.range 136).foldl (fun (u : State) c => u.passCore c ns) t) :=
    fold (fun _ c kept => kept.passCore c ns) _ kept
  exact passed

theorem passTime (ns : Nat) : Keeps s (t.passTime ns) := by
  unfold State.passTime
  have served := kept.serveNotifies
  exact happen (.ite (fold (fun _ _ kept => endStretches (kept.passSpan 1)) _ served) (served.passSpan ns))

/-! ## Issue (R98, R99) -/

theorem begin (h : Nat) (it : Item) (w : Word) : Keeps s (t.begin h it w) := settleAheads (kept.modHart h _) h _

theorem block (h pa n : Nat) (write : Bool) : Keeps s (t.block h pa n write) := by
  unfold State.block
  exact modHart (getD (kept.unblocks pa n write) kept) h _

end

end Keeps

end Sys2Proof.Machine

/-! SUPPORT for MemoryStaysCanonical: every instruction keeps the canonical form of memory and the issuing hart. -/

namespace Sys2Proof.Machine

namespace Keeps

section
variable {s t : State} (kept : Keeps s t)
include kept

omit kept in
theorem finish (u : State) {r : Res} (res : ResKeeps s r) : OutKeeps s (Machine.finish u r) := finishAt u.cur 8 res

theorem privOnly {r : Res} (res : ResKeeps s r) : ResKeeps s (t.privOnly r) := .ite res kept

theorem execEcall (code : BitVec 24) : OutKeeps s (execEcall code t) := by
  unfold Machine.execEcall
  exact OutKeeps.ite (modHart (kept.takeTrap _ false 9 _ _ _) _ _) kept

end

end Keeps

/-- An instruction word keeps what `Keeps` names, whatever it comes to. -/
theorem exec_keeps {i : Instr} (words : encode i ≠ []) (s : State) : OutKeeps s (exec i s) := by
  have kept := Keeps.refl s
  cases i with
  | add | addi | and | andi | bindrUn | clz | ctz | div | fcmp | fmax | fmin | j | jal | lea | li | liExt | max | min | mov | mul
  | mulh | nop | or | ori | popc | rem | rpstat | sel | shl | shli | shr | slt | slti | sra | sub | tlread | tself | xor | xori
  | yield => exact kept
  | trmark => exact kept.record _ 4 _ _ _
  | fenceAcq => exact kept.effFenceAcq _
  | bkpt => exact Keeps.finish s (r := .trap s 8 0) kept
  | fadd | fsub | fmul | ffma | fdiv => exact Keeps.finish s (kept.effFround _ _)
  | fcvt => exact Keeps.finish s (kept.effFcvt _ _ _ _ _ _)
  | ld => exact Keeps.finish s (kept.effLoad _ _ _ _)
  | st => exact Keeps.finish s (kept.effStore _ _ _ _)
  | amo | cas => exact Keeps.finish s (kept.effAtomic _ _ _ _ _ _ _)
  | fenceRel => exact Keeps.finish s (kept.effFenceRel _)
  | fenceFull => exact Keeps.finish s (kept.effFenceFull _)
  | vdrain => exact Keeps.finish s (kept.effVdrain _)
  | acquire => exact Keeps.finish s (kept.effAcquire _ _)
  | release => exact Keeps.finish s (kept.effRelease _ _)
  | bindr => exact Keeps.finish s (kept.effBindr _ _ _ _)
  | tlwait => exact Keeps.finish s (kept.effTlwait _ _ _ _)
  | waita => exact Keeps.finish s (kept.effWaita _ _ _ _ _ _)
  | cflush | cflushInv | cinval => exact Keeps.finish s (kept.effLines _ _ _)
  | br | brnz | brz => exact Keeps.finish s (kept.effBranch _ _)
  | jr => exact Keeps.finish s (kept.effJump _ _ _)
  | jExt | jalExt => exact Keeps.finishAt s.cur 16 (kept.effJump _ _ _)
  | loopbr => exact Keeps.finish s (kept.effLoopbr _ _)
  | loopmarkWait => exact Keeps.finish s (kept.effLoopmarkWait _ _)
  | loopmarkAhead => exact Keeps.finish s (kept.effLoopmarkAhead _ _ _ _ _)
  | spawn => exact Keeps.finish s (kept.effSpawn _ _)
  | join => exact Keeps.finish s (kept.effJoin _ _ _)
  | joinLvl => exact Keeps.finish s (kept.effJoinLvl _ _)
  | tcancel => exact Keeps.finish s (kept.effTcancel _ _ _)
  | gang => exact Keeps.finish s (kept.effGang _ _ _)
  | tend => exact Keeps.finish s kept.effTend
  | setmt => exact Keeps.finish s (kept.effSetmt _)
  | setnv => exact Keeps.finish s (kept.effSetnv _)
  | setsb => exact Keeps.finish s (kept.effSetsb _)
  | setseed => exact Keeps.finish s (kept.effSetseed _)
  | setvl => exact Keeps.finish s (kept.effSetvl _ _ _)
  | mlogic | mpopc | mfirst | vabs | vadd | vadds | vamo | vand | vbscale | vclamp | vcmp | vcompress | vcvt | vdiv | vexp2 | vext
  | vfma | vid | vins | vld | vmax | vmin | vmov | vmul | vmulh | vmulhr | vneg | vor | vpackni | vperm | vred | vrem | vrshr
  | vrsqrt | vsel | vshl | vshr | vslide | vsqrt | vsra | vst | vsub | vunpkni | vxor =>
    rw [exec_queued rfl]
    exact Keeps.finish s (kept.queueVector _)
  | vbind => exact Keeps.finish s (kept.effVbind _ _)
  | vunbind => exact Keeps.finish s (kept.effVunbind _)
  | vcommit => exact Keeps.finish s (kept.effVcommit _)
  | wset => exact Keeps.finish s (kept.effWset _ _ _)
  | mrow => exact Keeps.finish s (kept.effMrow _ _ _ _ _ _)
  | mrowv => exact Keeps.finish s (kept.effMrowv _ _ _ _ _ _)
  | mkick => exact Keeps.finish s (kept.effMkick _)
  | mkickAll => exact Keeps.finish s kept.effMkickAll
  | cpy => exact Keeps.finish s (kept.effCopy _ _ _ _ _ _ _)
  | cpy2d => exact Keeps.finish s (kept.effCpy2d _ _ _ _ _ _ _)
  | xred => exact Keeps.finish s (kept.effXred _ _ _ _)
  | pkalloc => exact Keeps.finish s (kept.effPkalloc _ _ _ _)
  | pkenter => exact Keeps.finish s (kept.effPkenter _ _ _)
  | pkcommit => exact Keeps.finish s (kept.effPkcommit _)
  | pkabort => exact Keeps.finish s (kept.effPkabort _)
  | pkstat => exact Keeps.finish s (kept.effPkstat _ _ _)
  | pkfree => exact Keeps.finish s (kept.effPkfree _ _)
  | csrr => exact Keeps.finish s (kept.effCsrr _ _)
  | csrw => exact Keeps.finish s (kept.effCsrw _ _)
  | ecall code => exact kept.execEcall code
  | eret => exact Keeps.finish s (kept.privOnly kept.effEret)
  | eretKill => exact Keeps.finish s (kept.privOnly (kept.effEretKill _))
  | tlbinvVa => exact Keeps.finish s (kept.privOnly (kept.effTlbinvVa _ _ _ _))
  | tlbinvAsid => exact Keeps.finish s (kept.privOnly (kept.effTlbinvAsid _ _))
  | tlbinvAll => exact Keeps.finish s (kept.privOnly kept)
  | tlbinvWait => exact Keeps.finish s (kept.privOnly (kept.effTlbinvWait _ _))
  | asidsw => exact Keeps.finish s (kept.privOnly (kept.effAsidsw _ _))
  | ctxsave => exact Keeps.finish s (kept.privOnly (kept.effCtxsave _ _))
  | ctxload => exact Keeps.finish s (kept.privOnly (kept.effCtxload _ _))
  | biassetHost | biassetDev => exact Keeps.finish s (kept.privOnly (kept.effBiasset _ _ _ _))
  | poisonclr => exact Keeps.finish s (kept.privOnly (kept.effPoisonclr _ _))
  | pmigP4k | pmigP2m => exact Keeps.finish s (kept.privOnly (kept.effPmig _ _ _ _))
  | pmigRel => exact Keeps.finish s (kept.privOnly (kept.effPmigRel _ _ _))
  | _ => exact absurd rfl words
end Sys2Proof.Machine

/-! SUPPORT for MemoryStaysCanonical: every event keeps the canonical form of memory. -/

namespace Sys2Proof.Machine

/-- An outcome leaves memory canonical where it was. -/
def OutWf (s : State) : Out → Prop
  | .next t => s.mem.wf = true → t.mem.wf = true
  | _ => True

theorem OutKeeps.canonical {s : State} {o : Out} (kept : OutKeeps s o) : OutWf s o := by
  cases o with
  | next t => exact kept.wf
  | fault => trivial
  | refused => trivial

namespace OutKeeps

theorem event {s t : State} (kept : Keeps s t) : OutKeeps s (Machine.event t) := kept

/-- An event that takes place where a step of the device does. -/
theorem ofOpt {s : State} {o : Option State} (row : String) : OptKeeps s o → OutKeeps s (match o with
    | some t => Machine.event t
    | none => notEnabled row) := by
  cases o with
  | none => exact id
  | some t => exact id

/-- The same of a step that has said itself that something happened. -/
theorem ofStep {s : State} {o : Option State} (row : String) : OptKeeps s o → OutKeeps s (match o with
    | some t => .next t
    | none => notEnabled row) := by
  cases o with
  | none => exact id
  | some t => exact id

/-- What another hart's instruction keeps when it ends. -/
theorem asHart {s t : State} (kept : Keeps s t) (h : Nat) {f : State → Out}
    (ends : OutKeeps { t with cur := h } (f { t with cur := h })) : OutKeeps s (t.asHart h f) := by
  unfold State.asHart
  split
  · next e =>
    rw [e] at ends
    exact ⟨fun wf => ends.wf (kept.wf wf), kept.cur⟩
  · trivial
  · trivial

end OutKeeps

namespace Keeps

section
variable {s t : State} (kept : Keeps s t)
include kept

/-! ## Timeouts and arrivals (R99, R176, R189, R193) -/

theorem execWaitaTimeout (h : Nat) : OutKeeps s (execWaitaTimeout h t) := by
  refine OutKeeps.ite ?_ trivial
  split
  · exact .asHart (t := t.expire h) kept h (Keeps.finish _ ((Keeps.refl _).effWaita _ _ _ _ _ _))
  · trivial

theorem execTlwaitTimeout (h : Nat) : OutKeeps s (execTlwaitTimeout h t) := by
  refine OutKeeps.ite ?_ trivial
  split
  · exact .asHart (t := t.expire h) kept h (Keeps.finish _ ((Keeps.refl _).effTlwait _ _ _ _))
  · trivial

theorem execLoadDataArrival (h : Nat) : OutKeeps s (execLoadDataArrival h t) := by
  unfold Machine.execLoadDataArrival
  split
  · next w _ =>
    refine OutKeeps.ite ?_ trivial
    have arrived : Keeps s (t.modHart h fun x => { x with wait := some { w with expired := true } }) := kept
    generalize t.modHart h _ = u at arrived ⊢
    dsimp only
    split
    · exact .asHart arrived h (Keeps.finish _ ((Keeps.refl _).effLoad _ _ _ _))
    · exact .asHart arrived h (Keeps.finish _ ((Keeps.refl _).effPair _ _))
    · exact .asHart arrived h (Keeps.finish _ ((Keeps.refl _).effPkalloc _ _ _ _))
    · exact .asHart arrived h (Keeps.finish _ ((Keeps.refl _).effPkenter _ _ _))
    · exact .asHart arrived h (Keeps.finish _ ((Keeps.refl _).effPkstat _ _ _))
    · exact .asHart arrived h (Keeps.finish _ ((Keeps.refl _).effPkfree _ _))
    · exact .asHart arrived h (Keeps.finish _ ((Keeps.refl _).effSpawn _ _))
    · trivial
  · trivial

theorem execEvict (c line : Nat) : OutKeeps s (execEvict c line t) := by
  unfold Machine.execEvict
  split
  · next e => exact happen (kept.ofEvict e)
  · trivial

theorem execPageWalk (h : Nat) (va : Word) (acc : Acc) : OutKeeps s (execPageWalk h va acc t) :=
  OutKeeps.ite trivial (happen (kept.tr (t.walkFill_frame (t.ctx h) acc va.toNat)))

theorem execL2TlbEviction (d k : Nat) : OutKeeps s (execL2TlbEviction d k t) := by
  unfold Machine.execL2TlbEviction
  split
  · trivial
  · exact happen (home (kept.modDie d _) (State.dropFirst_frame _ d _))

/-! ## Boundaries and errors (R46, R199, R256, R271) -/

theorem execIllegalInstruction (h : Nat) : OutKeeps s (execIllegalInstruction h t) := by
  refine OutKeeps.ite trivial ?_
  have fetched := kept.fetchItem h
  split
  · next e => exact fetchTrap (fetched.fst_of e) h 1 _ _
  · trivial

theorem execInstructionFetchFault (h : Nat) : OutKeeps s (execInstructionFetchFault h t) := by
  refine OutKeeps.ite trivial ?_
  have fetched := kept.fetchItem h
  split
  · next e => exact OutKeeps.ite trivial (happen (fetchTrap (fetched.fst_of e) h _ _ _))
  · trivial

theorem execTimer (h : Nat) : OutKeeps s (execTimer h t) := by
  refine OutKeeps.ite (OutKeeps.ite kept trivial) ?_
  split
  · exact OutKeeps.ite (happen (kept.takeAsync h _)) trivial
  · trivial

theorem execRegisterSoftError (h reg word : Nat) (scalar : Bool) (syndrome : Word) :
    OutKeeps s (execRegisterSoftError h reg word scalar syndrome t) :=
  OutKeeps.ite trivial (OutKeeps.ite (OutKeeps.ite trivial (happen (fatalStop (kept.logErr _ _) .controlState _ 15)))
    (OutKeeps.ite (OutKeeps.ite trivial kept) (OutKeeps.ite trivial kept)))

theorem execAgentFailure (a : Agent) (syndrome : Word) : OutKeeps s (execAgentFailure a syndrome t) := by
  have poisoned : Keeps s (t.poisonAgent a) := kept
  exact OutKeeps.ite (OutKeeps.ite (OutKeeps.ite trivial (happen (fatalStop (kept.logErr _ _) .controlState _ 15)))
    (happen (logErr (poisoned.failAgent a) _ _))) trivial

/-! ## The host port (R277 to R281) -/

theorem execNotify (q : Nat) (v : Word) : OutKeeps s (execNotify q v t) := by
  refine OutKeeps.ite trivial ?_
  split
  · next d _ =>
    split
    · next desc _ => exact kept.agentWrite (some (.sched d)) (desc + 24) _
    · trivial
  · split
    · next desc _ => exact happen ((kept.hostPut (desc + 24) _).hostPut (desc + 32) _)
    · exact kept

theorem execHostMemRead (pa w : Nat) : OutKeeps s (execHostMemRead pa w t) := OutKeeps.ite trivial (kept.hostArrives pa)

theorem execHostMemWrite (pa w : Nat) (v : Word) : OutKeeps s (execHostMemWrite pa w v t) :=
  OutKeeps.ite trivial (OutKeeps.ite (happen (kept.hostArrives pa)) (happen ((kept.hostArrives pa).hostPut pa _)))

theorem execHostSnoop (line : Nat) (k : SnoopKind) : OutKeeps s (execHostSnoop line k t) := by
  refine OutKeeps.ite trivial ?_
  have answered : Keeps s ((List.range 136).foldl (fun (t : State) c => match (t.core c).uline line with
      | some _ => t.cleanLine c line
      | none => t) (t.recallRange (64 * line) 64)) := by
    refine fold (fun u c kept => ?_) _ (kept.recallRange (64 * line) 64)
    split
    · exact kept.cleanLine c line
    · exact kept
  generalize List.foldl _ _ (List.range 136) = u at answered ⊢
  exact happen (.ite answered answered)

theorem execSnoopResponse (line : Nat) (data : Option (List Byte)) : OutKeeps s (execSnoopResponse line data t) := by
  refine OutKeeps.ite trivial (happen (cleanHolds ?_))
  split
  · exact kept.snoopPut _ _
  · exact kept

theorem execBiasSnoopTimeout (h : Nat) : OutKeeps s (execBiasSnoopTimeout h t) := by
  unfold Machine.execBiasSnoopTimeout
  split
  · trivial
  · next pa _ =>
    have ended : Keeps s { t with flips := t.flips.filter (fun p => p != pa / 4096) } := kept
    exact OutKeeps.ite (happen ((ended.cleanHolds.takeTrap h false 6 _ _ _).noteDest h 6 _)) trivial

theorem execMailboxRecoveryImage (valid : Bool) (b : BringUp) : OutKeeps s (execMailboxRecoveryImage valid b t) :=
  OutKeeps.ite (happen (.ite (kept.train b) kept)) trivial

/-! ## Links and the throttle (R283 to R287) -/

theorem execFlitReceive (p : Nat) (f : FlitHead) (crcOk : Bool) (payload : List Byte) :
    OutKeeps s (execFlitReceive p f crcOk payload t) :=
  OutKeeps.ite trivial (OutKeeps.ite kept (happen (.ite kept kept)))

theorem execThrottleEvaluation (d : Nat) (x : ThrottleIn) : OutKeeps s (execThrottleEvaluation d x t) := by
  refine OutKeeps.ite trivial ?_
  have asked : Keeps s (t.modThr d fun k => { k with
      request := stepRequest (field (t.die d).thctl 0 4) x, evaluated := some t.gtime }) := kept
  dsimp only
  generalize State.modThr t d _ = u at asked ⊢
  refine happen (.ite (asked.applyOwn d) ?_)
  split
  · exact asked.decide_ _
  · exact asked

theorem execThrottleAck (d : Nat) : OutKeeps s (execThrottleAck d t) := by
  unfold Machine.execThrottleAck
  split
  · trivial
  · split
    · trivial
    · exact OutKeeps.ite kept trivial

theorem execThrottleEffect (d : Nat) : OutKeeps s (execThrottleEffect d t) := by
  unfold Machine.execThrottleEffect
  split
  · next step _ _ =>
    refine OutKeeps.ite trivial ?_
    split
    · have counted : Keeps s { t with fresh := t.fresh + 1 } := kept
      exact OutKeeps.ite trivial (happen (.ite ((counted.changeStep _ step).clearAnnounced _) (counted.clearAnnounced _)))
    · exact OutKeeps.ite (happen ((kept.changeStep [d] step).clearAnnounced [d])) trivial
  · trivial

theorem execLeaderSilence (d : Nat) : OutKeeps s (execLeaderSilence d t) :=
  OutKeeps.ite (happen (applyOwn (kept.modDie d _) d)) trivial

theorem execHbmTempSample (stack temp : Nat) : OutKeeps s (execHbmTempSample stack temp t) :=
  OutKeeps.ite trivial (OutKeeps.ite (OutKeeps.ite trivial (happen (kept.fatalStop .thermal _ 15))) kept)

end

end Keeps

/-! ## Reset and bring-up (R137, R280, R290) -/

/-- What a reset leaves of a canonical memory (R280) is canonical. -/
theorem Memory.wfFrom_hostPart {m : Memory} {lo : Nat} (wf : Memory.wfFrom lo m = true) :
    Memory.wfFrom lo (Memory.hostPart m) = true := by
  induction m generalizing lo with
  | nil => rfl
  | cons c rest ih =>
    obtain ⟨low, set_, later⟩ := Memory.wfFrom_cons.mp wf
    have kept := ih later
    unfold Memory.hostPart at kept ⊢
    rw [List.filter_cons]
    split
    · exact Memory.wfFrom_cons.mpr ⟨low, set_, kept⟩
    · exact Memory.wfFrom_mono kept (by omega)

theorem State.coldReset_wf {s : State} (wf : s.mem.wf = true) : s.coldReset.mem.wf = true := by
  rw [s.coldReset_mem]
  exact Memory.wfFrom_hostPart ((Keeps.refl s).flushHost.wf wf)

theorem execBringUp_canonical (b : BringUp) (s : State) : OutWf s (execBringUp b s) := by
  unfold execBringUp
  have reset := State.coldReset_wf (s := s)
  generalize s.coldReset = u at reset ⊢
  have booted : Keeps u (if b.imageOk then u.train b else { u with bringup := .recovery, linkUp := b.cxlOk }) :=
    .ite ((Keeps.refl u).train b) (Keeps.refl u)
  exact fun wf => booted.happen.wf (reset wf)

theorem execGtoStarvation_canonical (h : Nat) (s : State) : OutWf s (execGtoStarvation h s) := by
  unfold execGtoStarvation
  split
  · exact id
  · trivial

/-- An event keeps the canonical form of memory. GTO_STARVATION and BRING_UP alone change the issuing hart. -/
theorem exec_event_canonical {i : Instr} (row : encode i = []) (s : State) : OutWf s (exec i s) := by
  have kept := Keeps.refl s
  cases i
  case gtoStarvation h => exact execGtoStarvation_canonical h s
  case bringUp b => exact execBringUp_canonical b s
  all_goals apply OutKeeps.canonical
  case vectorStart h => exact .ofStep _ (kept.startHead h)
  case element h k => exact .ofStep _ (kept.stepElem h k)
  case elementGroup h => exact .ofStep _ (kept.runGroup h)
  case streamPrefetch h reg => exact .ofStep _ (kept.prefetch h reg)
  case loadDataArrival h => exact kept.execLoadDataArrival h
  case drain h => exact .ofOpt _ (kept.drainOldest h)
  case register k => exact .ofOpt _ (kept.arriveReg k)
  case evict c line => exact kept.execEvict c line
  case atomicStep k => exact .ofOpt _ (kept.stepAtomic k)
  case raMessageArrival k => exact .ofOpt _ (kept.arriveRa k)
  case pageWalk h va acc => exact kept.execPageWalk h va acc
  case tlbinvComplete d => exact .ofOpt _ (kept.completeInval d)
  case l2TlbEviction d k => exact kept.execL2TlbEviction d k
  case illegalInstruction h => exact kept.execIllegalInstruction h
  case instructionFetchFault h => exact kept.execInstructionFetchFault h
  case copyTransfer c ch => exact .ofOpt _ (kept.copyTransfer c ch)
  case copyFlagWrite c ch => exact .ofOpt _ (kept.copyFlag c ch)
  case rowCapture h => exact .ofOpt _ (kept.rowCapture h)
  case leash c k => exact .ofOpt _ (kept.onGroup c k _ _)
  case groupAge c k => exact .ofOpt _ (kept.onGroup c k _ _)
  case arrayTakeUp c => exact .ofOpt _ (kept.takeUp c)
  case tileLoad c => exact .ofOpt _ (kept.tileLoad c)
  case rowEnter c => exact .ofOpt _ (kept.rowEnter c)
  case rowResult c => exact .ofOpt _ (kept.rowDone c)
  case tileLatchError c => exact .ofOpt _ (kept.latchError c)
  case rowError c k wspace => exact .ofOpt _ (kept.rowError c k wspace)
  case landingComplete h tag => exact .ofOpt _ (kept.landingDone h tag)
  case collectiveComplete d k contrib => exact .ofOpt _ (kept.collective d k contrib)
  case xredTimeout d k => exact .ofOpt _ (kept.collectiveTimeout d k)
  case millraceIteration d k => exact .ofOpt _ (kept.slotIteration d k)
  case replayComplete d k => exact .ofOpt _ (kept.replayDone d k)
  case departure d k => exact .ofOpt _ (kept.departure d k)
  case taskPop h => exact .ofOpt _ (kept.pop h)
  case agingMove d part level => exact .ofOpt _ (kept.age d part level)
  case gangTimeout d k => exact .ofOpt _ (kept.gangTimeout d k)
  case cancelBroadcast d => exact .ofOpt _ (kept.cancelBroadcast d)
  case doneContPush d => exact .ofOpt _ (kept.pushHeld d true)
  case heldPush d => exact .ofOpt _ (kept.pushHeld d false)
  case leaseGrant c => exact .ofOpt _ (kept.grant c)
  case packCountArrival h => exact .ofOpt _ (kept.countArrival h)
  case packFlip handle => exact .ofOpt _ (kept.packFlip handle)
  case packAbort handle code => exact .ofOpt _ (kept.packAbort handle code)
  case memberRestore h => exact .ofOpt _ (kept.memberRestore h)
  case tentativeStoreArrival h => exact .ofOpt _ (kept.tentArrival h)
  case nonmemberHoldExpiry k => exact .ofOpt _ (kept.holdExpiry k)
  case packLifetimeExpiry handle => exact .ofOpt _ (kept.packAbort handle 6)
  case timer h => exact kept.execTimer h
  case waitaTimeout h => exact kept.execWaitaTimeout h
  case tlwaitTimeout h => exact kept.execTlwaitTimeout h
  case registerSoftError h reg word scalar syndrome => exact kept.execRegisterSoftError h reg word scalar syndrome
  case agentFailure a syndrome => exact kept.execAgentFailure a syndrome
  case fatalError c origin dieMask => exact .ite trivial (.event (kept.fatalStop c origin dieMask))
  case thermalTrip d _ => exact .ite trivial (.event (kept.fatalStop .thermal d 15))
  case sync c => exact .ite (.event (kept.putSync c)) trivial
  case sample c => exact .ite (.event (kept.putSample c)) trivial
  case trctlWrite c v => exact .ite (.event (kept.writeTrctl c v)) trivial
  case partitionChange c => exact .ite (.event (kept.changePartition c)) trivial
  case queueMap d q v => exact .ite (.event (kept.mapQueue d q v)) trivial
  case queueUnmap d q v => exact .ite (.event (kept.unmapQueue d q v)) trivial
  case qsubmit d v => exact .ite (.event (kept.submit d v)) trivial
  case xgctlWrite d v => exact .ite (.event (kept.writeXgctl d v)) trivial
  case configRegisterWrite d off v => exact .ite (.event (kept.writeCreg d _ v)) trivial
  case notify q v => exact kept.execNotify q v
  case hostMemRead pa w => exact kept.execHostMemRead pa w
  case hostMemWrite pa w v => exact kept.execHostMemWrite pa w v
  case hostSnoop line k => exact kept.execHostSnoop line k
  case snoopResponse line data => exact kept.execSnoopResponse line data
  case biasSnoopTimeout h => exact kept.execBiasSnoopTimeout h
  case mailboxRecoveryImage valid b => exact kept.execMailboxRecoveryImage valid b
  case flitReceive port head crcOk payload => exact kept.execFlitReceive port head crcOk payload
  case throttleEvaluation d x => exact kept.execThrottleEvaluation d x
  case throttleAck d => exact kept.execThrottleAck d
  case throttleEffect d => exact kept.execThrottleEffect d
  case leaderSilence d => exact kept.execLeaderSilence d
  case hbmTempSample stack temp => exact kept.execHbmTempSample stack temp
  case stretchEnd d => exact .ite (.event (kept.endStretch d)) trivial
  case corePowerGating c => exact .ite (.event ((kept.emptyL1 c).modCore c _)) trivial
  case watchdog | preemptRequest | partcoreWrite | qringWrite | mrreclaim | mailboxDumpAddress | mailboxBringupStatus |
    doeSpdmRequest | throttleAnnouncement | supplyDroop | corePowerUngating => exact .ite kept trivial
  case laneRetired | portLaneLoss => exact .ite trivial kept
  case vmov byVew _ => cases byVew <;> exact absurd row (List.cons_ne_nil _ _)
  all_goals exact absurd row (List.cons_ne_nil _ _)

theorem exec_canonical (i : Instr) (s : State) : OutWf s (exec i s) := by
  by_cases row : encode i = []
  · exact exec_event_canonical row s
  · exact (exec_keeps row s).canonical

end Sys2Proof.Machine

/-! PROOF of MemoryStaysCanonical. -/

namespace Sys2Proof.Machine

theorem OutWf.from_ {s t : State} {o : Out} (kept : s.mem.wf = true → t.mem.wf = true) (ends : OutWf t o) : OutWf s o := by
  cases o with
  | next u => exact fun wf => ends (kept wf)
  | fault => trivial
  | refused => trivial

/-- An outcome that is named by an equation. -/
theorem OutWf.of {s : State} {o u : Out} (ends : OutWf s o) (e : o = u) : OutWf s u := by
  rw [e] at ends
  exact ends

theorem OutWf.ite {s : State} {p : Prop} [Decidable p] {a b : Out} (left : OutWf s a) (right : OutWf s b) :
    OutWf s (if p then a else b) := by
  split <;> assumption

/-- An attempt to issue leaves memory canonical where it was. -/
def AttemptWf (s : State) : Attempt → Prop
  | .issued r => OutWf s r
  | .other r => OutWf s r

theorem AttemptWf.ite {s : State} {p : Prop} [Decidable p] {a b : Attempt} (left : AttemptWf s a) (right : AttemptWf s b) :
    AttemptWf s (if p then a else b) := by
  split <;> assumption

theorem AttemptWf.of {s : State} {a b : Attempt} (ends : AttemptWf s a) (e : a = b) : AttemptWf s b := by
  rw [e] at ends
  exact ends

/-! ## Issue (R98, R99) -/

theorem State.run_canonical (s : State) (h : Nat) (it : Item) : OutWf s (s.run h it) := by
  unfold State.run
  split
  · exact exec_canonical _ s
  · exact (Keeps.finish s ((Keeps.refl s).effPair _ _)).canonical
  · exact id

theorem State.settle_canonical (s : State) (h : Nat) {r : Out} (ends : OutWf s r) : OutWf s (s.settle h r) := by
  unfold State.settle
  split
  · split
    · exact ends
    · exact ((Keeps.refl s).block h _ _ _).wf
  · exact ends

theorem State.first_canonical (s : State) (h : Nat) (it : Item) (w : Word) : AttemptWf s (s.first h it w) := by
  unfold State.first
  have kept := Keeps.refl s
  refine AttemptWf.ite kept.wf ?_
  have tested (after : Bool) : Keeps s (if after then (s, false) else s.breakAt h (s.hart h).pc w false).1 :=
    Keeps.fst_ite kept (kept.breakAt h _ w false)
  split
  · next e => exact ((tested _).fst_of e).wf
  · next u e =>
    have at_ : Keeps s u := (tested _).fst_of e
    exact AttemptWf.ite ((at_.takeTrap h false 6 _ 0 w).noteDest h 6 _).wf
      (.from_ (at_.begin h it w).wf (State.run_canonical _ h it))

theorem State.issueOne_canonical (s : State) (h : Nat) : AttemptWf s (s.issueOne h) := by
  unfold State.issueOne
  have fetched := (Keeps.refl s).fetchItem h
  split
  · next e => exact (Keeps.fetchTrap (fetched.fst_of e) h _ _ _).wf
  · next u it w e =>
    have at_ : Keeps s u := fetched.fst_of e
    have ends := u.first_canonical h it w
    revert ends
    cases u.first h it w with
    | issued r => exact .from_ at_.wf
    | other r => exact .from_ at_.wf

theorem State.issue_canonical (s : State) (h : Nat) : OutWf s (s.issue h) := by
  unfold State.issue
  have ends := State.issueOne_canonical { s with cur := h } h
  dsimp only
  split
  · next e => exact State.settle_canonical { s with cur := h } h (ends.of e)
  · next t e =>
    split
    · exact ends.of e
    · exact ((Keeps.refl { s with cur := h }).block h _ _ _).wf
  · next e => exact ends.of e

theorem State.look_canonical (s : State) (h : Nat) : OutWf s (s.look h) := by
  unfold State.look
  dsimp only
  split
  · refine OutWf.ite id ?_
    have closed := (Keeps.refl { s with cur := h }).settleAheads h (itemInstrs (State.hart { s with cur := h } h).item)
    exact State.settle_canonical { s with cur := h } h (.from_ closed.wf (State.run_canonical _ h _))
  · exact id

/-! ## The order of moves (log 3) -/

/-- A step that may not take place leaves memory canonical where it was. -/
def OptWf (s : State) (o : Option State) : Prop := ∀ t, o = some t → s.mem.wf = true → t.mem.wf = true

theorem OptWf.ofNone (s : State) : OptWf s none := fun _ e => by cases e

theorem OptKeeps.canonical {s : State} {o : Option State} (kept : OptKeeps s o) : OptWf s o := fun _ e => (kept.of_some e).wf

theorem State.freed_canonical (s : State) {r : Out} (ends : OutWf s r) : OptWf s (s.freed r) := by
  intro u freed_ wf
  unfold State.freed at freed_
  split at freed_
  · split at freed_
    · exact Option.some.inj freed_ ▸ ends wf
    · exact ((Keeps.refl s).unblocks _ _ _).canonical u freed_ wf
  · cases freed_

/-- A move that may not take place leaves memory canonical where it was. -/
def MoveWf (s : State) (o : Option Out) : Prop := ∀ r, o = some r → OutWf s r

theorem MoveWf.ofNone (s : State) : MoveWf s none := fun _ e => by cases e
theorem MoveWf.ofSome {s : State} {r : Out} (ends : OutWf s r) : MoveWf s (some r) := fun _ e => Option.some.inj e ▸ ends

theorem MoveWf.map {s : State} {o : Option State} (ends : OptWf s o) : MoveWf s (o.map .next) := by
  intro r moves
  obtain ⟨t, e, rfl⟩ := Option.map_eq_some_iff.mp moves
  exact ends t e

theorem MoveWf.findSome {α : Type} {s : State} {f : α → Option Out} {l : List α} (each : ∀ a, MoveWf s (f a)) :
    MoveWf s (l.findSome? f) := by
  intro r found
  obtain ⟨a, -, e⟩ := List.exists_of_findSome?_eq_some found
  exact each a r e

theorem State.background_canonical (s : State) : OptWf s s.background := by
  intro t found
  obtain ⟨i, -, e⟩ := List.exists_of_findSome?_eq_some found
  exact s.freed_canonical (exec_canonical i s) t e

theorem State.hartMove_canonical (s : State) (h : Nat) : MoveWf s (s.hartMove h) := by
  unfold State.hartMove
  have boundary := (Keeps.refl s).boundary h
  split
  · next t e => exact .map (s.freed_canonical (r := .next t) (boundary.of_some e).wf)
  · split
    · exact .ofSome (s.look_canonical h)
    · exact .ofNone s

theorem State.coreMove_canonical (s : State) (c : Nat) : MoveWf s (s.coreMove c) := by
  unfold State.coreMove
  have own : MoveWf s ((hartsOf c).findSome? fun h => s.hartMove h) := .findSome s.hartMove_canonical
  split
  · next e => exact .ofSome (own _ e)
  · split
    · exact .ofNone s
    · cases s.select c with
      | none => exact .ofNone s
      | some h => exact .ofSome (s.issue_canonical h)

theorem State.turn_canonical (s : State) : MoveWf s s.turn := by
  refine MoveWf.findSome fun k => ?_
  intro r moves
  obtain ⟨u, moved, rfl⟩ := Option.map_eq_some_iff.mp moves
  have ends := s.coreMove_canonical ((coreOf s.cur + k) % 136) u moved
  cases u with
  | next t => exact ends
  | fault => trivial
  | refused => trivial

theorem State.auto_canonical (s : State) : OutWf s s.auto := by
  unfold State.auto
  have early : OptWf s (if s.gtime % 8 = 7 then s.background else none) := by
    split
    · exact s.background_canonical
    · exact .ofNone s
  have late := s.background_canonical
  have turned := s.turn_canonical
  split
  · next e => exact early _ e
  · split
    · next e => exact turned _ e
    · refine .ite ((Keeps.refl s).passTime 1).wf ?_
      split
      · next e => exact late _ e
      · exact ((Keeps.refl s).passTime 10).wf

theorem State.askIssue_canonical (s : State) (h : Nat) : OutWf s (s.askIssue h) := by
  unfold State.askIssue
  have own := s.hartMove_canonical h
  have late := s.background_canonical
  have passed := ((Keeps.refl s).passTime 1).wf
  split
  · next e => exact own _ e
  · refine .ite ?_ (.ite passed (.ite (s.issue_canonical h) trivial))
    split
    · next e =>
      have ends := late _ e
      exact ends
    · exact passed

theorem State.letPass_canonical (s : State) (ns : Nat) : OutWf s (s.letPass ns) := by
  unfold State.letPass
  have turned := s.turn_canonical
  split
  · next e =>
    have ends := turned _ e
    exact ends
  · next e => exact turned _ e
  · exact .ite ((Keeps.refl s).passTime ns).wf ((Keeps.refl s).passTime 1).wf

theorem State.move_canonical (s : State) (m : Move) : OutWf s (s.move m) := by
  unfold State.move
  split
  · exact s.askIssue_canonical _
  · next i =>
    refine .ite ?_ trivial
    have ends := exec_canonical i s
    split
    · next t e =>
      have free := s.freed_canonical (r := .next t) (ends.of e)
      split
      · next e => exact free _ e
      · trivial
    · exact ends
  · exact s.letPass_canonical _

theorem step_canonical (s : State) : OutWf s (step s) := by
  unfold step
  split
  · exact s.auto_canonical
  · next m rest _ _ => exact State.move_canonical { s with agenda := rest } m
  · next i rest _ _ => exact .ite (State.move_canonical { s with agenda := rest } (.event i)) trivial
  · trivial

/-- Settles O59: memory is written at the homes alone, by writes that keep the form; what a step does otherwise either leaves
memory or, as a reset, keeps a part of it. -/
theorem memoryStaysCanonical : Obligations.MemoryStaysCanonical := fun s _ wf steps => (step_canonical s).of steps wf

end Sys2Proof.Machine
